-- ==== Sys2Proof/Word.lean ====
section
/-! DEFINITION. The words of the Moawikel M8 and their plainest arithmetic (spec 00, R3; 03, R41). -/

namespace Sys2Proof

/-- A byte of memory, the smallest addressable unit (R3). -/
abbrev Byte := BitVec 8

/-- A 32-bit word: an instruction word (R41) or one lane of a vector register (R51). -/
abbrev Word := BitVec 32

/-- A 64-bit scalar register, literal or address (R51). -/
abbrev Dword := BitVec 64

/-- An accumulator entry (R243). -/
abbrev Acc48 := BitVec 48

end Sys2Proof
end

