-- ==== Sys2Proof/Config.lean ====
section
/-! DEFINITION. What an implementation fixes and the free values: constants the spec leaves open.
Each opaque constant has no body, so nothing can be proved of its value. -/

namespace Sys2Proof.Config

/-- `%cycles` in free mode counts arithmetic-clock cycles (R29), a matter of timing: one free value for
each read, chosen by the counter `State.freeCtr` (log 3). -/
opaque freeCycles : Nat → BitVec 64

/-- Address and syndrome that a network element reports for a beat that failed twice (R376), which the spec does not give: free
values, chosen by the counter `State.freeCtr` (log 78). -/
opaque freeBeat : Nat → BitVec 64

/-- The bytes that a saved group's slot holds in its card's save area, whose layout the spec does not give (R296, R300): free
values, chosen by the counter `State.freeCtr` and the byte's place in the slot (log 77). -/
opaque freeSaved : Nat → Nat → BitVec 8

/-- Microseconds since reset in the record of an error that no argument dates (R376): a free value, chosen by the counter
`State.freeCtr` (log 78). -/
opaque freeTime : Nat → BitVec 64

/-- The correctly rounded value of a transcendental function or index whose rounding the model's
interval arithmetic does not decide at its highest precision (log 12): a free value. -/
opaque freeRound : Nat → Nat → Nat → BitVec 64

end Sys2Proof.Config
end

