-- ==== Sys2Proof/Machine/Sha.lean ====
section
/-! DEFINITION. SHA-256 (R356, R357, R362) and the architected mixer (R360). -/

namespace Sys2Proof.Machine

/-- The prime numbers below 312, which are the first 64. -/
def firstPrimes : List Nat :=
  (List.range 312).filter fun n => Nat.ble 2 n && [2, 3, 5, 7, 11, 13, 17].all fun d => n == d || n % d != 0

/-- The whole part of the `k`th root of `x`, bit by bit from `r` with `n` bits still to come. -/
def rootBits (k x : Nat) : Nat → Nat → Nat
  | 0, r => r
  | n + 1, r => rootBits k x n (if (r + 2 ^ n) ^ k ≤ x then r + 2 ^ n else r)

/-- The first 32 bits of the fraction of the `k`th root of `p`. -/
def rootFraction (k p : Nat) : Word := BitVec.ofNat 32 (rootBits k (p * 2 ^ (32 * k)) 35 0)

/-- The constant that round i adds: the fraction of the cube root of the i-th prime. -/
def roundConsts : List Word := firstPrimes.map (rootFraction 3)

/-- The chaining value before the first block: fractions of the square roots of the first eight primes. -/
def startValue : List Word := (firstPrimes.take 8).map (rootFraction 2)

/-- The number that bytes hold, most significant first. -/
def beWord (b : List Byte) : Word := BitVec.ofNat 32 (b.foldl (fun a x => a * 256 + x.toNat) 0)

/-- Cuts a list into pieces of `n`, at most `fuel` of them. -/
def chunks {α : Type} (n : Nat) : Nat → List α → List (List α)
  | 0, _ => []
  | fuel + 1, l => if l.isEmpty then [] else l.take n :: chunks n fuel (l.drop n)

/-- The exclusive or of a word turned right by two counts with a third word. -/
def turned (x : Word) (i j : Nat) (y : Word) : Word := (x.rotateRight i ^^^ x.rotateRight j) ^^^ y

/-- Extends a message block's words, held newest first, by `n` more. -/
def extendWords : Nat → List Word → List Word
  | 0, l => l
  | n + 1, l =>
    let back (i : Nat) : Word := l.getD (i - 1) 0
    extendWords n ((back 16 + back 7 + turned (back 15) 7 18 (back 15 >>> (3 : Nat)) + turned (back 2) 17 19 (back 2 >>> (10 : Nat))) :: l)

/-- One round, with the round's constant and message word already summed: the working variables in order, first to eighth. -/
def oneRound (v : List Word) (x : Word) : List Word :=
  let at_ (i : Nat) : Word := v.getD i 0
  let pick : Word := at_ 6 ^^^ (at_ 4 &&& (at_ 5 ^^^ at_ 6))
  let most : Word := (at_ 0 &&& at_ 1) ||| (at_ 2 &&& (at_ 0 ||| at_ 1))
  let low := at_ 7 + x + pick + turned (at_ 4) 6 11 ((at_ 4).rotateRight 25)
  let high := most + turned (at_ 0) 2 13 ((at_ 0).rotateRight 22)
  (low + high) :: v.take 3 ++ (at_ 3 + low) :: (v.drop 4).take 3

/-- The chaining value after a block of 64 bytes. -/
def hashBlock (h : List Word) (b : List Byte) : List Word :=
  let words := extendWords 48 ((chunks 4 16 b).foldl (fun l c => beWord c :: l) [])
  let v := (List.zipWith (fun k x => k + x) roundConsts words.reverse).foldl oneRound h
  List.zipWith (fun x y => x + y) h v

/-- The message with its end mark, zeros up to a whole block, and its length in bits. -/
def padded (m : List Byte) : List Byte :=
  let fill := (183 - m.length % 64) % 64
  m ++ [128] ++ List.replicate fill 0 ++ (List.range 8).reverse.map fun i => BitVec.ofNat 8 (m.length * 8 / 2 ^ (8 * i))

/-- SHA-256 of a list of bytes. -/
def sha256 (m : List Byte) : List Byte :=
  ((chunks 64 (m.length / 64 + 2) (padded m)).foldl hashBlock startValue).flatMap fun w =>
    (List.range 4).map fun i => BitVec.ofNat 8 (w.toNat / 2 ^ (24 - 8 * i))

/-- The mixer of R360. -/
def mix (x : Dword) : Dword :=
  let x := x ^^^ (x >>> (31 : Nat))
  let x := x * 0x9E6B2C4D7A31F5C3
  let x := x ^^^ (x >>> (29 : Nat))
  let x := x * 0xC2D58E3B41A796ED
  x ^^^ (x >>> (32 : Nat))

/-- `n` bytes of a number, little-endian (R3). -/
def leBytes (n x : Nat) : List Byte := (List.range n).map fun i => BitVec.ofNat 8 (x / 256 ^ i)
/-- The number that bytes hold, little-endian. -/
def leNat (b : List Byte) : Nat := b.foldr (fun x a => x.toNat + 256 * a) 0

end Sys2Proof.Machine
end

