-- ==== Sys2Proof/Syntax.lean ====
section
/-! DEFINITION. The instruction set as syntax: operand structures of the encodings of spec 03, the operations
of the opcode map (R57), and `Instr`, one constructor for each row of the opcode table. The rows after the
machine instructions are events: acts of the turn unit, the dealer, the engines, the fabric and the host. -/

namespace Sys2Proof

/-- The operation types of R54. -/
inductive Ty where
  | i32 | n32 | i64 | n64 | i16 | n16 | i8 | n8 | f32 | f64 | f16 | bf16 | sli | fa48 | i48 | b32
  | bfp2 | bfp3 | bfp4 | bfp5 | bfp6 | bfp7 | bfp8
  deriving DecidableEq, Repr

/-- The code of a type (R54). -/
def Ty.code : Ty → Nat
  | .i32 => 0 | .n32 => 1 | .i64 => 2 | .n64 => 3 | .i16 => 4 | .n16 => 5 | .i8 => 6 | .n8 => 7
  | .f32 => 8 | .f64 => 9 | .f16 => 10 | .bf16 => 11 | .sli => 12 | .fa48 => 13 | .i48 => 14 | .b32 => 15
  | .bfp2 => 16 | .bfp3 => 17 | .bfp4 => 18 | .bfp5 => 19 | .bfp6 => 20 | .bfp7 => 21 | .bfp8 => 22

/-- The type of a code; codes 23 to 31 are illegal (R54). -/
def Ty.ofCode : Nat → Option Ty
  | 0 => some .i32 | 1 => some .n32 | 2 => some .i64 | 3 => some .n64 | 4 => some .i16 | 5 => some .n16
  | 6 => some .i8 | 7 => some .n8 | 8 => some .f32 | 9 => some .f64 | 10 => some .f16 | 11 => some .bf16
  | 12 => some .sli | 13 => some .fa48 | 14 => some .i48 | 15 => some .b32 | 16 => some .bfp2 | 17 => some .bfp3
  | 18 => some .bfp4 | 19 => some .bfp5 | 20 => some .bfp6 | 21 => some .bfp7 | 22 => some .bfp8
  | _ => none

/-- The flags of every first word (R40): park point and run end (R42). -/
structure Flags where
  pk : Bool
  en : Bool
  deriving DecidableEq, Repr

/-- The fields of the long form (R47). `lit` is the 64-bit literal, present exactly with `LEN` = 0b11. -/
structure Long where
  fl  : Flags
  ty  : Ty
  fn  : BitVec 8
  d   : BitVec 8
  a   : BitVec 8
  b   : BitVec 8
  c   : BitVec 8
  neg : Bool
  pred : BitVec 3
  mod : BitVec 4
  imm : BitVec 32
  lit : Option (BitVec 64)
  deriving DecidableEq, Repr

/-- SR with `d` = `a` = `b` = 0: `NOP` and `EXIT` (R45). -/
structure ShortZ where
  fl : Flags
  deriving DecidableEq, Repr

/-- SR with `d` = `b` = 0: `BRX` and `JOIN` (R45). -/
structure ShortA where
  fl : Flags
  a  : BitVec 7
  deriving DecidableEq, Repr

/-- SR: three register numbers; with a literal `b` is 0x7F (R44). -/
structure ShortR where
  fl  : Flags
  d   : BitVec 7
  a   : BitVec 7
  b   : BitVec 7
  lit : Option (BitVec 64)
  deriving DecidableEq, Repr

/-- SI: destination, source and the signed immediate; with a literal `imm7` is 0x7F (R44). -/
structure ShortI where
  fl  : Flags
  d   : BitVec 7
  a   : BitVec 7
  imm7 : BitVec 7
  lit : Option (BitVec 64)
  deriving DecidableEq, Repr

/-- SM: data register, base register and scaled offset (R44). -/
structure ShortM where
  fl   : Flags
  data : BitVec 7
  base : BitVec 7
  off7 : BitVec 7
  deriving DecidableEq, Repr

/-- SB: the branch offset in words (R44). -/
structure ShortB where
  fl    : Flags
  off21 : BitVec 21
  deriving DecidableEq, Repr

/-- SC: the conditional branch (R44). -/
structure ShortC where
  fl    : Flags
  off17 : BitVec 17
  neg   : Bool
  pred  : BitVec 3
  deriving DecidableEq, Repr

/-- A floor beacon (R344): index and sequence number of the sender, its lower-bound stamp for each domain, by the partition
number of the island, and its lower bounds on the bases of entries still to be admitted (R287); unlisted: unbounded. -/
structure Beacon where
  peer : Nat
  seq  : Nat
  bounds : List (Nat × Nat × Nat)
  abounds : List (Nat × Nat)
  deriving DecidableEq, Repr

/-- What a flit carries (R330): a beacon, or part `part` of a message whose act is an event of its own: the request of an
instruction of a warp that starts at clock `clock`, the reply to it, a publication by its stamp, or an invocation by the
origin and identity of the card it creates; or other bytes. -/
inductive FlitPayload where
  | beacon (b : Beacon)
  | request (warp clock part : Nat)
  | reply (warp clock part : Nat)
  | publication (clock ident part : Nat)
  | invocation (clock ident part : Nat)
  | data (bytes : List Byte)
  deriving DecidableEq, Repr

/-- What a flit carries from chip to chip (R330): the destination and source chips by index, its place among what the source has
sent, by which a copy of it that comes again is known (R331), and the payload, which gives its kind. -/
structure Packet where
  dest : Nat
  src : Nat
  tag : Nat
  payload : FlitPayload
  deriving DecidableEq, Repr

/-- A flit (R330): a packet under a sequence number. -/
structure Flit extends Packet where
  seq : Nat
  deriving DecidableEq, Repr

/-- A fault that the SRAM patrol finds (R375): a correctable one of a slice, a correctable one elsewhere,
or an uncorrectable one of a core or a slice. -/
inductive SramFault where
  | corrected (die slice : Nat)
  | correctedCore (die core : Nat)
  | doubleCore (die core addr synd : Nat)
  | doubleSlice (die slice addr synd : Nat)
  deriving DecidableEq, Repr

/-- Where a machine check arises (R376): the element code, whether it is an element of a core, the die, the unit, the
address and the syndrome. -/
structure ErrSite where
  elem : Nat
  core : Bool
  die  : Nat
  unit : Nat
  addr : Nat
  synd : Nat
  deriving DecidableEq, Repr

/-- Host registers that a write sets under its access codes (R4): argument dwords and STAT of a command
interface (`none`: the system interface, `some p`: partition p's), the head of the fault queue, and a region
register of the secure monitor (R377); the size of window B as PCI Express resizes it (R368, 2^n GiB). -/
inductive HostReg where
  | arg (iface : Option Nat) (i : Nat)
  | stat (iface : Option Nat)
  | fqHead (part : Nat)
  | region (i : Nat)
  | barSize (n : Nat)
  | reserved (off : Nat)
  deriving DecidableEq, Repr

/-- The operations of the opcode map (R57): a major opcode, or one of its forms. -/
inductive Op where
  | nop | bra | brc | brx | call | callReg | ret | mark | join | exit | rep | repReg | rgn | trap | bpt | eret | srd | srdHi | swr | give | claim | jmovToS | jmovToJ | sadd | ssub | smul | sand | sor | sxor | sshl | sshr | ssra | scmp | ssel | smov | vadd | vsub | vadds | vsubs | vmul24 | vmad24 | vmul | vmulh | vmad | vmin | vmax | vabs | vand | vor | vxor | vnot | vshl | vshr | vsra | vrot | vbfe | vbfi | vpopc | vclz | vbrev | vcmp | vsel | vmov | vmovBc | vfadd | vfsub | vfmul | vffma | vfmin | vfmax | vfabs | vfneg | vfcmp | vfclass | vfrnd | vfscale | vfdot2 | vcvt | vbfpq | vbfpx | vshfl | vvote | vvoteBallot | vrdc | vscan | vbcast | vbcastS | vmatch | plop | pmovPs | pmovSp | vld | vst | vlds | vsts | sld | sst | vprf | cctlInv | cctlInvall | cctlEvict | tlbiVa | tlbiCtx | tlbiAll | migrMove | migrSet | migrQuery | atom | pot | acq | rel | fenceRel | fenceSc | barArr | barWait | barSync | barTest | tktWait | tktDone | pass | passTo | turn | fshootVa | fshootCtx | mma | accrd | accwr | accz | cpslice | cploop | cpchain | cpacc | bfwait | bfrel | vrcp | vrsq | vsqrt | vexp2 | vlog2 | vsinpi | vcospi | vtanh | vfdiv | lxadd | lxsub | lxmul | lxdiv | lxcmp | lxexp | lxlog | lxlvl | lxcvt | spawn | invoke | invokeh | fwait | fpoll | fref | fdrop | fpin | fresVal | fresPlace | fbreak | savept | digest | seed
  deriving DecidableEq, Repr

/-- One constructor for each row of the opcode table. -/
inductive Instr where
  /-- Short no-operation: adds its pip and has no other effect. (R89) -/
  | nopShort (f : ShortZ)
  /-- Long no-operation: adds its pip and has no other effect. (R89) -/
  | nopLong (f : Long)
  /-- Short unconditional branch: sets the issuing fragment's program counter to pc plus 4 times the sign-extended 21-bit offset. (R83) -/
  | braShort (f : ShortB)
  /-- Long unconditional branch with a 32-bit word offset. (R83) -/
  | braLong (f : Long)
  /-- Short conditional branch on a predicate: takes, falls through, or divides the fragment into a new fragment. (R84) -/
  | brcShort (f : ShortC)
  /-- Long conditional branch that may divide the issuing fragment. (R84) -/
  | brcLong (f : Long)
  /-- Short indirect branch to the address in an s register, faulting on a misaligned target. (R83) -/
  | brxShort (f : ShortA)
  /-- Long indirect branch to the address in an s register. (R83) -/
  | brxLong (f : Long)
  /-- Call to a relative label: writes the link to sD and branches. (R83) -/
  | call (f : Long)
  /-- Call to the address in sA: reads the target, writes the link to sD and branches. (R83) -/
  | callReg (f : Long)
  /-- Return: branches to the address in sA, marked as a return for the predictor. (R83) -/
  | ret (f : Long)
  /-- Sets a rejoin register's address, expected mask and empty arrived mask, or faults if it has arrivals. (R85) -/
  | mark (f : Long)
  /-- Short join: adds the fragment's lanes to a rejoin register and either reunites the fragments or waits. (R86) -/
  | joinShort (f : ShortA)
  /-- Long join on a rejoin register. (R86) -/
  | joinLong (f : Long)
  /-- Short exit: ends every lane of the issuing fragment and frees its identifier. (R89) -/
  | exitShort (f : ShortZ)
  /-- Long exit of the issuing fragment's lanes. (R89) -/
  | exitLong (f : Long)
  /-- Repeat prefix with an immediate count: checks strided registers and performs the target count times. (R92) -/
  | rep (f : Long)
  /-- Repeat prefix whose count comes from sA[15:0]. (R92) -/
  | repReg (f : Long)
  /-- Opens an idempotent region at the next instruction, recording its mark. (R96) -/
  | rgn (f : Long)
  /-- Software trap: retires and raises cause 0x09 with the code as KIND. (R102) -/
  | trap (f : Long)
  /-- Breakpoint: retires and raises cause 0x0A. (R102) -/
  | bpt (f : Long)
  /-- Returns from a handler, resuming the region from its mark or continuing at %tpc, after performing held posted stores. (R98) -/
  | eret (f : Long)
  /-- Reads a special register into an s or v register. (R79) -/
  | srd (f : Long)
  /-- Reads the sibling mask of %tfrag into an s register. (R79) -/
  | srdHi (f : Long)
  /-- Writes an s register into a writable special register. (R79) -/
  | swr (f : Long)
  /-- Returns n vector registers of the warp's allotment to the group pool and grants waiting claims. (R94) -/
  | give (f : Long)
  /-- Takes n vector registers from the group pool, or parks until granted in order. (R94) -/
  | claim (f : Long)
  /-- Copies one field of a rejoin register into an s register. (R88) -/
  | jmovToS (f : Long)
  /-- Writes one field of a rejoin register from an s register. (R88) -/
  | jmovToJ (f : Long)
  /-- Short scalar add of an s register and a 7-bit immediate. (R127) -/
  | saddShort (f : ShortI)
  /-- Long scalar wrapping add. (R127) -/
  | saddLong (f : Long)
  /-- Short scalar subtract of a 7-bit immediate. (R127) -/
  | ssubShort (f : ShortI)
  /-- Long scalar wrapping subtract. (R127) -/
  | ssubLong (f : Long)
  /-- Short scalar multiply by a 7-bit immediate. (R127) -/
  | smulShort (f : ShortI)
  /-- Long scalar wrapping multiply. (R127) -/
  | smulLong (f : Long)
  /-- Short scalar bitwise and with a 7-bit immediate. (R127) -/
  | sandShort (f : ShortI)
  /-- Long scalar bitwise and. (R127) -/
  | sandLong (f : Long)
  /-- Short scalar bitwise or with a 7-bit immediate. (R127) -/
  | sorShort (f : ShortI)
  /-- Long scalar bitwise or. (R127) -/
  | sorLong (f : Long)
  /-- Short scalar bitwise xor with a 7-bit immediate. (R127) -/
  | sxorShort (f : ShortI)
  /-- Long scalar bitwise xor. (R127) -/
  | sxorLong (f : Long)
  /-- Short scalar shift left by an immediate count mod w. (R127) -/
  | sshlShort (f : ShortI)
  /-- Long scalar shift left. (R127) -/
  | sshlLong (f : Long)
  /-- Short scalar logical shift right by an immediate count mod w. (R127) -/
  | sshrShort (f : ShortI)
  /-- Long scalar logical shift right. (R127) -/
  | sshrLong (f : Long)
  /-- Short scalar arithmetic shift right by an immediate count mod w. (R127) -/
  | ssraShort (f : ShortI)
  /-- Long scalar arithmetic shift right. (R127) -/
  | ssraLong (f : Long)
  /-- Short scalar equality compare with a 7-bit immediate, writing 1 or 0. (R127) -/
  | scmpShort (f : ShortI)
  /-- Long scalar compare under a comparison code, writing 1 or 0. (R127) -/
  | scmpLong (f : Long)
  /-- Short scalar select between sA and an immediate on sD as condition. (R127) -/
  | sselShort (f : ShortI)
  /-- Long scalar select on sC. (R127) -/
  | sselLong (f : Long)
  /-- Short scalar move of a 7-bit immediate. (R127) -/
  | smovShort (f : ShortI)
  /-- Long scalar move. (R127) -/
  | smovLong (f : Long)
  /-- Short vector i32 wrapping add. (R129) -/
  | vaddShort (f : ShortR)
  /-- Long vector wrapping add. (R129) -/
  | vaddLong (f : Long)
  /-- Short vector i32 wrapping subtract. (R129) -/
  | vsubShort (f : ShortR)
  /-- Long vector wrapping subtract. (R129) -/
  | vsubLong (f : Long)
  /-- Short vector i32 saturating add, setting SAT on clamping. (R129) -/
  | vaddsShort (f : ShortR)
  /-- Long vector saturating add. (R129) -/
  | vaddsLong (f : Long)
  /-- Short vector i32 saturating subtract. (R129) -/
  | vsubsShort (f : ShortR)
  /-- Long vector saturating subtract. (R129) -/
  | vsubsLong (f : Long)
  /-- Short vector 24-bit multiply. (R129) -/
  | vmul24Short (f : ShortR)
  /-- Long vector 24-bit multiply. (R129) -/
  | vmul24Long (f : Long)
  /-- Short vector 24-bit multiply-add with C equal to D. (R129) -/
  | vmad24Short (f : ShortR)
  /-- Long vector 24-bit multiply-add. (R129) -/
  | vmad24Long (f : Long)
  /-- Short vector i32 wrapping multiply. (R129) -/
  | vmulShort (f : ShortR)
  /-- Long vector wrapping multiply. (R129) -/
  | vmulLong (f : Long)
  /-- Short vector i32 high-half multiply. (R129) -/
  | vmulhShort (f : ShortR)
  /-- Long vector high-half multiply. (R129) -/
  | vmulhLong (f : Long)
  /-- Short vector i32 multiply-add with C equal to D. (R129) -/
  | vmadShort (f : ShortR)
  /-- Long vector wrapping multiply-add. (R129) -/
  | vmadLong (f : Long)
  /-- Short vector i32 minimum. (R129) -/
  | vminShort (f : ShortR)
  /-- Long vector integer minimum. (R129) -/
  | vminLong (f : Long)
  /-- Short vector i32 maximum. (R129) -/
  | vmaxShort (f : ShortR)
  /-- Long vector integer maximum. (R129) -/
  | vmaxLong (f : Long)
  /-- Short vector i32 wrapping absolute value. (R129) -/
  | vabsShort (f : ShortR)
  /-- Long vector wrapping absolute value. (R129) -/
  | vabsLong (f : Long)
  /-- Short vector bitwise and. (R129) -/
  | vandShort (f : ShortR)
  /-- Long vector bitwise and. (R129) -/
  | vandLong (f : Long)
  /-- Short vector bitwise or. (R129) -/
  | vorShort (f : ShortR)
  /-- Long vector bitwise or. (R129) -/
  | vorLong (f : Long)
  /-- Short vector bitwise xor. (R129) -/
  | vxorShort (f : ShortR)
  /-- Long vector bitwise xor. (R129) -/
  | vxorLong (f : Long)
  /-- Short vector bitwise complement. (R129) -/
  | vnotShort (f : ShortR)
  /-- Long vector bitwise complement. (R129) -/
  | vnotLong (f : Long)
  /-- Short vector shift left by b mod w. (R129) -/
  | vshlShort (f : ShortR)
  /-- Long vector shift left. (R129) -/
  | vshlLong (f : Long)
  /-- Short vector logical shift right. (R129) -/
  | vshrShort (f : ShortR)
  /-- Long vector logical shift right. (R129) -/
  | vshrLong (f : Long)
  /-- Short vector arithmetic shift right. (R129) -/
  | vsraShort (f : ShortR)
  /-- Long vector arithmetic shift right. (R129) -/
  | vsraLong (f : Long)
  /-- Short vector rotate left. (R129) -/
  | vrotShort (f : ShortR)
  /-- Long vector rotate left. (R129) -/
  | vrotLong (f : Long)
  /-- Short vector bit-field extract with position and length from an index register. (R130) -/
  | vbfeShort (f : ShortR)
  /-- Long vector bit-field extract. (R130) -/
  | vbfeLong (f : Long)
  /-- Short vector bit-field insert into C equal to D. (R130) -/
  | vbfiShort (f : ShortR)
  /-- Long vector bit-field insert. (R130) -/
  | vbfiLong (f : Long)
  /-- Short vector population count. (R129) -/
  | vpopcShort (f : ShortR)
  /-- Long vector population count. (R129) -/
  | vpopcLong (f : Long)
  /-- Short vector count of leading zeros. (R129) -/
  | vclzShort (f : ShortR)
  /-- Long vector count of leading zeros. (R129) -/
  | vclzLong (f : Long)
  /-- Short vector bit reversal within each element. (R129) -/
  | vbrevShort (f : ShortR)
  /-- Long vector bit reversal. (R129) -/
  | vbrevLong (f : Long)
  /-- Short vector i32 equality compare writing a predicate in active lanes. (R131) -/
  | vcmpShort (f : ShortR)
  /-- Long vector integer compare under a comparison code writing a predicate. (R131) -/
  | vcmpLong (f : Long)
  /-- Short vector select on the predicate numbered by D. (R131) -/
  | vselShort (f : ShortR)
  /-- Long vector select on predicate pC. (R131) -/
  | vselLong (f : Long)
  /-- Short vector move of B into active lanes. (R131) -/
  | vmovShort (f : ShortR)
  /-- Long vector move of a register or literal. (R131) -/
  | vmovLong (f : Long)
  /-- Broadcasts an s register into every active lane. (R131) -/
  | vmovBc (f : Long)
  /-- Short f32 add, rounded nearest-even. (R133) -/
  | vfaddShort (f : ShortR)
  /-- Long floating-point add with a rounding code. (R133) -/
  | vfaddLong (f : Long)
  /-- Short f32 subtract, rounded nearest-even. (R133) -/
  | vfsubShort (f : ShortR)
  /-- Long floating-point subtract. (R133) -/
  | vfsubLong (f : Long)
  /-- Short f32 multiply, rounded nearest-even. (R133) -/
  | vfmulShort (f : ShortR)
  /-- Long floating-point multiply. (R133) -/
  | vfmulLong (f : Long)
  /-- Fused multiply-add with one rounding. (R133) -/
  | vffma (f : Long)
  /-- IEEE minimumNumber of two operands. (R134) -/
  | vfmin (f : Long)
  /-- IEEE maximumNumber of two operands. (R134) -/
  | vfmax (f : Long)
  /-- Clears the sign bit, canonicalising NaNs. (R134) -/
  | vfabs (f : Long)
  /-- Inverts the sign bit, canonicalising NaNs. (R134) -/
  | vfneg (f : Long)
  /-- Floating-point compare writing a predicate in active lanes. (R135) -/
  | vfcmp (f : Long)
  /-- Writes a one-hot class mask for each element. (R135) -/
  | vfclass (f : Long)
  /-- Rounds to an integral value of the same format. (R136) -/
  | vfrnd (f : Long)
  /-- Multiplies by a power of two with one rounding. (R136) -/
  | vfscale (f : Long)
  /-- Two-element 16-bit dot product added to f32 with one rounding. (R137) -/
  | vfdot2 (f : Long)
  /-- Converts between numeric types with the given rounding. (R138) -/
  | vcvt (f : Long)
  /-- Quantises sixteen f32 registers per lane into one BFP block and exponent byte. (R139) -/
  | vbfpq (f : Long)
  /-- Expands one BFP block per lane into sixteen f32 registers. (R139) -/
  | vbfpx (f : Long)
  /-- Shuffles values between lanes by index, xor, up or down. (R142) -/
  | vshfl (f : Long)
  /-- All or any vote over the warp's lanes into a predicate, noting absent lanes. (R143) -/
  | vvote (f : Long)
  /-- Writes the counted predicate bits of all lanes into an s register. (R143) -/
  | vvoteBallot (f : Long)
  /-- Reduces a vector over active lanes in a fixed tree into an s register. (R144) -/
  | vrdc (f : Long)
  /-- Inclusive or exclusive serial scan over active lanes. (R145) -/
  | vscan (f : Long)
  /-- Broadcasts one lane's value to every active lane. (R142) -/
  | vbcast (f : Long)
  /-- Copies one lane's value into an s register. (R142) -/
  | vbcastS (f : Long)
  /-- Any or all equality match among active lanes into a predicate. (R146) -/
  | vmatch (f : Long)
  /-- Applies a two-input truth table to predicates. (R147) -/
  | plop (f : Long)
  /-- Copies all predicate bits into an s register. (R147) -/
  | pmovPs (f : Long)
  /-- Writes predicate bits of active lanes from an s register. (R147) -/
  | pmovSp (f : Long)
  /-- Short contiguous i32 vector load reading the hand then the settled image. (R163) -/
  | vldShort (f : ShortM)
  /-- Long contiguous vector load. (R163) -/
  | vldLong (f : Long)
  /-- Short contiguous i32 vector store into the hand or home slice. (R164) -/
  | vstShort (f : ShortM)
  /-- Long contiguous vector store. (R164) -/
  | vstLong (f : Long)
  /-- Indexed or strided vector gather load. (R161) -/
  | vlds (f : Long)
  /-- Indexed or strided vector scatter store, higher lanes winning shared bytes. (R164) -/
  | vsts (f : Long)
  /-- Short scalar i64 load. (R163) -/
  | sldShort (f : ShortM)
  /-- Long scalar load. (R163) -/
  | sldLong (f : Long)
  /-- Short scalar i64 store. (R164) -/
  | sstShort (f : ShortM)
  /-- Long scalar store. (R164) -/
  | sstLong (f : Long)
  /-- Prefetches addressed lines into the L1 and home slice without faulting. (R168) -/
  | vprf (f : Long)
  /-- Invalidates the core's L1 lines in an address range. (R169) -/
  | cctlInv (f : Long)
  /-- Invalidates every global L1 line of the core. (R169) -/
  | cctlInvall (f : Long)
  /-- Writes back and drops slice lines in a range, keeping overlay lines. (R169) -/
  | cctlEvict (f : Long)
  /-- Invalidates translations of one address in a context on every die. (R170) -/
  | tlbiVa (f : Long)
  /-- Invalidates every translation of a context on every die. (R170) -/
  | tlbiCtx (f : Long)
  /-- Invalidates every translation of every context on the chip. (R170) -/
  | tlbiAll (f : Long)
  /-- Moves a page's home to a destination chip and address and rewrites the leaf entry. (R341) -/
  | migrMove (f : Long)
  /-- Rewrites masked fields of this chip's leaf entry atomically. (R349) -/
  | migrSet (f : Long)
  /-- Returns the page's access count and leaf fields. (R349) -/
  | migrQuery (f : Long)
  /-- Read-modify-write of one element per active lane, a domain or group turn in turn mode. (R215) -/
  | atom (f : Long)
  /-- Non-returning reduction combined in hand pot entries or at the home slice. (R216) -/
  | pot (f : Long)
  /-- Acquiring load of one element, with an acquire jump on a global address in turn mode. (R217) -/
  | acq (f : Long)
  /-- Releasing store that publishes the hand then its own write. (R217) -/
  | rel (f : Long)
  /-- Release fence; in turn mode a domain turn that publishes the hand. (R218) -/
  | fenceRel (f : Long)
  /-- Sequentially consistent fence. (R218) -/
  | fenceSc (f : Long)
  /-- Arrives at a barrier and returns its phase. (R220) -/
  | barArr (f : Long)
  /-- Parks until a barrier's phase differs from the given one. (R220) -/
  | barWait (f : Long)
  /-- Arrives at a barrier and parks until its phase changes. (R220) -/
  | barSync (f : Long)
  /-- Tests a barrier phase's parity into a predicate. (R220) -/
  | barTest (f : Long)
  /-- Registers a ticket word and holds the ticket, is refused, or waits by passing. (R222) -/
  | tktWait (f : Long)
  /-- Gives up a held ticket, advancing the word's index. (R222) -/
  | tktDone (f : Long)
  /-- Advances the clock to the next round mark. (R224) -/
  | pass (f : Long)
  /-- Advances the clock to a given value. (R224) -/
  | passTo (f : Long)
  /-- Reads one element at a domain turn without an acquire jump. (R217) -/
  | turn (f : Long)
  /-- Island-wide invalidation of one page's translations, replicas and forwarding. (R350) -/
  | fshootVa (f : Long)
  /-- Island-wide invalidation of every page of a context. (R350) -/
  | fshootCtx (f : Long)
  /-- Accumulates a 32x32 tile product into the accumulator store, stepwise and resumable. (R251) -/
  | mma (f : Long)
  /-- Reads accumulator entries into vector registers with conversion. (R259) -/
  | accrd (f : Long)
  /-- Writes vector registers into accumulator entries exactly. (R260) -/
  | accwr (f : Long)
  /-- Zeroes a rectangle of accumulator entries. (R261) -/
  | accz (f : Long)
  /-- Opens, joins or completes a collective copy collection, or is refused. (R230) -/
  | cpslice (f : Long)
  /-- Starts a looping copy that fills stage buffers from a moving window. (R235) -/
  | cploop (f : Long)
  /-- Starts a copy passing each element through up to eight chained operations. (R236) -/
  | cpchain (f : Long)
  /-- Starts a copy between the accumulator store and memory. (R238) -/
  | cpacc (f : Long)
  /-- Waits for a buffer entry to be free or full and returns its status word. (R234) -/
  | bfwait (f : Long)
  /-- Releases a buffer entry, freeing it or starting a loop refill. (R232) -/
  | bfrel (f : Long)
  /-- Correctly rounded f32 reciprocal. (R266) -/
  | vrcp (f : Long)
  /-- Correctly rounded f32 reciprocal square root. (R266) -/
  | vrsq (f : Long)
  /-- Correctly rounded f32 square root. (R266) -/
  | vsqrt (f : Long)
  /-- Correctly rounded f32 base-2 exponential. (R266) -/
  | vexp2 (f : Long)
  /-- Correctly rounded f32 base-2 logarithm. (R266) -/
  | vlog2 (f : Long)
  /-- Correctly rounded f32 sin(pi a). (R266) -/
  | vsinpi (f : Long)
  /-- Correctly rounded f32 cos(pi a). (R266) -/
  | vcospi (f : Long)
  /-- Correctly rounded f32 hyperbolic tangent. (R266) -/
  | vtanh (f : Long)
  /-- Correctly rounded f32 division. (R266) -/
  | vfdiv (f : Long)
  /-- SLI32 add with one index rounding and level-crossing report. (R274) -/
  | lxadd (f : Long)
  /-- SLI32 subtract. (R274) -/
  | lxsub (f : Long)
  /-- SLI32 multiply. (R274) -/
  | lxmul (f : Long)
  /-- SLI32 divide, clamping division by zero. (R274) -/
  | lxdiv (f : Long)
  /-- SLI32 compare writing a predicate. (R276) -/
  | lxcmp (f : Long)
  /-- SLI32 natural exponential. (R275) -/
  | lxexp (f : Long)
  /-- SLI32 natural logarithm. (R275) -/
  | lxlog (f : Long)
  /-- Writes the level, sign and class of an SLI32 word. (R276) -/
  | lxlvl (f : Long)
  /-- Converts between SLI32 and f32 or f64. (R277) -/
  | lxcvt (f : Long)
  /-- Creates a card from a header on this chip and returns its handle. (R311) -/
  | spawn (f : Long)
  /-- Creates a card on a named chip and returns its handle. (R311) -/
  | invoke (f : Long)
  /-- Creates a card addressed to a handle, sent at once or queued until it resolves. (R321) -/
  | invokeh (f : Long)
  /-- Reads a handle's result, parking until it resolves, breaks or is reclaimed. (R328) -/
  | fwait (f : Long)
  /-- Reads a handle's result group without parking. (R328) -/
  | fpoll (f : Long)
  /-- Adds one holding of a handle for the issuing card. (R309) -/
  | fref (f : Long)
  /-- Drops a card or pinned holding of a handle, possibly reclaiming its task. (R309) -/
  | fdrop (f : Long)
  /-- Adds a context holding of a handle. (R309) -/
  | fpin (f : Long)
  /-- Resolves the card's own handle with up to 64 value bytes. (R314) -/
  | fresVal (f : Long)
  /-- Resolves the card's own handle with a place. (R314) -/
  | fresPlace (f : Long)
  /-- Breaks the card's own handle with a program code. (R315) -/
  | fbreak (f : Long)
  /-- Requests a save point at the next clock, returning its mark or number. (R364) -/
  | savept (f : Long)
  /-- Folds a value into the card digest in stamp order. (R365) -/
  | digest (f : Long)
  /-- Returns a mixed seed from the card seed, warp identity and operand. (R366) -/
  | seed (f : Long)
  /-- Event. A free issue slot takes a ready warp by stamp in turn mode or round-robin with throttling in free mode. (R77) -/
  | runArbitration (chip : Nat) (die : Nat) (core : Nat)
  /-- Event. Every 1,024 cycles every group's locality score is halved. (R78) -/
  | localityScoreHalving (chip : Nat) (die : Nat) (core : Nat)
  /-- Event. A load, atomic, unit or handle result returns and is written to its register. (R75) -/
  | outstandingResultWrite (warp : Nat)
  /-- Event. An unconfirmed load's translation completes, letting issue continue or reporting a fault. (R97) -/
  | loadConfirmation (warp : Nat)
  /-- Event. A free-mode posted store completes translation and performs at its home slice or is held on a fault. (R166) -/
  | postedStorePerform (warp : Nat)
  /-- Event. A debugger halt is honoured at the next run boundary or trap pending point. (R104) -/
  | debuggerHalt (warp : Nat)
  /-- Event. The debugger resumes a halted warp, honouring any pending pre-emption. (R104) -/
  | debuggerResume (warp : Nat)
  /-- Event. A warp waiting at a round gate resumes once the floor reaches the mark, retrying waits by passing. (R186) -/
  | roundGateOpen (warp : Nat)
  /-- Event. A domain turn whose stamp is least performs, after publishing the hand. (R193) -/
  | domainTurnGrant (part : Nat)
  /-- Event. A group turn whose stamp is least in its group performs on group memory. (R195) -/
  | groupTurnGrant (group : Nat)
  /-- Event. A group whose warps have ended and whose copies have finished releases its core resources. (R34) -/
  | groupEnd (group : Nat)
  /-- Event. Slices apply publications to memory in stamp order once no live warp can read an older image. (R185) -/
  | publicationMerge (part : Nat)
  /-- Event. A copy finishes, setting its entry full or free and waking in-place waiters. (R232) -/
  | copyCompletion (group : Nat) (buf : Nat)
  /-- Event. A page walk completes, installing a translation or faulting every joined access. (R158) -/
  | pageWalkCompletion (chip : Nat) (part : Nat) (va : Nat)
  /-- Event. The host writes bytes of a mailbox window chunk. (R281) -/
  | mailboxWindowWrite (part : Nat) (mbox : Nat) (off : Nat) (bytes : (List Byte))
  /-- Event. The dealer admits the entry with the lowest key, assigning origin, serial and handle slot. (R287) -/
  | admission (part : Nat)
  /-- Event. A fence or save-point entry completes once every lower-key entry has, fixing its fence mark. (R291) -/
  | fenceCompletion (part : Nat) (mbox : Nat)
  /-- Event. The dealer writes an entry's completion record once the floor reaches its end mark. (R294) -/
  | completionRecord (part : Nat) (mbox : Nat)
  /-- Event. The dealer places a ready group or batch chunk on a core with room. (R295) -/
  | groupPlacement (part : Nat)
  /-- Event. The dealer vacates k cores, saving their groups, and places waiting work. (R299) -/
  | spatialPreemption (chip : Nat) (cores : (List Nat))
  /-- Event. A card waiting 2 ms beside a resident card of equal priority triggers pre-emption. (R299) -/
  | preemptionWaitExpiry (card : Nat)
  /-- Event. A card with more unended groups than slots at a round mark ends with status 3. (R298) -/
  | saveAreaExhausted (card : Nat)
  /-- Event. A domain in which every warp is parked ends its parked cards with cause 0x10. (R39) -/
  | allParked (part : Nat)
  /-- Event. A forwarded access arrives at the home chip and is served at its home slice. (R336) -/
  | remoteRequest (warp : Nat)
  /-- Event. A reply from another chip is written to the warp's register, its saved slot, or discarded. (R347) -/
  | remoteReply (warp : Nat)
  /-- Event. A created card arrives at the target chip's dealer. (R323) -/
  | invocationArrival (part : Nat)
  /-- Event. A marker from the old home releases a chip's held direct accesses at the new home. (R342) -/
  | migrationMarker (chip : Nat) (page : Nat)
  /-- Event. A received flit is CRC-checked, acknowledged or replay requested, and delivered once. (R331) -/
  | flitReceive (chip : Nat) (port : Nat) (seq : Nat) (crcOk : Bool) (payload : Packet)
  /-- Event. An acknowledgement frees flits from the replay buffer. (R331) -/
  | flitAcknowledgement (chip : Nat) (port : Nat) (seq : Nat)
  /-- Event. A replay request makes the sender resend from the requested flit in order. (R331) -/
  | replayRequest (chip : Nat) (port : Nat) (seq : Nat)
  /-- Event. A flit replayed 16 times in a row declares the port down and starts failover. (R332) -/
  | replayLimitReached (chip : Nat) (port : Nat)
  /-- Event. A lane losing lock declares its port down. (R332) -/
  | laneLockLoss (chip : Nat) (port : Nat)
  /-- Event. A port coming back up returns traffic from the detour. (R332) -/
  | portUp (chip : Nat) (port : Nat)
  /-- Event. Training with a peer's port completes and UP is set. (R334) -/
  | linkTrainingComplete (chip : Nat) (port : Nat)
  /-- Event. A port untrained 10 ms after enable counts as down. (R334) -/
  | linkTrainingTimeout (chip : Nat) (port : Nat)
  /-- Event. Every 256 link clocks a chip sends a beacon on every up port. (R344) -/
  | beaconSend (chip : Nat)
  /-- Event. A newer beacon from a peer feeds its bounds into the gateway trees. (R344) -/
  | beaconReceive (chip : Nat) (beacon : Beacon)
  /-- Event. No beacon from a peer for 1 ms ends every resident card of the domain with cause 0x15. (R333) -/
  | peerSilentTimeout (chip : Nat) (peer : Nat)
  /-- Event. A chip's acknowledgement of an FSHOOT arrives; the last one retires it. (R350) -/
  | fshootAcknowledgement (warp : Nat) (chip : Nat)
  /-- Event. An FSHOOT retires 1 ms after issue with the mask of silent chips. (R350) -/
  | fshootTimeout (warp : Nat)
  /-- Event. Once the floor reaches the mark, the engine fixes the unit list and starts copying. (R355) -/
  | savePointCapture (part : Nat)
  /-- Event. A listed unit's copy finishes, releasing held writes and clearing D bits. (R355) -/
  | unitCopyComplete (part : Nat) (unit : Nat)
  /-- Event. When every shard is copied, the manifest is written to the lowest stack's spare region. (R357) -/
  | manifestWrite (part : Nat)
  /-- Event. The engine drains the spare region to the named host buffer or peer chip. (R355) -/
  | spareDrain (part : Nat)
  /-- Event. A corrected SRAM error increments CECOUNT and checks retirement. (R177) -/
  | sramCorrectableError (chip : Nat) (die : Nat) (slice : Nat) (time : Nat)
  /-- Event. The bucket table moves to the successor and held requests are released. (R176) -/
  | sliceRetirementComplete (chip : Nat) (die : Nat) (slice : Nat)
  /-- Event. Every 100 us the SRAM patrol scrubs, correcting or detecting faults. (R375) -/
  | sramPatrol (chip : Nat) (found : (Option SramFault)) (time : Nat)
  /-- Event. The 24-hour stack patrol scrub corrects latent faults. (R375) -/
  | stackPatrolScrub (chip : Nat) (stack : Nat) (fixed : (List Nat)) (time : Nat)
  /-- Event. A beat failing its end-to-end CRC is resent once; a second failure is a machine check. (R375) -/
  | networkBeatCrcError (chip : Nat) (die : Nat) (unit : Nat) (second : Bool) (time : Nat)
  /-- Event. An uncorrectable fault writes an error record and ends affected cards with cause 0x12. (R376) -/
  | machineCheck (chip : Nat) (err : ErrSite) (time : Nat)
  /-- Event. A supply droop stretches the die's cycles until recovery. (R374) -/
  | supplyDroop (chip : Nat) (die : Nat)
  /-- Event. The supply recovers and cycle stretching ends. (R374) -/
  | supplyRecovery (chip : Nat) (die : Nat)
  /-- Event. The power limiter changes the arithmetic clock in 25 MHz steps. (R374) -/
  | powerLimitStep (chip : Nat) (up : Bool)
  /-- Event. Power good starts firmware load, memory and SRAM clearing, and link bring-up. (R373) -/
  | deviceReset (chip : Nat)
  /-- Event. A host read or write of device memory through window B. (R368) -/
  | hostWindowBAccess (chip : Nat) (vf : (Option Nat)) (off : Nat) (len : Nat) (data : (Option (List Byte)))
  /-- Event. A host write of the tail register with bit 63 clears the overflow mark. (R372) -/
  | faultQueueTailWrite (part : Nat) (value : Dword)
  /-- Event. A write to a register without behaviour of its own, under its access codes. (R4) -/
  | registerWrite (chip : Nat) (reg : HostReg) (value : Dword)
  /-- Event. Reads and checks a context descriptor and opens its mailboxes. (R280) -/
  | createContext (part : Nat) (monitor : Bool)
  /-- Event. Destroys the context as a partition reset keeping memory. (R371) -/
  | destroyContext (part : Nat)
  /-- Event. Host-requested translation invalidation as TLBI. (R371) -/
  | invalidate (part : Nat)
  /-- Event. Sets the system fault queue ring address and size and resets head and tail. (R371) -/
  | faultQueue (part : Nat)
  /-- Event. Marks the next save point full. (R371) -/
  | saveFull (part : Nat)
  /-- Event. Names the host buffer or peer chip for spare-region draining. (R371) -/
  | drainTarget (part : Nat)
  /-- Event. Verifies a manifest chain and restores memory and dealer state to its last mark. (R358) -/
  | restore (part : Nat)
  /-- Event. Loads a recorded admission record for comparison during replay. (R359) -/
  | replayRecord (part : Nat)
  /-- Event. Returns a mailbox's running hash. (R371) -/
  | readHash (part : Nat)
  /-- Event. Returns the admission record's write position. (R371) -/
  | admissionPosition (part : Nat)
  /-- Event. Reads or writes a slice's SLCSTAT. (R371) -/
  | sliceRegister (part : Nat)
  /-- Event. Returns the oldest unread error record and the count left. (R371) -/
  | errorLog (part : Nat)
  /-- Event. Sets the partition map, refused while a context exists. (R371) -/
  | partitionMap (chip : Nat)
  /-- Event. Reads or writes FXCFG or an FXPEER register. (R334) -/
  | fabricRegister (chip : Nat)
  /-- Event. Returns the map of enabled cores. (R371) -/
  | enableMap (chip : Nat)
  /-- Event. An unlisted, misplaced or out-of-limit command sets ERR with RESULT 0xFF. (R370) -/
  | invalidCommand (chip : Nat) (iface : (Option Nat)) (op : Nat)
  /-- Event. A running command finishes, clearing BUSY and setting DONE and possibly ERR. (R370) -/
  | commandCompletion (chip : Nat) (iface : (Option Nat))
  /-- Event. An MMA retires once its last K-step and the writes of c have reached the accumulator store, adding its weight and clearing %mrow.STEP. (R258) -/
  | mmaRetirement (warp : Nat)
  /-- Event. System software asks the dealer, through the system controller, to vacate the cores it names. (R299) -/
  | systemPreemptionRequest (chip : Nat) (cores : (List Nat))
  deriving DecidableEq, Repr

end Sys2Proof
end

