-- ==== Sys2Proof/Machine/Flags.lean ====
section
/-! DEFINITION. Number formats, rounding and flags (spec 06): exact values, `round` (R109 to R112), the flags that each
step raises (R113), sums, products, comparisons, minimum and maximum, block floating point (R115 to R118), the
accumulator formats (R119 to R121), and the reduction of `ATOM` and `POT` (R201, R215). -/

namespace Sys2Proof.Machine

/-! ## Types (R52, R54) -/

/-- Width of an element in bits. -/
def tyBits : Ty → Nat
  | .i8 | .n8 => 8
  | .i16 | .n16 | .f16 | .bf16 => 16
  | .i64 | .n64 | .f64 => 64
  | .fa48 | .i48 => 48
  | _ => 32

/-- The type is a signed integer. -/
def tySigned : Ty → Bool
  | .i8 | .i16 | .i32 | .i64 | .i48 => true
  | _ => false

/-- The type is an integer of 64 bits or fewer. -/
def tyInt : Ty → Bool
  | .i32 | .n32 | .i64 | .n64 | .i16 | .n16 | .i8 | .n8 => true
  | _ => false

/-- The low `n` bits of an integer (`wrap` of R6). -/
def wrapN (n : Nat) (x : Int) : Nat := (x % (2 ^ n : Nat)).toNat

/-- The integer that `n` bits hold, signed or not. -/
def intOf (sgn : Bool) (n : Nat) (x : Nat) : Int :=
  let y := x % 2 ^ n
  if sgn && decide (2 ^ (n - 1) ≤ y) then (y : Int) - (2 ^ n : Nat) else y

/-- The value of an element of an integer type. -/
def tyVal (t : Ty) (x : Nat) : Int := intOf (tySigned t) (tyBits t) x

/-- `sat` of R6: clamps to the signed range of `n` bits. -/
def satN (n : Nat) (x : Int) : Int :=
  let h : Int := (2 ^ (n - 1) : Nat)
  if x < -h then -h else if h - 1 < x then h - 1 else x

/-- The range of an integer type. -/
def tyLo (t : Ty) : Int := if tySigned t then -((2 ^ (tyBits t - 1) : Nat) : Int) else 0
def tyHi (t : Ty) : Int := if tySigned t then ((2 ^ (tyBits t - 1) : Nat) : Int) - 1 else ((2 ^ tyBits t : Nat) : Int) - 1

/-! ## Flags (R113, R124): bit sets in the order of `%fpstat` -/

def flNV : Nat := 1
def flDZ : Nat := 2
def flOF : Nat := 4
def flUF : Nat := 8
def flNX : Nat := 16

/-! ## Formats and exact values -/

/-- A floating-point format (R106): fraction and exponent widths. -/
structure Fmt where
  frac : Nat
  exp : Nat
  deriving DecidableEq, Repr

def fmt64 : Fmt := { frac := 52, exp := 11 }
def fmt32 : Fmt := { frac := 23, exp := 8 }
def fmt16 : Fmt := { frac := 10, exp := 5 }
def fmtB16 : Fmt := { frac := 7, exp := 8 }
def fmtA48 : Fmt := { frac := 39, exp := 8 }

def tyFmt : Ty → Fmt
  | .f64 => fmt64
  | .f16 => fmt16
  | .bf16 => fmtB16
  | .fa48 => fmtA48
  | _ => fmt32

def fmtBias (f : Fmt) : Nat := 2 ^ (f.exp - 1) - 1
def fmtEmax (f : Fmt) : Nat := 2 ^ f.exp - 1
/-- The exponent of the least significant bit of a subnormal. -/
def fmtGrid (f : Fmt) : Int := 1 - (fmtBias f : Int) - f.frac
def fmtSign (f : Fmt) : Nat := 2 ^ (f.frac + f.exp)
def fmtInf (f : Fmt) : Nat := fmtEmax f * 2 ^ f.frac
/-- The canonical NaN (R108). -/
def fmtNaN (f : Fmt) : Nat := fmtInf f + 2 ^ (f.frac - 1)
def fmtMax (f : Fmt) : Nat := fmtInf f - 1

/-- An exact value: a NaN (signalling or not), an infinity, or (−1)^neg × m × 2^e. -/
inductive FVal where
  | nan (sig : Bool)
  | inf (neg : Bool)
  | fin (neg : Bool) (m : Nat) (e : Int)
  deriving DecidableEq, Repr

/-- The value of an encoding (R107). -/
def fdec (f : Fmt) (x : Nat) : FVal :=
  let fr := x % 2 ^ f.frac
  let ex := x / 2 ^ f.frac % 2 ^ f.exp
  let neg := x / fmtSign f % 2 == 1
  if ex = fmtEmax f then
    (if fr = 0 then .inf neg else .nan (decide (fr < 2 ^ (f.frac - 1))))
  else if ex = 0 then .fin neg fr (fmtGrid f)
  else .fin neg (fr + 2 ^ f.frac) (fmtGrid f + ex - 1)

def fneg (neg : Bool) (f : Fmt) (x : Nat) : Nat := if neg then x + fmtSign f else x

/-- m × 2^(−k) rounded to an integer by a mode of R56, where `st` says that the value lies strictly between m and
m + 1; and whether it is exact. With k ≤ 0 `st` must be false. -/
def quant (mode : Nat) (neg : Bool) (m : Nat) (k : Int) (st : Bool) : Nat × Bool :=
  if k ≤ 0 then (m * 2 ^ (-k).toNat, !st)
  else
    let n := k.toNat
    let q := m / 2 ^ n
    let r := m % 2 ^ n
    let half := 2 ^ (n - 1)
    let exact := r == 0 && !st
    let up := match mode with
      | 0 => decide (half < r) || (r == half && (st || q % 2 == 1))
      | 1 => false
      | 2 => !neg && !exact
      | _ => neg && !exact
    (if up then q + 1 else q, exact)

/-- R109 and R110 for the non-zero value (−1)^neg × m × 2^e, a little above it when `st`; m is not 0. -/
def roundMag (f : Fmt) (mode : Nat) (neg : Bool) (m : Nat) (e : Int) (st : Bool) : Nat × Nat :=
  let top : Int := e + Nat.log2 m
  let q : Int := max (fmtGrid f) (top - f.frac)
  let (mq, exact) := quant mode neg m (q - e) st
  let (mt, _) := quant mode neg m (top - f.frac - e) st
  let top' := if 2 ^ (f.frac + 1) ≤ mt then top + 1 else top
  let (mq, q) := if 2 ^ (f.frac + 1) ≤ mq then (mq / 2, q + 1) else (mq, q)
  if (fmtBias f : Int) - f.frac < q then
    let big := match mode with
      | 0 => fmtInf f
      | 1 => fmtMax f
      | 2 => if neg then fmtMax f else fmtInf f
      | _ => if neg then fmtInf f else fmtMax f
    (fneg neg f big, flOF ||| flNX)
  else
    let fl := if exact then 0 else if top' < 1 - (fmtBias f : Int) then flNX ||| flUF else flNX
    let bits := if mq < 2 ^ f.frac then mq else (q - fmtGrid f + 1).toNat * 2 ^ f.frac + (mq - 2 ^ f.frac)
    (fneg neg f bits, fl)

/-- `round` into a floating-point format (R109); a signalling NaN has raised NV where it entered. -/
def roundF (f : Fmt) (mode : Nat) : FVal → Nat × Nat
  | .nan _ => (fmtNaN f, 0)
  | .inf neg => (fneg neg f (fmtInf f), 0)
  | .fin neg 0 _ => (fneg neg f 0, 0)
  | .fin neg m e => roundMag f mode neg m e false

/-- `round` into an integer range (R112). -/
def roundI (lo hi : Int) (mode : Nat) : FVal → Int × Nat
  | .nan _ => (0, flNV)
  | .inf neg => (if neg then lo else hi, flNV)
  | .fin neg m e =>
    let (q, exact) := quant mode neg m (-e) false
    let y : Int := if neg then -(q : Int) else q
    if y < lo then (lo, flNV) else if hi < y then (hi, flNV) else (y, if exact then 0 else flNX)

/-- NV for a signalling NaN operand. -/
def sigNV : FVal → Nat
  | .nan true => flNV
  | _ => 0

def isNaN : FVal → Bool
  | .nan _ => true
  | _ => false

/-- The exact signed mantissa of a finite value at exponent `e0`, at or below its own. -/
def atExp (e0 : Int) : FVal → Int
  | .fin neg m e => let x : Int := (m * 2 ^ (e - e0).toNat : Nat); if neg then -x else x
  | _ => 0

def valExp : FVal → Int
  | .fin _ _ e => e
  | _ => 0

def valNeg : FVal → Bool
  | .fin neg _ _ => neg
  | .inf neg => neg
  | .nan _ => false

def valZero : FVal → Bool
  | .fin _ 0 _ => true
  | _ => false

def valInf : FVal → Bool
  | .inf _ => true
  | _ => false

def valNegate : FVal → FVal
  | .fin neg m e => .fin (!neg) m e
  | .inf neg => .inf (!neg)
  | x => x

/-- An exact product with its flags. -/
def fmulE (a b : FVal) : FVal × Nat :=
  let s := valNeg a ^^ valNeg b
  match a, b with
  | .nan _, _ | _, .nan _ => (.nan false, sigNV a ||| sigNV b)
  | .inf _, y => if valZero y then (.nan false, flNV) else (.inf s, 0)
  | x, .inf _ => if valZero x then (.nan false, flNV) else (.inf s, 0)
  | .fin _ m e, .fin _ n g => (.fin s (m * n) (e + g), 0)

/-- An exact sum of terms, the sign of a zero sum by R111 for the mode, with its flags. -/
def fsumE (mode : Nat) (ts : List FVal) : FVal × Nat :=
  if ts.any isNaN then (.nan false, ts.foldl (fun a t => a ||| sigNV t) 0)
  else
    let p := ts.any (fun t => t == .inf false)
    let n := ts.any (fun t => t == .inf true)
    if p && n then (.nan false, flNV)
    else if p then (.inf false, 0)
    else if n then (.inf true, 0)
    else
      let e0 := ts.foldl (fun a t => min a (valExp t)) (valExp (ts.headD (.fin false 0 0)))
      let x := ts.foldl (fun a t => a + atExp e0 t) 0
      if x = 0 then
        let neg := if ts.all (fun t => valZero t && valNeg t) then true
          else if ts.all (fun t => valZero t && !valNeg t) then false else mode == 3
        (.fin neg 0 e0, 0)
      else (.fin (decide (x < 0)) x.natAbs e0, 0)

/-- An exact difference with its flags; one that is zero is +0, and −0 in mode 3 (R111; for two zeros, log 84). -/
def fsubE (mode : Nat) (a b : FVal) : FVal × Nat :=
  let r := fsumE mode [a, valNegate b]
  match r.1 with
  | .fin _ 0 e => (.fin (mode == 3) 0 e, r.2)
  | _ => r

/-- An FP32 word as it enters the FA48 format: the same value, its fraction followed by 16 zero bits (R107); a NaN is the canonical
one (R108, R119). No flag is set (R254, R260). -/
def widenA48 (x : Nat) : Nat :=
  if isNaN (fdec fmt32 (x % 2 ^ 32)) then fmtNaN fmtA48 else x % 2 ^ 32 * 2 ^ 16

/-- A rounded sum of two encodings. -/
def faddBits (f : Fmt) (mode : Nat) (a b : Nat) : Nat × Nat :=
  let (x, g) := fsumE mode [fdec f a, fdec f b]
  let (r, h) := roundF f mode x
  (r, g ||| h)

/-- x < y for values that are not NaN; −0 and +0 are equal. -/
def fltE (a b : FVal) : Bool :=
  match a, b with
  | .inf n, .inf m => n && !m
  | .inf n, _ => n
  | _, .inf m => !m
  | x, y => let e := min (valExp x) (valExp y); decide (atExp e x < atExp e y)

def feqE (a b : FVal) : Bool := !fltE a b && !fltE b a

/-- minimumNumber (`max` false) and maximumNumber of two encodings (R134). -/
def fminmax (f : Fmt) (mx : Bool) (a b : Nat) : Nat × Nat :=
  let x := fdec f a
  let y := fdec f b
  let fl := sigNV x ||| sigNV y
  match isNaN x, isNaN y with
  | true, true => (fmtNaN f, fl)
  | true, false => (b, fl)
  | false, true => (a, fl)
  | false, false =>
    let less := fltE x y || (feqE x y && valNeg x && !valNeg y)
    let more := fltE y x || (feqE x y && valNeg y && !valNeg x)
    (if less then (if mx then b else a) else if more then (if mx then a else b) else a, fl)

/-- The reduction of `ATOM` and `POT` (R201, R215) on encodings of a type: 0 add, 1 min, 2 max, 3 and, 4 or, 5 xor. -/
def comb (op : Nat) (t : Ty) (m v : Nat) : Nat × Nat :=
  let w := tyBits t
  if tyInt t || t == .b32 then
    let r := match op with
      | 0 => wrapN w ((m : Int) + v)
      | 1 => if tyVal t v < tyVal t m then v else m
      | 2 => if tyVal t m < tyVal t v then v else m
      | 3 => m &&& v
      | 4 => m ||| v
      | _ => m ^^^ v
    (r, 0)
  else match op with
    | 0 => faddBits (tyFmt t) 0 m v
    | 1 => fminmax (tyFmt t) false m v
    | _ => fminmax (tyFmt t) true m v

/-! ## Block floating point -/

/-- The mantissa width of a BFP type (R115). -/
def bfpM (t : Ty) : Nat := t.code - 14

/-- Element i of a block word with exponent E (R115). -/
def bfpElem (m E word i : Nat) : FVal :=
  if E = 0xFF then .nan false
  else
    let x := intOf true m (word / 2 ^ (m * i))
    .fin (decide (x < 0)) x.natAbs ((E : Int) - 127 - ((m : Int) - 2))

/-- The rounded mantissa of a value at exponent E, and whether it is exact. -/
def bfpMant (m E : Nat) : FVal → Int × Bool
  | .fin neg a e =>
    let (q, ex) := quant 0 neg a ((E : Int) - 127 - ((m : Int) - 2) - e) false
    (if neg then -(q : Int) else q, ex)
  | _ => (0, true)

/-- Packs mantissas into a block word. -/
def bfpPack (m : Nat) (ms : List Int) : Nat :=
  (ms.zipIdx.map fun (x, i) => wrapN m x * 2 ^ (m * i)).sum

/-- Quantisation of sixteen values (R117): exponent, block word, flags. -/
def bfpQuant (m : Nat) (xs : List FVal) : Nat × Nat × Nat :=
  if xs.any (fun x => isNaN x || valInf x) then (0xFF, 0, flNV)
  else
    let hi : Int := ((2 ^ (m - 1) : Nat) : Int) - 1
    let fits (E : Nat) : Bool := xs.all fun x => decide ((bfpMant m E x).1.natAbs ≤ hi.natAbs)
    match (List.range 255).find? fits with
    | some E =>
      let ms := xs.map (bfpMant m E)
      (E, bfpPack m (ms.map (·.1)), if ms.all (·.2) then 0 else flNX)
    | none =>
      let ms := xs.map fun x => let y := (bfpMant m 254 x).1; max (-hi) (min hi y)
      (254, bfpPack m ms, flOF ||| flNX)

/-- The sum of flags of a list of steps. -/
def orAll (l : List Nat) : Nat := l.foldl (· ||| ·) 0

/-- A 64-bit container of an FA48 or I48 value (R121). -/
def container (signed : Bool) (x : Nat) : Nat :=
  if signed then wrapN 64 (intOf true 48 x) else x % 2 ^ 48

end Sys2Proof.Machine
end

