-- ==== Sys2Proof/Machine/KMap.lean ====
section
/-! DEFINITION. Sparse data by key: a list of (key, value) pairs with strictly rising keys.
`KMap` holds records that may be absent. `SMap` operations take the value an unlisted key reads as,
and never list that value, so that equal maps are equal lists. -/

namespace Sys2Proof.Machine

/-- Key and value pairs, keys strictly rising. -/
abbrev KMap (α : Type) := List (Nat × α)

/-- The value listed at a key, if any. -/
def kfind {α : Type} : KMap α → Nat → Option α
  | [], _ => none
  | (k, x) :: m, i => if k = i then some x else kfind m i

/-- Lists `x` at key `i`, in key order, in place of what was listed there. -/
def kinsert {α : Type} : KMap α → Nat → α → KMap α
  | [], i, x => [(i, x)]
  | (k, y) :: m, i, x =>
    if i < k then (i, x) :: (k, y) :: m
    else if i = k then (i, x) :: m
    else (k, y) :: kinsert m i x

/-- Removes what is listed at key `i`. -/
def kerase {α : Type} : KMap α → Nat → KMap α
  | [], _ => []
  | (k, y) :: m, i => if k = i then m else (k, y) :: kerase m i

/-- Changes the listed value at `i`, and nothing when the key is not listed. -/
def kmodify {α : Type} : KMap α → Nat → (α → α) → KMap α
  | [], _, _ => []
  | (k, y) :: m, i, f => if k = i then (k, f y) :: m else (k, y) :: kmodify m i f

/-- What key `i` reads as, `d` when it is not listed. -/
def sget {α : Type} (d : α) (m : KMap α) (i : Nat) : α := (kfind m i).getD d

/-- Writes `x` at key `i`: writing `d`, what an unlisted key reads as, unlists the key. -/
def sput {α : Type} [DecidableEq α] (d : α) (m : KMap α) (i : Nat) (x : α) : KMap α :=
  if x = d then kerase m i else kinsert m i x

/-- Changes every listed value, unlisting those that become `d`. -/
def smap {α : Type} [DecidableEq α] (d : α) (f : α → α) (m : KMap α) : KMap α :=
  (m.map fun e => (e.1, f e.2)).filter fun e => decide (e.2 ≠ d)

/-- The keys of a map rise strictly, starting above `lo` (none: anywhere). -/
def krising {α : Type} : Option Nat → KMap α → Bool
  | _, [] => true
  | lo, (k, _) :: m => (match lo with | none => true | some l => decide (l < k)) && krising (some k) m

/-- The canonical form of a sparse map: strictly rising keys, and no entry equal to what an unlisted key reads as. -/
def swf {α : Type} [DecidableEq α] (d : α) (m : KMap α) : Bool :=
  krising none m && m.all (fun e => decide (e.2 ≠ d))

end Sys2Proof.Machine
end

