-- ==== Sys2Proof/Machine/State.lean ====
section
/-! DEFINITION. The state of an island of M8 packages as plain data: every piece of state the spec gives the machine
(R16 and the rules cited at each field), the reasons a step can stop, and the state after reset.
`KMap` fields are canonical lists of (key, value) pairs; an unlisted key reads as the value that the field's comment names. -/

namespace Sys2Proof.Machine

/-- The reasons a step stops with a fault. -/
inductive Fault where
  /-- Raised by every machine instruction executed while no warp holds the issue (`State.cur`). No act of the
  hardware corresponds to it: `step` executes machine instructions only for an issuing warp. Safe. -/
  | noIssuer
  deriving DecidableEq, Repr

/-- The reasons a step is refused. -/
inductive Refusal where
  /-- Raised by an arm of `exec` that has no meaning yet. Safe. -/
  | notModelled (mnemonic : String)
  deriving DecidableEq, Repr

/-- Sparse bytes; an unlisted byte reads as 0. -/
abbrev Memory := KMap Byte

/-- The canonical form of memory: addresses strictly rising, no listed byte equal to 0. -/
def Memory.wf (m : Memory) : Bool := swf (0 : Byte) m

/-- A stamp (R181): clock and 52-bit identity. -/
abbrev Stamp := Nat × Nat

/-! ## Warps -/

/-- A fragment (R30): identifier, parent, sibling mask, lane mask, program counter, and the rejoin register at which
it waits (R86). -/
structure Frag where
  id : Nat
  parent : Nat
  sibs : BitVec 64
  lanes : BitVec 64
  pc : Dword
  wait : Option Nat
  deriving DecidableEq, Repr

/-- A rejoin register (R85); empty when `expect` is 0. -/
structure JReg where
  addr : Dword
  expect : BitVec 64
  arrived : BitVec 64
  deriving DecidableEq, Repr

/-- A register write not yet made: one lane of a vector register, a scalar register, one lane of a predicate. -/
inductive RegW where
  | v (reg lane : Nat) (x : Word)
  | s (reg : Nat) (x : Dword)
  | p (reg lane : Nat) (x : Bool)
  deriving DecidableEq, Repr

/-- One element that a reply from another chip brings (R336): destination, home address, size and virtual address; `val`
is known once the home has served it. -/
structure RSrc where
  vec : Bool
  reg : Nat
  lane : Nat
  key : Nat
  size : Nat
  va : Nat
  sx : Bool
  /-- Its page is replicated, so that the chip keeps the bytes (R338): the page's base and size. -/
  keep : Option (Nat × Nat) := none
  /-- Of its bytes, by offset, those that the warp's own earlier stores had written (R164). -/
  own : KMap Byte := []
  val : Option Dword
  deriving DecidableEq, Repr

/-- A request to another chip (R336, R346, R347): the home, its elements, whether it is served, the refusal's `KIND`, what a
refusal reports, and the clock of the instruction; the chip and core that issued it, how many packets that chip had then sent
(R173: requests from one core to one line arrive in this order), and the instruction's cache hint (R167). -/
structure Remote where
  core : Option (Nat × Nat) := none
  issued : Nat := 0
  hint : Nat := 0
  home : Nat
  srcs : List RSrc
  served : Bool
  refused : Option Nat
  va : Nat
  pc : Dword
  clock : Nat
  deriving DecidableEq, Repr

/-- An outstanding result not yet written (R74, R75): its register identifiers, writes, sticky flags of `%fpstat` and
`%lxstat`, the request to another chip that it waits for, and its entries in the special-function result queue (R279): the
issue slot and how many passes. -/
structure Pend where
  regs : List Nat
  writes : List RegW
  fp : Dword
  lx : Dword
  remote : Option Remote
  queue : Option (Nat × Nat)
  deriving DecidableEq, Repr

/-- An unconfirmed load or store within a region (R97): its place in the program, its result, the fault that its
translation finds (kind and address), and the virtual addresses that its walks install. -/
structure Unconf where
  pc : Dword
  frag : Nat
  clock : Nat
  idx : Nat
  pend : Option Pend
  fault : Option (Nat × Nat)
  vas : List Nat
  deriving DecidableEq, Repr

/-- A posted store (R166): the instruction's address, its cache hint (R167), and each lane's address and bytes in lane order. -/
structure Posted where
  pc : Dword
  hint : Nat := 0
  lanes : List (Nat × List Byte)
  deriving DecidableEq, Repr

/-- A hand sector (R188): the physical key of its first byte, the written bytes by offset (an unlisted offset is not
written), the published mask, and the address and virtual address of the last store to it (R346). -/
structure Sector where
  key : Nat
  data : KMap Byte
  pub : BitVec 64
  pc : Dword
  va : Nat
  deriving DecidableEq, Repr

/-- A pot entry (R200). -/
structure PotEnt where
  key : Nat
  op : Nat
  ty : Ty
  val : Dword
  pc : Dword
  va : Nat
  deriving DecidableEq, Repr

/-- A hand (R188). -/
structure Hand where
  secs : List Sector
  pots : List PotEnt
  deriving DecidableEq, Repr

/-- An open region (R96): entry, mark clock, hand mark (how many sectors and pot entries it held), read and written
register sets, resumptions, and whether an `MMA` opened it (R255). -/
structure Region where
  entry : Dword
  clock : Nat
  secs : Nat
  pots : Nat
  reads : List Nat
  writes : List Nat
  resumes : Nat
  mma : Bool
  deriving DecidableEq, Repr

/-- A repeat prefix being performed (R92): the repetition count, its strides, the clock before the prefix (R93), and
the length of the prefix with its target. The next repetition is `%repidx`. -/
structure Rep where
  count : Nat
  imm : Word
  clock : Nat
  len : Nat
  deriving DecidableEq, Repr

/-- An entry of a warp's late-reply table (R302), present while `VALID`: the identifier of the first register that the reply
writes, and `LATE`. -/
structure Late where
  reg : Nat
  late : Bool
  deriving DecidableEq, Repr

/-- What a parked warp waits for (R197): the change of a barrier's phase (with the wait's scope), a handle's resolution, a grant of registers. -/
inductive ParkWhat where
  | bar (n phase scope : Nat) (g : Bool)
  | fwait (h : Dword) (d : Nat) (g : Bool)
  | claim (n : Nat)
  deriving DecidableEq, Repr

/-- Where a warp stands (R73, R186, R197, R258, R350). -/
inductive WStat where
  /-- Its next instruction can issue. -/
  | ready
  /-- Its next instruction waits in place (R73). -/
  | stalled
  /-- Its next instruction waits for a turn's grant (R193, R195). -/
  | turnWait
  /-- It waits at the round gate of mark `m`, having crossed the marks from `first` on (R186). -/
  | gate (first m : Nat)
  /-- Parked in an instruction of `len` bytes (R197). -/
  | parked (what : ParkWhat) (len : Nat) (en : Bool)
  /-- The `MMA` of `len` bytes has performed its steps and has not retired (R258). -/
  | mma (weight len : Nat) (en : Bool)
  /-- An `FSHOOT` of the page at `va` (`none`: of every page) of context `ctx` waits for the acknowledgements of the chips
  in `left` (R350); it writes `s d` when it retires. -/
  | fshoot (left : List Nat) (va : Option Nat) (ctx d len : Nat) (en : Bool)
  /-- It raised a fault that ends its card (R35), stamped at clock `clock`; the card is stopped when that stamp is the
  least of the domain. -/
  | dying (cause kind clock : Nat)
  /-- Ended: every lane has exited (R34). -/
  | ended
  /-- Stopped with its card (R35, R318). -/
  | stopped
  deriving DecidableEq, Repr

/-- A warp (R16, R32, R105). Registers are sparse with 0 as the unlisted value: `v` by register × 64 + lane, `s` and
`p` by number, `j` by number (unlisted: empty), `shadow` by number from 112 (R101). -/
structure Warp where
  ident : Nat
  stage : Nat
  width : Nat
  quantum : Nat
  clock : Nat
  frags : List Frag
  run : Nat
  v : KMap Word
  s : KMap Dword
  p : KMap (BitVec 64)
  j : KMap JReg
  shadow : KMap Dword
  allot : Nat
  fpstat : Dword
  lxstat : Dword
  mstat : Dword
  jstat : Dword
  repidx : Nat
  mstep : Nat
  mpc : Option Dword
  rep : Option Rep
  sys : Bool
  sec : Bool
  turn : Bool
  tvec : Dword
  tcause : Dword
  tpc : Dword
  tregion : Dword
  tfrag : Dword
  tsibs : Dword
  taddr : Dword
  tclock : Dword
  pending : Bool
  region : Option Region
  outst : List Nat
  pend : List Pend
  unconf : List Unconf
  posted : List Posted
  held : Option (Nat × Nat)
  /-- The stores posted by its handler, and their held fault (R166). -/
  hposted : List Posted
  hheld : Option (Nat × Nat)
  /-- The late-reply table of its slot, while its group is saved (R302). -/
  late : List Late
  hand : Hand
  stat : WStat
  runLen : Nat
  /-- The issue slot of its core that its run holds, 0 to 3 (R72). -/
  slot : Option Nat
  /-- Its entry in the core's 48-entry warp table (R78). -/
  entry : Nat
  haltReq : Bool
  halted : Bool
  preReq : Bool
  /-- The stamps, in the round of the last, of its start and group turns, its own, and of the turns that reinstated it, those of
  others (R318), oldest first. -/
  turns : List Stamp
  /-- Its next instruction has issued before and waits by passing (R199), its accesses counted (R339). -/
  passed : Bool
  /-- Once it has ended or stopped, the mark that it contributes to its card's end mark (R191). -/
  endClock : Nat
  deriving DecidableEq, Repr

/-! ## Groups -/

/-- A barrier (R219). -/
structure Bar where
  phase : Nat
  count : Nat
  expect : Nat
  arrived : List Nat
  deriving DecidableEq, Repr

/-- A tensor descriptor as read (R226); `ok` when its reserved fields are zero. -/
structure Desc where
  ok : Bool
  region : Nat
  group : Bool
  ndim : Nat
  ty : Nat
  base : Int
  ext : List Nat
  expoff : Int
  str : List Int
  deriving DecidableEq, Repr

/-- A copy command as read (R225, R235); `ok` when its reserved fields are zero. -/
structure CopyCmd where
  ok : Bool
  role : Nat
  nslice : Nat
  bufoff : Nat
  buflen : Nat
  src : Desc
  dst : Desc
  strm : Desc
  loopOk : Bool
  count : Nat
  stages : Nat
  step : List Int
  deriving DecidableEq, Repr

/-- Which copy instruction a collection or copy belongs to; a chain keeps its literal and scalars (R236). -/
inductive CopyKind where
  | slice
  | loop
  | chain (lit : Dword) (scal : List Dword)
  | acc (imm : Nat)
  deriving DecidableEq, Repr

/-- A slice's share: for each dimension a first index and a count (R229); `ok` when the record's unused pairs are zero. -/
structure Share where
  ok : Bool
  box : List (Nat × Nat)
  deriving DecidableEq, Repr

/-- An open collection (R230). -/
structure Coll where
  addr : Dword
  cmd : CopyCmd
  shares : List Share
  deriving DecidableEq, Repr

/-- A started copy: its stamp, the writes that its completion makes to group memory, to global memory and to the
accumulator store, its flags (R237), and whether its completion fills the entry. -/
structure Copy where
  stamp : Stamp
  gw : List (Nat × Byte)
  mw : KMap Byte
  aw : List (Nat × Acc48)
  flags : Nat
  ceil : Bool
  floor : Bool
  fill : Bool
  deriving DecidableEq, Repr

/-- A looping copy of which a buffer is a stage (R235): its command, first buffer and the iteration the stage holds. -/
structure Loop where
  cmd : CopyCmd
  first : Nat
  iter : Nat
  deriving DecidableEq, Repr

/-- A buffer entry (R232, R233). `state`: 0 free, 1 filling, 2 full, 3 draining, 4 error. -/
structure Buf where
  state : Nat
  refused : Bool
  err : Nat
  flags : Nat
  ceil : Bool
  floor : Bool
  iter : Nat
  off : Nat
  len : Nat
  coll : Option Coll
  copy : Option Copy
  loop : Option Loop
  deriving DecidableEq, Repr

/-- What a waiting pre-emption of a group serves (R299): ready groups of a priority level, a card that has waited, the group that
holds the floor, or system software. -/
inductive Ask where
  | prio (level : Nat)
  | wait (card : Nat)
  | floor
  | system
  deriving DecidableEq, Repr

/-- A group (R33, R94, R219, R232, R243, R300). `core` is die × 24 + core while it is resident. `gmem` by offset,
`acc` by row × 256 + column, `bufs` and `bars` by number; unlisted: 0, 0, free, zero. -/
structure Group where
  chip : Nat
  core : Option Nat
  order : Nat
  saved : Bool
  /-- The slot of its card's save area that it holds (R296). -/
  slotAt : Nat
  /-- The request to save it that waits (R299). -/
  ask : Option Ask
  gsize : Nat
  gmem : KMap Byte
  acc : KMap Acc48
  bufs : KMap Buf
  bars : KMap Bar
  poolCap : Nat
  poolFree : Nat
  claims : List Nat
  deriving DecidableEq, Repr

/-! ## Cards -/

/-- A registered ticket word (R222, R223): its physical key at the home where it was registered, base, the group that holds
the ticket, and the groups that have held it. -/
structure Ticket where
  key : Nat
  base : Nat
  holder : Option Nat
  had : List Nat
  deriving DecidableEq, Repr

/-- Why a card was stopped (R35, R39, R298, R317). -/
structure Stop where
  stamp : Stamp
  cause : Nat
  kind : Nat
  status : Nat
  deriving DecidableEq, Repr

/-- The shape of a card (R19, R284). -/
structure Shape where
  width : Nat
  groups : Nat
  warps : List Nat
  allots : List Nat
  gmem : Nat
  canon : Nat
  split : Nat
  quantum : Nat
  save : Nat
  deriving DecidableEq, Repr

/-- An admitted card (R19, R283 to R297, R309, R361). `ended` lists the groups that have ended, each with the clock
of its last `EXIT` and that warp's identity; `held` maps a handle to how often the card holds it. -/
structure Card where
  shape : Shape
  batch : Bool
  entry : Dword
  arg : Dword
  stride : Nat
  origin : Nat
  base : Nat
  mbox : Nat
  seq : Nat
  /-- The position of its admission record (R293). -/
  admAt : Nat
  prio : Nat
  created : Bool
  /-- The handle that an `INVOKEH` created it through, and that act's stamp (R324). -/
  via : Option (Dword × Stamp) := none
  handle : Dword
  seed : Dword
  digest : Dword
  doneAddr : Nat
  slots : Nat
  area : Nat
  /-- Where its save area starts within the context's pool (R297). -/
  areaAt : Nat
  /-- No handle slot was free at its origin: it waits for the act that next frees one (R378). -/
  blocked : Bool
  placed : Bool
  /-- Its partition's count of started groups when its first one started (R299). -/
  began : Nat
  next : Nat
  /-- The core that receives the batch chunk now being placed (R28). -/
  chunkCore : Option Nat
  tickets : List Ticket
  ended : KMap Stamp
  /-- The groups of which every warp has ended while copies of theirs are still writing (R34). -/
  quit : List Nat := []
  /-- Ends of groups whose ticket words have not yet advanced (R223). -/
  due : List (Stamp × Nat)
  /-- Publications that reach its registered ticket words, each by its stamp and the word's key: the advances that they admit are
  still to follow (R223). -/
  touched : List (Stamp × Nat)
  /-- Of each ended warp of a group that has ended: its identity, `turns` and the mark of its publication (R318). -/
  gone : List (Nat × List Stamp × Nat)
  /-- The latest stop stamp among its stopped warps (R306). -/
  stopAt : Option Stamp
  /-- The mark at which a card whose save area is exhausted will be stopped (R298). -/
  doomed : Option Nat
  stop : Option Stop
  /-- The partition and mailbox of its creator's running hash, for a card created elsewhere (R362). -/
  maker : Option (Nat × Nat)
  endTurn : Bool
  mark : Nat
  held : KMap Nat
  deriving DecidableEq, Repr

/-- A card on its way to a dealer (R311, R323), or in a forward queue (R321). -/
structure Created where
  home : Nat
  target : Nat
  image : Dword
  arg : Dword
  ident : Nat
  handle : Dword
  origin : Nat
  prio : Nat
  mbox : Nat
  held : List Dword
  stamp : Stamp
  /-- The handle that an `INVOKEH` created it through (R324). -/
  via : Option Dword
  /-- The seed that it records, once an admitted seed entry has a base at or above its origin (log 108). -/
  seed : Option Dword := none
  /-- The partition and mailbox of its creator's running hash (R362). -/
  maker : Nat × Nat
  deriving DecidableEq, Repr

/-- The states of a handle slot (R306). -/
inductive SlotSt where
  | free | pending | running | resolved | broken | reclaimed
  deriving DecidableEq, Repr

/-- A handle slot (R306): `place` is a chip and an address, `freeAt` the stamp at which it became free. -/
structure Slot where
  gen : Nat
  st : SlotSt
  count : Nat
  value : List Byte
  place : Option (Nat × Dword)
  cause : Dword
  queue : List Created
  card : Option Nat
  ended : Bool
  /-- The stamp at which its task ended (R306). -/
  endAt : Stamp
  freeAt : Stamp
  deriving DecidableEq, Repr

/-! ## Partitions -/

/-- A context, as its descriptor was read at creation (R280). -/
structure Ctx where
  sec : Bool
  turn : Bool
  num : Nat
  root : Nat
  rtab : Nat
  rcount : Nat
  tvec : Dword
  admrec : Nat
  admlen : Nat
  pool : Nat
  poollen : Nat
  repro : Nat
  msibase : Nat
  deriving DecidableEq, Repr

/-- The fields of an entry (R283), by bit number; an unlisted field is 0. -/
abbrev Fields := KMap Nat

/-- A recognised entry: its place in the mailbox's order of recognition from 1, its fields, its four dependences as
(mailbox, place in that mailbox's order), and whether a dependence names itself or a later entry (R286). -/
structure Entry where
  n : Nat
  fields : Fields
  deps : List (Nat × Nat)
  badDep : Bool
  deriving DecidableEq, Repr

/-- The admitted entry of a mailbox that has not completed: its type, base, and its card's key. -/
structure Current where
  n : Nat
  typ : Nat
  base : Nat
  card : Option Nat
  doneAddr : Nat
  /-- Its fence mark, once fixed (R291). -/
  mark : Option Nat
  deriving DecidableEq, Repr

/-- A mailbox (R281, R282, R285). `count` entries have been recognised, so `SEQ` follows; `ring` holds the bytes
written since the cursor last passed them; `done` maps the place of a completed entry to its base and end value. -/
structure Mbox where
  closed : Bool
  /-- How many entries it had recognised when it closed (R286). -/
  closedAt : Nat
  ovf : Bool
  count : Nat
  cursor : Nat
  clock : Nat
  ring : KMap Byte
  fifo : List Entry
  prev : Fields
  cur : Option Current
  done : KMap Stamp
  hash : List Byte
  /-- The folds into `hash` so far, oldest first: the clock of each fold's stamp and the hash before it (R362). -/
  folds : List (Nat × List Byte)
  /-- The ends of cards and fences that no capture to come lies after: the clock of each and `clock` before it (R357). -/
  ends : List (Nat × Nat) := []
  deriving DecidableEq, Repr

/-- A command interface (R370): `ARG0` to `ARG3` by number, `STAT`, the last `OP` that started, and the outcome that the
running command will report (`ERR` and `RESULT`); of a running invalidation, its form, context and address, read when `CMD` was
written. -/
structure CmdIf where
  args : KMap Dword
  result : BitVec 32
  err : Bool
  done : Bool
  busy : Bool
  op : Nat
  outcome : Bool × BitVec 32
  inval : Option (Nat × Nat × Nat) := none
  deriving DecidableEq, Repr

/-- The system fault queue (R372). -/
structure FaultQ where
  set : Bool
  base : Nat
  entries : Nat
  head : Dword
  tail : Dword
  deriving DecidableEq, Repr

/-- What a save point holds of the dealer and of the handle tables (R357, R359): the position of the admission record, the counts of
admitted and created cards, the seed stack, the mailboxes (count, closed, c_b, H_b), and the generations of the slots of the
partition's dies that have been freed. -/
structure Dealt where
  admPos : Nat
  nMail : Nat
  nCreated : Nat
  seeds : List Dword
  boxes : List (Nat × Bool × Nat × List Byte)
  gens : KMap Nat
  deriving DecidableEq, Repr

/-- A requested save point (R353): its mark, whether `SAVEPT` requested it, and its entry's mailbox and place. -/
structure SpReq where
  /-- Its place in the order of requests. -/
  tag : Nat
  mark : Nat
  bySavept : Bool
  mbox : Option (Nat × Nat)
  /-- In free mode, memory as the request saw it (R364), the cards then live and the dealer's state (R357). -/
  seen : Memory
  live : List Nat
  dealt : Option Dealt := none
  deriving DecidableEq, Repr

/-- A capture that has begun (R355): its number, the units still to copy and those copied, by unit number; the partition's
memory as of the mark by physical address; the numbers of live cards, and the dealer's state as of the mark. -/
structure Capture where
  num : Nat
  req : SpReq
  full : Bool
  left : List Nat
  image : KMap Byte
  units : List Nat
  live : List Nat
  dealt : Dealt
  deriving DecidableEq, Repr

/-- What a spare region holds of a save point (R355 to R357): a unit, the offset list of a stack's shard, the manifest. -/
inductive Piece where
  | unit (u : Nat)
  | offsets (stack : Nat)
  | manifest
  deriving DecidableEq, Repr

/-- A completed save point (R357): its manifest and its digest, its units, and the partition's memory at the mark. -/
structure SavePoint where
  num : Nat
  mark : Nat
  mbox : Option (Nat × Nat)
  full : Bool
  digest : List Byte
  prev : List Byte
  shape : Nat
  image : KMap Byte
  units : List Nat
  manifest : KMap Byte
  dealt : Dealt
  deriving DecidableEq, Repr

/-- The save-point engines of a partition (R352 to R359). -/
structure Save where
  next : Nat
  reqs : List SpReq
  full : Bool
  /-- The capture whose units are being copied, and those that have begun behind it, oldest first (R355). -/
  cap : Option Capture
  queue : List Capture := []
  prevImage : KMap Byte
  prevDigest : List Byte
  points : List SavePoint
  /-- How many of `points` earlier contexts took, or this one before its last restore. -/
  old : Nat
  /-- Cards forgotten while a save point was requested: origin, end mark and number (R357). -/
  past : List (Nat × Nat × Nat)
  /-- The number and stack that failed the last refused restore (R358). -/
  failed : Option (Nat × Option Nat)
  /-- Where spare regions drain to: a host address, or 2^63 + a peer's index; how many bytes it takes and has taken. -/
  drain : Option (Nat × Nat)
  drainAt : Nat
  /-- What the spare regions hold, oldest first: the save point's place in `points`, and the piece. -/
  spare : List (Nat × Piece)
  floor : Nat
  record : List (List Byte)
  differs : Option Nat
  deriving DecidableEq, Repr

/-- A partition (R369). `silent`: reset since its last context, so that the chips of its island hear nothing of its domain (R373).
`mboxes` by number (unlisted: closed, never written), `pins` maps a handle to the context's
holdings of it (R309). -/
structure Part where
  ctx : Option Ctx
  silent : Bool
  mboxes : KMap Mbox
  seeds : List Dword
  nMail : Nat
  nCreated : Nat
  admPos : Nat
  /-- While save points are requested in turn mode: the clock of each act that changed the dealer's state or a slot's generation,
  oldest first, and what stood before it (R355, R357). -/
  hist : List (Nat × Dealt) := []
  svc : Nat
  order : Nat
  cmd : CmdIf
  fq : FaultQ
  pins : KMap Nat
  save : Save
  deriving DecidableEq, Repr

/-! ## Chips -/

/-- A translation held (R153, R157): page base and size, the entry's physical key and bits. In a walk cache, a table entry
with the range that it translates. -/
structure Tlb where
  ctx : Nat
  base : Nat
  size : Nat
  entry : Nat
  leaf : BitVec 64
  deriving DecidableEq, Repr

/-- An Omhi port (R330 to R334): the flits not yet acknowledged, oldest first (those beyond the 512 of the replay buffer wait
to be sent); the flits on their way to the other end, first resent ones among them; and those received and delivered. -/
structure Port where
  up : Bool
  trained : Bool
  timedOut : Bool
  txSeq : Nat
  buffer : List Flit
  wire : List Flit
  /-- How often each of them has been replayed in a row, by sequence number (R332). -/
  replays : KMap Nat
  rxSeq : Nat
  replayFrom : Option Nat
  got : List Flit
  deriving DecidableEq, Repr

/-- What `FXPEER` of a peer holds beside its port's state (R334). -/
structure Peer where
  rv : Bool
  relay : BitVec 4
  port : BitVec 4
  deriving DecidableEq, Repr

/-- A line of a slice (R167, R174): its key, whether it holds bytes not yet written back, and its keep mark. -/
structure SLine where
  key : Nat
  dirty : Bool
  keep : Bool
  deriving DecidableEq, Repr

/-- A slice: its lines (R174), `SLCSTAT` (R177) and its retirement in progress (R176). -/
structure Slice where
  /-- The lines that it caches, of which `State.mem` holds the bytes, in order of last use (R174). -/
  lines : List SLine
  ret : Bool
  thresh : BitVec 8
  ceCount : BitVec 16
  retiring : Bool
  deriving DecidableEq, Repr

/-- A line of an L1 (R171): its key, the round whose image it holds (`none` in free mode), the group that last touched
it and its bytes by offset (unlisted: not present). -/
structure Line where
  key : Nat
  round : Option Nat
  group : Nat
  data : KMap Byte
  deriving DecidableEq, Repr

/-- A core (R10, R78, R157, R171, R245): instruction-cache lines of 128 bytes, each with
the clock of the settled image that it holds in turn mode, and L1 TLB entries, oldest first; L1 lines in
order of last use, victim tags, locality scores by group, lost arbitrations by warp, round-robin position (the warp-table
entry that won last), and the group that holds the accumulator store. -/
structure Core where
  icache : List (Nat × Option Nat × List Byte)
  tlb : List Tlb
  l1 : List Line
  victims : List (Nat × Nat)
  scores : KMap Nat
  lost : KMap Nat
  rr : Nat
  accHolder : Option Nat
  deriving DecidableEq, Repr

/-- An entry of the count table (R339). -/
structure Count where
  page : Nat
  ctx : Nat
  count : Nat
  deriving DecidableEq, Repr

/-- An error record (R376). -/
structure ErrRec where
  elem : Nat
  die : Nat
  unit : Nat
  sev : Nat
  ctx : Nat
  addr : Nat
  time : Nat
  synd : Nat
  deriving DecidableEq, Repr

/-- A region register of the security controller (R377). -/
abbrev RegionReg := BitVec 64

/-- A chip. `peers` by index, `ports` by number, `slices` by die × 24 + slice, `buckets` by die × 1,024 + bucket
(unlisted: bucket mod 24), `cores` by die × 24 + core, `counts` by index, `regions` by number, `dieTlb` and `walks` by die (the last-level TLB and the
walk cache, oldest first); unlisted entries are as after reset. -/
structure Chip where
  fxEn : Bool
  isize : BitVec 4
  index : BitVec 4
  peers : KMap Peer
  ports : KMap Port
  /-- How many packets it has sent. -/
  sent : Nat
  beaconSeq : Nat
  beacons : KMap Beacon
  mhz : Nat
  stretched : List Nat
  slices : KMap Slice
  buckets : KMap Nat
  dieTlb : KMap (List Tlb)
  walks : KMap (List Tlb)
  /-- The resolution cache (R323): handles with their final state and their place, oldest first. -/
  resolved : List (Dword × SlotSt × Option (Nat × Dword))
  counts : KMap Count
  replicas : KMap Byte
  /-- The pages that `replicas` holds bytes of: context, virtual base, size and first key (R350). -/
  replicaOf : List (Nat × Nat × Nat × Nat)
  cores : KMap Core
  enabled : BitVec 192
  pmap : BitVec 64
  sysIf : CmdIf
  errLog : List ErrRec
  regions : KMap RegionReg
  secReports : List Nat
  /-- The firmware in flash and the fused digest, and whether the secure monitor has started (R373). -/
  flash : List Byte
  fuse : List Byte
  monitor : Bool
  /-- The size of window B, as a power of two of GiB (R368). -/
  barSize : Nat
  deriving DecidableEq, Repr

/-! ## Publications and pages on the move -/

/-- What a publication carries (R184): bytes by physical key, or a reduction. -/
inductive PubBody where
  | bytes (b : KMap Byte)
  | pot (key op : Nat) (ty : Ty) (val : Dword)
  deriving DecidableEq, Repr

/-- A publication: its domain, stamp, and order among those of one stamp (R184: 0 hand bytes, 1 a turn's own effect, 2 pot
entries, 3 copy writes, 4 what the turn unit then does to ticket words), and the clock of the act that made it: a turn's or a parking's, or the mark. -/
structure Pub where
  dom : Nat
  stamp : Stamp
  ord : Nat
  made : Nat
  body : PubBody
  deriving DecidableEq, Repr

/-- A page whose home has moved (R341): old and new physical keys and its size; `moving` until the move completes, and the
chips whose translation has changed to the new home (R342). -/
structure Forward where
  old : Nat
  new : Nat
  size : Nat
  va : Nat
  ctx : Nat
  moving : Bool
  switched : List Nat
  deriving DecidableEq, Repr

/-- The machine: up to 16 chips, keyed 0 to 15. `parts` by chip × 8 + partition; `cards`, `groups` and `warps` by
partition × 2^52 + identity (R25); `slots` by (partition × 8 + logical die) × 2^16 + slot; `mem` by chip × 2^52 +
physical address. `runs` lists the warps that hold an issue slot, in the order in which they won it (R72). `agenda`, `cur` and `freeCtr` are the
model's own (logs 1 and 3). -/
structure State where
  agenda : List Instr
  cur : Option Nat
  runs : List Nat
  freeCtr : Nat
  mem : Memory
  hostMem : Memory
  msi : List (Nat × Nat)
  pubs : List Pub
  chips : KMap Chip
  parts : KMap Part
  cards : KMap Card
  groups : KMap Group
  warps : KMap Warp
  slots : KMap Slot
  created : List Created
  forwards : List Forward
  markers : List (Nat × Nat)
  deriving DecidableEq, Repr

/-! ## Reset -/

/-- A command interface after reset (R370). -/
def CmdIf.reset : CmdIf := { args := [], result := 0, err := false, done := false, busy := false, op := 0, outcome := (false, 0) }

/-- The SHA-256 digest of the empty string: what the fuses hold for the firmware of `Chip.reset` (log 75). -/
def emptyDigest : List Byte :=
  [0xe3, 0xb0, 0xc4, 0x42, 0x98, 0xfc, 0x1c, 0x14, 0x9a, 0xfb, 0xf4, 0xc8, 0x99, 0x6f, 0xb9, 0x24] ++
  [0x27, 0xae, 0x41, 0xe4, 0x64, 0x9b, 0x93, 0x4c, 0xa4, 0x95, 0x99, 0x1b, 0x78, 0x52, 0xb8, 0x55]

/-- A chip after reset (R334, R373, R376, R377). Cores 0 to 19 of every die are enabled (log 5). -/
def Chip.reset : Chip :=
  { fxEn := false, isize := 0, index := 0, peers := [], ports := [], sent := 0, beaconSeq := 0, beacons := [], mhz := 1200
    stretched := [], slices := [], buckets := [], dieTlb := [], walks := [], resolved := [], counts := [], replicas := [], replicaOf := []
    cores := []
    enabled := BitVec.ofNat 192 ((2 ^ 20 - 1) * (1 + 2 ^ 24 + 2 ^ 48 + 2 ^ 72 + 2 ^ 96 + 2 ^ 120 + 2 ^ 144 + 2 ^ 168))
    pmap := 0, sysIf := CmdIf.reset, errLog := [], regions := [], secReports := []
    flash := [], fuse := emptyDigest, monitor := true, barSize := 10 }

/-- The save-point engines after reset (R353). -/
def Save.reset : Save :=
  { next := 1, reqs := [], full := true, cap := none, prevImage := [], prevDigest := [], points := []
    old := 0, past := [], failed := none, drain := none, drainAt := 0, spare := [], floor := 0, record := [], differs := none }

/-- A partition after reset: no context (R373). -/
def Part.reset : Part :=
  { ctx := none, silent := false, mboxes := [], seeds := [], nMail := 0, nCreated := 0, admPos := 0, svc := 0, order := 0
    cmd := CmdIf.reset, fq := { set := false, base := 0, entries := 0, head := 0, tail := 0 }, pins := []
    save := Save.reset }

/-- The machine right after device reset (R373): no context, every byte of device memory 0, every chip at reset. -/
def State.reset : State :=
  { agenda := [], cur := none, runs := [], freeCtr := 0, mem := [], hostMem := [], msi := [], pubs := [], chips := [], parts := []
    cards := [], groups := [], warps := [], slots := [], created := [], forwards := [], markers := [] }

end Sys2Proof.Machine
end

