-- ==== Sys2Proof/Machine/Access.lean ====
section
/-! DEFINITION. Keys of the state's records, reads and writes of its parts, and the accessors of a warp's registers
(R51, R101): the one place where `s0`, `p0` and the shadow bank have their meaning. -/

namespace Sys2Proof.Machine

/-- The outcome of a step. -/
abbrev Out := Host.Outcome State Fault Refusal

/-! ## Keys -/

def keyBase : Nat := 2 ^ 52
/-- The partition (chip × 8 + p) of a warp, group or card key. -/
def partOf (k : Nat) : Nat := k / keyBase
/-- The 52-bit identity (R25). -/
def identOf (k : Nat) : Nat := k % keyBase
def groupKey (k : Nat) : Nat := k / 2 ^ 8 * 2 ^ 8
def cardKey (k : Nat) : Nat := k / 2 ^ 32 * 2 ^ 32
def wigOf (k : Nat) : Nat := k % 2 ^ 8
def groupNo (k : Nat) : Nat := k / 2 ^ 8 % 2 ^ 24
def serialOf (k : Nat) : Nat := k / 2 ^ 32 % 2 ^ 16
def chipIdx (k : Nat) : Nat := k / 2 ^ 48 % 16
/-- The chip that a partition belongs to. -/
def chipOf (part : Nat) : Nat := part / 8
/-- The physical key of an address of a chip's device memory. -/
def physKey (chip pa : Nat) : Nat := chip * keyBase + pa
/-- The stack of a physical address, and its die (R150). -/
def stackOf (pa : Nat) : Nat := pa / 0xC00000000
def dieOfPa (pa : Nat) : Nat := stackOf pa / 2
/-- Size of a chip's device memory (R150). -/
def deviceSize : Nat := 0xC000000000

/-! ## Records -/

def getChip (s : State) (c : Nat) : Chip := sget Chip.reset s.chips c
def setChip (s : State) (c : Nat) (x : Chip) : State := { s with chips := sput Chip.reset s.chips c x }
def getPart (s : State) (p : Nat) : Part := sget Part.reset s.parts p
def setPart (s : State) (p : Nat) (x : Part) : State := { s with parts := sput Part.reset s.parts p x }
def getWarp (s : State) (k : Nat) : Option Warp := kfind s.warps k
def setWarp (s : State) (k : Nat) (w : Warp) : State := { s with warps := kinsert s.warps k w }
def updWarp (s : State) (k : Nat) (f : Warp → Warp) : State := { s with warps := kmodify s.warps k f }
def getGroup (s : State) (k : Nat) : Option Group := kfind s.groups (groupKey k)
def setGroup (s : State) (k : Nat) (g : Group) : State := { s with groups := kinsert s.groups (groupKey k) g }
def updGroup (s : State) (k : Nat) (f : Group → Group) : State := { s with groups := kmodify s.groups (groupKey k) f }
def getCard (s : State) (k : Nat) : Option Card := kfind s.cards (cardKey k)
def setCard (s : State) (k : Nat) (c : Card) : State := { s with cards := kinsert s.cards (cardKey k) c }
def updCard (s : State) (k : Nat) (f : Card → Card) : State := { s with cards := kmodify s.cards (cardKey k) f }

/-- A mailbox never opened. -/
def Mbox.closedBox : Mbox :=
  { closed := true, closedAt := 0, ovf := false, count := 0, cursor := 0, clock := 0, ring := [], fifo := [], prev := [], cur := none
    done := [], hash := List.replicate 32 0, folds := [] }
def getMbox (s : State) (p b : Nat) : Mbox := sget Mbox.closedBox (getPart s p).mboxes b
def setMbox (s : State) (p b : Nat) (m : Mbox) : State :=
  let pt := getPart s p
  setPart s p { pt with mboxes := sput Mbox.closedBox pt.mboxes b m }

/-- A buffer entry of a new group (R33). -/
def Buf.free : Buf :=
  { state := 0, refused := false, err := 0, flags := 0, ceil := false, floor := false, iter := 0, off := 0, len := 0
    coll := none, copy := none, loop := none }
def getBuf (g : Group) (b : Nat) : Buf := sget Buf.free g.bufs b
def setBuf (g : Group) (b : Nat) (x : Buf) : Group := { g with bufs := sput Buf.free g.bufs b x }
def Bar.zero : Bar := { phase := 0, count := 0, expect := 0, arrived := [] }
def getBar (g : Group) (n : Nat) : Bar := sget Bar.zero g.bars n
def setBar (g : Group) (n : Nat) (x : Bar) : Group := { g with bars := sput Bar.zero g.bars n x }

/-- A core after reset; the round-robin order starts at entry 0 of the warp table (R78, log 57). -/
def Core.reset : Core := { icache := [], tlb := [], l1 := [], victims := [], scores := [], lost := [], rr := 47, accHolder := none }
def getCore (c : Chip) (n : Nat) : Core := sget Core.reset c.cores n
def setCore (c : Chip) (n : Nat) (x : Core) : Chip := { c with cores := sput Core.reset c.cores n x }
def Slice.reset : Slice := { lines := [], ret := false, thresh := 64, ceCount := 0, retiring := false }
def Port.reset : Port :=
  { up := false, trained := false, timedOut := false, txSeq := 0, buffer := [], wire := [], replays := [], rxSeq := 0
    replayFrom := none, got := [] }
def getPort (c : Chip) (q : Nat) : Port := sget Port.reset c.ports q
def setPort (c : Chip) (q : Nat) (x : Port) : Chip := { c with ports := sput Port.reset c.ports q x }
def Peer.reset : Peer := { rv := false, relay := 0, port := 0 }
def getPeer (c : Chip) (i : Nat) : Peer := sget Peer.reset c.peers i

/-- The chip and the core (die × 24 + core) on which a warp's group is resident. -/
def warpCore (s : State) (k : Nat) : Option (Nat × Nat) :=
  match getGroup s k with
  | some g => g.core.map fun c => (g.chip, c)
  | none => none

/-- Changes the core of a warp. -/
def updCore (s : State) (k : Nat) (f : Core → Core) : State :=
  match warpCore s k with
  | none => s
  | some (ch, c) => setChip s ch (setCore (getChip s ch) c (f (getCore (getChip s ch) c)))

/-! ## Lanes -/

/-- The mask of a warp's W lanes. -/
def fullMask (w : Nat) : BitVec 64 := BitVec.ofNat 64 (2 ^ w - 1)
/-- The lanes of a mask in ascending order. -/
def lanesOf (m : BitVec 64) : List Nat := (List.range 64).filter fun l => m.getLsbD l
def bitMask (l : Nat) : BitVec 64 := BitVec.ofNat 64 (2 ^ l)
def setLane (m : BitVec 64) (l : Nat) (b : Bool) : BitVec 64 := if b then m ||| bitMask l else m &&& ~~~(bitMask l)

/-- The running fragment (R31). -/
def curFrag (w : Warp) : Option Frag := w.frags.find? fun f => f.id == w.run
def curLanes (w : Warp) : BitVec 64 := match curFrag w with | some f => f.lanes | none => 0
def curPc (w : Warp) : Dword := match curFrag w with | some f => f.pc | none => 0
/-- Changes the running fragment. -/
def updFrag (w : Warp) (g : Frag → Frag) : Warp := { w with frags := w.frags.map fun f => if f.id == w.run then g f else f }
def setPc (w : Warp) (pc : Dword) : Warp := updFrag w fun f => { f with pc := pc }

/-! ## Registers (R51, R52, R101) -/

def rdV (w : Warp) (r l : Nat) : Word := sget 0 w.v (r * 64 + l)
def wrV (w : Warp) (r l : Nat) (x : Word) : Warp := { w with v := sput 0 w.v (r * 64 + l) x }

/-- `s0` reads as 0; at system privilege `s112` to `s127` name the shadow bank. -/
def rdS (w : Warp) (r : Nat) : Dword :=
  if r = 0 then 0 else if w.sys && decide (112 ≤ r) then sget 0 w.shadow r else sget 0 w.s r

/-- Writes to `s0` are discarded. -/
def wrS (w : Warp) (r : Nat) (x : Dword) : Warp :=
  if r = 0 then w
  else if w.sys && decide (112 ≤ r) then { w with shadow := sput 0 w.shadow r x }
  else { w with s := sput 0 w.s r x }

/-- `p0` reads as all ones. -/
def rdP (w : Warp) (r : Nat) : BitVec 64 := if r = 0 then fullMask w.width else sget 0 w.p r

/-- Writes to `p0` are discarded; a predicate holds W bits. -/
def wrP (w : Warp) (r : Nat) (x : BitVec 64) : Warp :=
  if r = 0 then w else { w with p := sput 0 w.p r (x &&& fullMask w.width) }

def wrPBit (w : Warp) (r l : Nat) (b : Bool) : Warp := wrP w r (setLane (rdP w r) l b)

/-- A 64-bit value of an even-odd pair (R52). -/
def rdVV (w : Warp) (r l : Nat) : Dword := rdV w (r + 1) l ++ rdV w r l
def wrVV (w : Warp) (r l : Nat) (x : Dword) : Warp :=
  wrV (wrV w r l (x.extractLsb' 0 32)) (r + 1) l (x.extractLsb' 32 32)

def JReg.empty : JReg := { addr := 0, expect := 0, arrived := 0 }
def rdJ (w : Warp) (n : Nat) : JReg := sget JReg.empty w.j n
def wrJ (w : Warp) (n : Nat) (x : JReg) : Warp := { w with j := sput JReg.empty w.j n x }

def applyW (w : Warp) : RegW → Warp
  | .v r l x => wrV w r l x
  | .s r x => wrS w r x
  | .p r l b => wrPBit w r l b

/-- Sets sticky flags of `%fpstat`. -/
def raiseFp (w : Warp) (fl : Nat) : Warp := { w with fpstat := w.fpstat ||| BitVec.ofNat 64 fl }

/-- The stores that a warp's privilege posts, oldest first: the program's, or its handler's (R166). -/
def postedOf (w : Warp) : List Posted := if w.sys then w.hposted else w.posted
def setPosted (w : Warp) (xs : List Posted) : Warp := if w.sys then { w with hposted := xs } else { w with posted := xs }
/-- Their held fault: kind and address. -/
def heldOf (w : Warp) : Option (Nat × Nat) := if w.sys then w.hheld else w.held
def setHeld (w : Warp) (x : Option (Nat × Nat)) : Warp := if w.sys then { w with hheld := x } else { w with held := x }

/-- An empty hand (R32). -/
def Hand.empty : Hand := { secs := [], pots := [] }

/-- The warp has neither ended nor stopped. -/
def isLive (w : Warp) : Bool :=
  match w.stat with
  | .ended | .stopped => false
  | _ => true

def isParked (w : Warp) : Bool :=
  match w.stat with
  | .parked .. => true
  | _ => false

/-- Lexicographic order of stamps (R181). -/
def stampLt (a b : Stamp) : Bool := decide (a.1 < b.1) || (a.1 == b.1 && decide (a.2 < b.2))

/-- The least multiple of Q above a clock. -/
def nextMark (q c : Nat) : Nat := (c / q + 1) * q
/-- The least multiple of Q at or above a clock. -/
def ceilMark (q c : Nat) : Nat := (c + q - 1) / q * q

end Sys2Proof.Machine
end

