-- ==== Sys2Proof/Machine/Slices.lean ====
section
/-! DEFINITION. The slices of a die with their buckets and the lines that they keep (R14, R167, R174, R175). The bytes that a slice
caches are those of `State.mem`, which is memory as the slices serve it. -/

namespace Sys2Proof.Machine

/-- Bytes per line, of an L1 and of a slice. -/
def lineSize : Nat := 128
/-- The first key of a key's line. -/
def lineOf (key : Nat) : Nat := key / lineSize * lineSize

/-! ## Slices (R174, R175) -/

def getSlice (c : Chip) (die slice : Nat) : Slice := sget Slice.reset c.slices (die * 24 + slice)
def setSlice (c : Chip) (die slice : Nat) (x : Slice) : Chip := { c with slices := sput Slice.reset c.slices (die * 24 + slice) x }

/-- The bucket of a physical address on its home die. -/
def bucketOf (pa : Nat) : Nat :=
  let field (i : Nat) : Nat := pa % 2 ^ 52 / 2 ^ i % 2 ^ 10
  field 7 ^^^ field 17 ^^^ field 27 ^^^ field 37 ^^^ field 47

/-- The slice of a bucket of a die. -/
def bucketSlice (ch : Chip) (die b : Nat) : Nat := (kfind ch.buckets (die * 1024 + b)).getD (b % 24)

/-- The home die of a physical address and the slice of it that serves the address (R14). -/
def sliceOf (ch : Chip) (pa : Nat) : Nat × Nat := (dieOfPa pa, bucketSlice ch (dieOfPa pa) (bucketOf pa))

/-- The set of a line within its slice: 2 MiB in 16 ways of 128-byte lines is 1,024 sets (log 70). -/
def setOf (key : Nat) : Nat := key % keyBase / lineSize % 1024

/-- Each item but those equal to the one before it. -/
def sparse : List Nat → List Nat
  | a :: b :: r => if a = b then sparse (b :: r) else a :: sparse (b :: r)
  | l => l

/-- The lines that hold overlay entries: those of publications not yet merged (R174). -/
def overlayLines (s : State) : List Nat :=
  (s.pubs.flatMap fun x => match x.body with
    | .bytes b => sparse (b.map fun e => lineOf e.1)
    | .pot key _ _ _ => [lineOf key]).eraseDups

/-- How many ways of a slice's set overlay entries take from data, of `ov`: at most 4 (R174). A publication that finds the 4 ways full
waits in the device, which is timing only (log 92). -/
def overlayWays (ch : Chip) (ov : List Nat) (c die slice set : Nat) : Nat :=
  min 4 (ov.filter fun k => k / keyBase == c && setOf k == set && sliceOf ch (k % keyBase) == (die, slice)).length

/-- The line of a set that gives way: the least recently used without the keep mark, else the least recently used (R167). -/
def slVictim (ls : List SLine) (set : Nat) : Option SLine :=
  let mine := ls.filter fun x => setOf x.key == set
  (mine.find? fun x => !x.keep).or mine.head?

/-- A slice's lines once it has served an access to a line, with `ways` for data: hint 1 enters a new line as the next to be
replaced, hint 2 keeps it (R167). -/
def slTouch (ls : List SLine) (base ways : Nat) (write : Bool) (hint : Nat) : List SLine :=
  match ls.find? fun x => x.key == base with
  | some x => (ls.filter fun y => y.key != base) ++ [{ x with dirty := x.dirty || write, keep := x.keep || hint == 2 }]
  | none =>
    let full := decide (ways ≤ (ls.filter fun y => setOf y.key == setOf base).length)
    let ls := match (if full then slVictim ls (setOf base) else none) with
      | some v => ls.filter fun y => y.key != v.key
      | none => ls
    let x : SLine := { key := base, dirty := write, keep := hint == 2 }
    if hint = 1 then x :: ls else ls ++ [x]

/-- Changes the lines of the slice that serves a key, given how many of the ways of the key's set `ov` leaves for data. -/
def updSlice (s : State) (ov : List Nat) (key : Nat) (f : Nat → List SLine → List SLine) : State :=
  let c := key / keyBase
  if 16 ≤ c then s
  else
    let ch := getChip s c
    let (d, n) := sliceOf ch (key % keyBase)
    let x := getSlice ch d n
    setChip s c (setSlice ch d n { x with lines := f (16 - overlayWays ch ov c d n (setOf key)) x.lines })

/-- An access to a key reaches the slice that serves it (R14, R175), while the lines `ov` hold overlay entries. -/
def touchOver (ov : List Nat) (s : State) (write : Bool) (hint key : Nat) : State :=
  updSlice s ov key fun ways ls => slTouch ls (lineOf key) ways write hint

/-- An access to a key. -/
def sliceTouch (s : State) (write : Bool) (hint key : Nat) : State := touchOver (overlayLines s) s write hint key

/-- Accesses to several keys, one for each line. -/
def sliceTouches (s : State) (write : Bool) (hint : Nat) (keys : List Nat) : State :=
  let ov := overlayLines s
  (sparse (keys.map lineOf)).eraseDups.foldl (fun s k => touchOver ov s write hint k) s

/-- Data lines of a set give way until it holds at most `ways` of them; at most `n` do. -/
def slTrim (set ways : Nat) : Nat → List SLine → List SLine
  | 0, ls => ls
  | n + 1, ls =>
    if (ls.filter fun x => setOf x.key == set).length ≤ ways then ls
    else match slVictim ls set with
      | some v => slTrim set ways n (ls.filter fun y => y.key != v.key)
      | none => ls

/-- Publications to keys take ways of their sets, and those ways cache no data meanwhile (R174). -/
def overlayTrim (s : State) (keys : List Nat) : State :=
  let ov := overlayLines s
  (sparse (keys.map lineOf)).eraseDups.foldl (fun s k => updSlice s ov k fun ways ls => slTrim (setOf k) ways 16 ls) s

/-- The slices of a chip write back and drop the lines that a test selects (R169). -/
def sliceDrop (s : State) (c : Nat) (hit : Nat → Bool) : State :=
  let ch := getChip s c
  setChip s c { ch with slices := smap Slice.reset (fun x => { x with lines := x.lines.filter fun y => !hit y.key }) ch.slices }

end Sys2Proof.Machine
end

