-- ==== Sys2Proof/Machine/Image.lean ====
section
/-! DEFINITION. Memory order in turn mode (spec 09): domains, images (R185), the floor (R183, R288), the least stamp
(R193, R195), and publications of a hand (R184, R190); and what a home refuses (R333, R346, R377). -/

namespace Sys2Proof.Machine

/-! ## Bytes -/

def rdByte (m : Memory) (k : Nat) : Byte := sget 0 m k
def wrByte (m : Memory) (k : Nat) (b : Byte) : Memory := sput 0 m k b
/-- `n` bytes from a key upwards. -/
def rdBytes (m : Memory) (k n : Nat) : List Byte := (List.range n).map fun i => rdByte m (k + i)
/-- The little-endian number of `n` bytes (R3). -/
def rdNat (m : Memory) (k n : Nat) : Nat := leNat (rdBytes m k n)
/-- Writes bytes from a key upwards. -/
def wrBytes (m : Memory) (k : Nat) : List Byte → Memory
  | [] => m
  | b :: r => wrBytes (wrByte m k b) (k + 1) r
/-- `n` bytes from a key upwards take the values that `f` gives by their place. -/
def wrSpan (m : Memory) (k n : Nat) (f : Nat → Byte) : Memory :=
  (m.filter fun e => decide (e.1 < k)) ++
    (((List.range n).map fun i => (k + i, f i)).filter fun e => e.2 != 0) ++ m.filter fun e => decide (k + n ≤ e.1)
/-- Writes listed (key, byte) pairs in order. -/
def wrPairs (m : Memory) (l : List (Nat × Byte)) : Memory := l.foldl (fun m e => wrByte m e.1 e.2) m

/-! ## Domains -/

/-- Chips of the island: those whose fabric is enabled. -/
def islandChips (s : State) : List Nat := (s.chips.filter fun e => e.2.fxEn).map (·.1)

/-- The domain of a partition: the partitions of the same number on the chips of the island, or the partition alone
(log 7). -/
def domOf (s : State) (p : Nat) : Nat := if (getChip s (chipOf p)).fxEn then p % 8 else 8 + p
def domParts (s : State) (d : Nat) : List Nat :=
  if d < 8 then (islandChips s).map fun c => c * 8 + d else [d - 8]
def inDom (s : State) (d p : Nat) : Bool := domOf s p == d

/-- The chip of the island with an index (R334). -/
def chipOfIndex (s : State) (i : Nat) : Option Nat :=
  (islandChips s).find? fun c => (getChip s c).index.toNat == i

/-- The dies of a partition (R369): byte p of the map holds [7] valid, [6:4] k, [3:0] first die. -/
def partDies (s : State) (p : Nat) : List Nat :=
  let b := (getChip s (chipOf p)).pmap.toNat / 256 ^ (p % 8) % 256
  if b / 128 = 1 then (List.range (2 ^ (b / 16 % 8))).map (fun i => b % 16 + i) else []

/-- What serves a partition may reach a physical address: it is one of device memory, and no other partition of the chip holds its
stack (R369, log 93). -/
def mayReach (s : State) (p pa : Nat) : Bool :=
  decide (pa < deviceSize) && (List.range 8).all fun i =>
    chipOf p * 8 + i == p || !(partDies s (chipOf p * 8 + i)).contains (dieOfPa pa)

/-! ## What a home refuses -/

/-- A byte lies in a secure region (R377). -/
def isSecure (s : State) (c pa : Nat) : Bool :=
  (getChip s c).regions.any fun e =>
    let r := e.2
    let base := (r.extractLsb' 0 36).toNat * 2 ^ 16
    let size := (r.extractLsb' 36 24).toNat * 2 ^ 16
    r.getLsbD 63 && r.getLsbD 62 && decide (base ≤ pa) && decide (pa < base + size)

/-- A chip's security controller reports a secure address to its secure monitor (R377). -/
def reportAt (s : State) (chip a : Nat) : State :=
  let ch := getChip s chip
  setChip s chip { ch with secReports := ch.secReports ++ [a] }

/-- The direct port of a chip to a peer. -/
def directPort (s : State) (c i : Nat) : Port := let ch := getChip s c; getPort ch (getPeer ch i).port.toNat

/-- The direct port of a chip to a peer is up (R334). -/
def directUp (s : State) (c i : Nat) : Bool := (getChip s c).fxEn && (directPort s c i).up

/-- The direct port to a peer is down (R332, R334): it was up and is no longer, or it has not trained in time. A port that is
still training is neither up nor down. -/
def directDown (s : State) (c i : Nat) : Bool :=
  let pt := directPort s c i
  !pt.up && (pt.trained || pt.timedOut)

/-- Traffic to a peer takes the detour (R332, R334): the direct port is down, the relay is valid, and so are the relay's own
paths. -/
def detours (s : State) (c i : Nat) : Bool :=
  let ch := getChip s c
  let pr := getPeer ch i
  ch.fxEn && i != ch.index.toNat && decide (i ≤ ch.isize.toNat) && directDown s c i && pr.rv && directUp s c pr.relay.toNat &&
  match chipOfIndex s pr.relay.toNat with
  | some r => directUp s r i
  | none => false

/-- Flits reach a peer now, directly or over its relay (R332). -/
def reaches (s : State) (c i : Nat) : Bool := directUp s c i || detours s c i

/-- No relay leads to a peer (R333): none is valid, or one of the relay's own paths is down. A path that is still training is not down
(R334): traffic waits for it. -/
def relayDown (s : State) (c i : Nat) : Bool :=
  let pr := getPeer (getChip s c) i
  !pr.rv || directDown s c pr.relay.toNat ||
  match chipOfIndex s pr.relay.toNat with
  | some r => directDown s r i
  | none => true

/-- A peer is unreachable (R333): its port is down and no relay leads to it, or the fabric is off. -/
def unreachable (s : State) (c i : Nat) : Bool := !(getChip s c).fxEn || (directDown s c i && relayDown s c i)

/-! ## Flits (R330, R331) -/

/-- The port by which a chip's traffic to a peer leaves: the one to the relay on a detour, else the direct one. -/
def portTo (s : State) (c i : Nat) : Nat :=
  let ch := getChip s c
  (getPeer ch (if detours s c i then (getPeer ch i).relay.toNat else i)).port.toNat

/-- Puts a packet on a port with the port's next sequence number; it is kept until it is acknowledged, and on the way once the port
is up and it is among the 512 of the replay buffer. -/
def putFlit (s : State) (c q : Nat) (x : Packet) : State :=
  let ch := getChip s c
  let pt := getPort ch q
  let f : Flit := { x with seq := pt.txSeq }
  setChip s c (setPort ch q { pt with
    txSeq := pt.txSeq + 1, buffer := pt.buffer ++ [f], wire := if pt.up && decide (pt.buffer.length < 512) then pt.wire ++ [f] else pt.wire })

/-- A chip sends one packet of its own to a peer. -/
def sendFlit (s : State) (c dest : Nat) (x : FlitPayload) : State :=
  let ch := getChip s c
  putFlit (setChip s c { ch with sent := ch.sent + 1 }) c (portTo s c dest)
    { dest := dest, src := ch.index.toNat, tag := ch.sent, payload := x }

/-- Sends a message of `n` bytes to another chip of the island in as many flits as its length needs, at 240 bytes each; nothing
goes to the chip itself or to an unreachable peer. -/
def sendFlits (s : State) (c dest n : Nat) (x : Nat → FlitPayload) : State :=
  match chipOfIndex s dest with
  | none => s
  | some d =>
    if d = c ∨ unreachable s c dest = true then s
    else (List.range (max 1 ((n + 239) / 240))).foldl (fun s i => sendFlit s c dest (x i)) s

def updPort (s : State) (c q : Nat) (f : Port → Port) : State :=
  let ch := getChip s c
  setChip s c (setPort ch q (f (getPort ch q)))

/-- The peer index behind a port. -/
def portPeer (ch : Chip) (q : Nat) : Option Nat :=
  (List.range 16).find? fun i => i != ch.index.toNat && decide (i ≤ ch.isize.toNat) && (getPeer ch i).port.toNat == q

/-- The chip and port at the other end of a link. -/
def otherEnd (s : State) (c q : Nat) : Option (Nat × Nat) :=
  let ch := getChip s c
  ((portPeer ch q).bind (chipOfIndex s)).map fun d => (d, (getPeer (getChip s d) ch.index.toNat).port.toNat)

/-- The sequence number that the other end of a link expects next. -/
def rxNext (s : State) (c q : Nat) : Nat :=
  match otherEnd s c q with
  | some (d, r) => (getPort (getChip s d) r).rxSeq
  | none => 0

/-- Takes the unacknowledged flits that a test selects off a port; the rest keep their order, and those of them that the other end
has not received follow on from the last one received. -/
def takeFlits (s : State) (c q : Nat) (hit : Flit → Bool) : State × List Flit :=
  let r := rxNext s c q
  let un := (getPort (getChip s c) q).buffer
  let (old, new) := (un.filter fun f => !hit f).partition fun f => decide (f.seq < r)
  let rest := old ++ new.zipIdx.map fun (f, i) => { f with seq := r + i }
  (updPort s c q fun x => { x with
    txSeq := r + new.length, buffer := rest, wire := if x.up then rest.take 512 else [], replays := [] }, un.filter hit)

/-- Resends flits by the paths that now lead to their destinations. -/
def resend (s : State) (c : Nat) (fs : List Flit) : State := fs.foldl (fun s f => putFlit s c (portTo s c f.dest) f.toPacket) s

/-- Step 2 of R332: the chip's own unacknowledged flits leave a port that is down for the detour, where one is ready. -/
def failover (s : State) (c q : Nat) : State :=
  let ch := getChip s c
  if (getPort ch q).up then s
  else
    let (s', fs) := takeFlits s c q fun f => f.src == ch.index.toNat && detours s c f.dest
    resend s' c fs

/-- The reason for which the home of a physical key refuses an access from a chip (R346), `none` when it accepts.
A key of chip 16 or above stands for a peer that is not there. -/
def homeRefuses (s : State) (chip : Nat) (sec : Bool) (key : Nat) : Option Nat :=
  let h := key / keyBase
  let pa := key % keyBase
  if h = chip then (if deviceSize ≤ pa then some 0 else if !sec && isSecure s h pa then some 1 else none)
  else if 16 ≤ h then some 2
  else if unreachable s chip (getChip s h).index.toNat then some 2
  else if deviceSize ≤ pa then some 0
  else if !sec && isSecure s h pa then some 1
  else none

/-! ## Images -/

/-- Applies a publication (R184, R201); a merge step raises no flag. -/
def applyPub (m : Memory) (p : Pub) : Memory :=
  match p.body with
  | .bytes b => wrPairs m b
  | .pot key op ty val =>
    let n := tyBits ty / 8
    wrBytes m key (leBytes n (comb op ty (rdNat m key n) val.toNat).1)

/-- I(t) of a domain (R185). -/
def image (s : State) (d : Nat) (t : Stamp) : Memory :=
  (s.pubs.filter fun p => p.dom == d && stampLt p.stamp t).foldl applyPub s.mem

/-- Memory as a table or code of a partition is read at clock `c` (log 10): in turn mode the settled image S(c), else memory. -/
def settledMem (s : State) (p c : Nat) : Memory :=
  match (getPart s p).ctx with
  | some x => if x.turn then image s (domOf s p) (c, 0) else s.mem
  | none => s.mem

/-- I(t) with what is published at `t` up to an order: what an act at `t` sees, its own part of the stamp included (R193). -/
def imageAt (s : State) (d : Nat) (t : Stamp) (last : Nat) : Memory :=
  (s.pubs.filter fun p => p.dom == d && (stampLt p.stamp t || (p.stamp == t && decide (p.ord ≤ last)))).foldl applyPub s.mem

/-- The key under which publications are ordered. -/
def pubBefore (a b : Pub) : Bool :=
  stampLt a.stamp b.stamp || (a.stamp == b.stamp && decide (a.ord < b.ord))

/-- Enters a publication after those that it does not precede. -/
def insertPub : List Pub → Pub → List Pub
  | [], x => [x]
  | p :: l, x => if pubBefore x p then x :: p :: l else p :: insertPub l x

def addPub (s : State) (x : Pub) : State := { s with pubs := insertPub s.pubs x }

/-- A publication at a stamp reaches keys: the ticket words that cards of the domain have registered there may advance (R223). -/
def touchWords (s : State) (d : Nat) (t : Stamp) (ks : List Nat) : State :=
  let hit (c : Card) : List Nat := (c.tickets.map (·.key)).filter fun a => ks.any fun k => decide (a ≤ k) && decide (k < a + 8)
  { s with cards := s.cards.map fun e =>
      (e.1, if inDom s d (partOf e.1) then { e.2 with touched := (e.2.touched ++ (hit e.2).map fun a => (t, a)).eraseDups } else e.2) }

/-- A publication enters the slices of its keys (R174), where it may let ticket words advance. -/
def publish (s : State) (x : Pub) (ks : List Nat) : State := touchWords (overlayTrim (addPub s x) ks) x.dom x.stamp ks

/-- Publishes bytes, when there are any, as an act of clock `made`. -/
def pubBytes (s : State) (d : Nat) (t : Stamp) (ord made : Nat) (b : KMap Byte) : State :=
  if b.isEmpty then s
  else publish s { dom := d, stamp := t, ord := ord, made := made, body := .bytes b } (b.map (·.1))

/-- Publishes a pot entry. -/
def pubPot (s : State) (d : Nat) (t : Stamp) (made : Nat) (x : PotEnt) : State :=
  publish s { dom := d, stamp := t, ord := 2, made := made, body := .pot x.key x.op x.ty x.val }
    ((List.range (tyBits x.ty / 8)).map (x.key + ·))

/-! ## The floor and the least stamp -/

/-- The clock at which a warp counts: the mark of its open region, or its clock (R183). -/
def countClock (w : Warp) : Nat :=
  match w.stat with
  | .dying _ _ c => c
  | _ => match w.region with
    | some r => r.clock
    | none => w.clock

/-- Every group of the card has ended. -/
def allEnded (c : Card) : Bool := c.ended.length == c.shape.groups

/-- The identity of the warp with the highest final `EXIT`, and its clock (R316). -/
def lastExit (c : Card) : Stamp := c.ended.foldl (fun a e => if stampLt a e.2 then e.2 else a) (0, 0)

/-- The stamp of a card's end turn (R316). -/
def endStamp (c : Card) : Stamp := (c.mark - 1, (lastExit c).2)

/-- The stamp of the end turn of a card whose last warp has ended, while copies of its groups may still be writing (R34, R316). -/
def closingStamp (s : State) (ck : Nat) (c : Card) : Option Stamp :=
  let ws := s.warps.filter fun e => cardKey e.1 == ck
  if decide (c.next < c.shape.groups) || c.endTurn || (c.ended.isEmpty && ws.isEmpty) || ws.any (fun e => isLive e.2) then none
  else some (endStamp { c with
    mark := ws.foldl (fun a e => max a e.2.endClock) c.mark
    ended := c.ended ++ ws.map fun e => (e.1, (e.2.clock - 1, identOf e.1)) })

/-- Some group of the card is placed or saved. -/
def hasGroups (s : State) (ck : Nat) : Bool := s.groups.any fun e => cardKey e.1 == ck

/-- The card still counts for its mailbox: it has not ended and not every warp of it has stopped (R285). -/
def cardRuns (s : State) (ck : Nat) : Bool :=
  match kfind s.cards ck with
  | none => false
  | some c => if c.stop.isSome then hasGroups s ck else !allEnded c

/-- A dependence will never be met: it names a closed mailbox that recognised no such entry before it closed (R286). -/
def depDead (s : State) (p : Nat) (d : Nat × Nat) : Bool :=
  let m := getMbox s p d.1
  m.closed && decide (m.closedAt < d.2)

/-- The end value of a dependence that is met or dead, 0 for the latter. -/
def depEnd (s : State) (p : Nat) (d : Nat × Nat) : Option Nat :=
  if depDead s p d then some 0 else (kfind (getMbox s p d.1).done d.2).map (·.2)

/-- The mailbox clock, never below the mark of a restore (R285, R358). -/
def boxBase (s : State) (p : Nat) (m : Mbox) : Nat := max m.clock (getPart s p).save.floor

/-- The base of an entry that is its mailbox's oldest, once every dependence is met (R285). -/
def entryBase (s : State) (p : Nat) (m : Mbox) (e : Entry) : Option Nat :=
  e.deps.foldl (fun a d => match a, depEnd s p d with
    | some x, some y => some (max x y)
    | _, _ => none) (some (boxBase s p m))

/-- The base of a mailbox's oldest entry, as far as it is known. -/
def headBase (s : State) (p : Nat) (m : Mbox) : Option Nat :=
  match m.fifo with
  | [] => none
  | e :: _ => entryBase s p m e

/-- The clock at which a mailbox counts towards the floor (R288): it is open and its last card has ended, or the mark of
its fence is fixed; a recognised entry, of a closed mailbox too, counts at its base, and not at all while its base is unknown
(log 18). -/
def mboxCount (s : State) (p : Nat) (m : Mbox) : Option Nat :=
  match m.cur with
  | some c =>
    if c.mark.isSome || (match c.card with | none => false | some ck => !cardRuns s ck) then
      if m.closed then headBase s p m else some (boxBase s p m)
    else none
  | none => if m.fifo.isEmpty then (if m.closed then none else some (boxBase s p m)) else headBase s p m

/-- The stamp at which a card whose save area is exhausted is stopped (R298). -/
def exhaustStamp (m : Nat) : Stamp := (m - 1, 0xFFFFFFFFFFFFF)

/-! ### Cards that wait for a handle slot (R378) -/

/-- The key of a mailbox card (R287). -/
def cardOrder (e : Nat × Card) : List Nat := [e.2.base, chipIdx e.1, e.2.mbox, e.2.seq]

/-- The dies of a card's partition, and the die whose table its slot comes from (R304). -/
def cardDie (s : State) (ck : Nat) : Nat := serialOf ck % max 1 (partDies s (partOf ck)).length

/-- The mark above the clock of the act that, of those performed, first freed a slot of the die for which a card waits. -/
def freedMark (s : State) (e : Nat × Card) : Option Nat :=
  (s.slots.filter fun x => x.1 / 2 ^ 16 == partOf e.1 * 8 + cardDie s e.1 && x.2.st == .free && decide (x.2.gen < 2 ^ 41)).foldl
    (fun (a : Option Nat) x =>
      let m := nextMark e.2.shape.quantum x.2.freeAt.1
      some (min (a.getD m) m)) none

/-- The cards that wait for a slot and hold a card back: itself, or one of a lower key in its domain. -/
def slotHolders (s : State) (e : Nat × Card) : List (Nat × Card) :=
  if e.2.handle != 0 || e.2.created then []
  else s.cards.filter fun x => x.2.blocked && x.2.stop.isNone && inDom s (domOf s (partOf e.1)) (partOf x.1) &&
    !decide (cardOrder e < cardOrder x)

/-- The clock from which a card counts: its origin; while it is held back for want of a slot, the origin that it will take, once
an act has freed one, and till then none (log 25). -/
def countOrigin (s : State) (e : Nat × Card) : Option Nat :=
  (slotHolders s e).foldl (fun a x => match a, freedMark s x with
    | some o, some m => some (max o (ceilMark e.2.shape.quantum m))
    | _, _ => none) (some e.2.origin)

/-- The counted items of a domain (R183, R193, R288), each as a stamp, and the warp it stands for. -/
def floorItems (s : State) (d : Nat) : List (Stamp × Option Nat) :=
  ((s.warps.filter fun e => inDom s d (partOf e.1) && isLive e.2 && !isParked e.2).map
    fun e => ((countClock e.2, identOf e.1), some e.1)) ++
  (s.cards.filterMap fun e =>
    if !inDom s d (partOf e.1) || e.2.stop.isSome then none
    else if e.2.next < e.2.shape.groups then (countOrigin s e).map fun o => ((o, identOf e.1 + e.2.next * 2 ^ 8), none)
    else (closingStamp s e.1 e.2).map fun t => (t, none)) ++
  (s.cards.flatMap fun e => if inDom s d (partOf e.1) then
    (e.2.touched.map fun x => (x.1, none)) ++ if e.2.stop.isNone then
      (e.2.due.map fun x => (x.1, none)) ++ (match e.2.doomed with | some m => [(exhaustStamp m, none)] | none => []) else [] else []) ++
  (s.created.filterMap fun c =>
    if inDom s d c.target then some ((c.origin, c.ident), none) else none) ++
  ((domParts s d).flatMap fun p =>
    match (getPart s p).ctx with
    | some x => if x.turn then
        (getPart s p).mboxes.filterMap fun e => (mboxCount s p e.2).map fun c => ((c, 0), none)
      else []
    | none => [])

/-- The domain floor F (R183); `none` when nothing counts. -/
def floor (s : State) (d : Nat) : Option Nat :=
  (floorItems s d).foldl (fun a e => match a with | none => some e.1.1 | some x => some (min x e.1.1)) none

/-- F has reached a clock. -/
def floorGe (s : State) (d m : Nat) : Bool :=
  match floor s d with
  | none => true
  | some f => decide (m ≤ f)

/-- Every started copy of the domain with a lower stamp has published its writes to global memory, so that I(t) holds them
(R184, R193). -/
def copiesOut (s : State) (d : Nat) (t : Stamp) : Bool :=
  s.groups.all fun e => !inDom s d (partOf e.1) ||
    e.2.bufs.all fun b => match b.2.copy with
      | some c => c.mw.isEmpty || !stampLt c.stamp t
      | none => true

/-- The newest beacons of the other chips of the island prove to a chip that no lower stamp of the domain exists there
(R344, R345); nothing has to be proved outside an island. -/
def beaconsProve (s : State) (c d : Nat) (t : Stamp) : Bool :=
  let ch := getChip s c
  !ch.fxEn || !decide (d < 8) || (List.range (ch.isize.toNat + 1)).all fun i =>
    i == ch.index.toNat || match kfind ch.beacons i with
      | some b => (match b.bounds.find? fun x => x.1 == d with
          | some x => !stampLt x.2 t
          | none => true)
      | none => false

/-- The newest beacons prove to a chip that no other chip can still admit an entry with a lower key than one of its own with a
base (R287, R344). -/
def beaconsAdmit (s : State) (c d base : Nat) : Bool :=
  let ch := getChip s c
  !ch.fxEn || !decide (d < 8) || (List.range (ch.isize.toNat + 1)).all fun i =>
    i == ch.index.toNat || match kfind ch.beacons i with
      | some b => (match b.abounds.find? fun x => x.1 == d with
          | some x => decide (base < x.2) || (base == x.2 && decide (ch.index.toNat < i))
          | none => true)
      | none => false

/-- No item of the domain but the warp's own has a lower stamp, no copy below it is unpublished, and the beacons prove as much of
the other chips to chip `c`, where the turn performs (R193, R345). -/
def leastInDom (s : State) (c d : Nat) (own : Option Nat) (t : Stamp) : Bool :=
  ((floorItems s d).all fun e => (own.isSome && e.2 == own) || !stampLt e.1 t) && copiesOut s d t && beaconsProve s c d t

/-- No unparked live warp of the group has a lower stamp (R195). -/
def leastInGroup (s : State) (k : Nat) (t : Stamp) : Bool :=
  s.warps.all fun e =>
    e.1 == k || groupKey e.1 != groupKey k || !isLive e.2 || isParked e.2 || !stampLt (countClock e.2, identOf e.1) t

/-! ## Publishing a hand -/

/-- The bytes of a sector that are written and not published, by key. -/
def sectorFresh (x : Sector) : KMap Byte :=
  (x.data.filter fun e => !x.pub.getLsbD e.1).map fun e => (x.key + e.1, e.2)

/-- The hand's unpublished bytes in key order. -/
def handFresh (h : Hand) : KMap Byte :=
  h.secs.foldl (fun m x => (sectorFresh x).foldl (fun m e => kinsert m e.1 e.2) m) []

/-- An access that a home refused (R346): its kind, the virtual address and the instruction that the entry of R340 names, and the
physical key at the home that refused it. -/
structure Denied where
  kind : Nat
  va : Nat
  pc : Dword
  key : Nat
  deriving DecidableEq, Repr

/-- The refusals among the homes of unpublished sectors and, when `pots`, of pot entries (R346), with the address and instruction
of the last store; a sector, or a pot entry, is refused as one (log 88). -/
def handRefusals (s : State) (chip : Nat) (sec : Bool) (h : Hand) (pots : Bool) : List Denied :=
  (h.secs.filterMap fun x =>
    if (sectorFresh x).isEmpty then none
    else (homeRefuses s chip sec x.key).map fun k => { kind := k, va := x.va, pc := x.pc, key := x.key }) ++
  (if pots then h.pots.filterMap fun x =>
    (homeRefuses s chip sec x.key).map fun k => { kind := k, va := x.va, pc := x.pc, key := x.key } else [])

/-- The part of a hand whose homes accept it. -/
def handAccepted (s : State) (chip : Nat) (sec : Bool) (h : Hand) : Hand :=
  { secs := h.secs.filter fun x => (homeRefuses s chip sec x.key).isNone
    pots := h.pots.filter fun x => (homeRefuses s chip sec x.key).isNone }

/-- Marks every written byte published (R190). -/
def handPublished (h : Hand) : Hand :=
  { h with secs := h.secs.map fun x => { x with pub := x.data.foldl (fun m e => setLane m e.1 true) x.pub } }

/-- The flits that carry a warp's publication to the other chips that are its bytes' homes (R330). -/
def sendPub (s : State) (k : Nat) (t : Stamp) (ks : List Nat) : State :=
  let c := chipOf (partOf k)
  ((ks.map (· / keyBase)).eraseDups.filter fun h => h != c).foldl (fun s h =>
    sendFlits s c (getChip s h).index.toNat (ks.filter fun x => x / keyBase == h).length fun i => .publication t.1 t.2 i) s

/-- Publishes the hand's unpublished bytes at a turn's stamp (R190). -/
def pubHand (s : State) (k : Nat) (w : Warp) (t : Stamp) : State :=
  let d := domOf s (partOf k)
  let h := handAccepted s (chipOf (partOf k)) w.sec w.hand
  let s := sendPub s k t ((handFresh h).map (·.1))
  updWarp (pubBytes s d t 0 t.1 (handFresh h)) k fun w => { w with hand := handPublished w.hand }

/-- Publishes unpublished bytes and pot entries with the stamp (m − 1, identity), as an act of clock `made`, and empties the hand
(R186, R190). -/
def pubMark (s : State) (k : Nat) (w : Warp) (m made : Nat) : State :=
  let d := domOf s (partOf k)
  let t : Stamp := (m - 1, identOf k)
  let h := handAccepted s (chipOf (partOf k)) w.sec w.hand
  let s := sendPub s k t ((handFresh h).map (·.1) ++ h.pots.map (·.key))
  let s := pubBytes s d t 0 made (handFresh h)
  let s := h.pots.foldl (fun s x => pubPot s d t made x) s
  updWarp s k fun w => { w with hand := Hand.empty }

end Sys2Proof.Machine
end

