-- ==== Sys2Proof/Machine/Lines.lean ====
section
/-! DEFINITION. The L1 of a core (R171), its victim tags and locality scores (R78), and a free-mode write at its home slice
(R166). -/

namespace Sys2Proof.Machine

/-! ## The L1 (R171) -/

/-- Lines of an L1. -/
def l1Lines : Nat := 1024

/-- The byte that a line of free mode holds for a key. -/
def l1Byte (co : Core) (key : Nat) : Option Byte :=
  match co.l1.find? fun x => x.round == none && x.key == lineOf key with
  | some x => kfind x.data (key % lineSize)
  | none => none

/-- A store updates the sectors that are present and allocates none. -/
def l1Store (co : Core) (key : Nat) (bs : List Byte) : Core :=
  { co with l1 := co.l1.map fun x =>
      if x.round == none && x.key == lineOf key then
        { x with data := bs.zipIdx.foldl (fun d b =>
            if (kfind d (key % lineSize + b.2)).isSome then kinsert d (key % lineSize + b.2) b.1 else d) x.data }
      else x }

/-- A missing line that hits the victim tags raises the score of the group that last touched it (R78). -/
def l1Miss (co : Core) (key : Nat) : Core :=
  match co.victims.find? fun v => v.1 == key with
  | some v => { co with scores := sput 0 co.scores v.2 (sget 0 co.scores v.2 + 1) }
  | none => co

/-- Evicts the first line when the L1 is full, keeping its tag among the last 512 (R78). -/
def l1Evict (co : Core) : Core :=
  if co.l1.length < l1Lines then co
  else match co.l1 with
    | [] => co
    | x :: r => { co with l1 := r, victims := ((x.key, x.group) :: co.victims).take 512 }

/-- Fetches the sector of a key from `m`, unless it is present. With hint 1 the line enters as the next to be replaced
(R167). -/
def l1Fetch (co : Core) (grp : Nat) (round : Option Nat) (hint : Nat) (m : Memory) (key : Nat) : Core :=
  let base := lineOf key
  let hit (x : Line) : Bool := x.round == round && x.key == base
  let sec := key / 32 * 32
  let fill (d : KMap Byte) : KMap Byte :=
    if (kfind d (sec - base)).isSome then d
    else (List.range 32).foldl (fun d i => kinsert d (sec - base + i) (rdByte m (sec + i))) d
  match co.l1.find? hit with
  | some x => { co with l1 := co.l1.filter (fun y => !hit y) ++ [{ x with group := grp, data := fill x.data }] }
  | none =>
    let co := l1Evict (l1Miss co base)
    let x : Line := { key := base, round := round, group := grp, data := fill [] }
    { co with l1 := if hint = 1 then x :: co.l1 else co.l1 ++ [x] }

/-- The L1 holds the sector of a key for a round. -/
def l1Has (co : Core) (round : Option Nat) (key : Nat) : Bool :=
  co.l1.any fun x => x.round == round && x.key == lineOf key && (kfind x.data (key / 32 * 32 - lineOf key)).isSome

/-- An acquiring operation of scope die or wider, and `CCTL.invall`, invalidate every line of the core. -/
def l1Clear (s : State) (k : Nat) : State := updCore s k fun co => { co with l1 := [] }

/-- What a free-mode write does at its home slice, with the cache hint of its instruction, and in the L1 of its core. -/
def freeWrite (s : State) (k key : Nat) (bs : List Byte) (hint : Nat := 0) : State :=
  sliceTouches (updCore { s with mem := wrBytes s.mem key bs } k fun co => l1Store co key bs) true hint
    ((List.range bs.length).map (key + ·))

end Sys2Proof.Machine
end

