-- ==== Sys2Proof/Machine/Cards.lean ====
section
/-! DEFINITION. What ends: reinstating parked warps (R198), handle slots and their cascades (R306, R309, R315 to R319,
R325), tickets that the turn unit advances (R223), stopped warps and cards (R35, R191, R318), and the end of groups and
cards (R34, R316). -/

namespace Sys2Proof.Machine

/-! ## Interrupts and the system fault queue -/

/-- Signals an MSI-X vector of a chip (R372). -/
def signal (s : State) (chip vec : Nat) : State := { s with msi := s.msi ++ [(chip, vec % 2048)] }

def msiBase (s : State) (p : Nat) : Nat := match (getPart s p).ctx with | some x => x.msibase | none => 0
def ctxNum (s : State) (p : Nat) : Nat := match (getPart s p).ctx with | some x => x.num | none => 0

/-- How many entries the ring holds: tail minus head, both counting entries (R372). -/
def fqUsed (q : FaultQ) : Nat := (q.tail.toNat % 2 ^ 63 + 2 ^ 63 - q.head.toNat % 2 ^ 63) % 2 ^ 63

/-- Posts a 32-byte entry of R340; a full or absent ring drops it and sets bit 63 of the tail (R372). -/
def postFault (s : State) (p : Nat) (e : List Byte) : State :=
  let pt := getPart s p
  let q := pt.fq
  if !q.set || decide (q.entries ≤ fqUsed q) then
    setPart s p { pt with fq := { q with tail := q.tail ||| BitVec.ofNat 64 (2 ^ 63) } }
  else
    let at_ := q.base + 32 * (q.tail.toNat % 2 ^ 63 % q.entries)
    let s := setPart s p { pt with fq := { q with tail := q.tail + 1 } }
    signal { s with hostMem := wrBytes s.hostMem at_ e } (chipOf p) (msiBase s p + 256)

/-- The four dwords of an entry of R340. -/
def faultEntry (typ chip home kind flags ctx addr : Nat) (pc : Dword) (warp : Nat) : List Byte :=
  leBytes 8 (typ * 2 ^ 56 + chip * 2 ^ 52 + home * 2 ^ 48 + kind * 2 ^ 40 + flags * 2 ^ 32 + ctx) ++
  leBytes 8 addr ++ leBytes 8 pc.toNat ++ leBytes 8 warp

/-! ## Handles (R303, R306) -/

def hChip (h : Dword) : Nat := (h.extractLsb' 60 4).toNat
def hDie (h : Dword) : Nat := (h.extractLsb' 57 3).toNat
def hSlot (h : Dword) : Nat := (h.extractLsb' 41 16).toNat
def hGen (h : Dword) : Nat := (h.extractLsb' 0 41).toNat
def mkHandle (chip die slot gen : Nat) : Dword := BitVec.ofNat 64 (chip * 2 ^ 60 + die * 2 ^ 57 + slot * 2 ^ 41 + gen)

/-- A slot at context creation (R304). -/
def Slot.fresh : Slot :=
  { gen := 1, st := .free, count := 0, value := [], place := none, cause := 0, queue := [], card := none, ended := false
    endAt := (0, 0), freeAt := (0, 0) }
def getSlot (s : State) (key : Nat) : Slot := sget Slot.fresh s.slots key
def putSlot (s : State) (key : Nat) (x : Slot) : State := { s with slots := sput Slot.fresh s.slots key x }

/-- The index of a chip within its domain (R25). -/
def myIndex (s : State) (chip : Nat) : Nat := if (getChip s chip).fxEn then (getChip s chip).index.toNat else 0
/-- The chip of a domain index, seen from a chip. -/
def domChip (s : State) (chip i : Nat) : Option Nat :=
  if (getChip s chip).fxEn then chipOfIndex s i else if i = 0 then some chip else none

def slotKey (part die slot : Nat) : Nat := (part * 8 + die) * 2 ^ 16 + slot

/-- The slot of a valid handle (R303). -/
def findSlot (s : State) (p : Nat) (h : Dword) : Option (Nat × Slot) :=
  match domChip s (chipOf p) (hChip h) with
  | none => none
  | some c =>
    let key := slotKey (c * 8 + p % 8) (hDie h) (hSlot h)
    let x := getSlot s key
    if x.gen = hGen h ∧ x.st ≠ .free then some (key, x) else none

/-- The result group of nine registers (R308). -/
def resultGroup (x : Slot) : List Dword :=
  match x.st with
  | .resolved => match x.place with
    | some (c, a) => [2, a, BitVec.ofNat 64 c, 0, 0, 0, 0, 0, 0]
    | none => BitVec.ofNat 64 (x.value.length * 2 ^ 8 + 1) ::
        (List.range 8).map fun i => BitVec.ofNat 64 (leNat ((x.value.drop (8 * i)).take 8))
  | .broken => [3, x.cause, 0, 0, 0, 0, 0, 0, 0]
  | .reclaimed => [4, 0, 0, 0, 0, 0, 0, 0, 0]
  | _ => [0, 0, 0, 0, 0, 0, 0, 0, 0]

/-- Writes registers from `d` upwards. -/
def wrGroup (w : Warp) (d : Nat) : List Dword → Warp
  | [] => w
  | x :: r => wrGroup (wrS w d x) (d + 1) r

/-! ## Reinstatement (R198) -/

/-- The effect that the parking instruction has at reinstatement. -/
def wakeEffect (s : State) (p : Nat) (w : Warp) : ParkWhat → Warp
  | .bar _ _ _ _ => w
  | .fwait h d _ => wrGroup w d (match findSlot s p h with | some (_, x) => resultGroup x | none => resultGroup Slot.fresh)
  | .claim n => { w with allot := w.allot + n }

def parkG : ParkWhat → Bool
  | .bar _ _ _ g => g
  | .fwait _ _ g => g
  | .claim _ => false

/-- Records the stamp of a group turn or of the turn that reinstates the warp; what lies below the round of both the warp's clock and
that stamp is forgotten. -/
def addTurn (w : Warp) (t : Stamp) : Warp :=
  { w with turns := (w.turns.filter fun x => decide (min w.clock t.1 / w.quantum ≤ x.1 / w.quantum)) ++ [t] }

/-- Reinstates a parked warp within the releasing turn, whose stamp is `r`. -/
def wake (s : State) (k : Nat) (r : Stamp) : State :=
  match getWarp s k with
  | none => s
  | some w => match w.stat with
    | .parked what len _ =>
      let c := max w.clock r.1
      let c' := if !w.turn then w.clock + 1 else if parkG what then nextMark w.quantum c else c + 1
      let w' := wakeEffect s (partOf k) w what
      let w' := setPc w' (curPc w + BitVec.ofNat 64 len)
      let gate := w.turn && decide (w.clock / w.quantum < c' / w.quantum)
      setWarp s k { addTurn w' r with
        clock := c', runLen := 0
        stat := if gate then .gate (nextMark w.quantum w.clock) (c' / w.quantum * w.quantum) else .ready }
    | _ => s

/-- Drops the L1 lines of a free-mode warp's core: an acquire (R171, R326). -/
def dropLines (s : State) (k : Nat) (w : Warp) : State :=
  if w.turn then s
  else match getGroup s k with
    | none => s
    | some g => match g.core with
      | none => s
      | some n => setChip s g.chip (setCore (getChip s g.chip) n { getCore (getChip s g.chip) n with l1 := [] })

/-- Wakes every warp parked in `FWAIT` on a handle. -/
def wakeFwait (s : State) (p : Nat) (h : Dword) (r : Stamp) : State :=
  (s.warps.filter fun e => inDom s (domOf s p) (partOf e.1) && match e.2.stat with
    | .parked (.fwait h' _ _) _ _ => h' == h
    | _ => false).foldl (fun s e => wake (dropLines s e.1 e.2) e.1 r) s

/-! ## Tickets (R221 to R223) -/

def tktIndex (w : Nat) : Nat := w % 2 ^ 32
/-- A ticket word. -/
def tktWord (index status : Nat) : Nat := status * 2 ^ 32 + index % 2 ^ 32

/-- Writes a word as the effect of an act: a publication in turn mode, at order `ord` of its stamp (R184); in free mode a write at
its home slice, which an act of warp `k` also makes in its core's L1 (R171). -/
def actWrite (s : State) (p : Nat) (turn : Bool) (t : Stamp) (ord : Nat) (k : Option Nat) (key : Nat) (b : List Byte) : State :=
  if turn then pubBytes s (domOf s p) t ord t.1 (b.zipIdx.map fun (x, i) => (key + i, x))
  else match k with
    | some k => freeWrite s k key b
    | none => sliceTouches { s with mem := wrBytes s.mem key b } true 0 [key]

/-- Memory as an act at a stamp sees it: I(t) with what is published at t up to order `ord`, for a turn its hand bytes and its own
effect (R193). -/
def actMem (s : State) (p : Nat) (turn : Bool) (t : Stamp) (ord : Nat) : Memory :=
  if turn then imageAt s (domOf s p) t ord else s.mem

/-- The card's groups whose end has reached the ticket words; one whose copies are still writing has ended for them (R34). -/
def endedGroups (c : Card) : List Nat :=
  (c.quit ++ c.ended.map fun e => groupNo e.1).filter fun g => c.due.all fun x => x.2 != g

/-- The status with which the turn unit advances a registered word whose `INDEX` is `i` (R223): void over a group of the card
that has ended without having held the ticket, broken over one that its card's stop has stopped or kept from starting (log 87);
a group whose physical end lies above its card's stop stamp, still in `due`, has been stopped (R35, R318). -/
def tktNext (c : Card) (tk : Ticket) (i : Nat) : Option Nat :=
  let g := (i + 2 ^ 32 - tk.base % 2 ^ 32) % 2 ^ 32
  if tk.had.contains g then none
  else if (endedGroups c).contains g then some 1
  else if c.stop.isSome && decide (g < c.shape.groups) then some 2
  else none

/-- The status of the advance that the word at `key` with `INDEX` `i` admits in the domain of a partition: that of the first
registration that admits one, cards in order of key (log 94). -/
def tktStatus (s : State) (p key i : Nat) : Option Nat :=
  s.cards.findSome? fun e => if inDom s (domOf s p) (partOf e.1) then
      e.2.tickets.findSome? fun tk => if tk.key = key then tktNext e.2 tk i else none
    else none

/-- The advances of R223 that the word at `key` now admits, one after another within a stamp, at order `ord` of it; at most `n`. -/
def tktAdvance (s : State) (p : Nat) (turn : Bool) (t : Stamp) (ord : Nat) (k : Option Nat) (key : Nat) : Nat → State
  | 0 => s
  | n + 1 =>
    let i := tktIndex (rdNat (actMem s p turn t ord) key 8)
    match tktStatus s p key i with
    | some st => tktAdvance (actWrite s p turn t ord k key (leBytes 8 (tktWord (i + 1) st))) p turn t ord k key n
    | none => s

/-- How often a word can advance at most: once for each group of a card that registered it. -/
def tktFuel (s : State) : Nat := s.cards.foldl (fun a e => a + e.2.tickets.length * e.2.shape.groups) 0

/-- Every advance of a word. -/
def tktSettle (s : State) (p : Nat) (turn : Bool) (t : Stamp) (ord : Nat) (k : Option Nat) (key : Nat) : State :=
  tktAdvance s p turn t ord k key (tktFuel s)

/-- The word of a held ticket becomes (`INDEX` + 1, broken). -/
def tktBreak (s : State) (p : Nat) (turn : Bool) (t : Stamp) (tk : Ticket) : State :=
  let i := tktIndex (rdNat (actMem s p turn t 4) tk.key 8)
  actWrite s p turn t 4 none tk.key (leBytes 8 (tktWord (i + 1) 2))

def freeHolder (tk : Ticket) (g : Nat) : Ticket := if tk.holder = some g then { tk with holder := none } else tk

/-- Breaks the words of the tickets that a test selects, each word once, and lets every registered word of the card advance. -/
def tktRelease (s : State) (ck : Nat) (turn : Bool) (t : Stamp) (hit : Ticket → Bool) : State :=
  match kfind s.cards ck with
  | none => s
  | some c =>
    let s := updCard s ck fun c => { c with tickets := c.tickets.map fun tk => if hit tk then { tk with holder := none } else tk }
    c.tickets.zipIdx.foldl (fun s e =>
      let first := hit e.1 && !(c.tickets.take e.2).any fun y => hit y && y.key == e.1.key
      tktSettle (if first then tktBreak s (partOf ck) turn t e.1 else s) (partOf ck) turn t 4 none e.1.key) s

/-- The ticket words when a group ends, at the stamp of the act that ends it (R223). -/
def tktGroupEnd (s : State) (ck g : Nat) (turn : Bool) (t : Stamp) : State :=
  tktRelease (updCard s ck fun c => { c with due := c.due.filter fun x => x.2 != g }) ck turn t fun tk => tk.holder == some g

/-- The ticket words when a card has been stopped at a stamp (R223). -/
def tktCardStop (s : State) (ck : Nat) (turn : Bool) (t : Stamp) : State :=
  tktRelease (updCard s ck fun c => { c with due := c.due.filter fun x => !stampLt x.1 t }) ck turn t fun tk => tk.holder.isSome

/-- A publication that reached a registered word takes effect in stamp order: the word makes the advances that it then admits. -/
def tktTouched (s : State) (ck : Nat) (t : Stamp) (key : Nat) : State :=
  tktSettle (updCard s ck fun c => { c with touched := c.touched.filter fun x => x != (t, key) }) (partOf ck) true t 4 none key

/-- In free mode the first registered word of a partition's cards that admits an advance, as after a program's own write to it,
makes it (R223). -/
def tktIdle (s : State) (p : Nat) : State :=
  let free := match (getPart s p).ctx with | some x => !x.turn | none => false
  match (if free then s.cards.findSome? fun e => if partOf e.1 = p then
      e.2.tickets.findSome? fun tk => if (tktStatus s p tk.key (tktIndex (rdNat s.mem tk.key 8))).isSome then some tk.key else none
    else none else none) with
  | some key => tktSettle s p false (0, 0) 4 none key
  | none => s

/-! ## Stopping warps -/

/-- The later of a stamp and one that may be absent. -/
def laterStamp (a : Option Stamp) (t : Stamp) : Stamp :=
  match a with
  | some x => if stampLt x t then t else x
  | none => t

/-- A warp's run is over: its slot is free (R72). -/
def freeSlot (s : State) (k : Nat) : State :=
  { s with runs := s.runs.filter fun j => j != k, cur := if s.cur = some k then none else s.cur }

/-- Stops a warp at a stop stamp (R306): nothing unpublished is published (R318); `m` is its part of the end mark (R191). -/
def stopWarp (s : State) (k m : Nat) (t : Stamp) : State :=
  let s := updCard s k fun c => { c with stopAt := some (laterStamp c.stopAt t) }
  let s := updWarp s k fun w =>
    { w with stat := .stopped, endClock := m, hand := Hand.empty, pend := [], unconf := [], posted := [], held := none
             hposted := [], hheld := none, late := [], region := none, rep := none, slot := none, halted := false }
  freeSlot s k

/-- No warp of the group is live. -/
def groupDead (s : State) (gk : Nat) : Bool := s.warps.all fun e => groupKey e.1 != gk || !isLive e.2

/-- Releases a group's resources and forgets its warps; the card keeps their part of the end mark, and the turns of each, its last
`EXIT` among them (R34, R191, R318). -/
def dropGroup (s : State) (gk : Nat) : State :=
  let ws := s.warps.filter fun e => groupKey e.1 == gk
  let m := ws.foldl (fun a e => max a e.2.endClock) 0
  let gone := ws.map fun e => (identOf e.1, if e.2.stat = .ended then e.2.turns ++ [(e.2.clock - 1, identOf e.1)] else e.2.turns, e.2.endClock)
  let s := updCard s gk fun c => { c with mark := max c.mark m, gone := c.gone ++ gone }
  let s := match kfind s.groups gk with
    | none => s
    | some g => match g.core with
      | none => s
      | some n =>
        let ch := getChip s g.chip
        let co := getCore ch n
        setChip s g.chip (setCore ch n { co with
          accHolder := if co.accHolder = some gk then none else co.accHolder, scores := kerase co.scores gk })
  { s with groups := kerase s.groups gk, warps := s.warps.filter fun e => groupKey e.1 != gk }

/-- A mailbox clock takes a value by an act of clock `t`; what it was is kept while a save point may lie between (R357). -/
def setClock (s : State) (p b t x : Nat) : State :=
  let m := getMbox s p b
  let ends := if (getPart s p).save.reqs.isEmpty then [] else m.ends
  setMbox s p b { m with clock := x, ends := ends ++ [(t, m.clock)] }

/-- The mailbox clock takes the end mark of the mailbox's card, which an act of clock `t` has ended (R285). -/
def boxClock (s : State) (ck t : Nat) : State :=
  match kfind s.cards ck with
  | none => s
  | some c => if c.created then s else setClock s (partOf ck) c.mbox t c.mark

/-! ## What a save point holds of the dealer (R357, R359) -/

/-- What stood before the first change at or above a clock, of a list of changes by their clocks, else what stands now. -/
def before {α : Type} (l : List (Nat × α)) (clk : Nat) (now : α) : α :=
  ((l.find? fun e => decide (clk ≤ e.1)).map (·.2)).getD now

/-- The running hash with every fold below a clock, and no other, applied (R362). -/
def hashAt (m : Mbox) (clk : Nat) : List Byte := before m.folds clk m.hash

/-- The place of the last entry of a mailbox that has been admitted or refused: those that wait behind it are posted again after a
restore, and get their places again (R359). -/
def lastAdmitted (m : Mbox) : Nat := match m.fifo with | e :: _ => e.n - 1 | [] => m.count

/-- The dealer's state of a partition and the generations of its slots. -/
def dealtNow (s : State) (p : Nat) : Dealt :=
  let pt := getPart s p
  { admPos := pt.admPos, nMail := pt.nMail, nCreated := pt.nCreated, seeds := pt.seeds
    boxes := (List.range 256).map fun b =>
      let m := getMbox s p b
      (lastAdmitted m, m.closed, m.clock, m.hash)
    gens := (s.slots.filter fun e => e.1 / 2 ^ 19 == p).map fun e => (e.1, e.2.gen) }

/-- The same as of a mark: with every act below it, and no other. -/
def dealtAt (s : State) (p mark : Nat) : Dealt :=
  let q := before (getPart s p).hist mark (dealtNow s p)
  { q with boxes := q.boxes.zipIdx.map fun b =>
      let m := getMbox s p b.2
      (b.1.1, b.1.2.1, before m.ends mark m.clock, hashAt m mark) }

/-- An act of clock `clk` is about to change what a save point of a partition holds of the dealer: while one is requested in turn
mode, what stands is kept. -/
def noteDealt (s : State) (p clk : Nat) : State :=
  let pt := getPart s p
  if (pt.ctx.any fun x => x.turn) && !pt.save.reqs.isEmpty then setPart s p { pt with hist := pt.hist ++ [(clk, dealtNow s p)] } else s

/-! ## Admission records (R293, R359, R378) -/

/-- The world of a partition's context. -/
def ctxSec (s : State) (p : Nat) : Bool := match (getPart s p).ctx with | some x => x.sec | none => false

/-- A partition may reach `n` bytes from a physical address (R369). -/
def inReach (s : State) (p pa n : Nat) : Bool := (List.range n).all fun i => mayReach s p (pa + i)

/-- A secure byte among `n` that the world of a partition's context may not touch (R377). -/
def closedByte (s : State) (p pa n : Nat) : Option Nat :=
  if ctxSec s p then none else ((List.range n).map (pa + ·)).find? (isSecure s (chipOf p))

/-- The dealer writes bytes of device memory with the tag of its context: nothing that the partition may not reach (R369), and
nothing to a secure byte of another world, which is reported (R377). In turn mode the write is a publication stamped (`clk`, 0), so
that it precedes every turn at that clock and an image above it shows it (log 109). -/
def dealerWrite (s : State) (p clk pa : Nat) (bs : List Byte) : State :=
  if !inReach s p pa bs.length then s
  else match closedByte s p pa bs.length with
    | some a => reportAt s (chipOf p) a
    | none => actWrite s p ((getPart s p).ctx.any fun x => x.turn) (clk, 0) 0 none (physKey (chipOf p) pa) bs

/-- Entries of a context's admission record. -/
def recordSize (x : Ctx) : Nat := max (x.admlen * 2 ^ 16 / 32) 1

/-- A card's admission record takes a new origin (R293, R378). -/
def recordOrigin (s : State) (p at_ origin : Nat) : State :=
  match (getPart s p).ctx with
  | none => s
  | some x => dealerWrite s p origin (x.admrec + 32 * (at_ % recordSize x)) (leBytes 8 origin)

/-- The bytes from offset `o` of an admission-record entry are compared with those of the record under replay; the first
difference is reported by its position (R359), which does not wrap with the ring (log 52). -/
def replayCheck (s : State) (p at_ o : Nat) (b : List Byte) : State :=
  let pt := getPart s p
  match pt.save.record[at_]? with
  | none => s
  | some r =>
    if (r.drop o).take b.length = b ∨ pt.save.differs.isSome then s
    else
      let x := BitVec.ofNat 32 at_
      setPart s p { pt with
        save := { pt.save with differs := some at_ }
        cmd := if pt.cmd.busy && pt.cmd.op == 8 then { pt.cmd with outcome := (false, x) } else { pt.cmd with result := x } }

/-- The number of dies of a partition. -/
def dieCount (s : State) (p : Nat) : Nat := (partDies s p).length

/-- A slot becomes free at a stamp when its task has ended and nothing holds it (R304, R306): at that of the act that did the last of
the two. -/
def tryFree (s : State) (key : Nat) (t : Stamp) : State :=
  let x := getSlot s key
  if x.ended && x.count == 0 && x.st != .free then
    putSlot (noteDealt s (key / 2 ^ 19) t.1) key { Slot.fresh with gen := x.gen + 1, freeAt := if stampLt t x.endAt then x.endAt else t }
  else s

/-- The task of a handle has ended (R306). -/
def taskEnded (s : State) (p : Nat) (h : Dword) (t : Stamp) : State :=
  match findSlot s p h with
  | none => s
  | some (key, x) => tryFree (putSlot s key { x with ended := true, endAt := t }) key t

/-- When no group of a stopped card remains, its end mark is known and its task has ended (R191, R285, R306). -/
def afterStop (s : State) (ck : Nat) : State :=
  match kfind s.cards ck with
  | none => s
  | some c => match c.stop with
    | none => s
    | some x =>
      if hasGroups s ck || c.endTurn then s
      else
        let m := max c.mark (nextMark c.shape.quantum x.stamp.1)
        let s := updCard s ck fun c => { c with mark := m, endTurn := true }
        let t := match c.stopAt with
          | some u => u
          | none => if allEnded c then endStamp { c with mark := m } else x.stamp
        taskEnded (boxClock s ck t.1) (partOf ck) c.handle t

/-- Drops the groups of a stopped card whose warps have all stopped or ended. -/
def sweepCard (s : State) (ck : Nat) : State :=
  let dead := (s.groups.filter fun e => cardKey e.1 == ck && groupDead s e.1).map (·.1)
  afterStop (dead.foldl dropGroup s) ck

/-- Where a warp of a card stopped at a stamp would have stopped, when that point lies behind it, and the clock from which on nothing
that it published stands (R318): before the first of its turns above the stamp; at once, when it was parked at the stamp and a turn
above it reinstated it. -/
def turnPast (ident : Nat) (turns : List Stamp) (t : Stamp) : Option (Stamp × Nat) :=
  (turns.find? fun u => stampLt t u).map fun u => if u.2 = ident then (u, u.1) else (t, u.1 + 1)

/-- Withdraws what a warp published by an act of clock `c` or above, and the writes of the copies that it completed at stamp `u` or
above, where it stops (R35, R318). What it published before stands. -/
def withdraw (s : State) (d ident c : Nat) (u : Stamp) : State :=
  { s with pubs := s.pubs.filter fun x => !(x.dom == d && x.stamp.2 == ident &&
      (((x.ord == 0 || x.ord == 2) && decide (c ≤ x.made)) || (x.ord == 3 && !stampLt x.stamp u))) }

/-- What a warp of a card stopped at `t` has done beyond its stopping point is undone; it stops now when that point lies
behind it, when it is parked, or when its group is saved (R318, R301). -/
def stopBack (s : State) (t : Stamp) (e : Nat × Warp) : State :=
  let d := domOf s (partOf e.1)
  let i := identOf e.1
  let m := nextMark e.2.quantum t.1
  let saved := match getGroup s e.1 with | some g => g.saved | none => false
  match e.2.stat, turnPast i e.2.turns t with
  | .stopped, _ => s
  | .ended, none => s
  | .ended, some (u, c) => updCard (withdraw s d i c u) e.1 fun c => { c with stopAt := some (laterStamp c.stopAt u) }
  | .parked .., some (u, c) => stopWarp (withdraw s d i c u) e.1 m u
  | .parked .., none => stopWarp s e.1 m t
  | .gate _ _, some (u, c) => stopWarp (withdraw s d i c u) e.1 m u
  | .gate a _, none => if t.1 < a then stopWarp (withdraw s d i a (a - 1, i)) e.1 m (a - 1, i) else if saved then stopWarp s e.1 m t else s
  | _, some (u, c) => stopWarp (withdraw s d i c u) e.1 m u
  | _, none => if saved then stopWarp s e.1 m t else s

/-- An ended warp of a group that has ended. -/
def stopGone (s : State) (ck : Nat) (t : Stamp) (x : Nat × List Stamp × Nat) : State :=
  match turnPast x.1 x.2.1 t with
  | some (u, c) => updCard (withdraw s (domOf s (partOf ck)) x.1 c u) ck fun c => { c with stopAt := some (laterStamp c.stopAt u) }
  | none => s

/-- The copies of a stopped card's groups that are not published, their collections and the iterations of its loops are
discarded (R241, R318). -/
def dropCopies (s : State) (ck : Nat) : State :=
  { s with groups := s.groups.map fun e =>
      if cardKey e.1 = ck then (e.1, { e.2 with bufs := e.2.bufs.map fun b =>
        (b.1, { b.2 with copy := none, coll := none, loop := none }) })
      else e }

/-- The warps and copies of a card stopped at `t`. Where every warp that has not ended was parked, nothing lies beyond the stamp
(R39). -/
def stopBehind (s : State) (ck : Nat) (t : Stamp) (parked : Bool) : State :=
  let s := dropCopies s ck
  if parked then s else
  let gone : List (Nat × List Stamp × Nat) := match kfind s.cards ck with
    | some c => c.gone
    | none => []
  let s : State := gone.foldl (fun s x => stopGone s ck t x) s
  (s.warps.filter fun e => cardKey e.1 == ck).foldl (fun s e => stopBack s t e) s

/-! ## Cascades (R317, R319, R325) -/

/-- A holding to drop, or a handle to break; `dead` when the task never starts. -/
inductive Job where
  | drop (h : Dword)
  | brk (h cause : Dword) (dead : Bool)
  deriving DecidableEq, Repr

/-- The cause word of a handle broken by another (R307). -/
def causeByHandle (h : Dword) : Dword :=
  BitVec.ofNat 64 (2 * 2 ^ 60 + hChip h * 2 ^ 56 + hDie h * 2 ^ 53 + hSlot h * 2 ^ 37 + hGen h % 2 ^ 37)
def causeFault (cause kind : Nat) : Dword := BitVec.ofNat 64 (2 ^ 60 + kind * 2 ^ 8 + cause)
def causeRefused (code : Nat) : Dword := BitVec.ofNat 64 (3 * 2 ^ 60 + code)
def causeArea : Dword := BitVec.ofNat 64 (4 * 2 ^ 60)

/-- The handles of a held list in ascending order, each as often as it is held. -/
def heldList (c : Card) : List Dword := c.held.flatMap fun e => List.replicate e.2 (BitVec.ofNat 64 e.1)

/-- Removes a card that is on its way or queued, and gives its held list. -/
def removeCreated (s : State) (h : Dword) : State × List Dword :=
  let hit (c : Created) : Bool := c.handle == h
  let held := ((s.created ++ s.slots.flatMap fun e => e.2.queue).filter hit).flatMap fun c => c.held
  ({ s with created := s.created.filter fun c => !hit c
            slots := s.slots.map fun e => (e.1, { e.2 with queue := e.2.queue.filter fun c => !hit c }) }, held)

/-- The task of a slot has ended below a stamp: every group has, or every warp has stopped (R306). -/
def taskOver (s : State) (x : Slot) (t : Stamp) : Bool :=
  x.ended || match x.card with
    | some ck => match kfind s.cards ck with
      | some c => c.stop.isNone && allEnded c && stampLt (lastExit c) t
      | none => false
    | none => false

/-- Reclaims a task (R317, R318): its slot, its card's held list, its groups not yet started. -/
def reclaim (s : State) (key : Nat) (x : Slot) (h : Dword) (t : Stamp) : State × List Dword :=
  let s := putSlot s key { x with st := .reclaimed, count := 0 }
  match x.card with
  | some ck => match kfind s.cards ck with
    | some c =>
      if c.stop.isSome then (s, []) else
      let turn := match (getPart s (partOf ck)).ctx with | some y => y.turn | none => false
      let s := if taskOver s x t then taskEnded s (partOf ck) h t else s
      let s := updCard s ck fun c =>
        { c with stop := some { stamp := t, cause := 0, kind := 0, status := 5 }, next := c.shape.groups, held := [] }
      let s := tktCardStop s ck turn t
      (sweepCard (stopBehind s ck t false) ck, heldList c)
    | none => (s, [])
  | none =>
    let (s, held) := removeCreated s h
    (tryFree (putSlot s key { getSlot s key with ended := true }) key t, held)

def jobHandle : Job → Dword
  | .drop h => h
  | .brk h _ _ => h

/-- Enters a holding to drop in ascending order of handle value, after the breaks at hand and the drops of the same handle (R319). -/
def insertJob : List Job → Job → List Job
  | [], j => [j]
  | .brk h c d :: l, j => .brk h c d :: insertJob l j
  | .drop h :: l, j => if (jobHandle j).toNat < h.toNat then j :: .drop h :: l else .drop h :: insertJob l j
def insertJobs (l js : List Job) : List Job := js.foldl insertJob l

/-- Runs a cascade at one stamp: the breaks, those of a forward queue in its order and depth first (R325), and then the drops in
ascending order of handle value (R319); `fuel` bounds its length. -/
def runJobs : Nat → Nat → Stamp → List Job → State → State
  | 0, _, _, _, s => s
  | _, _, _, [], s => s
  | n + 1, p, t, .drop h :: js, s =>
    match findSlot s p h with
    | none => runJobs n p t js s
    | some (key, x) =>
      let s := putSlot s key { x with count := x.count - 1 }
      if x.count - 1 ≠ 0 then runJobs n p t js s
      else match x.st with
        | .pending | .running =>
          let s := wakeFwait (putSlot s key { x with st := .reclaimed, count := 0 }) p h t
          let (s, hs) := reclaim s key x h t
          runJobs n p t (insertJobs js (hs.map .drop)) s
        | _ => runJobs n p t js (tryFree (putSlot s key { getSlot s key with ended := taskOver s x t }) key t)
  | n + 1, p, t, .brk h cause dead :: js, s =>
    match findSlot s p h with
    | none => runJobs n p t js s
    | some (key, x) =>
      match x.st with
      | .pending | .running =>
        let s := putSlot s key { x with st := .broken, cause := cause, queue := [], ended := x.ended || dead }
        let s := tryFree (wakeFwait s p h t) key t
        runJobs n p t (x.queue.map (fun c => .brk c.handle (causeByHandle h) true) ++
          insertJobs js (x.queue.flatMap fun c => c.held.map .drop)) s
      | _ => runJobs n p t js s

/-- A bound on the length of a cascade: every holding is dropped once and every slot broken once. -/
def jobFuel (s : State) (js : List Job) : Nat :=
  1 + js.length + s.slots.foldl (fun a e => a + e.2.count + 2 + e.2.queue.foldl (fun b c => b + 1 + c.held.length) 0) 0 +
    s.created.foldl (fun a c => a + c.held.length) 0 + s.cards.foldl (fun a e => a + (heldList e.2).length) 0

/-- A job that breaks a handle. -/
def isBrk : Job → Bool
  | .brk .. => true
  | .drop _ => false

def cascade (s : State) (p : Nat) (t : Stamp) (js : List Job) : State :=
  runJobs (jobFuel s js) p t (js.filter isBrk ++ insertJobs [] (js.filter fun j => !isBrk j)) s

/-! ## Folds and ends of cards -/

/-- The partition and mailbox into whose running hash a card folds: for a card created on another chip, its creator's (R362). -/
def hashBox (ck : Nat) (c : Card) : Nat × Nat := c.maker.getD (partOf ck, c.mbox)

/-- Folds a card's digest into a mailbox's running hash at a stamp's clock (R362). -/
def foldHash (s : State) (box : Nat × Nat) (digest : Dword) (clk : Nat) : State :=
  let (p, mbox) := box
  match (getPart s p).ctx with
  | none => s
  | some x =>
    if x.repro / 2 % 2 = 1 then
      let m := getMbox s p mbox
      setMbox s p mbox { m with hash := sha256 (m.hash ++ leBytes 8 digest.toNat), folds := m.folds ++ [(clk, m.hash)] }
    else s

/-- A card that has neither been stopped nor ended is marked as stopped; none of its further groups starts. -/
def setStop (s : State) (ck : Nat) (x : Stop) : State :=
  updCard s ck fun c => if c.stop.isSome || c.endTurn then c else { c with stop := some x, next := c.shape.groups }

/-- What follows for a card marked as stopped: its handle breaks, its digest folds, its tickets advance, its holdings are dropped
(log 8), and its parked and saved warps stop at once. -/
def finishStop (s : State) (ck : Nat) : State :=
  match kfind s.cards ck with
  | none => s
  | some c => match c.stop with
    | none => s
    | some x =>
      let p := partOf ck
      let turn := match (getPart s p).ctx with | some y => y.turn | none => false
      let word := if x.status = 3 then causeArea else causeFault x.cause x.kind
      let s := updCard s ck fun c => { c with held := [] }
      let s := tktCardStop s ck turn x.stamp
      let s := cascade s p x.stamp (.brk c.handle word false :: (heldList c).map .drop)
      let s := foldHash s (hashBox ck c) c.digest x.stamp.1
      sweepCard (stopBehind s ck x.stamp (x.cause == 0x10)) ck

/-- A card is still to be stopped. -/
def mayStop (s : State) (ck : Nat) : Bool := match kfind s.cards ck with | some c => c.stop.isNone && !c.endTurn | none => false

/-- Stops a card at a stamp (R35, R39, R298). -/
def stopCard (s : State) (ck : Nat) (t : Stamp) (cause kind status : Nat) : State :=
  if mayStop s ck then finishStop (setStop s ck { stamp := t, cause := cause, kind := kind, status := status }) ck else s

/-- The partition whose dealer admits a card sent to the chip of an index; `none` outside the domain (R313). -/
def targetPart (s : State) (p idx : Nat) : Option Nat :=
  if myIndex s (chipOf p) = idx then some p
  else if (getChip s (chipOf p)).isize.toNat < idx then none
  else match domChip s (chipOf p) idx with
    | some c => if (getPart s (c * 8 + p % 8)).ctx.isSome then some (c * 8 + p % 8) else none
    | none => none

/-- Sends a created card to the chip of an index (R323), or breaks its handle with code 8 (R313). -/
def sendCreated (s : State) (p : Nat) (t : Stamp) (idx : Nat) (c : Created) : State :=
  match targetPart s p idx with
  | some q =>
    let i := idx * 2 ^ 48 + c.ident % 2 ^ 48
    sendFlits { s with created := s.created ++ [{ c with target := q, ident := i }] } (chipOf p) idx 0 fun n => .invocation c.origin i n
  | none => cascade s p t (.brk c.handle (causeRefused 8) true :: c.held.map .drop)

/-- The chip index to which an invocation of a resolved handle goes (R323). -/
def placeChip (h : Dword) (place : Option (Nat × Dword)) : Nat := match place with | some (c, _) => c | none => hChip h

/-- A slot resolves at a stamp: its waiters wake and its forward queue is released (R312, R314, R321, R324). -/
def resolveSlot (s : State) (p key : Nat) (x : Slot) (h : Dword) (t : Stamp) (v : List Byte) (place : Option (Nat × Dword)) :
    State :=
  let s := wakeFwait (putSlot s key { x with st := .resolved, value := v, place := place, queue := [] }) p h t
  x.queue.foldl (fun s c => sendCreated s p t (placeChip h place) { c with origin := max c.origin (t.1 + 1) }) s

/-- A card's end turn (R316): an unresolved handle resolves with length 0, the held list is dropped, the digest folds. -/
def cardEndTurn (s : State) (ck : Nat) : State :=
  match kfind s.cards ck with
  | none => s
  | some c =>
    let p := partOf ck
    let t := endStamp c
    let s := updCard s ck fun c => { c with endTurn := true, held := [] }
    let s := match findSlot s p c.handle with
      | some (key, x) => match x.st with
        | .pending | .running => resolveSlot s p key x c.handle t [] none
        | _ => s
      | none => s
    let s := foldHash s (hashBox ck c) c.digest t.1
    taskEnded (cascade s p t ((heldList c).map .drop)) p c.handle t

/-- Some copy of the group has not finished writing (R34). -/
def copiesBusy (g : Group) : Bool := g.bufs.any fun e => e.2.copy.isSome

/-- Ends a group whose warps have all ended and whose copies have finished (R34), with what follows for the card's
tickets, end mark and mailbox clock; in free mode the card's end turn follows at once (R316). -/
def endGroup (s : State) (gk : Nat) : State :=
  match kfind s.groups gk, kfind s.cards (cardKey gk) with
  | some g, some c =>
    let ck := cardKey gk
    if !groupDead s gk then s
    else if c.stop.isSome then (if copiesBusy g then s else sweepCard s ck)
    else
      let ws := s.warps.filter fun e => groupKey e.1 == gk
      let t := ws.foldl (fun a e => let x : Stamp := (e.2.clock - 1, identOf e.1); if stampLt a x then x else a) (0, 0)
      let turn := ws.any fun e => e.2.turn
      let s := if c.quit.contains (groupNo gk) then s
        else updCard s ck fun c => { c with quit := c.quit ++ [groupNo gk], due := c.due ++ [(t, groupNo gk)] }
      if copiesBusy g then s else
      let s := dropGroup s gk
      let s := updCard s ck fun c => { c with ended := kinsert c.ended gk t, quit := c.quit.filter fun n => n != groupNo gk }
      let s := if turn then s else tktGroupEnd s ck (groupNo gk) false t
      match kfind s.cards ck with
      | none => s
      | some c =>
        if allEnded c then
          let s := boxClock s ck (lastExit c).1
          if turn then s else cardEndTurn s ck
        else s
  | _, _ => s

end Sys2Proof.Machine
end

