-- ==== Sys2Proof/Machine/Translate.lean ====
section
/-! DEFINITION. Address spaces (R148, R149), page walks and translation (R150 to R158, R335, R369), the accessed and
dirty bits (R155), forwarding homes (R341) and the invalidation of translations (R170). -/

namespace Sys2Proof.Machine

/-! ## Spaces -/

/-- The space of an address that may lie outside 64 bits (R148). -/
inductive Space where
  | none | global | window
  deriving DecidableEq, Repr

def windowBase : Int := 0xFF00000000000000
def windowTop : Int := 0xFF0000003FFFFFFF

def spaceOf (a : Int) : Space :=
  if 0 ≤ a ∧ a < 0x0100000000000000 then .global
  else if windowBase ≤ a ∧ a ≤ windowTop then .window
  else .none

/-! ## Leaves (R153) -/

def leafBit (e : BitVec 64) (i : Nat) : Bool := e.getLsbD i
def leafMode (e : BitVec 64) : Nat := (e.extractLsb' 61 2).toNat
def leafPeer (e : BitVec 64) : Nat := (e.extractLsb' 57 4).toNat
def leafRap (e : BitVec 64) : Bool := leafBit e 56
def leafThr (e : BitVec 64) : Nat := (e.extractLsb' 54 2).toNat
def leafRo (e : BitVec 64) : Bool := leafBit e 53
def leafCont (e : BitVec 64) : Bool := leafBit e 52
def leafPa (e : BitVec 64) : Nat := (e.extractLsb' 12 40).toNat * 2 ^ 12
def leafD (e : BitVec 64) : Bool := leafBit e 7
def leafA (e : BitVec 64) : Bool := leafBit e 6
def leafW (e : BitVec 64) : Bool := leafBit e 5
def leafSec (e : BitVec 64) : Bool := leafBit e 63

/-- The layout obeys R153: reserved bits zero, never `RO` with `W`, `MODE` 10 only with `RO`. -/
def leafOk (e : BitVec 64) : Bool :=
  (e.extractLsb' 8 4) == 0 && (e.extractLsb' 2 3) == 0 && !(leafRo e && leafW e) && (leafMode e != 2 || leafRo e)

/-- The page size of a leaf by its level (R154). -/
def pageSize (level : Nat) (cont : Bool) : Option Nat :=
  match level, cont with
  | 2, false => some (2 ^ 30)
  | 1, false => some (2 ^ 21)
  | 1, true => some (2 ^ 25)
  | 0, false => some (2 ^ 12)
  | 0, true => some (2 ^ 16)
  | _, _ => none

/-- A partition holds the stack of a physical address (R369). -/
def partHas (s : State) (p pa : Nat) : Bool := (partDies s p).contains (dieOfPa pa)

/-- What a leaf names can exist, seen from a partition (R150, R335, R369). -/
def leafPlace (s : State) (p : Nat) (e : BitVec 64) : Bool :=
  let ch := getChip s (chipOf p)
  match leafMode e with
  | 0 => decide (leafPa e < deviceSize) && partHas s p (leafPa e)
  | m => ch.fxEn && decide (leafPeer e ≤ ch.isize.toNat) && (m == 2 || leafPeer e != ch.index.toNat)

/-! ## The walk (R151) -/

/-- The index of a level in a virtual address. -/
def walkIdx (va level : Nat) : Nat := if level = 3 then va / 2 ^ 39 % 2 ^ 17 else va / 2 ^ (12 + 9 * level) % 2 ^ 9

/-- Reads the 8 bytes of a table entry at its home slice. -/
def rdEntry (s : State) (key : Nat) : BitVec 64 := BitVec.ofNat 64 (rdNat s.mem key 8)

/-- Where a translation is looked up: the partition, and the core that asks (none: an engine of the partition). -/
structure Site where
  part : Nat
  core : Option Nat
  deriving DecidableEq, Repr

/-- The site of a warp: its group's core. -/
def siteOf (s : State) (k : Nat) : Site := { part := partOf k, core := (warpCore s k).map (·.2) }
/-- The site of a partition's engines: its first die (log 69). -/
def partSite (p : Nat) : Site := { part := p, core := none }

/-- The die whose last-level TLB and walk cache serve a site (R157). -/
def siteDie (s : State) (z : Site) : Nat :=
  match z.core with
  | some n => n / 24
  | none => (partDies s z.part).headD 0

/-- The number of the context that a partition runs. -/
def ctxOf (s : State) (p : Nat) : Nat := match (getPart s p).ctx with | some x => x.num | none => 0

/-- A translation, or the table entry of one, covers an address in a context. -/
def tlbHit (t : Tlb) (ctx va : Nat) : Bool := t.ctx == ctx && decide (t.base ≤ va) && decide (va < t.base + t.size)

/-- The table entry on the way to an address that the die's walk cache holds. -/
def walkHeld (s : State) (z : Site) (va key : Nat) : Option Tlb :=
  (sget [] (getChip s (chipOf z.part)).walks (siteDie s z)).find? fun x => x.entry == key && tlbHit x (ctxOf s z.part) va

/-- A table entry that the walk to an address reads: from the die's walk cache, or at its home slice (R155, R157). -/
def walkEntry (s : State) (z : Site) (va key : Nat) : BitVec 64 :=
  match walkHeld s z va key with
  | some x => x.leaf
  | none => rdEntry s key

/-- The leaf's own checks at its level: layout, size and aligned `PA` (R153, R154); `none` is a page fault, invalid. -/
def leafAt (s : State) (p va level key : Nat) (e : BitVec 64) : Option Tlb :=
  match pageSize level (leafCont e) with
  | none => none
  | some n =>
    if leafOk e && leafPa e % n == 0 && leafPlace s p e then
      some { ctx := ctxOf s p, base := va - va % n, size := n, entry := key, leaf := e }
    else none

/-- What a walk comes to: the table entries that it went through, and the leaf, or the secure address that stopped it
where one did (R377). -/
structure Walked where
  path : List Tlb
  leaf : Except (Option Nat) Tlb

/-- Bytes of virtual address that an entry of a level translates. -/
def levelSpan (level : Nat) : Nat := 2 ^ (12 + 9 * level)

/-- A walk of world `sec` may read the entry at a physical address: the partition may reach it (R369), and no byte
of it is closed to the walk (R377). -/
def entrySeen (s : State) (p : Nat) (sec : Bool) (pa : Nat) : Except (Option Nat) Unit :=
  if !mayReach s p pa then .error none
  else if !sec && (List.range 8).any (fun i => isSecure s (chipOf p) (pa + i)) then .error (some pa)
  else .ok ()

/-- The walk from level `level` with the table at physical address `t`, through the entries `path`. -/
def walkFrom (s : State) (z : Site) (sec : Bool) (va : Nat) : Nat → Nat → List Tlb → Walked
  | level, t, path =>
    let p := z.part
    let pa := t + 8 * walkIdx va level
    let key := physKey (chipOf p) pa
    let stop (a : Option Nat) : Walked := { path := path, leaf := .error a }
    let found (x : Option Tlb) : Walked := { path := path, leaf := match x with | some y => .ok y | none => .error none }
    match entrySeen s p sec pa with
    | .error a => stop a
    | .ok _ =>
      let e := walkEntry s z va key
      if !leafBit e 0 then stop none
      else if leafBit e 1 then
        if leafCont e && (level == 0 || level == 1) then
          let key0 := physKey (chipOf p) (t + 8 * (walkIdx va level / 16 * 16))
          let e0 := rdEntry s key0
          if leafBit e0 0 && leafBit e0 1 && leafCont e0 then found (leafAt s p va level key0 e0) else stop none
        else found (leafAt s p va level key e)
      else if (e.extractLsb' 52 12) != 0 || (e.extractLsb' 2 10) != 0 then stop none
      else match level with
        | 0 => stop none
        | l + 1 =>
          let n := levelSpan (l + 1)
          walkFrom s z sec va l (leafPa e)
            (path ++ [{ ctx := ctxOf s p, base := va - va % n, size := n, entry := key, leaf := e }])

/-- The walk of a partition's context. -/
def walkAt (s : State) (z : Site) (va : Nat) : Walked :=
  match (getPart s z.part).ctx with
  | none => { path := [], leaf := .error none }
  | some x => walkFrom s z x.sec va 3 x.root []

/-- The leaf that the walk finds. -/
def walk (s : State) (z : Site) (va : Nat) : Option Tlb := (walkAt s z va).leaf.toOption

/-- The chip that a leaf names as home; 16 + index when no chip of the island has that index. -/
def leafHome (s : State) (chip : Nat) (e : BitVec 64) : Nat :=
  match leafMode e with
  | 0 => chip
  | _ => match chipOfIndex s (leafPeer e) with
    | some c => c
    | none => 16 + leafPeer e

/-- A chip whose translation of a moved page now names the new home sends its marker through the old one, once for each move (R342),
whatever address it reaches the page by. -/
def switchHome (s : State) (chip : Nat) (t : Tlb) : State :=
  let key := physKey (leafHome s chip t.leaf) (leafPa t.leaf)
  let hit (f : Forward) : Bool := decide (f.new < key + t.size) && decide (key < f.new + f.size) && !f.switched.contains chip
  { s with forwards := s.forwards.map fun f => if hit f then { f with switched := f.switched ++ [chip] } else f
           markers := s.markers ++ (s.forwards.filter hit).map fun f => (chip, f.new) }

/-! ## The TLBs (R157) -/

/-- Entries of an L1 TLB, of a last-level TLB, and of a walk cache (log 69). -/
def l1TlbSize : Nat := 256
def dieTlbSize : Nat := 32768
def walkSize : Nat := 1024

/-- Enters an item as the newest of at most `n`, the oldest giving way (log 69). -/
def pushIn {α : Type} (n : Nat) (l : List α) (x : α) : List α := (l ++ [x]).drop (l.length + 1 - n)

/-- What the L1 TLB of a site's core holds for an address; nothing without a core. -/
def l1Held (s : State) (z : Site) (va : Nat) : Option Tlb :=
  z.core.bind fun n => (getCore (getChip s (chipOf z.part)) n).tlb.find? fun t => tlbHit t (ctxOf s z.part) va
/-- What the last-level TLB of a site's die holds. -/
def dieHeld (s : State) (z : Site) (va : Nat) : Option Tlb :=
  (sget [] (getChip s (chipOf z.part)).dieTlb (siteDie s z)).find? fun t => tlbHit t (ctxOf s z.part) va
/-- The translation that a site holds. -/
def held (s : State) (z : Site) (va : Nat) : Option Tlb := (l1Held s z va).or (dieHeld s z va)

/-- The translation of an address, held or walked. -/
def findXlat (s : State) (z : Site) (va : Nat) : Option Tlb := (held s z va).or (walk s z va)

/-- A translation of the address is held. -/
def tlbHas (s : State) (z : Site) (va : Nat) : Bool := (held s z va).isSome

/-- Sets bit `i` of the entry at a key, at its home slice (R155). -/
def setEntryBit (s : State) (key i : Nat) : State :=
  sliceTouch { s with mem := wrBytes s.mem key (leBytes 8 ((rdEntry s key) ||| BitVec.ofNat 64 (2 ^ i)).toNat) } true 0 key

/-- Enters a translation into the L1 TLB of a site's core. -/
def enterL1 (s : State) (z : Site) (t : Tlb) : State :=
  match z.core with
  | none => s
  | some n =>
    let c := chipOf z.part
    let co := getCore (getChip s c) n
    setChip s c (setCore (getChip s c) n { co with tlb := pushIn l1TlbSize co.tlb t })

/-- Enters a translation into the last-level TLB of a site's die, and the table entries of its walk into the walk cache. -/
def enterDie (s : State) (z : Site) (t : Tlb) (path : List Tlb) : State :=
  let c := chipOf z.part
  let ch := getChip s c
  let d := siteDie s z
  let fresh (l : List Tlb) (x : Tlb) : List Tlb := if l.any fun y => y.entry == x.entry && y.ctx == x.ctx && y.base == x.base then l else pushIn walkSize l x
  setChip s c { ch with
    dieTlb := sput [] ch.dieTlb d (pushIn dieTlbSize (sget [] ch.dieTlb d) t)
    walks := sput [] ch.walks d (path.foldl fresh (sget [] ch.walks d)) }

/-- The entries that a walk to `t` reads at their home slices: those that the walk cache does not hold (R155, R157). -/
def walkReads (s : State) (z : Site) (va : Nat) (path : List Tlb) (t : Tlb) : List Nat :=
  ((path.map (·.entry)).filter fun a => (walkHeld s z va a).isNone) ++ [t.entry]

/-- The entries that a walk reads at their home slices for an address that no TLB holds, whatever it comes to: those on its way that the
walk cache does not hold, and the last, which it went no further than (R14, R151). -/
def walkKeys (s : State) (z : Site) (va : Nat) : List Nat :=
  match (getPart s z.part).ctx with
  | none => []
  | some x =>
    let w := walkAt s z va
    let pa := ((w.path.getLast?).map fun t => leafPa t.leaf).getD x.root + 8 * walkIdx va (3 - w.path.length)
    let far := (w.path.map (·.entry)).filter fun a => (walkHeld s z va a).isNone
    match entrySeen s z.part x.sec pa with
    | .ok _ => far ++ [physKey (chipOf z.part) pa]
    | .error _ => far

/-- A walk that installs nothing reaches the slices of the entries that it reads. -/
def walkTouch (s : State) (z : Site) (va : Nat) : State :=
  if tlbHas s z va then s else sliceTouches s false 0 (walkKeys s z va)

/-- Installs the translation of an address at a site, a walk setting `A` where it is 0 (R155, R157); nothing when the core
holds it, and no more than the reads of the walk when it faults. -/
def install (s : State) (z : Site) (va : Nat) : State :=
  if (l1Held s z va).isSome then s
  else match dieHeld s z va with
    | some t => enterL1 s z t
    | none =>
      let w := walkAt s z va
      match w.leaf with
      | .error _ => walkTouch s z va
      | .ok t =>
        let s := sliceTouches s false 0 (walkReads s z va w.path t)
        let s := if leafA t.leaf then s else setEntryBit s t.entry 6
        let t := { t with leaf := t.leaf ||| BitVec.ofNat 64 (2 ^ 6) }
        switchHome (enterL1 (enterDie s z t w.path) z t) (chipOf z.part) t

/-- Changes every translation that the TLBs of a chip hold. -/
def mapTlbs (s : State) (chip : Nat) (f : List Tlb → List Tlb) : State :=
  let ch := getChip s chip
  setChip s chip { ch with
    dieTlb := smap [] f ch.dieTlb
    cores := smap Core.reset (fun co => { co with tlb := f co.tlb }) ch.cores }

/-- Sets `D` before a write performs (R155). -/
def setDirty (s : State) (z : Site) (va : Nat) : State :=
  match held s z va with
  | none => s
  | some t =>
    if leafD t.leaf then s
    else mapTlbs (setEntryBit s t.entry 7) (chipOf z.part) fun l => l.map fun x =>
      if x.ctx = t.ctx ∧ x.entry = t.entry then { x with leaf := x.leaf ||| BitVec.ofNat 64 (2 ^ 7) } else x

/-- Removes the entries that a test selects from every L1 TLB, last-level TLB and walk cache of a chip (R157, R170). -/
def dropTlb (s : State) (chip : Nat) (hit : Tlb → Bool) : State :=
  let keep (l : List Tlb) : List Tlb := l.filter fun t => !hit t
  let s := mapTlbs s chip keep
  let ch := getChip s chip
  setChip s chip { ch with walks := smap [] keep ch.walks }

/-! ## Homes -/

/-- The move that forwards a key at its old home: no two name one old page (`movePageTo`). -/
def forwardOnce (fs : List Forward) (key : Nat) : Option Nat :=
  (fs.find? fun f => decide (f.old ≤ key) && decide (key < f.old + f.size)).map fun f => f.new + (key - f.old)

/-- A key through at most `n` moves. -/
def forwardVia (fs : List Forward) : Nat → Nat → Nat
  | 0, key => key
  | n + 1, key => match forwardOnce fs key with
    | some key' => forwardVia fs n key'
    | none => key

/-- A physical key as the home that holds the page now reads it, home after home (R341). -/
def forwardKey (s : State) (key : Nat) : Nat := forwardVia s.forwards s.forwards.length key

/-- The physical key that a translation gives an address. -/
def xlatKey (s : State) (p : Nat) (t : Tlb) (va : Nat) : Nat :=
  forwardKey s (physKey (leafHome s (chipOf p) t.leaf) (leafPa t.leaf + (va - t.base)))

/-- How an access uses its translation (R156). -/
inductive Use where
  | load | store | atomic
  deriving DecidableEq, Repr

/-- A refused translation: the kind of page fault, and the secure address that the security controller reports. -/
structure XErr where
  kind : Nat
  secure : Option Nat
  deriving DecidableEq, Repr

/-- A translated access: its physical key, the leaf's mode, the page's base and size, and its threshold class. -/
structure Xlat where
  key : Nat
  mode : Nat
  base : Nat
  size : Nat
  thr : Nat
  deriving DecidableEq, Repr

/-- Translation of an access of `n` bytes at a global address, which lies within one page (R156, R335, R377). -/
def translate (s : State) (z : Site) (sec : Bool) (use : Use) (va n : Nat) : Except XErr Xlat :=
  let p := z.part
  match findXlat s z va with
  | none => .error { kind := 0, secure := match (walkAt s z va).leaf with | .error a => a | .ok _ => none }
  | some t =>
    let e := t.leaf
    let key := xlatKey s p t va
    if leafSec e && !sec then .error { kind := 0, secure := some (leafPa e + (va - t.base)) }
    else if !leafPlace s p e then .error { kind := 0, secure := none }
    else if leafMode e == 0 && !sec && (List.range n).any (fun i => isSecure s (chipOf p) (key % keyBase + i)) then
      .error { kind := 0, secure := some (key % keyBase) }
    else if use != .load && leafMode e == 2 then .error { kind := 2, secure := none }
    else if use != .load && !leafW e then .error { kind := 1, secure := none }
    else if use == .atomic && leafMode e == 1 && !leafRap e then .error { kind := 3, secure := none }
    else .ok { key := key, mode := leafMode e, base := t.base, size := t.size, thr := leafThr e }

/-- Reports an access to a secure byte to the secure monitor (R156, R377). -/
def reportSecure (s : State) (p : Nat) (e : XErr) : State :=
  match e.secure with
  | none => s
  | some a => reportAt s (chipOf p) a

end Sys2Proof.Machine
end

