-- ==== Sys2Proof/Machine/Caches.lean ====
section
/-! DEFINITION. Replicas of `MODE` 10 pages (R338), and the count table with its migration requests (R339, R340). -/

namespace Sys2Proof.Machine

/-! ## Replicas (R338) -/

/-- Keeps the bytes of a replicated page that an element of a load brings in the slices of the issuing chip; the page is that of
context `ctx` (R350). -/
def keepReplica (s : State) (chip ctx : Nat) (e : RSrc) : State :=
  match e.keep with
  | none => s
  | some (base, size) =>
    let ch := getChip s chip
    let bs := leBytes e.size (match e.val with | some v => v.toNat | none => 0)
    let page := (ctx, base, size, e.key - (e.va - base))
    setChip s chip { ch with
      replicas := bs.zipIdx.foldl (fun m b => kinsert m (e.key + b.2) b.1) ch.replicas
      replicaOf := if ch.replicaOf.contains page then ch.replicaOf else ch.replicaOf ++ [page] }

/-- The byte that a chip's replicas hold. -/
def replicaByte (s : State) (chip key : Nat) : Option Byte := kfind (getChip s chip).replicas key

/-! ## The count table (R339, R340) -/

def countIdx (page ctx : Nat) : Nat := page / 2 ^ 12 % 2 ^ 12 ^^^ page / 2 ^ 24 % 2 ^ 12 ^^^ ctx % 2 ^ 12

/-- The count of a page, 0 when it has no entry. -/
def countOf (c : Chip) (page ctx : Nat) : Nat :=
  match kfind c.counts (countIdx page ctx) with
  | some e => if e.page = page ∧ e.ctx = ctx then e.count else 0
  | none => 0

/-- Adds `n` to the count of a page, and posts a migration request when a `MODE` 11 page reaches its threshold. -/
def addCount (s : State) (p : Nat) (x : Xlat) (home n : Nat) : State :=
  let c := chipOf p
  let ctx := ctxNum s p
  let ch := getChip s c
  let old := countOf ch x.base ctx
  let new := min (old + n) (2 ^ 32 - 1)
  let s := setChip s c { ch with counts := kinsert ch.counts (countIdx x.base ctx) { page := x.base, ctx := ctx, count := new } }
  let t := 2 ^ (8 + 2 * x.thr)
  if x.mode = 3 ∧ old < t ∧ t ≤ new then
    postFault s p (faultEntry 1 (myIndex s c) home 0 0 ctx x.base 0 0)
  else s

/-- The accesses of one instruction by page: the translation, the home's index and the distinct 64-byte sectors. -/
def countPages (s : State) (z : Site) (xs : List (Nat × Xlat)) : State :=
  let far := xs.filter fun e => e.2.mode == 1 || e.2.mode == 3
  let bases := (far.map fun e => e.2.base).eraseDups
  bases.foldl (fun s b =>
    match far.find? fun e => e.2.base == b with
    | none => s
    | some e =>
      let secs := ((far.filter fun e => e.2.base == b).map fun e => e.1 / 64).eraseDups
      let home := match findXlat s z e.1 with | some t => leafPeer t.leaf | none => 0
      addCount s z.part e.2 home secs.length) s

end Sys2Proof.Machine
end

