-- ==== Sys2Proof/Machine/Forms.lean ====
section
/-! DEFINITION. The encoding tables of the spec: for each operation its major opcode, function codes, types,
`MOD` class, guard, operand field classes, literal and `IMM32` (R50 to R57 and the tables R81, R127, R128, R132,
R141, R159, R213, R242, R256, R262, R267, R273, R327, R348, R363); the expansion of short forms (R45); and the
legality of an encoding (R46, R60). -/

namespace Sys2Proof

/-- The class in which an operand field is decoded (R51): must be zero; a vector register, paired when `TY` is a
64-bit type (R52); one 32-bit vector register whatever `TY` is; a scalar, predicate, rejoin or buffer register;
a code that the entry checks itself. -/
inductive Fld where
  | z | v | v1 | s | p | j | buf | code
  deriving DecidableEq, Repr

/-- How `MOD` is read (R50). -/
inductive ModK where
  | zero | rounding | scope | hint
  deriving DecidableEq, Repr

/-- Whether the second operand may be the literal (R48). -/
inductive LitK where
  | no | opt | req
  deriving DecidableEq, Repr

/-- One row of the encoding tables. -/
structure Form where
  maj : Nat
  fn  : Nat → Bool
  tys : List Ty
  mod : ModK
  guard : Bool
  d : Fld
  a : Fld
  b : Fld
  c : Fld
  lit : LitK
  imm : Nat → Bool

namespace Forms

/-- Type sets of R129, R132 and R160. -/
def tyI : List Ty := [.i32]
def tyW : List Ty := [.i32, .n32, .i64, .n64]
def tyA : List Ty := [.i32, .n32, .i64, .n64, .i16, .n16, .i8, .n8]
def tyL : List Ty := [.i32, .n32, .i64, .n64, .i16, .n16, .i8, .n8, .b32]
def tyS : List Ty := [.i32, .i64, .i16, .i8]
def tyF : List Ty := [.f32, .f64, .f16, .bf16]
def tyWB : List Ty := [.i32, .n32, .i64, .n64, .b32]
def tyR : List Ty := [.i32, .n32, .i64, .n64, .f32, .f64]
def tyM : List Ty := [.i32, .n32, .i64, .n64, .i16, .n16, .i8, .n8, .f32, .f64, .f16, .bf16, .sli, .b32]
def tyCvt : List Ty := [.i32, .n32, .i64, .n64, .f32, .f64, .f16, .bf16]
def tyBfp : List Ty := [.bfp2, .bfp3, .bfp4, .bfp5, .bfp6, .bfp7, .bfp8]
def tyAtom : List Ty := [.i32, .n32, .i64, .n64, .f32, .f64, .b32]
def tyPot : List Ty := [.i32, .n32, .i64, .n64, .f32, .bf16]
def tyMma : List Ty := [.bf16, .f16, .f32, .f64, .i8, .n8, .bfp2, .bfp3, .bfp4, .bfp5, .bfp6, .bfp7, .bfp8]

/-- `FN` is one code. -/
def is (k n : Nat) : Bool := n == k
/-- `FN` or `IMM32` lies below a bound. -/
def below (k n : Nat) : Bool := decide (n < k)
def anyN (_ : Nat) : Bool := true
/-- n of `GIVE` and `CLAIM` (R94). -/
def giveN (n : Nat) : Bool := n % 8 == 0 && decide (8 ≤ n) && decide (n ≤ 256)

/-- A uniform or sequencer form: no type, no rounding, no guard, no literal. -/
def plain (maj : Nat) (fn : Nat → Bool) (d a b c : Fld) (imm : Nat → Bool) : Form :=
  { maj := maj, fn := fn, tys := tyI, mod := .zero, guard := false, d := d, a := a, b := b, c := c, lit := .no, imm := imm }

/-- A scalar form (R127). -/
def scal (maj : Nat) (fn : Nat → Bool) (a c : Fld) : Form :=
  { maj := maj, fn := fn, tys := tyW, mod := .zero, guard := false, d := .s, a := a, b := .s, c := c, lit := .opt, imm := is 0 }

/-- An integer form (R128). -/
def ivec (maj : Nat) (tys : List Ty) (d a b c : Fld) (lit : LitK) : Form :=
  { maj := maj, fn := is 0, tys := tys, mod := .zero, guard := true, d := d, a := a, b := b, c := c, lit := lit, imm := is 0 }

/-- A floating-point form (R132). -/
def fvec (maj : Nat) (tys : List Ty) (mod : ModK) (b c : Fld) (lit : LitK) : Form :=
  { maj := maj, fn := is 0, tys := tys, mod := mod, guard := true, d := .v, a := .v, b := b, c := c, lit := lit, imm := is 0 }

/-- A cross-lane or predicate form (R141). -/
def cross (maj : Nat) (fn : Nat → Bool) (tys : List Ty) (mod : ModK) (d a b : Fld) (lit : LitK) : Form :=
  { maj := maj, fn := fn, tys := tys, mod := mod, guard := true, d := d, a := a, b := b, c := .z, lit := lit, imm := is 0 }

/-- A memory form (R159). -/
def memf (maj : Nat) (fn : Nat → Bool) (guard : Bool) (d b : Fld) : Form :=
  { maj := maj, fn := fn, tys := tyM, mod := .hint, guard := guard, d := d, a := .s, b := b, c := .z, lit := .no, imm := anyN }

/-- A turn-unit form without a guard (R213). -/
def turnf (maj : Nat) (fn : Nat → Bool) (tys : List Ty) (d a b : Fld) (lit : LitK) (imm : Nat → Bool) : Form :=
  { maj := maj, fn := fn, tys := tys, mod := .scope, guard := false, d := d, a := a, b := b, c := .z, lit := lit, imm := imm }

/-- A special-function form (R267). -/
def spec (fn : Nat) (b : Fld) (lit : LitK) : Form :=
  { maj := 0x73, fn := is fn, tys := [.f32], mod := .rounding, guard := true, d := .v, a := .v, b := b, c := .z, lit := lit, imm := is 0 }

/-- A level-index form (R273). -/
def lx (fn : Nat) (d b : Fld) (lit : LitK) (imm : Nat → Bool) : Form :=
  { maj := 0x74, fn := is fn, tys := [.sli], mod := .zero, guard := true, d := d, a := .v, b := b, c := .z, lit := lit, imm := imm }

/-- The barrier word (R213): n in [3:0], cnt in [13:8], `.g` in [16]. -/
def barWord (cntOk gOk : Bool) (w : Nat) : Bool :=
  let cnt := w / 2 ^ 8 % 64
  let g := w / 2 ^ 16 % 2
  w == w % 16 + cnt * 2 ^ 8 + g * 2 ^ 16 && decide (cnt ≤ 48) && (cntOk || cnt == 0) && (gOk || g == 0)

end Forms

open Forms in
/-- The row of each operation. -/
def Op.form : Op → Form
  | .nop => plain 0x00 (is 0) .z .z .z .z (is 0)
  | .bra => plain 0x01 (is 0) .z .z .z .z anyN
  | .brc => { plain 0x02 (is 0) .z .z .z .z anyN with guard := true }
  | .brx => plain 0x03 (is 0) .z .s .z .z (is 0)
  | .call => plain 0x04 (is 0) .s .z .z .z anyN
  | .callReg => plain 0x04 (is 1) .s .s .z .z (is 0)
  | .ret => plain 0x05 (is 0) .z .s .z .z (is 0)
  | .mark => plain 0x06 (is 0) .z .j .z .z anyN
  | .join => plain 0x07 (is 0) .z .j .z .z (is 0)
  | .exit => plain 0x08 (is 0) .z .z .z .z (is 0)
  | .rep => plain 0x09 (is 0) .z .z .z .z anyN
  | .repReg => plain 0x09 (is 1) .z .s .z .z (fun n => n % 2 ^ 16 == 0)
  | .rgn => plain 0x0A (is 0) .z .z .z .z (is 0)
  | .trap => plain 0x0B (is 0) .z .z .z .z (below 256)
  | .bpt => plain 0x0C (is 0) .z .z .z .z (is 0)
  | .eret => plain 0x0D (is 0) .z .z .z .z (is 0)
  | .srd => plain 0x0E (is 0) .code .code .z .z (is 0)
  | .srdHi => plain 0x0E (is 1) .s .code .z .z (is 0)
  | .swr => plain 0x0F (is 0) .z .code .s .z (is 0)
  | .give => plain 0x10 (is 0) .z .z .z .z giveN
  | .claim => plain 0x11 (is 0) .z .z .z .z giveN
  | .jmovToS => plain 0x12 (is 0) .s .j .z .z (below 3)
  | .jmovToJ => plain 0x12 (is 1) .j .s .z .z (below 3)
  | .sadd => scal 0x14 (is 0) .s .z
  | .ssub => scal 0x15 (is 0) .s .z
  | .smul => scal 0x16 (is 0) .s .z
  | .sand => scal 0x17 (is 0) .s .z
  | .sor => scal 0x18 (is 0) .s .z
  | .sxor => scal 0x19 (is 0) .s .z
  | .sshl => scal 0x1A (is 0) .s .z
  | .sshr => scal 0x1B (is 0) .s .z
  | .ssra => scal 0x1C (is 0) .s .z
  | .scmp => scal 0x1D (below 6) .s .z
  | .ssel => scal 0x1E (is 0) .s .s
  | .smov => scal 0x1F (is 0) .z .z
  | .vadd => ivec 0x20 tyA .v .v .v .z .opt
  | .vsub => ivec 0x21 tyA .v .v .v .z .opt
  | .vadds => ivec 0x22 tyA .v .v .v .z .opt
  | .vsubs => ivec 0x23 tyA .v .v .v .z .opt
  | .vmul24 => ivec 0x24 [.i32, .n32] .v .v .v .z .opt
  | .vmad24 => ivec 0x25 [.i32, .n32] .v .v .v .v .opt
  | .vmul => ivec 0x26 tyA .v .v .v .z .opt
  | .vmulh => ivec 0x27 tyA .v .v .v .z .opt
  | .vmad => ivec 0x28 tyA .v .v .v .v .opt
  | .vmin => ivec 0x29 tyA .v .v .v .z .opt
  | .vmax => ivec 0x2A tyA .v .v .v .z .opt
  | .vabs => ivec 0x2B tyS .v .v .z .z .no
  | .vand => ivec 0x2C tyL .v .v .v .z .opt
  | .vor => ivec 0x2D tyL .v .v .v .z .opt
  | .vxor => ivec 0x2E tyL .v .v .v .z .opt
  | .vnot => ivec 0x2F tyL .v .v .z .z .no
  | .vshl => ivec 0x30 tyL .v .v .v .z .opt
  | .vshr => ivec 0x31 tyL .v .v .v .z .opt
  | .vsra => ivec 0x32 tyL .v .v .v .z .opt
  | .vrot => ivec 0x33 tyL .v .v .v .z .opt
  | .vbfe => ivec 0x34 tyW .v .v .v1 .z .opt
  | .vbfi => ivec 0x35 tyW .v .v .v1 .v .opt
  | .vpopc => ivec 0x36 tyL .v .v .z .z .no
  | .vclz => ivec 0x37 tyL .v .v .z .z .no
  | .vbrev => ivec 0x38 tyL .v .v .z .z .no
  | .vcmp => { ivec 0x39 tyWB .p .v .v .z .opt with fn := below 6 }
  | .vsel => ivec 0x3A tyWB .v .v .v .p .opt
  | .vmov => ivec 0x3B tyWB .v .z .v .z .opt
  | .vmovBc => { ivec 0x3B tyWB .v .s .z .z .no with fn := is 1 }
  | .vfadd => fvec 0x3C tyF .rounding .v .z .opt
  | .vfsub => fvec 0x3D tyF .rounding .v .z .opt
  | .vfmul => fvec 0x3E tyF .rounding .v .z .opt
  | .vffma => fvec 0x3F tyF .rounding .v .v .opt
  | .vfmin => fvec 0x40 tyF .zero .v .z .opt
  | .vfmax => fvec 0x41 tyF .zero .v .z .opt
  | .vfabs => fvec 0x42 tyF .zero .z .z .no
  | .vfneg => fvec 0x43 tyF .zero .z .z .no
  | .vfcmp => { fvec 0x44 [.f32, .f64] .zero .v .z .opt with fn := below 8, d := .p }
  | .vfclass => fvec 0x45 tyF .zero .z .z .no
  | .vfrnd => fvec 0x46 tyF .rounding .z .z .no
  | .vfscale => fvec 0x47 tyF .rounding .v1 .z .opt
  | .vfdot2 => { fvec 0x48 [.f16, .bf16] .rounding .v .v1 .opt with d := .v1 }
  | .vcvt => { fvec 0x49 tyCvt .rounding .code .code .no with fn := below 2, d := .code, a := .code }
  | .vbfpq => { fvec 0x4A tyBfp .zero .z .v1 .no with d := .v1, a := .v1, imm := below 4 }
  | .vbfpx => { fvec 0x4B tyBfp .zero .z .v1 .no with d := .v1, a := .v1, imm := below 4 }
  | .vshfl => cross 0x4C (below 4) tyWB .zero .v .v .v1 .opt
  | .vvote => cross 0x4D (below 2) tyI .zero .p .p .z .no
  | .vvoteBallot => cross 0x4D (is 2) tyI .zero .s .p .z .no
  | .vrdc => cross 0x4E (below 6) tyR .rounding .s .v .z .no
  | .vscan => cross 0x4F (fun n => below 6 (n % 8) && below 16 n) tyR .rounding .v .v .z .no
  | .vbcast => cross 0x50 (is 0) tyWB .zero .v .v .s .opt
  | .vbcastS => cross 0x50 (is 1) tyWB .zero .s .v .s .opt
  | .vmatch => cross 0x51 (below 2) [.n64, .b32] .zero .p .v .z .no
  | .plop => { cross 0x52 (is 0) tyI .zero .p .p .p .no with imm := below 16 }
  | .pmovPs => cross 0x53 (is 0) tyI .zero .s .p .z .no
  | .pmovSp => cross 0x53 (is 1) tyI .zero .p .s .z .no
  | .vld => memf 0x54 (is 0) true .v .z
  | .vst => memf 0x55 (is 0) true .v .z
  | .vlds => memf 0x56 (below 2) true .v .code
  | .vsts => memf 0x57 (below 2) true .v .code
  | .sld => memf 0x58 (is 0) false .s .z
  | .sst => memf 0x59 (is 0) false .s .z
  | .vprf => memf 0x5A (below 3) true .z .code
  | .cctlInv => plain 0x5B (is 0) .z .s .s .z anyN
  | .cctlInvall => plain 0x5B (is 1) .z .z .z .z (is 0)
  | .cctlEvict => plain 0x5B (is 2) .z .s .s .z anyN
  | .tlbiVa => plain 0x5C (is 0) .z .s .s .z (is 0)
  | .tlbiCtx => plain 0x5C (is 1) .z .z .s .z (is 0)
  | .tlbiAll => plain 0x5C (is 2) .z .z .z .z (is 0)
  | .migrMove => plain 0x5D (is 0) .s .s .s .z (is 0)
  | .migrSet => plain 0x5D (is 1) .s .s .s .s (is 0)
  | .migrQuery => plain 0x5D (is 2) .s .s .z .z (is 0)
  | .atom => { turnf 0x5E (fun n => below 8 (n % 16) && below 128 n) tyAtom .v .s .v .opt anyN with guard := true, c := .v1 }
  | .pot => { turnf 0x5F (below 6) tyPot .z .s .v .opt anyN with guard := true, c := .v1 }
  | .acq => turnf 0x60 (is 0) tyWB .s .s .z .no anyN
  | .rel => turnf 0x61 (is 0) tyWB .z .s .s .opt anyN
  | .fenceRel => turnf 0x62 (is 0) tyI .z .z .z .no (is 0)
  | .fenceSc => turnf 0x62 (is 1) tyI .z .z .z .no (is 0)
  | .barArr => turnf 0x63 (is 0) tyI .s .z .z .no (barWord true false)
  | .barWait => turnf 0x63 (is 1) tyI .z .s .z .no (barWord false true)
  | .barSync => turnf 0x63 (is 2) tyI .z .z .z .no (barWord true true)
  | .barTest => turnf 0x63 (is 3) tyI .p .s .z .no (barWord false false)
  | .tktWait => turnf 0x64 (is 0) tyI .s .s .s .opt anyN
  | .tktDone => turnf 0x64 (is 1) tyI .s .s .z .no anyN
  | .pass => { turnf 0x65 (is 0) tyI .z .z .z .no (is 0) with mod := .zero }
  | .passTo => { turnf 0x65 (is 1) tyI .z .z .s .opt (is 0) with mod := .zero }
  | .turn => turnf 0x66 (is 0) tyWB .s .s .z .no anyN
  | .fshootVa => plain 0x67 (is 0) .s .s .s .z (is 0)
  | .fshootCtx => plain 0x67 (is 1) .s .z .s .z (is 0)
  | .mma => { plain 0x68 (below 128) .s .s .z .s anyN with tys := tyMma, guard := true, lit := .opt }
  | .accrd => { plain 0x69 (below 3) .v1 .z .z .z anyN with tys := [.f32, .f64, .fa48, .i32, .i48], mod := .rounding, guard := true }
  | .accwr => { plain 0x6A (below 3) .z .v1 .z .z anyN with tys := [.f32, .f64, .fa48, .i32, .i48], guard := true }
  | .accz => plain 0x6B (is 0) .z .z .z .z anyN
  | .cpslice => { plain 0x6D (below 8) .buf .s .s .z (is 0) with mod := .scope }
  | .cploop => { plain 0x6E (below 4) .buf .s .z .z (is 0) with mod := .scope }
  | .cpchain => { plain 0x6F (below 4) .buf .s .z .s (is 0) with mod := .scope, lit := .req }
  | .cpacc => { plain 0x70 (below 4) .buf .s .z .z (below (2 ^ 17)) with mod := .scope }
  | .bfwait => plain 0x71 (below 2) .s .buf .z .z (is 0)
  | .bfrel => plain 0x72 (is 0) .z .buf .z .z (is 0)
  | .vrcp => spec 0 .z .no
  | .vrsq => spec 1 .z .no
  | .vsqrt => spec 2 .z .no
  | .vexp2 => spec 3 .z .no
  | .vlog2 => spec 4 .z .no
  | .vsinpi => spec 5 .z .no
  | .vcospi => spec 6 .z .no
  | .vtanh => spec 7 .z .no
  | .vfdiv => spec 8 .v .opt
  | .lxadd => lx 0 .v .v .opt (below 16)
  | .lxsub => lx 1 .v .v .opt (below 16)
  | .lxmul => lx 2 .v .v .opt (below 16)
  | .lxdiv => lx 3 .v .v .opt (below 16)
  | .lxcmp => lx 4 .p .v .opt (below 8)
  | .lxexp => lx 5 .v .z .no (below 16)
  | .lxlog => lx 6 .v .z .no (below 16)
  | .lxlvl => lx 7 .v .z .no (is 0)
  | .lxcvt => { spec 0 .z .no with maj := 0x75, fn := below 32, tys := [.sli, .f32, .f64], d := .v, a := .code }
  | .spawn => plain 0x76 (is 0) .s .s .s .s (is 0)
  | .invoke => plain 0x77 (is 0) .s .s .s .s (below 16)
  | .invokeh => plain 0x77 (is 1) .s .s .s .s (is 0)
  | .fwait => plain 0x78 (is 0) .s .s .z .z (below 2)
  | .fpoll => plain 0x78 (is 1) .s .s .z .z (is 0)
  | .fref => plain 0x79 (is 0) .z .s .z .z (is 0)
  | .fdrop => plain 0x79 (is 1) .z .s .z .z (below 2)
  | .fpin => plain 0x79 (is 2) .z .s .z .z (is 0)
  | .fresVal => plain 0x7A (is 0) .s .s .z .z (below 65)
  | .fresPlace => plain 0x7A (is 0) .s .s .s .z (is 256)
  | .fbreak => plain 0x7A (is 1) .s .z .s .z (is 0)
  | .savept => plain 0x7B (is 0) .s .z .z .z (is 0)
  | .digest => plain 0x7C (is 0) .z .s .z .z (is 0)
  | .seed => { plain 0x7C (is 1) .s .z .s .z (is 0) with lit := .opt }

namespace Forms

/-- A 64-bit type occupies an even-odd register pair (R52). -/
def pair : Ty → Bool
  | .i64 | .n64 | .f64 => true
  | _ => false

/-- A pair also when the type stands in a 64-bit container (R121). -/
def pairAcc (t : Ty) : Bool := pair t || t == .fa48 || t == .i48

/-- A field number is legal in its class (R51, R52). -/
def fieldOk (t : Ty) (k : Fld) (n : BitVec 8) : Bool :=
  match k with
  | .z => n == 0
  | .v => n != 0xFF && (!pair t || n.toNat % 2 == 0)
  | .v1 => n != 0xFF
  | .s => decide (n.toNat < 128)
  | .p | .j => decide (n.toNat < 8)
  | .buf => decide (n.toNat < 64)
  | .code => n != 0xFF

/-- Special registers by number (R53). -/
def specials : List Nat :=
  [0x00, 0x01, 0x02, 0x03, 0x04, 0x05, 0x06, 0x07, 0x08, 0x09, 0x0A, 0x0B, 0x0C, 0x0D, 0x0E, 0x0F, 0x10, 0x11, 0x12,
   0x18, 0x19, 0x1A, 0x1B, 0x1C, 0x1D, 0x20, 0x21, 0x22, 0x23, 0x24, 0x25, 0x26]

/-- Special registers that `SWR` may write (R79). -/
def writables : List Nat := [0x18, 0x19, 0x1A, 0x1C, 0x20, 0x22, 0x23]

/-- `MOD` lies in its class (R50); an integer or raw type wants 0 in the rounding class. -/
def modOk (k : ModK) (t : Ty) (m : Nat) : Bool :=
  match k with
  | .zero => m == 0
  | .rounding => if decide (t.code ≤ 7) || decide (14 ≤ t.code) then m == 0 else decide (m < 4)
  | .scope => decide (m < 6)
  | .hint => decide (m < 4)

/-- The literal is present exactly when `B` selects it, and only where the entry accepts it (R48). -/
def litOk (k : LitK) (f : Long) : Bool :=
  match k, f.lit with
  | .no, none => f.b != 0xFF
  | .no, some _ => false
  | .opt, none => f.b != 0xFF
  | .opt, some _ => f.b == 0xFF
  | .req, none => false
  | .req, some _ => f.b == 0xFF

/-- The second operand field, which is not looked at when the literal is selected. -/
def bOk (r : Form) (f : Long) : Bool := f.lit.isSome || fieldOk f.ty r.b f.b

/-- The guard (R49): `PRED` = 0 with `PNEG` = 1 is illegal, and an entry without a guard wants both 0. -/
def guardOk (g : Bool) (f : Long) : Bool :=
  if g then !(f.pred == 0 && f.neg) else f.pred == 0 && !f.neg

/-- The 64-bit literal as a number, 0 when absent. -/
def litN (f : Long) : Nat := (f.lit.getD 0).toNat

/-- `FN` of `ATOM` (R215): the operation, the order and the no-return flag. -/
def atomOp (f : Long) : Nat := f.fn.toNat % 16
def atomOrd (f : Long) : Nat := f.fn.toNat / 16 % 4
def atomNr (f : Long) : Bool := f.fn.toNat / 64 % 2 == 1

def isInt (t : Ty) : Bool := decide (t.code < 4)
def isFloat (t : Ty) : Bool := tyF.contains t

/-- Operand limits of `ATOM` (R215). -/
def atomOk (f : Long) : Bool :=
  (match atomOp f with
   | 0 | 1 | 2 => tyR.contains f.ty
   | 3 | 4 | 5 => tyWB.contains f.ty
   | _ => tyAtom.contains f.ty) &&
  (!atomNr f || (f.d == 0 && atomOp f != 7))

/-- Operand limits of `POT` (R216). -/
def potOk (f : Long) : Bool :=
  if decide (f.fn.toNat < 3) then tyPot.contains f.ty else isInt f.ty

/-- Operand limits of `VCVT` (R138): the source type stands in `C`[4:0]. -/
def vcvtOk (f : Long) : Bool :=
  match Ty.ofCode f.c.toNat with
  | none => false
  | some src =>
    let dst := f.ty
    let half (t : Ty) : Bool := t == .f16 || t == .bf16
    let vreg (t : Ty) (n : BitVec 8) : Bool := n != 0xFF && (!pair t || n.toNat % 2 == 0)
    tyCvt.contains src && src != dst && !(isInt src && isInt dst) && vreg dst f.d && vreg src f.a &&
    (if half src then
       f.b == 0 && (if half dst then f.fn == 0 else true)
     else f.fn == 0 && (if half dst then vreg src f.b else f.b == 0)) &&
    decide (f.mod.toNat < 4)

/-- Ranges of register numbers `[x, x + n)` and one number overlap. -/
def rangeHits (x n y : Nat) : Bool := decide (x ≤ y) && decide (y < x + n)

/-- A range of `VBFPQ` or `VBFPX` that overlaps `vC` is illegal (R139). -/
def bfpOk (quantise : Bool) (f : Long) : Bool :=
  let m := f.ty.code - 14
  let q := (m + 1) / 2
  let c := f.c.toNat
  if quantise then !rangeHits f.a.toNat 16 c && !rangeHits f.d.toNat q c
  else !rangeHits f.a.toNat q c && !rangeHits f.d.toNat 16 c

/-- The fields of `MMA` (R256). -/
def mmaTyB (f : Long) : Option Ty := Ty.ofCode (f.fn.toNat % 32)
def mmaTri (f : Long) : Bool := f.fn.toNat / 32 % 2 == 1
def mmaFill (f : Long) : Bool := f.fn.toNat / 64 % 2 == 1
def mmaK (f : Long) : Nat := f.imm.toNat / 2 ^ 16
def mmaCol (f : Long) : Nat := f.imm.toNat / 2 ^ 8 % 256
def mmaRow (f : Long) : Nat := f.imm.toNat % 256
def mmaVsb (f : Long) : Nat := litN f % 256
def mmaVsa (f : Long) : Nat := litN f / 2 ^ 8 % 256
def mmaSba (f : Long) : Nat := litN f / 2 ^ 16 % 4
def mmaSbb (f : Long) : Nat := litN f / 2 ^ 18 % 4
def mmaT (f : Long) : Nat := litN f / 2 ^ 20 % 128
def mmaLower (f : Long) : Bool := litN f / 2 ^ 27 % 2 == 1
def mmaD (f : Long) : BitVec 16 := BitVec.ofNat 16 (litN f / 2 ^ 32)
def isBfp (t : Ty) : Bool := decide (16 ≤ t.code)

/-- The step of a type pair along K, and the largest K (R250). -/
def mmaStep (ta tb : Ty) : Option (Nat × Nat) :=
  if isBfp ta && isBfp tb then some (16, 64)
  else match ta, tb with
    | .bf16, .bf16 | .f16, .f16 => some (8, 65528)
    | .f32, .f32 => some (2, 65534)
    | .f64, .f64 => some (1, 65535)
    | .i8, .i8 | .i8, .n8 | .n8, .i8 | .n8, .n8 => some (16, 65520)
    | _, _ => none

/-- Operand limits of `MMA` (R257). -/
def mmaOk (f : Long) : Bool :=
  match mmaTyB f with
  | none => false
  | some tb =>
    match mmaStep f.ty tb with
    | none => false
    | some (g, hi) =>
      let k := mmaK f
      let bfp := isBfp f.ty
      let tri := mmaTri f
      k % g == 0 && decide (g ≤ k) && decide (k ≤ hi) &&
      decide (mmaRow f ≤ 224) && decide (mmaCol f ≤ 224) &&
      (f.ty != .f64 || (mmaCol f % 2 == 0 && decide (mmaCol f ≤ 192))) &&
      (tri || !mmaFill f) && (f.lit.isSome == (bfp || tri)) && decide (f.c.toNat ≤ 126) &&
      (if bfp then decide (mmaSba f + k / 16 ≤ 4) && decide (mmaSbb f + k / 16 ≤ 4) &&
          decide (mmaVsa f ≤ 253) && decide (mmaVsb f ≤ 253)
       else mmaVsa f == 0 && mmaVsb f == 0 && mmaSba f == 0 && mmaSbb f == 0) &&
      (if tri then decide (mmaT f ≤ 125) else mmaT f == 0 && !mmaLower f && mmaD f == 0) &&
      litN f / 2 ^ 28 % 16 == 0 && litN f / 2 ^ 48 == 0

/-- The fields of `ACCRD` and `ACCWR` (R262). -/
def accN (f : Long) : Nat := f.imm.toNat / 2 ^ 16 % 256
def accCol (f : Long) : Nat := f.imm.toNat / 2 ^ 8 % 256
def accRow (f : Long) : Nat := f.imm.toNat % 256

/-- Operand limits of `ACCRD` and `ACCWR` (R259, R260, R262). -/
def accOk (read : Bool) (f : Long) : Bool :=
  let n := accN f
  let reg := if read then f.d else f.a
  (match f.fn.toNat, f.ty with
   | 0, .f32 | 0, .fa48 | 1, .i32 | 1, .i48 | 2, .f64 => true
   | 2, .f32 => read
   | _, _ => false) &&
  (f.ty == .f32 || f.mod == 0) && decide (1 ≤ n) && decide (n ≤ 32) && decide (f.imm.toNat < 2 ^ 24) &&
  (if f.fn == 2 then accCol f % 2 == 0 && decide (accCol f + 2 * n ≤ 256) else decide (accCol f + n ≤ 256)) &&
  (!pairAcc f.ty || reg.toNat % 2 == 0)

/-- Operand limits of `ACCZ` (R262): nc − 1 in [31:24], nr − 1 in [23:16]. -/
def acczOk (f : Long) : Bool :=
  decide (accRow f + (f.imm.toNat / 2 ^ 16 % 256 + 1) ≤ 256) && decide (accCol f + (f.imm.toNat / 2 ^ 24 + 1) ≤ 256)

/-- Slot k of a chain: the operation and the operand select (R236). -/
def chainSlot (f : Long) (k : Nat) : Nat × Nat :=
  let b := litN f / 2 ^ (8 * k) % 256
  (b % 32, b / 32)

/-- A chain slot's operation exists and its select lies in the operation's column (R236). -/
def chainSlotOk (s : Nat × Nat) : Bool :=
  match s.1 with
  | 0 => s.2 == 0
  | 1 | 2 | 3 | 4 | 5 | 6 => true
  | 7 => decide (s.2 ≤ 4)
  | 8 => decide (s.2 ≤ 5)
  | 9 => decide (s.2 < 4)
  | _ => false

/-- After a `cvt` only `pass` may follow, so there is at most one (R236). -/
def chainTailOk : List (Nat × Nat) → Bool
  | [] => true
  | s :: r => (if s.1 == 9 then r.all (fun t => t.1 == 0) else true) && chainTailOk r

/-- Operand limits of `CPCHAIN` (R236). -/
def chainOk (f : Long) : Bool :=
  let slots := (List.range 8).map (chainSlot f)
  slots.all chainSlotOk && chainTailOk slots && decide (f.c.toNat + 6 ≤ 127)

/-- A copy's scope is 0 when it has neither `.acq` nor `.rel` (R242). -/
def copyModOk (f : Long) : Bool := f.fn.toNat % 4 != 0 || f.mod == 0

/-- A barrier's scope is 1 to 5 with `.g` and 0 without (R213). -/
def barModOk (f : Long) : Bool :=
  if f.imm.toNat / 2 ^ 16 % 2 == 1 then decide (1 ≤ f.mod.toNat) && decide (f.mod.toNat ≤ 5) else f.mod == 0

/-- Operand limits of `SRD` (R79): `%lane` goes to a vector register, every other register to a scalar one. -/
def srdOk (f : Long) : Bool :=
  specials.contains f.a.toNat && (if f.a == 0 then f.d != 0xFF else decide (f.d.toNat < 128))

/-- Type pairs of `LXCVT` (R273): the source type stands in `FN`[4:0]. -/
def lxcvtOk (f : Long) : Bool :=
  match f.ty, Ty.ofCode f.fn.toNat with
  | .sli, some .f32 => f.a != 0xFF && f.mod == 0
  | .sli, some .f64 => f.a != 0xFF && f.a.toNat % 2 == 0 && f.mod == 0
  | .f32, some .sli | .f64, some .sli => f.a != 0xFF
  | _, _ => false

/-- The index or stride operand of `VLDS`, `VSTS` and `VPRF`: a vector register for `.idx`, a scalar one for `.str`. -/
def idxOk (base : Nat) (f : Long) : Bool :=
  if f.fn.toNat < base then f.b == 0
  else if f.fn.toNat == base then f.b != 0xFF else decide (f.b.toNat < 128)

/-- The entry's own operand limits, beside the row (R60, last item). -/
def extraOk (o : Op) (f : Long) : Bool :=
  match o with
  | .srd => srdOk f
  | .srdHi => f.a == 0x24
  | .swr => writables.contains f.a.toNat
  | .vcmp => decide (f.fn.toNat < 2) || f.ty != .b32
  | .vcvt => vcvtOk f
  | .vbfpq => bfpOk true f
  | .vbfpx => bfpOk false f
  | .vrdc | .vscan => decide (f.fn.toNat % 8 < 3) || !isFloat f.ty
  | .vlds | .vsts => idxOk 0 f
  | .vprf => idxOk 1 f
  | .atom => atomOk f
  | .pot => potOk f
  | .barArr | .barWait | .barSync | .barTest => barModOk f
  | .mma => mmaOk f
  | .accrd => accOk true f
  | .accwr => accOk false f
  | .accz => acczOk f
  | .cpslice | .cploop | .cpacc => copyModOk f
  | .cpchain => copyModOk f && chainOk f
  | .lxcvt => lxcvtOk f
  | .fwait | .fpoll => decide (f.d.toNat ≤ 119)
  | _ => true

end Forms

open Forms in
/-- The long encoding is legal for the operation (R60). `VCVT` reads `MOD` as a rounding whatever its type (R50). -/
def Op.legal (o : Op) (f : Long) : Bool :=
  let r := o.form
  r.fn f.fn.toNat && r.tys.contains f.ty && (o == .vcvt || modOk r.mod f.ty f.mod.toNat) && guardOk r.guard f &&
  litOk r.lit f && fieldOk f.ty r.d f.d && fieldOk f.ty r.a f.a && bOk r f && fieldOk f.ty r.c f.c &&
  r.imm f.imm.toNat && extraOk o f

namespace Forms

/-- A long form with every field zero but the flags and the type. -/
def blank (fl : Flags) (t : Ty) : Long :=
  { fl := fl, ty := t, fn := 0, d := 0, a := 0, b := 0, c := 0, neg := false, pred := 0, mod := 0, imm := 0, lit := none }

def reg7 (n : BitVec 7) : BitVec 8 := n.setWidth 8

end Forms

open Forms in
/-- The type to which a short form expands (R45). -/
def Op.shortTy : Op → Ty
  | .vfadd | .vfsub | .vfmul => .f32
  | .sadd | .ssub | .smul | .sand | .sor | .sxor | .sshl | .sshr | .ssra | .scmp | .ssel | .smov | .sld | .sst => .i64
  | _ => .i32

open Forms in
/-- The expansions of R45. -/
def ShortZ.expand (f : ShortZ) : Long := blank f.fl .i32

open Forms in
def ShortA.expand (f : ShortA) : Long := { blank f.fl .i32 with a := reg7 f.a }

open Forms in
/-- SR: `C` = `D` where the operation reads `C`; a literal stands for `b` = 0x7F. -/
def ShortR.expand (o : Op) (f : ShortR) : Long :=
  { blank f.fl o.shortTy with
    d := reg7 f.d, a := reg7 f.a
    b := if f.lit.isSome then 0xFF else reg7 f.b
    c := if o.form.c = .z then 0 else reg7 f.d
    lit := f.lit }

open Forms in
/-- SI: without a literal of its own the immediate, sign-extended, is the literal. -/
def ShortI.expand (o : Op) (f : ShortI) : Long :=
  { blank f.fl o.shortTy with
    d := reg7 f.d, a := reg7 f.a, b := 0xFF
    c := if o.form.c = .z then 0 else reg7 f.d
    lit := some (f.lit.getD (f.imm7.signExtend 64)) }

open Forms in
/-- SM: the offset is scaled by 4 for `VLD` and `VST` and by 8 for `SLD` and `SST`. -/
def ShortM.expand (o : Op) (f : ShortM) : Long :=
  { blank f.fl o.shortTy with
    d := reg7 f.data, a := reg7 f.base
    imm := f.off7.signExtend 32 * (if o = .sld ∨ o = .sst then 8 else 4) }

open Forms in
def ShortB.expand (f : ShortB) : Long := { blank f.fl .i32 with imm := f.off21.signExtend 32 }

open Forms in
def ShortC.expand (f : ShortC) : Long :=
  { blank f.fl .i32 with pred := f.pred, neg := f.neg, imm := f.off17.signExtend 32 }

/-- Length in bytes (R40). -/
def Long.len (f : Long) : Nat := if f.lit.isSome then 20 else 12
def ShortR.len (f : ShortR) : Nat := if f.lit.isSome then 12 else 4
def ShortI.len (f : ShortI) : Nat := if f.lit.isSome then 12 else 4

/-- The short conditions of R46 beyond the legality of the expansion: a literal is selected by 0x7F. -/
def ShortR.ok (f : ShortR) : Bool := f.lit.isNone || f.b == 0x7F
def ShortI.ok (f : ShortI) : Bool := f.lit.isNone || f.imm7 == 0x7F

/-- The operation, the long form it executes as, and its length in bytes; `none` for an event. -/
def Instr.core : Instr → Option (Op × Long × Nat)
  | .nopShort f => some (.nop, f.expand, 4)
  | .nopLong f => some (.nop, f, f.len)
  | .braShort f => some (.bra, f.expand, 4)
  | .braLong f => some (.bra, f, f.len)
  | .brcShort f => some (.brc, f.expand, 4)
  | .brcLong f => some (.brc, f, f.len)
  | .brxShort f => some (.brx, f.expand, 4)
  | .brxLong f => some (.brx, f, f.len)
  | .call f => some (.call, f, f.len)
  | .callReg f => some (.callReg, f, f.len)
  | .ret f => some (.ret, f, f.len)
  | .mark f => some (.mark, f, f.len)
  | .joinShort f => some (.join, f.expand, 4)
  | .joinLong f => some (.join, f, f.len)
  | .exitShort f => some (.exit, f.expand, 4)
  | .exitLong f => some (.exit, f, f.len)
  | .rep f => some (.rep, f, f.len)
  | .repReg f => some (.repReg, f, f.len)
  | .rgn f => some (.rgn, f, f.len)
  | .trap f => some (.trap, f, f.len)
  | .bpt f => some (.bpt, f, f.len)
  | .eret f => some (.eret, f, f.len)
  | .srd f => some (.srd, f, f.len)
  | .srdHi f => some (.srdHi, f, f.len)
  | .swr f => some (.swr, f, f.len)
  | .give f => some (.give, f, f.len)
  | .claim f => some (.claim, f, f.len)
  | .jmovToS f => some (.jmovToS, f, f.len)
  | .jmovToJ f => some (.jmovToJ, f, f.len)
  | .saddShort f => some (.sadd, (f.expand .sadd), f.len)
  | .saddLong f => some (.sadd, f, f.len)
  | .ssubShort f => some (.ssub, (f.expand .ssub), f.len)
  | .ssubLong f => some (.ssub, f, f.len)
  | .smulShort f => some (.smul, (f.expand .smul), f.len)
  | .smulLong f => some (.smul, f, f.len)
  | .sandShort f => some (.sand, (f.expand .sand), f.len)
  | .sandLong f => some (.sand, f, f.len)
  | .sorShort f => some (.sor, (f.expand .sor), f.len)
  | .sorLong f => some (.sor, f, f.len)
  | .sxorShort f => some (.sxor, (f.expand .sxor), f.len)
  | .sxorLong f => some (.sxor, f, f.len)
  | .sshlShort f => some (.sshl, (f.expand .sshl), f.len)
  | .sshlLong f => some (.sshl, f, f.len)
  | .sshrShort f => some (.sshr, (f.expand .sshr), f.len)
  | .sshrLong f => some (.sshr, f, f.len)
  | .ssraShort f => some (.ssra, (f.expand .ssra), f.len)
  | .ssraLong f => some (.ssra, f, f.len)
  | .scmpShort f => some (.scmp, (f.expand .scmp), f.len)
  | .scmpLong f => some (.scmp, f, f.len)
  | .sselShort f => some (.ssel, (f.expand .ssel), f.len)
  | .sselLong f => some (.ssel, f, f.len)
  | .smovShort f => some (.smov, (f.expand .smov), f.len)
  | .smovLong f => some (.smov, f, f.len)
  | .vaddShort f => some (.vadd, (f.expand .vadd), f.len)
  | .vaddLong f => some (.vadd, f, f.len)
  | .vsubShort f => some (.vsub, (f.expand .vsub), f.len)
  | .vsubLong f => some (.vsub, f, f.len)
  | .vaddsShort f => some (.vadds, (f.expand .vadds), f.len)
  | .vaddsLong f => some (.vadds, f, f.len)
  | .vsubsShort f => some (.vsubs, (f.expand .vsubs), f.len)
  | .vsubsLong f => some (.vsubs, f, f.len)
  | .vmul24Short f => some (.vmul24, (f.expand .vmul24), f.len)
  | .vmul24Long f => some (.vmul24, f, f.len)
  | .vmad24Short f => some (.vmad24, (f.expand .vmad24), f.len)
  | .vmad24Long f => some (.vmad24, f, f.len)
  | .vmulShort f => some (.vmul, (f.expand .vmul), f.len)
  | .vmulLong f => some (.vmul, f, f.len)
  | .vmulhShort f => some (.vmulh, (f.expand .vmulh), f.len)
  | .vmulhLong f => some (.vmulh, f, f.len)
  | .vmadShort f => some (.vmad, (f.expand .vmad), f.len)
  | .vmadLong f => some (.vmad, f, f.len)
  | .vminShort f => some (.vmin, (f.expand .vmin), f.len)
  | .vminLong f => some (.vmin, f, f.len)
  | .vmaxShort f => some (.vmax, (f.expand .vmax), f.len)
  | .vmaxLong f => some (.vmax, f, f.len)
  | .vabsShort f => some (.vabs, (f.expand .vabs), f.len)
  | .vabsLong f => some (.vabs, f, f.len)
  | .vandShort f => some (.vand, (f.expand .vand), f.len)
  | .vandLong f => some (.vand, f, f.len)
  | .vorShort f => some (.vor, (f.expand .vor), f.len)
  | .vorLong f => some (.vor, f, f.len)
  | .vxorShort f => some (.vxor, (f.expand .vxor), f.len)
  | .vxorLong f => some (.vxor, f, f.len)
  | .vnotShort f => some (.vnot, (f.expand .vnot), f.len)
  | .vnotLong f => some (.vnot, f, f.len)
  | .vshlShort f => some (.vshl, (f.expand .vshl), f.len)
  | .vshlLong f => some (.vshl, f, f.len)
  | .vshrShort f => some (.vshr, (f.expand .vshr), f.len)
  | .vshrLong f => some (.vshr, f, f.len)
  | .vsraShort f => some (.vsra, (f.expand .vsra), f.len)
  | .vsraLong f => some (.vsra, f, f.len)
  | .vrotShort f => some (.vrot, (f.expand .vrot), f.len)
  | .vrotLong f => some (.vrot, f, f.len)
  | .vbfeShort f => some (.vbfe, (f.expand .vbfe), f.len)
  | .vbfeLong f => some (.vbfe, f, f.len)
  | .vbfiShort f => some (.vbfi, (f.expand .vbfi), f.len)
  | .vbfiLong f => some (.vbfi, f, f.len)
  | .vpopcShort f => some (.vpopc, (f.expand .vpopc), f.len)
  | .vpopcLong f => some (.vpopc, f, f.len)
  | .vclzShort f => some (.vclz, (f.expand .vclz), f.len)
  | .vclzLong f => some (.vclz, f, f.len)
  | .vbrevShort f => some (.vbrev, (f.expand .vbrev), f.len)
  | .vbrevLong f => some (.vbrev, f, f.len)
  | .vcmpShort f => some (.vcmp, (f.expand .vcmp), f.len)
  | .vcmpLong f => some (.vcmp, f, f.len)
  | .vselShort f => some (.vsel, (f.expand .vsel), f.len)
  | .vselLong f => some (.vsel, f, f.len)
  | .vmovShort f => some (.vmov, (f.expand .vmov), f.len)
  | .vmovLong f => some (.vmov, f, f.len)
  | .vmovBc f => some (.vmovBc, f, f.len)
  | .vfaddShort f => some (.vfadd, (f.expand .vfadd), f.len)
  | .vfaddLong f => some (.vfadd, f, f.len)
  | .vfsubShort f => some (.vfsub, (f.expand .vfsub), f.len)
  | .vfsubLong f => some (.vfsub, f, f.len)
  | .vfmulShort f => some (.vfmul, (f.expand .vfmul), f.len)
  | .vfmulLong f => some (.vfmul, f, f.len)
  | .vffma f => some (.vffma, f, f.len)
  | .vfmin f => some (.vfmin, f, f.len)
  | .vfmax f => some (.vfmax, f, f.len)
  | .vfabs f => some (.vfabs, f, f.len)
  | .vfneg f => some (.vfneg, f, f.len)
  | .vfcmp f => some (.vfcmp, f, f.len)
  | .vfclass f => some (.vfclass, f, f.len)
  | .vfrnd f => some (.vfrnd, f, f.len)
  | .vfscale f => some (.vfscale, f, f.len)
  | .vfdot2 f => some (.vfdot2, f, f.len)
  | .vcvt f => some (.vcvt, f, f.len)
  | .vbfpq f => some (.vbfpq, f, f.len)
  | .vbfpx f => some (.vbfpx, f, f.len)
  | .vshfl f => some (.vshfl, f, f.len)
  | .vvote f => some (.vvote, f, f.len)
  | .vvoteBallot f => some (.vvoteBallot, f, f.len)
  | .vrdc f => some (.vrdc, f, f.len)
  | .vscan f => some (.vscan, f, f.len)
  | .vbcast f => some (.vbcast, f, f.len)
  | .vbcastS f => some (.vbcastS, f, f.len)
  | .vmatch f => some (.vmatch, f, f.len)
  | .plop f => some (.plop, f, f.len)
  | .pmovPs f => some (.pmovPs, f, f.len)
  | .pmovSp f => some (.pmovSp, f, f.len)
  | .vldShort f => some (.vld, (f.expand .vld), 4)
  | .vldLong f => some (.vld, f, f.len)
  | .vstShort f => some (.vst, (f.expand .vst), 4)
  | .vstLong f => some (.vst, f, f.len)
  | .vlds f => some (.vlds, f, f.len)
  | .vsts f => some (.vsts, f, f.len)
  | .sldShort f => some (.sld, (f.expand .sld), 4)
  | .sldLong f => some (.sld, f, f.len)
  | .sstShort f => some (.sst, (f.expand .sst), 4)
  | .sstLong f => some (.sst, f, f.len)
  | .vprf f => some (.vprf, f, f.len)
  | .cctlInv f => some (.cctlInv, f, f.len)
  | .cctlInvall f => some (.cctlInvall, f, f.len)
  | .cctlEvict f => some (.cctlEvict, f, f.len)
  | .tlbiVa f => some (.tlbiVa, f, f.len)
  | .tlbiCtx f => some (.tlbiCtx, f, f.len)
  | .tlbiAll f => some (.tlbiAll, f, f.len)
  | .migrMove f => some (.migrMove, f, f.len)
  | .migrSet f => some (.migrSet, f, f.len)
  | .migrQuery f => some (.migrQuery, f, f.len)
  | .atom f => some (.atom, f, f.len)
  | .pot f => some (.pot, f, f.len)
  | .acq f => some (.acq, f, f.len)
  | .rel f => some (.rel, f, f.len)
  | .fenceRel f => some (.fenceRel, f, f.len)
  | .fenceSc f => some (.fenceSc, f, f.len)
  | .barArr f => some (.barArr, f, f.len)
  | .barWait f => some (.barWait, f, f.len)
  | .barSync f => some (.barSync, f, f.len)
  | .barTest f => some (.barTest, f, f.len)
  | .tktWait f => some (.tktWait, f, f.len)
  | .tktDone f => some (.tktDone, f, f.len)
  | .pass f => some (.pass, f, f.len)
  | .passTo f => some (.passTo, f, f.len)
  | .turn f => some (.turn, f, f.len)
  | .fshootVa f => some (.fshootVa, f, f.len)
  | .fshootCtx f => some (.fshootCtx, f, f.len)
  | .mma f => some (.mma, f, f.len)
  | .accrd f => some (.accrd, f, f.len)
  | .accwr f => some (.accwr, f, f.len)
  | .accz f => some (.accz, f, f.len)
  | .cpslice f => some (.cpslice, f, f.len)
  | .cploop f => some (.cploop, f, f.len)
  | .cpchain f => some (.cpchain, f, f.len)
  | .cpacc f => some (.cpacc, f, f.len)
  | .bfwait f => some (.bfwait, f, f.len)
  | .bfrel f => some (.bfrel, f, f.len)
  | .vrcp f => some (.vrcp, f, f.len)
  | .vrsq f => some (.vrsq, f, f.len)
  | .vsqrt f => some (.vsqrt, f, f.len)
  | .vexp2 f => some (.vexp2, f, f.len)
  | .vlog2 f => some (.vlog2, f, f.len)
  | .vsinpi f => some (.vsinpi, f, f.len)
  | .vcospi f => some (.vcospi, f, f.len)
  | .vtanh f => some (.vtanh, f, f.len)
  | .vfdiv f => some (.vfdiv, f, f.len)
  | .lxadd f => some (.lxadd, f, f.len)
  | .lxsub f => some (.lxsub, f, f.len)
  | .lxmul f => some (.lxmul, f, f.len)
  | .lxdiv f => some (.lxdiv, f, f.len)
  | .lxcmp f => some (.lxcmp, f, f.len)
  | .lxexp f => some (.lxexp, f, f.len)
  | .lxlog f => some (.lxlog, f, f.len)
  | .lxlvl f => some (.lxlvl, f, f.len)
  | .lxcvt f => some (.lxcvt, f, f.len)
  | .spawn f => some (.spawn, f, f.len)
  | .invoke f => some (.invoke, f, f.len)
  | .invokeh f => some (.invokeh, f, f.len)
  | .fwait f => some (.fwait, f, f.len)
  | .fpoll f => some (.fpoll, f, f.len)
  | .fref f => some (.fref, f, f.len)
  | .fdrop f => some (.fdrop, f, f.len)
  | .fpin f => some (.fpin, f, f.len)
  | .fresVal f => some (.fresVal, f, f.len)
  | .fresPlace f => some (.fresPlace, f, f.len)
  | .fbreak f => some (.fbreak, f, f.len)
  | .savept f => some (.savept, f, f.len)
  | .digest f => some (.digest, f, f.len)
  | .seed f => some (.seed, f, f.len)
  | .runArbitration _ _ _ => none
  | .localityScoreHalving _ _ _ => none
  | .outstandingResultWrite _ => none
  | .loadConfirmation _ => none
  | .postedStorePerform _ => none
  | .debuggerHalt _ => none
  | .debuggerResume _ => none
  | .roundGateOpen _ => none
  | .domainTurnGrant _ => none
  | .groupTurnGrant _ => none
  | .groupEnd _ => none
  | .publicationMerge _ => none
  | .copyCompletion _ _ => none
  | .pageWalkCompletion _ _ _ => none
  | .mailboxWindowWrite _ _ _ _ => none
  | .admission _ => none
  | .fenceCompletion _ _ => none
  | .completionRecord _ _ => none
  | .groupPlacement _ => none
  | .spatialPreemption _ _ => none
  | .preemptionWaitExpiry _ => none
  | .saveAreaExhausted _ => none
  | .allParked _ => none
  | .remoteRequest _ => none
  | .remoteReply _ => none
  | .invocationArrival _ => none
  | .migrationMarker _ _ => none
  | .flitReceive _ _ _ _ _ => none
  | .flitAcknowledgement _ _ _ => none
  | .replayRequest _ _ _ => none
  | .replayLimitReached _ _ => none
  | .laneLockLoss _ _ => none
  | .portUp _ _ => none
  | .linkTrainingComplete _ _ => none
  | .linkTrainingTimeout _ _ => none
  | .beaconSend _ => none
  | .beaconReceive _ _ => none
  | .peerSilentTimeout _ _ => none
  | .fshootAcknowledgement _ _ => none
  | .fshootTimeout _ => none
  | .savePointCapture _ => none
  | .unitCopyComplete _ _ => none
  | .manifestWrite _ => none
  | .spareDrain _ => none
  | .sramCorrectableError _ _ _ _ => none
  | .sliceRetirementComplete _ _ _ => none
  | .sramPatrol _ _ _ => none
  | .stackPatrolScrub _ _ _ _ => none
  | .networkBeatCrcError _ _ _ _ _ => none
  | .machineCheck _ _ _ => none
  | .supplyDroop _ _ => none
  | .supplyRecovery _ _ => none
  | .powerLimitStep _ _ => none
  | .deviceReset _ => none
  | .hostWindowBAccess _ _ _ _ _ => none
  | .faultQueueTailWrite _ _ => none
  | .registerWrite _ _ _ => none
  | .createContext _ _ => none
  | .destroyContext _ => none
  | .invalidate _ => none
  | .faultQueue _ => none
  | .saveFull _ => none
  | .drainTarget _ => none
  | .restore _ => none
  | .replayRecord _ => none
  | .readHash _ => none
  | .admissionPosition _ => none
  | .sliceRegister _ => none
  | .errorLog _ => none
  | .partitionMap _ => none
  | .fabricRegister _ => none
  | .enableMap _ => none
  | .invalidCommand _ _ _ => none
  | .commandCompletion _ _ => none
  | .mmaRetirement _ => none
  | .systemPreemptionRequest _ _ => none

/-- The literal selection of a short form (R46). -/
def Instr.shortOk : Instr → Bool
  | .saddShort f => f.ok
  | .ssubShort f => f.ok
  | .smulShort f => f.ok
  | .sandShort f => f.ok
  | .sorShort f => f.ok
  | .sxorShort f => f.ok
  | .sshlShort f => f.ok
  | .sshrShort f => f.ok
  | .ssraShort f => f.ok
  | .scmpShort f => f.ok
  | .sselShort f => f.ok
  | .smovShort f => f.ok
  | .vaddShort f => f.ok
  | .vsubShort f => f.ok
  | .vaddsShort f => f.ok
  | .vsubsShort f => f.ok
  | .vmul24Short f => f.ok
  | .vmad24Short f => f.ok
  | .vmulShort f => f.ok
  | .vmulhShort f => f.ok
  | .vmadShort f => f.ok
  | .vminShort f => f.ok
  | .vmaxShort f => f.ok
  | .vabsShort f => f.ok
  | .vandShort f => f.ok
  | .vorShort f => f.ok
  | .vxorShort f => f.ok
  | .vnotShort f => f.ok
  | .vshlShort f => f.ok
  | .vshrShort f => f.ok
  | .vsraShort f => f.ok
  | .vrotShort f => f.ok
  | .vbfeShort f => f.ok
  | .vbfiShort f => f.ok
  | .vpopcShort f => f.ok
  | .vclzShort f => f.ok
  | .vbrevShort f => f.ok
  | .vcmpShort f => f.ok
  | .vselShort f => f.ok
  | .vmovShort f => f.ok
  | .vfaddShort f => f.ok
  | .vfsubShort f => f.ok
  | .vfmulShort f => f.ok
  | _ => true

end Sys2Proof
end

