-- ==== Sys2Proof/WellFormed.lean ====
section
/-! DEFINITION. Well-formed instructions: a machine instruction whose encoding is legal (R46, R60), an event whose
arguments name parts the package has (R9, R330, R368). -/

namespace Sys2Proof

namespace Wf

def chip (n : Nat) : Bool := decide (n < 16)
def die (n : Nat) : Bool := decide (n < 8)
def coreNo (n : Nat) : Bool := decide (n < 24)
/-- Partition p of chip c has the number 8c + p. -/
def part (n : Nat) : Bool := decide (n < 128)
def mbox (n : Nat) : Bool := decide (n < 256)
def port (n : Nat) : Bool := decide (n < 15)
/-- Die × 24 + core. -/
def cores (l : List Nat) : Bool := l.all (fun n => decide (n < 192))
/-- A command interface: of the system, or of one of the chip's eight partitions. -/
def iface : Option Nat → Bool
  | none => true
  | some p => decide (p < 8)
def hostReg : HostReg → Bool
  | .arg i k => iface i && decide (k < 4)
  | .stat i => iface i
  | .fqHead p => decide (p < 8)
  | .region i => decide (i < 64)
  | .barSize n => decide (n ≤ 10)
  | .reserved _ => true
def sram : Option SramFault → Bool
  | none => true
  | some (.corrected d n) => die d && coreNo n
  | some (.correctedCore d n) => die d && coreNo n
  | some (.doubleCore d n _ _) => die d && coreNo n
  | some (.doubleSlice d n _ _) => die d && coreNo n
/-- Element codes of R376. -/
def site (e : ErrSite) : Bool := decide (1 ≤ e.elem) && decide (e.elem ≤ 6) && die e.die && decide (e.unit < 256)
def beacon (b : Beacon) : Bool := chip b.peer && decide (b.seq < 2 ^ 64)
/-- A flit carries at most 240 bytes of payload (R330). -/
def payload : FlitPayload → Bool
  | .beacon b => beacon b
  | .data bs => decide (bs.length ≤ 240)
  | .request .. | .reply .. | .publication .. | .invocation .. => true
def flit (x : Packet) : Bool := chip x.dest && chip x.src && payload x.payload

end Wf

open Wf in
/-- The arguments of an event lie in range; true of a machine instruction. -/
def Instr.eventOk : Instr → Bool
  | .runArbitration c d k => chip c && die d && coreNo k
  | .localityScoreHalving c d k => chip c && die d && coreNo k
  | .outstandingResultWrite _ => true
  | .loadConfirmation _ => true
  | .postedStorePerform _ => true
  | .debuggerHalt _ => true
  | .debuggerResume _ => true
  | .roundGateOpen _ => true
  | .domainTurnGrant p => part p
  | .groupTurnGrant _ => true
  | .groupEnd _ => true
  | .publicationMerge p => part p
  | .copyCompletion _ _ => true
  | .pageWalkCompletion c p _ => chip c && part p
  | .mailboxWindowWrite p m off bytes => part p && mbox m && decide (off + bytes.length ≤ 4096)
  | .admission p => part p
  | .fenceCompletion p m => part p && mbox m
  | .completionRecord p m => part p && mbox m
  | .groupPlacement p => part p
  | .spatialPreemption c cs => chip c && cores cs
  | .preemptionWaitExpiry _ => true
  | .saveAreaExhausted _ => true
  | .allParked p => part p
  | .remoteRequest _ => true
  | .remoteReply _ => true
  | .invocationArrival p => part p
  | .migrationMarker c _ => chip c
  | .flitReceive c q _ _ x => chip c && port q && flit x
  | .flitAcknowledgement c q _ => chip c && port q
  | .replayRequest c q _ => chip c && port q
  | .replayLimitReached c q => chip c && port q
  | .laneLockLoss c q => chip c && port q
  | .portUp c q => chip c && port q
  | .linkTrainingComplete c q => chip c && port q
  | .linkTrainingTimeout c q => chip c && port q
  | .beaconSend c => chip c
  | .beaconReceive c b => chip c && beacon b
  | .peerSilentTimeout c pr => chip c && chip pr
  | .fshootAcknowledgement _ c => chip c
  | .fshootTimeout _ => true
  | .savePointCapture p => part p
  | .unitCopyComplete p _ => part p
  | .manifestWrite p => part p
  | .spareDrain p => part p
  | .sramCorrectableError c d sl _ => chip c && die d && coreNo sl
  | .sliceRetirementComplete c d sl => chip c && die d && coreNo sl
  | .sramPatrol c found _ => chip c && sram found
  | .stackPatrolScrub c stack _ _ => chip c && decide (stack < 16)
  | .networkBeatCrcError c d unit _ _ => chip c && die d && decide (unit < 256)
  | .machineCheck c err _ => chip c && site err
  | .supplyDroop c d => chip c && die d
  | .supplyRecovery c d => chip c && die d
  | .powerLimitStep c _ => chip c
  | .deviceReset c => chip c
  | .hostWindowBAccess c vf _ _ _ => chip c && iface vf
  | .faultQueueTailWrite p _ => part p
  | .registerWrite c reg _ => chip c && hostReg reg
  | .createContext p _ => part p
  | .destroyContext p => part p
  | .invalidate p => part p
  | .faultQueue p => part p
  | .saveFull p => part p
  | .drainTarget p => part p
  | .restore p => part p
  | .replayRecord p => part p
  | .readHash p => part p
  | .admissionPosition p => part p
  | .sliceRegister p => part p
  | .errorLog p => part p
  | .partitionMap c => chip c
  | .fabricRegister c => chip c
  | .enableMap c => chip c
  | .invalidCommand c i op => chip c && iface i && decide (op < 256)
  | .commandCompletion c i => chip c && iface i
  | .mmaRetirement _ => true
  | .systemPreemptionRequest c cs => chip c && cores cs
  | _ => true

/-- Well-formed: the encoding is legal, or the event's arguments are in range. -/
def Instr.wf (i : Instr) : Bool :=
  match i.core with
  | some (o, f, _) => o.legal f && i.shortOk
  | none => i.eventOk

end Sys2Proof
end

