-- ==== Sys2Proof/Decode.lean ====
section
/-! DEFINITION. Decoding instruction words (R40 to R48, R57, R60) into instructions, total on any words, and the
encoder. Words stand lowest address first (R3, R41). -/

namespace Sys2Proof

/-- Why words are no instruction. `truncated`: the instruction needs more words than are given (safe: nothing
is decoded). The others are the illegal encodings of R60. -/
inductive DecodeError where
  | truncated | badMajor | badType | badShort | illegal
  deriving DecidableEq, Repr

namespace Dec

def bit (w : Word) (i : Nat) : Bool := w.getLsbD i
def field (w : Word) (lo n : Nat) : BitVec n := w.extractLsb' lo n

/-- The flags of the first word (R40). -/
def flags (w : Word) : Flags := { pk := bit w 2, en := bit w 3 }

/-- The fields of a long form (R47). -/
def unpack (w0 w1 w2 : Word) (lit : Option (BitVec 64)) : Option Long :=
  (Ty.ofCode (field w0 27 5).toNat).map fun t =>
    { fl := flags w0, ty := t, fn := field w0 19 8, d := field w0 11 8
      mod := field w1 28 4, neg := bit w1 27, pred := field w1 24 3
      c := field w1 16 8, b := field w1 8 8, a := field w1 0 8
      imm := w2, lit := lit }

/-- A 64-bit literal: bits [31:0] in the lower-addressed word (R41). -/
def literal (lo hi : Word) : BitVec 64 := hi ++ lo

def shortR (w : Word) (lit : Option (BitVec 64)) : ShortR :=
  { fl := flags w, d := field w 11 7, a := field w 18 7, b := field w 25 7, lit := lit }
def shortI (w : Word) (lit : Option (BitVec 64)) : ShortI :=
  { fl := flags w, d := field w 11 7, a := field w 18 7, imm7 := field w 25 7, lit := lit }
def shortM (w : Word) : ShortM :=
  { fl := flags w, data := field w 11 7, base := field w 18 7, off7 := field w 25 7 }
def shortB (w : Word) : ShortB := { fl := flags w, off21 := field w 11 21 }
def shortC (w : Word) : ShortC := { fl := flags w, off17 := field w 15 17, neg := bit w 14, pred := field w 11 3 }
def shortA (w : Word) : ShortA := { fl := flags w, a := field w 18 7 }
def shortZ (w : Word) : ShortZ := { fl := flags w }

end Dec

open Dec in
/-- The short instruction of a major opcode (R45, R46). SB, SC, SM and the forms without operands take no literal. -/
def shortOf (maj : Nat) (w : Word) (lit : Option (BitVec 64)) : Option Instr :=
  match maj, lit with
  | 0x00, none => if field w 11 21 = 0 then some (.nopShort (shortZ w)) else none
  | 0x01, none => some (.braShort (shortB w))
  | 0x02, none => some (.brcShort (shortC w))
  | 0x03, none => if field w 11 7 = 0 ∧ field w 25 7 = 0 then some (.brxShort (shortA w)) else none
  | 0x07, none => if field w 11 7 = 0 ∧ field w 25 7 = 0 then some (.joinShort (shortA w)) else none
  | 0x08, none => if field w 11 21 = 0 then some (.exitShort (shortZ w)) else none
  | 0x14, l => some (.saddShort (shortI w l))
  | 0x15, l => some (.ssubShort (shortI w l))
  | 0x16, l => some (.smulShort (shortI w l))
  | 0x17, l => some (.sandShort (shortI w l))
  | 0x18, l => some (.sorShort (shortI w l))
  | 0x19, l => some (.sxorShort (shortI w l))
  | 0x1a, l => some (.sshlShort (shortI w l))
  | 0x1b, l => some (.sshrShort (shortI w l))
  | 0x1c, l => some (.ssraShort (shortI w l))
  | 0x1d, l => some (.scmpShort (shortI w l))
  | 0x1e, l => some (.sselShort (shortI w l))
  | 0x1f, l => some (.smovShort (shortI w l))
  | 0x20, l => some (.vaddShort (shortR w l))
  | 0x21, l => some (.vsubShort (shortR w l))
  | 0x22, l => some (.vaddsShort (shortR w l))
  | 0x23, l => some (.vsubsShort (shortR w l))
  | 0x24, l => some (.vmul24Short (shortR w l))
  | 0x25, l => some (.vmad24Short (shortR w l))
  | 0x26, l => some (.vmulShort (shortR w l))
  | 0x27, l => some (.vmulhShort (shortR w l))
  | 0x28, l => some (.vmadShort (shortR w l))
  | 0x29, l => some (.vminShort (shortR w l))
  | 0x2a, l => some (.vmaxShort (shortR w l))
  | 0x2b, l => some (.vabsShort (shortR w l))
  | 0x2c, l => some (.vandShort (shortR w l))
  | 0x2d, l => some (.vorShort (shortR w l))
  | 0x2e, l => some (.vxorShort (shortR w l))
  | 0x2f, l => some (.vnotShort (shortR w l))
  | 0x30, l => some (.vshlShort (shortR w l))
  | 0x31, l => some (.vshrShort (shortR w l))
  | 0x32, l => some (.vsraShort (shortR w l))
  | 0x33, l => some (.vrotShort (shortR w l))
  | 0x34, l => some (.vbfeShort (shortR w l))
  | 0x35, l => some (.vbfiShort (shortR w l))
  | 0x36, l => some (.vpopcShort (shortR w l))
  | 0x37, l => some (.vclzShort (shortR w l))
  | 0x38, l => some (.vbrevShort (shortR w l))
  | 0x39, l => some (.vcmpShort (shortR w l))
  | 0x3a, l => some (.vselShort (shortR w l))
  | 0x3b, l => some (.vmovShort (shortR w l))
  | 0x3c, l => some (.vfaddShort (shortR w l))
  | 0x3d, l => some (.vfsubShort (shortR w l))
  | 0x3e, l => some (.vfmulShort (shortR w l))
  | 0x54, none => some (.vldShort (shortM w))
  | 0x55, none => some (.vstShort (shortM w))
  | 0x58, none => some (.sldShort (shortM w))
  | 0x59, none => some (.sstShort (shortM w))
  | _, _ => none

/-- The operation of a long form, by major opcode and `FN` (R57); `FRES` also by `IMM32`[8] (R327). -/
def opOf (maj fn : Nat) (imm : Word) : Option Op :=
  match maj, fn with
  | 0x00, _ => some .nop
  | 0x01, _ => some .bra
  | 0x02, _ => some .brc
  | 0x03, _ => some .brx
  | 0x04, 0 => some .call
  | 0x04, 1 => some .callReg
  | 0x05, _ => some .ret
  | 0x06, _ => some .mark
  | 0x07, _ => some .join
  | 0x08, _ => some .exit
  | 0x09, 0 => some .rep
  | 0x09, 1 => some .repReg
  | 0x0a, _ => some .rgn
  | 0x0b, _ => some .trap
  | 0x0c, _ => some .bpt
  | 0x0d, _ => some .eret
  | 0x0e, 0 => some .srd
  | 0x0e, 1 => some .srdHi
  | 0x0f, _ => some .swr
  | 0x10, _ => some .give
  | 0x11, _ => some .claim
  | 0x12, 0 => some .jmovToS
  | 0x12, 1 => some .jmovToJ
  | 0x14, _ => some .sadd
  | 0x15, _ => some .ssub
  | 0x16, _ => some .smul
  | 0x17, _ => some .sand
  | 0x18, _ => some .sor
  | 0x19, _ => some .sxor
  | 0x1a, _ => some .sshl
  | 0x1b, _ => some .sshr
  | 0x1c, _ => some .ssra
  | 0x1d, _ => some .scmp
  | 0x1e, _ => some .ssel
  | 0x1f, _ => some .smov
  | 0x20, _ => some .vadd
  | 0x21, _ => some .vsub
  | 0x22, _ => some .vadds
  | 0x23, _ => some .vsubs
  | 0x24, _ => some .vmul24
  | 0x25, _ => some .vmad24
  | 0x26, _ => some .vmul
  | 0x27, _ => some .vmulh
  | 0x28, _ => some .vmad
  | 0x29, _ => some .vmin
  | 0x2a, _ => some .vmax
  | 0x2b, _ => some .vabs
  | 0x2c, _ => some .vand
  | 0x2d, _ => some .vor
  | 0x2e, _ => some .vxor
  | 0x2f, _ => some .vnot
  | 0x30, _ => some .vshl
  | 0x31, _ => some .vshr
  | 0x32, _ => some .vsra
  | 0x33, _ => some .vrot
  | 0x34, _ => some .vbfe
  | 0x35, _ => some .vbfi
  | 0x36, _ => some .vpopc
  | 0x37, _ => some .vclz
  | 0x38, _ => some .vbrev
  | 0x39, _ => some .vcmp
  | 0x3a, _ => some .vsel
  | 0x3b, 1 => some .vmovBc
  | 0x3b, _ => some .vmov
  | 0x3c, _ => some .vfadd
  | 0x3d, _ => some .vfsub
  | 0x3e, _ => some .vfmul
  | 0x3f, _ => some .vffma
  | 0x40, _ => some .vfmin
  | 0x41, _ => some .vfmax
  | 0x42, _ => some .vfabs
  | 0x43, _ => some .vfneg
  | 0x44, _ => some .vfcmp
  | 0x45, _ => some .vfclass
  | 0x46, _ => some .vfrnd
  | 0x47, _ => some .vfscale
  | 0x48, _ => some .vfdot2
  | 0x49, _ => some .vcvt
  | 0x4a, _ => some .vbfpq
  | 0x4b, _ => some .vbfpx
  | 0x4c, _ => some .vshfl
  | 0x4d, 2 => some .vvoteBallot
  | 0x4d, _ => some .vvote
  | 0x4e, _ => some .vrdc
  | 0x4f, _ => some .vscan
  | 0x50, 0 => some .vbcast
  | 0x50, 1 => some .vbcastS
  | 0x51, _ => some .vmatch
  | 0x52, _ => some .plop
  | 0x53, 0 => some .pmovPs
  | 0x53, 1 => some .pmovSp
  | 0x54, _ => some .vld
  | 0x55, _ => some .vst
  | 0x56, _ => some .vlds
  | 0x57, _ => some .vsts
  | 0x58, _ => some .sld
  | 0x59, _ => some .sst
  | 0x5a, _ => some .vprf
  | 0x5b, 0 => some .cctlInv
  | 0x5b, 1 => some .cctlInvall
  | 0x5b, 2 => some .cctlEvict
  | 0x5c, 0 => some .tlbiVa
  | 0x5c, 1 => some .tlbiCtx
  | 0x5c, 2 => some .tlbiAll
  | 0x5d, 0 => some .migrMove
  | 0x5d, 1 => some .migrSet
  | 0x5d, 2 => some .migrQuery
  | 0x5e, _ => some .atom
  | 0x5f, _ => some .pot
  | 0x60, _ => some .acq
  | 0x61, _ => some .rel
  | 0x62, 0 => some .fenceRel
  | 0x62, 1 => some .fenceSc
  | 0x63, 0 => some .barArr
  | 0x63, 1 => some .barWait
  | 0x63, 2 => some .barSync
  | 0x63, 3 => some .barTest
  | 0x64, 0 => some .tktWait
  | 0x64, 1 => some .tktDone
  | 0x65, 0 => some .pass
  | 0x65, 1 => some .passTo
  | 0x66, _ => some .turn
  | 0x67, 0 => some .fshootVa
  | 0x67, 1 => some .fshootCtx
  | 0x68, _ => some .mma
  | 0x69, _ => some .accrd
  | 0x6a, _ => some .accwr
  | 0x6b, _ => some .accz
  | 0x6d, _ => some .cpslice
  | 0x6e, _ => some .cploop
  | 0x6f, _ => some .cpchain
  | 0x70, _ => some .cpacc
  | 0x71, _ => some .bfwait
  | 0x72, _ => some .bfrel
  | 0x73, 0 => some .vrcp
  | 0x73, 1 => some .vrsq
  | 0x73, 2 => some .vsqrt
  | 0x73, 3 => some .vexp2
  | 0x73, 4 => some .vlog2
  | 0x73, 5 => some .vsinpi
  | 0x73, 6 => some .vcospi
  | 0x73, 7 => some .vtanh
  | 0x73, 8 => some .vfdiv
  | 0x74, 0 => some .lxadd
  | 0x74, 1 => some .lxsub
  | 0x74, 2 => some .lxmul
  | 0x74, 3 => some .lxdiv
  | 0x74, 4 => some .lxcmp
  | 0x74, 5 => some .lxexp
  | 0x74, 6 => some .lxlog
  | 0x74, 7 => some .lxlvl
  | 0x75, _ => some .lxcvt
  | 0x76, _ => some .spawn
  | 0x77, 0 => some .invoke
  | 0x77, 1 => some .invokeh
  | 0x78, 0 => some .fwait
  | 0x78, 1 => some .fpoll
  | 0x79, 0 => some .fref
  | 0x79, 1 => some .fdrop
  | 0x79, 2 => some .fpin
  | 0x7a, 0 => some (if imm.getLsbD 8 then .fresPlace else .fresVal)
  | 0x7a, 1 => some .fbreak
  | 0x7b, _ => some .savept
  | 0x7c, 0 => some .digest
  | 0x7c, 1 => some .seed
  | _, _ => none

/-- The long instruction of an operation. -/
def Op.long : Op → Long → Instr
  | .nop, f => .nopLong f
  | .bra, f => .braLong f
  | .brc, f => .brcLong f
  | .brx, f => .brxLong f
  | .call, f => .call f
  | .callReg, f => .callReg f
  | .ret, f => .ret f
  | .mark, f => .mark f
  | .join, f => .joinLong f
  | .exit, f => .exitLong f
  | .rep, f => .rep f
  | .repReg, f => .repReg f
  | .rgn, f => .rgn f
  | .trap, f => .trap f
  | .bpt, f => .bpt f
  | .eret, f => .eret f
  | .srd, f => .srd f
  | .srdHi, f => .srdHi f
  | .swr, f => .swr f
  | .give, f => .give f
  | .claim, f => .claim f
  | .jmovToS, f => .jmovToS f
  | .jmovToJ, f => .jmovToJ f
  | .sadd, f => .saddLong f
  | .ssub, f => .ssubLong f
  | .smul, f => .smulLong f
  | .sand, f => .sandLong f
  | .sor, f => .sorLong f
  | .sxor, f => .sxorLong f
  | .sshl, f => .sshlLong f
  | .sshr, f => .sshrLong f
  | .ssra, f => .ssraLong f
  | .scmp, f => .scmpLong f
  | .ssel, f => .sselLong f
  | .smov, f => .smovLong f
  | .vadd, f => .vaddLong f
  | .vsub, f => .vsubLong f
  | .vadds, f => .vaddsLong f
  | .vsubs, f => .vsubsLong f
  | .vmul24, f => .vmul24Long f
  | .vmad24, f => .vmad24Long f
  | .vmul, f => .vmulLong f
  | .vmulh, f => .vmulhLong f
  | .vmad, f => .vmadLong f
  | .vmin, f => .vminLong f
  | .vmax, f => .vmaxLong f
  | .vabs, f => .vabsLong f
  | .vand, f => .vandLong f
  | .vor, f => .vorLong f
  | .vxor, f => .vxorLong f
  | .vnot, f => .vnotLong f
  | .vshl, f => .vshlLong f
  | .vshr, f => .vshrLong f
  | .vsra, f => .vsraLong f
  | .vrot, f => .vrotLong f
  | .vbfe, f => .vbfeLong f
  | .vbfi, f => .vbfiLong f
  | .vpopc, f => .vpopcLong f
  | .vclz, f => .vclzLong f
  | .vbrev, f => .vbrevLong f
  | .vcmp, f => .vcmpLong f
  | .vsel, f => .vselLong f
  | .vmov, f => .vmovLong f
  | .vmovBc, f => .vmovBc f
  | .vfadd, f => .vfaddLong f
  | .vfsub, f => .vfsubLong f
  | .vfmul, f => .vfmulLong f
  | .vffma, f => .vffma f
  | .vfmin, f => .vfmin f
  | .vfmax, f => .vfmax f
  | .vfabs, f => .vfabs f
  | .vfneg, f => .vfneg f
  | .vfcmp, f => .vfcmp f
  | .vfclass, f => .vfclass f
  | .vfrnd, f => .vfrnd f
  | .vfscale, f => .vfscale f
  | .vfdot2, f => .vfdot2 f
  | .vcvt, f => .vcvt f
  | .vbfpq, f => .vbfpq f
  | .vbfpx, f => .vbfpx f
  | .vshfl, f => .vshfl f
  | .vvote, f => .vvote f
  | .vvoteBallot, f => .vvoteBallot f
  | .vrdc, f => .vrdc f
  | .vscan, f => .vscan f
  | .vbcast, f => .vbcast f
  | .vbcastS, f => .vbcastS f
  | .vmatch, f => .vmatch f
  | .plop, f => .plop f
  | .pmovPs, f => .pmovPs f
  | .pmovSp, f => .pmovSp f
  | .vld, f => .vldLong f
  | .vst, f => .vstLong f
  | .vlds, f => .vlds f
  | .vsts, f => .vsts f
  | .sld, f => .sldLong f
  | .sst, f => .sstLong f
  | .vprf, f => .vprf f
  | .cctlInv, f => .cctlInv f
  | .cctlInvall, f => .cctlInvall f
  | .cctlEvict, f => .cctlEvict f
  | .tlbiVa, f => .tlbiVa f
  | .tlbiCtx, f => .tlbiCtx f
  | .tlbiAll, f => .tlbiAll f
  | .migrMove, f => .migrMove f
  | .migrSet, f => .migrSet f
  | .migrQuery, f => .migrQuery f
  | .atom, f => .atom f
  | .pot, f => .pot f
  | .acq, f => .acq f
  | .rel, f => .rel f
  | .fenceRel, f => .fenceRel f
  | .fenceSc, f => .fenceSc f
  | .barArr, f => .barArr f
  | .barWait, f => .barWait f
  | .barSync, f => .barSync f
  | .barTest, f => .barTest f
  | .tktWait, f => .tktWait f
  | .tktDone, f => .tktDone f
  | .pass, f => .pass f
  | .passTo, f => .passTo f
  | .turn, f => .turn f
  | .fshootVa, f => .fshootVa f
  | .fshootCtx, f => .fshootCtx f
  | .mma, f => .mma f
  | .accrd, f => .accrd f
  | .accwr, f => .accwr f
  | .accz, f => .accz f
  | .cpslice, f => .cpslice f
  | .cploop, f => .cploop f
  | .cpchain, f => .cpchain f
  | .cpacc, f => .cpacc f
  | .bfwait, f => .bfwait f
  | .bfrel, f => .bfrel f
  | .vrcp, f => .vrcp f
  | .vrsq, f => .vrsq f
  | .vsqrt, f => .vsqrt f
  | .vexp2, f => .vexp2 f
  | .vlog2, f => .vlog2 f
  | .vsinpi, f => .vsinpi f
  | .vcospi, f => .vcospi f
  | .vtanh, f => .vtanh f
  | .vfdiv, f => .vfdiv f
  | .lxadd, f => .lxadd f
  | .lxsub, f => .lxsub f
  | .lxmul, f => .lxmul f
  | .lxdiv, f => .lxdiv f
  | .lxcmp, f => .lxcmp f
  | .lxexp, f => .lxexp f
  | .lxlog, f => .lxlog f
  | .lxlvl, f => .lxlvl f
  | .lxcvt, f => .lxcvt f
  | .spawn, f => .spawn f
  | .invoke, f => .invoke f
  | .invokeh, f => .invokeh f
  | .fwait, f => .fwait f
  | .fpoll, f => .fpoll f
  | .fref, f => .fref f
  | .fdrop, f => .fdrop f
  | .fpin, f => .fpin f
  | .fresVal, f => .fresVal f
  | .fresPlace, f => .fresPlace f
  | .fbreak, f => .fbreak f
  | .savept, f => .savept f
  | .digest, f => .digest f
  | .seed, f => .seed f

open Dec in
/-- Decodes a long form; `lit` is present with `LEN` = 0b11. -/
def decodeLong (w0 w1 w2 : Word) (lit : Option (BitVec 64)) : Except DecodeError Instr :=
  match unpack w0 w1 w2 lit with
  | none => .error .badType
  | some f =>
    match opOf (field w0 4 7).toNat f.fn.toNat w2 with
    | none => .error .badMajor
    | some o => if o.legal f then .ok (o.long f) else .error .illegal

open Dec in
/-- Decodes a short form; `lit` is present with `LEN` = 0b10. -/
def decodeShort (w : Word) (lit : Option (BitVec 64)) : Except DecodeError Instr :=
  match shortOf (field w 4 7).toNat w lit with
  | none => .error .badShort
  | some i => if i.wf then .ok i else .error .illegal

open Dec in
/-- How many words the first word announces (R40). -/
def wordCount (w : Word) : Nat :=
  match (field w 0 2).toNat with
  | 0 => 1
  | 3 => 5
  | _ => 3

open Dec in
/-- Decodes the first instruction of a list of words, and returns the words after it. -/
def decode : List Word → Except DecodeError (Instr × List Word)
  | [] => .error .truncated
  | w :: ws =>
    match (field w 0 2).toNat, ws with
    | 0, r => (decodeShort w none).map (·, r)
    | 1, w1 :: w2 :: r => (decodeLong w w1 w2 none).map (·, r)
    | 2, l0 :: l1 :: r => (decodeShort w (some (literal l0 l1))).map (·, r)
    | 3, w1 :: w2 :: l0 :: l1 :: r => (decodeLong w w1 w2 (some (literal l0 l1))).map (·, r)
    | _, _ => .error .truncated

/-- The word of four bytes, lowest address first (R3). -/
def wordOfBytes (b0 b1 b2 b3 : Byte) : Word := b3 ++ b2 ++ b1 ++ b0

/-- The words of a list of bytes; bytes after the last whole word are left out. -/
def wordsOfBytes : List Byte → List Word
  | b0 :: b1 :: b2 :: b3 :: r => wordOfBytes b0 b1 b2 b3 :: wordsOfBytes r
  | _ => []

/-- The four bytes of a word, lowest address first (R3). -/
def bytesOfWord (w : Word) : List Byte :=
  [w.extractLsb' 0 8, w.extractLsb' 8 8, w.extractLsb' 16 8, w.extractLsb' 24 8]

namespace Enc

/-- The first-word fields (R40): `LEN`, flags and `MAJ` in bits [10:0]. -/
def head (maj : Nat) (fl : Flags) (len : BitVec 2) : BitVec 11 :=
  BitVec.ofNat 7 maj ++ BitVec.ofBool fl.en ++ BitVec.ofBool fl.pk ++ len

def litWords : Option (BitVec 64) → List Word
  | none => []
  | some l => [l.extractLsb' 0 32, l.extractLsb' 32 32]

def lenOf (base : BitVec 2) (lit : Option (BitVec 64)) : BitVec 2 := if lit.isSome then base + 2 else base

/-- The words of a long form (R47). -/
def long (maj : Nat) (f : Long) : List Word :=
  [BitVec.ofNat 5 f.ty.code ++ f.fn ++ f.d ++ head maj f.fl (lenOf 1 f.lit),
   f.mod ++ BitVec.ofBool f.neg ++ f.pred ++ f.c ++ f.b ++ f.a,
   f.imm] ++ litWords f.lit

/-- The words of the short forms (R44). -/
def shortR (maj : Nat) (f : ShortR) : List Word :=
  (f.b ++ f.a ++ f.d ++ head maj f.fl (lenOf 0 f.lit) : Word) :: litWords f.lit
def shortI (maj : Nat) (f : ShortI) : List Word :=
  (f.imm7 ++ f.a ++ f.d ++ head maj f.fl (lenOf 0 f.lit) : Word) :: litWords f.lit
def shortM (maj : Nat) (f : ShortM) : List Word := [f.off7 ++ f.base ++ f.data ++ head maj f.fl 0]
def shortB (maj : Nat) (f : ShortB) : List Word := [f.off21 ++ head maj f.fl 0]
def shortC (maj : Nat) (f : ShortC) : List Word := [f.off17 ++ BitVec.ofBool f.neg ++ f.pred ++ head maj f.fl 0]
def shortA (maj : Nat) (f : ShortA) : List Word := [(0 : BitVec 7) ++ f.a ++ (0 : BitVec 7) ++ head maj f.fl 0]
def shortZ (maj : Nat) (f : ShortZ) : List Word := [(0 : BitVec 21) ++ head maj f.fl 0]

end Enc

/-- The words of an instruction, from the same encoding tables; an event has none. -/
def encode : Instr → List Word
  | .nopShort f => Enc.shortZ 0x00 f
  | .nopLong f => Enc.long 0x00 f
  | .braShort f => Enc.shortB 0x01 f
  | .braLong f => Enc.long 0x01 f
  | .brcShort f => Enc.shortC 0x02 f
  | .brcLong f => Enc.long 0x02 f
  | .brxShort f => Enc.shortA 0x03 f
  | .brxLong f => Enc.long 0x03 f
  | .call f => Enc.long 0x04 f
  | .callReg f => Enc.long 0x04 f
  | .ret f => Enc.long 0x05 f
  | .mark f => Enc.long 0x06 f
  | .joinShort f => Enc.shortA 0x07 f
  | .joinLong f => Enc.long 0x07 f
  | .exitShort f => Enc.shortZ 0x08 f
  | .exitLong f => Enc.long 0x08 f
  | .rep f => Enc.long 0x09 f
  | .repReg f => Enc.long 0x09 f
  | .rgn f => Enc.long 0x0a f
  | .trap f => Enc.long 0x0b f
  | .bpt f => Enc.long 0x0c f
  | .eret f => Enc.long 0x0d f
  | .srd f => Enc.long 0x0e f
  | .srdHi f => Enc.long 0x0e f
  | .swr f => Enc.long 0x0f f
  | .give f => Enc.long 0x10 f
  | .claim f => Enc.long 0x11 f
  | .jmovToS f => Enc.long 0x12 f
  | .jmovToJ f => Enc.long 0x12 f
  | .saddShort f => Enc.shortI 0x14 f
  | .saddLong f => Enc.long 0x14 f
  | .ssubShort f => Enc.shortI 0x15 f
  | .ssubLong f => Enc.long 0x15 f
  | .smulShort f => Enc.shortI 0x16 f
  | .smulLong f => Enc.long 0x16 f
  | .sandShort f => Enc.shortI 0x17 f
  | .sandLong f => Enc.long 0x17 f
  | .sorShort f => Enc.shortI 0x18 f
  | .sorLong f => Enc.long 0x18 f
  | .sxorShort f => Enc.shortI 0x19 f
  | .sxorLong f => Enc.long 0x19 f
  | .sshlShort f => Enc.shortI 0x1a f
  | .sshlLong f => Enc.long 0x1a f
  | .sshrShort f => Enc.shortI 0x1b f
  | .sshrLong f => Enc.long 0x1b f
  | .ssraShort f => Enc.shortI 0x1c f
  | .ssraLong f => Enc.long 0x1c f
  | .scmpShort f => Enc.shortI 0x1d f
  | .scmpLong f => Enc.long 0x1d f
  | .sselShort f => Enc.shortI 0x1e f
  | .sselLong f => Enc.long 0x1e f
  | .smovShort f => Enc.shortI 0x1f f
  | .smovLong f => Enc.long 0x1f f
  | .vaddShort f => Enc.shortR 0x20 f
  | .vaddLong f => Enc.long 0x20 f
  | .vsubShort f => Enc.shortR 0x21 f
  | .vsubLong f => Enc.long 0x21 f
  | .vaddsShort f => Enc.shortR 0x22 f
  | .vaddsLong f => Enc.long 0x22 f
  | .vsubsShort f => Enc.shortR 0x23 f
  | .vsubsLong f => Enc.long 0x23 f
  | .vmul24Short f => Enc.shortR 0x24 f
  | .vmul24Long f => Enc.long 0x24 f
  | .vmad24Short f => Enc.shortR 0x25 f
  | .vmad24Long f => Enc.long 0x25 f
  | .vmulShort f => Enc.shortR 0x26 f
  | .vmulLong f => Enc.long 0x26 f
  | .vmulhShort f => Enc.shortR 0x27 f
  | .vmulhLong f => Enc.long 0x27 f
  | .vmadShort f => Enc.shortR 0x28 f
  | .vmadLong f => Enc.long 0x28 f
  | .vminShort f => Enc.shortR 0x29 f
  | .vminLong f => Enc.long 0x29 f
  | .vmaxShort f => Enc.shortR 0x2a f
  | .vmaxLong f => Enc.long 0x2a f
  | .vabsShort f => Enc.shortR 0x2b f
  | .vabsLong f => Enc.long 0x2b f
  | .vandShort f => Enc.shortR 0x2c f
  | .vandLong f => Enc.long 0x2c f
  | .vorShort f => Enc.shortR 0x2d f
  | .vorLong f => Enc.long 0x2d f
  | .vxorShort f => Enc.shortR 0x2e f
  | .vxorLong f => Enc.long 0x2e f
  | .vnotShort f => Enc.shortR 0x2f f
  | .vnotLong f => Enc.long 0x2f f
  | .vshlShort f => Enc.shortR 0x30 f
  | .vshlLong f => Enc.long 0x30 f
  | .vshrShort f => Enc.shortR 0x31 f
  | .vshrLong f => Enc.long 0x31 f
  | .vsraShort f => Enc.shortR 0x32 f
  | .vsraLong f => Enc.long 0x32 f
  | .vrotShort f => Enc.shortR 0x33 f
  | .vrotLong f => Enc.long 0x33 f
  | .vbfeShort f => Enc.shortR 0x34 f
  | .vbfeLong f => Enc.long 0x34 f
  | .vbfiShort f => Enc.shortR 0x35 f
  | .vbfiLong f => Enc.long 0x35 f
  | .vpopcShort f => Enc.shortR 0x36 f
  | .vpopcLong f => Enc.long 0x36 f
  | .vclzShort f => Enc.shortR 0x37 f
  | .vclzLong f => Enc.long 0x37 f
  | .vbrevShort f => Enc.shortR 0x38 f
  | .vbrevLong f => Enc.long 0x38 f
  | .vcmpShort f => Enc.shortR 0x39 f
  | .vcmpLong f => Enc.long 0x39 f
  | .vselShort f => Enc.shortR 0x3a f
  | .vselLong f => Enc.long 0x3a f
  | .vmovShort f => Enc.shortR 0x3b f
  | .vmovLong f => Enc.long 0x3b f
  | .vmovBc f => Enc.long 0x3b f
  | .vfaddShort f => Enc.shortR 0x3c f
  | .vfaddLong f => Enc.long 0x3c f
  | .vfsubShort f => Enc.shortR 0x3d f
  | .vfsubLong f => Enc.long 0x3d f
  | .vfmulShort f => Enc.shortR 0x3e f
  | .vfmulLong f => Enc.long 0x3e f
  | .vffma f => Enc.long 0x3f f
  | .vfmin f => Enc.long 0x40 f
  | .vfmax f => Enc.long 0x41 f
  | .vfabs f => Enc.long 0x42 f
  | .vfneg f => Enc.long 0x43 f
  | .vfcmp f => Enc.long 0x44 f
  | .vfclass f => Enc.long 0x45 f
  | .vfrnd f => Enc.long 0x46 f
  | .vfscale f => Enc.long 0x47 f
  | .vfdot2 f => Enc.long 0x48 f
  | .vcvt f => Enc.long 0x49 f
  | .vbfpq f => Enc.long 0x4a f
  | .vbfpx f => Enc.long 0x4b f
  | .vshfl f => Enc.long 0x4c f
  | .vvote f => Enc.long 0x4d f
  | .vvoteBallot f => Enc.long 0x4d f
  | .vrdc f => Enc.long 0x4e f
  | .vscan f => Enc.long 0x4f f
  | .vbcast f => Enc.long 0x50 f
  | .vbcastS f => Enc.long 0x50 f
  | .vmatch f => Enc.long 0x51 f
  | .plop f => Enc.long 0x52 f
  | .pmovPs f => Enc.long 0x53 f
  | .pmovSp f => Enc.long 0x53 f
  | .vldShort f => Enc.shortM 0x54 f
  | .vldLong f => Enc.long 0x54 f
  | .vstShort f => Enc.shortM 0x55 f
  | .vstLong f => Enc.long 0x55 f
  | .vlds f => Enc.long 0x56 f
  | .vsts f => Enc.long 0x57 f
  | .sldShort f => Enc.shortM 0x58 f
  | .sldLong f => Enc.long 0x58 f
  | .sstShort f => Enc.shortM 0x59 f
  | .sstLong f => Enc.long 0x59 f
  | .vprf f => Enc.long 0x5a f
  | .cctlInv f => Enc.long 0x5b f
  | .cctlInvall f => Enc.long 0x5b f
  | .cctlEvict f => Enc.long 0x5b f
  | .tlbiVa f => Enc.long 0x5c f
  | .tlbiCtx f => Enc.long 0x5c f
  | .tlbiAll f => Enc.long 0x5c f
  | .migrMove f => Enc.long 0x5d f
  | .migrSet f => Enc.long 0x5d f
  | .migrQuery f => Enc.long 0x5d f
  | .atom f => Enc.long 0x5e f
  | .pot f => Enc.long 0x5f f
  | .acq f => Enc.long 0x60 f
  | .rel f => Enc.long 0x61 f
  | .fenceRel f => Enc.long 0x62 f
  | .fenceSc f => Enc.long 0x62 f
  | .barArr f => Enc.long 0x63 f
  | .barWait f => Enc.long 0x63 f
  | .barSync f => Enc.long 0x63 f
  | .barTest f => Enc.long 0x63 f
  | .tktWait f => Enc.long 0x64 f
  | .tktDone f => Enc.long 0x64 f
  | .pass f => Enc.long 0x65 f
  | .passTo f => Enc.long 0x65 f
  | .turn f => Enc.long 0x66 f
  | .fshootVa f => Enc.long 0x67 f
  | .fshootCtx f => Enc.long 0x67 f
  | .mma f => Enc.long 0x68 f
  | .accrd f => Enc.long 0x69 f
  | .accwr f => Enc.long 0x6a f
  | .accz f => Enc.long 0x6b f
  | .cpslice f => Enc.long 0x6d f
  | .cploop f => Enc.long 0x6e f
  | .cpchain f => Enc.long 0x6f f
  | .cpacc f => Enc.long 0x70 f
  | .bfwait f => Enc.long 0x71 f
  | .bfrel f => Enc.long 0x72 f
  | .vrcp f => Enc.long 0x73 f
  | .vrsq f => Enc.long 0x73 f
  | .vsqrt f => Enc.long 0x73 f
  | .vexp2 f => Enc.long 0x73 f
  | .vlog2 f => Enc.long 0x73 f
  | .vsinpi f => Enc.long 0x73 f
  | .vcospi f => Enc.long 0x73 f
  | .vtanh f => Enc.long 0x73 f
  | .vfdiv f => Enc.long 0x73 f
  | .lxadd f => Enc.long 0x74 f
  | .lxsub f => Enc.long 0x74 f
  | .lxmul f => Enc.long 0x74 f
  | .lxdiv f => Enc.long 0x74 f
  | .lxcmp f => Enc.long 0x74 f
  | .lxexp f => Enc.long 0x74 f
  | .lxlog f => Enc.long 0x74 f
  | .lxlvl f => Enc.long 0x74 f
  | .lxcvt f => Enc.long 0x75 f
  | .spawn f => Enc.long 0x76 f
  | .invoke f => Enc.long 0x77 f
  | .invokeh f => Enc.long 0x77 f
  | .fwait f => Enc.long 0x78 f
  | .fpoll f => Enc.long 0x78 f
  | .fref f => Enc.long 0x79 f
  | .fdrop f => Enc.long 0x79 f
  | .fpin f => Enc.long 0x79 f
  | .fresVal f => Enc.long 0x7a f
  | .fresPlace f => Enc.long 0x7a f
  | .fbreak f => Enc.long 0x7a f
  | .savept f => Enc.long 0x7b f
  | .digest f => Enc.long 0x7c f
  | .seed f => Enc.long 0x7c f
  | _ => []

/-- The words of an instruction whose bits, numbered as the opcode table numbers them, are `w`: `nbits` bits are
given and every bit above them, up to the longest instruction, is 0. -/
def tableWords (nbits w : Nat) : List Word :=
  (List.range 5).map fun k => BitVec.ofNat 32 (w % 2 ^ nbits / 2 ^ (32 * k))

/-- What the decoder reads from those words; they lie in memory as the hardware stores them (R3). -/
def decodeTableWord (nbits w : Nat) : Option Instr :=
  match decode (wordsOfBytes ((tableWords nbits w).flatMap bytesOfWord)) with
  | .ok (i, _) => some i
  | .error _ => none

end Sys2Proof
end

