-- ==== Sys2Proof/Machine/Fetch.lean ====
section
/-! DEFINITION. Instruction fetch (R41, R43): the words of an instruction read through translation from pages with
`V` = 1 and `W` = 0, by way of the core's instruction cache (R10), which a data store never updates (R43). What a fetch finds beyond
the cache is memory, in turn mode as the settled image of the warp's round shows it (R1, R8; log 10). -/

namespace Sys2Proof.Machine

/-- What a fetch gives. -/
inductive Fetched where
  /-- Page fault of kind invalid at an address, and the secure address that stopped it where one did (R377). -/
  | fault (addr : Dword) (secure : Option Nat)
  /-- The home of a forwarded fetch refuses it (R346, R377): the address, its key and the kind. -/
  | refused (addr : Dword) (key kind : Nat)
  /-- The words are no instruction (R60). -/
  | illegal
  | ok (i : Instr) (len : Nat)
  deriving DecidableEq, Repr

/-- Lines of the 64 KiB instruction cache. -/
def icLines : Nat := 512

/-- The clock of the settled image that a turn-mode warp fetches from; none in free mode. -/
def codeMark (w : Warp) : Option Nat := if w.turn then some (w.clock / w.quantum * w.quantum) else none

/-- What a fetch finds beyond the instruction cache. -/
def codeMem (s : State) (z : Site) (at_ : Option Nat) : Memory :=
  match at_ with
  | some c => image s (domOf s z.part) (c, 0)
  | none => s.mem

/-- The line of the instruction cache that holds a key for an image. -/
def icFind (s : State) (z : Site) (at_ : Option Nat) (key : Nat) : Option (List Byte) :=
  z.core.bind fun n =>
    ((getCore (getChip s (chipOf z.part)) n).icache.find? fun x => x.1 == lineOf key && x.2.1 == at_).map fun x => x.2.2

/-- The four bytes of an instruction word at a key: as the instruction cache holds them, or at the home slice. -/
def icWord (s : State) (z : Site) (at_ : Option Nat) (key : Nat) : Word :=
  match icFind s z at_ key with
  | some x => BitVec.ofNat 32 (leNat ((x.drop (key % lineSize)).take 4))
  | none => BitVec.ofNat 32 (rdNat (codeMem s z at_) key 4)

/-- The home refuses the fetch of a word that the instruction cache does not hold (R346, R377). -/
def fetchRefused (s : State) (z : Site) (at_ : Option Nat) (sec : Bool) (key : Nat) : Option Nat :=
  if (icFind s z at_ key).isSome then none else homeRefuses s (chipOf z.part) sec key

/-- One instruction word (R41, R43); bits [63:57] of its address are zero (R88). An error is what the fetch gives instead. -/
def fetchWord (s : State) (z : Site) (at_ : Option Nat) (sec : Bool) (a : Dword) : Except Fetched Word :=
  if decide (2 ^ 56 ≤ a.toNat) then .error (.fault a none)
  else match translate s z sec .load a.toNat 4 with
    | .error e => .error (.fault a e.secure)
    | .ok x =>
      if (findXlat s z a.toNat).any fun t => leafW t.leaf then .error (.fault a none)
      else match fetchRefused s z at_ sec x.key with
        | some kd => .error (.refused a x.key kd)
        | none => .ok (icWord s z at_ x.key)

/-- `n` words from an address upwards, or the address of the first that faults. -/
def fetchWords (s : State) (z : Site) (at_ : Option Nat) (sec : Bool) : Nat → Dword → Except Fetched (List Word)
  | 0, _ => .ok []
  | n + 1, a =>
    match fetchWord s z at_ sec a with
    | .error e => .error e
    | .ok x =>
      match fetchWords s z at_ sec n (a + 4) with
      | .error e => .error e
      | .ok r => .ok (x :: r)

/-- The instruction at an address (check 1 of R59). -/
def fetchAt (s : State) (z : Site) (at_ : Option Nat) (sec : Bool) (pc : Dword) : Fetched :=
  match fetchWord s z at_ sec pc with
  | .error e => e
  | .ok x =>
    let n := wordCount x
    match fetchWords s z at_ sec n pc with
    | .error e => e
    | .ok ws =>
      match decode ws with
      | .ok (i, _) => .ok i (4 * n)
      | .error _ => .illegal

/-- A fetch from an address installs its translation (R155) and brings the line into the core's instruction cache. -/
def fillLine (s : State) (z : Site) (at_ : Option Nat) (a : Nat) : State :=
  match findXlat s z a, z.core with
  | some t, some n =>
    let s := install s z a
    let key := xlatKey s z.part t a
    if (icFind s z at_ key).isSome then s
    else
      let c := chipOf z.part
      let s := sliceTouch s false 0 key
      let co := getCore (getChip s c) n
      setChip s c (setCore (getChip s c) n { co with
        icache := pushIn icLines co.icache (lineOf key, at_, rdBytes (codeMem s z at_) (lineOf key) lineSize) })
  | _, _ => s

/-- The lines of an instruction of `len` bytes at an address. -/
def fillFrom (s : State) (z : Site) (at_ : Option Nat) (pc : Dword) (len : Nat) : State :=
  let s := fillLine s z at_ pc.toNat
  let last := (pc + BitVec.ofNat 64 (len - 4)).toNat
  if lineOf last = lineOf pc.toNat then s else fillLine s z at_ last

end Sys2Proof.Machine
end

