-- ==== Sys2Proof/Machine/Operands.lean ====
section
/-! DEFINITION. Operands: which registers an instruction names and how (checks of R59, R76, R92, R96), the guard (R22,
R49), the elements of its operands (R52, R125) and their results. -/

namespace Sys2Proof.Machine

open Sys2Proof.Forms

/-! ## Named registers -/

/-- A class of registers as R88 numbers it. -/
inductive Cls where
  | v | s | p
  deriving DecidableEq, Repr

def clsCode : Cls → Nat
  | .v => 0 | .s => 1 | .p => 2

/-- Registers that an instruction names: `cnt` of them from `num`, in operand field `fld` (0 `D`, 1 `A`, 2 `B`, 3 `C`,
4 elsewhere), read, written, or both. -/
structure Role where
  cls : Cls
  num : Nat
  cnt : Nat
  fld : Nat
  rd : Bool
  wr : Bool
  deriving DecidableEq, Repr

/-- The register identifiers (R88) of a role. -/
def roleIds (r : Role) : List Nat := (List.range r.cnt).map fun i => clsCode r.cls * 256 + r.num + i

/-- The role of an operand field by its class (R51, R52). -/
def fieldRole (t : Ty) (k : Fld) (n fld : Nat) (rd wr : Bool) : List Role :=
  match k with
  | .v => [{ cls := .v, num := n, cnt := if pair t then 2 else 1, fld := fld, rd := rd, wr := wr }]
  | .v1 => [{ cls := .v, num := n, cnt := 1, fld := fld, rd := rd, wr := wr }]
  | .s => [{ cls := .s, num := n, cnt := 1, fld := fld, rd := rd, wr := wr }]
  | .p => [{ cls := .p, num := n, cnt := 1, fld := fld, rd := rd, wr := wr }]
  | .z | .j | .buf | .code => []

def vRole (n cnt fld : Nat) (rd wr : Bool) : Role := { cls := .v, num := n, cnt := cnt, fld := fld, rd := rd, wr := wr }
def sRole (n cnt fld : Nat) (rd wr : Bool) : Role := { cls := .s, num := n, cnt := cnt, fld := fld, rd := rd, wr := wr }
def pRole (n : Nat) (rd wr : Bool) : Role := { cls := .p, num := n, cnt := 1, fld := 4, rd := rd, wr := wr }

def span (t : Ty) : Nat := if pair t then 2 else 1

/-- How `D` is used: (read, written). -/
def dUse (o : Op) (f : Long) : Bool × Bool :=
  match o with
  | .vst | .vsts | .sst => (true, false)
  | .mma => (true, false)
  | .atom => (atomOp f == 7, !atomNr f)
  | _ => (false, true)

/-- Registers of `D`. -/
def dRoles (o : Op) (f : Long) : List Role :=
  let n := f.d.toNat
  let (rd, wr) := dUse o f
  match o with
  | .srd => if f.a = 0 then [vRole n 1 0 rd wr] else [sRole n 1 0 rd wr]
  | .vcvt => [vRole n (span f.ty) 0 rd wr]
  | .vbfpq => [vRole n ((f.ty.code - 14 + 1) / 2) 0 rd wr]
  | .vbfpx => [vRole n 16 0 rd wr]
  | .accrd => [vRole n (if pairAcc f.ty then 2 * accN f else accN f) 0 rd wr]
  | .fwait | .fpoll => [sRole n 9 0 rd wr]
  | .atom => if atomNr f then [] else fieldRole f.ty .v n 0 rd wr
  | _ => fieldRole f.ty o.form.d n 0 rd wr

/-- Registers of `A`. -/
def aRoles (o : Op) (f : Long) : List Role :=
  let n := f.a.toNat
  match o with
  | .vcvt => match Ty.ofCode f.c.toNat with
    | some t => [vRole n (span t) 1 true false]
    | none => []
  | .vbfpq => [vRole n 16 1 true false]
  | .vbfpx => [vRole n ((f.ty.code - 14 + 1) / 2) 1 true false]
  | .accwr => [vRole n (if pairAcc f.ty then 2 * accN f else accN f) 1 true false]
  | .lxcvt => match Ty.ofCode f.fn.toNat with
    | some t => [vRole n (span t) 1 true false]
    | none => []
  | _ => fieldRole f.ty o.form.a n 1 true false

/-- A conversion to a packed type from a 32- or 64-bit one reads a second register (R138). -/
def vcvtTwo (f : Long) : Bool :=
  match Ty.ofCode f.c.toNat with
  | some t => (f.ty == .f16 || f.ty == .bf16) && !(t == .f16 || t == .bf16)
  | none => false

/-- Registers of `B`, when it is no literal. -/
def bRoles (o : Op) (f : Long) : List Role :=
  let n := f.b.toNat
  if f.lit.isSome then []
  else match o with
    | .vcvt => match vcvtTwo f, Ty.ofCode f.c.toNat with
      | true, some t => [vRole n (span t) 2 true false]
      | _, _ => []
    | .vlds | .vsts => if f.fn = 0 then [vRole n 1 2 true false] else [sRole n 1 2 true false]
    | .vprf => if f.fn = 0 then [] else if f.fn = 1 then [vRole n 1 2 true false] else [sRole n 1 2 true false]
    | _ => fieldRole f.ty o.form.b n 2 true false

/-- Registers of `C`. -/
def cRoles (o : Op) (f : Long) : List Role :=
  let n := f.c.toNat
  match o with
  | .vbfpq => [vRole n 1 3 true true]
  | .cpchain => [sRole n 7 3 true false]
  | .mma => [sRole n 2 3 true false]
  | _ => fieldRole f.ty o.form.c n 3 true false

/-- Registers named outside the operand fields: the scales and triangle of `MMA`, the predicate of `PW`, the guard. -/
def xRoles (o : Op) (f : Long) : List Role :=
  (match o with
   | .mma => (if isBfp f.ty then [vRole (mmaVsa f) 2 4 true false, vRole (mmaVsb f) 2 4 true false] else []) ++
       (if mmaTri f then [sRole (mmaT f) 3 4 true false] else [])
   | .lxadd | .lxsub | .lxmul | .lxdiv | .lxexp | .lxlog =>
       if f.imm.getLsbD 3 then [pRole (f.imm.toNat % 8) false true] else []
   | _ => []) ++
  (if o.form.guard && f.pred != 0 then [pRole f.pred.toNat true false] else [])

/-- Every register that an instruction names, in the order of R92. -/
def roles (o : Op) (f : Long) : List Role := dRoles o f ++ aRoles o f ++ bRoles o f ++ cRoles o f ++ xRoles o f

/-- `s0` and `p0` hold no result. -/
def realReg (id : Nat) : Bool := id != 256 && id != 512
def readIds (o : Op) (f : Long) : List Nat := ((roles o f).filter (·.rd)).flatMap roleIds |>.filter realReg
def writeIds (o : Op) (f : Long) : List Nat := ((roles o f).filter (·.wr)).flatMap roleIds |>.filter realReg

/-- Vector registers below this number are the warp's (R23, R51). -/
def vLimit (w : Warp) : Nat := min w.allot 255

/-- Check 4 of R59: the first vector register named at or above the allotment. -/
def rangeFault (w : Warp) (o : Op) (f : Long) : Option Nat :=
  (roles o f).findSome? fun r =>
    if r.cls = .v ∧ vLimit w < r.num + r.cnt then some (max r.num (vLimit w)) else none

/-- The unparked-hazard check (R76): the first named register that holds an outstanding result, in the order of `roles`:
`D`, `A`, `B`, `C`, then what the operation names beside them (log 81). -/
def hazard (w : Warp) (o : Op) (f : Long) : Option Nat :=
  ((roles o f).flatMap roleIds).find? fun id => realReg id && w.outst.contains id

/-! ## Active lanes (R22, R49) -/

/-- The lanes of the issuing fragment on which the guard holds. -/
def active (w : Warp) (o : Op) (f : Long) : BitVec 64 :=
  if o.form.guard then
    let m := rdP w f.pred.toNat
    curLanes w &&& (if f.neg then ~~~m else m)
  else curLanes w

def activeL (w : Warp) (o : Op) (f : Long) : List Nat := lanesOf (active w o f)

/-! ## Elements (R125) -/

/-- The register, or pair, of a lane as a number. -/
def rdReg (w : Warp) (t : Ty) (r l : Nat) : Nat := if pair t then (rdVV w r l).toNat else (rdV w r l).toNat
def wrReg (w : Warp) (t : Ty) (r l : Nat) (x : Nat) : Warp :=
  if pair t then wrVV w r l (BitVec.ofNat 64 x) else wrV w r l (BitVec.ofNat 32 x)

/-- The second operand of a lane, or the literal (R48). -/
def rdB (w : Warp) (t : Ty) (f : Long) (l : Nat) : Nat :=
  match f.lit with
  | some x => if pair t then x.toNat else x.toNat % 2 ^ 32
  | none => rdReg w t f.b.toNat l

/-- The second operand as one 32-bit register, whatever the type ("i32 index"). -/
def rdB1 (w : Warp) (f : Long) (l : Nat) : Nat :=
  match f.lit with
  | some x => x.toNat % 2 ^ 32
  | none => (rdV w f.b.toNat l).toNat

/-- The second operand of a scalar instruction. -/
def rdSB (w : Warp) (f : Long) : Dword := match f.lit with | some x => x | none => rdS w f.b.toNat

/-- Elements per register, and element k of a register. -/
def perReg (t : Ty) : Nat := if tyBits t < 32 then 32 / tyBits t else 1
def elemOf (t : Ty) (x k : Nat) : Nat := x / 2 ^ (tyBits t * k) % 2 ^ tyBits t

/-- Applies an operation on elements to whole registers; results and flags. -/
def mapElems (t : Ty) (op : Nat → Nat → Nat → Nat × Nat) (a b c : Nat) : Nat × Nat :=
  ((List.range (perReg t)).map fun k =>
    let (x, fl) := op (elemOf t a k) (elemOf t b k) (elemOf t c k)
    (x % 2 ^ tyBits t * 2 ^ (tyBits t * k), fl)).foldl (fun a e => (a.1 + e.1, a.2 ||| e.2)) (0, 0)

/-- Writes one result register per lane, with the union of flags raised; every source is read from `w`. -/
def perLane (w : Warp) (ls : List Nat) (t : Ty) (d : Nat) (g : Nat → Nat × Nat) : Warp :=
  ls.foldl (fun x l => raiseFp (wrReg x t d l (g l).1) (g l).2) w

/-- An element-wise instruction (R125). -/
def elementwise (w : Warp) (o : Op) (f : Long) (op : Nat → Nat → Nat → Nat × Nat) : Warp :=
  perLane w (activeL w o f) f.ty f.d.toNat fun l =>
    mapElems f.ty op (rdReg w f.ty f.a.toNat l) (rdB w f.ty f l)
      (if o.form.c = .v then rdReg w f.ty f.c.toNat l else 0)

/-- Writes a predicate bit in each lane. -/
def perLaneP (w : Warp) (ls : List Nat) (d : Nat) (g : Nat → Bool × Nat) : Warp :=
  ls.foldl (fun x l => raiseFp (wrPBit x d l (g l).1) (g l).2) w

/-! ## Repeat strides (R90) -/

/-- The stride of operand field `fld`: a signed 4-bit field of `REP`'s `IMM32`. -/
def strideOf (imm : Word) (fld : Nat) : Int := intOf true 4 (imm.toNat / 2 ^ (16 + 4 * fld))

/-- The role of an operand field that a stride can step. -/
def stepRole (o : Op) (f : Long) (fld : Nat) : Option Role :=
  (roles o f).find? fun r => r.fld == fld && (r.cls == .v || r.cls == .s)

/-- A field of a 64-bit type (R90): a vector field that names even-odd pairs of registers (R52, log 71). -/
def wideField (o : Op) (f : Long) (r : Role) : Bool :=
  r.cls == .v && match o, r.fld with
    | .vcvt, 0 => pair f.ty
    | .vcvt, _ => (Ty.ofCode f.c.toNat).any pair
    | .lxcvt, 1 => (Ty.ofCode f.fn.toNat).any pair
    | .accrd, _ | .accwr, _ => pairAcc f.ty
    | _, _ => r.cnt == 2 && pair f.ty

/-- The strides are legal for the target (R90). -/
def stridesOk (imm : Word) (o : Op) (f : Long) : Bool :=
  (List.range 4).all fun fld =>
    let st := strideOf imm fld
    st == 0 || match stepRole o f fld with
      | none => false
      | some r => !wideField o f r || st % 2 == 0

/-- The target of repetition i: each strided field stepped. -/
def stepTarget (imm : Word) (f : Long) (i : Nat) : Long :=
  let mv (x : BitVec 8) (fld : Nat) : BitVec 8 := x + BitVec.ofInt 8 (strideOf imm fld * i)
  { f with d := mv f.d 0, a := mv f.a 1, b := mv f.b 2, c := mv f.c 3 }

/-- The first offending identifier of R92, as a number that may be negative. -/
def strideFault (w : Warp) (imm : Word) (count : Nat) (o : Op) (f : Long) : Option Int :=
  if count = 0 then none
  else (roles o f).findSome? fun r =>
    let st := if r.fld < 4 ∧ r.cls ≠ .p then strideOf imm r.fld else 0
    let bad (x : Int) : Option Int :=
      let base : Int := clsCode r.cls * 256
      match r.cls with
      | .v => if x < 0 ∨ (vLimit w : Int) ≤ x then some (base + x)
              else if (vLimit w : Int) < x + r.cnt then some (base + vLimit w) else none
      | .s => if x < 0 ∨ 128 ≤ x then some (base + x) else none
      | .p => none
    if st = 0 then bad r.num else (List.range count).findSome? fun i => bad (r.num + st * i)

end Sys2Proof.Machine
end

