-- ==== Sys2Proof/Machine/Checks.lean ====
section
/-! DEFINITION. What an instruction is before it performs: its weight (R179), its privilege (R58, R101), whether it is a park
point (R75), the addresses it forms (R160, R161, R214, R248), its kind of turn (R192), the address checks of R162, the region
that it closes (R96), and the target of a repeat prefix (R90 to R92). -/

namespace Sys2Proof.Machine

open Sys2Proof.Forms

/-! ## What an instruction is -/

/-- Copy and buffer instructions, MAJ 0x6D to 0x72. -/
def isCopyOp : Op → Bool
  | .cpslice | .cploop | .cpchain | .cpacc | .bfwait | .bfrel => true
  | _ => false

/-- Special functions, MAJ 0x73. -/
def isSpecial : Op → Bool
  | .vrcp | .vrsq | .vsqrt | .vexp2 | .vlog2 | .vsinpi | .vcospi | .vtanh | .vfdiv => true
  | _ => false

/-- Level-index instructions, MAJ 0x74. -/
def isLevel : Op → Bool
  | .lxadd | .lxsub | .lxmul | .lxdiv | .lxcmp | .lxexp | .lxlog | .lxlvl => true
  | _ => false

/-- Accumulator instructions ordered by R263. -/
def isAcc : Op → Bool
  | .mma | .accrd | .accwr | .accz => true
  | _ => false

def ceilDiv (a b : Nat) : Nat := (a + b - 1) / b

/-- The weight of an instruction at user privilege (R179). -/
def weight (o : Op) (f : Long) : Nat :=
  match o with
  | .mma => max 1 (match f.ty with
    | .bf16 | .f16 => ceilDiv (mmaK f) 8
    | .f32 => ceilDiv (mmaK f) 2
    | .f64 => mmaK f
    | .i8 | .n8 => ceilDiv (mmaK f) 16
    | _ => ceilDiv (mmaK f * (f.fn.toNat % 32 - 14)) 64)
  | .accrd | .accwr | .accz | .lxcvt => 2
  | .spawn | .invoke | .invokeh => 8
  | _ => if isSpecial o || isCopyOp o then 2 else if isLevel o then 4 else 1

/-- The weight it adds: 0 at system privilege (R82). -/
def weightOf (w : Warp) (o : Op) (f : Long) : Nat := if w.sys then 0 else weight o f

/-- Illegal at system privilege (R101): the named instructions, and MAJ 0x5E to 0x66 and 0x68 to 0x7C. -/
def sysIllegal (o : Op) : Bool :=
  match o with
  | .mark | .join | .exit | .give | .claim | .rgn => true
  | _ => let m := o.form.maj
         (decide (0x5E ≤ m) && decide (m ≤ 0x66)) || (decide (0x68 ≤ m) && decide (m ≤ 0x7C))

/-- Privileged instructions (R58). -/
def privileged (o : Op) (f : Long) : Bool :=
  match o with
  | .eret | .tlbiVa | .tlbiCtx | .tlbiAll | .migrMove | .migrSet | .migrQuery | .fshootVa | .fshootCtx => true
  | .srd | .srdHi | .swr => decide (0x20 ≤ f.a.toNat)
  | _ => false

/-- Park points whatever `PK` holds (R75). -/
def alwaysParks (o : Op) : Bool :=
  match o with
  | .join | .exit | .claim | .barArr | .barWait | .barSync | .barTest | .fwait | .bfwait | .give | .rgn | .eret | .mma
  | .atom | .acq | .rel | .turn | .fenceRel | .fenceSc | .tktWait | .tktDone | .spawn | .invoke | .invokeh | .fpoll
  | .fref | .fdrop | .fpin | .fresVal | .fresPlace | .fbreak | .savept | .digest | .cpslice | .cploop | .cpchain | .cpacc
  | .bfrel => true
  | _ => false

/-- A park point (R75): every instruction with `PK` = 1, `VPRF` too (log 115), and those that always are. -/
def parks (o : Op) (f : Long) : Bool := f.fl.pk || alwaysParks o

/-- `MOD` is of the scope class (R50): MAJ 0x5E to 0x66 and 0x6D to 0x70. -/
def scopeMod (o : Op) : Bool :=
  let m := o.form.maj
  (decide (0x5E ≤ m) && decide (m ≤ 0x66)) || (decide (0x6D ≤ m) && decide (m ≤ 0x70))

/-! ## Addresses (R160, R161, R213, R214) -/

/-- Bytes per element of a memory or synchronising instruction. -/
def elemSize (o : Op) (f : Long) : Nat :=
  match o with
  | .vld | .vst => if pair f.ty then 8 else 4
  | .vprf => if f.fn = 0 then (if pair f.ty then 8 else 4) else tyBits f.ty / 8
  | .tktWait | .tktDone => 8
  | _ => tyBits f.ty / 8

/-- `sA` + off, unbounded. -/
def baseAddr (w : Warp) (f : Long) : Int := ((rdS w f.a.toNat).toNat : Int) + f.imm.toInt

/-- The address of a lane. -/
def laneAddr (w : Warp) (o : Op) (f : Long) (l : Nat) : Int :=
  let e : Int := elemSize o f
  let idx (r : Nat) : Int := (rdV w r l).toInt
  let b := baseAddr w f
  match o with
  | .vld | .vst => b + l * e
  | .vlds | .vsts => if f.fn = 0 then b + idx f.b.toNat * e else b + l * (rdS w f.b.toNat).toInt
  | .vprf => if f.fn = 0 then b + l * e else if f.fn = 1 then b + idx f.b.toNat * e else b + l * (rdS w f.b.toNat).toInt
  | .atom | .pot => b + idx f.c.toNat * e
  | _ => b

/-- The instruction works once for the warp, not per lane. -/
def uniformMem (o : Op) : Bool :=
  match o with
  | .sld | .sst | .acq | .rel | .turn | .tktWait | .tktDone => true
  | _ => false

/-- The address that classifies an instruction (R192): the lowest active lane's, or `sA` + off. -/
def classAddr (w : Warp) (o : Op) (f : Long) : Int :=
  if uniformMem o then baseAddr w f
  else match activeL w o f with
    | l :: _ => laneAddr w o f l
    | [] => baseAddr w f

/-- The lane that owns row i (R249). -/
def rowOwner (width i : Nat) : Nat := if width = 16 then i % 16 else i

/-- The rows that an `MMA` computes. -/
def mmaRows (w : Warp) (f : Long) : List Nat := (List.range 32).filter fun i => (active w .mma f).getLsbD (rowOwner w.width i)

/-- Start addresses of row i of A and of column j of B. -/
def rowStart (w : Warp) (f : Long) (i : Nat) : Int :=
  ((rdS w f.a.toNat).toNat : Int) + i * (rdS w f.c.toNat).toInt
def colStart (w : Warp) (f : Long) (j : Nat) : Int :=
  ((rdS w f.d.toNat).toNat : Int) + j * (rdS w (f.c.toNat + 1)).toInt

/-- The addresses that place an `MMA` (R192): of the active lanes' rows, and of B; `sA` and `sB` when no lane is active. -/
def mmaFirst (w : Warp) (f : Long) : List Int :=
  (match mmaRows w f with
   | [] => [((rdS w f.a.toNat).toNat : Int)]
   | rs => rs.map (rowStart w f)) ++ [colStart w f 0]

inductive Turn where
  | none | domain | group
  deriving DecidableEq, Repr

/-- The kind of turn that R192 gives an instruction, whatever the mode. -/
def turnClass (w : Warp) (o : Op) (f : Long) : Turn :=
  match o with
  | .vld | .vst | .vlds | .vsts | .sld | .sst =>
    if spaceOf (classAddr w o f) = .window ∧ w.sys = false then .group else .none
  | .pot => if spaceOf (classAddr w o f) = .window then .group else .none
  | .atom | .acq | .rel | .turn => if spaceOf (classAddr w o f) = .window then .group else .domain
  | .fenceRel | .fenceSc | .tktWait | .tktDone | .spawn | .invoke | .invokeh | .fwait | .fpoll | .fref | .fdrop | .fpin
  | .fresVal | .fresPlace | .fbreak | .savept | .digest => .domain
  | .barArr | .barWait | .barSync | .barTest | .give | .claim | .cpslice | .cploop | .cpchain | .cpacc | .bfwait
  | .bfrel => .group
  | .mma => if (mmaFirst w f).any fun a => spaceOf a == .window then .group else .none
  | .exit => if w.frags.length = 1 then .group else .none
  | _ => .none

/-- The kind of turn an instruction is in turn mode (R192). -/
def turnKind (w : Warp) (o : Op) (f : Long) : Turn := if w.turn then turnClass w o f else .none

/-! ## Check 5 (R162) -/

/-- A failed check: cause, kind, `%taddr`, and the secure address to report. `late` when translation found it. -/
structure MErr where
  cause : Nat
  kind : Nat
  addr : Dword
  secure : Option Nat
  late : Bool
  deriving DecidableEq, Repr

/-- One element's access: lane, address (an offset in group memory), and its translation when it is global. -/
structure Acc where
  lane : Nat
  va : Nat
  x : Option Xlat
  deriving DecidableEq, Repr

/-- How the accesses of an instruction are checked: element size, use of the translation (`none`: not translated),
whether the window is accepted, and the size of group memory. -/
structure AccKind where
  size : Nat
  use : Option Use
  window : Bool
  gsize : Nat
  deriving DecidableEq, Repr

/-- The check of one element whose lowest-numbered active lane lies in space `sp`. -/
def checkElem (s : State) (z : Site) (sec : Bool) (q : AccKind) (sp : Space) (l : Nat) (a : Int) : Except MErr Acc :=
  let inv : MErr := { cause := 5, kind := 0, addr := BitVec.ofInt 64 a, secure := none, late := false }
  let off := (a - windowBase).toNat
  if spaceOf a = .none ∨ spaceOf a ≠ sp then .error inv
  else if sp = .window ∧ (!q.window ∨ q.gsize ≤ off) then .error inv
  else if a.toNat % q.size ≠ 0 then .error { inv with cause := 7 }
  else if sp = .window then .ok { lane := l, va := off, x := none }
  else match q.use with
    | none => .ok { lane := l, va := a.toNat, x := none }
    | some u => match translate s z sec u a.toNat q.size with
      | .ok x => .ok { lane := l, va := a.toNat, x := some x }
      | .error e => .error { inv with kind := e.kind, secure := e.secure, late := true }

/-- The checks of the elements in ascending lane order: those that pass, and the first failure. -/
def checkElems (s : State) (z : Site) (sec : Bool) (q : AccKind) (sp : Space) : List (Nat × Int) → List Acc × Option MErr
  | [] => ([], none)
  | (l, a) :: r =>
    match checkElem s z sec q sp l a with
    | .error e => ([], some e)
    | .ok x => let (xs, e) := checkElems s z sec q sp r; (x :: xs, e)

/-- The elements of an instruction: its active lanes, or the one of a scalar instruction, with their addresses. -/
def memElems (w : Warp) (o : Op) (f : Long) : List (Nat × Int) :=
  (if uniformMem o then [0] else activeL w o f).map fun l => (l, laneAddr w o f l)

def groupSize (s : State) (k : Nat) : Nat := match getGroup s k with | some g => g.gsize | none => 0

/-- At system privilege the window is refused (R101). -/
def accKind (s : State) (k : Nat) (w : Warp) (n : Nat) (u : Option Use) (window : Bool) : AccKind :=
  { size := n, use := u, window := window && !w.sys, gsize := groupSize s k }

/-- Check 5 of a memory or synchronising instruction. -/
def checkAll (s : State) (k : Nat) (w : Warp) (o : Op) (f : Long) (u : Option Use) (window : Bool) : List Acc × Option MErr :=
  let es := memElems w o f
  let sp := match es with | e :: _ => spaceOf e.2 | [] => .none
  checkElems s (siteOf s k) w.sec (accKind s k w (elemSize o f) u window) sp es

/-- The instruction's accesses lie in group memory. -/
def inWindow (w : Warp) (o : Op) (f : Long) : Bool :=
  match memElems w o f with
  | e :: _ => spaceOf e.2 == .window
  | [] => spaceOf (classAddr w o f) == .window

/-- Installs the translations of checked elements (R155, R157). -/
def installAll (s : State) (z : Site) (xs : List Acc) : State :=
  xs.foldl (fun s x => if x.x.isSome then install s z x.va else s) s

/-- As `installAll`, for accesses that write: `D` is set too (R155). -/
def dirtyAll (s : State) (z : Site) (xs : List Acc) : State :=
  xs.foldl (fun s x => if x.x.isSome then setDirty (install s z x.va) z x.va else s) s

def accKey (x : Acc) : Nat := match x.x with | some y => y.key | none => 0

/-- The keys and translations of global accesses, for the count table. -/
def accPages (xs : List Acc) : List (Nat × Xlat) := xs.filterMap fun x => x.x.map fun y => (x.va, y)


/-! ## Regions (R96) -/

/-- A store modifies a sector that was present at the hand mark (R96). -/
def hitsMark (w : Warp) (xs : List Acc) : Bool :=
  match w.region with
  | some r => (w.hand.secs.take r.secs).any fun y => xs.any fun x => accKey x / 64 * 64 == y.key
  | none => false

/-- A pot modifies an entry that was present at the hand mark (R96). -/
def potHitsMark (f : Long) (w : Warp) (xs : List Acc) : Bool :=
  match w.region with
  | some r => (w.hand.pots.take r.pots).any fun y => xs.any fun x => accKey x == y.key && y.op == f.fn.toNat && y.ty == f.ty
  | none => false

/-- Instructions that close the open region before they perform: a turn or group turn in either mode, and those that R96
names. -/
def closesRegion (w : Warp) (o : Op) (f : Long) : Bool :=
  (match o with
   | .join | .exit | .give | .claim | .mma => true
   | _ => isCopyOp o) || turnClass w o f != .none

/-- A plain store, or a pot, to global memory. -/
def globalStore (w : Warp) (o : Op) (f : Long) : Bool :=
  (match o with
   | .vst | .vsts | .sst | .pot => true
   | _ => false) && spaceOf (classAddr w o f) != .window

/-- A global store closes the region: any one in free mode; in turn mode one that would modify what the hand held at the
region's mark. -/
def storeCloses (s : State) (k : Nat) (w : Warp) (o : Op) (f : Long) : Bool :=
  globalStore w o f && (!w.turn ||
    match checkAll s k w o f (some .store) true with
    | (xs, none) => if o = .pot then potHitsMark f w xs else hitsMark w xs
    | (_, some _) => false)

/-- A write with every lane of the warp active. -/
def fullWrite (w : Warp) (o : Op) (f : Long) : Bool :=
  active w o f == fullMask w.width || (roles o f).all fun r => !r.wr || r.cls == .s

/-- The identifier of a rejoin register in a region's sets, above those of R88's classes; no instruction names it with them. -/
def jId (n : BitVec 8) : Nat := 3 * 256 + n.toNat

/-- The rejoin register that an instruction reads, and the one that it writes: `MARK` sets every field, `JMOV` one (R85, R88; log
113). -/
def jReads (o : Op) (f : Long) : List Nat := if o = .jmovToS then [jId f.a] else []
def jWrites (o : Op) (f : Long) : List Nat :=
  match o with
  | .mark => [jId f.a]
  | .jmovToJ => [jId f.d]
  | _ => []

/-- The registers that an instruction writes; `VRDC` leaves its scalar register alone when no lane is active (R143). -/
def regionWrites (w : Warp) (o : Op) (f : Long) : List Nat :=
  if o = .vrdc ∧ active w o f = 0 then [] else writeIds o f ++ jWrites o f

/-- A write of the register leaves nothing of it as it was: a scalar, a whole rejoin register, or a write with every lane active. -/
def wholeWrite (w : Warp) (o : Op) (f : Long) (i : Nat) : Bool :=
  if 768 ≤ i then o == .mark else fullWrite w o f || decide (256 ≤ i ∧ i < 512)

/-- The region's sets after an instruction's registers, or no region when it writes a register that the region reads. -/
def regionStep (w : Warp) (o : Op) (f : Long) : Option Region :=
  match w.region with
  | none => none
  | some r =>
    let rs := r.reads ++ (readIds o f ++ jReads o f).filter fun i => !r.writes.contains i && !r.reads.contains i
    let ws := regionWrites w o f
    if ws.any fun i => rs.contains i && !r.writes.contains i then none
    else
      let full := ws.filter fun i => wholeWrite w o f i && !r.writes.contains i
      some { r with reads := rs, writes := r.writes ++ full }

/-- The region with which the instruction performs: a handler leaves it alone. -/
def regionAt (s : State) (k : Nat) (w : Warp) (o : Op) (f : Long) : Option Region :=
  if w.sys then w.region
  else if closesRegion w o f || storeCloses s k w o f then none
  else regionStep w o f

/-! ## What a warp issues next -/

/-- Where a warp fetches next: within a repeat, its target. -/
def fetchPc (w : Warp) : Dword :=
  match w.rep with
  | some _ => curPc w + 12
  | none => curPc w

/-- The operation that a warp issues next, as fetched; within a repeat, the target's next repetition. -/
def nextOp (s : State) (k : Nat) (w : Warp) : Option (Op × Long × Nat) :=
  match fetchAt s (siteOf s k) (codeMark w) w.sec (fetchPc w) with
  | .ok i _ => i.core.map fun x => match w.rep with
    | some r => (x.1, stepTarget r.imm x.2.1 w.repidx, x.2.2)
    | none => x
  | _ => none

def nextTurn (s : State) (k : Nat) (w : Warp) : Turn :=
  match nextOp s k w with
  | some (o, f, _) => turnKind w o f
  | none => .none

/-! ## The repeat prefix (R90 to R92) -/

def isRep (o : Op) : Bool :=
  match o with
  | .rep | .repReg => true
  | _ => false

/-- A target that R91 admits. -/
def repTarget (o : Op) : Bool :=
  let m := o.form.maj
  (decide (0x14 ≤ m) && decide (m ≤ 0x5A)) || m == 0x5F || (decide (0x69 ≤ m) && decide (m ≤ 0x6B)) ||
    (decide (0x73 ≤ m) && decide (m ≤ 0x75))

/-- The target of a branch by register that is no multiple of 4: the alignment fault of check 1 (R59, R83). -/
def branchFault (w : Warp) (o : Op) (f : Long) : Option Dword :=
  match o with
  | .brx | .ret | .callReg => let t := rdS w f.a.toNat; if t.toNat % 4 ≠ 0 then some t else none
  | _ => none

/-- The target of a repeat prefix at the running fragment's program counter. -/
def repFetch (s : State) (k : Nat) (w : Warp) : Fetched := fetchAt s (siteOf s k) (codeMark w) w.sec (curPc w + 12)

/-- A repeat prefix is legal with its target (R90, R91). A target that system privilege forbids makes it illegal there, whatever its
count (log 95). -/
def repLegal (w : Warp) (f : Long) (i : Instr) : Bool :=
  match i.core with
  | some (o, t, _) => !f.fl.en && repTarget o && o.legal t && !(w.sys && sysIllegal o) && stridesOk f.imm o t
  | none => false

/-- The count of a repeat prefix, with the value that the register will hold once what is outstanding is written. -/
def repCount (w : Warp) (o : Op) (f : Long) : Nat :=
  if o = .rep then f.imm.toNat % 2 ^ 16
  else
    let w := (w.pend ++ w.unconf.flatMap fun u => u.pend.toList).foldl (fun w x => x.writes.foldl applyW w) w
    (rdS w f.a.toNat).toNat % 2 ^ 16

/-- The range check of R92: the first offending identifier over the repetitions. -/
def repRange (s : State) (k : Nat) (w : Warp) (o : Op) (f : Long) : Option Int :=
  if isRep o then
    match repFetch s k w with
    | .ok i _ => i.core.bind fun x => strideFault w f.imm (repCount w o f) x.1 x.2.1
    | _ => none
  else none

end Sys2Proof.Machine
end

