-- ==== Sys2Proof/Machine/Ops.lean ====
section
/-! DEFINITION. The shared course of every machine instruction: the checks of R59 in their order, park points and
outstanding results (R74, R75), regions (R96, R97), turns (R192 to R195), taking an exception (R97, R99, R100) and
returning from one (R98), retirement with the clock's movement (R178 to R186), and runs (R73). -/

namespace Sys2Proof.Machine

open Sys2Proof.Forms

/-! ## Runs (R73) -/

/-- Ends the warp's run and frees its slot; a debugger halt is honoured at a run boundary at user privilege (R103). -/
def endRun (s : State) (k : Nat) : State :=
  let s := updWarp s k fun w =>
    let w := { w with slot := none, runLen := 0 }
    if w.haltReq && (!w.sys || w.pending) then { w with haltReq := false, halted := true } else w
  freeSlot s k

/-- The warp waits: its run ends before the instruction (R73). -/
def waitIn (s : State) (k : Nat) (st : WStat) : State := endRun (updWarp s k fun w => { w with stat := st }) k

/-! ## Refusals by a home, and the clock -/

/-- The index of the chip that is home to a key; a chip that is not there stands in the key as 16 + index. -/
def homeIndex (s : State) (key : Nat) : Nat := if key / keyBase < 16 then myIndex s (key / keyBase) else key / keyBase - 16

/-- One refusal by a home (R346): the entry of R340, and the report of a secure byte to the home's monitor (R377). -/
def noteRefusal (s : State) (k : Nat) (load : Bool) (x : Denied) : State :=
  match getWarp s k with
  | none => s
  | some w =>
    let p := partOf k
    let exited := if w.stat = .ended then 1 else 0
    let s := if x.kind = 1 then reportAt s (x.key / keyBase) (x.key % keyBase) else s
    postFault s p (faultEntry 2 (myIndex s (chipOf p)) (homeIndex s x.key) x.kind (exited + if load then 2 else 0) (ctxNum s p) x.va
      x.pc (identOf k))

/-- Refusals, one for each sector (R346, log 88): the first of each. -/
def perSector (xs : List Denied) : List Denied :=
  xs.foldl (fun r x => if r.any fun y => y.key / 64 == x.key / 64 then r else r ++ [x]) []

/-- Homes refused publications or accesses of a warp (R346), each by its kind, address and instruction: an entry for each, and
the end of the card with the first one's kind at the stamp of the refused act. -/
def refuseAll (s : State) (k : Nat) (xs : List Denied) (load : Bool) (clk : Nat) : State :=
  match xs, getWarp s k with
  | x :: _, some w =>
    let s := xs.foldl (fun s x => noteRefusal s k load x) s
    if w.turn then waitIn s k (.dying 0x14 x.kind clk) else stopCard s (cardKey k) (clk, identOf k) 0x14 x.kind 2
  | _, _ => s

/-- The home of a forwarded fetch refused it (R346): the card ends, and the warp's run. -/
def fetchRefusal (s : State) (k : Nat) (w : Warp) (a : Dword) (key kind : Nat) : State :=
  endRun (refuseAll s k [{ kind := kind, va := a.toNat, pc := curPc w, key := key }] true w.clock) k

/-- Moves the clock (R178, R186). Crossing a mark publishes the hand for the mark, closes the region and leaves the warp
at the round gate; a warp of a stopped card stops there instead, publishing nothing (R318). -/
def moveClock (s : State) (k : Nat) (c : Nat) : State :=
  match getWarp s k with
  | none => s
  | some w =>
    if !w.turn || decide (c / w.quantum ≤ w.clock / w.quantum) then updWarp s k fun w => { w with clock := c }
    else
      let m1 := nextMark w.quantum w.clock
      let stopped := match getCard s k with | some x => x.stop.isSome | none => false
      if stopped then sweepCard (stopWarp s k m1 (m1 - 1, identOf k)) (cardKey k)
      else
        let bad := handRefusals s (chipOf (partOf k)) w.sec w.hand true
        let s := pubMark s k w m1 m1
        let s := updWarp s k fun w =>
          { w with clock := c, region := none, stat := .gate m1 (c / w.quantum * w.quantum) }
        refuseAll s k bad false (m1 - 1)

/-! ## Requests to other chips (R336, R346) -/

/-- A warp's outstanding results, those of its unconfirmed loads among them. -/
def flightPends (w : Warp) : List Pend := w.pend ++ w.unconf.flatMap fun u => u.pend.toList

/-- The new home of a moved page holds a chip's direct accesses until the old home's marker for that chip has come (R342). -/
def keyHeld (s : State) (chip key : Nat) : Bool :=
  s.markers.any fun m => m.1 == chip &&
    s.forwards.any fun f => f.new == m.2 && decide (f.new ≤ key) && decide (key < f.new + f.size)

/-- A request is still on its way: its home has neither served nor refused it. -/
def onWay (r : Remote) : Bool := !r.served && r.refused.isNone

/-- A request asks for bytes of one of the lines. -/
def onLines (s : State) (keys : List Nat) (r : Remote) : Bool :=
  r.srcs.any fun e => keys.any fun a => lineOf a == lineOf (forwardKey s e.key)

/-- The requests of a core that are on their way to one of the lines, each with its warp. -/
def lineReqs (s : State) (core : Option (Nat × Nat)) (keys : List Nat) : List (Nat × Remote) :=
  s.warps.flatMap fun e => (flightPends e.2).filterMap fun x => x.remote.bind fun r =>
    if r.core == core && onWay r && onLines s keys r then some (e.1, r) else none

/-- A request that its home has neither served nor refused, that no marker holds, and that no earlier request of its core to one of
its lines precedes (R173, R336, R342). -/
def canServe (s : State) (k : Nat) (x : Pend) : Bool :=
  match x.remote with
  | some r => onWay r && !(r.srcs.any fun e => keyHeld s (chipOf (partOf k)) (forwardKey s e.key)) &&
      !((lineReqs s r.core (r.srcs.map fun e => forwardKey s e.key)).any fun q => decide (q.2.issued < r.issued))
  | none => false

/-- The bytes of an element at its home, those that the warp's own stores had written before apart (R164). -/
def homeVal (s : State) (e : RSrc) : Dword :=
  BitVec.ofNat 64 (leNat ((List.range e.size).map fun i => (kfind e.own i).getD (rdByte s.mem (forwardKey s e.key + i))))

/-- The home serves or refuses a request of the warp: the request with its values, or the refusals. -/
def serveReq (s : State) (k : Nat) (w : Warp) (r : Remote) : Remote × List Denied :=
  let bad := perSector (r.srcs.filterMap fun e =>
    (homeRefuses s (chipOf (partOf k)) w.sec (forwardKey s e.key)).map fun kd =>
      { kind := kd, va := e.va, pc := r.pc, key := forwardKey s e.key })
  match bad with
  | x :: _ => ({ r with refused := some x.kind }, bad)
  | [] => ({ r with served := true, srcs := r.srcs.map fun e => { e with val := some (e.val.getD (homeVal s e)) } }, [])

/-- The first request of the warp that a test selects and its home can serve is served or refused there. -/
def servePend (s : State) (k : Nat) (hit : Remote → Bool) : State :=
  match getWarp s k with
  | none => s
  | some w =>
    let sel (x : Pend) : Bool := canServe s k x && x.remote.any hit
    match (flightPends w).find? sel with
    | none => s
    | some x =>
      match x.remote with
      | none => s
      | some r =>
        let (r', bad) := serveReq s k w r
        let put (y : Pend) : Pend := if y == x then { x with remote := some r' } else y
        let s := sliceTouches s false r.hint (r.srcs.map fun e => forwardKey s e.key)
        let s := sendFlits s (r.home % 16) (myIndex s (chipOf (partOf k))) (r.srcs.map (·.size)).sum fun i => .reply k r.clock i
        refuseAll (updWarp s k fun w => { w with
          pend := w.pend.map put, unconf := w.unconf.map fun u => { u with pend := u.pend.map put } }) k bad true r.clock

/-- The request that its chip issued first. -/
def firstReq (xs : List (Nat × Remote)) : Option (Nat × Remote) :=
  xs.foldl (fun a x => match a with
    | some y => if x.2.issued < y.2.issued then some x else some y
    | none => some x) none

/-- Before a write or an operation of a core performs at some lines, its earlier loads of those lines are served at their home, in
the order of their issue (R173, R336). `n` bounds their number. -/
def serveLines (s : State) (core : Option (Nat × Nat)) (keys : List Nat) : Nat → State
  | 0 => s
  | n + 1 =>
    match firstReq (lineReqs s core keys) with
    | none => s
    | some (k, r) => serveLines (servePend s k fun q => q == r) core keys n

/-- As `serveLines`, for every such load of a warp's core. -/
def serveCore (s : State) (k : Nat) (keys : List Nat) : State :=
  serveLines s (warpCore s k) keys (lineReqs s (warpCore s k) keys).length

/-- A load of one of the lines by the warp's core is still to be served. -/
def linesWait (s : State) (k : Nat) (keys : List Nat) : Bool := !(lineReqs s (warpCore s k) keys).isEmpty

/-- A load of the warp's core is on its way to another chip. -/
def coreFlying (s : State) (k : Nat) : Bool :=
  s.warps.any fun e => (flightPends e.2).any fun x => x.remote.any fun r => r.core == warpCore s k && onWay r

/-! ## Posted stores (R166) -/

/-- The first lane of a posted store whose translation faults. -/
def postedFault (s : State) (z : Site) (sec : Bool) (x : Posted) : Option (Nat × XErr) :=
  x.lanes.findSome? fun l =>
    match translate s z sec .store l.1 l.2.length with
    | .error e => some (l.1, e)
    | .ok _ => none

/-- The lanes of a posted store that translate. -/
def postedLanes (s : State) (z : Site) (sec : Bool) (x : Posted) : List (Nat × Xlat × List Byte) :=
  x.lanes.filterMap fun l => match translate s z sec .store l.1 l.2.length with
    | .ok y => some (l.1, y, l.2)
    | .error _ => none

/-- The oldest store posted at the warp's privilege translates and performs at its homes, or is held; a refusal ends the card
(R346). It waits while an access before it has not performed, or a page that it writes is moving (R336, R342). -/
def performPosted (s : State) (k : Nat) : State :=
  match getWarp s k with
  | none => s
  | some w =>
    let p := partOf k
    let z := siteOf s k
    match postedOf w with
    | [] => s
    | x :: rest =>
      match postedFault s z w.sec x with
      | some (va, e) => updWarp (reportSecure (walkTouch s z va) p e) k fun w => setHeld w (some (e.kind, va))
      | none =>
        let keys := (postedLanes s z w.sec x).map fun y => y.2.1.key
        let s := serveCore s k keys
        match getWarp s k with
        | none => s
        | some w =>
          if linesWait s k keys || keys.any (keyHeld s (chipOf p)) then s
          else
            let s := x.lanes.foldl (fun s l => setDirty (install s z l.1) z l.1) s
            let s := updWarp s k fun w => setPosted w rest
            let xs := postedLanes s z w.sec x
            let s := countPages s z (xs.map fun y => (y.1, y.2.1))
            let s := ((keys.map (· / keyBase)).eraseDups.filter fun h => h != chipOf p).foldl (fun s h =>
              sendFlits s (chipOf p) (myIndex s h) (keys.filter fun a => a / keyBase == h).length fun i => .request k w.clock i) s
            let s := xs.foldl (fun s y =>
              if (homeRefuses s (chipOf p) w.sec y.2.1.key).isNone then freeWrite s k y.2.1.key y.2.2 x.hint else s) s
            refuseAll s k (perSector (xs.filterMap fun y => (homeRefuses s (chipOf p) w.sec y.2.1.key).map fun kd =>
              { kind := kd, va := y.1, pc := x.pc, key := y.2.1.key })) false w.clock

/-- A store is posted at the warp's privilege, and none is held. -/
def canPost (w : Warp) : Bool := !(postedOf w).isEmpty && (heldOf w).isNone

/-- Performs posted stores in order until one is held; `n` bounds their number. -/
def drainPosted (s : State) (k : Nat) : Nat → State
  | 0 => s
  | n + 1 =>
    match getWarp s k with
    | none => s
    | some w => if canPost w then drainPosted (performPosted s k) k n else s

/-- Every posted store of the warp; at most 8 are posted. -/
def drainAll (s : State) (k : Nat) : State := drainPosted s k 8

/-- After `drainAll`, a store still waits to perform. -/
def postWaits (s : State) (k : Nat) : Bool :=
  match getWarp s k with
  | some w => isLive w && canPost w
  | none => false

/-! ## Outstanding results -/

/-- Applies a result (R75, R114). -/
def applyPend (w : Warp) (x : Pend) : Warp :=
  let w := x.writes.foldl applyW w
  { w with fpstat := w.fpstat ||| x.fp, lxstat := w.lxstat ||| x.lx }

def pendWaits (x : Pend) : Bool := x.remote.isSome

/-- Confirms the unconfirmed accesses in program order up to the first that faults (R97): installs their translations
and hands their results on; the rest is forgotten when one faults. -/
def confirmAll (s : State) (k : Nat) : List Unconf → List Pend → State × List Pend × Option Unconf
  | [], acc => (s, acc, none)
  | u :: us, acc =>
    match u.fault with
    | some _ => (s, acc, some u)
    | none => confirmAll (u.vas.foldl (fun s va => install s (siteOf s k) va) s) k us (acc ++ u.pend.toList)

/-- What a park point finds. -/
inductive Settled where
  | wait
  | fault (s : State) (u : Unconf)
  | ok (s : State)

/-- Before an instruction that follows an unconfirmed load with no region open: every access is confirmed, or the first that
faults is a deferred fault (R97). Results stay outstanding. -/
def confirm (s : State) (k : Nat) : Settled :=
  match getWarp s k with
  | none => .wait
  | some w =>
    let (s, ps, bad) := confirmAll s k w.unconf w.pend
    match bad with
    | some u => .fault s u
    | none => .ok (updWarp s k fun w => { w with pend := ps, unconf := [] })

/-- Before a park point issues: every outstanding result is written (R75). A reply from another chip is waited for; an
unconfirmed access that faults is a deferred fault (R97). -/
def settle (s : State) (k : Nat) : Settled :=
  match getWarp s k with
  | none => .wait
  | some w =>
    if w.pend.any pendWaits || w.unconf.any (fun u => u.pend.any pendWaits) then .wait
    else
      let (s, ps, bad) := confirmAll s k w.unconf w.pend
      let s := updWarp s k fun w => { ps.foldl applyPend w with pend := [], unconf := [], outst := [] }
      match bad with
      | some u => .fault s u
      | none => .ok s

/-! ## Taking an exception (R97, R99, R100) -/

/-- `%tregion` at trap entry (R88). -/
def tregionOf (w : Warp) : Dword :=
  match w.region with
  | none => 0
  | some r => BitVec.ofNat 64 (r.resumes * 2 ^ 57 + r.entry.toNat % 2 ^ 57 / 4 * 4 + 1)

/-- Trap entry, once the outstanding results are written: the trap registers are loaded, the clock is `%tclock`,
privilege becomes system and the fragment continues at `%tvec`; a deferred fault below the mark at whose gate the warp stood takes it
back before that gate. With `%tvec` = 0, or at system privilege (cause 0x11,
`KIND` the inner cause and `%taddr` the inner one, R99, R101), the card ends: at once in free mode, and in turn mode when the fault's stamp is the
least (log 9). -/
def enterTrap (s : State) (k : Nat) (cause kind : Nat) (addr tpc : Dword) (clk : Nat) : State :=
  match getWarp s k with
  | none => s
  | some w =>
    let die (s : State) (cause kind : Nat) : State :=
      if w.turn then waitIn s k (.dying cause kind clk)
      else
        let s := stopCard s (cardKey k) (clk, identOf k) cause kind 2
        sweepCard (stopWarp s k (nextMark w.quantum clk) (clk, identOf k)) (cardKey k)
    if w.sys then die (updWarp s k fun w => { w with clock := clk, taddr := addr }) 0x11 cause
    else
      let fr := curFrag w
      let w' := { w with
        tcause := BitVec.ofNat 64 (kind % 256 * 256 + cause), taddr := addr, tpc := tpc, tclock := BitVec.ofNat 64 clk
        tfrag := BitVec.ofNat 64 (match fr with | some f => f.parent * 256 + f.id | none => 0)
        tsibs := match fr with | some f => f.sibs | none => 0
        tregion := tregionOf w, clock := clk, rep := none, passed := false }
      if w.tvec = 0 then die (setWarp s k w') cause kind
      else
        let st := match w.stat with | .gate a m => if clk < a then .ready else WStat.gate a m | _ => .ready
        endRun (setWarp s k { setPc { w' with sys := true, pending := true } w.tvec with stat := st }) k

/-- The clock before the instruction, or before the repetition (R93). -/
def faultClock (w : Warp) : Nat :=
  match w.rep with
  | some r => if w.repidx = 0 then r.clock else w.clock
  | none => w.clock

/-- Raises a precise fault (R61) at the instruction at `pc`: outstanding results are written first; an earlier deferred
fault is the one reported (R97). Within a repeat, the clock is that of R93. -/
def trapAt (s : State) (k : Nat) (cause kind : Nat) (addr : Dword) : State :=
  match getWarp s k with
  | none => s
  | some w =>
    match settle s k with
    | .wait => waitIn s k .stalled
    | .fault s u =>
      match u.fault with
      | some (kd, a) =>
        enterTrap (updWarp s k fun w => { w with repidx := u.idx }) k 5 kd (BitVec.ofNat 64 a) u.pc u.clock
      | none => s
    | .ok s => enterTrap (drainAll s k) k cause kind addr (curPc w) (faultClock w)

/-! ## Returning from an exception (R98) -/

/-- Trims the hand to a region's hand mark. -/
def trimHand (h : Hand) (r : Region) : Hand := { secs := h.secs.take r.secs, pots := h.pots.take r.pots }

/-- `ERET`'s effect on the warp: with `%tregion.OPEN` the region resumes from its mark, else the fragment continues at
`%tpc`, whose bits [1:0] are taken as zero (log 72), and no region is open. `%mrow.STEP` is cleared unless the `MMA` that loaded it is resumed (R247). -/
def leaveTrap (w : Warp) : Warp :=
  let w := { w with sys := false, pending := false }
  let clr (w : Warp) (pc : Dword) : Warp := if w.mpc = some pc then w else { w with mstep := 0, mpc := none }
  let tpc := w.tpc &&& ~~~(3 : Dword)
  match w.region with
  | some r =>
    if w.tregion.getLsbD 0 then
      let n := min (r.resumes + 1) 127
      clr (setPc { w with
        clock := r.clock, hand := trimHand w.hand r, repidx := 0
        region := some { r with resumes := n, reads := [], writes := [] }
        tregion := (w.tregion &&& BitVec.ofNat 64 (2 ^ 57 - 1)) ||| BitVec.ofNat 64 (n * 2 ^ 57) } r.entry) r.entry
    else clr (setPc { w with region := none } tpc) tpc
  | none => clr (setPc w tpc) tpc

/-! ## Retirement -/

/-- Where the issuing fragment continues. -/
inductive Pc where
  | next
  | goto (a : Dword)
  | keep
  deriving DecidableEq, Repr

/-- What an instruction's own effect comes to. -/
inductive Act where
  /-- It retires: with the next address, a clock other than the sum with its weight, and what follows retirement. -/
  | retire (s : State) (pc : Pc) (clk : Option Nat) (after : Warp → Warp)
  /-- It retires and then raises a trap (R102). -/
  | retireTrap (s : State) (cause kind : Nat)
  /-- It raises a precise fault; nothing has changed but what the state shows. -/
  | trap (s : State) (cause kind : Nat) (addr : Dword)
  /-- It does not retire, and the state shows everything that it did. -/
  | done (s : State)
  /-- It waits in place (R73). -/
  | wait

/-- The instruction retires (R180): the program counter, the repeat prefix (R92), the clock with its marks, the run. -/
def retire (s : State) (k wt len : Nat) (en : Bool) (pc : Pc) (clk : Option Nat) (after : Warp → Warp) : State :=
  match getWarp s k with
  | none => s
  | some w =>
    let c := clk.getD (w.clock + wt)
    let (w, last) := match w.rep with
      | some r =>
        if w.repidx + 1 < r.count then ({ w with repidx := w.repidx + 1 }, false)
        else (setPc { w with repidx := 0, rep := none } (curPc w + BitVec.ofNat 64 r.len), true)
      | none =>
        (match pc with
         | .next => setPc w (curPc w + BitVec.ofNat 64 len)
         | .goto a => setPc w a
         | .keep => w, true)
    let w := { w with runLen := if last then w.runLen + 1 else w.runLen, pending := false, passed := false }
    let s := updWarp (moveClock (setWarp s k w) k c) k after
    match getWarp s k with
    | none => s
    | some w' =>
      let cont := match w'.stat with | .ready | .stalled | .turnWait => true | _ => false
      let s := updWarp s k fun w => match w.stat with | .stalled | .turnWait => { w with stat := .ready } | _ => w
      if !cont || (last && (en || decide (24 ≤ w'.runLen))) then endRun s k else s

/-! ## Issue (R59) -/

/-- The warp's turn stamp: its clock and identity (R181). -/
def stampOf (k : Nat) (w : Warp) : Stamp := (w.clock, identOf k)

/-- Passes of an instruction through the special-function and level-index unit: 16 lanes each (R279). -/
def unitPasses (w : Warp) (o : Op) : Nat := if isSpecial o || isLevel o || o == .lxcvt then w.width / 16 else 0

/-- Entries in use of the result queue of an issue slot of a core (R279). -/
def queueUsed (s : State) (k slot : Nat) : Nat :=
  s.warps.foldl (fun a e => if warpCore s e.1 == warpCore s k then
    a + (e.2.pend.filterMap fun x => x.queue.bind fun q => if q.1 = slot then some q.2 else none).sum else a) 0

/-- The queue of the warp's slot has room for every pass of the instruction (R279). -/
def queueRoom (s : State) (k : Nat) (w : Warp) (o : Op) : Bool :=
  unitPasses w o == 0 || decide (queueUsed s k (w.slot.getD 0) + unitPasses w o ≤ 32)

/-- The next act of a warp that waits is an accumulator instruction. -/
def accNext (s : State) (k : Nat) (w : Warp) : Bool :=
  w.stat == .stalled && (nextOp s k w).any fun x => isAcc x.1

/-- An accumulator instruction's stamp lies below the bound of every other unparked live warp of the group (R263): the mark of its open
region or its clock, and its clock where its next act is an accumulator instruction that waits too, so that the least of them goes on
(R38; log 110). -/
def accFree (s : State) (k : Nat) (t : Stamp) : Bool :=
  s.warps.all fun e =>
    e.1 == k || groupKey e.1 != groupKey k || !isLive e.2 || isParked e.2 ||
      !stampLt (if accNext s e.1 e.2 then e.2.clock else countClock e.2, identOf e.1) t

/-- The warp's turn may perform now (R193, R195); an accumulator instruction waits for its group's bound (R263), a special
function for room in its queue (R279). -/
def turnFree (s : State) (k : Nat) (w : Warp) (o : Op) (f : Long) : Bool :=
  match turnKind w o f with
  | .domain => leastInDom s (chipOf (partOf k)) (domOf s (partOf k)) (some k) (stampOf k w)
  | .group => leastInGroup s k (stampOf k w)
  | .none => (!(w.turn && isAcc o) || accFree s k (stampOf k w)) && queueRoom s k w o

/-- The checks of R59 before the entry's own, and the unparked-hazard check: a fault as (cause, `%taddr`), and the secure
address that a fetch of a repeat's target was refused (R377). A repeat prefix fetches its target and is legal with it; its
range check is made here unless it is a park point, and the alignment of a branch's target where its register holds no outstanding
result (`performHeld`; log 97). -/
def preCheck (s : State) (k : Nat) (w : Warp) (o : Op) (f : Long) : Option (Nat × Dword × Option Nat) :=
  let tgt := if isRep o then some (repFetch s k w) else none
  let bad : Bool := match tgt with
    | some (.ok i _) => !repLegal w f i
    | some .illegal => true
    | _ => false
  match tgt with
  | some (.fault a e) => some (5, a, e)
  | _ =>
    if (branchFault w o f).isSome && !w.outst.contains (256 + f.a.toNat) then some (7, rdS w f.a.toNat, none)
    else if !o.legal f || (w.sys && sysIllegal o) || bad then some (1, curPc w, none)
    else if !w.sys && privileged o f then some (2, curPc w, none)
    else match rangeFault w o f with
      | some id => some (4, BitVec.ofNat 64 id, none)
      | none =>
        if parks o f then none
        else match repRange s k w o f with
          | some id => some (4, BitVec.ofInt 64 id, none)
          | none => (hazard w o f).map fun id => (3, BitVec.ofNat 64 id, none)

/-- A ninth posted store: a plain global store in free mode while 8 are posted (R166). -/
def ninthStore (w : Warp) (o : Op) (f : Long) : Bool :=
  !w.turn && o != .pot && globalStore w o f && decide (8 ≤ (postedOf w).length)

/-- Instructions at which a held posted-store fault is taken (R166). -/
def takesAt (w : Warp) (o : Op) (f : Long) : Bool := parks o f || scopeMod o || ninthStore w o f

/-- The warp `w`, whose posted stores have performed or are held, takes the held fault at an instruction that found it as `w0`. -/
def takesHeld (w0 w : Warp) (o : Op) (f : Long) : Bool := (heldOf w).isSome && takesAt w0 o f

/-- Performs what the body came to. -/
def finish (s0 : State) (k wt len : Nat) (en : Bool) : Act → State
  | .retire s pc clk after => retire s k wt len en pc clk after
  | .retireTrap s cause kind =>
    let s := retire s k wt len en .next none id
    match getWarp s k with
    | none => s
    | some w => match w.stat with
      | .dying .. | .stopped => s
      | _ => enterTrap s k cause kind 0 (curPc w) w.clock
  | .trap s cause kind addr => trapAt s k cause kind addr
  | .done s => s
  | .wait => waitIn s0 k .stalled

/-- An instruction that faults has not performed, so it leaves open the region that its performing would have closed
(R96); a turn has closed it when it came to its turn, and the region that an `MMA` opened stays (R255; log 44). -/
def faultRegion (s0 : State) (w : Warp) (o : Op) (f : Long) (a : Act) (k : Nat) : Act :=
  match a with
  | .trap s cause kind addr =>
    if turnClass w o f = .none && o != .mma && (closesRegion w o f || storeCloses s0 k w o f) then
      .trap (updWarp s k fun x => { x with region := w.region }) cause kind addr
    else .trap s cause kind addr
  | a => a

/-- The instruction took its turn: it neither faulted nor waits in place. -/
def takesTurn : Act → Bool
  | .trap .. | .wait => false
  | _ => true

/-- The warp as it waits for its turn: the turn has closed its region, so that it counts at the turn's clock (R96, R193, R195,
R205). -/
def atTurn (s : State) (k : Nat) (w : Warp) (o : Op) (f : Long) : State :=
  if turnKind w o f = .none then s else setWarp s k { w with region := regionAt s k w o f }

/-- The last steps before the instruction's own effect: the region's sets, which a handler leaves alone (R96), its turn, a
refused publication. -/
def perform (o : Op) (f : Long) (len : Nat) (body : State → Nat → Warp → Act) (s : State) (k : Nat) (w : Warp) : State :=
  let stopped := match getCard s k with | some x => x.stop.isSome | none => false
  if turnKind w o f != .none && stopped then
    sweepCard (stopWarp s k (ceilMark w.quantum w.clock) (w.clock, identOf k)) (cardKey k)
  else if !turnFree s k w o f then
    waitIn (atTurn s k w o f) k (if turnKind w o f = .none then .stalled else .turnWait)
  else
    let w1 := { w with region := regionAt s k w o f, stat := .ready }
    let s1 := setWarp s k w1
    let a := body s1 k w1
    let own := turnKind w o f = .group && takesTurn a
    let s2 := finish (atTurn s k w o f) k (weightOf w o f) len f.fl.en (faultRegion s w o f a k)
    let s2 := if own then updWarp s2 k fun x => addTurn x (stampOf k w) else s2
    if turnKind w o f = .domain && takesTurn a then
      refuseAll s2 k (handRefusals s (chipOf (partOf k)) w.sec w.hand false) false w.clock
    else s2

/-- The last checks before check 5 of R59: for a park point the alignment of a branch's target and the range check of a repeat prefix,
with what the settled register gives; then, where R166 says so, the posted stores have performed or are held, and a held fault is taken. -/
def performHeld (o : Op) (f : Long) (len : Nat) (body : State → Nat → Warp → Act) (s : State) (k : Nat) : State :=
  match getWarp s k with
  | none => s
  | some w0 =>
    match (if parks o f then branchFault w0 o f else none), (if parks o f then repRange s k w0 o f else none) with
    | some t, _ => trapAt s k 7 0 t
    | none, some id => trapAt s k 4 0 (BitVec.ofInt 64 id)
    | none, none =>
      let s := if takesAt w0 o f then drainAll s k else s
      match getWarp s k with
      | none => s
      | some w =>
        if !isLive w then s
        else if takesHeld w0 w o f then
          (match heldOf w with
           | some (kd, a) => trapAt (updWarp s k fun w => { w with region := none }) k 5 kd (BitVec.ofNat 64 a)
           | none => s)
        else if takesAt w0 o f && postWaits s k then waitIn s k .stalled
        else perform o f len body s k w

/-- The instruction carries the clock to a round mark: by its weight, or as a pass (R186, R224). -/
def toMark (w : Warp) (o : Op) (f : Long) : Bool :=
  w.turn && (o == .pass || o == .passTo || decide (nextMark w.quantum w.clock ≤ w.clock + weightOf w o f))

/-- The instruction is to wait until the accesses before it are confirmed: some are not, and no region is open once it issues or once
it has carried the clock to a mark, which closes the region (R96, R97). -/
def needsConfirm (s : State) (k : Nat) (w : Warp) (o : Op) (f : Long) : Bool :=
  !w.unconf.isEmpty && ((regionAt s k w o f).isNone || toMark w o f)

/-- The course of an instruction of `len` bytes issued by warp `k`, whose own effect is `body`. One that fails a check before it issues
leaves the region as it is (log 114). -/
def issueAt (o : Op) (f : Long) (len : Nat) (body : State → Nat → Warp → Act) (s : State) (k : Nat) (w : Warp) : State :=
  match preCheck s k w o f with
  | some (cause, addr, sec) => trapAt (reportSecure (if cause = 5 then walkTouch s (siteOf s k) addr.toNat else s) (partOf k) { kind := 0, secure := sec }) k cause 0 addr
  | none =>
    match (if parks o f then settle s k else if needsConfirm s k w o f then confirm s k else .ok s) with
    | .wait => waitIn s k .stalled
    | .fault _ _ => trapAt s k 5 0 0
    | .ok s => performHeld o f len body s k

/-- An instruction is issued by the warp that holds the issue. -/
def issue (o : Op) (f : Long) (len : Nat) (body : State → Nat → Warp → Act) (s : State) : Out :=
  match s.cur with
  | none => .fault .noIssuer
  | some k =>
    match getWarp s k with
    | none => .fault .noIssuer
    | some w => .next (issueAt o f len body s k w)

/-- An instruction whose own effect changes the warp alone. -/
def warpOp (o : Op) (f : Long) (len : Nat) (g : Warp → Warp) (s : State) : Out :=
  issue o f len (fun s k w => .retire (setWarp s k (g w)) .next none id) s

/-- Publishes the hand at a domain turn (R190); nothing in free mode. -/
def turnPub (s : State) (k : Nat) : State :=
  match getWarp s k with
  | none => s
  | some w => if w.turn then pubHand s k w (stampOf k w) else s

/-- The mark that an acquiring operation jumps to (R196): the least multiple of Q at or above clock + weight. -/
def acquireClock (w : Warp) (wt : Nat) : Nat := ceilMark w.quantum (w.clock + wt)

end Sys2Proof.Machine
end

