-- ==== Sys2Proof/Machine/MemOps.lean ====
section
/-! DEFINITION. Plain accesses (spec 08, 09): check 5 of R162, the bytes that a load reads (R164, R165, R187), loads and
their outstanding results (R74, R97, R163, R347), stores into the hand with the hand-full pass (R188, R189), posted
stores (R166), and group memory (R149, R195). -/

namespace Sys2Proof.Machine

/-- What a failed check 5 leaves: the translations of the elements that passed before it are installed, that of the failing one is not
(log 85) though its walk reads the table (R14), a secure access is reported, the fault is raised. -/
def faultWalk (s : State) (k : Nat) (e : MErr) : State :=
  reportSecure (if e.late then walkTouch s (siteOf s k) e.addr.toNat else s) (partOf k) { kind := e.kind, secure := e.secure }

/-- A failed check 5 after the accesses `xs` that passed. -/
def memFault (s : State) (k : Nat) (xs : List Acc) (e : MErr) : Act :=
  .trap (faultWalk (installAll s (siteOf s k) xs) k e) e.cause e.kind e.addr

/-! ## Bytes that a load reads -/

/-- The byte of the warp's hand (R187). -/
def handByte (h : Hand) (key : Nat) : Option Byte :=
  match h.secs.find? fun x => x.key == key / 64 * 64 with
  | some x => kfind x.data (key % 64)
  | none => none

/-- The byte that the warp's latest posted or held store to an address writes (R164). -/
def postedByte (s : State) (z : Site) (w : Warp) (key va : Nat) : Option Byte :=
  ((w.posted ++ w.hposted).flatMap fun x => x.lanes).foldl (fun r l =>
    let at_ : Option Nat := (findXlat s z l.1).map fun t => xlatKey s z.part t l.1
    let same := (decide (l.1 ≤ va) && decide (va < l.1 + l.2.length)) ||
      at_.any fun a => decide (a ≤ key) && decide (key < a + l.2.length)
    if same then
      (match at_ with
       | some a => l.2[key - a]?
       | none => l.2[va - l.1]?).or r
    else r) none

/-- What a warp's plain loads read below its own writes: the settled image of its round, or memory (R187, R207). -/
def plainBase (s : State) (k : Nat) (w : Warp) : Memory :=
  if w.turn then image s (domOf s (partOf k)) (w.clock / w.quantum * w.quantum, 0) else s.mem

/-- The byte of a plain load (R164, R165, R171, R338). -/
def plainByte (s : State) (k : Nat) (w : Warp) (base : Memory) (bypass : Bool) (x : Xlat) (key va : Nat) : Byte :=
  let chip := chipOf (partOf k)
  let below : Byte :=
    match (if x.mode = 2 then replicaByte s chip key else none) with
    | some b => b
    | none =>
      if w.turn || bypass then rdByte base key
      else match warpCore s k with
        | some (ch, c) => (l1Byte (getCore (getChip s ch) c) key).getD (rdByte base key)
        | none => rdByte base key
  if w.turn then (handByte w.hand key).getD below else (postedByte s (siteOf s k) w key va).getD below

/-- The little-endian number of an element that a plain load reads. -/
def plainNat (s : State) (k : Nat) (w : Warp) (base : Memory) (bypass : Bool) (x : Xlat) (va n : Nat) : Nat :=
  leNat ((List.range n).map fun i => plainByte s k w base bypass x (x.key + i) (va + i))

/-- The number of an element of group memory. -/
def groupNat (g : Group) (off n : Nat) : Nat := leNat ((List.range n).map fun i => sget 0 g.gmem (off + i))
/-- Writes bytes of group memory. -/
def wrGroupMem (g : Group) (off : Nat) (bs : List Byte) : Group :=
  { g with gmem := bs.zipIdx.foldl (fun m b => sput 0 m (off + b.2) b.1) g.gmem }

/-- In turn mode an access of `n` bytes at a group-memory offset stalls at a buffer in the filling state, and a plain store
also at one in the draining state (R203, R239); any access stalls at bytes that a started copy has still to write there (log 107). -/
def rangeStall (w : Warp) (g : Group) (store : Bool) (off n : Nat) : Bool :=
  w.turn && g.bufs.any fun b => ((b.2.state == 1 || (store && b.2.state == 3)) &&
    decide (b.2.off < off + n) && decide (off < b.2.off + b.2.len)) ||
    b.2.copy.any fun c => c.gw.any fun e => decide (off ≤ e.1) && decide (e.1 < off + n)

/-! ## Register writes -/

/-- The extension of R160. -/
def extVal (sx : Bool) (n : Nat) (x : Nat) : Int := if sx then intOf true (8 * n) x else (x : Int)
def signExt (t : Ty) : Bool := t == .i8 || t == .i16 || t == .i32

/-- The register writes of one loaded element. -/
def elemWrites (r : RSrc) (x : Nat) : List RegW :=
  if !r.vec then [.s r.reg (BitVec.ofInt 64 (extVal r.sx r.size x))]
  else if r.size = 8 then [.v r.reg r.lane (BitVec.ofNat 32 x), .v (r.reg + 1) r.lane (BitVec.ofNat 32 (x / 2 ^ 32))]
  else [.v r.reg r.lane (BitVec.ofInt 32 (extVal r.sx r.size x))]

/-- What the access `x` of a load fills. -/
def loadDest (o : Op) (f : Long) (x : Acc) : RSrc :=
  { vec := o != .sld, reg := f.d.toNat, lane := x.lane, key := accKey x, size := elemSize o f, va := x.va, sx := signExt f.ty
    keep := x.x.bind fun y => if y.mode = 2 then some (y.base, y.size) else none, val := none }

/-- The register identifiers that an outstanding result of the instruction holds (R74). -/
def outIds (o : Op) (f : Long) : List Nat := writeIds o f

/-- Appends an outstanding result; one of the special-function and level-index unit takes an entry of the slot's queue for each
pass (R279). -/
def addPend (w : Warp) (x : Pend) : Warp :=
  let x := { x with queue := x.queue.map fun _ => (w.slot.getD 0, w.width / 16) }
  { w with pend := w.pend ++ [x], outst := (w.outst ++ x.regs).eraseDups }

/-- The result of an instruction is outstanding from now on (R74, R114). -/
def pendOf (o : Op) (f : Long) (ws : List RegW) (fp lx : Nat) (r : Option Remote) : Pend :=
  { regs := outIds o f, writes := ws, fp := BitVec.ofNat 64 fp, lx := BitVec.ofNat 64 lx, remote := r
    queue := if isSpecial o || isLevel o || o == .lxcvt then some (0, 0) else none }

/-! ## Loads (R163) -/

/-- Instructions of the warp that wait for a reply from another chip; at most 16 (R302). -/
def replies (w : Warp) : Nat :=
  ((flightPends w).filter pendWaits).length

/-- The access goes to another chip: its home is elsewhere and no replica serves it (R336, R338). -/
def farAccess (s : State) (k : Nat) (x : Acc) : Bool :=
  match x.x with
  | none => false
  | some y => y.key / keyBase != chipOf (partOf k) && !(y.mode == 2 && (replicaByte s (chipOf (partOf k)) y.key).isSome)

/-- The bytes of an element, by offset, that the warp's own posted or held stores write (R164). -/
def ownBytes (s : State) (k : Nat) (w : Warp) (x : Acc) (n : Nat) : KMap Byte :=
  (List.range n).filterMap fun i => (postedByte s (siteOf s k) w (accKey x + i) (x.va + i)).map fun b => (i, b)

/-- The outstanding result of a load whose elements passed check 5. -/
def loadPend (s : State) (k : Nat) (w : Warp) (o : Op) (f : Long) (xs : List Acc) : Pend :=
  let base := plainBase s k w
  let byp := f.mod = 3
  let val (x : Acc) : Nat := match x.x with
    | some y => plainNat s k w base byp y x.va (elemSize o f)
    | none => match getGroup s k with | some g => groupNat g x.va (elemSize o f) | none => 0
  let near := xs.filter fun x => !farAccess s k x
  let far := xs.filter fun x => farAccess s k x
  let ws := near.flatMap fun x => elemWrites (loadDest o f x) (val x)
  let srcs := far.map fun x =>
    { loadDest o f x with
      own := if w.turn then [] else ownBytes s k w x (elemSize o f)
      val := if w.turn then some (BitVec.ofNat 64 (val x)) else none }
  pendOf o f ws 0 0 (match far with
    | [] => none
    | x :: _ => some { core := warpCore s k, issued := (getChip s (chipOf (partOf k))).sent, hint := f.mod.toNat, home := accKey x / keyBase, srcs := srcs, served := false, refused := none, va := x.va, pc := curPc w
                       clock := w.clock })

/-- The reply that an operation performed at another chip's home brings with its result (R336, R347); `none` when every element
is at home. -/
def farReply (s : State) (k : Nat) (w : Warp) (xs : List Acc) : Option Remote :=
  (xs.find? (farAccess s k)).map fun x =>
    { home := accKey x / keyBase, srcs := [], served := true, refused := none, va := x.va, pc := curPc w, clock := w.clock }

/-- The flits of an access to the chips that are its elements' homes (R330, R336). -/
def sendAccess (s : State) (k : Nat) (w : Warp) (n : Nat) (xs : List Acc) : State :=
  let far := xs.filter fun x => farAccess s k x
  ((far.map fun x => accKey x / keyBase).eraseDups).foldl (fun s h =>
    sendFlits s (chipOf (partOf k)) (myIndex s h) (n * (far.filter fun x => accKey x / keyBase == h).length)
      fun i => .request k w.clock i) s

/-- The round that the L1 lines of a warp carry: its first clock, in turn mode. -/
def roundTag (w : Warp) : Option Nat := if w.turn then some (w.clock / w.quantum * w.quantum) else none

/-- The lines of some keys enter the L1 (R171): a sector that it holds already is served there, one that it misses is fetched. -/
def bringL1 (s : State) (k : Nat) (w : Warp) (hint : Nat) (keys : List Nat) : State :=
  let base := plainBase s k w
  if keys.isEmpty then s
  else updCore s k fun co => keys.foldl (fun co a => l1Fetch co (groupKey k) (roundTag w) hint base a) co

/-- The L1 of the warp's core holds the sector of a key for the warp's round. -/
def inL1 (s : State) (k : Nat) (w : Warp) (key : Nat) : Bool :=
  match warpCore s k with
  | some (ch, c) => l1Has (getCore (getChip s ch) c) (roundTag w) key
  | none => false

/-- The page of a `MODE` 10 access to another chip's memory is one whose lines the issuing chip may keep from now on (R338, R350). -/
def noteReplica (s : State) (k : Nat) (x : Acc) : State :=
  let c := chipOf (partOf k)
  match x.x with
  | none => s
  | some y =>
    if y.mode = 2 ∧ y.key / keyBase ≠ c then
      let ch := getChip s c
      let page := (ctxNum s (partOf k), y.base, y.size, y.key - (x.va - y.base))
      if ch.replicaOf.contains page then s else setChip s c { ch with replicaOf := ch.replicaOf ++ [page] }
    else s

/-- The L1 may hold what an access reads: memory of the chip or of a replicated page (R336, R338). -/
def l1Able (x : Acc) : Bool := match x.x with | some y => y.mode == 0 || y.mode == 2 | none => false

/-- The lines that accesses bring into the L1, and the slices at which they are served (R14, R171, R175), each access with the keys
that it asks for: group memory reaches none, a replica is served by the chip that keeps it (R338), a direct page is served at its home
alone, hint 3 bypasses the L1 (R167), and those that are `away` reach their home later, when it serves them. -/
def bringLines (s : State) (k : Nat) (w : Warp) (hint : Nat) (away : Acc → Bool) (xs : List (Acc × List Nat)) : State :=
  let xs := xs.filter fun x => x.1.x.isSome
  let inCore (x : Acc) : Bool := hint != 3 && l1Able x
  let kept (a : Nat) : Bool := (replicaByte s (chipOf (partOf k)) a).isSome
  let served := (xs.filter fun x => !away x.1).flatMap fun x => x.2.filter fun a => !kept a && !(inCore x.1 && inL1 s k w a)
  sliceTouches (bringL1 (xs.foldl (fun s x => noteReplica s k x.1) s) k w hint ((xs.filter fun x => inCore x.1).flatMap (·.2)))
    false hint served

/-- The lines of a load's elements. -/
def loadLines (s : State) (k : Nat) (w : Warp) (hint : Nat) (xs : List Acc) : State :=
  bringLines s k w hint (farAccess s k) (xs.map fun x => (x, [accKey x]))

/-- The refused accesses of an instruction, one for each sector (R346). -/
def refusedAccs (s : State) (k : Nat) (w : Warp) (xs : List Acc) : List Denied :=
  perSector (xs.filterMap fun x =>
    if x.x.isNone then none
    else (homeRefuses s (chipOf (partOf k)) w.sec (accKey x)).map fun kd =>
      { kind := kd, va := x.va, pc := curPc w, key := accKey x })

/-- The accesses of a load that reach their home: those that no replica serves (R338). -/
def homeAccs (s : State) (k : Nat) (xs : List Acc) : List Acc :=
  xs.filter fun x => farAccess s k x || accKey x / keyBase == chipOf (partOf k)

/-- `VLD`, `VLDS` and `SLD`. -/
def loadBody (o : Op) (f : Long) (s : State) (k : Nat) (w : Warp) : Act :=
  let (xs, err) := checkAll s k w o f (some .load) true
  let p := partOf k
  let z := siteOf s k
  let miss := xs.any (fun x => x.x.isSome && !tlbHas s z x.va) || err.any (·.late)
  let defer := w.region.isSome && miss
  let note (s : State) (pd : Option Pend) (flt : Option (Nat × Nat)) : Act :=
    .retire (updWarp s k fun w =>
      { w with unconf := w.unconf ++ [{ pc := curPc w, frag := w.run, clock := faultClock w, idx := w.repidx, pend := pd, fault := flt
                                        vas := (xs.filter fun x => x.x.isSome).map (·.va) }]
               outst := (w.outst ++ outIds o f).eraseDups }) .next none id
  match err with
  | some e =>
    if defer && e.late then note (faultWalk s k e) none (some (e.kind, e.addr.toNat))
    else memFault s k xs e
  | none =>
    if inWindow w o f then
      match getGroup s k with
      | none => .wait
      | some g =>
        if xs.any (fun x => rangeStall w g false x.va (elemSize o f)) then .wait
        else .retire (setWarp s k (addPend w (loadPend s k w o f xs))) .next none id
    else
      let far := xs.any (farAccess s k)
      if far && decide (16 ≤ replies w) then .wait
      else
        let s := if far then drainAll s k else s
        let keys := (xs.filter fun x => x.x.isSome && !farAccess s k x).map accKey
        let s := if w.turn then s else serveCore s k keys
        if (far && postWaits s k) || (!w.turn && (linesWait s k keys || keys.any (keyHeld s (chipOf p)))) then .wait
        else
          let s := sendAccess (countPages s z (accPages xs)) k w 8 xs
          let bad := refusedAccs s k w (homeAccs s k xs)
          if !bad.isEmpty then
            let s' := refuseAll s k bad true w.clock
            if w.turn then .done s' else .retire s' .next none id
          else
            let w := match getWarp s k with | some w => w | none => w
            let pd := loadPend s k w o f xs
            let s := loadLines s k w f.mod.toNat xs
            if defer then note s (some pd) none
            else .retire (updWarp (installAll s z xs) k fun w => addPend w pd) .next none id

/-! ## Stores (R164) -/

/-- The bytes that a lane stores: the low bytes of its register or pair (R160). -/
def storeBytes (w : Warp) (o : Op) (f : Long) (l : Nat) : List Byte :=
  let n := elemSize o f
  if o = .sst then leBytes n (rdS w f.d.toNat).toNat
  else if n = 8 then leBytes 8 (rdVV w f.d.toNat l).toNat
  else leBytes n (rdV w f.d.toNat l).toNat

/-- Writes an element into the hand (R188); `none` when it needs a sector and 64 are held. -/
def handPut (h : Hand) (key va : Nat) (pc : Dword) (bs : List Byte) : Option Hand :=
  let base := key / 64 * 64
  let put (x : Sector) : Sector :=
    bs.zipIdx.foldl (fun x b =>
      { x with data := kinsert x.data (key - base + b.2) b.1, pub := setLane x.pub (key - base + b.2) false })
      { x with pc := pc, va := va }
  if h.secs.any fun x => x.key == base then
    some { h with secs := h.secs.map fun x => if x.key == base then put x else x }
  else if 64 ≤ h.secs.length then none
  else some { h with secs := h.secs ++ [put { key := base, data := [], pub := 0, pc := pc, va := va }] }

/-- The warp is still on its way through the instruction: it has not stopped and no refusal has ended its card. -/
def goesOn (s : State) (k : Nat) : Bool :=
  match getWarp s k with
  | some w => match w.stat with
    | .ended | .stopped | .dying .. => false
    | _ => true
  | none => false

/-- The hand-full pass (R189). -/
def handPass (s : State) (k : Nat) : State :=
  match getWarp s k with
  | some w => moveClock s k (nextMark w.quantum w.clock)
  | none => s

/-- One lane's element enters the hand, after the hand-full pass where it needs one. -/
def handStore (s : State) (k : Nat) (key va : Nat) (bs : List Byte) : State :=
  match getWarp s k with
  | none => s
  | some w =>
    match handPut w.hand key va (curPc w) bs with
    | some h => setWarp s k { w with hand := h }
    | none =>
      let s := handPass s k
      if !goesOn s k then s
      else updWarp s k fun w => { w with hand := (handPut w.hand key va (curPc w) bs).getD w.hand }

/-- The first lane that needs a 65th sector. -/
def handOver (w : Warp) (o : Op) (f : Long) : Hand → List Acc → Option Acc
  | _, [] => none
  | h, x :: r =>
    match handPut h (accKey x) x.va (curPc w) (storeBytes w o f x.lane) with
    | some h => handOver w o f h r
    | none => some x

/-- A turn-mode store to global memory (R165). Its hint does not reach the slices (log 116). -/
def turnStore (o : Op) (f : Long) (s : State) (k : Nat) (w : Warp) (xs : List Acc) : Act :=
  match (if w.sys then handOver w o f w.hand xs else none) with
  | some x => memFault s k xs { cause := 5, kind := 0, addr := BitVec.ofNat 64 x.va, secure := none, late := false }
  | none =>
    let z := siteOf s k
    let s := countPages (dirtyAll s z xs) z (accPages xs)
    let s := xs.foldl (fun s x =>
      if goesOn s k then handStore s k (accKey x) x.va (storeBytes w o f x.lane) else s) s
    if goesOn s k then .retire s .next none id else .done s

/-- A free-mode store to global memory is posted once its space and alignment pass (R166). -/
def postStore (o : Op) (f : Long) (s : State) (k : Nat) (w : Warp) (xs : List Acc) : Act :=
  let x : Posted := { pc := curPc w, hint := f.mod.toNat, lanes := xs.map fun x => (x.va, storeBytes w o f x.lane) }
  .retire (setWarp s k (if xs.isEmpty then w else setPosted w (postedOf w ++ [x]))) .next none id

/-- `VST`, `VSTS` and `SST`. -/
def storeBody (o : Op) (f : Long) (s : State) (k : Nat) (w : Warp) : Act :=
  let (xs, err) := checkAll s k w o f (if w.turn then some .store else none) true
  match err with
  | some e => memFault s k xs e
  | none =>
    if inWindow w o f then
      match getGroup s k with
      | none => .wait
      | some g =>
        if xs.any (fun x => rangeStall w g true x.va (elemSize o f)) then .wait
        else .retire (setGroup s k (xs.foldl (fun g x => wrGroupMem g x.va (storeBytes w o f x.lane)) g)) .next none id
    else if w.turn then turnStore o f s k w xs
    else postStore o f s k w xs

/-! ## Invalidation (R170, R350) -/

/-- The translations that an invalidation removes: form 0 those of a context that cover an address, 1 those of a context, 2 all. -/
def invalHit (form ctx va : Nat) (t : Tlb) : Bool :=
  match form with
  | 0 => tlbHit t ctx va
  | 1 => t.ctx == ctx
  | _ => true

/-- An access of a chip that one of the selected translations translated has not yet performed at its home; a store in a hand has
(log 117). -/
def xlatInUse (s : State) (c : Nat) (hit : Tlb → Bool) : Bool :=
  s.warps.any fun e => chipOf (partOf e.1) == c &&
    (flightPends e.2).any fun x => match x.remote with
      | some r => !r.served && r.refused.isNone && r.srcs.any fun y => (held s (siteOf s e.1) y.va).any hit
      | none => false

/-! ## Confirmation and replies -/

/-- The oldest unconfirmed access of a warp is confirmed: its translations are installed and its result goes on, or its
fault is taken (R97). -/
def confirmLoad (s : State) (k : Nat) : State :=
  match getWarp s k with
  | none => s
  | some w =>
    match w.unconf with
    | [] => s
    | u :: us =>
      if u.fault.isSome then
        if w.pend.any pendWaits then s else trapAt s k 5 0 0
      else
        let s := u.vas.foldl (fun s va => install s (siteOf s k) va) s
        updWarp s k fun w => { w with unconf := us, pend := w.pend ++ u.pend.toList }

/-- The oldest request of a warp that its home has not served is served or refused there (R336, R346). -/
def serveRemote (s : State) (k : Nat) : State := servePend s k fun _ => true

/-- A reply has been written into the slot of a saved warp: its entry of the late-reply table says so (R302, R347). -/
def markLate (w : Warp) (regs : List Nat) : Warp :=
  match w.late.find? fun e => e.reg == regs.headD 0 && !e.late with
  | some e => { w with late := w.late.erase e ++ [{ e with late := true }] }
  | none => w

/-- The oldest result of a warp whose home has served its request. -/
def servedPend (w : Warp) : Option Pend := (flightPends w).find? fun x => match x.remote with | some r => r.served | none => false

/-- The reply to the oldest served request is written into its registers, or into the saved warp's slot (R302, R347); that of an
unconfirmed load completes its result, which goes on when the load is confirmed (R97). -/
def replyRemote (s : State) (k : Nat) : State :=
  match getWarp s k with
  | none => s
  | some w =>
    match servedPend w with
    | none => s
    | some x =>
      let srcs := match x.remote with | some r => r.srcs | none => []
      let y := { x with writes := x.writes ++ srcs.flatMap fun e => elemWrites e (match e.val with | some v => v.toNat | none => 0) }
      if w.pend.contains x then
        setWarp s k (markLate (applyPend { w with pend := w.pend.filter fun z => z != x } y) x.regs)
      else
        let put (z : Pend) : Pend := if z == x then { y with remote := none } else z
        setWarp s k (markLate { w with unconf := w.unconf.map fun u => { u with pend := u.pend.map put } } x.regs)

/-- The oldest outstanding result that waits for no reply is written (R74); its registers stay outstanding (R75). -/
def writeResult (s : State) (k : Nat) : State :=
  match getWarp s k with
  | none => s
  | some w =>
    match w.pend.find? fun x => !pendWaits x with
    | none => s
    | some x => setWarp s k (applyPend { w with pend := w.pend.filter fun y => y != x } x)

end Sys2Proof.Machine
end

