-- ==== Sys2Proof/Machine/Sequencer.lean ====
section
/-! DEFINITION. The sequencer instructions, MAJ 0x00 to 0x12 (spec 05): branches and fragments (R83, R84), rejoin registers
(R85 to R88), exit (R89, R34), the repeat prefix (R90 to R93), register grants (R94, R95), regions (R96), traps (R99 to
R102), the return from a handler (R98) and the special registers (R79, R80); with parking (R190, R197) and the completion
of barriers (R219), which later files use. -/

namespace Sys2Proof.Machine

open Sys2Proof.Forms

/-! ## Fragments (R30, R31, R87) -/

/-- Recomputes every sibling mask. -/
def resib (fs : List Frag) : List Frag :=
  fs.map fun f => { f with sibs := fs.foldl (fun m g => if g.id != f.id && g.parent == f.parent then m ||| bitMask g.id else m) 0 }

/-- The lowest identifier among fragments that a test selects. -/
def lowest (fs : List Frag) (sel : Frag → Bool) : Option Nat :=
  (fs.filter sel).foldl (fun r f => match r with | none => some f.id | some i => some (min i f.id)) none

/-- Unites the fragments that wait at `jn`, and `own` where given: R86's completion. -/
def reunite (w : Warp) (jn : Nat) (own : Option Nat) : Warp :=
  let j := rdJ w jn
  let hit (f : Frag) : Bool := f.wait == some jn || own == some f.id
  match lowest w.frags hit with
  | none => w
  | some g =>
    let fs := (w.frags.filter fun f => !hit f || f.id == g).map fun f =>
      if f.id = g then { f with lanes := j.arrived, pc := j.addr, wait := none } else f
    wrJ { w with frags := resib fs, run := g } jn JReg.empty

/-- The lost-reconvergence release (R87). -/
def lostRelease (w : Warp) : Warp :=
  match (List.range 8).find? fun n => w.frags.any fun f => f.wait == some n with
  | none => w
  | some n =>
    let w := reunite w n none
    { w with jstat := BitVec.ofNat 64 (w.jstat.toNat % 256 / 2 * 2 + 1 + n * 256) }

/-- Ends the run at retirement. -/
def endAfter (w : Warp) : Warp := { w with runLen := 24 }

/-- Switches to the lowest-numbered ready fragment, or releases a rejoin register when none is ready. -/
def switchFrag (w : Warp) : Warp :=
  match lowest w.frags fun f => f.wait.isNone with
  | some g => { w with run := g }
  | none => lostRelease w

/-! ## Branches (R83, R84) -/

/-- A target relative to the instruction. -/
def relTarget (w : Warp) (f : Long) : Dword := curPc w + (f.imm.signExtend 64 <<< 2)

def nopBody (_ : Long) (s : State) (_ : Nat) (_ : Warp) : Act := .retire s .next none id

def braBody (f : Long) (s : State) (_ : Nat) (w : Warp) : Act := .retire s (.goto (relTarget w f)) none id

/-- The division of a fragment: the new one takes the branch. -/
def divide (take : BitVec 64) (tgt : Dword) (w : Warp) : Warp :=
  let n := ((List.range 65).find? fun n => w.frags.all fun f => f.id != n).getD 64
  let fs := w.frags.map fun f => if f.id == w.run then { f with lanes := f.lanes &&& ~~~take } else f
  { w with frags := resib (fs ++ [{ id := n, parent := w.run, sibs := 0, lanes := take, pc := tgt, wait := none }])
           region := if w.sys then w.region else none }

def brcBody (f : Long) (s : State) (_ : Nat) (w : Warp) : Act :=
  let take := active w .brc f
  let tgt := relTarget w f
  if take = curLanes w then .retire s (.goto tgt) none id
  else if take = 0 then .retire s .next none id
  else .retire s .next none (divide take tgt)

/-- `BRX` and `RET`, whose target's alignment check 1 has found (`branchFault`). -/
def jumpBody (f : Long) (s : State) (_ : Nat) (w : Warp) : Act := .retire s (.goto (rdS w f.a.toNat)) none id

/-- `CALL` with its target; `len` is the instruction's length. -/
def callTo (f : Long) (len : Nat) (t : Dword) (s : State) (k : Nat) (w : Warp) : Act :=
  .retire (setWarp s k (wrS w f.d.toNat (curPc w + BitVec.ofNat 64 len))) (.goto t) none id

def callBody (f : Long) (len : Nat) (s : State) (k : Nat) (w : Warp) : Act := callTo f len (relTarget w f) s k w
def callRegBody (f : Long) (len : Nat) (s : State) (k : Nat) (w : Warp) : Act := callTo f len (rdS w f.a.toNat) s k w

/-! ## Rejoin registers (R85, R86, R88) -/

def markBody (f : Long) (s : State) (k : Nat) (w : Warp) : Act :=
  let n := f.a.toNat
  if (rdJ w n).arrived ≠ 0 then .trap s 6 2 (BitVec.ofNat 64 n)
  else .retire (setWarp s k (wrJ w n { addr := relTarget w f, expect := curLanes w, arrived := 0 })) .next none id

def joinBody (f : Long) (s : State) (_ : Nat) (w : Warp) : Act :=
  let n := f.a.toNat
  let j := rdJ w n
  let l := curLanes w
  if j.expect = 0 ∨ l &&& ~~~j.expect ≠ 0 ∨ l &&& j.arrived ≠ 0 then .trap s 6 1 (BitVec.ofNat 64 n)
  else
    let arrive (w : Warp) : Warp := wrJ w n { j with arrived := j.arrived ||| l }
    if j.arrived ||| l = j.expect then .retire s .keep none fun w => reunite (arrive w) n (some w.run)
    else .retire s .keep none fun w => endAfter (switchFrag (updFrag (arrive w) fun f => { f with wait := some n }))

def jmovToSBody (f : Long) (s : State) (k : Nat) (w : Warp) : Act :=
  let j := rdJ w f.a.toNat
  let x := match f.imm.toNat with | 0 => j.addr | 1 => j.expect | _ => j.arrived
  .retire (setWarp s k (wrS w f.d.toNat x)) .next none id

def jmovToJBody (f : Long) (s : State) (k : Nat) (w : Warp) : Act :=
  let n := f.d.toNat
  let j := rdJ w n
  let x := rdS w f.a.toNat
  let waits := w.frags.any fun g => g.wait == some n
  match f.imm.toNat with
  | 0 => if x.toNat % 4 ≠ 0 then .trap s 7 0 x else .retire (setWarp s k (wrJ w n { j with addr := x })) .next none id
  | i =>
    if waits then .trap s 6 1 (BitVec.ofNat 64 n)
    else
      let y := x &&& fullMask w.width
      .retire (setWarp s k (wrJ w n (if i = 1 then { j with expect := y } else { j with arrived := y }))) .next none id

/-! ## Parking (R190, R197) -/

/-- The warp parks: its hand is published on its behalf, and its run ends. -/
def parkWarp (s : State) (k : Nat) (w : Warp) (what : ParkWhat) (len : Nat) (en : Bool) : State :=
  let m := nextMark w.quantum w.clock
  let bad := if w.turn then handRefusals s (chipOf (partOf k)) w.sec w.hand true else []
  let s := if w.turn then pubMark s k w m w.clock else s
  refuseAll (waitIn s k (.parked what len en)) k bad false (m - 1)

/-! ## Register grants (R94, R95) -/

/-- Grants waiting claims from the head while the pool holds enough; `n` bounds their number. -/
def grantClaims (s : State) (gk : Nat) (r : Stamp) : Nat → State
  | 0 => s
  | n + 1 =>
    match getGroup s gk with
    | none => s
    | some g =>
      match g.claims with
      | [] => s
      | k :: l =>
        match getWarp s k with
        | some w =>
          (match w.stat with
           | .parked (.claim c) _ _ =>
             if c ≤ g.poolFree then
               grantClaims (wake (setGroup s gk { g with poolFree := g.poolFree - c, claims := l }) k r) gk r n
             else s
           | _ => grantClaims (setGroup s gk { g with claims := l }) gk r n)
        | none => grantClaims (setGroup s gk { g with claims := l }) gk r n

def grantAll (s : State) (gk : Nat) (r : Stamp) : State :=
  grantClaims s gk r (match getGroup s gk with | some g => g.claims.length | none => 0)

def giveBody (f : Long) (s : State) (k : Nat) (w : Warp) : Act :=
  let n := f.imm.toNat
  if w.allot < n then .trap s 4 0 (BitVec.ofNat 64 w.allot)
  else
    let lim := (w.allot - n) * 64
    let s := setWarp s k { w with allot := w.allot - n, v := w.v.filter fun e => decide (e.1 < lim) }
    let s := updGroup s k fun g => { g with poolFree := g.poolFree + n }
    .retire (grantAll s k (stampOf k w)) .next none id

/-- The allotments of the group's other live warps. -/
def othersAllot (s : State) (k : Nat) : Nat :=
  s.warps.foldl (fun a e => if e.1 != k && groupKey e.1 == groupKey k && isLive e.2 then a + e.2.allot else a) 0

def claimBody (f : Long) (len : Nat) (s : State) (k : Nat) (w : Warp) : Act :=
  let n := f.imm.toNat
  match getGroup s k with
  | none => .wait
  | some g =>
    if 256 < w.allot + n ∨ g.poolCap - othersAllot s k < n then .trap s 4 0 (BitVec.ofNat 64 n)
    else if g.claims = [] ∧ n ≤ g.poolFree then
      .retire (setWarp (setGroup s k { g with poolFree := g.poolFree - n }) k { w with allot := w.allot + n }) .next none id
    else .done (parkWarp (setGroup s k { g with claims := g.claims ++ [k] }) k w (.claim n) len f.fl.en)

/-! ## Barriers (R219) -/

/-- The phase of barrier `n` is complete. -/
def barComplete (s : State) (gk n : Nat) : Bool :=
  match getGroup s gk with
  | none => false
  | some g =>
    let b := getBar g n
    if b.expect ≠ 0 then decide (b.expect ≤ b.count)
    else decide (0 < b.count) &&
      s.warps.all fun e => groupKey e.1 != groupKey gk || b.arrived.contains e.1 || !isLive e.2

/-- Completes the phase where it is complete, reinstating the warps parked on it within an act of stamp `r`. A `.g` wait
of scope die or wider acquires in free mode (R171, R209, R220). -/
def barStep (s : State) (gk : Nat) (r : Stamp) (n : Nat) : State :=
  if !barComplete s gk n then s
  else match getGroup s gk with
    | none => s
    | some g =>
      let ph := ((getBar g n).phase + 1) % 2 ^ 16
      let s := setGroup s gk (setBar g n { phase := ph, count := 0, expect := 0, arrived := [] })
      s.warps.foldl (fun s e =>
        if groupKey e.1 != groupKey gk then s
        else match e.2.stat with
          | .parked (.bar m p sc g) _ _ =>
            if m = n ∧ p ≠ ph then wake (if g && !e.2.turn && decide (3 ≤ sc) then l1Clear s e.1 else s) e.1 r else s
          | _ => s) s

/-! ## Exit (R34, R89, R191) -/

/-- The last lane exits: the warp ends, with what its group and card then do. -/
def endWarp (s : State) (k : Nat) (w : Warp) : State :=
  let m := nextMark w.quantum w.clock
  let bad := if w.turn then handRefusals s (chipOf (partOf k)) w.sec w.hand true else []
  let s := if w.turn then pubMark s k w m w.clock else s
  let s := updWarp s k fun w => { w with stat := .ended, clock := w.clock + 1, endClock := m, frags := [], region := none }
  let s := grantAll (updGroup s k fun g => { g with poolFree := g.poolFree + w.allot }) k (stampOf k w)
  let s := (List.range 16).foldl (fun s n => barStep s k (stampOf k w) n) s
  let s := endRun s k
  if bad.isEmpty then endGroup s (groupKey k) else refuseAll s k bad false (m - 1)

def exitBody (_ : Long) (s : State) (k : Nat) (w : Warp) : Act :=
  if w.frags.length = 1 then .done (endWarp s k w)
  else .retire s .keep none fun w => endAfter (switchFrag { w with frags := resib (w.frags.filter fun f => f.id != w.run) })

/-! ## Repeat prefix (R90 to R93) -/

/-- `REP` has passed its checks (`preCheck`, `performHeld`): the prefix's own pip, and the repetitions that then follow (its
state in `Warp.rep`), or none. -/
def repWith (f : Long) (count : Nat) (s : State) (k : Nat) (w : Warp) : Act :=
  match repFetch s k w with
  | .ok _ len =>
    let pip := if w.repidx = 0 ∧ w.sys = false then 1 else 0
    if count ≤ w.repidx then
      .retire (setWarp s k { w with repidx := 0 }) (.goto (curPc w + BitVec.ofNat 64 (12 + len))) (some (w.clock + pip))
        fun w => { w with runLen := w.runLen + 1 }
    else
      let s := setWarp s k { w with
        rep := some { count := count, imm := f.imm, clock := w.clock, len := 12 + len }, runLen := w.runLen + 1, pending := false }
      let s := moveClock s k (w.clock + pip)
      .done (match getWarp s k with
        | some x => (match x.stat with | .ready => s | _ => endRun s k)
        | none => s)
  | .refused a key kd => .done (fetchRefusal s k w a key kd)
  | .fault a _ => .trap s 5 0 a
  | .illegal => .trap s 1 0 (curPc w)

def repBody (f : Long) (s : State) (k : Nat) (w : Warp) : Act := repWith f (repCount w .rep f) s k w
def repRegBody (f : Long) (s : State) (k : Nat) (w : Warp) : Act := repWith f (repCount w .repReg f) s k w

/-! ## Regions and traps (R96, R98, R102) -/

/-- `RGN` opens a region at the next instruction. -/
def rgnBody (_ : Long) (s : State) (_ : Nat) (_ : Warp) : Act :=
  .retire s .next none fun w =>
    { w with region := some { entry := curPc w, clock := w.clock, secs := w.hand.secs.length, pots := w.hand.pots.length
                              reads := [], writes := [], resumes := 0, mma := false } }

/-- `TRAP` and `BPT` retire and then trap, once every outstanding result is written (R99, R100). -/
def softTrap (cause kind : Nat) (s : State) (k : Nat) (_ : Warp) : Act :=
  match settle s k with
  | .wait => .wait
  | .fault _ _ => .trap s 5 0 0
  | .ok s => .retireTrap (drainAll s k) cause kind

def trapBody (f : Long) : State → Nat → Warp → Act := softTrap 9 f.imm.toNat
def bptBody (_ : Long) : State → Nat → Warp → Act := softTrap 10 0

/-- `ERET`: held stores perform, and the warp leaves its handler (R98, R166). -/
def eretBody (_ : Long) (s : State) (k : Nat) (w : Warp) : Act :=
  let s := drainAll (setWarp s k (leaveTrap { w with held := none })) k
  if postWaits s k then .wait else .done (endRun s k)

/-! ## Special registers (R29, R79, R80) -/

/-- Flags that outstanding results still carry are set first (R114). -/
def flushFlags (w : Warp) : Warp :=
  let fp := (w.pend ++ w.unconf.flatMap fun u => u.pend.toList).foldl (fun a x => a ||| x.fp) w.fpstat
  let lx := (w.pend ++ w.unconf.flatMap fun u => u.pend.toList).foldl (fun a x => a ||| x.lx) w.lxstat
  { w with fpstat := fp, lxstat := lx, pend := w.pend.map fun x => { x with fp := 0, lx := 0 } }

/-- Enabled cores of a partition (R29). -/
def coreCount (s : State) (p : Nat) : Nat :=
  let c := getChip s (chipOf p)
  ((partDies s p).map fun d => ((List.range 24).filter fun i => c.enabled.getLsbD (d * 24 + i)).length).sum

def b2n (b : Bool) : Nat := if b then 1 else 0

/-- The value of a special register other than `%lane` and `%cycles`. -/
def specialVal (s : State) (k : Nat) (w : Warp) (n : Nat) : Dword :=
  let card := getCard s k
  let core := match warpCore s k with | some (_, c) => c | none => 0
  let nat (x : Nat) : Dword := BitVec.ofNat 64 x
  match n with
  | 0x01 => nat (identOf k)
  | 0x02 => nat (wigOf k)
  | 0x03 => nat (groupNo k)
  | 0x04 => nat (serialOf k)
  | 0x05 => nat w.stage
  | 0x06 => nat w.width
  | 0x07 => nat w.clock
  | 0x08 => nat (w.clock / w.quantum)
  | 0x09 => nat w.quantum
  | 0x0B => nat (if w.turn then (match card with | some c => c.shape.canon | none => 0) else coreCount s (partOf k))
  | 0x0C => nat (match card with | some c => c.shape.split | none => 0)
  | 0x0D => match card with | some c => c.seed | none => 0
  | 0x0E => nat (b2n w.sec * 4 + b2n w.sys * 2 + b2n w.turn)
  | 0x0F => nat (chipIdx k)
  | 0x10 => nat (if w.turn then 0 else core / 24)
  | 0x11 => nat (if w.turn then 0 else core % 24)
  | 0x12 => nat w.run
  | 0x18 => w.fpstat
  | 0x19 => w.lxstat
  | 0x1A => w.mstat
  | 0x1B => nat w.mstep
  | 0x1C => w.jstat
  | 0x1D => nat w.repidx
  | 0x20 => w.tvec
  | 0x21 => w.tcause
  | 0x22 => w.tpc
  | 0x23 => w.tregion
  | 0x24 => w.tfrag
  | 0x25 => w.taddr
  | _ => w.tclock

/-- `SRD`: `%lane` per lane; `%cycles` is `%pips` in turn mode and a free value in free mode (log 3). -/
def srdBody (f : Long) (s : State) (k : Nat) (w : Warp) : Act :=
  let n := f.a.toNat
  if n = 0 then
    .retire (setWarp s k ((activeL w .srd f).foldl (fun x l => wrV x f.d.toNat l (BitVec.ofNat 32 l)) w)) .next none id
  else if n = 0x0A then
    if w.turn then .retire (setWarp s k (wrS w f.d.toNat (BitVec.ofNat 64 w.clock))) .next none id
    else .retire { setWarp s k (wrS w f.d.toNat (Config.freeCycles s.freeCtr)) with freeCtr := s.freeCtr + 1 } .next none id
  else
    let w := if 0x18 ≤ n ∧ n ≤ 0x1A then flushFlags w else w
    .retire (setWarp s k (wrS w f.d.toNat (specialVal s k w n))) .next none id

/-- `SRD.hi` reads the sibling mask of `%tfrag` (R79, R88). -/
def srdHiBody (f : Long) (s : State) (k : Nat) (w : Warp) : Act :=
  .retire (setWarp s k (wrS w f.d.toNat w.tsibs)) .next none id

/-- `SWR`: reserved bits are not written; of `%tregion` only `OPEN` can be cleared (R88). -/
def specialWrite (w : Warp) (n : Nat) (x : Dword) : Warp :=
  match n with
  | 0x18 => { flushFlags w with fpstat := x &&& 0x3F }
  | 0x19 => { flushFlags w with lxstat := x &&& 0x1F }
  | 0x1A => { w with mstat := x &&& 0x3 }
  | 0x1C => { w with jstat := x &&& 0xF03 }
  | 0x20 => { w with tvec := x &&& ~~~(3 : Dword) }
  | 0x22 => { w with tpc := x }
  | 0x23 => { w with tregion := if x.getLsbD 0 then w.tregion else w.tregion &&& ~~~(1 : Dword) }
  | _ => w

def swrBody (f : Long) (s : State) (k : Nat) (w : Warp) : Act :=
  .retire (setWarp s k (specialWrite w f.a.toNat (rdS w f.b.toNat))) .next none id

/-! ## The instructions -/

/-- Short no-operation: adds its pip and has no other effect. (R89) -/
def execNopShort (f : ShortZ) (s : State) : Out := issue .nop f.expand 4 (nopBody f.expand) s

/-- Long no-operation: adds its pip and has no other effect. (R89) -/
def execNopLong (f : Long) (s : State) : Out := issue .nop f f.len (nopBody f) s

/-- Short unconditional branch: sets the issuing fragment's program counter to pc plus 4 times the sign-extended 21-bit offset. (R83) -/
def execBraShort (f : ShortB) (s : State) : Out := issue .bra f.expand 4 (braBody f.expand) s

/-- Long unconditional branch with a 32-bit word offset. (R83) -/
def execBraLong (f : Long) (s : State) : Out := issue .bra f f.len (braBody f) s

/-- Short conditional branch on a predicate: takes, falls through, or divides the fragment into a new fragment. (R84) -/
def execBrcShort (f : ShortC) (s : State) : Out := issue .brc f.expand 4 (brcBody f.expand) s

/-- Long conditional branch that may divide the issuing fragment. (R84) -/
def execBrcLong (f : Long) (s : State) : Out := issue .brc f f.len (brcBody f) s

/-- Short indirect branch to the address in an s register, faulting on a misaligned target. (R83) -/
def execBrxShort (f : ShortA) (s : State) : Out := issue .brx f.expand 4 (jumpBody f.expand) s

/-- Long indirect branch to the address in an s register. (R83) -/
def execBrxLong (f : Long) (s : State) : Out := issue .brx f f.len (jumpBody f) s

/-- Call to a relative label: writes the link to sD and branches. (R83) -/
def execCall (f : Long) (s : State) : Out := issue .call f f.len (callBody f f.len) s

/-- Call to the address in sA: reads the target, writes the link to sD and branches. (R83) -/
def execCallReg (f : Long) (s : State) : Out := issue .callReg f f.len (callRegBody f f.len) s

/-- Return: branches to the address in sA, marked as a return for the predictor. (R83) -/
def execRet (f : Long) (s : State) : Out := issue .ret f f.len (jumpBody f) s

/-- Sets a rejoin register's address, expected mask and empty arrived mask, or faults if it has arrivals. (R85) -/
def execMark (f : Long) (s : State) : Out := issue .mark f f.len (markBody f) s

/-- Short join: adds the fragment's lanes to a rejoin register and either reunites the fragments or waits. (R86) -/
def execJoinShort (f : ShortA) (s : State) : Out := issue .join f.expand 4 (joinBody f.expand) s

/-- Long join on a rejoin register. (R86) -/
def execJoinLong (f : Long) (s : State) : Out := issue .join f f.len (joinBody f) s

/-- Short exit: ends every lane of the issuing fragment and frees its identifier. (R89) -/
def execExitShort (f : ShortZ) (s : State) : Out := issue .exit f.expand 4 (exitBody f.expand) s

/-- Long exit of the issuing fragment's lanes. (R89) -/
def execExitLong (f : Long) (s : State) : Out := issue .exit f f.len (exitBody f) s

/-- Repeat prefix with an immediate count: checks strided registers and performs the target count times. (R92) -/
def execRep (f : Long) (s : State) : Out := issue .rep f f.len (repBody f) s

/-- Repeat prefix whose count comes from sA[15:0]. (R92) -/
def execRepReg (f : Long) (s : State) : Out := issue .repReg f f.len (repRegBody f) s

/-- Opens an idempotent region at the next instruction, recording its mark. (R96) -/
def execRgn (f : Long) (s : State) : Out := issue .rgn f f.len (rgnBody f) s

/-- Software trap: retires and raises cause 0x09 with the code as KIND. (R102) -/
def execTrap (f : Long) (s : State) : Out := issue .trap f f.len (trapBody f) s

/-- Breakpoint: retires and raises cause 0x0A. (R102) -/
def execBpt (f : Long) (s : State) : Out := issue .bpt f f.len (bptBody f) s

/-- Returns from a handler, resuming the region from its mark or continuing at %tpc, after performing held posted stores. (R98) -/
def execEret (f : Long) (s : State) : Out := issue .eret f f.len (eretBody f) s

/-- Reads a special register into an s or v register. (R79) -/
def execSrd (f : Long) (s : State) : Out := issue .srd f f.len (srdBody f) s

/-- Reads the sibling mask of %tfrag into an s register. (R79) -/
def execSrdHi (f : Long) (s : State) : Out := issue .srdHi f f.len (srdHiBody f) s

/-- Writes an s register into a writable special register. (R79) -/
def execSwr (f : Long) (s : State) : Out := issue .swr f f.len (swrBody f) s

/-- Returns n vector registers of the warp's allotment to the group pool and grants waiting claims. (R94) -/
def execGive (f : Long) (s : State) : Out := issue .give f f.len (giveBody f) s

/-- Takes n vector registers from the group pool, or parks until granted in order. (R94) -/
def execClaim (f : Long) (s : State) : Out := issue .claim f f.len (claimBody f f.len) s

/-- Copies one field of a rejoin register into an s register. (R88) -/
def execJmovToS (f : Long) (s : State) : Out := issue .jmovToS f f.len (jmovToSBody f) s

/-- Writes one field of a rejoin register from an s register. (R88) -/
def execJmovToJ (f : Long) (s : State) : Out := issue .jmovToJ f f.len (jmovToJBody f) s

end Sys2Proof.Machine
end

