-- ==== Sys2Proof/Machine/Turn.lean ====
section
/-! DEFINITION. The instructions of the turn unit, MAJ 0x5E to 0x66 (R213 to R224): atomics, pots, acquiring and releasing
accesses, fences, barriers, tickets and passing, in turn mode, on group memory, and in free mode (R207 to R212). -/

namespace Sys2Proof.Machine

open Sys2Proof.Forms

/-! ## Where a synchronising operation performs -/

/-- Group memory, the slices in turn mode, the slices in free mode. -/
inductive Home where
  | group | turn | free
  deriving DecidableEq, Repr

/-- The bytes that the operation reads: group memory by offset, or I(t) with what is published at t (R193), or memory. -/
def homeMem (s : State) (k : Nat) (w : Warp) : Home → Memory
  | .group => match getGroup s k with | some g => g.gmem | none => []
  | .turn => actMem s (partOf k) true (stampOf k w) 1
  | .free => s.mem

/-- Reads and writes below the bytes that the operation has written so far. -/
def ovNat (m : Memory) (ov : KMap Byte) (key n : Nat) : Nat :=
  leNat ((List.range n).map fun i => (kfind ov (key + i)).getD (rdByte m (key + i)))
def ovWrite (ov : KMap Byte) (key : Nat) (bs : List Byte) : KMap Byte :=
  bs.zipIdx.foldl (fun m b => kinsert m (key + b.2) b.1) ov

/-- The operation's writes take effect; in turn mode as a publication with its stamp (R193). -/
def homeWrite (s : State) (k : Nat) (w : Warp) (h : Home) (ov : KMap Byte) : State :=
  match h with
  | .group => updGroup s k fun g => { g with gmem := ov.foldl (fun m e => sput 0 m e.1 e.2) g.gmem }
  | .turn => pubBytes s (domOf s (partOf k)) (stampOf k w) 1 w.clock ov
  | .free => ov.foldl (fun s e => freeWrite s k e.1 [e.2]) s

/-- Where an element lies for its home. -/
def homeKey (x : Acc) : Nat := match x.x with | some y => y.key | none => x.va

/-- In free mode an operation waits until its core's earlier accesses to its lines have performed, while a page that it names is
moving, and, when it returns a value from another chip, while 16 replies are outstanding (R173, R302, R336, R342). -/
def syncWaits (s : State) (k : Nat) (w : Warp) (load : Bool) (xs : List Acc) : Bool :=
  (!w.turn && (linesWait s k (xs.map accKey) || xs.any fun x => keyHeld s (chipOf (partOf k)) (accKey x))) ||
  (load && xs.any (farAccess s k) && decide (16 ≤ replies w))

/-- What a synchronising operation does on its way to its homes: the translations' accessed and dirty bits are set (R155), its
accesses counted (R339; once for a ticket that waits by passing) and sent (R330), their lines brought into the slices (R174), and a domain turn publishes the hand
(R190). -/
def syncTouch (o : Op) (f : Long) (use : Use) (s : State) (k : Nat) (w : Warp) (xs : List Acc) : State :=
  let z := siteOf s k
  let s := if use = .load then installAll s z xs else dirtyAll s z xs
  let s := if w.passed && o == .tktWait then s else countPages s z (accPages xs)
  let s := sliceTouches (sendAccess s k w (elemSize o f) xs) (use != .load) 0 (xs.map accKey)
  turnPub s k

/-- A synchronising operation: check 5, in group memory the stall at a filling range (R203), else the translations' accessed and
dirty bits, the count table, the hand's publication at a domain turn (R190), and then its effect at its home. -/
def syncBody (o : Op) (f : Long) (use : Use) (window load : Bool) (eff : State → Nat → Warp → Home → List Acc → Act)
    (s : State) (k : Nat) (w : Warp) : Act :=
  let (xs, err) := checkAll s k w o f (some use) window
  match err with
  | some e => memFault s k xs e
  | none =>
    if window && inWindow w o f then
      match getGroup s k with
      | none => .wait
      | some g => if xs.any (fun x => rangeStall w g false x.va (elemSize o f)) then .wait else eff s k w .group xs
    else
      let s := if w.turn then s else serveCore s k (xs.map accKey)
      if syncWaits s k ((getWarp s k).getD w) load xs then .wait
      else
        let s := syncTouch o f use s k w xs
        let bad := refusedAccs s k w xs
        if !bad.isEmpty then
          let s' := refuseAll s k bad load w.clock
          if w.turn then .done s' else .retire s' .next none id
        else
          match getWarp s k with
          | none => .wait
          | some w => eff s k w (if w.turn then .turn else .free) xs

/-- In free mode an acquire of scope die or wider invalidates the L1, on a window address too (R171, R211). -/
def freeAcquire (s : State) (k : Nat) (f : Long) (acq : Bool) (h : Home) : State :=
  if acq && h != .turn && decide (3 ≤ f.mod.toNat) && (getWarp s k).any (fun w => !w.turn) then l1Clear s k else s

/-- The acquire jump of a global operation in turn mode (R196). -/
def jumpClock (w : Warp) (acq : Bool) (h : Home) : Option Nat := if acq && h == .turn then some (acquireClock w 1) else none

/-! ## `ATOM` (R215) -/

/-- The new value of an atomic and its flags. -/
def atomNew (op : Nat) (t : Ty) (m b d : Nat) : Nat × Nat :=
  match op with
  | 6 => (b, 0)
  | 7 => (if m = d then b else m, 0)
  | _ => comb op t m b

/-- The lanes in ascending order: bytes written, old values with their lanes, flags. -/
def atomLanes (f : Long) (w : Warp) (m : Memory) (n : Nat) : List Acc → KMap Byte → KMap Byte × List (Nat × Nat) × Nat
  | [], ov => (ov, [], 0)
  | x :: r, ov =>
    let old := ovNat m ov (homeKey x) n
    let (new, g) := atomNew (atomOp f) f.ty old (rdB w f.ty f x.lane) (rdReg w f.ty f.d.toNat x.lane)
    let (ov, olds, h) := atomLanes f w m n r (ovWrite ov (homeKey x) (leBytes n new))
    (ov, (x.lane, old) :: olds, g ||| h)

def atomEff (f : Long) (s : State) (k : Nat) (w : Warp) (h : Home) (xs : List Acc) : Act :=
  let n := elemSize .atom f
  let acq := atomOrd f % 2 == 1
  let (ov, olds, g) := atomLanes f w (homeMem s k w h) n xs []
  let s := freeAcquire (homeWrite s k w h ov) k f acq h
  let ws := olds.flatMap fun e =>
    elemWrites { vec := true, reg := f.d.toNat, lane := e.1, key := 0, size := n, va := 0, sx := false, val := none } e.2
  let s := updWarp s k fun w =>
    let w := raiseFp w g
    if atomNr f then w else addPend w (pendOf .atom f ws 0 0 (farReply s k w xs))
  .retire s .next (jumpClock w acq h) id

def atomBody (f : Long) : State → Nat → Warp → Act := syncBody .atom f .atomic true true (atomEff f)

/-! ## `POT` (R200, R216) -/

/-- The lane value of a pot: element 0 of its register for bf16. -/
def potVal (f : Long) (w : Warp) (l : Nat) : Nat := rdB w f.ty f l % 2 ^ tyBits f.ty

/-- Combines a value into the hand's entry of its address, operation and type, or appends an entry; `none` when that needs
a 33rd. -/
def potPut (h : Hand) (e : PotEnt) : Option (Hand × Nat) :=
  let same (x : PotEnt) : Bool := x.key == e.key && x.op == e.op && x.ty == e.ty
  match h.pots.find? same with
  | some x =>
    let (v, g) := comb e.op e.ty x.val.toNat e.val.toNat
    some ({ h with pots := h.pots.map fun y => if same y then { e with val := BitVec.ofNat 64 v } else y }, g)
  | none => if 32 ≤ h.pots.length then none else some ({ h with pots := h.pots ++ [e] }, 0)

/-- One lane of a pot in the hand, with the hand-full pass where it needs one. -/
def potLane (f : Long) (s : State) (k : Nat) (x : Acc) : State :=
  match getWarp s k with
  | none => s
  | some w =>
    let e : PotEnt := { key := accKey x, op := f.fn.toNat, ty := f.ty, val := BitVec.ofNat 64 (potVal f w x.lane), pc := curPc w, va := x.va }
    match potPut w.hand e with
    | some (h, g) => setWarp s k (raiseFp { w with hand := h } g)
    | none =>
      let s := handPass s k
      if goesOn s k then updWarp s k fun w => { w with hand := ((potPut w.hand e).getD (w.hand, 0)).1 } else s

/-- The lanes of a pot that performs at once. -/
def potNow (f : Long) (w : Warp) (m : Memory) : List Acc → KMap Byte → KMap Byte × Nat
  | [], ov => (ov, 0)
  | x :: r, ov =>
    let n := elemSize .pot f
    let (v, g) := comb f.fn.toNat f.ty (ovNat m ov (homeKey x) n) (potVal f w x.lane)
    let (ov, h) := potNow f w m r (ovWrite ov (homeKey x) (leBytes n v))
    (ov, g ||| h)

/-- A window pot, and a pot in free mode, which raises no flag. -/
def potEff (f : Long) (s : State) (k : Nat) (w : Warp) (h : Home) (xs : List Acc) : Act :=
  let (ov, g) := potNow f w (homeMem s k w h) xs []
  .retire (updWarp (homeWrite s k w h ov) k fun w => if w.turn then raiseFp w g else w) .next none id

def potBody (f : Long) (s : State) (k : Nat) (w : Warp) : Act :=
  if inWindow w .pot f || !w.turn then syncBody .pot f .store true false (potEff f) s k w
  else
    let (xs, err) := checkAll s k w .pot f (some .store) true
    match err with
    | some e => memFault s k xs e
    | none =>
      let z := siteOf s k
      let s := countPages (dirtyAll s z xs) z (accPages xs)
      let s := xs.foldl (fun s x => if goesOn s k then potLane f s k x else s) s
      if goesOn s k then .retire s .next none id else .done s

/-! ## `ACQ`, `REL`, `TURN` (R217) -/

/-- `ACQ` and `TURN` read one element into `sD`. -/
def readEff (o : Op) (f : Long) (acq : Bool) (s : State) (k : Nat) (w : Warp) (h : Home) (xs : List Acc) : Act :=
  let n := elemSize o f
  let m := homeMem s k w h
  let s := xs.foldl (fun s x => updWarp s k fun w =>
    wrS w f.d.toNat (BitVec.ofInt 64 (extVal (signExt f.ty) n (ovNat m [] (homeKey x) n)))) s
  .retire (freeAcquire s k f acq h) .next (jumpClock w acq h) id

def acqBody (f : Long) : State → Nat → Warp → Act := syncBody .acq f .load true true (readEff .acq f true)
def turnBody (f : Long) : State → Nat → Warp → Act := syncBody .turn f .load true true (readEff .turn f false)

def relEff (f : Long) (s : State) (k : Nat) (w : Warp) (h : Home) (xs : List Acc) : Act :=
  let n := elemSize .rel f
  let ov := xs.foldl (fun ov x => ovWrite ov (homeKey x) (leBytes n (rdSB w f).toNat)) []
  .retire (homeWrite s k w h ov) .next none id
def relBody (f : Long) : State → Nat → Warp → Act := syncBody .rel f .store true false (relEff f)

/-! ## `FENCE` (R218) -/

/-- In free mode the stores posted before it have performed; `FENCE.sc` of scope die or wider also drops the L1's lines,
which R211 needs (log 16). -/
def fenceBody (f : Long) (sc : Bool) (s : State) (k : Nat) (w : Warp) : Act :=
  if w.turn then .retire (turnPub s k) .next none id
  else .retire (if sc && decide (3 ≤ f.mod.toNat) then l1Clear s k else s) .next none id

/-! ## `BAR` (R219, R220) -/

def barNo (f : Long) : Nat := f.imm.toNat % 16
def barCnt (f : Long) : Nat := f.imm.toNat / 2 ^ 8 % 64
def barG (f : Long) : Bool := f.imm.getLsbD 16
def phaseOf (s : State) (k n : Nat) : Nat := match getGroup s k with | some g => (getBar g n).phase | none => 0

/-- An arrival; it may complete the phase. -/
def barArrive (s : State) (k n cnt : Nat) (r : Stamp) : State :=
  let s := updGroup s k fun g =>
    let b := getBar g n
    setBar g n { b with count := b.count + 1, expect := if b.count = 0 then cnt else b.expect
                        arrived := if b.arrived.contains k then b.arrived else b.arrived ++ [k] }
  barStep s k r n

def barArrBody (f : Long) (s : State) (k : Nat) (w : Warp) : Act :=
  let n := barNo f
  let s := updWarp s k fun x => wrS x f.d.toNat (BitVec.ofNat 64 (phaseOf s k n))
  .retire (barArrive s k n (barCnt f) (stampOf k w)) .next none id

/-- The wait's phase has changed: it retires, with the acquire of its `.g` form. -/
def barPassed (f : Long) (s : State) (k : Nat) (w : Warp) : Act :=
  let s := if barG f && !w.turn && decide (3 ≤ f.mod.toNat) then l1Clear s k else s
  .retire s .next (if barG f && w.turn then some (acquireClock w 1) else none) id

def barSyncBody (f : Long) (len : Nat) (s : State) (k : Nat) (w : Warp) : Act :=
  let n := barNo f
  let ph := phaseOf s k n
  let s := barArrive s k n (barCnt f) (stampOf k w)
  if phaseOf s k n = ph then .done (parkWarp s k w (.bar n ph f.mod.toNat (barG f)) len f.fl.en) else barPassed f s k w

def barWaitBody (f : Long) (len : Nat) (s : State) (k : Nat) (w : Warp) : Act :=
  let n := barNo f
  let ph := (rdS w f.a.toNat).toNat % 2 ^ 16
  if phaseOf s k n = ph then .done (parkWarp s k w (.bar n ph f.mod.toNat (barG f)) len f.fl.en) else barPassed f s k w

def barTestBody (f : Long) (s : State) (k : Nat) (w : Warp) : Act :=
  let b := (phaseOf s k (barNo f) + (rdS w f.a.toNat).toNat) % 2 == 1
  .retire (setWarp s k (perLaneP w (lanesOf (curLanes w)) f.d.toNat fun _ => (b, 0))) .next none id

/-! ## `TKT` (R221 to R223) -/

/-- The outstanding result of a ticket instruction. -/
def tktResult (o : Op) (f : Long) (xs : List Acc) (s : State) (k : Nat) (x : Nat) : State :=
  updWarp s k fun w => addPend w (pendOf o f [.s f.d.toNat (BitVec.ofNat 64 x)] 0 0 (farReply s k w xs))

/-- Refused tickets read as status 3. -/
def tktRefused (i : Nat) : Nat := tktWord i 3

/-- (t − `INDEX`) mod 2^32 is 2^31 or more, and t is not `INDEX` (R222). -/
def tktFar (want i : Nat) : Bool :=
  let d : Nat := (want + 0x100000000 - i) % 0x100000000
  Nat.ble 0x80000000 d && !(Nat.beq want i)

/-- The warp that an act of R223 belongs to in free mode. -/
def actor (k : Nat) (w : Warp) : Option Nat := if w.turn then none else some k

/-- The base that a `TKT.wait` names, a 64-bit register's value taken modulo 2^32 as its ticket is (log 98), and the ticket of the
warp's group. -/
def tktBase (w : Warp) (f : Long) : Nat := (rdSB w f).toNat % 2 ^ 32
def tktWant (w : Warp) (f : Long) (k : Nat) : Nat := (tktBase w f + groupNo k) % 2 ^ 32

/-- An entry of the table names the word at a physical key: that of its registration, or the home to which its page has moved
since (log 21). -/
def tktIs (s : State) (key : Nat) (tk : Ticket) : Bool := tk.key == key || forwardKey s tk.key == key
/-- The entry of a word and a base. -/
def tktHits (s : State) (key base : Nat) (tk : Ticket) : Bool := tktIs s key tk && tk.base == base
/-- The table holds 4 other entries: the word is refused and not entered (log 74). -/
def tktFull (s : State) (c : Card) (key base : Nat) : Bool := !c.tickets.any (tktHits s key base) && decide (4 ≤ c.tickets.length)

/-- The publications above a stamp that have already reached a word: the advances that they admit follow in stamp order (R223). -/
def laterPubs (s : State) (d : Nat) (t : Stamp) (key : Nat) : List (Stamp × Nat) :=
  ((s.pubs.filter fun x => x.dom == d && stampLt t x.stamp && match x.body with
    | .bytes b => b.any fun e => decide (key ≤ e.1) && decide (e.1 < key + 8)
    | .pot a _ ty _ => decide (a < key + 8) && decide (key < a + tyBits ty / 8)).map fun x => (x.stamp, key)).eraseDups

/-- `TKT.wait` enters its word in the card's table and lets it advance, one that stays out of a full table too where another base has
it registered (R222, R223). -/
def tktEnter (s : State) (k : Nat) (w : Warp) (key base : Nat) : State :=
  let settled (s : State) : State := tktSettle s (partOf k) w.turn (stampOf k w) 1 (actor k w) key
  match getCard s k with
  | none => s
  | some c =>
    if c.tickets.any (tktHits s key base) then settled s
    else if tktFull s c key base then (if c.tickets.any (tktIs s key) then settled s else s)
    else settled (updCard s k fun c => { c with
      tickets := c.tickets ++ [{ key := key, base := base, holder := none, had := [] }]
      touched := if w.turn then (c.touched ++ laterPubs s (domOf s (partOf k)) (stampOf k w) key).eraseDups else c.touched })

def tktWaitEff (f : Long) (s : State) (k : Nat) (w : Warp) (_ : Home) (xs : List Acc) : Act :=
  match xs, getCard s k with
  | x :: _, some c =>
    let key := accKey x
    let base := tktBase w f
    let g := groupNo k
    let want := tktWant w f k
    let hit := tktHits s key base
    let full := tktFull s c key base
    let s := tktEnter s k w key base
    let word := rdNat (actMem s (partOf k) w.turn (stampOf k w) 1) key 8
    let i := tktIndex word
    if full || tktFar want i then
      .retire (tktResult .tktWait f xs s k (tktRefused i)) .next none id
    else if i = want then
      let take (tk : Ticket) : Ticket :=
        { tk with holder := some g, had := if tk.had.contains g then tk.had else tk.had ++ [g] }
      let s := updCard s k fun c => { c with tickets := c.tickets.map fun tk => if hit tk then take tk else tk }
      let s := freeAcquire (tktResult .tktWait f xs s k word) k f true (if w.turn then .turn else .free)
      .retire s .next (jumpClock w true (if w.turn then .turn else .free)) id
    else if w.turn then .done (endRun (moveClock (updWarp s k fun w => { w with passed := true }) k (nextMark w.quantum w.clock)) k)
    else .wait
  | _, _ => .wait

/-- In free mode `TKT.wait` waits in place until its ticket comes; its word is entered at once, and its access counts once, when
it retires (R199, R339). -/
def tktStall (f : Long) (s : State) (k : Nat) (w : Warp) : Option State :=
  if w.turn then none
  else match checkAll s k w .tktWait f (some .store) false, getCard s k with
    | (x :: _, none), some c =>
      let key := accKey x
      let full := tktFull s c key (tktBase w f)
      let s := tktEnter s k w key (tktBase w f)
      let i := tktIndex (rdNat s.mem key 8)
      if full || tktFar (tktWant w f k) i || i == tktWant w f k ||
          (homeRefuses s (chipOf (partOf k)) w.sec key).isSome then none
      else some s
    | _, _ => none

def tktWaitBody (f : Long) (s : State) (k : Nat) (w : Warp) : Act :=
  match tktStall f s k w with
  | some s => .done (waitIn s k .stalled)
  | none => syncBody .tktWait f .store false true (tktWaitEff f) s k w

def tktDoneEff (f : Long) (s : State) (k : Nat) (w : Warp) (_ : Home) (xs : List Acc) : Act :=
  match xs, getCard s k with
  | x :: _, some c =>
    let p := partOf k
    let t := stampOf k w
    let key := accKey x
    let g := groupNo k
    let here := tktIs s key
    if c.tickets.any fun tk => here tk && tk.holder == some g then
      let i := tktIndex (rdNat (actMem s p w.turn t 1) key 8)
      let s := actWrite s p w.turn t 1 (actor k w) key (leBytes 8 (tktWord (i + 1) 0))
      let s := updCard s k fun c => { c with tickets := c.tickets.map fun tk => if here tk then freeHolder tk g else tk }
      .retire (tktResult .tktDone f xs (tktSettle s p w.turn t 1 (actor k w) key) k 0) .next none id
    else .retire (tktResult .tktDone f xs s k (tktRefused 0)) .next none id
  | _, _ => .wait

def tktDoneBody (f : Long) : State → Nat → Warp → Act := syncBody .tktDone f .store false true (tktDoneEff f)

/-! ## `PASS` (R224) -/

def passBody (_ : Long) (s : State) (_ : Nat) (w : Warp) : Act :=
  if w.turn then .retire s .next (some (nextMark w.quantum w.clock)) id else .retire s .next none endAfter

def passToBody (f : Long) (s : State) (_ : Nat) (w : Warp) : Act :=
  if w.turn then .retire s .next (some (max (w.clock + 1) (min (rdSB w f).toNat (w.clock + 2 ^ 32)))) id
  else .retire s .next none endAfter

/-! ## The instructions -/

/-- Read-modify-write of one element per active lane, a domain or group turn in turn mode. (R215) -/
def execAtom (f : Long) (s : State) : Out := issue .atom f f.len (atomBody f) s

/-- Non-returning reduction combined in hand pot entries or at the home slice. (R216) -/
def execPot (f : Long) (s : State) : Out := issue .pot f f.len (potBody f) s

/-- Acquiring load of one element, with an acquire jump on a global address in turn mode. (R217) -/
def execAcq (f : Long) (s : State) : Out := issue .acq f f.len (acqBody f) s

/-- Releasing store that publishes the hand then its own write. (R217) -/
def execRel (f : Long) (s : State) : Out := issue .rel f f.len (relBody f) s

/-- Release fence; in turn mode a domain turn that publishes the hand. (R218) -/
def execFenceRel (f : Long) (s : State) : Out := issue .fenceRel f f.len (fenceBody f false) s

/-- Sequentially consistent fence. (R218) -/
def execFenceSc (f : Long) (s : State) : Out := issue .fenceSc f f.len (fenceBody f true) s

/-- Arrives at a barrier and returns its phase. (R220) -/
def execBarArr (f : Long) (s : State) : Out := issue .barArr f f.len (barArrBody f) s

/-- Parks until a barrier's phase differs from the given one. (R220) -/
def execBarWait (f : Long) (s : State) : Out := issue .barWait f f.len (barWaitBody f f.len) s

/-- Arrives at a barrier and parks until its phase changes. (R220) -/
def execBarSync (f : Long) (s : State) : Out := issue .barSync f f.len (barSyncBody f f.len) s

/-- Tests a barrier phase's parity into a predicate. (R220) -/
def execBarTest (f : Long) (s : State) : Out := issue .barTest f f.len (barTestBody f) s

/-- Registers a ticket word and holds the ticket, is refused, or waits by passing. (R222) -/
def execTktWait (f : Long) (s : State) : Out := issue .tktWait f f.len (tktWaitBody f) s

/-- Gives up a held ticket, advancing the word's index. (R222) -/
def execTktDone (f : Long) (s : State) : Out := issue .tktDone f f.len (tktDoneBody f) s

/-- Advances the clock to the next round mark. (R224) -/
def execPass (f : Long) (s : State) : Out := issue .pass f f.len (passBody f) s

/-- Advances the clock to a given value. (R224) -/
def execPassTo (f : Long) (s : State) : Out := issue .passTo f f.len (passToBody f) s

/-- Reads one element at a domain turn without an acquire jump. (R217) -/
def execTurn (f : Long) (s : State) : Out := issue .turn f f.len (turnBody f) s

end Sys2Proof.Machine
end

