-- ==== Sys2Proof/Machine/Handle.lean ====
section
/-! DEFINITION. The handle engine, MAJ 0x76 to 0x7A (R303 to R329): taking slots, creating cards, waiting for and reading
results, holdings, resolving and breaking. -/

namespace Sys2Proof.Machine

/-! ## Taking a slot (R304, R305, R378) -/

/-- A slot that an act at stamp `t` finds free (R304, R306). -/
def slotFree (x : Slot) (t : Stamp) : Bool :=
  x.st == .free && decide (x.gen < 2 ^ 41) && (x.freeAt == (0, 0) || stampLt x.freeAt t)

/-- The lowest free slot of a die's table from slot `i` on, of `n` slots. -/
def lowestFree (s : State) (p die : Nat) (t : Stamp) : Nat → Nat → Option Nat
  | 0, _ => none
  | n + 1, i => if slotFree (getSlot s (slotKey p die i)) t then some i else lowestFree s p die t n (i + 1)

/-- In free mode every free slot will do; the model takes the lowest. -/
def anyStamp (turn : Bool) (t : Stamp) : Stamp := if turn then t else (2 ^ 80, 0)

/-- The slot number that an act takes on the die of a serial. -/
def pickSlot (s : State) (p serial : Nat) (turn : Bool) (t : Stamp) : Option Nat :=
  let d := dieCount s p
  if d = 0 then none else lowestFree s p (serial % d) (anyStamp turn t) 65536 0

/-- Enters a slot as pending with count 1 and gives its handle. -/
def takeSlot (s : State) (p serial i : Nat) (card : Option Nat) : State × Dword :=
  let die := serial % dieCount s p
  let key := slotKey p die i
  let g := (getSlot s key).gen
  (putSlot s key { Slot.fresh with gen := g, st := .pending, count := 1, card := card },
    mkHandle (myIndex s (chipOf p)) die i g)

/-- The order of cards that wait for their slot: the origin that each will take, one that no act has freed a slot for last, and then
key (R287, R378). -/
def cardBefore (s : State) (a b : Nat × Card) : Bool :=
  match countOrigin s a, countOrigin s b with
  | some x, some y => decide (x :: cardOrder a < y :: cardOrder b)
  | some _, none => true
  | none, some _ => false
  | none, none => decide (cardOrder a < cardOrder b)

def insertCard (s : State) : List (Nat × Card) → Nat × Card → List (Nat × Card)
  | [], x => [x]
  | y :: r, x => if cardBefore s x y then x :: y :: r else y :: insertCard s r x

/-- The mailbox cards of a domain that hold no handle yet, in order. -/
def slotWaiters (s : State) (d : Nat) : List (Nat × Card) :=
  (s.cards.filter fun e => inDom s d (partOf e.1) && e.2.handle == 0 && !e.2.created && e.2.stop.isNone).foldl (insertCard s) []

/-- A card whose origin the floor has reached takes the slot that is free there, and its record keeps the origin (R359); or it waits
for the act that next frees one (R378). -/
def settleCard (s : State) (e : Nat × Card) : State :=
  let p := partOf e.1
  match pickSlot s p (serialOf e.1) true (e.2.origin, 0) with
  | some i =>
    let (s, h) := takeSlot s p (serialOf e.1) i (some e.1)
    replayCheck (updCard s e.1 fun c => { c with handle := h, blocked := false }) p e.2.admAt 0 (leBytes 8 e.2.origin)
  | none => updCard s e.1 fun c => { c with blocked := true }

/-- A card that has been held back takes the origin from which it counts (R378). -/
def moveOrigin (s : State) (e : Nat × Card) : State :=
  match countOrigin s e with
  | some o => if o = e.2.origin then s
    else recordOrigin (updCard s e.1 fun c => { c with origin := o }) (partOf e.1) e.2.admAt o
  | none => s

/-- Before a card that has waited takes its slot, its origin moves, and those of the cards that it has held back. -/
def moveOrigins (s : State) (d : Nat) (e : Nat × Card) : State :=
  if e.2.blocked then ((slotWaiters s d).filter fun y => (slotHolders s y).any fun x => x.1 == e.1).foldl moveOrigin s else s

/-- The cards whose origin the floor has reached take their slots, in order; a card that waits holds back those of higher key. -/
def settleHandles (s : State) (d : Nat) : State :=
  (slotWaiters s d).foldl (fun s e =>
    match kfind s.cards e.1 with
    | none => s
    | some c => match countOrigin s (e.1, c) with
      | none => s
      | some o =>
        if floorGe s d o && (slotHolders s (e.1, c)).all (fun x => x.1 == e.1) then
          let s := moveOrigins s d (e.1, c)
          settleCard s (e.1, (kfind s.cards e.1).getD c)
        else s) s

/-- Some card has reached its origin without finding a slot, and holds back every later admission (R378). -/
def slotBlocked (s : State) (d : Nat) : Bool := (slotWaiters s d).any fun e => e.2.blocked || floorGe s d e.2.origin

/-! ## Finished cards (R290, R297) -/

/-- Nothing that counts in a domain lies below a stamp. -/
def floorPast (s : State) (d : Nat) (t : Stamp) : Bool := (floorItems s d).all fun e => !stampLt e.1 t

/-- A card has finished: no group of it remains, and in turn mode the floor has reached its end mark, or, for a card that device
code created, the stamp at which it was broken or reclaimed; a mailbox card finishes with its completion record (R191, log 76). -/
def cardFinished (s : State) (ck : Nat) : Bool :=
  match kfind s.cards ck with
  | none => true
  | some c =>
    let p := partOf ck
    let turn := match (getPart s p).ctx with | some x => x.turn | none => false
    let d := domOf s p
    !cardRuns s ck && c.endTurn && (!turn || floorGe s d c.mark || match c.stop with
      | some x => c.created && floorPast s d x.stamp
      | none => false)

/-- `CHIP` and `SERIAL` of a card. -/
def cardWord (ck : Nat) : Nat := chipIdx ck * 2 ^ 16 + serialOf ck

/-- Forgets a card; while a save point is requested, its life is kept for the manifest (R357). -/
def forgetCard (s : State) (ck : Nat) : State :=
  match kfind s.cards ck with
  | none => s
  | some c =>
    let pt := getPart s (partOf ck)
    let s := if pt.save.reqs.isEmpty then s
      else setPart s (partOf ck) { pt with save := { pt.save with past := pt.save.past ++ [(c.origin, c.mark, cardWord ck)] } }
    { s with cards := kerase s.cards ck }

/-- Forgets the finished cards that have no completion record to write. -/
def reapCards (s : State) (d : Nat) : State :=
  ((s.cards.filter fun e => e.2.created && inDom s d (partOf e.1) && cardFinished s e.1).map (·.1)).foldl forgetCard s

/-- A created card's serial is in use in the domain (R290). -/
def serialUsed (s : State) (d serial : Nat) : Bool :=
  (s.cards.any fun e => inDom s d (partOf e.1) && serialOf e.1 == serial) ||
  (s.created.any fun c => inDom s d c.home && serialOf c.ident == serial) ||
  (s.slots.any fun e => e.2.queue.any fun c => inDom s d c.home && serialOf c.ident == serial)

/-- The creations of a domain so far. -/
def createdCount (s : State) (d : Nat) : Nat := ((domParts s d).map fun p => (getPart s p).nCreated).sum

/-! ## Faults of handles (R310) -/

/-- A handle that may be named: its slot is valid and not reclaimed. -/
def liveSlot (s : State) (p : Nat) (h : Dword) : Option (Nat × Slot) :=
  match findSlot s p h with
  | some (key, x) => if x.st = .reclaimed then none else some (key, x)
  | none => none

def heldDistinct (c : Card) : Nat := c.held.length
def heldCount (c : Card) (h : Dword) : Nat := (kfind c.held h.toNat).getD 0
def addHeld (c : Card) (h : Dword) : Card := { c with held := kinsert c.held h.toNat (heldCount c h + 1) }
def dropHeld (c : Card) (h : Dword) : Card :=
  { c with held := if heldCount c h ≤ 1 then kerase c.held h.toNat else kinsert c.held h.toNat (heldCount c h - 1) }

/-- The first marked handle that is stale or whose count would overflow, given those before it: `KIND`. -/
def markFault (s : State) (p : Nat) : List Dword → List Dword → Option (Nat × Dword)
  | [], _ => none
  | h :: r, seen =>
    match liveSlot s p h with
    | none => some (0, h)
    | some (_, x) => if 65535 < x.count + (seen.filter (· == h)).length + 1 then some (1, h) else markFault s p r (h :: seen)

/-! ## Bytes that a handle instruction reads (R311, R314) -/

/-- What the checks and reads of a handle instruction give. -/
inductive HRead where
  | fault (xs : List Acc) (e : MErr)
  | refused (s : State) (bad : List Denied)
  | wait
  | ok (s : State) (vals : List Nat)

/-- Elements of `n` bytes at addresses, read as `ACQ` reads them at the turn: check 5, the count table (R339; once for an act that
waits by passing), the hand's publication, then the bytes, which it awaits in group memory as `ACQ` does (R203); in free mode it waits as `ACQ` does until its core's earlier accesses to
its lines have performed (R336, R342), and reading them is an acquire of domain scope (R326, R171). -/
def readAcq (s : State) (k : Nat) (w : Warp) (n : Nat) (as : List Int) : HRead :=
  let z := siteOf s k
  let sp := match as with | a :: _ => spaceOf a | [] => .none
  let (xs, err) := checkElems s z w.sec (accKind s k w n (some .load) true) sp (as.map fun a => (0, a))
  match err with
  | some e => .fault xs e
  | none =>
    let far := xs.filter fun x => x.x.isSome
    let s := if w.turn then s else serveCore s k (far.map accKey)
    let stall := xs.any fun x => x.x.isNone && (getGroup s k).any fun g => rangeStall w g false x.va n
    if stall || syncWaits s k w false far then .wait else
    let s := installAll s z xs
    let s := sliceTouches (sendAccess (if w.passed then s else countPages s z (accPages xs)) k w n xs) false 0 (far.map accKey)
    let s := turnPub s k
    match refusedAccs s k w xs with
    | b :: bad => .refused s (b :: bad)
    | [] =>
      let m := homeMem s k w (if w.turn then .turn else .free)
      let g := homeMem s k w .group
      .ok (if w.turn || xs.isEmpty then s else l1Clear s k) (xs.map fun x => ovNat (if x.x.isSome then m else g) [] (homeKey x) n)

/-- A waiting creating act (R305): it passes in turn mode, and waits in place in free mode. -/
def waitPassing (s : State) (k : Nat) (w : Warp) : Act :=
  if w.turn then .done (endRun (moveClock (updWarp s k fun w => { w with passed := true }) k (nextMark w.quantum w.clock)) k) else .wait

/-- A refused read (R346). -/
def readRefused (s : State) (k : Nat) (w : Warp) (bad : List Denied) : Act :=
  let s' := refuseAll s k bad true w.clock
  if w.turn then .done s' else .retire s' .next none id

/-- The outstanding result of a handle instruction. -/
def handleResult (o : Op) (f : Long) (s : State) (k : Nat) (ws : List RegW) : State :=
  updWarp s k fun w => addPend w (pendOf o f ws 0 0 none)

/-! ## `SPAWN`, `INVOKE`, `INVOKEH` (R311, R312, R321) -/

/-- Where a created card goes. -/
inductive Dest where
  | here
  | chip (i : Nat)
  | handle
  deriving DecidableEq, Repr

/-- The marked dwords' indices. -/
def markIdx (mask : Dword) : List Nat := lanesOf mask

/-- The forward queues of a die hold their 16,384 entries (R321). -/
def queueFull (s : State) (key : Nat) : Bool :=
  decide (16384 ≤ ((s.slots.filter fun e => e.1 / 2 ^ 16 == key / 2 ^ 16).map fun e => e.2.queue.length).sum)

/-- The new card on its way, with the holdings that the act makes. -/
def created (s : State) (k : Nat) (w : Warp) (f : Long) (c : Card) (serial : Nat) (h : Dword) (gs : List Dword) : Created :=
  { home := partOf k, target := partOf k, image := rdS w f.a.toNat, arg := rdS w f.b.toNat
    ident := myIndex s (chipOf (partOf k)) * 2 ^ 48 + serial * 2 ^ 32, handle := h, origin := w.clock + 8, prio := c.prio
    mbox := c.mbox, held := gs, stamp := stampOf k w, via := none, maker := c.maker.getD (partOf k, c.mbox) }

/-- Adds one to the count of each handle. -/
def bumpCounts (s : State) (p : Nat) (gs : List Dword) : State :=
  gs.foldl (fun s g => match findSlot s p g with
    | some (key, x) => putSlot s key { x with count := x.count + 1 }
    | none => s) s

/-- Entries of a chip's resolution cache. -/
def resolvedSize : Nat := 4096

/-- An `INVOKEH` on a handle in its final state finds it in the resolution cache of the chip, or goes by way of the handle's home
and leaves it there (R323): which route changes timing only. -/
def lookFinal (s : State) (p : Nat) (h : Dword) (x : Slot) (c : Created) : State :=
  let chip := chipOf p
  let ch := getChip s chip
  if ch.resolved.any fun e => e.1 == h then s
  else
    let s := sendFlits s chip (hChip h) 0 fun n => .invocation c.origin c.ident n
    let ch := getChip s chip
    setChip s chip { ch with resolved := pushIn resolvedSize ch.resolved (h, x.st, x.place) }

/-- Sends the new card where it goes: to a dealer, into the forward queue of its handle, or nowhere (R313, R321, R325). -/
def place (s : State) (p : Nat) (t : Stamp) (d : Dest) (gs : List Dword) (c : Created) : State :=
  match d with
  | .here => sendCreated s p t (myIndex s (chipOf p)) c
  | .chip i => sendCreated s p t i c
  | .handle =>
    match gs with
    | [] => s
    | h :: _ =>
      match findSlot s p h with
      | none => s
      | some (key, x) =>
        match x.st with
        | .resolved => sendCreated (lookFinal s p h x c) p t (placeChip h x.place) c
        | .broken => cascade (lookFinal s p h x c) p t (.brk c.handle (causeByHandle h) true :: c.held.map .drop)
        | _ => putSlot (sendFlits s (chipOf p) (hChip h) 0 fun n => .invocation c.origin c.ident n) key { x with queue := x.queue ++ [c] }

/-- The queue that an `INVOKEH` would join is full. -/
def destFull (s : State) (p : Nat) (d : Dest) (gs : List Dword) : Bool :=
  match d, gs with
  | .handle, h :: _ => match findSlot s p h with
    | some (key, x) => (x.st == .pending || x.st == .running) && queueFull s key
    | none => false
  | _, _ => false

/-- A creating act. -/
def createBody (o : Op) (f : Long) (d : Dest) (s : State) (k : Nat) (w : Warp) : Act :=
  let p := partOf k
  let dom := domOf s p
  let t := stampOf k w
  let s0 := reapCards (if w.turn then settleHandles s dom else s) dom
  let mask := rdS w f.c.toNat ||| (if d = .handle then 1 else 0)
  match readAcq s0 k w 8 ((markIdx mask).map fun i => ((rdS w f.b.toNat).toNat : Int) + 8 * i) with
  | .fault xs e => memFault s k xs e
  | .refused s bad => readRefused s k w bad
  | .wait => .wait
  | .ok s1 vals =>
    let gs := vals.map (BitVec.ofNat 64)
    match getCard s1 k with
    | none => .wait
    | some c =>
      match markFault s1 p gs [] with
      | some (kd, h) => .trap s 8 kd h
      | none =>
        if 256 ≤ heldDistinct c then .trap s 8 1 0
        else
          let serial := 0x8000 + createdCount s1 dom % 0x8000
          match (if destFull s1 p d gs || serialUsed s1 dom serial then none else pickSlot s1 p serial w.turn t) with
          | none => waitPassing s1 k w
          | some i =>
            let (s2, h) := takeSlot s1 p serial i none
            let s2 := noteDealt s2 p w.clock
            let pt := getPart s2 p
            let s2 := bumpCounts (setPart s2 p { pt with nCreated := pt.nCreated + 1 }) p gs
            let s2 := updCard s2 k fun c => addHeld c h
            let s3 := place s2 p t d gs { created s2 k w f c serial h gs with via := if d = .handle then gs.head? else none }
            .retire (handleResult o f s3 k [.s f.d.toNat h]) .next none id

def spawnBody (f : Long) : State → Nat → Warp → Act := createBody .spawn f .here
def invokeBody (f : Long) : State → Nat → Warp → Act := createBody .invoke f (.chip (f.imm.toNat % 16))
def invokehBody (f : Long) : State → Nat → Warp → Act := createBody .invokeh f .handle

/-! ## `FWAIT`, `FPOLL` (R308, R328) -/

/-- At a handle turn: slots due at the warp's clock are taken first, and the hand is published. -/
def handleTurn (s : State) (k : Nat) (w : Warp) : State :=
  turnPub (if w.turn then settleHandles s (domOf s (partOf k)) else s) k

def unresolved (x : Slot) : Bool := x.st == .pending || x.st == .running

def fwaitBody (f : Long) (len : Nat) (s : State) (k : Nat) (w : Warp) : Act :=
  let h := rdS w f.a.toNat
  let g := f.imm.getLsbD 0
  match liveSlot s (partOf k) h with
  | none => .trap s 8 0 h
  | some (_, x) =>
    let s := handleTurn s k w
    match getWarp s k with
    | none => .wait
    | some w =>
      if unresolved x then .done (parkWarp s k w (.fwait h f.d.toNat g) len f.fl.en)
      else
        let s := setWarp s k (wrGroup w f.d.toNat (resultGroup x))
        .retire (if w.turn then s else l1Clear s k) .next (if g && w.turn then some (acquireClock w 1) else none) id

def fpollBody (f : Long) (s : State) (k : Nat) (w : Warp) : Act :=
  let h := rdS w f.a.toNat
  match liveSlot s (partOf k) h with
  | none => .trap s 8 0 h
  | some (_, x) =>
    let s := handleTurn s k w
    let ws := (resultGroup x).zipIdx.map fun e => RegW.s (f.d.toNat + e.2) e.1
    .retire (handleResult .fpoll f (if w.turn || unresolved x then s else l1Clear s k) k ws) .next none id

/-! ## `FREF`, `FDROP`, `FPIN` (R309, R310) -/

def frefBody (f : Long) (s : State) (k : Nat) (w : Warp) : Act :=
  let h := rdS w f.a.toNat
  match liveSlot s (partOf k) h, getCard s k with
  | some (key, x), some c =>
    if x.count = 65535 ∨ (heldCount c h = 0 ∧ 256 ≤ heldDistinct c) then .trap s 8 1 h
    else
      let s := handleTurn s k w
      .retire (updCard (putSlot s key { x with count := x.count + 1 }) k fun c => addHeld c h) .next none id
  | _, _ => .trap s 8 0 h

def pinCount (s : State) (p : Nat) (h : Dword) : Nat := (kfind (getPart s p).pins h.toNat).getD 0

/-- `FDROP` and `FDROP.pin`: the holding ends, which may reclaim the task (R317). -/
def fdropBody (f : Long) (s : State) (k : Nat) (w : Warp) : Act :=
  let h := rdS w f.a.toNat
  let p := partOf k
  let pin := f.imm.getLsbD 0
  match liveSlot s p h, getCard s k with
  | some _, some c =>
    if (if pin then pinCount s p h else heldCount c h) = 0 then .trap s 8 0 h
    else
      let s := handleTurn s k w
      let pt := getPart s p
      let s := if pin then
          setPart s p { pt with pins := if pinCount s p h ≤ 1 then kerase pt.pins h.toNat else kinsert pt.pins h.toNat (pinCount s p h - 1) }
        else updCard s k fun c => dropHeld c h
      .retire (cascade s p (stampOf k w) [.drop h]) .next none id
  | _, _ => .trap s 8 0 h

def fpinBody (f : Long) (s : State) (k : Nat) (w : Warp) : Act :=
  let h := rdS w f.a.toNat
  let p := partOf k
  match liveSlot s p h with
  | some (key, x) =>
    if x.count = 65535 then .trap s 8 1 h
    else
      let s := putSlot (handleTurn s k w) key { x with count := x.count + 1 }
      let pt := getPart s p
      .retire (setPart s p { pt with pins := kinsert pt.pins h.toNat (pinCount s p h + 1) }) .next none id
  | none => .trap s 8 0 h

/-! ## `FRES`, `FBREAK` (R314, R315) -/

/-- The effect of an act on the issuing card's own slot: 0 when it settles the slot, 1 when it was settled already. In a
reclaimed task the warp stops instead (R318, R329). -/
def ownSlot (f : Long) (s : State) (k : Nat) (w : Warp) (act : State → Nat → Slot → Dword → State) : Act :=
  match getCard s k with
  | none => .wait
  | some c =>
    match findSlot s (partOf k) c.handle with
    | some (key, x) =>
      match x.st with
      | .pending | .running =>
        .retire (updWarp (act s key x c.handle) k fun w => wrS w f.d.toNat 0) .next none id
      | .reclaimed => .done (sweepCard (stopWarp s k (ceilMark w.quantum w.clock) (stampOf k w)) (cardKey k))
      | _ => .retire (updWarp s k fun w => wrS w f.d.toNat 1) .next none id
    | none => .retire (updWarp s k fun w => wrS w f.d.toNat 1) .next none id

def fresValBody (f : Long) (s : State) (k : Nat) (w : Warp) : Act :=
  let n := f.imm.toNat % 2 ^ 7
  match readAcq s k w 1 ((List.range n).map fun i => ((rdS w f.a.toNat).toNat : Int) + i) with
  | .fault xs e => memFault s k xs e
  | .refused s bad => readRefused s k w bad
  | .wait => .wait
  | .ok s vals =>
    ownSlot f s k w fun s key x h => resolveSlot s (partOf k) key x h (stampOf k w) (vals.map (BitVec.ofNat 8)) none

def fresPlaceBody (f : Long) (s : State) (k : Nat) (w : Warp) : Act :=
  ownSlot f (handleTurn s k w) k w fun s key x h =>
    resolveSlot s (partOf k) key x h (stampOf k w) [] (some ((rdS w f.b.toNat).toNat % 16, rdS w f.a.toNat))

def fbreakBody (f : Long) (s : State) (k : Nat) (w : Warp) : Act :=
  ownSlot f (handleTurn s k w) k w fun s _ _ h =>
    cascade s (partOf k) (stampOf k w) [.brk h (BitVec.ofNat 64 ((rdS w f.b.toNat).toNat % 2 ^ 48)) false]

/-! ## The instructions -/

/-- Creates a card from a header on this chip and returns its handle. (R311) -/
def execSpawn (f : Long) (s : State) : Out := issue .spawn f f.len (spawnBody f) s

/-- Creates a card on a named chip and returns its handle. (R311) -/
def execInvoke (f : Long) (s : State) : Out := issue .invoke f f.len (invokeBody f) s

/-- Creates a card addressed to a handle, sent at once or queued until it resolves. (R321) -/
def execInvokeh (f : Long) (s : State) : Out := issue .invokeh f f.len (invokehBody f) s

/-- Reads a handle's result, parking until it resolves, breaks or is reclaimed. (R328) -/
def execFwait (f : Long) (s : State) : Out := issue .fwait f f.len (fwaitBody f f.len) s

/-- Reads a handle's result group without parking. (R328) -/
def execFpoll (f : Long) (s : State) : Out := issue .fpoll f f.len (fpollBody f) s

/-- Adds one holding of a handle for the issuing card. (R309) -/
def execFref (f : Long) (s : State) : Out := issue .fref f f.len (frefBody f) s

/-- Drops a card or pinned holding of a handle, possibly reclaiming its task. (R309) -/
def execFdrop (f : Long) (s : State) : Out := issue .fdrop f f.len (fdropBody f) s

/-- Adds a context holding of a handle. (R309) -/
def execFpin (f : Long) (s : State) : Out := issue .fpin f f.len (fpinBody f) s

/-- Resolves the card's own handle with up to 64 value bytes. (R314) -/
def execFresVal (f : Long) (s : State) : Out := issue .fresVal f f.len (fresValBody f) s

/-- Resolves the card's own handle with a place. (R314) -/
def execFresPlace (f : Long) (s : State) : Out := issue .fresPlace f f.len (fresPlaceBody f) s

/-- Breaks the card's own handle with a program code. (R315) -/
def execFbreak (f : Long) (s : State) : Out := issue .fbreak f f.len (fbreakBody f) s

end Sys2Proof.Machine
end

