-- ==== Sys2Proof/Machine/SavePoint.lean ====
section
/-! DEFINITION. `SAVEPT`, `DIGEST` and `SEED` (R352, R353, R360 to R366) and the requests for save points. -/

namespace Sys2Proof.Machine

/-! ## Requests (R353) -/

/-- Adds a request: requests with equal marks are one save point; in free mode each stands alone, in request order. -/
def addReq (sv : Save) (turn : Bool) (r : SpReq) : Save :=
  if turn && sv.reqs.any (fun x => x.mark == r.mark) then
    { sv with reqs := sv.reqs.map fun x =>
        if x.mark = r.mark then { x with bySavept := x.bySavept || r.bySavept, mbox := x.mbox.or r.mbox } else x }
  else { sv with reqs := sv.reqs ++ [r] }

/-- The place of a new request in the order of requests: above those of every request that waits or is being captured. -/
def nextTag (sv : Save) : Nat :=
  (sv.reqs.map (·.tag) ++ (sv.cap.toList ++ sv.queue).map fun c => c.req.tag).foldl (fun a x => max a (x + 1)) 0

/-- The save points of the partition's present context. -/
def ownPoints (sv : Save) : List SavePoint := sv.points.drop sv.old

/-- In turn mode, a save point of a mark has been captured already: equal marks are one save point. -/
def markTaken (sv : Save) (mark : Nat) : Bool :=
  (ownPoints sv).any (fun x => x.mark == mark) || (sv.cap.toList ++ sv.queue).any fun c => c.req.mark == mark

/-- A save point is requested in every partition of the domain; `mbox` names the entry in partition `p`. -/
def requestSave (s : State) (p : Nat) (turn : Bool) (mark : Nat) (bySavept : Bool) (mbox : Option (Nat × Nat)) : State :=
  (domParts s (domOf s p)).foldl (fun s q =>
    let pt := getPart s q
    let r : SpReq :=
      { tag := nextTag pt.save, mark := mark, bySavept := bySavept, mbox := if q = p then mbox else none
        seen := if turn then [] else s.mem
        live := if turn then [] else (s.cards.filter fun e => partOf e.1 == q && !cardFinished s e.1).map fun e => cardWord e.1
        dealt := if turn then none else some (dealtNow s q) }
    if pt.ctx.isSome && !(turn && markTaken pt.save mark) then setPart s q { pt with save := addReq pt.save turn r } else s) s

/-- The number that the last request in free mode will take. -/
def reqNumber (s : State) (p : Nat) : Nat :=
  let sv := (getPart s p).save
  sv.next + sv.reqs.length - 1

/-- `SAVEPT` (R364). -/
def saveptBody (f : Long) (s : State) (k : Nat) (w : Warp) : Act :=
  let s := requestSave (turnPub s k) (partOf k) w.turn (if w.turn then w.clock + 1 else 0) true none
  let x := if w.turn then w.clock + 1 else reqNumber s (partOf k)
  .retire (updWarp s k fun w => wrS w f.d.toNat (BitVec.ofNat 64 x)) .next none id

/-! ## Digests and seeds (R361, R365, R366) -/

/-- The digest chain is enabled (R352). -/
def chainOn (s : State) (p : Nat) : Bool := match (getPart s p).ctx with | some x => x.repro / 2 % 2 == 1 | none => false
/-- The seed stack is enabled. -/
def seedsOn (s : State) (p : Nat) : Bool := match (getPart s p).ctx with | some x => x.repro % 2 == 1 | none => false

def digestBody (f : Long) (s : State) (k : Nat) (w : Warp) : Act :=
  let s := turnPub s k
  let x := rdS w f.a.toNat
  .retire (if chainOn s (partOf k) then updCard s k fun c => { c with digest := mix (c.digest ^^^ x) } else s) .next none id

/-- The value of `SEED`. -/
def seedValue (seed ident operand : Dword) : Dword := mix (mix (mix seed ^^^ ident) ^^^ operand)

def seedBody (f : Long) (s : State) (k : Nat) (w : Warp) : Act :=
  match getCard s k with
  | none => .wait
  | some c =>
    let x := seedValue c.seed (BitVec.ofNat 64 (identOf k)) (rdSB w f)
    .retire (setWarp s k (addPend w (pendOf .seed f [.s f.d.toNat x] 0 0 none))) .next none id

/-! ## The instructions -/

/-- Requests a save point at the next clock, returning its mark or number. (R364) -/
def execSavept (f : Long) (s : State) : Out := issue .savept f f.len (saveptBody f) s

/-- Folds a value into the card digest in stamp order. (R365) -/
def execDigest (f : Long) (s : State) : Out := issue .digest f f.len (digestBody f) s

/-- Returns a mixed seed from the card seed, warp identity and operand. (R366) -/
def execSeed (f : Long) (s : State) : Out := issue .seed f f.len (seedBody f) s

end Sys2Proof.Machine
end

