-- ==== Sys2Proof/Machine/Mail.lean ====
section
/-! DEFINITION. Mailboxes (R281 to R286): the write window, recognition of entries, their fields and dependences, and
`MBSTAT`. -/

namespace Sys2Proof.Machine

/-- The sequence number of the n-th recognised entry, from 1 (R281). -/
def seqOf (n : Nat) : Nat := if n = 0 then 0 else (n - 1) % 0xFFFFFF + 1

/-- Bytes of each field (R283). -/
def fieldSizes : List Nat := [2, 8, 8, 4, 4, 4, 8, 2, 16, 8, 8, 4, 8, 2, 2, 8]

/-- The fields of an entry, and of the mask, in bytes. -/
def entryLen (mask : Nat) : Nat := 2 + ((fieldSizes.zipIdx.filter fun e => mask.testBit e.2).map (·.1)).sum
def entryChunks (mask : Nat) : Nat := (entryLen mask + 15) / 16

/-- Reads the fields of a mask, packed in ascending bit order from offset `o`, over those of the previous entry. -/
def readFields (b : List Byte) (mask : Nat) : List (Nat × Nat) → Nat → Fields → Fields
  | [], _, m => m
  | (n, i) :: r, o, m =>
    if mask.testBit i then readFields b mask r (o + n) (sput 0 m i (leNat ((b.drop o).take n)))
    else readFields b mask r o m

def getField (m : Fields) (i : Nat) : Nat := sget 0 m i

/-! ## Dependences (R286) -/

/-- The place of the entry that a number names in another mailbox, which has recognised `count` entries. -/
def depPlace (count q : Nat) : Nat :=
  let back := (seqOf count + 0xFFFFFF - q) % 0xFFFFFF
  if count ≠ 0 ∧ back < count ∧ back < 2 ^ 23 then count - back
  else
    let d := (q + 0xFFFFFF - seqOf count) % 0xFFFFFF
    count + if d = 0 then 0xFFFFFF else d

/-- A dependence word of entry `n` of mailbox `box`: nothing, a named entry, or one that refuses the entry; what lies before
the mailbox's first entry refuses it too (log 104). -/
def readDep (s : State) (p box n word : Nat) : Option (Option (Nat × Nat)) :=
  let b := word / 2 ^ 24
  let q := word % 2 ^ 24
  if word = 0 then some none
  else if q = 0 then none
  else if b = box then
    let d := (seqOf n + 0xFFFFFF - q) % 0xFFFFFF
    if d = 0 ∨ 2 ^ 23 < d ∨ n ≤ d then none else some (some (b, n - d))
  else some (some (b, depPlace (getMbox s p b).count q))

/-! ## Recognition (R281) -/

/-- The bytes of chunks from the cursor on, when every one has been written. -/
def chunkBytes (m : Mbox) (n : Nat) : Option (List Byte) :=
  (List.range (16 * n)).foldr (fun i a => match a, kfind m.ring ((m.cursor * 16 + i) % 4096) with
    | some l, some b => some (b :: l)
    | _, _ => none) (some [])

/-- A mailbox closes: entries recognised from now on are too late to be waited for (R286). -/
def closeBox (m : Mbox) : Mbox := if m.closed then m else { m with closed := true, closedAt := m.count }

/-- Recognises the entry of `b` bytes with a mask: it takes the next sequence number and enters the FIFO, or is dropped
when the FIFO is full, which closes the mailbox (R282). -/
def recognise (s : State) (p box : Nat) (mask : Nat) (b : List Byte) : State :=
  let m := getMbox s p box
  let n := m.count + 1
  let fs := readFields b mask fieldSizes.zipIdx 2 m.prev
  let words := (List.range 4).map fun i => getField fs 8 / 2 ^ (32 * i) % 2 ^ 32
  let ds := words.map (readDep s p box n)
  let e : Entry := { n := n, fields := fs, deps := ds.filterMap fun d => d.join, badDep := ds.any (·.isNone) }
  let k := entryChunks mask
  let ring := (List.range (16 * k)).foldl (fun r i => kerase r ((m.cursor * 16 + i) % 4096)) m.ring
  let m := { m with count := n, prev := fs, cursor := (m.cursor + k) % 256, ring := ring }
  setMbox s p box (if 512 ≤ m.fifo.length then { closeBox { m with count := n - 1 } with count := n, ovf := true } else { m with fifo := m.fifo ++ [e] })

/-- Recognises entries while one is complete at the cursor. -/
def recogniseAll (p box : Nat) : Nat → State → State
  | 0, s => s
  | n + 1, s =>
    let m := getMbox s p box
    match chunkBytes m 1 with
    | none => s
    | some b0 =>
      let mask := leNat (b0.take 2)
      match chunkBytes m (entryChunks mask) with
      | none => s
      | some b => recogniseAll p box n (recognise s p box mask b)

/-- The host writes bytes of a mailbox window; without a context, and during a restore, they are discarded (R367, R373). -/
def windowWrite (s : State) (p box off : Nat) (b : List Byte) : State :=
  let pt := getPart s p
  if pt.ctx.isNone || decide (256 ≤ box) || (pt.cmd.busy && pt.cmd.op == 7) then s
  else
    let m := getMbox s p box
    let ring := b.zipIdx.foldl (fun r e => if off + e.2 < 4096 then kinsert r (off + e.2) e.1 else r) m.ring
    recogniseAll p box 256 (setMbox s p box { m with ring := ring })

/-- `MBSTAT` (R282). -/
def mbStat (m : Mbox) : Dword :=
  BitVec.ofNat 64 (seqOf m.count * 2 ^ 24 + m.cursor * 2 ^ 16 + m.ovf.toNat * 2 ^ 11 + m.closed.toNat * 2 ^ 10 +
    (512 - m.fifo.length))

/-! ## The events -/

/-- Event. The host writes bytes of a mailbox window chunk. (R281) -/
def execMailboxWindowWrite (part : Nat) (mbox : Nat) (off : Nat) (bytes : (List Byte)) (s : State) : Out := .next (windowWrite s part mbox off bytes)

end Sys2Proof.Machine
end

