-- ==== Sys2Proof/Machine/Dealer.lean ====
section
/-! DEFINITION. The dealer (R280 to R298, R378): checks of an entry, keys and admission, records, fences, completion, cards
created by device code, exhausted save areas and domains that are all parked. -/

namespace Sys2Proof.Machine

/-! ## Card headers and shapes (R19, R24, R68, R69, R284, R289) -/

/-- The dealer reads a header at clock `c` through the context's page tables; its walk installs nothing and sets no bit of a leaf
(log 105). An error, code 7, carries the secure address of its chip that stopped it (R377); a home's refusal is such an error too. -/
def readHeader (s : State) (p c : Nat) (va : Dword) : Except (Option Nat) (List Byte) :=
  if va.toNat % 64 ≠ 0 ∨ spaceOf va.toNat ≠ .global then .error none
  else match translate s (partSite p) (ctxSec s p) .load va.toNat 64 with
    | .ok x => if (homeRefuses s (chipOf p) (ctxSec s p) x.key).isSome then .error none else .ok (rdBytes (settledMem s p c) x.key 64)
    | .error e => .error e.secure

/-- What the dealer's read of a header leaves: its walk and the header's line reach their slices (R14), and a secure address that keeps
the dealer from the header is reported to the secure monitor of its chip (R377). -/
def headerSeen (s : State) (p : Nat) (va : Dword) : State :=
  if va.toNat % 64 ≠ 0 ∨ spaceOf va.toNat ≠ .global then s
  else
    let r := translate s (partSite p) (ctxSec s p) .load va.toNat 64
    let s := walkTouch s (partSite p) va.toNat
    match r with
    | .error e => reportSecure s p e
    | .ok x => match homeRefuses s (chipOf p) (ctxSec s p) x.key with
      | none => sliceTouch s false 0 x.key
      | some kd => if kd = 1 then reportAt s (x.key / keyBase) (x.key % keyBase) else s

/-- A field of `n` bytes at an offset. -/
def hdr (h : List Byte) (off n : Nat) : Nat := leNat ((h.drop off).take n)

/-- Code 1: `MAGIC`, `VER`, reserved fields, `ENTRY`, `QLOG` and `MODE`. -/
def headerOk (h : List Byte) : Bool :=
  let e := hdr h 8 8
  let q := hdr h 0x14 4 / 2 ^ 16 % 32
  hdr h 0 4 == 0x4843565A && hdr h 4 2 == 1 && hdr h 6 2 == 0 && hdr h 0x14 4 / 2 ^ 21 == 0 && hdr h 0x26 2 == 0 &&
    hdr h 0x2C 4 == 0 && hdr h 0x3C 4 == 0 && decide (0x40 ≤ e) && decide (e < 0x40 + hdr h 0x30 4) && e % 4 == 0 &&
    (q == 0 || (decide (6 ≤ q) && decide (q ≤ 16))) && decide (hdr h 0x14 4 / 2 ^ 12 % 16 ≤ 2)

/-- Code 3: `MODE` admits the partition's mode. -/
def modeOk (h : List Byte) (turn : Bool) : Bool :=
  match hdr h 0x14 4 / 2 ^ 12 % 16 with
  | 0 => true
  | 1 => turn
  | _ => !turn

/-- An override that is not zero replaces the header's field (R284). -/
def over_ (x h : Nat) : Nat := if x = 0 then h else x
def dflt (x d : Nat) : Nat := if x = 0 then d else x

def bytesOf4 (x : Nat) : List Nat := (List.range 4).map fun i => x / 256 ^ i % 256

/-- The shape in force, before its checks: every byte of `WARPS` and `ALLOT`, and the stage count. -/
def shapeOf (h : List Byte) (f : Fields) (batch : Bool) : Shape × List Nat × List Nat × Nat :=
  let ws := bytesOf4 (over_ (getField f 12 % 2 ^ 32) (hdr h 0x18 4))
  let as := bytesOf4 (over_ (getField f 6 / 2 ^ 32) (hdr h 0x1C 4))
  let st := dflt (over_ (getField f 12 / 2 ^ 32 % 16) (hdr h 0x14 4 / 2 ^ 8 % 16)) 1
  ({ width := over_ (getField f 6 % 256) (hdr h 0x14 1)
     groups := if batch then getField f 3 else over_ (getField f 5) (hdr h 0x10 4)
     warps := ws.take st, allots := (as.take st).map (8 * ·), gmem := over_ (getField f 11 % 2 ^ 16) (hdr h 0x20 2) * 4096
     canon := dflt (over_ (getField f 14) (hdr h 0x24 2)) 128, split := dflt (over_ (getField f 13) (hdr h 0x22 2)) 8
     quantum := 2 ^ dflt (hdr h 0x14 4 / 2 ^ 16 % 32) 10, save := hdr h 0x28 4 }, ws, as, st)

/-- Registers that a group needs (R24). -/
def groupRegs (x : Shape) : Nat := ((x.warps.zip x.allots).map fun e => e.1 * e.2 * x.width).sum
def groupWarps (x : Shape) : Nat := x.warps.sum

/-- Code 2: the limits of R19, unused stages, and a group on an empty core. -/
def shapeOk (x : Shape × List Nat × List Nat × Nat) : Bool :=
  let (y, ws, as, st) := x
  (y.width == 16 || y.width == 32 || y.width == 64) && decide (1 ≤ y.groups) && decide (y.groups ≤ 16777216) &&
    decide (1 ≤ st) && decide (st ≤ 4) && y.warps.all (fun n => decide (1 ≤ n) && decide (n ≤ 48)) && decide (groupWarps y ≤ 48) &&
    y.allots.all (fun a => decide (8 ≤ a) && decide (a ≤ 256)) && (ws.drop st).all (· == 0) && (as.drop st).all (· == 0) &&
    decide (y.gmem ≤ 96 * 4096) && decide (y.canon ≤ 65535) && decide (y.split ≤ 256) && decide (groupRegs y ≤ 131072)

/-- Bytes of a save-area slot (R296). -/
def slotBytes (x : Shape) : Nat :=
  let n := 4096 + ((x.warps.zip x.allots).map fun e => e.1 * (e.2 * x.width * 4 + 6144)).sum + x.gmem + 384 * 1024
  (n + 4095) / 4096 * 4096

/-- Slots and bytes of a card's save area (R297). -/
def saveSlots (x : Shape) : Nat := if x.save = 0 then min x.groups 2560 else x.save * 4096 / slotBytes x
def saveBytes (x : Shape) : Nat := if x.save = 0 then saveSlots x * slotBytes x else x.save * 4096

/-- Code 6: no slot, or a save area that the pool can never hold. -/
def saveOk (s : State) (p : Nat) (x : Shape) : Bool :=
  match (getPart s p).ctx with
  | none => false
  | some c => decide (1 ≤ saveSlots x) && decide (saveBytes x ≤ c.poollen * 4096)

/-- The save areas of a partition that are in use, each as its start within the pool and its end. -/
def poolAreas (s : State) (p : Nat) : List (Nat × Nat) :=
  (s.cards.filter fun e => partOf e.1 == p && !cardFinished s e.1).map fun e => (e.2.areaAt, e.2.areaAt + e.2.area)

/-- Where the pool has room now for a save area: the lowest place at its start or right after an area in use (log 77). -/
def poolGap (s : State) (p : Nat) (x : Shape) : Option Nat :=
  match (getPart s p).ctx with
  | none => none
  | some c =>
    let used := poolAreas s p
    let fits (a : Nat) : Bool := decide (a + saveBytes x ≤ c.poollen * 4096) &&
      used.all fun u => decide (u.2 ≤ a) || decide (a + saveBytes x ≤ u.1)
    (0 :: used.map (·.2)).foldl (fun (r : Option Nat) a =>
      if fits a then some (match r with | some b => min a b | none => a) else r) none

def poolRoom (s : State) (p : Nat) (x : Shape) : Bool := (poolGap s p x).isSome

/-- Codes 7, 1, 3, 2 and 6 of a card with its header as clock `c` shows it: its shape and entry address, or the first code. -/
def checkCard (s : State) (p c : Nat) (image : Dword) (f : Fields) (batch : Bool) : Except Nat (Shape × Dword) :=
  let turn := match (getPart s p).ctx with | some x => x.turn | none => false
  match readHeader s p c image with
  | .error _ => .error 7
  | .ok h =>
    if !headerOk h then .error 1
    else if !modeOk h turn then .error 3
    else
      let x := shapeOf h f batch
      if !shapeOk x then .error 2
      else if !saveOk s p x.1 then .error 6
      else .ok (x.1, image + BitVec.ofNat 64 (hdr h 8 8))

/-- Code 5: the type, reserved bits and dependences of an entry. -/
def entryOk (e : Entry) : Bool :=
  let f := e.fields
  let t := getField f 0
  decide (t ≤ 7) && !e.badDep && getField f 6 / 2 ^ 8 % 2 ^ 24 == 0 && getField f 7 / 2 ^ 4 == 0 && getField f 11 / 2 ^ 16 == 0 &&
    getField f 12 / 2 ^ 36 == 0 && getField f 15 / 2 % 2 ^ 4 == 0 && (decide (2 ≤ t) || getField f 10 / 4 == 0)

/-- The checks of R289 in order, for an entry of a base: `none` for an entry other than a card that passes. -/
def checkEntry (s : State) (p base : Nat) (m : Mbox) (e : Entry) : Except Nat (Option (Shape × Dword)) :=
  let t := getField e.fields 0
  if m.closed || e.deps.any (depDead s p) then .error 4
  else if !entryOk e then .error 5
  else if t ≤ 1 then
    match checkCard s p base (BitVec.ofNat 64 (getField e.fields 1)) e.fields (t == 1) with
    | .ok x => .ok (some x)
    | .error c => .error c
  else .ok none

/-! ## Keys and their bounds (R287) -/

/-- A lower bound on a running card's end mark. -/
def cardEndBound (s : State) (ck : Nat) : Nat :=
  match kfind s.cards ck with
  | none => 0
  | some c =>
    let q := c.shape.quantum
    let ws := s.warps.filter fun e => cardKey e.1 == ck
    let m := ws.foldl (fun a e => max a (if isLive e.2 then nextMark q (countClock e.2) else e.2.endClock)) c.mark
    let m := if c.next < c.shape.groups then max m (nextMark q c.origin) else m
    match c.stop with
    | some x => max m (nextMark q x.stamp.1)
    | none => m

/-- The key of an entry in a mailbox of a partition. -/
def keyOf (s : State) (p box base n : Nat) : List Nat := [base, myIndex s (chipOf p), box, seqOf n]

/-- A lower bound on the end value of what a mailbox now runs. -/
def curBound (s : State) (p : Nat) (c : Current) (box : Nat) : Nat :=
  match c.mark with
  | some m => m
  | none => match c.card with
    | some ck => max c.base (cardEndBound s ck)
    | none => (getPart s p).mboxes.foldl (fun a e => match e.2.cur with
      | some x => match x.card with
        | some ck => if decide (keyOf s p e.1 x.base x.n < keyOf s p box c.base c.n) then max a (cardEndBound s ck) else a
        | none => a
      | none => a) c.base

/-- A lower bound on the base of the entry that a mailbox admits next; dependences are followed `fuel` deep. -/
def boxBound (s : State) (p : Nat) : Nat → Nat → Nat
  | 0, box => boxBase s p (getMbox s p box)
  | fuel + 1, box =>
    let m := getMbox s p box
    let a := match m.cur with | some c => max (boxBase s p m) (curBound s p c box) | none => boxBase s p m
    match m.fifo with
    | [] => a
    | e :: _ => e.deps.foldl (fun a d => max a (match depEnd s p d with
      | some x => x
      | none => match (getMbox s p d.1).cur with
        | some c => if c.n = d.2 then curBound s p c d.1 else boxBound s p fuel d.1
        | none => boxBound s p fuel d.1)) a

/-- No entry of the mailbox with a lower key can still become known. -/
def boxAbove (s : State) (key : List Nat) (p box : Nat) : Bool :=
  let m := getMbox s p box
  if m.closed && m.fifo.isEmpty then true
  else
    let n := match m.fifo with | e :: _ => e.n | [] => m.count + 1
    decide (key < keyOf s p box (boxBound s p 16 box) n)

/-- The oldest entry of a mailbox when it can be admitted as far as its own mailbox goes: its base and itself. -/
def boxHead (s : State) (p box : Nat) : Option (Nat × Entry) :=
  let m := getMbox s p box
  match m.cur, m.fifo with
  | none, e :: _ => (entryBase s p m e).map fun b => (b, e)
  | _, _ => none

/-- The mailbox of a partition whose oldest entry has the lowest key among those that a test admits. -/
def lowestHead (s : State) (p : Nat) (ok : Nat → Entry → Bool) : Option (Nat × Nat × Entry) :=
  (getPart s p).mboxes.foldl (fun a e => match boxHead s p e.1 with
    | none => a
    | some (b, x) =>
      if !ok e.1 x then a
      else match a with
        | none => some (e.1, b, x)
        | some y => if decide (keyOf s p e.1 b x.n < keyOf s p y.1 y.2.1 y.2.2.n) then some (e.1, b, x) else a) none

/-- In turn mode the entry's key is the lowest that can still become known in the domain, as the bounds that the island's chips
exchange show too, no save point or wait for a slot holds it back (R287, R353, R378), and every act below its base, which its header
may show, has performed (R1, R70; log 10). -/
def mayAdmit (s : State) (p box base : Nat) (e : Entry) : Bool :=
  let d := domOf s p
  !slotBlocked s d && floorGe s d base && beaconsAdmit s (chipOf p) d base && (domParts s d).all fun q =>
    (getPart s q).mboxes.all fun x =>
      (match x.2.cur with | some c => c.typ != 3 | none => true) &&
        ((q == p && x.1 == box) || boxAbove s (keyOf s p box base e.n) q x.1)

/-! ## Records (R293, R294, R359) -/

/-- Writes an admission-record entry, of a type above 15 its low 4 bits (log 103); a difference from a record under replay stops admission. The origin of a card that has
still to take its slot (`open_`) is compared when it takes it (R378). -/
def admitRecord (s : State) (p origin base typ box n status code serial : Nat) (open_ : Bool) : State :=
  match (getPart s p).ctx with
  | none => s
  | some x =>
    let pt := getPart s p
    let b := leBytes 8 origin ++ leBytes 8 base ++ leBytes 8 (typ % 16 * 2 ^ 44 + box * 2 ^ 32 + seqOf n) ++
      leBytes 8 (status * 2 ^ 24 + code * 2 ^ 16 + serial)
    let s := setPart s p { pt with admPos := pt.admPos + 1 }
    let s := dealerWrite s p base (x.admrec + 32 * (pt.admPos % recordSize x)) b
    replayCheck s p pt.admPos (if open_ then 8 else 0) (b.drop (if open_ then 8 else 0))

/-- Writes a completion record to the host and signals (R294). -/
def doneRecord (s : State) (p box n addr status cause kind origin fin digest : Nat) : State :=
  let a := addr / 32 * 32
  let b := leBytes 8 (kind * 2 ^ 56 + cause * 2 ^ 48 + status * 2 ^ 40 + box * 2 ^ 32 + seqOf n) ++ leBytes 8 origin ++
    leBytes 8 fin ++ leBytes 8 digest
  let s := if a = 0 then s else { s with hostMem := wrBytes s.hostMem a b }
  if addr % 2 = 1 then signal s (chipOf p) (msiBase s p + box) else s

/-- An entry has completed with an end value. -/
def setDone (s : State) (p box n base fin : Nat) : State :=
  let m := getMbox s p box
  setMbox s p box { m with done := kinsert m.done n (base, fin), cur := none }

def popFifo (s : State) (p box : Nat) : State :=
  let m := getMbox s p box
  setMbox s p box { m with fifo := m.fifo.drop 1 }

/-! ## Admission (R285 to R292) -/

/-- An entry that completes at its admission: refused, a seed entry, or a hold release. A refused card has no origin: its record shows
the base (log 102). -/
def admitNow (s : State) (p box base : Nat) (e : Entry) (status code : Nat) : State :=
  let s := popFifo s p box
  let s := admitRecord s p base base (getField e.fields 0) box e.n status code 0 false
  let s := doneRecord s p box e.n (getField e.fields 15) status code 0 base base 0
  setDone s p box e.n base base

/-- Pushes onto the seed stack, top first, of at most 16 entries (R360). -/
def pushSeed (l : List Dword) (x : Dword) : List Dword := (x :: l).take 16

/-- The effect of a seed entry (R352, R360). -/
def seedEntry (s : State) (p typ : Nat) (v : Dword) : State :=
  if !seedsOn s p then s
  else
    let pt := getPart s p
    let top := pt.seeds.headD 0
    setPart s p { pt with seeds := match typ with
      | 4 => pushSeed pt.seeds v
      | 5 => pt.seeds.drop 1
      | _ => pushSeed pt.seeds (mix (mix top ^^^ v)) }

/-- The seed recorded for a card admitted now. -/
def seedNow (s : State) (p : Nat) : Dword := if seedsOn s p then (getPart s p).seeds.headD 0 else 0

/-- Before a seed entry of a base takes effect in turn mode, the created cards on their way to the partition whose origin is not above
that base take their seed: each counts before the seed entries of a base at or above its origin, whenever it is admitted (log 108). -/
def settleSeeds (s : State) (p base : Nat) : State :=
  if (getPart s p).ctx.any fun x => x.turn then
    { s with created := s.created.map fun c =>
        if c.target = p ∧ c.origin ≤ base ∧ c.seed.isNone then { c with seed := some (seedNow s p) } else c }
  else s

/-- A card as it is admitted. -/
def newCard (x : Shape) (entry arg : Dword) : Card :=
  { shape := x, batch := false, entry := entry, arg := arg, stride := 0, origin := 0, base := 0, mbox := 0, seq := 0, admAt := 0
    prio := 0, created := false, handle := 0, seed := 0, digest := 0, doneAddr := 0, slots := saveSlots x, area := saveBytes x, areaAt := 0
    blocked := false, maker := none, placed := false, began := 0, next := 0, chunkCore := none, tickets := [], ended := [], due := [], touched := [], gone := [], stopAt := none, doomed := none
    stop := none, endTurn := false, mark := 0, held := [] }

/-- The key of a card of a partition by serial. -/
def newKey (s : State) (p serial : Nat) : Nat := p * keyBase + myIndex s (chipOf p) * 2 ^ 48 + serial * 2 ^ 32

/-- The serial that the next mailbox card of a partition takes (R290). -/
def nextSerial (s : State) (p : Nat) : Nat := (getPart s p).nMail % 0x8000

/-- A card that passed its checks waits: its serial is in use, the pool lacks room, or in free mode no slot is free. Its header
is read again at every try, and the last read counts (log 79). -/
def cardWaits (s : State) (p : Nat) (x : Shape) : Bool :=
  let turn := match (getPart s p).ctx with | some c => c.turn | none => false
  (kfind s.cards (newKey s p (nextSerial s p))).isSome || !poolRoom s p x ||
    (!turn && (pickSlot s p (nextSerial s p) false (0, 0)).isNone)

/-- Admits a mailbox card that passed its checks, unless it waits. -/
def admitCard (s : State) (p box base : Nat) (e : Entry) (x : Shape) (entry : Dword) : State :=
  let turn := match (getPart s p).ctx with | some c => c.turn | none => false
  let pt := getPart s p
  let f := e.fields
  let serial := nextSerial s p
  let ck := newKey s p serial
  let o := ceilMark x.quantum base
  let s0 := s
  if cardWaits s p x then s
  else match (if turn then some 0 else pickSlot s p serial false (0, 0)) with
    | none => s
    | some i =>
      let (s, h) := if turn then (s, 0) else takeSlot s p serial i (some ck)
      let seed := seedNow s p
      let op := getField f 10
      let c := { newCard x entry (BitVec.ofNat 64 (getField f 2)) with
        batch := getField f 0 == 1, stride := getField f 4, areaAt := (poolGap s0 p x).getD 0, origin := o, base := base, mbox := box, seq := seqOf e.n, admAt := pt.admPos
        prio := getField f 7 % 16, handle := h, seed := seed, digest := if op / 2 % 2 = 1 then seed else 0
        doneAddr := getField f 15 }
      let s := popFifo s p box
      let pt := getPart s p
      let s := setPart s p { pt with nMail := pt.nMail + 1 }
      let m := getMbox s p box
      let s := setMbox s p box { m with
        hash := if op % 2 = 1 then List.replicate 32 0 else m.hash
        folds := if op % 2 = 1 then m.folds ++ [(base, m.hash)] else m.folds
        cur := some { n := e.n, typ := getField f 0, base := base, card := some ck, doneAddr := getField f 15, mark := none } }
      let s := setCard s ck c
      let s := admitRecord s p o base (getField f 0) box e.n 0 0 serial turn
      if turn then settleHandles s (domOf s p) else s

/-- Admits the entry of a mailbox. -/
def admitEntry (s : State) (p box base : Nat) (e : Entry) : State :=
  let f := e.fields
  let t := getField f 0
  match checkEntry s p base (getMbox s p box) e with
  | .error c => admitNow (if c = 4 ∨ c = 5 then s else headerSeen s p (BitVec.ofNat 64 (getField f 1))) p box base e 1 c
  | .ok (some (x, entry)) => admitCard (headerSeen s p (BitVec.ofNat 64 (getField f 1))) p box base e x entry
  | .ok none =>
    match t with
    | 2 | 3 =>
      let s := popFifo s p box
      let m := getMbox s p box
      let s := setMbox s p box { m with
        cur := some { n := e.n, typ := t, base := base, card := none, doneAddr := getField f 15, mark := none } }
      admitRecord s p base base t box e.n 0 0 0 false
    | 7 =>
      let s := admitNow s p box base e 0 0
      let m := getMbox s p box
      setMbox s p box (closeBox m)
    | _ => admitNow (seedEntry (settleSeeds s p base) p t (BitVec.ofNat 64 (getField f 9))) p box base e 0 0

/-- In free mode an entry is never held for other mailboxes: one whose card would wait is passed over (R292). -/
def goesNow (s : State) (p : Nat) (x : Ctx) (box : Nat) (e : Entry) : Bool :=
  x.turn || match checkEntry s p 0 (getMbox s p box) e with
    | .ok (some (sh, _)) => !cardWaits s p sh
    | _ => true

/-- The dealer of a partition admits its lowest-key entry when it may (R287, R292). -/
def admission (s : State) (p : Nat) : State :=
  match (getPart s p).ctx with
  | none => s
  | some x =>
    let s0 := reapCards s (domOf s p)
    if (getPart s p).save.differs.isSome then s
    else match lowestHead s0 p (goesNow s0 p x) with
      | none => s
      | some (box, base, e) => if !x.turn || mayAdmit s0 p box base e then admitEntry (noteDealt s0 p base) p box base e else s

/-! ## Fences and completion (R291, R294, R362) -/

/-- Every entry of the partition with a lower key has completed; in turn mode none can still become known. -/
def fenceReady (s : State) (p box : Nat) (turn : Bool) (c : Current) : Bool :=
  let key := keyOf s p box c.base c.n
  (getPart s p).mboxes.all fun x => x.1 == box ||
    ((match x.2.cur with
      | some y => !decide (keyOf s p x.1 y.base y.n < key)
      | none => true) && ((!turn && x.2.fifo.isEmpty) || boxAbove s key p x.1))

/-- The fence mark: the maximum of the base and the end values of the entries with lower keys. -/
def fenceMark (s : State) (p box : Nat) (c : Current) : Nat :=
  let key := keyOf s p box c.base c.n
  (getPart s p).mboxes.foldl (fun a x => x.2.done.foldl (fun a d =>
    if decide (keyOf s p x.1 d.2.1 d.1 < key) then max a d.2.2 else a) a) c.base

/-- A fence or save point completes: its mark is fixed, and a save point is requested at it (R291, R353). -/
def fenceCompletion (s : State) (p box : Nat) : State :=
  let m := getMbox s p box
  match m.cur, (getPart s p).ctx with
  | some c, some x =>
    if (c.typ == 2 || c.typ == 3) && c.mark.isNone && fenceReady s p box x.turn c then
      let k := fenceMark s p box c
      let s := setMbox s p box { m with cur := some { c with mark := some k }, done := kinsert m.done c.n (c.base, k) }
      let s := setClock s p box (k - 1) k
      if c.typ = 3 then requestSave s p x.turn k false (some (box, c.n)) else s
    else s
  | _, _ => s

def firstDword (b : List Byte) : Nat := leNat (b.take 8)

/-- A card's completion record, once it has finished (R294): the context's holding of its handle ends (R309). -/
def cardRecord (s : State) (p box : Nat) (c : Current) (ck : Nat) : State :=
  match kfind s.cards ck with
  | none => s
  | some x =>
    if !cardFinished s ck then s
    else
      let (status, cause, kind) := match x.stop with | none => (0, 0, 0) | some y => (y.status, y.cause, y.kind)
      let s := doneRecord s p box c.n c.doneAddr status cause kind x.origin x.mark (if chainOn s p then x.digest.toNat else 0)
      let s := cascade s p (x.mark, 0) [.drop x.handle]
      setDone (forgetCard s ck) p box c.n c.base x.mark

/-- The completion record of what a mailbox runs (R294, R357, R362); a save point's holds its manifest's digest whatever `REPRO` says
(log 118). -/
def completionRecord (s : State) (p box : Nat) : State :=
  let m := getMbox s p box
  match m.cur, (getPart s p).ctx with
  | some c, some x =>
    match c.card with
    | some ck => cardRecord s p box c ck
    | none =>
      match c.mark with
      | none => s
      | some k =>
        if c.typ = 2 then
          if !x.turn || floorGe s (domOf s p) k then
            setDone (doneRecord s p box c.n c.doneAddr 0 0 0 c.base k (firstDword (if x.turn then hashAt m k else m.hash)))
              p box c.n c.base k
          else s
        else match (ownPoints (getPart s p).save).find? fun y => if x.turn then y.mark == k else y.mbox == some (box, c.n) with
          | none => s
          | some y => setDone (doneRecord s p box c.n c.doneAddr 0 0 0 c.base k (firstDword y.digest)) p box c.n c.base k
  | _, _ => s

/-! ## Cards created by device code (R311 to R313, R323, R324) -/

/-- A created card that has come to a partition may be looked at: in turn mode every act below its origin, which its header may show,
has performed (R1; log 10). -/
def atDealer (s : State) (p : Nat) (x : Ctx) (c : Created) : Bool := c.target == p && (!x.turn || floorGe s (domOf s p) c.origin)

/-- A created card that has come to a dealer waits there: it passes its checks and the pool lacks room for its save area (R297). -/
def lacksRoom (s : State) (p : Nat) (c : Created) : Bool :=
  match checkCard s p c.origin c.image [] false with
  | .error _ => false
  | .ok (sh, _) => !poolRoom s p sh

/-- The created cards that come before `c` by the same handle: none starts before the one ahead of it (R324). -/
def aheadOf (s : State) (c : Created) : List Created :=
  if c.via.isNone then [] else (s.created.takeWhile fun y => y != c).filter fun y => y.via == c.via

/-- A created card can be admitted or refused now: its save area has room, or the stamp of its refusal is the least. -/
def canArrive (s : State) (p : Nat) (x : Ctx) (c : Created) : Bool :=
  atDealer s p x c && (aheadOf s c).isEmpty && match checkCard s p c.origin c.image [] false with
    | .error _ => !x.turn || leastInDom s (chipOf p) (domOf s p) none (c.origin, c.ident)
    | .ok (sh, _) => poolRoom s p sh

/-- The created card that a partition admits or refuses next: of those that it can, in turn mode the first of least origin, and in
free mode the first to have come (R324). -/
def nextArrival (s : State) (p : Nat) (x : Ctx) : Option Created :=
  (s.created.filter (canArrive s p x)).foldl (fun (a : Option Created) c => match a with
    | none => some c
    | some b => if x.turn && decide (c.origin < b.origin) then some c else a) none

/-- The dealer of a partition admits or refuses a created card that has come. -/
def invocationArrival (s : State) (p : Nat) : State :=
  match (getPart s p).ctx with
  | none => s
  | some x =>
    match nextArrival s p x with
    | none => s
    | some c =>
      let s0 := s
      let s := headerSeen { s with created := s.created.erase c } p c.image
      match checkCard s0 p c.origin c.image [] false with
      | .error code =>
        cascade s p (c.origin, c.ident)
          (.brk c.handle (causeRefused code) true :: c.held.map .drop)
      | .ok (sh, entry) =>
        let ck := p * keyBase + c.ident
        let card := { newCard sh entry c.arg with
          areaAt := (poolGap s0 p sh).getD 0
          origin := c.origin, mbox := c.mbox, prio := c.prio, created := true, via := c.via.map fun h => (h, c.stamp), handle := c.handle, seed := c.seed.getD (seedNow s p)
          maker := if c.maker = (p, c.mbox) then none else some c.maker
          held := c.held.foldl (fun m h => kinsert m h.toNat ((kfind m h.toNat).getD 0 + 1)) [] }
        let s := setCard s ck card
        match findSlot s p c.handle with
        | some (key, y) => putSlot s key { y with card := some ck }
        | none => s

/-! ## Exhausted save areas and parked domains (R39, R298) -/

/-- Groups of a card that have started and not ended. -/
def startedGroups (s : State) (ck : Nat) : Nat := (s.groups.filter fun e => cardKey e.1 == ck).length

/-- Of those, the groups of which some warp has still to exit (R298). -/
def openGroups (s : State) (ck : Nat) : Nat := (s.groups.filter fun e => cardKey e.1 == ck && !groupDead s e.1).length

/-- A warp waits at a round gate above the floor. -/
def gateAbove (s : State) (d : Nat) (w : Warp) : Bool :=
  match w.stat with
  | .gate _ m => !floorGe s d m
  | _ => false

/-- The warp's next instruction is an accumulator's and waits for its group's bound (R263). -/
def accWaits (s : State) (k : Nat) (w : Warp) : Bool :=
  w.turn && accNext s k w && !accFree s k (stampOf k w)

/-- The turn for which a warp of a domain waits has the least stamp. -/
def turnLeast (s : State) (d : Nat) (e : Nat × Warp) : Bool :=
  match nextTurn s e.1 e.2 with
  | .domain => leastInDom s (chipOf (partOf e.1)) d (some e.1) (stampOf e.1 e.2)
  | .group => leastInGroup s e.1 (stampOf e.1 e.2)
  | .none => true

/-- A warp of a domain waits for others: it is parked, or waits at a gate above the floor, for a turn whose stamp is not the least, for
the stamp of its fault to be it, or for its place among its group's accumulator instructions (R38, R204, R263). -/
def stuck (s : State) (d : Nat) (e : Nat × Warp) : Bool :=
  !isLive e.2 || isParked e.2 || gateAbove s d e.2 || accWaits s e.1 e.2 || match e.2.stat with
    | .turnWait => !turnLeast s d e
    | .dying _ _ c => !leastInDom s (chipOf (partOf e.1)) d (some e.1) (c, identOf e.1)
    | _ => false

/-- The warp's group is saved. -/
def inSaved (s : State) (k : Nat) : Bool := match getGroup s k with | some g => g.saved | none => false

/-- No resident warp of a domain can retire an instruction (R204). -/
def noneRetires (s : State) (d : Nat) : Bool :=
  s.warps.all fun e => !inDom s d (partOf e.1) || stuck s d e || inSaved s e.1

/-- Nor could a warp of a saved group, were it placed (R298). -/
def noneCanGo (s : State) (d : Nat) : Bool := s.warps.all fun e => !inDom s d (partOf e.1) || stuck s d e

/-- Nothing of the domain can go on, and the floor stands at a group that waits for a slot of its card: more groups than the
card has slots cannot end below the first mark above its origin. Its waiting groups are removed, and the card will end with
status 3 at that mark; every act below it stands. -/
def saveExhausted (s : State) (ck : Nat) : State :=
  match kfind s.cards ck, (getPart s (partOf ck)).ctx with
  | some c, some x =>
    let d := domOf s (partOf ck)
    if x.turn && c.stop.isNone && c.doomed.isNone && decide (c.next < c.shape.groups) && decide (c.slots ≤ openGroups s ck) &&
        noneCanGo s d && leastInDom s (chipOf (partOf ck)) d none (c.origin, identOf ck + c.next * 2 ^ 8) then
      setCard s ck { c with next := c.shape.groups, doomed := some (nextMark c.shape.quantum c.origin) }
    else s
  | _, _ => s

/-- A group of a card can be placed now, as far as its card goes (R298). -/
def canStart (s : State) (e : Nat × Card) : Bool :=
  e.2.stop.isNone && decide (e.2.next < e.2.shape.groups) && decide (startedGroups s e.1 < e.2.slots) && e.2.handle != 0

/-- The enabled cores of a partition, by die and core. -/
def coresOf (s : State) (p : Nat) : List Nat :=
  (partDies s p).flatMap fun d => ((List.range 24).map fun i => d * 24 + i).filter fun n =>
    (getChip s (chipOf p)).enabled.getLsbD n

/-- The dealer could place a group of the card, now or once R204 has vacated a core of parked warps for it; or the card's slot, its
end turn or its end is still to come. -/
def cardPending (s : State) (e : Nat × Card) : Bool :=
  (canStart s e && !(coresOf s (partOf e.1)).isEmpty) ||
    (e.2.stop.isNone && ((e.2.handle == 0 && !e.2.blocked) || e.2.doomed.isSome || (allEnded e.2 && !e.2.endTurn)))

/-- A created card cannot be placed: it waits for room in the pool, or one of the domain does that must start before it or holds the
floor below its origin (R39, R183, R297). -/
def createdHeld (s : State) (c : Created) : Bool :=
  s.created.any fun y => inDom s (domOf s c.target) y.target && (getPart s y.target).ctx.isSome && lacksRoom s y.target y &&
    (y == c || (aheadOf s c).contains y || decide (y.origin < c.origin))

/-- A domain is all parked (R39). -/
def allParked (s : State) (d : Nat) : Bool :=
  let ws := s.warps.filter fun e => inDom s d (partOf e.1) && isLive e.2
  let gs := s.groups.filter fun e => inDom s d (partOf e.1)
  let cs := s.cards.filter fun e => inDom s d (partOf e.1)
  !ws.isEmpty && ws.all (fun e => isParked e.2 && !(flightPends e.2).any pendWaits) &&
    gs.all (fun e => !copiesBusy e.2) && s.created.all (fun c => !inDom s d c.target || createdHeld s c) &&
    cs.all (fun e => !cardPending s e)

/-- The greatest stamp among the parked warps of a card. -/
def parkedStamp (s : State) (ck : Nat) : Stamp :=
  (s.warps.filter fun e => cardKey e.1 == ck && isLive e.2 && isParked e.2).foldl (fun a e =>
    let t : Stamp := (e.2.clock, identOf e.1)
    if stampLt a t then t else a) (0, 0)

/-- The cards of a domain that have a parked warp, each with its stamp, in ascending order of stamp. -/
def parkedCards (s : State) (d : Nat) : List (Stamp × Nat) :=
  let l := (s.cards.filter fun e => inDom s d (partOf e.1) && mayStop s e.1 &&
    s.warps.any fun w => cardKey w.1 == e.1 && isLive w.2 && isParked w.2).map fun e => (parkedStamp s e.1, e.1)
  l.foldl (fun r x => (r.filter fun y => !stampLt x.1 y.1) ++ x :: r.filter fun y => stampLt x.1 y.1) []

/-- Every card with a parked warp of an all-parked domain ends with cause 0x10: all are marked and their parked warps stop at once,
and then each end takes effect in the order of its stamp. -/
def endParked (s : State) (p : Nat) : State :=
  let d := domOf s p
  let turn := match (getPart s p).ctx with | some x => x.turn | none => false
  if turn && allParked s d then
    let l := parkedCards s d
    let s := l.foldl (fun s x => setStop s x.2 { stamp := x.1, cause := 0x10, kind := 0, status := 2 }) s
    let s := l.foldl (fun s x =>
      (s.warps.filter fun w => cardKey w.1 == x.2 && isParked w.2).foldl (fun s w => stopWarp s w.1 (nextMark w.2.quantum x.1.1) x.1) s) s
    l.foldl (fun s x => finishStop s x.2) s
  else s

/-! ## The events -/

/-- Event. The dealer admits the entry with the lowest key, assigning origin, serial and handle slot. (R287) -/
def execAdmission (part : Nat) (s : State) : Out := .next (admission s part)

/-- Event. A fence or save-point entry completes once every lower-key entry has, fixing its fence mark. (R291) -/
def execFenceCompletion (part : Nat) (mbox : Nat) (s : State) : Out := .next (fenceCompletion s part mbox)

/-- Event. The dealer writes an entry's completion record once the floor reaches its end mark. (R294) -/
def execCompletionRecord (part : Nat) (mbox : Nat) (s : State) : Out := .next (completionRecord s part mbox)

/-- Event. A created card arrives at the target chip's dealer. (R323) -/
def execInvocationArrival (part : Nat) (s : State) : Out := .next (invocationArrival s part)

/-- Event. A card with more unended groups than slots at a round mark ends with status 3. (R298) -/
def execSaveAreaExhausted (card : Nat) (s : State) : Out := .next (saveExhausted s card)

/-- Event. A domain in which every warp is parked ends its parked cards with cause 0x10. (R39) -/
def execAllParked (part : Nat) (s : State) : Out := .next (endParked s part)

/-- Event. A group whose warps have ended and whose copies have finished releases its core resources. (R34) -/
def execGroupEnd (group : Nat) (s : State) : Out := .next (endGroup s group)

end Sys2Proof.Machine
end

