-- ==== Sys2Proof/Machine/Capture.lean ====
section
/-! DEFINITION. Taking a save point (R353 to R357): its units, capture, shards, manifest and the draining of spare regions;
verifying and performing a restore (R358). -/

namespace Sys2Proof.Machine

/-! ## Units (R354) -/

def unitSize : Nat := 65536
def unitsPerStack : Nat := 0xC00000000 / 65536

/-- The stacks of a partition. -/
def stacksOf (s : State) (p : Nat) : List Nat := (partDies s p).flatMap fun d => [2 * d, 2 * d + 1]

/-- A key lies in a partition's stacks, and the world of its context reaches it (R369, R377). -/
def partReach (s : State) (p key : Nat) : Bool :=
  key / keyBase == chipOf p && partHas s p (key % keyBase) && (ctxSec s p || !isSecure s (chipOf p) (key % keyBase))

/-- The bytes of a memory that a partition's stacks hold and that its engines reach, by physical address. -/
def partMem (s : State) (p : Nat) (m : Memory) : Memory :=
  (m.filter fun e => partReach s p e.1).map fun e => (e.1 % keyBase, e.2)

/-- The units in which two memories differ, in ascending order. -/
def diffUnits (a b : Memory) : List Nat :=
  (((a.filter fun e => rdByte b e.1 != e.2) ++ (b.filter fun e => rdByte a e.1 != e.2)).foldl
    (fun (m : KMap Unit) e => kinsert m (e.1 / unitSize) ()) []).map (·.1)

/-- Every unit of a partition's stacks. -/
def allUnits (s : State) (p : Nat) : List Nat :=
  (stacksOf s p).flatMap fun k => (List.range unitsPerStack).map fun i => k * unitsPerStack + i

/-! ## Capture (R355) -/

/-- The request that is captured next: the lowest mark, and in free mode the oldest. -/
def nextReq (sv : Save) (turn : Bool) : Option SpReq :=
  if turn then sv.reqs.foldl (fun (a : Option SpReq) r => match a with
    | none => some r
    | some x => if r.mark < x.mark then some r else a) none
  else sv.reqs.head?

/-- Every copy of the domain stamped below a mark has staged its writes to global memory (R203). -/
def copiesStaged (s : State) (d m : Nat) : Bool :=
  s.groups.all fun g => !inDom s d (partOf g.1) || g.2.bufs.all fun b => match b.2.copy with
    | some c => c.mw.isEmpty || !stampLt c.stamp (m, 0)
    | none => true

/-- An admitted save-point entry whose fence mark is not fixed has a base at or below a mark (R353). -/
def entryBelow (s : State) (d m : Nat) : Bool :=
  (domParts s d).any fun p => (getPart s p).mboxes.any fun x => match x.2.cur with
    | some c => c.typ == 3 && c.mark.isNone && decide (c.base ≤ m)
    | none => false

/-- A card is live at a mark. -/
def liveAt (s : State) (turn : Bool) (m : Nat) (e : Nat × Card) : Bool :=
  if turn then decide (e.2.origin < m) && !(e.2.endTurn && decide (e.2.mark ≤ m)) else !cardFinished s e.1

/-- The cards live at the mark of a request (R357), those that have been forgotten since among them. -/
def liveCards (s : State) (p : Nat) (turn : Bool) (r : SpReq) : List Nat :=
  if turn then
    ((s.cards.filter fun e => partOf e.1 == p && liveAt s true r.mark e).map fun e => cardWord e.1) ++
      ((getPart s p).save.past.filter fun e => decide (e.1 < r.mark) && decide (r.mark < e.2.1)).map (·.2.2)
  else r.live

/-- The image against which the next save point lists its units (R354): that of the capture that has begun last, else that of the last
save point. -/
def lastImage (sv : Save) : KMap Byte := (((sv.cap.toList ++ sv.queue).getLast?).map (·.image)).getD sv.prevImage

/-- The engines of a partition begin the capture of their next save point, as soon as its own conditions hold: its image, its unit list
and the dealer's state are fixed as of the mark (log 26), and its units are copied after those of the captures before it. -/
def beginCapture (s : State) (p : Nat) : State :=
  let pt := getPart s p
  let d := domOf s p
  match pt.ctx with
  | none => s
  | some x =>
    match nextReq pt.save x.turn with
    | none => s
    | some r =>
      if x.turn && !(floorGe s d r.mark && copiesStaged s d r.mark && !entryBelow s d r.mark) then s
      else
        let img := partMem s p (if x.turn then image s d (r.mark, 0) else r.seen)
        let cap : Capture :=
          { num := pt.save.next, req := r, full := pt.save.full
            left := if pt.save.full then allUnits s p else diffUnits img (lastImage pt.save)
            image := img, units := []
            live := liveCards s p x.turn r, dealt := r.dealt.getD (dealtAt s p r.mark) }
        let rest := pt.save.reqs.filter fun y => y.tag != r.tag
        setPart s p { pt with
          hist := if rest.isEmpty then [] else pt.hist
          save := { pt.save with
            next := pt.save.next + 1, full := false, reqs := rest
            cap := some (pt.save.cap.getD cap), queue := if pt.save.cap.isSome then pt.save.queue ++ [cap] else pt.save.queue
            past := if rest.isEmpty then [] else pt.save.past } }

/-! ## Leaves of a context -/

/-- The non-zero entries of a table of `n` entries, as keys and values: those that the engines of a partition may read (R369), or the
secure address that closes one to them (R377). -/
def tableEntries (s : State) (p t n : Nat) : List (Except Nat (Nat × BitVec 64)) :=
  let b := physKey (chipOf p) t
  (((s.mem.filter fun e => decide (b ≤ e.1) && decide (e.1 < b + 8 * n)).map fun e => (e.1 - b) / 8).eraseDups).filterMap
    fun i => match entrySeen s p (ctxSec s p) (t + 8 * i) with
      | .ok _ => some (.ok (b + 8 * i, rdEntry s (b + 8 * i)))
      | .error (some a) => some (.error a)
      | .error none => none

/-- The `MODE` 00 leaf entries below a table: key, physical address and size of the page. -/
def leavesBelow (s : State) (p : Nat) : Nat → Nat → List (Except Nat (Nat × Nat × Nat))
  | level, t =>
    (tableEntries s p t (if level = 3 then 2 ^ 17 else 512)).flatMap fun
      | .error a => [.error a]
      | .ok e =>
        if !leafBit e.2 0 then []
        else if leafBit e.2 1 then
          (match pageSize level (leafCont e.2) with
           | some n => if leafMode e.2 = 0 then [.ok (e.1, leafPa e.2, n)] else []
           | none => [])
        else match level with
          | 0 => []
          | l + 1 => leavesBelow s p l (leafPa e.2)

/-- Clears `D` in the leaf entries of the pages of a unit whose units have all been copied, and drops their translations. -/
def clearDirty (s : State) (p u : Nat) (left : List Nat) : State :=
  match (getPart s p).ctx with
  | none => s
  | some x =>
    let c := chipOf p
    let es := leavesBelow s p 3 x.root
    let hit := (es.filterMap Except.toOption).filter fun e =>
      let a := e.2.1 / unitSize
      let b := (e.2.1 + e.2.2 - 1) / unitSize
      decide (a ≤ u) && decide (u ≤ b) && left.all fun v => decide (v < a) || decide (b < v)
    let s := (es.filterMap fun | .error a => some a | .ok _ => none).foldl (fun s a => reportAt s c a) s
    let s := hit.foldl (fun s e =>
      sliceTouch { s with mem := wrBytes s.mem e.1 (leBytes 8 ((rdEntry s e.1) &&& ~~~(BitVec.ofNat 64 (2 ^ 7))).toNat) } true 0 e.1) s
    dropTlb s c fun t => hit.any fun e => e.1 == t.entry

/-! ## Copying a unit and draining -/

/-- A stack's spare region of 8 GiB has room for one more unit of a shard. -/
def spareRoom (sv : Save) (stack : Nat) : Bool :=
  decide (((sv.spare.filter fun e => match e.2 with
    | .unit u => u / unitsPerStack == stack
    | _ => false).length + 1) * (unitSize + 8) ≤ 2 ^ 33)

/-- A secure byte of a unit that the engines of a partition may not read is reported (R377). -/
def reportUnit (s : State) (p u : Nat) : State :=
  if ctxSec s p || (getChip s (chipOf p)).regions.isEmpty then s
  else match closedByte s p (u * unitSize) unitSize with
    | some a => reportAt s (chipOf p) a
    | none => s

/-- A listed unit has been copied. -/
def copyUnit (s : State) (p u : Nat) : State :=
  let pt := getPart s p
  match pt.save.cap with
  | none => s
  | some c =>
    if !c.left.contains u || !spareRoom pt.save (u / unitsPerStack) then s
    else
      let left := c.left.filter fun v => v != u
      let s := setPart s p { pt with save := { pt.save with
        cap := some { c with left := left, units := c.units ++ [u] }, spare := pt.save.spare ++ [(pt.save.points.length, .unit u)] } }
      clearDirty (reportUnit s p u) p u left

/-- The bytes of a unit of an image. -/
def unitBytes (m : Memory) (u : Nat) : List Byte := rdBytes m (u * unitSize) unitSize

/-! ## Shards and the manifest (R356, R357, R362) -/

def insertNat (n : Nat) : List Nat → List Nat
  | [] => [n]
  | m :: r => if n ≤ m then n :: m :: r else m :: insertNat n r

def sortNat (l : List Nat) : List Nat := l.foldr insertNat []

/-- The units of a stack in ascending order. -/
def stackUnits (units : List Nat) (k : Nat) : List Nat := sortNat (units.filter fun u => u / unitsPerStack == k)

/-- The shard of a stack. -/
def shardBytes (img : Memory) (units : List Nat) (k : Nat) : List Byte :=
  let us := stackUnits units k
  (us.flatMap fun u => leBytes 8 ((u - k * unitsPerStack) * unitSize)) ++ us.flatMap fun u => unitBytes img u

/-- The shape record. -/
def shapeRecord (s : State) (p : Nat) : Nat :=
  let ds := partDies s p
  let ch := getChip s (chipOf p)
  let cores := match ds with | d :: _ => ((List.range 24).filter fun i => ch.enabled.getLsbD (d * 24 + i)).length | [] => 0
  ds.length + cores * 2 ^ 8 + 2 * ds.length * 2 ^ 16 + (if ch.fxEn then ch.isize.toNat else 0) * 2 ^ 24

/-- The reproducibility signature. -/
def signature (shape : Nat) (boxes : List (Nat × Bool × Nat × List Byte)) : List Byte :=
  sha256 (leBytes 8 shape ++ boxes.flatMap fun b => b.2.2.2)

/-- The pieces of a manifest, each at its offset. -/
def manifestParts (s : State) (p : Nat) (turn : Bool) (sv : Save) (c : Capture) : List (Nat × List Byte) :=
  let shape := shapeRecord s p
  [(0, leBytes 4 0x4D53565A), (4, leBytes 4 (c.full.toNat + 2 * c.req.bySavept.toNat + 4 * (!turn).toNat)), (8, leBytes 8 c.num),
   (0x10, leBytes 8 (if turn then c.req.mark else 0)), (0x18, leBytes 8 c.dealt.admPos), (0x20, leBytes 8 shape),
   (0x28, leBytes 8 c.dealt.seeds.length), (0x30, c.dealt.seeds.flatMap fun x => leBytes 8 x.toNat),
   (0xB0, if c.full then [] else sv.prevDigest), (0xD0, signature shape c.dealt.boxes)] ++
  (c.dealt.boxes.zipIdx.map fun b => (0x100 + 48 * b.2,
    leBytes 4 (seqOf (b.1.1 + 1)) ++ leBytes 4 b.1.2.1.toNat ++ leBytes 8 b.1.2.2.1 ++ b.1.2.2.2)) ++
  ((stacksOf s p).flatMap fun k =>
    let n := (stackUnits c.units k).length
    [(0x3100 + 64 * k, leBytes 8 n ++ leBytes 8 (n * (unitSize + 8))), (0x3120 + 64 * k, sha256 (shardBytes c.image c.units k))]) ++
  [(0x3500, leBytes 8 c.live.length), (0x3508, c.live.flatMap fun x => leBytes 8 x)]

/-- A manifest by offset, and all its bytes. -/
def manifestMap (l : List (Nat × List Byte)) : Memory := l.foldl (fun m e => wrBytes m e.1 e.2) []
def manifestBytes (m : Memory) : List Byte := rdBytes m 0 (0x3508 + 8 * rdNat m 0x3500 8)

/-- When every listed unit is copied, the offset lists of the shards and the manifest are written: the save point is complete. -/
def writeManifest (s : State) (p : Nat) : State :=
  let pt := getPart s p
  match pt.save.cap, pt.ctx with
  | some c, some x =>
    if !c.left.isEmpty then s
    else
      let m := manifestMap (manifestParts s p x.turn pt.save c)
      let digest := sha256 (manifestBytes m)
      let y : SavePoint :=
        { num := c.num, mark := c.req.mark, mbox := c.req.mbox, full := c.full, digest := digest
          prev := if c.full then List.replicate 32 0 else pt.save.prevDigest, shape := shapeRecord s p, image := c.image
          units := c.units, manifest := m, dealt := c.dealt }
      let n := pt.save.points.length
      let lists := ((stacksOf s p).filter fun k => !(stackUnits c.units k).isEmpty).map fun k => (n, Piece.offsets k)
      setPart s p { pt with save := { pt.save with
        cap := pt.save.queue.head?, queue := pt.save.queue.drop 1, prevImage := c.image, prevDigest := digest, points := pt.save.points ++ [y]
        spare := pt.save.spare ++ lists ++ [(n, .manifest)] } }
  | _, _ => s

/-! ## Draining (R355) -/

/-- The bytes of a piece of the save point at place `n`, which is complete or being captured. -/
def pieceBytes (sv : Save) (n : Nat) (x : Piece) : List Byte :=
  match x, sv.points[n]?, sv.cap with
  | .unit u, some y, _ => unitBytes y.image u
  | .unit u, none, some c => unitBytes c.image u
  | .offsets k, some y, _ => (stackUnits y.units k).flatMap fun u => leBytes 8 ((u - k * unitsPerStack) * unitSize)
  | .manifest, some y, _ => manifestBytes y.manifest
  | _, _, _ => []

/-- Drains the oldest piece of the spare regions to the named host buffer, or over the fabric to the peer chip, when the buffer
has room. -/
def drainUnit (s : State) (p : Nat) : State :=
  let pt := getPart s p
  match pt.save.drain, pt.save.spare with
  | some (target, bytes), (n, x) :: rest =>
    let b := pieceBytes pt.save n x
    if bytes < pt.save.drainAt + b.length then s
    else
      let s := if 2 ^ 63 ≤ target then
          sendFlits s (chipOf p) (target - 2 ^ 63) b.length fun i => .data ((b.drop (240 * i)).take 240)
        else { s with hostMem := wrBytes s.hostMem (target + pt.save.drainAt) b }
      let pt := getPart s p
      setPart s p { pt with save := { pt.save with spare := rest, drainAt := pt.save.drainAt + b.length } }
  | _, _ => s

/-- A capture is abandoned: it writes no manifest (R376). The one that has begun behind it lists its units anew, against the last save
point that is complete, or every unit where the abandoned one was full. -/
def abandonCapture (s : State) (p : Nat) : State :=
  let pt := getPart s p
  match pt.save.cap with
  | none => s
  | some c =>
    let again (x : Capture) : Capture :=
      { x with full := x.full || c.full, left := if x.full || c.full then allUnits s p else diffUnits x.image pt.save.prevImage }
    setPart s p { pt with save := { pt.save with
      cap := pt.save.queue.head?.map again, queue := pt.save.queue.drop 1
      full := if pt.save.queue.isEmpty then pt.save.full || c.full else pt.save.full
      spare := pt.save.spare.filter fun e => e.1 != pt.save.points.length } }

/-- Every capture that has begun and every request is abandoned, as a restore cuts them off. -/
def abandonAll (s : State) (p : Nat) : State :=
  let pt := getPart s p
  setPart s p { pt with
    hist := []
    save := { pt.save with
      cap := none, queue := [], reqs := [], past := [], spare := pt.save.spare.filter fun e => e.1 != pt.save.points.length } }

/-! ## Restore (R358) -/

/-- The first stack whose stored shard has not the digest that the manifest gives. -/
def badShard (s : State) (p : Nat) (y : SavePoint) : Option Nat :=
  (stacksOf s p).find? fun k => rdBytes y.manifest (0x3120 + 64 * k) 32 != sha256 (shardBytes y.image y.units k)

/-- A manifest's own checks, and its link to the one before it. -/
def linkOk (s : State) (p : Nat) (prev : Option SavePoint) (y : SavePoint) : Bool :=
  (match prev with
   | none => y.full
   | some x => decide (x.num < y.num) && y.prev == x.digest) &&
  y.shape == shapeRecord s p && sha256 (manifestBytes y.manifest) == y.digest

/-- Verifies a chain of manifest numbers: its last save point, or the first number that fails, with the stack where a shard does. -/
def verifyChain (s : State) (p : Nat) : List Nat → Option SavePoint → Except (Nat × Option Nat) (Option SavePoint)
  | [], prev => .ok prev
  | n :: r, prev =>
    match (getPart s p).save.points.reverse.find? fun y => y.num == n with
    | none => .error (n, none)
    | some y =>
      if !linkOk s p prev y then .error (n, none)
      else match badShard s p y with
        | some k => .error (n, some k)
        | none => verifyChain s p r (some y)

/-- A publication without its bytes in a partition's memory. -/
def pubOutside (s : State) (p : Nat) (x : Pub) : Option Pub :=
  let inside (k : Nat) : Bool := partReach s p k
  match x.body with
  | .bytes b =>
    let b := b.filter fun e => !inside e.1
    if b.isEmpty then none else some { x with body := .bytes b }
  | .pot key _ _ _ => if inside key then none else some x

/-- The handle slots of a partition that are free take the generations of a save point, so that re-created handles are the recorded
ones (R304, R359); a slot still in use stays as it is (log 91). -/
def restoreGens (s : State) (p : Nat) (gens : KMap Nat) : State :=
  let keys := ((s.slots.map (·.1)).filter fun k => k / 2 ^ 19 == p) ++ gens.map (·.1)
  keys.foldl (fun s k =>
    if (getSlot s k).st = .free then putSlot s k { Slot.fresh with gen := (kfind gens k).getD Slot.fresh.gen } else s) s

/-- Memory and the dealer's state become those of a save point; captures that it cuts off are abandoned. The engines write no secure
byte of another world: the first that the image holds is reported (R377). The counts of cards and the generations of free handle slots
come back with them, and the series of save points goes on from this one, so that re-posted entries give the same records, handles and
manifests (R359, log 91). -/
def restoreTo (s : State) (p : Nat) (y : SavePoint) : State :=
  let s := abandonAll s p
  let s := match (if ctxSec s p then none else y.image.find? fun e => isSecure s (chipOf p) e.1) with
    | some e => reportAt s (chipOf p) e.1
    | none => s
  let keep := s.mem.filter fun e => !partReach s p e.1
  let mem := (y.image.filter fun e => partReach s p (physKey (chipOf p) e.1)).foldl (fun m e => wrByte m (physKey (chipOf p) e.1) e.2) keep
  let pubs := s.pubs.filterMap (pubOutside s p)
  let s := restoreGens { s with mem := mem, pubs := pubs } p y.dealt.gens
  let pt := getPart s p
  let s := setPart s p { pt with
    seeds := y.dealt.seeds, admPos := y.dealt.admPos, nMail := y.dealt.nMail, nCreated := y.dealt.nCreated
    save := { pt.save with
      next := y.num + 1, full := false, prevImage := y.image, prevDigest := y.digest
      floor := y.mark, old := pt.save.points.length, failed := none } }
  y.dealt.boxes.zipIdx.foldl (fun s e =>
    let m := getMbox s p e.2
    setMbox s p e.2 { m with
      count := e.1.1, closed := e.1.2.1, closedAt := e.1.1, clock := e.1.2.2.1, hash := e.1.2.2.2, folds := [], ends := [], fifo := [], cur := none
      done := (List.range e.1.1).map fun i => (i + 1, (0, 0)) }) s

/-! ## The events -/

/-- Event. Once the floor reaches the mark, the engine fixes the unit list and starts copying. (R355) -/
def execSavePointCapture (part : Nat) (s : State) : Out := .next (beginCapture s part)

/-- Event. A listed unit's copy finishes, releasing held writes and clearing D bits. (R355) -/
def execUnitCopyComplete (part : Nat) (unit : Nat) (s : State) : Out := .next (copyUnit s part unit)

/-- Event. When every shard is copied, the manifest is written to the lowest stack's spare region. (R357) -/
def execManifestWrite (part : Nat) (s : State) : Out := .next (writeManifest s part)

/-- Event. The engine drains the spare region to the named host buffer or peer chip. (R355) -/
def execSpareDrain (part : Nat) (s : State) : Out := .next (drainUnit s part)

end Sys2Proof.Machine
end

