-- ==== Sys2Proof/Machine/Scalar.lean ====
section
/-! DEFINITION. The scalar group, MAJ 0x14 to 0x1F (R126, R127). -/

namespace Sys2Proof.Machine

/-- The comparison of R126 on integers: codes 0 to 5. -/
def cmpInt (cc : Nat) (a b : Int) : Bool :=
  match cc with
  | 0 => decide (a = b)
  | 1 => decide (a ≠ b)
  | 2 => decide (a < b)
  | 3 => decide (a ≤ b)
  | 4 => decide (b < a)
  | _ => decide (b ≤ a)

/-- The low `n` bits of a shifted right, copies of bit n − 1 entering. -/
def sraN (n a b : Nat) : Nat := wrapN n (intOf true n a / (2 ^ b : Nat))

/-- The value of a scalar source: all 64 bits, or bits [31:0] for i32 and n32. -/
def scalSrc (t : Ty) (x : Dword) : Nat := x.toNat % 2 ^ tyBits t

/-- The result in `sD`: sign-extended for i32, zero-extended for n32. -/
def scalRes (t : Ty) (x : Nat) : Dword := BitVec.ofInt 64 (intOf (tySigned t) (tyBits t) x)

/-- A scalar instruction: an operation on the width and the three sources. -/
def scalOp (f : Long) (op : Nat → Nat → Nat → Nat → Nat) (w : Warp) : Warp :=
  wrS w f.d.toNat (scalRes f.ty (op (tyBits f.ty) (scalSrc f.ty (rdS w f.a.toNat)) (scalSrc f.ty (rdSB w f))
    (scalSrc f.ty (rdS w f.c.toNat))))

def saddOp (_ a b _ : Nat) : Nat := a + b
def ssubOp (n a b _ : Nat) : Nat := wrapN n ((a : Int) - b)
def smulOp (_ a b _ : Nat) : Nat := a * b
def sandOp (_ a b _ : Nat) : Nat := a &&& b
def sorOp (_ a b _ : Nat) : Nat := a ||| b
def sxorOp (_ a b _ : Nat) : Nat := a ^^^ b
def sshlOp (n a b _ : Nat) : Nat := a * 2 ^ (b % n)
def sshrOp (n a b _ : Nat) : Nat := a / 2 ^ (b % n)
def ssraOp (n a b _ : Nat) : Nat := sraN n a (b % n)
def scmpOp (t : Ty) (cc : Nat) (_ a b _ : Nat) : Nat := if cmpInt cc (tyVal t a) (tyVal t b) then 1 else 0
def sselOp (_ a b c : Nat) : Nat := if c = 0 then b else a
def smovOp (_ _ b _ : Nat) : Nat := b

/-! ## The instructions -/

/-- Short scalar add of an s register and a 7-bit immediate. (R127) -/
def execSaddShort (f : ShortI) (s : State) : Out := warpOp .sadd (f.expand .sadd) f.len (scalOp (f.expand .sadd) saddOp) s

/-- Long scalar wrapping add. (R127) -/
def execSaddLong (f : Long) (s : State) : Out := warpOp .sadd f f.len (scalOp f saddOp) s

/-- Short scalar subtract of a 7-bit immediate. (R127) -/
def execSsubShort (f : ShortI) (s : State) : Out := warpOp .ssub (f.expand .ssub) f.len (scalOp (f.expand .ssub) ssubOp) s

/-- Long scalar wrapping subtract. (R127) -/
def execSsubLong (f : Long) (s : State) : Out := warpOp .ssub f f.len (scalOp f ssubOp) s

/-- Short scalar multiply by a 7-bit immediate. (R127) -/
def execSmulShort (f : ShortI) (s : State) : Out := warpOp .smul (f.expand .smul) f.len (scalOp (f.expand .smul) smulOp) s

/-- Long scalar wrapping multiply. (R127) -/
def execSmulLong (f : Long) (s : State) : Out := warpOp .smul f f.len (scalOp f smulOp) s

/-- Short scalar bitwise and with a 7-bit immediate. (R127) -/
def execSandShort (f : ShortI) (s : State) : Out := warpOp .sand (f.expand .sand) f.len (scalOp (f.expand .sand) sandOp) s

/-- Long scalar bitwise and. (R127) -/
def execSandLong (f : Long) (s : State) : Out := warpOp .sand f f.len (scalOp f sandOp) s

/-- Short scalar bitwise or with a 7-bit immediate. (R127) -/
def execSorShort (f : ShortI) (s : State) : Out := warpOp .sor (f.expand .sor) f.len (scalOp (f.expand .sor) sorOp) s

/-- Long scalar bitwise or. (R127) -/
def execSorLong (f : Long) (s : State) : Out := warpOp .sor f f.len (scalOp f sorOp) s

/-- Short scalar bitwise xor with a 7-bit immediate. (R127) -/
def execSxorShort (f : ShortI) (s : State) : Out := warpOp .sxor (f.expand .sxor) f.len (scalOp (f.expand .sxor) sxorOp) s

/-- Long scalar bitwise xor. (R127) -/
def execSxorLong (f : Long) (s : State) : Out := warpOp .sxor f f.len (scalOp f sxorOp) s

/-- Short scalar shift left by an immediate count mod w. (R127) -/
def execSshlShort (f : ShortI) (s : State) : Out := warpOp .sshl (f.expand .sshl) f.len (scalOp (f.expand .sshl) sshlOp) s

/-- Long scalar shift left. (R127) -/
def execSshlLong (f : Long) (s : State) : Out := warpOp .sshl f f.len (scalOp f sshlOp) s

/-- Short scalar logical shift right by an immediate count mod w. (R127) -/
def execSshrShort (f : ShortI) (s : State) : Out := warpOp .sshr (f.expand .sshr) f.len (scalOp (f.expand .sshr) sshrOp) s

/-- Long scalar logical shift right. (R127) -/
def execSshrLong (f : Long) (s : State) : Out := warpOp .sshr f f.len (scalOp f sshrOp) s

/-- Short scalar arithmetic shift right by an immediate count mod w. (R127) -/
def execSsraShort (f : ShortI) (s : State) : Out := warpOp .ssra (f.expand .ssra) f.len (scalOp (f.expand .ssra) ssraOp) s

/-- Long scalar arithmetic shift right. (R127) -/
def execSsraLong (f : Long) (s : State) : Out := warpOp .ssra f f.len (scalOp f ssraOp) s

/-- Short scalar equality compare with a 7-bit immediate, writing 1 or 0. (R127) -/
def execScmpShort (f : ShortI) (s : State) : Out := warpOp .scmp (f.expand .scmp) f.len (scalOp (f.expand .scmp) (scmpOp (f.expand .scmp).ty (f.expand .scmp).fn.toNat)) s

/-- Long scalar compare under a comparison code, writing 1 or 0. (R127) -/
def execScmpLong (f : Long) (s : State) : Out := warpOp .scmp f f.len (scalOp f (scmpOp f.ty f.fn.toNat)) s

/-- Short scalar select between sA and an immediate on sD as condition. (R127) -/
def execSselShort (f : ShortI) (s : State) : Out := warpOp .ssel (f.expand .ssel) f.len (scalOp (f.expand .ssel) sselOp) s

/-- Long scalar select on sC. (R127) -/
def execSselLong (f : Long) (s : State) : Out := warpOp .ssel f f.len (scalOp f sselOp) s

/-- Short scalar move of a 7-bit immediate. (R127) -/
def execSmovShort (f : ShortI) (s : State) : Out := warpOp .smov (f.expand .smov) f.len (scalOp (f.expand .smov) smovOp) s

/-- Long scalar move. (R127) -/
def execSmovLong (f : Long) (s : State) : Out := warpOp .smov f f.len (scalOp f smovOp) s

end Sys2Proof.Machine
end

