-- ==== Sys2Proof/Machine/IntVec.lean ====
section
/-! DEFINITION. The integer vector group, MAJ 0x20 to 0x3B (R125, R128 to R131). Operations act on one element of `n`
bits given as a number, and answer the element and the flags. -/

namespace Sys2Proof.Machine

def flSAT : Nat := 32

/-- An operation on the integer values of an element type, wrapped (R129). -/
def wrapOp (t : Ty) (g : Int → Int → Int → Int) (a b c : Nat) : Nat × Nat :=
  (wrapN (tyBits t) (g (tyVal t a) (tyVal t b) (tyVal t c)), 0)

/-- An operation on the bits of an element. -/
def bitOp (g : Nat → Nat → Nat) (a b _ : Nat) : Nat × Nat := (g a b, 0)

def vaddOp (t : Ty) : Nat → Nat → Nat → Nat × Nat := wrapOp t fun a b _ => a + b
def vsubOp (t : Ty) : Nat → Nat → Nat → Nat × Nat := wrapOp t fun a b _ => a - b

/-- A clamped result raises `SAT`. -/
def clampOp (t : Ty) (x : Int) : Nat × Nat :=
  let y := max (tyLo t) (min (tyHi t) x)
  (wrapN (tyBits t) y, if y = x then 0 else flSAT)
def vaddsOp (t : Ty) (a b _ : Nat) : Nat × Nat := clampOp t (tyVal t a + tyVal t b)
def vsubsOp (t : Ty) (a b _ : Nat) : Nat × Nat := clampOp t (tyVal t a - tyVal t b)

/-- `x24`: bits [23:0], sign- or zero-extended. -/
def x24 (t : Ty) (x : Nat) : Int := intOf (tySigned t) 24 x
def vmul24Op (t : Ty) (a b _ : Nat) : Nat × Nat := (wrapN 32 (x24 t a * x24 t b), 0)
def vmad24Op (t : Ty) (a b c : Nat) : Nat × Nat := (wrapN 32 (x24 t a * x24 t b + c), 0)
def vmulOp (t : Ty) : Nat → Nat → Nat → Nat × Nat := wrapOp t fun a b _ => a * b
def vmulhOp (t : Ty) : Nat → Nat → Nat → Nat × Nat := wrapOp t fun a b _ => a * b / ((2 ^ tyBits t : Nat) : Int)
def vmadOp (t : Ty) : Nat → Nat → Nat → Nat × Nat := wrapOp t fun a b c => a * b + c
def vminOp (t : Ty) : Nat → Nat → Nat → Nat × Nat := wrapOp t fun a b _ => min a b
def vmaxOp (t : Ty) : Nat → Nat → Nat → Nat × Nat := wrapOp t fun a b _ => max a b
def vabsOp (t : Ty) : Nat → Nat → Nat → Nat × Nat := wrapOp t fun a _ _ => if a < 0 then -a else a
def vandOp : Nat → Nat → Nat → Nat × Nat := bitOp fun a b => a &&& b
def vorOp : Nat → Nat → Nat → Nat × Nat := bitOp fun a b => a ||| b
def vxorOp : Nat → Nat → Nat → Nat × Nat := bitOp fun a b => a ^^^ b
def vnotOp (t : Ty) : Nat → Nat → Nat → Nat × Nat := bitOp fun a _ => 2 ^ tyBits t - 1 - a
def vshlOp (t : Ty) : Nat → Nat → Nat → Nat × Nat := bitOp fun a b => a * 2 ^ (b % tyBits t)
def vshrOp (t : Ty) : Nat → Nat → Nat → Nat × Nat := bitOp fun a b => a / 2 ^ (b % tyBits t)
def vsraOp (t : Ty) : Nat → Nat → Nat → Nat × Nat := bitOp fun a b => sraN (tyBits t) a (b % tyBits t)
def vrotOp (t : Ty) : Nat → Nat → Nat → Nat × Nat := bitOp fun a b =>
  let n := tyBits t
  let k := b % n
  a * 2 ^ k % 2 ^ n + a / 2 ^ (n - k)
def bitsOf (n a : Nat) : List Bool := (List.range n).map fun i => a.testBit i
def vpopcOp (t : Ty) : Nat → Nat → Nat → Nat × Nat := bitOp fun a _ => ((bitsOf (tyBits t) a).filter id).length
def vclzOp (t : Ty) : Nat → Nat → Nat → Nat × Nat := bitOp fun a _ => if a = 0 then tyBits t else tyBits t - 1 - Nat.log2 a
def vbrevOp (t : Ty) : Nat → Nat → Nat → Nat × Nat := bitOp fun a _ =>
  (bitsOf (tyBits t) a).foldl (fun r b => 2 * r + if b then 1 else 0) 0

/-- Position and length of a bit field (R130). -/
def fieldPos (b : Nat) : Nat := b % 256
def fieldLen (b : Nat) : Nat := b / 256 % 256

def vbfeVal (t : Ty) (a b : Nat) : Nat :=
  let n := tyBits t
  let pos := fieldPos b
  if fieldLen b = 0 ∨ n ≤ pos then 0
  else
    let l := min (fieldLen b) (n - pos)
    wrapN n (intOf (tySigned t) l (a / 2 ^ pos))

def vbfiVal (t : Ty) (a b c : Nat) : Nat :=
  let n := tyBits t
  let pos := fieldPos b
  if fieldLen b = 0 ∨ n ≤ pos then c
  else
    let l := min (fieldLen b) (n - pos)
    c % 2 ^ pos + a % 2 ^ l * 2 ^ pos + c / 2 ^ (pos + l) * 2 ^ (pos + l)

/-- `VBFE` and `VBFI`, whose second operand is one 32-bit register. -/
def bitFieldOp (o : Op) (f : Long) (w : Warp) : Warp :=
  perLane w (activeL w o f) f.ty f.d.toNat fun l =>
    let a := rdReg w f.ty f.a.toNat l
    let b := rdB1 w f l
    (if o = .vbfe then vbfeVal f.ty a b else vbfiVal f.ty a b (rdReg w f.ty f.c.toNat l), 0)

/-- `VCMP` (R131). -/
def vcmpOp (f : Long) (w : Warp) : Warp :=
  perLaneP w (activeL w .vcmp f) f.d.toNat fun l =>
    (cmpInt f.fn.toNat (tyVal f.ty (rdReg w f.ty f.a.toNat l)) (tyVal f.ty (rdB w f.ty f l)), 0)

/-- `VSEL` (R131). -/
def vselOp (f : Long) (w : Warp) : Warp :=
  let p := rdP w f.c.toNat
  perLane w (activeL w .vsel f) f.ty f.d.toNat fun l =>
    (if p.getLsbD l then rdReg w f.ty f.a.toNat l else rdB w f.ty f l, 0)

/-- `VMOV` (R131). -/
def vmovOp (f : Long) (w : Warp) : Warp := perLane w (activeL w .vmov f) f.ty f.d.toNat fun l => (rdB w f.ty f l, 0)

/-- `VMOV.bc` (R131). -/
def vmovBcOp (f : Long) (w : Warp) : Warp :=
  let x := (rdS w f.a.toNat).toNat
  perLane w (activeL w .vmovBc f) f.ty f.d.toNat fun _ => (x, 0)

/-! ## The instructions -/

/-- Short vector i32 wrapping add. (R129) -/
def execVaddShort (f : ShortR) (s : State) : Out := warpOp .vadd (f.expand .vadd) f.len (fun w => elementwise w .vadd (f.expand .vadd) (vaddOp (f.expand .vadd).ty)) s

/-- Long vector wrapping add. (R129) -/
def execVaddLong (f : Long) (s : State) : Out := warpOp .vadd f f.len (fun w => elementwise w .vadd f (vaddOp f.ty)) s

/-- Short vector i32 wrapping subtract. (R129) -/
def execVsubShort (f : ShortR) (s : State) : Out := warpOp .vsub (f.expand .vsub) f.len (fun w => elementwise w .vsub (f.expand .vsub) (vsubOp (f.expand .vsub).ty)) s

/-- Long vector wrapping subtract. (R129) -/
def execVsubLong (f : Long) (s : State) : Out := warpOp .vsub f f.len (fun w => elementwise w .vsub f (vsubOp f.ty)) s

/-- Short vector i32 saturating add, setting SAT on clamping. (R129) -/
def execVaddsShort (f : ShortR) (s : State) : Out := warpOp .vadds (f.expand .vadds) f.len (fun w => elementwise w .vadds (f.expand .vadds) (vaddsOp (f.expand .vadds).ty)) s

/-- Long vector saturating add. (R129) -/
def execVaddsLong (f : Long) (s : State) : Out := warpOp .vadds f f.len (fun w => elementwise w .vadds f (vaddsOp f.ty)) s

/-- Short vector i32 saturating subtract. (R129) -/
def execVsubsShort (f : ShortR) (s : State) : Out := warpOp .vsubs (f.expand .vsubs) f.len (fun w => elementwise w .vsubs (f.expand .vsubs) (vsubsOp (f.expand .vsubs).ty)) s

/-- Long vector saturating subtract. (R129) -/
def execVsubsLong (f : Long) (s : State) : Out := warpOp .vsubs f f.len (fun w => elementwise w .vsubs f (vsubsOp f.ty)) s

/-- Short vector 24-bit multiply. (R129) -/
def execVmul24Short (f : ShortR) (s : State) : Out := warpOp .vmul24 (f.expand .vmul24) f.len (fun w => elementwise w .vmul24 (f.expand .vmul24) (vmul24Op (f.expand .vmul24).ty)) s

/-- Long vector 24-bit multiply. (R129) -/
def execVmul24Long (f : Long) (s : State) : Out := warpOp .vmul24 f f.len (fun w => elementwise w .vmul24 f (vmul24Op f.ty)) s

/-- Short vector 24-bit multiply-add with C equal to D. (R129) -/
def execVmad24Short (f : ShortR) (s : State) : Out := warpOp .vmad24 (f.expand .vmad24) f.len (fun w => elementwise w .vmad24 (f.expand .vmad24) (vmad24Op (f.expand .vmad24).ty)) s

/-- Long vector 24-bit multiply-add. (R129) -/
def execVmad24Long (f : Long) (s : State) : Out := warpOp .vmad24 f f.len (fun w => elementwise w .vmad24 f (vmad24Op f.ty)) s

/-- Short vector i32 wrapping multiply. (R129) -/
def execVmulShort (f : ShortR) (s : State) : Out := warpOp .vmul (f.expand .vmul) f.len (fun w => elementwise w .vmul (f.expand .vmul) (vmulOp (f.expand .vmul).ty)) s

/-- Long vector wrapping multiply. (R129) -/
def execVmulLong (f : Long) (s : State) : Out := warpOp .vmul f f.len (fun w => elementwise w .vmul f (vmulOp f.ty)) s

/-- Short vector i32 high-half multiply. (R129) -/
def execVmulhShort (f : ShortR) (s : State) : Out := warpOp .vmulh (f.expand .vmulh) f.len (fun w => elementwise w .vmulh (f.expand .vmulh) (vmulhOp (f.expand .vmulh).ty)) s

/-- Long vector high-half multiply. (R129) -/
def execVmulhLong (f : Long) (s : State) : Out := warpOp .vmulh f f.len (fun w => elementwise w .vmulh f (vmulhOp f.ty)) s

/-- Short vector i32 multiply-add with C equal to D. (R129) -/
def execVmadShort (f : ShortR) (s : State) : Out := warpOp .vmad (f.expand .vmad) f.len (fun w => elementwise w .vmad (f.expand .vmad) (vmadOp (f.expand .vmad).ty)) s

/-- Long vector wrapping multiply-add. (R129) -/
def execVmadLong (f : Long) (s : State) : Out := warpOp .vmad f f.len (fun w => elementwise w .vmad f (vmadOp f.ty)) s

/-- Short vector i32 minimum. (R129) -/
def execVminShort (f : ShortR) (s : State) : Out := warpOp .vmin (f.expand .vmin) f.len (fun w => elementwise w .vmin (f.expand .vmin) (vminOp (f.expand .vmin).ty)) s

/-- Long vector integer minimum. (R129) -/
def execVminLong (f : Long) (s : State) : Out := warpOp .vmin f f.len (fun w => elementwise w .vmin f (vminOp f.ty)) s

/-- Short vector i32 maximum. (R129) -/
def execVmaxShort (f : ShortR) (s : State) : Out := warpOp .vmax (f.expand .vmax) f.len (fun w => elementwise w .vmax (f.expand .vmax) (vmaxOp (f.expand .vmax).ty)) s

/-- Long vector integer maximum. (R129) -/
def execVmaxLong (f : Long) (s : State) : Out := warpOp .vmax f f.len (fun w => elementwise w .vmax f (vmaxOp f.ty)) s

/-- Short vector i32 wrapping absolute value. (R129) -/
def execVabsShort (f : ShortR) (s : State) : Out := warpOp .vabs (f.expand .vabs) f.len (fun w => elementwise w .vabs (f.expand .vabs) (vabsOp (f.expand .vabs).ty)) s

/-- Long vector wrapping absolute value. (R129) -/
def execVabsLong (f : Long) (s : State) : Out := warpOp .vabs f f.len (fun w => elementwise w .vabs f (vabsOp f.ty)) s

/-- Short vector bitwise and. (R129) -/
def execVandShort (f : ShortR) (s : State) : Out := warpOp .vand (f.expand .vand) f.len (fun w => elementwise w .vand (f.expand .vand) vandOp) s

/-- Long vector bitwise and. (R129) -/
def execVandLong (f : Long) (s : State) : Out := warpOp .vand f f.len (fun w => elementwise w .vand f vandOp) s

/-- Short vector bitwise or. (R129) -/
def execVorShort (f : ShortR) (s : State) : Out := warpOp .vor (f.expand .vor) f.len (fun w => elementwise w .vor (f.expand .vor) vorOp) s

/-- Long vector bitwise or. (R129) -/
def execVorLong (f : Long) (s : State) : Out := warpOp .vor f f.len (fun w => elementwise w .vor f vorOp) s

/-- Short vector bitwise xor. (R129) -/
def execVxorShort (f : ShortR) (s : State) : Out := warpOp .vxor (f.expand .vxor) f.len (fun w => elementwise w .vxor (f.expand .vxor) vxorOp) s

/-- Long vector bitwise xor. (R129) -/
def execVxorLong (f : Long) (s : State) : Out := warpOp .vxor f f.len (fun w => elementwise w .vxor f vxorOp) s

/-- Short vector bitwise complement. (R129) -/
def execVnotShort (f : ShortR) (s : State) : Out := warpOp .vnot (f.expand .vnot) f.len (fun w => elementwise w .vnot (f.expand .vnot) (vnotOp (f.expand .vnot).ty)) s

/-- Long vector bitwise complement. (R129) -/
def execVnotLong (f : Long) (s : State) : Out := warpOp .vnot f f.len (fun w => elementwise w .vnot f (vnotOp f.ty)) s

/-- Short vector shift left by b mod w. (R129) -/
def execVshlShort (f : ShortR) (s : State) : Out := warpOp .vshl (f.expand .vshl) f.len (fun w => elementwise w .vshl (f.expand .vshl) (vshlOp (f.expand .vshl).ty)) s

/-- Long vector shift left. (R129) -/
def execVshlLong (f : Long) (s : State) : Out := warpOp .vshl f f.len (fun w => elementwise w .vshl f (vshlOp f.ty)) s

/-- Short vector logical shift right. (R129) -/
def execVshrShort (f : ShortR) (s : State) : Out := warpOp .vshr (f.expand .vshr) f.len (fun w => elementwise w .vshr (f.expand .vshr) (vshrOp (f.expand .vshr).ty)) s

/-- Long vector logical shift right. (R129) -/
def execVshrLong (f : Long) (s : State) : Out := warpOp .vshr f f.len (fun w => elementwise w .vshr f (vshrOp f.ty)) s

/-- Short vector arithmetic shift right. (R129) -/
def execVsraShort (f : ShortR) (s : State) : Out := warpOp .vsra (f.expand .vsra) f.len (fun w => elementwise w .vsra (f.expand .vsra) (vsraOp (f.expand .vsra).ty)) s

/-- Long vector arithmetic shift right. (R129) -/
def execVsraLong (f : Long) (s : State) : Out := warpOp .vsra f f.len (fun w => elementwise w .vsra f (vsraOp f.ty)) s

/-- Short vector rotate left. (R129) -/
def execVrotShort (f : ShortR) (s : State) : Out := warpOp .vrot (f.expand .vrot) f.len (fun w => elementwise w .vrot (f.expand .vrot) (vrotOp (f.expand .vrot).ty)) s

/-- Long vector rotate left. (R129) -/
def execVrotLong (f : Long) (s : State) : Out := warpOp .vrot f f.len (fun w => elementwise w .vrot f (vrotOp f.ty)) s

/-- Short vector bit-field extract with position and length from an index register. (R130) -/
def execVbfeShort (f : ShortR) (s : State) : Out := warpOp .vbfe (f.expand .vbfe) f.len (bitFieldOp .vbfe (f.expand .vbfe)) s

/-- Long vector bit-field extract. (R130) -/
def execVbfeLong (f : Long) (s : State) : Out := warpOp .vbfe f f.len (bitFieldOp .vbfe f) s

/-- Short vector bit-field insert into C equal to D. (R130) -/
def execVbfiShort (f : ShortR) (s : State) : Out := warpOp .vbfi (f.expand .vbfi) f.len (bitFieldOp .vbfi (f.expand .vbfi)) s

/-- Long vector bit-field insert. (R130) -/
def execVbfiLong (f : Long) (s : State) : Out := warpOp .vbfi f f.len (bitFieldOp .vbfi f) s

/-- Short vector population count. (R129) -/
def execVpopcShort (f : ShortR) (s : State) : Out := warpOp .vpopc (f.expand .vpopc) f.len (fun w => elementwise w .vpopc (f.expand .vpopc) (vpopcOp (f.expand .vpopc).ty)) s

/-- Long vector population count. (R129) -/
def execVpopcLong (f : Long) (s : State) : Out := warpOp .vpopc f f.len (fun w => elementwise w .vpopc f (vpopcOp f.ty)) s

/-- Short vector count of leading zeros. (R129) -/
def execVclzShort (f : ShortR) (s : State) : Out := warpOp .vclz (f.expand .vclz) f.len (fun w => elementwise w .vclz (f.expand .vclz) (vclzOp (f.expand .vclz).ty)) s

/-- Long vector count of leading zeros. (R129) -/
def execVclzLong (f : Long) (s : State) : Out := warpOp .vclz f f.len (fun w => elementwise w .vclz f (vclzOp f.ty)) s

/-- Short vector bit reversal within each element. (R129) -/
def execVbrevShort (f : ShortR) (s : State) : Out := warpOp .vbrev (f.expand .vbrev) f.len (fun w => elementwise w .vbrev (f.expand .vbrev) (vbrevOp (f.expand .vbrev).ty)) s

/-- Long vector bit reversal. (R129) -/
def execVbrevLong (f : Long) (s : State) : Out := warpOp .vbrev f f.len (fun w => elementwise w .vbrev f (vbrevOp f.ty)) s

/-- Short vector i32 equality compare writing a predicate in active lanes. (R131) -/
def execVcmpShort (f : ShortR) (s : State) : Out := warpOp .vcmp (f.expand .vcmp) f.len (vcmpOp (f.expand .vcmp)) s

/-- Long vector integer compare under a comparison code writing a predicate. (R131) -/
def execVcmpLong (f : Long) (s : State) : Out := warpOp .vcmp f f.len (vcmpOp f) s

/-- Short vector select on the predicate numbered by D. (R131) -/
def execVselShort (f : ShortR) (s : State) : Out := warpOp .vsel (f.expand .vsel) f.len (vselOp (f.expand .vsel)) s

/-- Long vector select on predicate pC. (R131) -/
def execVselLong (f : Long) (s : State) : Out := warpOp .vsel f f.len (vselOp f) s

/-- Short vector move of B into active lanes. (R131) -/
def execVmovShort (f : ShortR) (s : State) : Out := warpOp .vmov (f.expand .vmov) f.len (vmovOp (f.expand .vmov)) s

/-- Long vector move of a register or literal. (R131) -/
def execVmovLong (f : Long) (s : State) : Out := warpOp .vmov f f.len (vmovOp f) s

/-- Broadcasts an s register into every active lane. (R131) -/
def execVmovBc (f : Long) (s : State) : Out := warpOp .vmovBc f f.len (vmovBcOp f) s

end Sys2Proof.Machine
end

