-- ==== Sys2Proof/Machine/FloatVec.lean ====
section
/-! DEFINITION. The floating-point vector group, MAJ 0x3C to 0x4B (R132 to R139). -/

namespace Sys2Proof.Machine

/-- A value rounded into a format, with the flags of its operands. -/
def finishF (fm : Fmt) (mode : Nat) (x : FVal × Nat) : Nat × Nat :=
  let (r, g) := roundF fm mode x.1
  (r, x.2 ||| g)

/-! ## Arithmetic (R133) -/

def vfaddOp (t : Ty) (mode a b _ : Nat) : Nat × Nat :=
  finishF (tyFmt t) mode (fsumE mode [fdec (tyFmt t) a, fdec (tyFmt t) b])
def vfsubOp (t : Ty) (mode a b _ : Nat) : Nat × Nat :=
  finishF (tyFmt t) mode (fsubE mode (fdec (tyFmt t) a) (fdec (tyFmt t) b))
def vfmulOp (t : Ty) (mode a b _ : Nat) : Nat × Nat :=
  finishF (tyFmt t) mode (fmulE (fdec (tyFmt t) a) (fdec (tyFmt t) b))
def vffmaOp (t : Ty) (mode a b c : Nat) : Nat × Nat :=
  let (p, g) := fmulE (fdec (tyFmt t) a) (fdec (tyFmt t) b)
  let (x, h) := fsumE mode [p, fdec (tyFmt t) c]
  finishF (tyFmt t) mode (x, g ||| h)

/-! ## Minimum, sign and class (R134, R135) -/

def vfminOp (t : Ty) (a b _ : Nat) : Nat × Nat := fminmax (tyFmt t) false a b
def vfmaxOp (t : Ty) (a b _ : Nat) : Nat × Nat := fminmax (tyFmt t) true a b

def vfabsOp (t : Ty) (a _ _ : Nat) : Nat × Nat :=
  (if isNaN (fdec (tyFmt t) a) then fmtNaN (tyFmt t) else a % fmtSign (tyFmt t), 0)
def vfnegOp (t : Ty) (a _ _ : Nat) : Nat × Nat :=
  (if isNaN (fdec (tyFmt t) a) then fmtNaN (tyFmt t)
   else if a < fmtSign (tyFmt t) then a + fmtSign (tyFmt t) else a - fmtSign (tyFmt t), 0)

/-- The comparison of R126 on floating-point values: truth and flags. -/
def cmpFloat (cc : Nat) (a b : FVal) : Bool × Nat :=
  let un := isNaN a || isNaN b
  let nv := if 2 ≤ cc ∧ cc ≤ 5 then (if un then flNV else 0) else sigNV a ||| sigNV b
  (match cc with
   | 0 => !un && feqE a b
   | 1 => un || !feqE a b
   | 2 => !un && fltE a b
   | 3 => !un && (fltE a b || feqE a b)
   | 4 => !un && fltE b a
   | 5 => !un && (fltE b a || feqE a b)
   | 6 => un
   | _ => !un, nv)

def vfcmpOp (f : Long) (w : Warp) : Warp :=
  perLaneP w (activeL w .vfcmp f) f.d.toNat fun l =>
    cmpFloat f.fn.toNat (fdec (tyFmt f.ty) (rdReg w f.ty f.a.toNat l)) (fdec (tyFmt f.ty) (rdB w f.ty f l))

/-- The class of a value as a bit number (R135). -/
def fclass (fm : Fmt) (x : Nat) : Nat :=
  match fdec fm x with
  | .inf true => 0
  | .inf false => 7
  | .nan true => 8
  | .nan false => 9
  | .fin neg m _ =>
    if m = 0 then (if neg then 3 else 4)
    else if m < 2 ^ fm.frac then (if neg then 2 else 5)
    else (if neg then 1 else 6)
def vfclassOp (t : Ty) (a _ _ : Nat) : Nat × Nat := (2 ^ fclass (tyFmt t) a, 0)

/-! ## Rounding and scaling (R136) -/

def vfrndOp (t : Ty) (mode a _ _ : Nat) : Nat × Nat :=
  match fdec (tyFmt t) a with
  | .nan s => (fmtNaN (tyFmt t), if s then flNV else 0)
  | .inf _ => (a, 0)
  | .fin neg m e =>
    let (q, exact) := quant mode neg m (-e) false
    ((roundF (tyFmt t) mode (.fin neg q 0)).1, if exact then 0 else flNX)

/-- a × 2^e; an exponent beyond every format's range acts as one that is barely beyond it. -/
def scaleVal (x : FVal) (e : Int) : FVal :=
  match x with
  | .fin neg m g => .fin neg m (g + max (-5000) (min 5000 e))
  | y => y

def scaleElem (t : Ty) (mode a : Nat) (e : Int) : Nat × Nat :=
  let x := fdec (tyFmt t) a
  finishF (tyFmt t) mode (scaleVal x e, sigNV x)

/-- `VFSCALE`: the index operand is one 32-bit register, or its halves for packed types. -/
def vfscaleOp (f : Long) (w : Warp) : Warp :=
  perLane w (activeL w .vfscale f) f.ty f.d.toNat fun l =>
    let a := rdReg w f.ty f.a.toNat l
    let i := rdB1 w f l
    if tyBits f.ty = 16 then
      mapElems f.ty (fun x y _ => scaleElem f.ty f.mod.toNat x (intOf true 16 y)) a i 0
    else scaleElem f.ty f.mod.toNat a (intOf true 32 i)

/-! ## `VFDOT2` (R137) -/

/-- Infinities of opposite sign meet among the terms. -/
def infsMeet (ts : List FVal) : Bool := ts.contains (.inf false) && ts.contains (.inf true)

def dot2 (t : Ty) (mode a b c : Nat) : Nat × Nat :=
  let fm := tyFmt t
  let (p, g) := fmulE (fdec fm (elemOf t a 0)) (fdec fm (elemOf t b 0))
  let (q, h) := fmulE (fdec fm (elemOf t a 1)) (fdec fm (elemOf t b 1))
  let ts := [p, q, fdec fmt32 c]
  let (x, i) := fsumE mode ts
  finishF fmt32 mode (x, g ||| h ||| i ||| if infsMeet ts then flNV else 0)

def vfdot2Op (f : Long) (w : Warp) : Warp :=
  perLane w (activeL w .vfdot2 f) .f32 f.d.toNat fun l =>
    dot2 f.ty f.mod.toNat (rdV w f.a.toNat l).toNat (rdB w f.ty f l) (rdV w f.c.toNat l).toNat

/-! ## Conversion (R138) -/

/-- The value of an element of an integer or floating-point type. -/
def valOf (t : Ty) (x : Nat) : FVal :=
  if tyInt t then (let v := tyVal t x; .fin (decide (v < 0)) v.natAbs 0) else fdec (tyFmt t) x

/-- `round` into a type (R109, R112). -/
def roundTo (t : Ty) (mode : Nat) (x : FVal) : Nat × Nat :=
  if tyInt t then
    let (y, g) := roundI (tyLo t) (tyHi t) mode x
    (wrapN (tyBits t) y, g)
  else finishF (tyFmt t) mode (x, sigNV x)

def cvt (dst src : Ty) (mode x : Nat) : Nat × Nat := roundTo dst mode (valOf src x)

/-- Two elements packed in one register. -/
def packTwo (x y : Nat × Nat) : Nat × Nat := (x.1 % 2 ^ 16 + y.1 % 2 ^ 16 * 2 ^ 16, x.2 ||| y.2)

def vcvtOp (f : Long) (w : Warp) : Warp :=
  let dst := f.ty
  let src := (Ty.ofCode f.c.toNat).getD .f32
  let m := f.mod.toNat
  perLane w (activeL w .vcvt f) dst f.d.toNat fun l =>
    let a := rdReg w src f.a.toNat l
    if tyBits dst = 16 then
      if tyBits src = 16 then packTwo (cvt dst src m (elemOf src a 0)) (cvt dst src m (elemOf src a 1))
      else packTwo (cvt dst src m a) (cvt dst src m (rdReg w src f.b.toNat l))
    else if tyBits src = 16 then cvt dst src m (elemOf src a f.fn.toNat)
    else cvt dst src m a

/-! ## Block floating point (R117, R118, R139) -/

/-- Byte `sel` of a word replaced. -/
def setByteSel (x : Word) (sel e : Nat) : Word :=
  BitVec.ofNat 32 (x.toNat % 2 ^ (8 * sel) + e % 256 * 2 ^ (8 * sel) + x.toNat / 2 ^ (8 * sel + 8) * 2 ^ (8 * sel + 8))

/-- Writes consecutive 32-bit registers of a lane. -/
def wrRun (w : Warp) (r l : Nat) (xs : List Nat) : Warp :=
  xs.zipIdx.foldl (fun w x => wrV w (r + x.2) l (BitVec.ofNat 32 x.1)) w

/-- The number that registers from `r` hold, the first least significant. -/
def rdRun (w : Warp) (r l n : Nat) : Nat := ((List.range n).map fun i => (rdV w (r + i) l).toNat * 2 ^ (32 * i)).sum

def vbfpqOp (f : Long) (w : Warp) : Warp :=
  let m := bfpM f.ty
  (activeL w .vbfpq f).foldl (fun x l =>
    let (e, word, fl) := bfpQuant m ((List.range 16).map fun i => fdec fmt32 (rdV w (f.a.toNat + i) l).toNat)
    let x := wrRun x f.d.toNat l ((List.range ((m + 1) / 2)).map fun i => word / 2 ^ (32 * i) % 2 ^ 32)
    raiseFp (wrV x f.c.toNat l (setByteSel (rdV w f.c.toNat l) f.imm.toNat e)) fl) w

def vbfpxOp (f : Long) (w : Warp) : Warp :=
  let m := bfpM f.ty
  (activeL w .vbfpx f).foldl (fun x l =>
    let e := (rdV w f.c.toNat l).toNat / 2 ^ (8 * f.imm.toNat) % 256
    let word := rdRun w f.a.toNat l ((m + 1) / 2)
    let ys := (List.range 16).map fun i => roundF fmt32 0 (bfpElem m e word i)
    raiseFp (wrRun x f.d.toNat l (ys.map (·.1))) (orAll (ys.map (·.2)))) w

/-! ## The instructions -/

/-- Short f32 add, rounded nearest-even. (R133) -/
def execVfaddShort (f : ShortR) (s : State) : Out := warpOp .vfadd (f.expand .vfadd) f.len (fun w => elementwise w .vfadd (f.expand .vfadd) (vfaddOp (f.expand .vfadd).ty (f.expand .vfadd).mod.toNat)) s

/-- Long floating-point add with a rounding code. (R133) -/
def execVfaddLong (f : Long) (s : State) : Out := warpOp .vfadd f f.len (fun w => elementwise w .vfadd f (vfaddOp f.ty f.mod.toNat)) s

/-- Short f32 subtract, rounded nearest-even. (R133) -/
def execVfsubShort (f : ShortR) (s : State) : Out := warpOp .vfsub (f.expand .vfsub) f.len (fun w => elementwise w .vfsub (f.expand .vfsub) (vfsubOp (f.expand .vfsub).ty (f.expand .vfsub).mod.toNat)) s

/-- Long floating-point subtract. (R133) -/
def execVfsubLong (f : Long) (s : State) : Out := warpOp .vfsub f f.len (fun w => elementwise w .vfsub f (vfsubOp f.ty f.mod.toNat)) s

/-- Short f32 multiply, rounded nearest-even. (R133) -/
def execVfmulShort (f : ShortR) (s : State) : Out := warpOp .vfmul (f.expand .vfmul) f.len (fun w => elementwise w .vfmul (f.expand .vfmul) (vfmulOp (f.expand .vfmul).ty (f.expand .vfmul).mod.toNat)) s

/-- Long floating-point multiply. (R133) -/
def execVfmulLong (f : Long) (s : State) : Out := warpOp .vfmul f f.len (fun w => elementwise w .vfmul f (vfmulOp f.ty f.mod.toNat)) s

/-- Fused multiply-add with one rounding. (R133) -/
def execVffma (f : Long) (s : State) : Out := warpOp .vffma f f.len (fun w => elementwise w .vffma f (vffmaOp f.ty f.mod.toNat)) s

/-- IEEE minimumNumber of two operands. (R134) -/
def execVfmin (f : Long) (s : State) : Out := warpOp .vfmin f f.len (fun w => elementwise w .vfmin f (vfminOp f.ty)) s

/-- IEEE maximumNumber of two operands. (R134) -/
def execVfmax (f : Long) (s : State) : Out := warpOp .vfmax f f.len (fun w => elementwise w .vfmax f (vfmaxOp f.ty)) s

/-- Clears the sign bit, canonicalising NaNs. (R134) -/
def execVfabs (f : Long) (s : State) : Out := warpOp .vfabs f f.len (fun w => elementwise w .vfabs f (vfabsOp f.ty)) s

/-- Inverts the sign bit, canonicalising NaNs. (R134) -/
def execVfneg (f : Long) (s : State) : Out := warpOp .vfneg f f.len (fun w => elementwise w .vfneg f (vfnegOp f.ty)) s

/-- Floating-point compare writing a predicate in active lanes. (R135) -/
def execVfcmp (f : Long) (s : State) : Out := warpOp .vfcmp f f.len (vfcmpOp f) s

/-- Writes a one-hot class mask for each element. (R135) -/
def execVfclass (f : Long) (s : State) : Out := warpOp .vfclass f f.len (fun w => elementwise w .vfclass f (vfclassOp f.ty)) s

/-- Rounds to an integral value of the same format. (R136) -/
def execVfrnd (f : Long) (s : State) : Out := warpOp .vfrnd f f.len (fun w => elementwise w .vfrnd f (vfrndOp f.ty f.mod.toNat)) s

/-- Multiplies by a power of two with one rounding. (R136) -/
def execVfscale (f : Long) (s : State) : Out := warpOp .vfscale f f.len (vfscaleOp f) s

/-- Two-element 16-bit dot product added to f32 with one rounding. (R137) -/
def execVfdot2 (f : Long) (s : State) : Out := warpOp .vfdot2 f f.len (vfdot2Op f) s

/-- Converts between numeric types with the given rounding. (R138) -/
def execVcvt (f : Long) (s : State) : Out := warpOp .vcvt f f.len (vcvtOp f) s

/-- Quantises sixteen f32 registers per lane into one BFP block and exponent byte. (R139) -/
def execVbfpq (f : Long) (s : State) : Out := warpOp .vbfpq f f.len (vbfpqOp f) s

/-- Expands one BFP block per lane into sixteen f32 registers. (R139) -/
def execVbfpx (f : Long) (s : State) : Out := warpOp .vbfpx f f.len (vbfpxOp f) s

end Sys2Proof.Machine
end

