-- ==== Sys2Proof/Machine/Real.lean ====
section
/-! DEFINITION. Enclosures of real numbers for the correctly rounded functions of spec 12: fixed-point series for exp, ln,
π, sin and cos, and intervals of floating mantissas. Every function answers integers that bound the exact value, so that a
rounding to which both bounds agree is the rounding of the exact value. -/

namespace Sys2Proof.Machine

/-! ## Integer roots -/

/-- The bits of the integer square root from bit n − 1 down. -/
def isqrtFrom (x : Nat) : Nat → Nat → Nat
  | 0, r => r
  | n + 1, r => let t := r + 2 ^ n; isqrtFrom x n (if t * t ≤ x then t else r)

/-- floor(√x). -/
def isqrt (x : Nat) : Nat := if x = 0 then 0 else isqrtFrom x (Nat.log2 x / 2 + 1) 0

/-! ## Fixed-point series, scaled by 2^p -/

/-- floor(a × b / 2^p). -/
def fxMul (p : Nat) (a b : Int) : Int := a * b / (2 ^ p : Nat)

/-- Σ x^n / n! from term `i` on: the terms' sum, each term rounded down. -/
def expTerms (p : Nat) (x : Int) : Nat → Nat → Int → Int → Int
  | 0, _, _, s => s
  | n + 1, i, t, s => let t' := fxMul p t x / (i : Int); expTerms p x n (i + 1) t' (s + t')

/-- Enough terms for |x| ≤ 1 at precision p. -/
def expCount (p : Nat) : Nat := p / 4 + 20

/-- Bounds of exp x for |x| ≤ 1. -/
def expFix (p : Nat) (x : Int) : Int × Int :=
  let one : Int := (2 ^ p : Nat)
  let s := expTerms p x (expCount p) 1 one one
  let e : Int := 3 * expCount p + 8
  (s - e, s + e)

/-- Σ ± x^(2i+1) / (2i+1): `alt` alternates the signs (arctangent). -/
def atanTerms (p : Nat) (x2 : Int) (alt : Bool) : Nat → Nat → Int → Int → Int
  | 0, _, _, s => s
  | n + 1, i, t, s =>
    let q := t / (2 * (i : Int) + 1)
    atanTerms p x2 alt n (i + 1) (fxMul p t x2) (if alt && i % 2 == 1 then s - q else s + q)

def atanCount (p : Nat) : Nat := p / 3 + 8

/-- Bounds of atanh x (`alt` false) or atan x for 0 ≤ x ≤ 1/3. -/
def atanFix (p : Nat) (alt : Bool) (x : Int) : Int × Int :=
  let s := atanTerms p (fxMul p x x) alt (atanCount p) 0 x 0
  let e : Int := 4 * atanCount p + 16
  (s - e, s + e)

/-- Bounds of ln 2 = 2 atanh(1/3). -/
def ln2Fix (p : Nat) : Int × Int :=
  let (a, b) := atanFix p false ((2 ^ p : Nat) / 3 : Nat)
  (2 * a - 2, 2 * b + 4)

/-- Bounds of π = 16 atan(1/5) − 4 atan(1/239). -/
def piFix (p : Nat) : Int × Int :=
  let (a, b) := atanFix p true ((2 ^ p : Nat) / 5 : Nat)
  let (c, d) := atanFix p true ((2 ^ p : Nat) / 239 : Nat)
  (16 * a - 4 * d - 32, 16 * b - 4 * c + 32)

/-- Bounds of ln y for 1 ≤ y ≤ 2. -/
def lnFix (p : Nat) (y : Int) : Int × Int :=
  let one : Int := (2 ^ p : Nat)
  let t := (y - one) * one / (y + one)
  let (a, b) := atanFix p false t
  (2 * a - 4, 2 * b + 8)

/-- Σ of a sine or cosine series from term `i` on, signs alternating. -/
def trigTerms (p : Nat) (x2 : Int) : Nat → Nat → Int → Int → Int
  | 0, _, _, s => s
  | n + 1, i, t, s =>
    let t' := -(fxMul p t x2) / ((i : Int) * (i + 1))
    trigTerms p x2 n (i + 2) t' (s + t')

/-- Bounds of sin x for 0 ≤ x ≤ 2, where x is known within ±`dx`. -/
def sinFix (p : Nat) (x dx : Int) : Int × Int :=
  let s := trigTerms p (fxMul p x x) (expCount p) 2 x x
  let e : Int := 4 * expCount p + 16 + dx
  (s - e, s + e)

/-- Bounds of cos x for 0 ≤ x ≤ 2. -/
def cosFix (p : Nat) (x dx : Int) : Int × Int :=
  let one : Int := (2 ^ p : Nat)
  let s := trigTerms p (fxMul p x x) (expCount p) 1 one one
  let e : Int := 4 * expCount p + 16 + dx
  (s - e, s + e)

/-! ## Intervals of floating mantissas -/

/-- [lo × 2^ex, hi × 2^ex]. -/
structure Ivl where
  lo : Int
  hi : Int
  ex : Int
  deriving DecidableEq, Repr

/-- x / 2^k rounded down, and up. -/
def shrDown (x : Int) (k : Nat) : Int := x / (2 ^ k : Nat)
def shrUp (x : Int) (k : Nat) : Int := -((-x) / (2 ^ k : Nat))

/-- At most about p bits of mantissa. -/
def Ivl.norm (p : Nat) (a : Ivl) : Ivl :=
  let b := Nat.log2 (max a.lo.natAbs a.hi.natAbs)
  if b ≤ p then a else { lo := shrDown a.lo (b - p), hi := shrUp a.hi (b - p), ex := a.ex + ((b - p : Nat) : Int) }

/-- The same interval, or a wider one, at exponent `e`. -/
def Ivl.at (e : Int) (a : Ivl) : Ivl :=
  if e ≤ a.ex then
    let k := (a.ex - e).toNat
    { lo := a.lo * (2 ^ k : Nat), hi := a.hi * (2 ^ k : Nat), ex := e }
  else
    let k := (e - a.ex).toNat
    { lo := shrDown a.lo k, hi := shrUp a.hi k, ex := e }

/-- The exponent of an interval's leading bit. -/
def Ivl.top (a : Ivl) : Int := a.ex + Nat.log2 (max a.lo.natAbs a.hi.natAbs)

def ivlNeg (a : Ivl) : Ivl := { lo := -a.hi, hi := -a.lo, ex := a.ex }

/-- A sum at p bits: the smaller operand is not shifted out further than the result's precision. -/
def ivlAdd (p : Nat) (a b : Ivl) : Ivl :=
  let e := max (min a.ex b.ex) (max a.top b.top - (p : Int) - 16)
  let x := a.at e
  let y := b.at e
  ({ lo := x.lo + y.lo, hi := x.hi + y.hi, ex := e } : Ivl).norm p

def ivlSub (p : Nat) (a b : Ivl) : Ivl := ivlAdd p a (ivlNeg b)

/-- An exact dyadic number. -/
def ivlPoint (m e : Int) : Ivl := { lo := m, hi := m, ex := e }

def ivlPos (a : Ivl) : Bool := decide (0 < a.lo)

/-- Bounds of exp of m × 2^e, where |m × 2^e| is below 2^40. -/
def expPoint (p : Nat) (m e : Int) : Ivl :=
  let q := p + 64
  let x : Int := (({ lo := m, hi := m, ex := e } : Ivl).at (-(q : Int))).lo
  let (a, b) := ln2Fix q
  let k := x / a
  let r := x - k * a
  let w := (b - a) * k.natAbs + 2
  let (lo, _) := expFix q (r - w)
  let (_, hi) := expFix q (r + w)
  ({ lo := lo, hi := hi, ex := k - (q : Int) } : Ivl).norm p

/-- Bounds of exp over an interval. -/
def ivlExp (p : Nat) (a : Ivl) : Ivl :=
  let x := expPoint p a.lo a.ex
  let y := expPoint p a.hi a.ex
  let e := min x.ex y.ex
  ({ lo := (x.at e).lo, hi := (y.at e).hi, ex := e } : Ivl).norm p

/-- Bounds of ln of m × 2^e for m > 0. -/
def lnPoint (p : Nat) (m : Nat) (e : Int) : Ivl :=
  let q := p + 64
  let b := Nat.log2 m
  let y : Int := (({ lo := m, hi := m, ex := -(b : Int) } : Ivl).at (-(q : Int))).lo
  let (lo, _) := lnFix q y
  let (_, hi) := lnFix q (y + 1)
  let (c, d) := ln2Fix q
  let k := e + b
  ({ lo := lo + (if 0 ≤ k then k * c else k * d), hi := hi + (if 0 ≤ k then k * d else k * c), ex := -(q : Int) } : Ivl).norm p

/-- Bounds of ln over a positive interval. -/
def ivlLn (p : Nat) (a : Ivl) : Ivl :=
  let x := lnPoint p a.lo.toNat a.ex
  let y := lnPoint p a.hi.toNat a.ex
  let e := min x.ex y.ex
  ({ lo := (x.at e).lo, hi := (y.at e).hi, ex := e } : Ivl).norm p

/-! ## Rounding an enclosed value -/

/-- The rounding of a value that lies strictly between the bounds, when both agree on it. -/
def roundIvl (fm : Fmt) (mode : Nat) (neg : Bool) (a : Ivl) : Option (Nat × Nat) :=
  if a.lo ≤ 0 then none
  else
    let x := roundMag fm mode neg a.lo.toNat a.ex true
    let y := roundMag fm mode neg (max a.lo (a.hi - 1)).toNat a.ex true
    if x = y then some x else none

end Sys2Proof.Machine
end

