-- ==== Sys2Proof/Machine/Special.lean ====
section
/-! DEFINITION. The special functions, MAJ 0x73 (R266, R267, R278): correctly rounded FP32 results. Results that are
rational or algebraic are rounded from exact integers; the others from enclosures whose bounds round alike, at growing
precision, and past the last precision a free value (log 12). -/

namespace Sys2Proof.Machine

/-- The precisions at which an enclosure is tried. -/
def precisions : List Nat := [320, 640, 2048]

/-- The rounding of a value enclosed by `g` at each precision, else the free value; always inexact. -/
def roundReal (tag x mode : Nat) (neg : Bool) (g : Nat → Ivl) : Nat × Nat :=
  match precisions.findSome? fun p => roundIvl fmt32 mode neg (g p) with
  | some r => r
  | none => ((Sys2Proof.Config.freeRound tag mode x).toNat % 2 ^ 32, flNX)

/-- The quotient of positive intervals. -/
def ivlDiv (p : Nat) (a b : Ivl) : Ivl :=
  let k := p + Nat.log2 b.hi.natAbs + 4
  let lo := a.lo * (2 ^ k : Nat) / b.hi
  let hi := -(-(a.hi * (2 ^ k : Nat)) / b.lo)
  { lo := lo, hi := hi, ex := a.ex - b.ex - k }

/-! ## Quotients and roots -/

/-- ma × 2^ea / (mb × 2^eb), rounded. -/
def quotient (mode : Nat) (neg : Bool) (ma : Nat) (ea : Int) (mb : Nat) (eb : Int) : Nat × Nat :=
  let k := 64 + Nat.log2 mb
  let n := ma * 2 ^ k
  roundMag fmt32 mode neg (n / mb) (ea - eb - k) (n % mb != 0)

def vrcp (mode x : Nat) : Nat × Nat :=
  match fdec fmt32 x with
  | .nan s => (fmtNaN fmt32, if s then flNV else 0)
  | .inf neg => (fneg neg fmt32 0, 0)
  | .fin neg 0 _ => (fneg neg fmt32 (fmtInf fmt32), flDZ)
  | .fin neg m e => quotient mode neg 1 0 m e

def vfdiv (mode x y : Nat) : Nat × Nat :=
  let a := fdec fmt32 x
  let b := fdec fmt32 y
  let neg := valNeg a != valNeg b
  if isNaN a || isNaN b then (fmtNaN fmt32, sigNV a ||| sigNV b)
  else match a, b with
    | .inf _, .inf _ => (fmtNaN fmt32, flNV)
    | .inf _, _ => (fneg neg fmt32 (fmtInf fmt32), 0)
    | _, .inf _ => (fneg neg fmt32 0, 0)
    | .fin _ 0 _, .fin _ 0 _ => (fmtNaN fmt32, flNV)
    | .fin _ 0 _, _ => (fneg neg fmt32 0, 0)
    | _, .fin _ 0 _ => (fneg neg fmt32 (fmtInf fmt32), flDZ)
    | .fin _ ma ea, .fin _ mb eb => quotient mode neg ma ea mb eb
    | _, _ => (fmtNaN fmt32, 0)

/-- m × 2^e with an even exponent. -/
def evenExp (m : Nat) (e : Int) : Nat × Int := if e % 2 = 0 then (m, e) else (2 * m, e - 1)

def vsqrt (mode x : Nat) : Nat × Nat :=
  match fdec fmt32 x with
  | .nan s => (fmtNaN fmt32, if s then flNV else 0)
  | .inf false => (fmtInf fmt32, 0)
  | .fin neg 0 _ => (fneg neg fmt32 0, 0)
  | .fin false m e =>
    let (m, e) := evenExp m e
    let n := m * 2 ^ 80
    let q := isqrt n
    roundMag fmt32 mode false q (e / 2 - 40) (q * q != n)
  | _ => (fmtNaN fmt32, flNV)

def vrsq (mode x : Nat) : Nat × Nat :=
  match fdec fmt32 x with
  | .nan s => (fmtNaN fmt32, if s then flNV else 0)
  | .inf false => (0, 0)
  | .fin neg 0 _ => (fneg neg fmt32 (fmtInf fmt32), flDZ)
  | .fin false m e =>
    let (m, e) := evenExp m e
    let q := isqrt (2 ^ 160 / m)
    roundMag fmt32 mode false q (-(e / 2) - 80) (q * q * m != 2 ^ 160)
  | _ => (fmtNaN fmt32, flNV)

/-! ## Exponential and logarithm to base 2 -/

/-- 2^k × exp(f × ln 2) for f = m × 2^e. -/
def exp2Ivl (k m e : Int) (p : Nat) : Ivl :=
  let (a, b) := ln2Fix (p + 64)
  let r := ivlExp p { lo := a * m, hi := b * m, ex := e - (p + 64 : Nat) }
  { r with ex := r.ex + k }

def vexp2 (mode x : Nat) : Nat × Nat :=
  match fdec fmt32 x with
  | .nan s => (fmtNaN fmt32, if s then flNV else 0)
  | .inf neg => (if neg then 0 else fmtInf fmt32, 0)
  | .fin _ 0 _ => (roundF fmt32 mode (.fin false 1 0))
  | .fin neg m e =>
    let y : Int := if neg then -(m : Int) else m
    if 0 ≤ e ∨ m % 2 ^ (-e).toNat = 0 then
      let n := if 0 ≤ e then y * (2 ^ e.toNat : Nat) else y / (2 ^ (-e).toNat : Nat)
      roundMag fmt32 mode false 1 (max (-400) (min 400 n)) false
    else
      let n := y / (2 ^ (-e).toNat : Nat)
      let f := y % (2 ^ (-e).toNat : Nat)
      if n < -400 then roundMag fmt32 mode false 1 (-400) true
      else if 400 < n then roundMag fmt32 mode false 1 400 true
      else roundReal 3 x mode false (exp2Ivl n f e)

/-- e + ln y / ln 2 for y = m × 2^(−log₂ m), without its sign. -/
def log2Ivl (m : Nat) (e : Int) (p : Nat) : Ivl :=
  let (a, b) := ln2Fix (p + 64)
  let r := ivlAdd (p + 64) (ivlPoint e 0)
    (ivlDiv (p + 64) (lnPoint (p + 64) m (-(Nat.log2 m : Int))) { lo := a, hi := b, ex := -((p + 64 : Nat) : Int) })
  if e < 0 then ivlNeg r else r

def vlog2 (mode x : Nat) : Nat × Nat :=
  match fdec fmt32 x with
  | .nan s => (fmtNaN fmt32, if s then flNV else 0)
  | .inf false => (fmtInf fmt32, 0)
  | .fin _ 0 _ => (fneg true fmt32 (fmtInf fmt32), flDZ)
  | .fin false m e =>
    let n := e + Nat.log2 m
    if m = 2 ^ Nat.log2 m then roundF fmt32 mode (.fin (decide (n < 0)) n.natAbs 0)
    else roundReal 4 x mode (decide (n < 0)) (log2Ivl m n)
  | _ => (fmtNaN fmt32, flNV)

/-! ## Trigonometric and hyperbolic functions -/

/-- |a| mod 2 over 2^k, for a = m × 2^e: the numerator and k. -/
def mod2 (m : Nat) (e : Int) : Nat × Nat :=
  if 0 ≤ e then (m * 2 ^ (min e 1).toNat % 2, 0) else (m % 2 ^ ((-e).toNat + 1), (-e).toNat)

/-- sin or cos of π n / 2^k, for 0 < n / 2^k < 1/2. -/
def trigIvl (cosine : Bool) (n k : Nat) (p : Nat) : Ivl :=
  let q := p + 64
  let (a, b) := piFix q
  let x := a * n / (2 ^ k : Nat)
  let (lo, hi) := if cosine then cosFix q x (b - a + 2) else sinFix q x (b - a + 2)
  { lo := lo, hi := hi, ex := -(q : Int) }

def vsinpi (mode x : Nat) : Nat × Nat :=
  match fdec fmt32 x with
  | .nan s => (fmtNaN fmt32, if s then flNV else 0)
  | .inf _ => (fmtNaN fmt32, flNV)
  | .fin neg m e =>
    let (n, k) := mod2 m e
    let one := 2 ^ k
    let r := n % one
    if r = 0 then (fneg neg fmt32 0, 0)
    else
      let sg := neg != decide (one < n)
      let r := min r (one - r)
      if 2 * r = one then roundF fmt32 mode (.fin sg 1 0)
      else roundReal 5 x mode sg (trigIvl false r k)

def vcospi (mode x : Nat) : Nat × Nat :=
  match fdec fmt32 x with
  | .nan s => (fmtNaN fmt32, if s then flNV else 0)
  | .inf _ => (fmtNaN fmt32, flNV)
  | .fin _ m e =>
    let (n, k) := mod2 m e
    let one := 2 ^ k
    let n := min n (2 * one - n)
    let sg := decide (one < 2 * n)
    let r := min n (one - n)
    if 2 * r = one then (0, 0)
    else if r = 0 then roundF fmt32 mode (.fin sg 1 0)
    else roundReal 6 x mode sg (trigIvl true r k)

/-- (1 − exp(−2a)) / (1 + exp(−2a)) for a = m × 2^e > 0. -/
def tanhIvl (m : Nat) (e : Int) (p : Nat) : Ivl :=
  let t := expPoint p (-(m : Int)) (e + 1)
  ivlDiv p (ivlSub p (ivlPoint 1 0) t) (ivlAdd p (ivlPoint 1 0) t)

def vtanh (mode x : Nat) : Nat × Nat :=
  match fdec fmt32 x with
  | .nan s => (fmtNaN fmt32, if s then flNV else 0)
  | .inf neg => roundF fmt32 mode (.fin neg 1 0)
  | .fin neg 0 _ => (fneg neg fmt32 0, 0)
  | .fin neg m e =>
    let (m, e) := if 7 ≤ e + Nat.log2 m then (100, (0 : Int)) else (m, e)
    roundReal 7 x mode neg (tanhIvl m e)

/-! ## The group -/

/-- The result of function `FN` (R266): bits and flags. -/
def specialFn (fn mode a b : Nat) : Nat × Nat :=
  match fn with
  | 0 => vrcp mode a
  | 1 => vrsq mode a
  | 2 => vsqrt mode a
  | 3 => vexp2 mode a
  | 4 => vlog2 mode a
  | 5 => vsinpi mode a
  | 6 => vcospi mode a
  | 7 => vtanh mode a
  | _ => vfdiv mode a b

/-- Each active lane's result is outstanding with its flags (R74, R278). -/
def specialBody (o : Op) (f : Long) (s : State) (k : Nat) (w : Warp) : Act :=
  let rs := (activeL w o f).map fun l =>
    (l, specialFn f.fn.toNat f.mod.toNat (rdV w f.a.toNat l).toNat (if o = .vfdiv then rdB w .f32 f l else 0))
  let ws := rs.map fun r => RegW.v f.d.toNat r.1 (BitVec.ofNat 32 r.2.1)
  .retire (setWarp s k (addPend w (pendOf o f ws (orAll (rs.map fun r => r.2.2)) 0 none))) .next none id

/-! ## The instructions -/

/-- Correctly rounded f32 reciprocal. (R266) -/
def execVrcp (f : Long) (s : State) : Out := issue .vrcp f f.len (specialBody .vrcp f) s

/-- Correctly rounded f32 reciprocal square root. (R266) -/
def execVrsq (f : Long) (s : State) : Out := issue .vrsq f f.len (specialBody .vrsq f) s

/-- Correctly rounded f32 square root. (R266) -/
def execVsqrt (f : Long) (s : State) : Out := issue .vsqrt f f.len (specialBody .vsqrt f) s

/-- Correctly rounded f32 base-2 exponential. (R266) -/
def execVexp2 (f : Long) (s : State) : Out := issue .vexp2 f f.len (specialBody .vexp2 f) s

/-- Correctly rounded f32 base-2 logarithm. (R266) -/
def execVlog2 (f : Long) (s : State) : Out := issue .vlog2 f f.len (specialBody .vlog2 f) s

/-- Correctly rounded f32 sin(pi a). (R266) -/
def execVsinpi (f : Long) (s : State) : Out := issue .vsinpi f f.len (specialBody .vsinpi f) s

/-- Correctly rounded f32 cos(pi a). (R266) -/
def execVcospi (f : Long) (s : State) : Out := issue .vcospi f f.len (specialBody .vcospi f) s

/-- Correctly rounded f32 hyperbolic tangent. (R266) -/
def execVtanh (f : Long) (s : State) : Out := issue .vtanh f f.len (specialBody .vtanh f) s

/-- Correctly rounded f32 division. (R266) -/
def execVfdiv (f : Long) (s : State) : Out := issue .vfdiv f f.len (specialBody .vfdiv f) s

end Sys2Proof.Machine
end

