-- ==== Sys2Proof/Machine/LevelIndex.lean ====
section
/-! DEFINITION. The level-index unit, MAJ 0x74 and 0x75 (R268 to R278). A finite non-zero word stands for
± exp(± φ(t)), where t = s − 1 is held as a multiple of 2^−27; a result is found from its logarithm R as the index
1 + ψ(|R|), ψ the inverse of φ. -/

namespace Sys2Proof.Machine

/-- A word's meaning (R268, R269): `recip` is `Q`, and `t` is (s − 1) × 2^27. -/
inductive Sli where
  | nal
  | zero
  | val (neg recip : Bool) (t : Nat)
  deriving DecidableEq, Repr

def lxUp : Nat := 1
def lxDown : Nat := 2
def lxCeil : Nat := 4
def lxFloor : Nat := 8
def lxNal : Nat := 16

def sliDec (x : Nat) : Sli :=
  if x = 0x40000000 then .zero
  else if x = 0xC0000000 then .nal
  else .val (x.testBit 31) (x.testBit 30) (x % 2 ^ 30)

/-- A result word and its flags in `%lxstat`. -/
abbrev SliRes := Nat × Nat

def sliNal : SliRes := (0xC0000000, lxNal)
def sliZero : SliRes := (0x40000000, 0)

/-- The last steps of `sli_round` (R270): the clamps and the packing of the index n. -/
def sliPack (neg recip : Bool) (n : Nat) : SliRes :=
  let ov := decide (9 * 2 ^ 27 ≤ n)
  let n := if ov then 9 * 2 ^ 27 - 1 else n
  let q := recip && n != 2 ^ 27
  ((if neg then 2 ^ 31 else 0) + (if q then 2 ^ 30 else 0) + (n - 2 ^ 27) % 2 ^ 30,
    if !ov then 0 else if recip then lxFloor else lxCeil)

/-- `sli_round` of an infinity. -/
def sliInf (neg : Bool) : SliRes := sliPack neg false (9 * 2 ^ 27)

/-! ## Generalised exponential and logarithm -/

/-- φ of L + f / 2^27. -/
def phiFrom (p f : Nat) : Nat → Ivl
  | 0 => ivlPoint f (-27)
  | n + 1 => ivlExp p (phiFrom p f n)

def phi (p t : Nat) : Ivl := phiFrom p (t % 2 ^ 27) (t / 2 ^ 27)

/-- m × 2^e ≥ 2^j. -/
def geTwo (m e j : Int) : Bool := if e ≤ j then decide (((2 ^ (j - e).toNat : Nat) : Int) ≤ m) else decide (1 ≤ m)

/-- ψ over an interval of non-negative numbers: the identity below 1, and 1 + ψ(ln v) from 1 on. -/
def psi (p : Nat) : Nat → Ivl → Ivl
  | 0, a => a
  | n + 1, a =>
    if !geTwo a.hi a.ex 0 then a
    else if geTwo a.lo a.ex 0 then ivlAdd p (ivlPoint 1 0) (psi p n (ivlLn p a))
    else
      let u := ivlAdd p (ivlPoint 1 0) (psi p n (lnPoint p a.hi.toNat a.ex))
      let e := min a.ex u.ex
      { lo := (a.at e).lo, hi := (u.at e).hi, ex := e }

/-- The index n = (1 + t) × 2^27, to the nearest integer, where both bounds agree. -/
def roundIdx (a : Ivl) : Option Nat :=
  let lo := quant 0 false a.lo.toNat (-(a.ex + 27)) false
  let hi := quant 0 false a.hi.toNat (-(a.ex + 27)) false
  if lo.1 = hi.1 then some (2 ^ 27 + lo.1) else none

/-- The sign of the logarithm R and the index of its exponential, when the enclosure decides them. -/
def idxOfLog (p : Nat) (r : Ivl) : Option (Bool × Nat) :=
  let q := decide (r.hi ≤ 0)
  let a : Ivl := if 0 ≤ r.lo then r else if q then ivlNeg r else { r with lo := 0, hi := max r.hi (-r.lo) }
  (roundIdx (psi p 8 a)).bind fun n => if 0 ≤ r.lo || q || n == 2 ^ 27 then some (q, n) else none

/-- Tries growing precision; past the last, a free index. -/
def decideIdx (tag x y : Nat) (g : Nat → Option (Bool × Nat)) : Bool × Nat :=
  match precisions.findSome? g with
  | some r => r
  | none =>
    let z := Sys2Proof.Config.freeRound tag x y
    (z.getLsbD 63, 2 ^ 27 + z.toNat % 2 ^ 30)

/-- ln(1 ± exp(−d)). -/
def lnOne (p : Nat) (minus : Bool) (d : Ivl) : Option Ivl :=
  let e := ivlExp p (ivlNeg d)
  let x := if minus then ivlSub p (ivlPoint 1 0) e else ivlAdd p (ivlPoint 1 0) e
  if ivlPos x then some (ivlLn p x) else none

def L1 : Nat := 2 ^ 27

/-! ## Products and sums -/

/-- The index of exp(R) for R = ± φ(ta) ± φ(tb): at large t the larger operand decides alone, since the other moves the
index by far less than half a unit. -/
def logSumAt (p : Nat) (sa : Bool) (ta : Nat) (sb : Bool) (tb : Nat) : Option (Bool × Nat) :=
  if 6 * L1 ≤ ta then some (sa, L1 + ta)
  else if 5 * L1 ≤ ta then
    if tb < 4 * L1 then some (sa, L1 + ta)
    else
      let u := phi p (ta - L1)
      let d := if ta = tb then ivlPoint 0 0 else ivlSub p u (phi p (tb - L1))
      if geTwo d.lo d.ex 13 then some (sa, L1 + ta)
      else (lnOne p (sa != sb) d).bind fun y =>
        (roundIdx (psi p 8 (ivlAdd p u y))).map fun n => (sa, n + L1)
  else
    let x := phi p ta
    let y := phi p tb
    let a := ivlAdd p (if sa then ivlNeg x else x) (if sb then ivlNeg y else y)
    idxOfLog p a

def logSum (tag x y : Nat) (sa : Bool) (ta : Nat) (sb : Bool) (tb : Nat) : Bool × Nat :=
  if sa != sb && ta == tb then (false, L1)
  else decideIdx tag x y fun p => if tb ≤ ta then logSumAt p sa ta sb tb else logSumAt p sb tb sa ta

/-- The order of two magnitudes: of (Q, t). -/
def magKey (q : Bool) (t : Nat) : Int := if q then -(t : Int) else t

/-- The index of |A| ± |B| where |A| > |B|, or where they are equal and added. -/
def magSumAt (p : Nat) (minus : Bool) (qa : Bool) (ta : Nat) (qb : Bool) (tb : Nat) : Option (Bool × Nat) :=
  if 5 * L1 ≤ max ta tb then some (qa, L1 + ta)
  else
    let x := phi p ta
    let y := phi p tb
    let la := if qa then ivlNeg x else x
    let lb := if qb then ivlNeg y else y
    let d := if qa == qb && ta == tb then ivlPoint 0 0 else ivlSub p la lb
    if geTwo d.lo d.ex 13 then some (qa, L1 + ta)
    else (lnOne p minus d).bind fun z => idxOfLog p (ivlAdd p la z)

/-- val(a) + val(b) for finite non-zero words. -/
def sliSum (x y : Nat) (sa qa : Bool) (ta : Nat) (sb qb : Bool) (tb : Nat) : SliRes :=
  let ka := magKey qa ta
  let kb := magKey qb tb
  if sa != sb && ka == kb then sliZero
  else
    let minus := sa != sb
    let r := decideIdx 16 x y fun p => if kb ≤ ka then magSumAt p minus qa ta qb tb else magSumAt p minus qb tb qa ta
    sliPack (if kb ≤ ka then sa else sb) r.1 r.2

/-! ## Arithmetic (R274, R275) -/

def sliNegate (x : Nat) : Nat := if x = 0x40000000 ∨ x = 0xC0000000 then x else (x + 2 ^ 31) % 2 ^ 32

def lxAdd (x y : Nat) : SliRes :=
  match sliDec x, sliDec y with
  | .nal, _ => sliNal
  | _, .nal => sliNal
  | .zero, .zero => sliZero
  | .zero, _ => (y, 0)
  | _, .zero => (x, 0)
  | .val sa qa ta, .val sb qb tb => sliSum x y sa qa ta sb qb tb

def lxSub (x y : Nat) : SliRes := lxAdd x (sliNegate y)

def lxMul (x y : Nat) : SliRes :=
  match sliDec x, sliDec y with
  | .nal, _ => sliNal
  | _, .nal => sliNal
  | .zero, _ => sliZero
  | _, .zero => sliZero
  | .val sa qa ta, .val sb qb tb =>
    let r := logSum 17 x y qa ta qb tb
    sliPack (sa != sb) r.1 r.2

def lxDiv (x y : Nat) : SliRes :=
  match sliDec x, sliDec y with
  | .nal, _ => sliNal
  | _, .nal => sliNal
  | .zero, .zero => sliNal
  | .zero, _ => sliZero
  | .val sa _ _, .zero => sliInf sa
  | .val sa qa ta, .val sb qb tb =>
    let r := logSum 18 x y qa ta (!qb) tb
    sliPack (sa != sb) r.1 r.2

/-- exp: a word with `Q` = 0 moves up a level (R275); else the logarithm of the result is ± exp(−φ(t)). -/
def lxExp (x : Nat) : SliRes :=
  match sliDec x with
  | .nal => sliNal
  | .zero => (0, 0)
  | .val sa false t => sliPack false sa (2 * L1 + t)
  | .val sa true t =>
    if 4 * L1 ≤ t then (0, 0)
    else
      let r := decideIdx 19 x 0 fun p => (roundIdx (ivlExp p (ivlNeg (phi p t)))).map fun n => (sa, n)
      sliPack false sa r.2

/-- ln: a positive word from level 2 on moves down a level (R275); at level 1 the result is ± t. -/
def lxLog (x : Nat) : SliRes :=
  match sliDec x with
  | .nal => sliNal
  | .zero => sliInf true
  | .val true _ _ => sliNal
  | .val false qa t =>
    if t = 0 then sliZero
    else if L1 ≤ t then sliPack qa false t
    else
      let r := decideIdx 20 x 0 fun p => idxOfLog p (lnPoint p t (-27))
      sliPack qa r.1 r.2

/-- λ (R272). -/
def sliLevel (x : Nat) : Nat :=
  match sliDec x with
  | .val _ _ t => t / L1 + 1
  | _ => 0

/-- The crossing flags of a result (R272). -/
def crossing (r m : Nat) : Nat := if m < r then lxUp else if r < m then lxDown else 0

/-! ## Comparison and level (R276) -/

def sliOrd (x : Nat) : FVal :=
  match sliDec x with
  | .nal => .nan false
  | .zero => .fin false 0 0
  | .val neg q t => .fin neg (2 ^ 32 + magKey q t).toNat 0

def lxCmp (cc x y : Nat) : Bool := (cmpFloat cc (sliOrd x) (sliOrd y)).1

def lxLvl (x : Nat) : Nat :=
  match sliDec x with
  | .nal => 2 ^ 7
  | .zero => 2 ^ 6
  | .val neg q t => (if neg then 2 ^ 5 else 0) + (if q then 2 ^ 4 else 0) + (t / L1 + 1)

/-! ## Conversion (R277) -/

/-- An IEEE value to SLI32: the word, its `%lxstat` flags and its `%fpstat` flags. -/
def sliOfVal (x : Nat) : FVal → Nat × Nat × Nat
  | .nan s => (sliNal.1, sliNal.2, if s then flNV else 0)
  | .inf neg => ((sliInf neg).1, (sliInf neg).2, 0)
  | .fin _ 0 _ => (sliZero.1, 0, 0)
  | .fin neg m e =>
    if m = 2 ^ Nat.log2 m ∧ e + Nat.log2 m = 0 then ((sliPack neg false L1).1, 0, 0)
    else
      let r := decideIdx 21 x 0 fun p => idxOfLog p (lnPoint p m e)
      let y := sliPack neg r.1 r.2
      (y.1, y.2, 0)

/-- exp(± φ(t)) in an IEEE format; beyond every format's range the magnitude 2^±2000 stands for it. -/
def valOfSli (fm : Fmt) (mode x : Nat) : Nat × Nat :=
  match sliDec x with
  | .nal => (fmtNaN fm, flNV)
  | .zero => (0, 0)
  | .val neg q t =>
    if t = 0 then roundF fm mode (.fin neg 1 0)
    else if 4 * L1 ≤ t then roundMag fm mode neg 1 (if q then -2000 else 2000) true
    else
      let y := phi 64 t
      if geTwo y.lo y.ex 11 then roundMag fm mode neg 1 (if q then -2000 else 2000) true
      else
        match precisions.findSome? fun p =>
            roundIvl fm mode neg (ivlExp p (if q then ivlNeg (phi p t) else phi p t)) with
        | some r => r
        | none => ((Sys2Proof.Config.freeRound 22 mode x).toNat % 2 ^ (1 + fm.exp + fm.frac), flNX)

/-! ## The group -/

/-- The arithmetic of MAJ 0x74 by `FN`. -/
def lxFn (fn x y : Nat) : SliRes :=
  match fn with
  | 0 => lxAdd x y
  | 1 => lxSub x y
  | 2 => lxMul x y
  | 3 => lxDiv x y
  | 5 => lxExp x
  | _ => lxLog x

def lxUnary (o : Op) : Bool := o == .lxexp || o == .lxlog

/-- One lane: the word, its flags with its crossing, and whether its level differs from the larger operand level. -/
def lxLane (o : Op) (f : Long) (w : Warp) (l : Nat) : Nat × Nat × Bool :=
  let x := (rdV w f.a.toNat l).toNat
  let y := if lxUnary o then 0x40000000 else rdB w .sli f l
  let r := lxFn f.fn.toNat x y
  let m := max (sliLevel x) (if lxUnary o then 0 else sliLevel y)
  (r.1, r.2 ||| crossing (sliLevel r.1) m, sliLevel r.1 != m)

/-- `LXADD` to `LXLOG` (R272, R274). -/
def lxArithBody (o : Op) (f : Long) (s : State) (k : Nat) (w : Warp) : Act :=
  let rs := (activeL w o f).map fun l => (l, lxLane o f w l)
  let ws := rs.flatMap fun r =>
    RegW.v f.d.toNat r.1 (BitVec.ofNat 32 r.2.1) ::
      (if f.imm.getLsbD 3 then [RegW.p (f.imm.toNat % 8) r.1 r.2.2.2] else [])
  .retire (setWarp s k (addPend w (pendOf o f ws 0 (orAll (rs.map fun r => r.2.2.1)) none))) .next none id

/-- `LXCMP` (R276). -/
def lxCmpBody (f : Long) (s : State) (k : Nat) (w : Warp) : Act :=
  let ws := (activeL w .lxcmp f).map fun l =>
    RegW.p f.d.toNat l (lxCmp (f.imm.toNat % 8) (rdV w f.a.toNat l).toNat (rdB w .sli f l))
  .retire (setWarp s k (addPend w (pendOf .lxcmp f ws 0 0 none))) .next none id

/-- `LXLVL` (R276). -/
def lxLvlBody (f : Long) (s : State) (k : Nat) (w : Warp) : Act :=
  let ws := (activeL w .lxlvl f).map fun l => RegW.v f.d.toNat l (BitVec.ofNat 32 (lxLvl (rdV w f.a.toNat l).toNat))
  .retire (setWarp s k (addPend w (pendOf .lxlvl f ws 0 0 none))) .next none id

/-- The writes of a result of 32 or 64 bits. -/
def regWrites (t : Ty) (d l x : Nat) : List RegW :=
  if Forms.pair t then [.v d l (BitVec.ofNat 32 x), .v (d + 1) l (BitVec.ofNat 32 (x / 2 ^ 32))] else [.v d l (BitVec.ofNat 32 x)]

/-- `LXCVT` (R277). -/
def lxCvtBody (f : Long) (s : State) (k : Nat) (w : Warp) : Act :=
  let src := (Ty.ofCode (f.fn.toNat % 32)).getD .f32
  let rs := (activeL w .lxcvt f).map fun l =>
    let x := rdReg w src f.a.toNat l
    (l, if f.ty = .sli then sliOfVal x (fdec (tyFmt src) x)
        else (let r := valOfSli (tyFmt f.ty) f.mod.toNat x; (r.1, 0, r.2)))
  let ws := rs.flatMap fun r => regWrites f.ty f.d.toNat r.1 r.2.1
  .retire (setWarp s k (addPend w
    (pendOf .lxcvt f ws (orAll (rs.map fun r => r.2.2.2)) (orAll (rs.map fun r => r.2.2.1)) none))) .next none id

/-! ## The instructions -/

/-- SLI32 add with one index rounding and level-crossing report. (R274) -/
def execLxadd (f : Long) (s : State) : Out := issue .lxadd f f.len (lxArithBody .lxadd f) s

/-- SLI32 subtract. (R274) -/
def execLxsub (f : Long) (s : State) : Out := issue .lxsub f f.len (lxArithBody .lxsub f) s

/-- SLI32 multiply. (R274) -/
def execLxmul (f : Long) (s : State) : Out := issue .lxmul f f.len (lxArithBody .lxmul f) s

/-- SLI32 divide, clamping division by zero. (R274) -/
def execLxdiv (f : Long) (s : State) : Out := issue .lxdiv f f.len (lxArithBody .lxdiv f) s

/-- SLI32 compare writing a predicate. (R276) -/
def execLxcmp (f : Long) (s : State) : Out := issue .lxcmp f f.len (lxCmpBody f) s

/-- SLI32 natural exponential. (R275) -/
def execLxexp (f : Long) (s : State) : Out := issue .lxexp f f.len (lxArithBody .lxexp f) s

/-- SLI32 natural logarithm. (R275) -/
def execLxlog (f : Long) (s : State) : Out := issue .lxlog f f.len (lxArithBody .lxlog f) s

/-- Writes the level, sign and class of an SLI32 word. (R276) -/
def execLxlvl (f : Long) (s : State) : Out := issue .lxlvl f f.len (lxLvlBody f) s

/-- Converts between SLI32 and f32 or f64. (R277) -/
def execLxcvt (f : Long) (s : State) : Out := issue .lxcvt f f.len (lxCvtBody f) s

end Sys2Proof.Machine
end

