-- ==== Sys2Proof/Machine/Matrix.lean ====
section
/-! DEFINITION. The matrix engine and the accumulator store, MAJ 0x68 to 0x6B (R243 to R265). -/

namespace Sys2Proof.Machine

open Sys2Proof.Forms

/-! ## The store (R243 to R245) -/

def accKeyOf (r c : Nat) : Nat := r * 256 + c
def rdAcc (g : Group) (r c : Nat) : Nat := (sget 0 g.acc (accKeyOf r c)).toNat
def wrAcc (g : Group) (r c x : Nat) : Group := { g with acc := sput 0 g.acc (accKeyOf r c) (BitVec.ofNat 48 x) }
/-- An FP64 value in the column pair that begins at column c (R244). -/
def rdAcc64 (g : Group) (r c : Nat) : Nat := rdAcc g r c % 2 ^ 32 + rdAcc g r (c + 1) % 2 ^ 32 * 2 ^ 32
def wrAcc64 (g : Group) (r c x : Nat) : Group := wrAcc (wrAcc g r c (x % 2 ^ 32)) r (c + 1) (x / 2 ^ 32 % 2 ^ 32)

/-- The group becomes the holder of its core's physical store (R245). -/
def holdAcc (s : State) (k : Nat) : State := updCore s k fun co => { co with accHolder := some (groupKey k) }

/-- A started copy has still to write one of the entries (R263). -/
def accBusy (g : Group) (rows cols : List Nat) : Bool :=
  g.bufs.any fun b => match b.2.copy with
    | some c => c.aw.any fun e => rows.contains (e.1 / 256) && cols.contains (e.1 % 256)
    | none => false

/-! ## Accumulator steps (R251) -/

/-- A step of a floating-point chain: the rounded sum, and whether it gave an infinity from finite values. -/
def accStepF (fm : Fmt) (acc : Nat) (prods : List FVal) (finite : Bool) : Nat × Bool :=
  let a := fdec fm acc
  let r := (roundF fm 0 (fsumE 0 (a :: prods)).1).1
  let fin := match a with | .fin .. => finite | _ => false
  (r, fin && r % fmtSign fm == fmtInf fm)

/-- A step of an I48 chain. -/
def accStepI (acc : Nat) (sum : Int) : Nat × Bool :=
  let x := intOf true 48 acc + sum
  (wrapN 48 (satN 48 x), satN 48 x != x)

def isFin : FVal → Bool
  | .fin .. => true
  | _ => false

/-! ## Operands (R248 to R250) -/

def mmaTb (f : Long) : Ty := (mmaTyB f).getD .bf16
/-- Step length g of the type pair. -/
def mmaG (f : Long) : Nat :=
  match f.ty with
  | .bf16 | .f16 => 8
  | .f32 => 2
  | .f64 => 1
  | _ => 16
/-- Bytes that one step reads of a row or column of an operand type. -/
def stepBytes (f : Long) (t : Ty) : Nat := if isBfp t then 2 * bfpM t else mmaG f * (tyBits t / 8)
/-- Alignment of an operand's rows. -/
def operandAlign (t : Ty) : Nat := if isBfp t then 2 else tyBits t / 8
def mmaSteps (f : Long) : Nat := mmaK f / mmaG f

/-! ## Checks (R255) -/

/-- The space of `n` bytes at `a` against an operand's space, then the alignment of `a`. -/
def spanCheck (gsize : Nat) (sp : Space) (a : Int) (n al : Nat) : Option (Nat × Int) :=
  let top : Int := if sp = .window then windowBase + gsize else 2 ^ 56
  if spaceOf a = .none ∨ spaceOf a ≠ sp ∨ top ≤ a then some (5, a)
  else if top < a + n then some (5, top)
  else if a.toNat % al ≠ 0 then some (7, a)
  else none

/-- The first stage over the rows and columns of an operand. -/
def spansCheck (gsize n al : Nat) (starts : List Int) : Option (Nat × Int) :=
  let sp := match starts with | a :: _ => spaceOf a | [] => .none
  starts.findSome? fun a => spanCheck gsize sp a n al

/-- The elements that a step reads of a row or column, as checked accesses; the first failure. -/
def stepElems (s : State) (k : Nat) (w : Warp) (a : Int) (n al : Nat) : List Acc × Option MErr :=
  checkElems s (siteOf s k) w.sec { size := al, use := some .load, window := true, gsize := groupSize s k } (spaceOf a)
    ((List.range (n / al)).map fun i => (i, a + i * al))

/-- The elements of all rows, then all columns, up to the first failure (second stage). -/
def stepAccs (s : State) (k : Nat) (w : Warp) : List (Int × Nat × Nat) → List (List Acc) × Option MErr
  | [] => ([], none)
  | (a, n, al) :: r =>
    match stepElems s k w a n al with
    | (xs, some e) => ([xs], some e)
    | (xs, none) => let (ys, e) := stepAccs s k w r; (xs :: ys, e)

/-! ## Values -/

/-- The number that the bytes of a step's row or column form. -/
def stepNat (s : State) (k : Nat) (w : Warp) (base : Memory) (g : Group) (al : Nat) (xs : List Acc) : Nat :=
  leNat (xs.flatMap fun x =>
    match x.x with
    | some y => (List.range al).map fun i => plainByte s k w base false y (y.key + i) (x.va + i)
    | none => (List.range al).map fun i => sget 0 g.gmem (x.va + i))

/-- The elements of a step: integers, or exact values; a BFP block gives its exponent and mantissas. -/
inductive StepVal where
  | ints (l : List Int)
  | vals (l : List FVal)
  | block (m e : Nat) (l : List Int)
  deriving DecidableEq, Repr

def stepVal (g : Nat) (t : Ty) (scale x : Nat) : StepVal :=
  let el (i : Nat) : Nat := x / 2 ^ (tyBits t * i) % 2 ^ tyBits t
  if isBfp t then .block (bfpM t) scale ((List.range 16).map fun i => intOf true (bfpM t) (x / 2 ^ (bfpM t * i)))
  else if tyInt t then .ints ((List.range g).map fun i => tyVal t (el i))
  else .vals ((List.range g).map fun i => fdec (tyFmt t) (el i))

/-- Byte `b` of a scale register pair for row or column i (R252). -/
def scaleByte (w : Warp) (reg b i : Nat) : Nat :=
  let (r, l) := if w.width = 16 then (reg + i / 16, i % 16) else (reg, i)
  (rdV w r l).toNat / 2 ^ (8 * b) % 256

def dotInt (a b : List Int) : Int := ((a.zip b).map fun e => e.1 * e.2).sum

/-- One step on one entry: the new entry and whether its sticky flag rises; `ACC_SAT` for integers. -/
def entryStep (f64 : Bool) (acc : Nat) (a b : StepVal) : Nat × Bool :=
  let fm := if f64 then fmt64 else fmtA48
  match a, b with
  | .ints x, .ints y => accStepI acc (dotInt x y)
  | .vals x, .vals y =>
    let ps := (x.zip y).map fun e => (fmulE e.1 e.2).1
    accStepF fm acc ps (x.all isFin && y.all isFin)
  | .block m e x, .block n d y =>
    if e = 0xFF ∨ d = 0xFF then (fmtNaN fm, false)
    else
      let p := dotInt x y
      accStepF fm acc [.fin (decide (p < 0)) p.natAbs ((e : Int) + d - 254 - ((m : Int) - 2) - ((n : Int) - 2))] true
  | _, _ => (acc, false)

/-! ## Triangular mode (R254) -/

def maskedAt (w : Warp) (f : Long) (i j : Nat) : Bool :=
  mmaTri f &&
    (let di : Int := (rdS w (mmaT f)).toInt + i
     let dj : Int := (rdS w (mmaT f + 1)).toInt + j
     if mmaLower f then decide ((mmaD f).toInt < di - dj) else decide ((mmaD f).toInt < dj - di))

/-- Every element of the sub-tile of (i, j) is masked. -/
def tileMasked (w : Warp) (f : Long) (i j : Nat) : Bool :=
  (List.range 8).all fun a => (List.range 8).all fun b => maskedAt w f (i / 8 * 8 + a) (j / 8 * 8 + b)

/-- The constant in the accumulator format. -/
def triConst (w : Warp) (f : Long) : Nat :=
  let c := (rdS w (mmaT f + 2)).toNat
  match f.ty with
  | .f64 => c
  | .i8 | .n8 => c % 2 ^ 48
  | _ => widenA48 c

/-- Reads and writes element (i, j) of the output tile. -/
def rdTile (g : Group) (f : Long) (i j : Nat) : Nat :=
  if f.ty = .f64 then rdAcc64 g (mmaRow f + i) (mmaCol f + 2 * j) else rdAcc g (mmaRow f + i) (mmaCol f + j)
def wrTile (g : Group) (f : Long) (i j x : Nat) : Group :=
  if f.ty = .f64 then wrAcc64 g (mmaRow f + i) (mmaCol f + 2 * j) x else wrAcc g (mmaRow f + i) (mmaCol f + j) x

/-! ## `MMA` -/

/-- The elements that take part in the steps. -/
def mmaCells (w : Warp) (f : Long) (rows : List Nat) : List (Nat × Nat) :=
  rows.flatMap fun i => ((List.range 32).filter fun j => !maskedAt w f i j).map fun j => (i, j)

/-- The writes of the constant at completion. -/
def mmaFillIn (w : Warp) (f : Long) (rows : List Nat) (g : Group) : Group :=
  if !mmaTri f then g
  else rows.foldl (fun g i => (List.range 32).foldl (fun g j =>
    if maskedAt w f i j && (mmaFill f || !tileMasked w f i j) then wrTile g f i j (triConst w f) else g) g) g

/-- What the steps come to: all performed, a fault at a step after the accesses `done` of the steps before it and those of its own that
passed, or a home's refusal. -/
inductive MmaEnd where
  | ok (g : Group) (flags : Nat) (xs : List Acc)
  | fault (g : Group) (flags step : Nat) (done xs : List Acc) (e : MErr)
  | refused (bad : List Denied)

/-- The rows of A and the columns of B that step `s` reads: start, bytes, alignment. -/
def stepSpans (w : Warp) (f : Long) (rows : List Nat) (s : Nat) : List (Int × Nat × Nat) :=
  let na := stepBytes f f.ty
  let nb := stepBytes f (mmaTb f)
  rows.map (fun i => (rowStart w f i + s * na, na, operandAlign f.ty)) ++
    (List.range 32).map fun j => (colStart w f j + s * nb, nb, operandAlign (mmaTb f))

/-- The keys that an `MMA` of free mode reads beside outstanding loads of its core: accesses to one line reach its home in the order
of their issue (R173, R336). -/
def mmaKeys (s : State) (k : Nat) (w : Warp) (f : Long) (rows : List Nat) : List Nat :=
  if w.turn || !coreFlying s k then []
  else (List.range (mmaSteps f)).flatMap fun n => (stepAccs s k w (stepSpans w f rows n)).1.flatten.filterMap fun x => x.x.map (·.key)

/-- Steps `s` onwards; `n` of them remain. `ACC_SAT` is bit 1 and `ACC_INF` bit 0 of the flags. -/
def mmaRun (st : State) (k : Nat) (w : Warp) (f : Long) (base : Memory) (rows : List Nat) (cells : List (Nat × Nat)) :
    Nat → Nat → Group → Nat → List Acc → MmaEnd
  | 0, _, g, fl, seen => .ok g fl seen
  | n + 1, s, g, fl, seen =>
    let ta := f.ty
    let tb := mmaTb f
    match stepAccs st k w (stepSpans w f rows s) with
    | (xs, some e) => .fault g fl s seen xs.flatten e
    | (xs, none) =>
      match refusedAccs st k w (homeAccs st k xs.flatten) with
      | b :: bad => .refused (b :: bad)
      | [] =>
        let as := (rows.zip (xs.take rows.length)).map fun e =>
          (e.1, stepVal (mmaG f) ta (scaleByte w (mmaVsa f) (mmaSba f + s) e.1) (stepNat st k w base g (operandAlign ta) e.2))
        let bs := ((List.range 32).zip (xs.drop rows.length)).map fun e =>
          (e.1, stepVal (mmaG f) tb (scaleByte w (mmaVsb f) (mmaSbb f + s) e.1) (stepNat st k w base g (operandAlign tb) e.2))
        let bit := match ta with | .i8 | .n8 => 2 | _ => 1
        let (g', fl') := cells.foldl (fun r c =>
          match kfind as c.1, kfind bs c.2 with
          | some a, some b =>
            let (x, h) := entryStep (ta == .f64) (rdTile r.1 f c.1 c.2) a b
            (wrTile r.1 f c.1 c.2 x, if h then r.2 ||| bit else r.2)
          | _, _ => r) (g, fl)
        mmaRun st k w f base rows cells n (s + 1) g' fl' (seen ++ xs.flatten)

/-- Operand reads of steps that have performed: their flits, and the lines and slices that they reach (R14, R336). -/
def operandReads (s : State) (k : Nat) (w : Warp) (f : Long) (xs : List Acc) : State :=
  bringLines (sendAccess s k w (operandAlign f.ty) xs) k w 0 (fun _ => false) (xs.map fun x => (x, [accKey x]))

/-- The region that an `MMA` opens (R255), with its own sources in the read set (R96). -/
def mmaRegion (w : Warp) (f : Long) : Region :=
  { entry := curPc w, clock := w.clock, secs := w.hand.secs.length, pots := w.hand.pots.length
    reads := (readIds .mma f).eraseDups, writes := [], resumes := 0, mma := true }

def raiseM (w : Warp) (fl : Nat) : Warp := { w with mstat := w.mstat ||| BitVec.ofNat 64 fl }

/-- A resumed `MMA` keeps the count of its resumptions. -/
def keepResumes (r : Region) (w0 : Warp) : Region :=
  if w0.mpc = some (curPc w0) then { r with resumes := (w0.tregion.toNat / 2 ^ 57) } else r

/-- `MMA`: its checks, its steps from `%mrow.STEP`, the writes of the constant; it retires later (R258). -/
def mmaBody (f : Long) (len : Nat) (s : State) (k : Nat) (w : Warp) : Act :=
  let rows := mmaRows w f
  let s := holdAcc (updWarp s k fun w => { w with region := some (keepResumes (mmaRegion w f) w) }) k
  if rows.isEmpty then .retire (updWarp s k fun w => { w with mstep := 0, mpc := none }) .next none id
  else
    let gs := groupSize s k
    let bad := (spansCheck gs (stepBytes f f.ty * mmaSteps f) (operandAlign f.ty) (rows.map (rowStart w f))).or
      (spansCheck gs (stepBytes f (mmaTb f) * mmaSteps f) (operandAlign (mmaTb f)) ((List.range 32).map (colStart w f)))
    match bad with
    | some (c, a) => .trap s c 0 (BitVec.ofInt 64 a)
    | none =>
      match getGroup s k with
      | none => .wait
      | some g =>
        let n := if f.ty = .f64 then 64 else 32
        let stall (starts : List Int) (n : Nat) : Bool :=
          starts.any fun a => spaceOf a == .window && rangeStall w g false (a - windowBase).toNat n
        if accBusy g ((List.range 32).map (mmaRow f + ·)) ((List.range n).map (mmaCol f + ·)) ||
            stall (rows.map (rowStart w f)) (stepBytes f f.ty * mmaSteps f) ||
            stall ((List.range 32).map (colStart w f)) (stepBytes f (mmaTb f) * mmaSteps f) then .wait
        else
          let keys := mmaKeys s k w f rows
          let s := serveCore s k keys
          if !keys.isEmpty && (linesWait s k keys || keys.any (keyHeld s (chipOf (partOf k)))) then .wait else
          match mmaRun s k w f (plainBase s k w) rows (mmaCells w f rows) (mmaSteps f - w.mstep) w.mstep g 0 [] with
          | .refused bad =>
            let s' := refuseAll s k bad true w.clock
            if w.turn then .done s' else .retire s' .next none id
          | .fault g fl st done xs e =>
            let s := operandReads (setGroup s k g) k w f done
            memFault (updWarp s k fun w => { raiseM w fl with mstep := st, mpc := some (curPc w) }) k (done ++ xs) e
          | .ok g fl xs =>
            let z := siteOf s k
            let s := countPages (installAll (setGroup s k (mmaFillIn w f rows g)) z xs) z (accPages xs)
            let s := operandReads s k w f xs
            let s := updWarp s k fun w => { raiseM w fl with mstep := 0, mpc := none }
            .done (waitIn s k (.mma (weightOf w .mma f) len f.fl.en))

/-- An `MMA` whose steps have reached the store retires (R258). -/
def mmaRetire (s : State) (k : Nat) : State :=
  match getWarp s k with
  | none => s
  | some w => match w.stat with
    | .mma wt len en => retire (updWarp s k fun w => { w with stat := .stalled }) k wt len en .next none id
    | _ => s

/-! ## `ACCRD`, `ACCWR`, `ACCZ` (R259 to R261) -/

/-- The value that `ACCRD` reads at (r, column q of the range), and its flags: one register or a pair. -/
def accRead (g : Group) (f : Long) (r q : Nat) : Nat × Nat :=
  if f.fn = 2 then
    let x := rdAcc64 g r (accCol f + 2 * q)
    if f.ty = .f64 then (x, 0)
    else
      let (y, h) := roundF fmt32 f.mod.toNat (fdec fmt64 x)
      (y, h ||| sigNV (fdec fmt64 x))
  else
    let x := rdAcc g r (accCol f + q)
    match f.ty with
    | .fa48 => (container false x, 0)
    | .i48 => (container true x, 0)
    | .i32 =>
      let v := intOf true 48 x
      (wrapN 32 (satN 32 v), if satN 32 v = v then 0 else flNV)
    | _ =>
      let (y, h) := roundF fmt32 f.mod.toNat (fdec fmtA48 x)
      (y, h ||| sigNV (fdec fmtA48 x))

def accCols (f : Long) : List Nat :=
  (List.range (if f.fn = 2 then 2 * accN f else accN f)).map (accCol f + ·)
def accLaneRow (f : Long) (l : Nat) : Nat := (accRow f + l) % 256

def accrdBody (f : Long) (s : State) (k : Nat) (w : Warp) : Act :=
  let ls := activeL w .accrd f
  match getGroup s k with
  | none => .wait
  | some g =>
    if accBusy g (ls.map (accLaneRow f)) (accCols f) then .wait
    else
      let xs := ls.flatMap fun l => (List.range (accN f)).map fun q => (l, q, accRead g f (accLaneRow f l) q)
      let ws := xs.flatMap fun e =>
        if pairAcc f.ty then
          [RegW.v (f.d.toNat + 2 * e.2.1) e.1 (BitVec.ofNat 32 e.2.2.1), .v (f.d.toNat + 2 * e.2.1 + 1) e.1 (BitVec.ofNat 32 (e.2.2.1 / 2 ^ 32))]
        else [RegW.v (f.d.toNat + e.2.1) e.1 (BitVec.ofNat 32 e.2.2.1)]
      let fl := orAll (xs.map fun e => e.2.2.2)
      .retire (updWarp (holdAcc s k) k fun w => addPend w (pendOf .accrd f ws fl 0 none)) .next none id

/-- The entry, or pair of entries, that `ACCWR` writes from a lane. An FP32 word widens into FA48, a NaN as the
canonical one (log 82). -/
def accWrite (g : Group) (f : Long) (w : Warp) (l q : Nat) : Group :=
  let r := accLaneRow f l
  let a := f.a.toNat
  if f.fn = 2 then wrAcc64 g r (accCol f + 2 * q) (rdVV w (a + 2 * q) l).toNat
  else
    let x := match f.ty with
      | .fa48 | .i48 => (rdVV w (a + 2 * q) l).toNat % 2 ^ 48
      | .i32 => wrapN 48 (rdV w (a + q) l).toInt
      | _ => widenA48 (rdV w (a + q) l).toNat
    wrAcc g r (accCol f + q) x

def accwrBody (f : Long) (s : State) (k : Nat) (w : Warp) : Act :=
  let ls := activeL w .accwr f
  match getGroup s k with
  | none => .wait
  | some g =>
    if accBusy g (ls.map (accLaneRow f)) (accCols f) then .wait
    else
      let g := ls.foldl (fun g l => (List.range (accN f)).foldl (fun g q => accWrite g f w l q) g) g
      .retire (holdAcc (setGroup s k g) k) .next none id

def acczBody (f : Long) (s : State) (k : Nat) (_ : Warp) : Act :=
  let rows := (List.range (f.imm.toNat / 2 ^ 16 % 256 + 1)).map (accRow f + ·)
  let cols := (List.range (f.imm.toNat / 2 ^ 24 + 1)).map (accCol f + ·)
  match getGroup s k with
  | none => .wait
  | some g =>
    if accBusy g rows cols then .wait
    else
      let g := rows.foldl (fun g r => cols.foldl (fun g c => wrAcc g r c 0) g) g
      .retire (holdAcc (setGroup s k g) k) .next none id

/-! ## The instructions -/

/-- Accumulates a 32x32 tile product into the accumulator store, stepwise and resumable. (R251) -/
def execMma (f : Long) (s : State) : Out := issue .mma f f.len (mmaBody f f.len) s

/-- Reads accumulator entries into vector registers with conversion. (R259) -/
def execAccrd (f : Long) (s : State) : Out := issue .accrd f f.len (accrdBody f) s

/-- Writes vector registers into accumulator entries exactly. (R260) -/
def execAccwr (f : Long) (s : State) : Out := issue .accwr f f.len (accwrBody f) s

/-- Zeroes a rectangle of accumulator entries. (R261) -/
def execAccz (f : Long) (s : State) : Out := issue .accz f f.len (acczBody f) s

end Sys2Proof.Machine
end

