-- ==== Sys2Proof/Machine/Copy.lean ====
section
/-! DEFINITION. The block-transfer engine, MAJ 0x6D to 0x72 (R225 to R242): copy commands and descriptors, regions, the
checks of R231, copies, chains, accumulator transfers, loops, and the completion of a copy. A copy reads when it starts
and its completion, an event, writes (log 17). -/

namespace Sys2Proof.Machine

open Sys2Proof.Forms

/-! ## Commands and descriptors (R225, R226) -/

def gNat (g : Group) (off n : Nat) : Nat := groupNat g off n
def gZero (g : Group) (off n : Nat) : Bool := (List.range n).all fun i => sget 0 g.gmem (off + i) == 0

def isBfpCode (t : Nat) : Bool := decide (16 ≤ t) && decide (t ≤ 22)

/-- Element sizes by type code; 0 for no type. -/
def tySize (t : Nat) : Nat :=
  match t with
  | 6 | 7 => 1
  | 4 | 5 | 10 | 11 => 2
  | 0 | 1 | 8 | 12 | 15 => 4
  | 2 | 3 | 9 | 13 | 14 => 8
  | t => if isBfpCode t then 2 * (t - 14) else 0

/-- The stride of [47:0], and whether [63:48] copy bit 47. -/
def strideVal (x : Nat) : Int := intOf true 48 x
def strideOk (x : Nat) : Bool := x / 2 ^ 48 == (if x.testBit 47 then 0xFFFF else 0)

def readDesc (g : Group) (off : Nat) : Desc :=
  let w := gNat g off 8
  let n := w / 2 ^ 8 % 16
  let t := w % 32
  let ext := (List.range 14).map fun d => gNat g (off + 0x10 + 4 * d) 4
  let str := (List.range 14).map fun d => gNat g (off + 0x50 + 8 * d) 8
  let grp := w.testBit 16
  let region := w / 2 ^ 32 % 2 ^ 12
  let expoff := gNat g (off + 0x48) 8
  { ok := w / 2 ^ 44 == 0 && w / 2 ^ 17 % 2 ^ 15 == 0 && w / 2 ^ 12 % 2 ^ 4 == 0 && w / 2 ^ 5 % 2 ^ 3 == 0 &&
      decide (1 ≤ n) && decide (n ≤ 14) && tySize t != 0 && (ext.drop n).all (· == 0) && (str.drop n).all (· == 0) &&
      str.all strideOk && !(grp && region != 0) && (isBfpCode t || expoff == 0)
    region := region, group := grp, ndim := n, ty := t, base := intOf true 64 (gNat g (off + 8) 8)
    ext := ext.take n, expoff := intOf true 64 expoff, str := (str.take n).map strideVal }

/-- The descriptor of a part that is not read. -/
def noDesc : Desc :=
  { ok := true, region := 0, group := true, ndim := 0, ty := 0, base := 0, ext := [], expoff := 0, str := [] }

/-- The chain's slots as (operation, select). -/
def slotsOf (lit : Dword) : List (Nat × Nat) :=
  (List.range 8).map fun i => (lit.toNat / 2 ^ (8 * i) % 2 ^ 5, lit.toNat / 2 ^ (8 * i + 5) % 2 ^ 3)

/-- Some slot selects the stream (R231): select 6 of an operation that takes an operand. -/
def usesStream (lit : Dword) : Bool := (slotsOf lit).any fun x => x.2 == 6

/-- What a copy instruction reads of its command (R225). -/
def readCmd (g : Group) (kind : CopyKind) (off : Nat) : CopyCmd :=
  let strm := match kind with | .chain lit _ => usesStream lit | _ => false
  let loop := kind == .loop
  let acc := match kind with | .acc _ => true | _ => false
  { ok := gNat g off 4 / 2 ^ 9 == 0 && gZero g (off + 4) 4 && gZero g (off + 0x10) 0x30 &&
      gNat g (off + 8) 4 % 64 == 0 && gNat g (off + 12) 4 % 64 == 0
    role := gNat g off 4 / 2 ^ 8 % 2, nslice := gNat g off 1, bufoff := gNat g (off + 8) 4, buflen := gNat g (off + 12) 4
    src := readDesc g (off + 0x40), dst := if acc then noDesc else readDesc g (off + 0x100)
    strm := if strm then readDesc g (off + 0x1C0) else noDesc
    loopOk := !loop || (gNat g (off + 0x284) 4 / 16 == 0 && gZero g (off + 0x288) 8)
    count := if loop then gNat g (off + 0x280) 4 else 0, stages := if loop then gNat g (off + 0x284) 4 % 16 else 0
    step := if loop then (List.range 14).map fun d => intOf true 32 (gNat g (off + 0x290 + 4 * d) 4) else [] }

/-! ## Spans of a descriptor -/

/-- A part of an iteration space: for each dimension a first index and a count. -/
abbrev Box := List (Nat × Nat)

def fullBox (ext : List Nat) : Box := ext.map fun n => (0, n)
def emptyBox (b : Box) : Bool := b.any fun e => e.2 == 0

/-- Σ x_d × str_d. -/
def dot (x : List Nat) (str : List Int) : Int := ((x.zip str).map fun e => (e.1 : Int) * e.2).sum

/-- The lowest byte, and the end of the highest element, of `n` bytes an element, over a box. -/
def boxSpan (base : Int) (str : List Int) (n : Nat) (b : Box) : Option (Int × Int) :=
  if emptyBox b then none
  else
    let ends := (b.zip str).map fun e => ((e.1.1 : Int) * e.2, ((e.1.1 + e.1.2 - 1 : Nat) : Int) * e.2)
    some (base + (ends.map fun e => min e.1 e.2).sum, base + (ends.map fun e => max e.1 e.2).sum + n)

/-- The strides of a dense array over a shape. -/
def denseStr : List Nat → Int → List Int
  | [], _ => []
  | n :: r, p => p :: denseStr r (p * n)

/-- The byte spans of elements and exponents over a box, the base moved by `shift`. -/
def descSpans (d : Desc) (shift : Int) (b : Box) : List (Int × Int) :=
  (boxSpan (d.base + shift) d.str (tySize d.ty) b).toList ++
    (if isBfpCode d.ty then (boxSpan d.expoff (denseStr d.ext 1) 1 b).toList else [])

/-- Every element address over the box is a multiple of its alignment (R231). -/
def boxAligned (d : Desc) (shift : Int) (b : Box) : Bool :=
  let al : Int := if isBfpCode d.ty then 2 else tySize d.ty
  emptyBox b || ((d.base + shift + dot (b.map (·.1)) d.str) % al == 0 &&
    (b.zip d.str).all fun e => decide (e.1.2 ≤ 1) || e.2 % al == 0)

/-! ## Regions (R228) -/

/-- What the tables of a copy are read with: the partition, the world of the issuing card (R377), and memory as the copy's round
shows it (R1, R8). -/
structure Tabs where
  part : Nat
  sec : Bool
  mem : Memory

/-- The tables of a copy that a warp starts. -/
def tabsOf (s : State) (k : Nat) (w : Warp) : Tabs := { part := partOf k, sec := w.sec, mem := plainBase s k w }

/-- The engine may read `n` bytes of a table: the partition reaches them (R369), and none is secure for another world (R377). -/
def tabSeen (s : State) (q : Tabs) (pa n : Nat) : Except (Option Nat) Unit :=
  if !mayReach s q.part pa || !mayReach s q.part (pa + n - 1) then .error none
  else match (if q.sec then none else ((List.range n).map (pa + ·)).find? (isSecure s (chipOf q.part))) with
    | some a => .error (some a)
    | none => .ok ()

/-- A word of a table. -/
def tabNat (q : Tabs) (pa n : Nat) : Nat := rdNat q.mem (physKey (chipOf q.part) pa) n

/-- A region entry: size, writable, run list; an error when it fails a copy under REGION, with the secure address that did so. -/
def regionEntry (s : State) (q : Tabs) (h : Nat) : Except (Option Nat) (Nat × Bool × Nat) :=
  match (getPart s q.part).ctx with
  | none => .error none
  | some x =>
    let e := x.rtab + 16 * h
    if x.rcount ≤ h then .error none
    else match tabSeen s q e 16 with
      | .error a => .error a
      | .ok _ =>
        let w := tabNat q (e + 8) 8
        if w / 2 ^ 52 != 0 || w / 2 ^ 3 % 2 ^ 9 != 0 || !w.testBit 0 || (w.testBit 2 && !q.sec) then .error none
        else .ok (tabNat q e 8, w.testBit 1, w / 2 ^ 12 % 2 ^ 40 * 2 ^ 12)

/-- A run within device memory and the partition's stacks. -/
def runPlace (s : State) (p pa n : Nat) : Bool :=
  decide (pa + n ≤ deviceSize) &&
    (List.range ((pa + n - 1) / 0xC00000000 - stackOf pa + 1)).all fun i => (partDies s p).contains ((stackOf pa + i) / 2)

/-- The runs from a list at `at_` that map offsets `off` to `top` − 1: (offset, address, length); an error when one fails. -/
def readRuns (s : State) (q : Tabs) (top : Nat) : Nat → Nat → Nat → Except (Option Nat) (List (Nat × Nat × Nat))
  | 0, _, _ => .ok []
  | fuel + 1, at_, off =>
    if top ≤ off then .ok []
    else match tabSeen s q at_ 16 with
      | .error a => .error a
      | .ok _ =>
        let a := tabNat q at_ 8
        let b := tabNat q (at_ + 8) 8
        let n := b * 2 ^ 12
        if a % 2 ^ 12 ≠ 0 ∨ a / 2 ^ 52 ≠ 0 ∨ b / 2 ^ 32 ≠ 0 ∨ n = 0 ∨ runPlace s q.part a n = false then .error none
        else match readRuns s q top fuel (at_ + 16) (off + n) with
          | .error e => .error e
          | .ok r => .ok ((off, a, n) :: r)

/-- Where an operand lies: group memory, or a region's size, right to be written and runs. -/
inductive Place where
  | group
  | region (size : Nat) (w : Bool) (runs : List (Nat × Nat × Nat))
  deriving DecidableEq, Repr

def topOf (sps : List (Int × Int)) : Nat := (sps.foldl (fun (a : Int) e => max a e.2) 0).toNat

/-- The region checks of an operand that touches some spans. -/
def placeOf (s : State) (q : Tabs) (d : Desc) (sps : List (Int × Int)) : Except (Option Nat) Place :=
  if d.group then .ok .group
  else match regionEntry s q d.region with
    | .error a => .error a
    | .ok (size, w, list) =>
      if sps.all fun e => decide (0 ≤ e.1) && decide (e.2 ≤ (size : Int)) then
        (readRuns s q (topOf sps) (topOf sps / 2 ^ 12 + 1) list 0).map fun r => .region size w r
      else .error none

/-- Where an operand that has passed its checks lies. -/
def placeAt (s : State) (q : Tabs) (d : Desc) (sps : List (Int × Int)) : Place := (placeOf s q d sps).toOption.getD .group

/-- The physical address of an offset. -/
def runAddr (runs : List (Nat × Nat × Nat)) (off : Nat) : Nat :=
  match runs.find? fun r => decide (r.1 ≤ off) && decide (off < r.1 + r.2.2) with
  | some r => r.2.1 + (off - r.1)
  | none => 0

/-! ## The checks of R231 -/

/-- The coordinates of a box, dimension 0 fastest (R227). -/
def coords : Box → List (List Nat)
  | [] => [[]]
  | (f, n) :: r => (coords r).flatMap fun t => (List.range n).map fun i => (f + i) :: t

def elemAt (d : Desc) (shift : Int) (x : List Nat) : Int := d.base + shift + dot x d.str
def expAt (d : Desc) (x : List Nat) : Int := d.expoff + dot x (denseStr d.ext 1)

/-- An operand of a copy: descriptor, boxes in its own shape, shifts of its base, whether it is written, and its
tracking range where it has one. -/
structure View where
  d : Desc
  boxes : List Box
  shift : Int
  write : Bool
  range : Option (Nat × Nat)
  deriving DecidableEq, Repr

def viewSpans (v : View) : List (Int × Int) := v.boxes.flatMap (descSpans v.d v.shift)

def viewPlace (s : State) (q : Tabs) (v : View) : Except (Option Nat) Place := placeOf s q v.d (viewSpans v)

/-- No byte of a chip is closed to a card: it is secure, or no region is. -/
def allOpen (s : State) (q : Tabs) : Bool :=
  q.sec || (getChip s (chipOf q.part)).regions.all fun e => !(e.2.getLsbD 63 && e.2.getLsbD 62)

/-- The physical addresses of the bytes that an operand touches of a region, element by element, its exponents after each. -/
def viewAddrs (runs : List (Nat × Nat × Nat)) (v : View) : List Nat :=
  ((v.boxes.flatMap coords).flatMap fun x =>
    ((List.range (tySize v.d.ty)).map fun i => elemAt v.d v.shift x + i) ++
      (if isBfpCode v.d.ty then [expAt v.d x] else [])).map fun o => runAddr runs o.toNat

/-- The first secure byte that a non-secure card's operand touches, in its region's tables or in the region (R377); looked for only
where some byte is secure. -/
def secureByte (s : State) (q : Tabs) (v : View) : Option Nat :=
  if allOpen s q then none
  else match viewPlace s q v with
    | .error a => a
    | .ok (.region _ _ runs) => (viewAddrs runs v).find? (isSecure s (chipOf q.part))
    | .ok .group => none

/-- The slices that a copy's operands of global memory reach: the entry and the runs of each region, and the bytes that it reads
(R14, R175). -/
def copyTouch (s : State) (q : Tabs) (vs : List View) : State :=
  let c := chipOf q.part
  vs.foldl (fun s v => match regionEntry s q v.d.region, viewPlace s q v with
    | .ok (_, _, list), .ok (.region _ _ runs) =>
      let tab := ((getPart s q.part).ctx.map fun x => x.rtab + 16 * v.d.region).toList ++ (List.range runs.length).map fun i => list + 16 * i
      let data := if v.write then [] else viewAddrs runs v
      sliceTouches s false 0 ((tab ++ data).map (physKey c))
    | _, _ => s) s

/-- Two boxes share an element. -/
def boxesMeet (a b : Box) : Bool :=
  !emptyBox a && !emptyBox b && (a.zip b).all fun e => decide (e.1.1 < e.2.1 + e.2.2) && decide (e.2.1 < e.1.1 + e.1.2)

def anyMeet : List Box → Bool
  | [] => false
  | b :: r => r.any (boxesMeet b) || anyMeet r

/-- Check WRITE of one operand. -/
def writeOk : Place → Bool
  | .group => true
  | .region _ w _ => w

/-- Check RANGE of one operand in group memory. -/
def rangeOk (gsize : Nat) (v : View) : Bool :=
  !v.d.group || (viewSpans v).all fun e =>
    decide (0 ≤ e.1) && decide (e.2 ≤ (gsize : Int)) &&
    (match v.range with
     | some (o, n) => decide ((o : Int) ≤ e.1) && decide (e.2 ≤ ((o + n : Nat) : Int))
     | none => true)

/-- A tracking range that is not empty lies in group memory, touched or not (log 99), and overlaps no other entry that is not free. -/
def trackOk (g : Group) (own : List Nat) (r : Nat × Nat) : Bool :=
  r.2 == 0 || decide (r.1 + r.2 ≤ g.gsize) && g.bufs.all fun e =>
    own.contains e.1 || e.2.state == 0 || e.2.len == 0 ||
      decide (e.2.off + e.2.len ≤ r.1) || decide (r.1 + r.2 ≤ e.2.off)

/-- The error code of the first failing check after COMMAND; 0 when none fails. `bad` is a secure byte that the copy touches. -/
def laterChecks (s : State) (q : Tabs) (g : Group) (own : List Nat) (ranges : List (Nat × Nat))
    (boxes : List Box) (vs : List View) (bad : Option Nat) : Nat :=
  if anyMeet boxes then 4
  else if bad.isSome || vs.any fun v => (viewPlace s q v).toOption.isNone then 1
  else if vs.any fun v => v.write && !((viewPlace s q v).toOption.map writeOk).getD false then 5
  else if !(vs.all (rangeOk g.gsize)) || !(ranges.all (trackOk g own)) then 2
  else 0

/-- A secure byte that fails a copy is reported to the secure monitor (R377). -/
def reportCopy (s : State) (p : Nat) (bad : Option Nat) (err : Nat) : State :=
  if err = 1 then reportSecure s p { kind := 0, secure := bad } else s

/-! ## Reading and writing an operand -/

/-- What a copy reads: group memory, and the image of its round, or memory. -/
def readOff (g : Group) (m : Memory) (chip : Nat) (pl : Place) (off : Int) : Byte :=
  match pl with
  | .group => sget 0 g.gmem off.toNat
  | .region _ _ runs => rdByte m (physKey chip (runAddr runs off.toNat))
def readElem (g : Group) (m : Memory) (chip : Nat) (pl : Place) (off : Int) (n : Nat) : Nat :=
  leNat ((List.range n).map fun i => readOff g m chip pl (off + i))

/-- The bytes that a copy writes, in order, as its completion makes them. -/
def gwOf (pl : Place) (l : List (Int × Byte)) : List (Nat × Byte) :=
  match pl with
  | .group => l.map fun e => (e.1.toNat, e.2)
  | .region .. => []
def mwOf (chip : Nat) (pl : Place) (l : List (Int × Byte)) : KMap Byte :=
  match pl with
  | .group => []
  | .region _ _ runs => l.foldl (fun m e => kinsert m (physKey chip (runAddr runs e.1.toNat)) e.2) []

def byteRun (off : Int) (bs : List Byte) : List (Int × Byte) := bs.zipIdx.map fun b => (off + b.2, b.1)

/-! ## `CPSLICE` and `CPLOOP` -/

/-- The share of a slice in range form, or as a box record at a group-memory offset (R229). -/
def rangeShare (d : Desc) (x : Dword) : Share :=
  { ok := true, box := fullBox (d.ext.take (d.ndim - 1)) ++ [(x.toNat % 2 ^ 32, x.toNat / 2 ^ 32)] }
def boxShare (g : Group) (d : Desc) (off : Nat) : Share :=
  let ps := (List.range 14).map fun i => (gNat g (off + 8 * i) 4, gNat g (off + 8 * i + 4) 4)
  { ok := (ps.drop d.ndim).all fun e => e.1 == 0 && e.2 == 0, box := ps.take d.ndim }

def shareIn (ext : List Nat) (x : Share) : Bool :=
  x.ok && (emptyBox x.box || (x.box.zip ext).all fun e => decide (e.1.1 + e.1.2 ≤ e.2))

/-- Source and destination agree, unconverted (R231, R237). -/
def plainAgree (a b : Desc) : Bool :=
  a.ext == b.ext && tySize a.ty == tySize b.ty && (!(isBfpCode a.ty || isBfpCode b.ty) || a.ty == b.ty)

/-- Check COMMAND of an unconverted copy over its shares. -/
def plainCommand (c : CopyCmd) (shs : List Share) : Bool :=
  c.ok && decide (1 ≤ c.nslice) && decide (c.nslice ≤ 48) && c.src.ok && c.dst.ok && plainAgree c.src c.dst &&
    shs.all fun x => shareIn c.src.ext x && boxAligned c.src 0 x.box && boxAligned c.dst 0 x.box

/-- The writes of an unconverted copy in the order of R227. -/
def plainWrites (g : Group) (m : Memory) (chip : Nat) (c : CopyCmd) (a : Place) (sa sb : Int) (boxes : List Box) :
    List (Int × Byte) :=
  (boxes.flatMap coords).flatMap fun x =>
    byteRun (elemAt c.dst sb x) (leBytes (tySize c.src.ty) (readElem g m chip a (elemAt c.src sa x) (tySize c.src.ty))) ++
    (if isBfpCode c.src.ty then [(expAt c.dst x, readOff g m chip a (expAt c.src x))] else [])

/-! ## Chains (R236, R237) -/

/-- A value on its way through a chain: bits in the working format, flags, `CEIL`, `FLOOR`. -/
structure Chained where
  x : Nat
  flags : Nat
  ceil : Bool
  floor : Bool
  deriving DecidableEq, Repr

def wideCode (t : Nat) : Bool := t == 2 || t == 3 || t == 9
/-- The working format. -/
def workTy (c : CopyCmd) (strm : Bool) : Ty :=
  if wideCode c.src.ty || wideCode c.dst.ty || (strm && wideCode c.strm.ty) then .f64 else .f32

def chainTypeOk (t : Nat) : Bool := decide (t ≤ 3) || (decide (8 ≤ t) && decide (t ≤ 12)) || isBfpCode t
/-- The shape in elements: dimension 0 of a BFP descriptor counts blocks of 16. -/
def elemShape (d : Desc) : List Nat :=
  match d.ext with
  | [] => []
  | n :: r => (if isBfpCode d.ty then 16 * n else n) :: r

/-- The rounding of the final conversion. -/
def chainMode (lit : Dword) : Nat := match (slotsOf lit).find? fun x => x.1 == 9 with | some x => x.2 % 4 | none => 0

/-- Check COMMAND of a chain. -/
def chainCommand (c : CopyCmd) (lit : Dword) : Bool :=
  let strm := usesStream lit
  c.ok && c.nslice == 1 && c.src.ok && c.dst.ok && c.strm.ok && chainTypeOk c.src.ty && chainTypeOk c.dst.ty &&
    elemShape c.src == elemShape c.dst && (!isBfpCode c.dst.ty || chainMode lit == 0) &&
    (!strm || (chainTypeOk c.strm.ty && elemShape c.strm == elemShape c.src && boxAligned c.strm 0 (fullBox c.strm.ext))) &&
    boxAligned c.src 0 (fullBox c.src.ext) && boxAligned c.dst 0 (fullBox c.dst.ext)

/-- An element at coordinates in elements, in the working format, with flags. -/
def loadWork (g : Group) (m : Memory) (chip : Nat) (wf : Ty) (d : Desc) (pl : Place) (x : List Nat) : Nat × Nat :=
  match Ty.ofCode d.ty with
  | none => (0, 0)
  | some t =>
    if isBfpCode d.ty then
      let xb := match x with | i :: r => (i / 16) :: r | [] => []
      let word := readElem g m chip pl (elemAt d 0 xb) (tySize d.ty)
      let e := (readOff g m chip pl (expAt d xb)).toNat
      roundF (tyFmt wf) 0 (bfpElem (bfpM t) e word (x.headD 0 % 16))
    else
      let b := readElem g m chip pl (elemAt d 0 x) (tySize d.ty)
      if t = .sli then valOfSli (tyFmt wf) 0 b else cvt wf t 0 b

/-- One slot on a value. `scal` holds `s`C to `s`(C + 6). -/
def chainSlot1 (wf : Ty) (scal : List Dword) (strm x0 : Nat) (op sel : Nat) (v : Nat × Nat) : Nat × Nat :=
  let sc (i : Nat) : Nat := (scal.getD i 0).toNat % 2 ^ tyBits wf
  let y := match sel with | 6 => strm | 7 => x0 | i => sc i
  let r : Nat × Nat := match op with
    | 1 => vfaddOp wf 0 v.1 y 0
    | 2 => vfsubOp wf 0 v.1 y 0
    | 3 => vfmulOp wf 0 v.1 y 0
    | 4 => vffmaOp wf 0 v.1 y (sc 6)
    | 5 => vfminOp wf v.1 y 0
    | 6 => vfmaxOp wf v.1 y 0
    | 7 =>
      let a := vfmaxOp wf v.1 (sc sel) 0
      let b := vfminOp wf a.1 (sc (sel + 1)) 0
      (b.1, a.2 ||| b.2)
    | 8 => scaleElem wf 0 v.1 (intOf true 32 ((scal.getD sel 0).toNat % 2 ^ 32))
    | _ => (v.1, 0)
  (r.1, v.2 ||| r.2)

/-- An element through every slot. -/
def chainRun (g : Group) (m : Memory) (chip : Nat) (wf : Ty) (c : CopyCmd) (lit : Dword) (scal : List Dword)
    (ps pt : Place) (x : List Nat) : Nat × Nat :=
  let x0 := loadWork g m chip wf c.src ps x
  let y := if usesStream lit then loadWork g m chip wf c.strm pt x else (0, 0)
  (slotsOf lit).foldl (fun v sl => chainSlot1 wf scal y.1 x0.1 sl.1 sl.2 v) (x0.1, x0.2 ||| y.2)

/-- The final conversion to a type that is not BFP. -/
def chainOut (wf : Ty) (t : Ty) (mode : Nat) (v : Nat × Nat) : Chained :=
  if t = .sli then
    let r := sliOfVal v.1 (fdec (tyFmt wf) v.1)
    { x := r.1, flags := v.2 ||| r.2.2, ceil := r.2.1.testBit 2, floor := r.2.1.testBit 3 }
  else
    let r := cvt t wf mode v.1
    { x := r.1, flags := v.2 ||| r.2, ceil := false, floor := false }

/-- The writes of a chain over the destination's own shape, with flags, `CEIL` and `FLOOR`. -/
def chainWrites (g : Group) (m : Memory) (chip : Nat) (c : CopyCmd) (lit : Dword) (scal : List Dword) (ps pt : Place) :
    List (Int × Byte) × Nat × Bool × Bool :=
  let wf := workTy c (usesStream lit)
  let run := chainRun g m chip wf c lit scal ps pt
  let n := tySize c.dst.ty
  let rs := (coords (fullBox c.dst.ext)).map fun x =>
    match Ty.ofCode c.dst.ty with
    | none => ([], { x := 0, flags := 0, ceil := false, floor := false : Chained })
    | some t =>
      if isBfpCode c.dst.ty then
        let vs : List (Nat × Nat) := (List.range 16).map fun i => run (match x with | j :: r => (16 * j + i) :: r | [] => [])
        let (e, word, fl) := bfpQuant (bfpM t) (vs.map fun (v : Nat × Nat) => fdec (tyFmt wf) v.1)
        (byteRun (elemAt c.dst 0 x) (leBytes n word) ++ [(expAt c.dst x, BitVec.ofNat 8 e)],
          { x := word, flags := fl ||| orAll (vs.map fun (v : Nat × Nat) => v.2), ceil := false, floor := false : Chained })
      else
        let o := chainOut wf t (chainMode lit) (run x)
        (byteRun (elemAt c.dst 0 x) (leBytes n o.x), o)
  (rs.flatMap (·.1), orAll (rs.map fun r => r.2.flags), rs.any fun r => r.2.ceil, rs.any fun r => r.2.floor)

/-! ## Accumulator transfers (R238) -/

def accRow0 (imm : Nat) : Nat := imm % 2 ^ 8
def accCol0 (imm : Nat) : Nat := imm / 2 ^ 8 % 2 ^ 8
/-- From memory to the store. -/
def accIn (imm : Nat) : Bool := imm.testBit 16

def accCommand (c : CopyCmd) (imm : Nat) : Bool :=
  c.ok && c.nslice == 1 && c.src.ok && c.src.ndim == 2 && (c.role == 1) == accIn imm &&
    [8, 9, 13, 14].contains c.src.ty &&
    (let e0 := c.src.ext.getD 0 0
     let e1 := c.src.ext.getD 1 0
     (if c.src.ty = 9 then accCol0 imm % 2 == 0 && decide (accCol0 imm + 2 * e0 ≤ 256) else decide (accCol0 imm + e0 ≤ 256)) &&
       decide (accRow0 imm + e1 ≤ 256)) &&
    boxAligned c.src 0 (fullBox c.src.ext)

/-- What one entry or column pair gives in memory, with flags. -/
def accOut (g : Group) (imm ty c r : Nat) : Nat × Nat :=
  let row := accRow0 imm + r
  match ty with
  | 9 => (rdAcc64 g row (accCol0 imm + 2 * c), 0)
  | 8 => let v := fdec fmtA48 (rdAcc g row (accCol0 imm + c)); let r := roundF fmt32 0 v; (r.1, r.2 ||| sigNV v)
  | t => (container (t == 14) (rdAcc g row (accCol0 imm + c)), 0)

/-- What an element of memory gives in the store. -/
def accInto (imm ty c r x : Nat) : List (Nat × Acc48) :=
  let row := accRow0 imm + r
  match ty with
  | 9 => [(accKeyOf row (accCol0 imm + 2 * c), BitVec.ofNat 48 (x % 2 ^ 32)),
          (accKeyOf row (accCol0 imm + 2 * c + 1), BitVec.ofNat 48 (x / 2 ^ 32))]
  | 8 => [(accKeyOf row (accCol0 imm + c), BitVec.ofNat 48 (widenA48 x))]
  | _ => [(accKeyOf row (accCol0 imm + c), BitVec.ofNat 48 x)]

/-! ## Opening, starting and completing a copy -/

def updBuf (s : State) (k b : Nat) (f : Buf → Buf) : State := updGroup s k fun g => setBuf g b (f (getBuf g b))

/-- A refused slice or `BFREL` (R230, R232). -/
def refuseBuf (s : State) (k b : Nat) : State := updBuf s k b fun x => { x with refused := true }

/-- A failed check ends the copy in the error state (R231). -/
def failBuf (s : State) (k b err : Nat) : State :=
  updBuf s k b fun x => { x with state := 4, err := err, coll := none, copy := none, loop := none }

/-- A collection of the command's role can open on an entry (R232). -/
def opens (x : Buf) (role : Nat) : Bool := x.coll.isNone && x.copy.isNone && x.state == (if role = 0 then 0 else 2)

/-- Opening clears the last copy's report and a fill loads its range (R232, R233). -/
def openBuf (x : Buf) (c : CopyCmd) : Buf :=
  let x := { x with err := 0, flags := 0, refused := false, ceil := false, floor := false, state := if c.role = 0 then 1 else 3 }
  if c.role = 0 then { x with off := c.bufoff, len := c.buflen, iter := 0, loop := none } else x

/-- What global reads return: S(kQ) of the copy's round, or memory (R202, R240). -/
def copyBase (s : State) (k : Nat) (w : Warp) : Memory := plainBase s k w

/-- The tracking range of an entry as an operand's constraint. -/
def trackIf (c : Bool) (r : Nat × Nat) : Option (Nat × Nat) := if c then some r else none

/-- The copy of entry `b` starts, its collection `c` complete: the checks of R231, then its reads. -/
def startCopy (s : State) (k : Nat) (w : Warp) (b : Nat) (c : Coll) (kind : CopyKind) : State :=
  match getGroup s k with
  | none => s
  | some g =>
    let p := partOf k
    let chip := chipOf p
    let cmd := c.cmd
    let fill := cmd.role == 0
    let x := getBuf g b
    let r := (x.off, x.len)
    let m := copyBase s k w
    let q := tabsOf s k w
    let go (vs : List View) (cp : Copy) : State := updBuf (copyTouch s q vs) k b fun x => { x with coll := none, copy := some cp }
    let mk (pl : Place) (ws : List (Int × Byte)) (aw : List (Nat × Acc48)) (fl : Nat) (ce fo : Bool) : Copy :=
      { stamp := stampOf k w, gw := gwOf pl ws, mw := mwOf chip pl ws, aw := aw, flags := fl, ceil := ce, floor := fo, fill := fill }
    let fail (e : Nat) : State := failBuf s k b e
    let bad (vs : List View) : Option Nat := vs.findSome? (secureByte s q)
    let late (vs : List View) (e : Nat) : State := failBuf (reportCopy s p (bad vs) e) k b e
    match kind with
    | .slice | .loop =>
      let boxes := c.shares.map (·.box)
      let vs : List View :=
        [{ d := cmd.src, boxes := boxes, shift := 0, write := false, range := trackIf (!fill) r },
         { d := cmd.dst, boxes := boxes, shift := 0, write := true, range := trackIf fill r }]
      if !plainCommand cmd c.shares then fail 3
      else match laterChecks s q g [b] [r] boxes vs (bad vs) with
        | 0 =>
          let pl := fun d => placeAt s q d (boxes.flatMap (descSpans d 0))
          go vs (mk (pl cmd.dst) (plainWrites g m chip cmd (pl cmd.src) 0 0 boxes) [] 0 false false)
        | e => late vs e
    | .chain lit scal =>
      let strm := usesStream lit
      let vs : List View :=
        [{ d := cmd.src, boxes := [fullBox cmd.src.ext], shift := 0, write := false, range := trackIf (!fill) r },
         { d := cmd.dst, boxes := [fullBox cmd.dst.ext], shift := 0, write := true, range := trackIf fill r }] ++
        (if strm then [{ d := cmd.strm, boxes := [fullBox cmd.strm.ext], shift := 0, write := false, range := trackIf (!fill) r }] else [])
      if !chainCommand cmd lit then fail 3
      else match laterChecks s q g [b] [r] [] vs (bad vs) with
        | 0 =>
          let pl := fun d => placeAt s q d (descSpans d 0 (fullBox d.ext))
          let (ws, fl, ce, fo) := chainWrites g m chip cmd lit scal (pl cmd.src) (pl cmd.strm)
          go vs (mk (pl cmd.dst) ws [] fl ce fo)
        | e => late vs e
    | .acc imm =>
      let d := cmd.src
      let box := fullBox d.ext
      let inn := accIn imm
      let vs : List View := [{ d := d, boxes := [box], shift := 0, write := !inn, range := some r }]
      if !accCommand cmd imm then fail 3
      else match laterChecks s q g [b] [r] [] vs (bad vs) with
        | 0 =>
          let pl := placeAt s q d (descSpans d 0 box)
          let n := tySize d.ty
          let xs := coords box
          if inn then
            go vs (mk .group [] (xs.flatMap fun x =>
              accInto imm d.ty (x.getD 0 0) (x.getD 1 0) (readElem g m chip pl (elemAt d 0 x) n)) 0 false false)
          else
            let os := xs.map fun x => (x, accOut g imm d.ty (x.getD 0 0) (x.getD 1 0))
            go vs (mk pl (os.flatMap fun o => byteRun (elemAt d 0 o.1) (leBytes n o.2.1)) [] (orAll (os.map fun o => o.2.2)) false false)
        | e => late vs e

/-! ## Loops (R235) -/

/-- Σ STEP_d × STR_d. -/
def loopStep (c : CopyCmd) : Int := ((c.step.zip c.src.str).map fun e => e.1 * e.2).sum

/-- The source of iteration `i`. -/
def iterView (c : CopyCmd) (i : Nat) : View :=
  { d := c.src, boxes := [fullBox c.src.ext], shift := loopStep c * i, write := false, range := none }

/-- Iteration `i` starts on its stage, with the stamp of the warp that starts it; where its region no longer passes check REGION, or its
source has become secure, it fails (R231, R369, R377). -/
def startIter (s : State) (k : Nat) (w : Warp) (cmd : CopyCmd) (first i : Nat) : State :=
  match getGroup s k with
  | none => s
  | some g =>
    let p := partOf k
    let st := i % cmd.stages
    let b := first + st
    let sa := loopStep cmd * i
    let sb : Int := st * cmd.buflen
    let box := fullBox cmd.src.ext
    let q := tabsOf s k w
    match placeOf s q cmd.src (descSpans cmd.src sa box), secureByte s q (iterView cmd i) with
    | .error a, _ => failBuf (reportCopy s p a 1) k b 1
    | .ok _, some a => failBuf (reportCopy s p (some a) 1) k b 1
    | .ok pa, none =>
      let ws := plainWrites g (copyBase s k w) (chipOf p) cmd pa sa sb [box]
      let cp : Copy := { stamp := stampOf k w, gw := gwOf .group ws, mw := [], aw := [], flags := 0, ceil := false, floor := false, fill := true }
      updBuf (copyTouch s q [iterView cmd i]) k b fun x =>
        { x with state := 1, off := cmd.bufoff + st * cmd.buflen, len := cmd.buflen, iter := i % 65536, coll := none
                 copy := some cp, loop := some { cmd := cmd, first := first, iter := i } }

/-- A secure byte that one of the first `n` iterations reads. -/
def loopBytes (s : State) (q : Tabs) (c : CopyCmd) : Nat → Option Nat
  | 0 => none
  | n + 1 => (loopBytes s q c n).or (secureByte s q (iterView c n))

/-- A secure byte that the loop reads in any iteration (R231, R377). -/
def loopSecure (s : State) (q : Tabs) (c : CopyCmd) : Option Nat :=
  if allOpen s q then none else loopBytes s q c c.count

/-- The operands of every iteration: the source at both ends of its way, the destination at each stage. -/
def loopViews (c : CopyCmd) : List View :=
  let box := fullBox c.src.ext
  [0, c.count - 1].map (iterView c) ++
    (List.range (min c.stages c.count)).map fun j =>
      { d := c.dst, boxes := [box], shift := ((j * c.buflen : Nat) : Int), write := true
        range := some (c.bufoff + j * c.buflen, c.buflen) : View }

/-- Check COMMAND of a loop over every iteration. -/
def loopCommand (c : CopyCmd) : Bool :=
  plainCommand c [{ ok := true, box := fullBox c.src.ext }] && c.nslice == 1 && c.loopOk &&
    (decide (c.count ≤ 1) || boxAligned c.src (loopStep c) (fullBox c.src.ext)) &&
    (decide (min c.stages c.count ≤ 1) || boxAligned c.dst (c.buflen : Int) (fullBox c.dst.ext))

/-- The entry of a loop and every stage entry are free. -/
def loopFree (g : Group) (b : Nat) (c : CopyCmd) : Bool :=
  (getBuf g b).state == 0 && (List.range c.stages).all fun j => (getBuf g (b + j)).state == 0

/-- `CPLOOP`: its own conditions, the checks for every iteration, and the first iterations. An entry D that is not free refuses it;
then a condition of its command that fails is an error, and only then do the other stage entries refuse it (log 100). -/
def startLoop (s : State) (k : Nat) (w : Warp) (b : Nat) (cmd : CopyCmd) : State :=
  match getGroup s k with
  | none => s
  | some g =>
    let own := (List.range (min cmd.stages cmd.count)).map (b + ·)
    let opened := updBuf s k b fun x => openBuf x { cmd with role := 0 }
    if (getBuf g b).state ≠ 0 then refuseBuf s k b
    else if cmd.role ≠ 0 ∨ cmd.dst.group = false ∨ cmd.stages = 0 ∨ 8 < cmd.stages ∨ cmd.count = 0 ∨ 63 < b + cmd.stages - 1 then
      failBuf opened k b 3
    else if !loopFree g b cmd then refuseBuf s k b
    else if !loopCommand cmd then failBuf opened k b 3
    else match laterChecks s (tabsOf s k w) g own (own.map fun e => (cmd.bufoff + (e - b) * cmd.buflen, cmd.buflen)) []
        (loopViews cmd) (loopSecure s (tabsOf s k w) cmd) with
      | 0 =>
        let s := own.foldl (fun s e => updBuf s k e fun x => openBuf x cmd) s
        (List.range (min cmd.stages cmd.count)).foldl (fun s i => startIter s k w cmd b i) s
      | e => failBuf (reportCopy opened (partOf k) (loopSecure s (tabsOf s k w) cmd) e) k b e

/-! ## Completion -/

/-- The card of a group has been stopped. -/
def cardStopped (s : State) (gk : Nat) : Bool := match getCard s gk with | some c => c.stop.isSome | none => false

/-- The copy of entry `b` completes: its writes take effect, in turn mode the global ones as a publication with its
stamp (R203), and the entry becomes full or free (R232). A copy of a stopped card is discarded (R241). -/
def completeCopy (s : State) (gk b : Nat) : State :=
  match kfind s.groups gk with
  | none => s
  | some g =>
    let x := getBuf g b
    match x.copy with
    | none => s
    | some c =>
      if cardStopped s gk then dropCopies s (cardKey gk) else
      let p := partOf gk
      let turn := match (getPart s p).ctx with | some y => y.turn | none => false
      let g := { g with gmem := c.gw.foldl (fun m e => sput 0 m e.1 e.2) g.gmem
                        acc := c.aw.foldl (fun m e => sput 0 m e.1 e.2) g.acc }
      let y := { x with copy := none, state := if c.fill then 2 else 0, flags := c.flags, ceil := c.ceil, floor := c.floor }
      let y := if c.fill then y else { y with loop := none, iter := 0 }
      let s := setGroup s gk (setBuf g b y)
      if turn then pubBytes s (domOf s p) c.stamp 3 c.stamp.1 c.mw else c.mw.foldl (fun s e => freeWrite s gk e.1 [e.2]) s

/-! ## The instructions' own effects -/

/-- The bytes of a span that lie outside the group's window: the first one. -/
def firstOutside (gsize : Nat) (e : Int × Nat) : Option Int :=
  if e.2 = 0 then none
  else if spaceOf e.1 ≠ .window ∨ windowBase + gsize ≤ e.1 then some e.1
  else if windowBase + gsize < e.1 + e.2 then some (windowBase + gsize)
  else none

/-- Check 5 of a copy instruction (R231): alignment, then the bytes in ascending address order. -/
def copyFault (gsize : Nat) (aligns : List (Int × Nat)) (spans : List (Int × Nat)) : Option (Nat × Int) :=
  match aligns.find? fun e => e.1 % (e.2 : Int) != 0 with
  | some e => some (7, e.1)
  | none =>
    (spans.filterMap (firstOutside gsize)).foldl (fun a x => match a with
      | none => some (5, x)
      | some y => some (5, min y.2 x)) none

/-- The spans of the command that an instruction reads (R225). -/
def cmdSpans (a : Int) : CopyKind → List (Int × Nat)
  | .slice => [(a, 0x1C0)]
  | .loop => [(a, 0x1C0), (a + 0x280, 72)]
  | .chain lit _ => [(a, if usesStream lit then 0x280 else 0x1C0)]
  | .acc _ => [(a, 0x100)]

/-- The acquire of a copy's start in free mode (R240): the completing slice's `.acq` and `MOD` make it one (log 101). -/
def copyAcquire (s : State) (k : Nat) (f : Long) (w : Warp) : State :=
  if !w.turn && f.fn.getLsbD 0 && decide (3 ≤ f.mod.toNat) then l1Clear s k else s

/-- In turn mode a group turn on group memory in a filling range stalls until the range is full; the entries `own` are
those that it fills itself (R203, R239). -/
def readsFilling (w : Warp) (g : Group) (own : List Nat) (spans : List (Int × Int)) : Bool :=
  w.turn && spans.any fun e => g.bufs.any fun b => b.2.state == 1 && !own.contains b.1 &&
    decide ((b.2.off : Int) < e.2) && decide (e.1 < ((b.2.off + b.2.len : Nat) : Int))

/-- Spans of window addresses as spans of group memory. -/
def inGroup (spans : List (Int × Nat)) : List (Int × Int) := spans.map fun e => (e.1 - windowBase, e.1 - windowBase + e.2)

/-- What a starting copy reads of group memory. -/
def groupReads (cmd : CopyCmd) (kind : CopyKind) (boxes : List Box) : List (Int × Int) :=
  let spans (d : Desc) (bs : List Box) : List (Int × Int) := if d.group then bs.flatMap (descSpans d 0) else []
  match kind with
  | .slice => spans cmd.src boxes
  | .loop => if cmd.src.group then (List.range (min cmd.stages cmd.count)).flatMap fun i => viewSpans (iterView cmd i) else []
  | .chain lit _ => spans cmd.src [fullBox cmd.src.ext] ++ if usesStream lit then spans cmd.strm [fullBox cmd.strm.ext] else []
  | .acc imm => if accIn imm then spans cmd.src [fullBox cmd.src.ext] else []

/-- What a starting drain writes of group memory. -/
def groupWrites (cmd : CopyCmd) (kind : CopyKind) (boxes : List Box) : List (Int × Int) :=
  if cmd.role = 0 ∨ !cmd.dst.group then []
  else match kind with
    | .slice => boxes.flatMap (descSpans cmd.dst 0)
    | .chain _ _ => descSpans cmd.dst 0 (fullBox cmd.dst.ext)
    | _ => []

/-- The group memory at which a copy that passes check COMMAND stalls while an entry fills there: what it reads, and for a drain what
it writes (R203, R239). -/
def stallSpans (cmd : CopyCmd) (kind : CopyKind) (shares : List Share) : List (Int × Int) :=
  let boxes := shares.map (·.box)
  let good := match kind with
    | .slice => plainCommand cmd shares
    | .loop => loopCommand cmd
    | .chain lit _ => chainCommand cmd lit
    | .acc imm => accCommand cmd imm
  if good then groupReads cmd kind boxes ++ groupWrites cmd kind boxes else []

/-- In turn mode a copy instruction finds every copy of its group that has started complete: it waits in place while one is still
writing, so that what it finds does not hang on when the engine finishes (R1; log 107). -/
def copyWaits (w : Warp) (g : Group) : Bool := w.turn && g.bufs.any fun b => b.2.copy.isSome

def addrOf (w : Warp) (r : Nat) : Int := ((rdS w r).toNat : Int)
def windowOff (a : Int) : Nat := (a - windowBase).toNat

/-- `CPSLICE`: it joins the collection of its command, opens one, or is refused (R229, R230). The slice that completes a collection
gives the start its order and its cache hint (R240, log 101). -/
def cpsliceBody (f : Long) (s : State) (k : Nat) (w : Warp) : Act :=
  match getGroup s k with
  | none => .wait
  | some g =>
    let a := addrOf w f.a.toNat
    let c := addrOf w f.b.toNat
    let isBox := f.fn.getLsbD 2
    match copyFault g.gsize ((a, 64) :: if isBox then [(c, 8)] else []) (cmdSpans a .slice ++ if isBox then [(c, 112)] else []) with
    | some (cause, x) => .trap s cause 0 (BitVec.ofInt 64 x)
    | none =>
      let b := f.d.toNat
      let x := getBuf g b
      let share (d : Desc) : Share := if isBox then boxShare g d (windowOff c) else rangeShare d (rdS w f.b.toNat)
      let full (col : Coll) : Bool :=
        decide (col.cmd.nslice = 0 ∨ 48 < col.cmd.nslice ∨ col.cmd.nslice ≤ col.shares.length)
      let put (s : State) (col : Coll) : State :=
        if full col then startCopy (copyAcquire s k f w) k w b col .slice
        else updBuf s k b fun x => { x with coll := some col }
      let cmd := readCmd g .slice (windowOff a)
      let record := if isBox then inGroup [(c, 112)] else []
      let join : Option Coll := x.coll.map fun col => { col with shares := col.shares ++ [share col.cmd.src] }
      let next := join.getD { addr := rdS w f.a.toNat, cmd := cmd, shares := [share cmd.src] }
      let takes := match join with | some col => col.addr == rdS w f.a.toNat | none => opens x cmd.role
      let source := if takes && full next then stallSpans next.cmd .slice next.shares else []
      if copyWaits w g || readsFilling w g [] (record ++ if join.isNone then inGroup (cmdSpans a .slice) else []) || readsFilling w g [b] source then .wait
      else
        let s' := match join with
          | some col => if takes then put s col else refuseBuf s k b
          | none => if takes then put (updBuf s k b fun x => openBuf x cmd) next else refuseBuf s k b
        .retire s' .next none id

/-- `CPLOOP`, `CPCHAIN` and `CPACC`: one slice over the whole iteration space. -/
def copyOneBody (kind : CopyKind) (f : Long) (s : State) (k : Nat) (w : Warp) : Act :=
  match getGroup s k with
  | none => .wait
  | some g =>
    let a := addrOf w f.a.toNat
    match copyFault g.gsize [(a, 64)] (cmdSpans a kind) with
    | some (cause, x) => .trap s cause 0 (BitVec.ofInt 64 x)
    | none =>
      let b := f.d.toNat
      let cmd := readCmd g kind (windowOff a)
      let takes := if kind = .loop then loopFree g b cmd else opens (getBuf g b) cmd.role
      if copyWaits w g || readsFilling w g [] (inGroup (cmdSpans a kind)) || (takes && readsFilling w g [b] (stallSpans cmd kind [])) then .wait
      else
        let s := if takes then copyAcquire s k f w else s
        let s' :=
          if kind = .loop then startLoop s k w b cmd
          else if takes then
            startCopy (updBuf s k b fun x => openBuf x cmd) k w b { addr := rdS w f.a.toNat, cmd := cmd, shares := [] } kind
          else refuseBuf s k b
        .retire s' .next none id

def cploopBody (f : Long) : State → Nat → Warp → Act := copyOneBody .loop f
def cpchainBody (f : Long) (s : State) (k : Nat) (w : Warp) : Act :=
  copyOneBody (.chain (f.lit.getD 0) ((List.range 7).map fun i => rdS w (f.c.toNat + i))) f s k w

/-- A `CPACC` that opens waits for a started copy that has still to write an entry of its rectangle (R263); one that is refused does
not wait (R230). -/
def cpaccBody (f : Long) (s : State) (k : Nat) (w : Warp) : Act :=
  let imm := f.imm.toNat
  match getGroup s k with
  | none => .wait
  | some g =>
    let cmd := readCmd g (.acc imm) (windowOff (addrOf w f.a.toNat))
    let n := cmd.src.ext.getD 0 0 * (if cmd.src.ty = 9 then 2 else 1)
    if opens (getBuf g f.d.toNat) cmd.role && accCommand cmd imm && accBusy g ((List.range (cmd.src.ext.getD 1 0)).map (accRow0 imm + ·)) ((List.range n).map (accCol0 imm + ·)) then
      .wait
    else copyOneBody (.acc imm) f (holdAcc s k) k w

/-- The status word of an entry (R233). -/
def bufWord (x : Buf) : Dword :=
  BitVec.ofNat 64 (x.iter * 2 ^ 32 + x.floor.toNat * 2 ^ 22 + x.ceil.toNat * 2 ^ 21 + x.flags % 32 * 2 ^ 16 +
    x.err % 16 * 2 ^ 8 + x.refused.toNat * 2 ^ 4 + x.state % 8)

/-- `BFWAIT` (R234). -/
def bfwaitBody (f : Long) (s : State) (k : Nat) (w : Warp) : Act :=
  match getGroup s k with
  | none => .wait
  | some g =>
    let x := getBuf g f.a.toNat
    let want := if f.fn = 0 then 0 else 2
    if x.state = want ∨ x.state = 4 then .retire (updWarp s k fun w => wrS w f.d.toNat (bufWord x)) .next none id
    else if !w.turn || (x.copy.isSome && x.state == (if f.fn = 0 then 3 else 1)) then .wait
    else .done (endRun (moveClock s k (nextMark w.quantum w.clock)) k)

/-- The loop that refills the entry at a `BFREL`: it is full, and an iteration is left for its stage (R235). -/
def refillOf (x : Buf) : Option Loop :=
  x.loop.bind fun l => if x.state = 2 ∧ l.iter + l.cmd.stages < l.cmd.count then some l else none

/-- `BFREL` (R232, R235); in turn mode it finds a started copy complete (log 107). -/
def bfrelBody (f : Long) (s : State) (k : Nat) (w : Warp) : Act :=
  match getGroup s k with
  | none => .wait
  | some g =>
    let b := f.a.toNat
    let x := getBuf g b
    match refillOf x with
    | some l =>
      if copyWaits w g || readsFilling w g [b] (if l.cmd.src.group then viewSpans (iterView l.cmd (l.iter + l.cmd.stages)) else []) then .wait
      else .retire (startIter s k w l.cmd l.first (l.iter + l.cmd.stages)) .next none id
    | none =>
      if copyWaits w g then .wait else
      let s' := match x.state with
        | 0 => s
        | 1 | 3 => refuseBuf s k b
        | _ => updBuf s k b fun x => { x with state := 0, iter := 0, loop := none }
      .retire s' .next none id

/-! ## The instructions -/

/-- Opens, joins or completes a collective copy collection, or is refused. (R230) -/
def execCpslice (f : Long) (s : State) : Out := issue .cpslice f f.len (cpsliceBody f) s

/-- Starts a looping copy that fills stage buffers from a moving window. (R235) -/
def execCploop (f : Long) (s : State) : Out := issue .cploop f f.len (cploopBody f) s

/-- Starts a copy passing each element through up to eight chained operations. (R236) -/
def execCpchain (f : Long) (s : State) : Out := issue .cpchain f f.len (cpchainBody f) s

/-- Starts a copy between the accumulator store and memory. (R238) -/
def execCpacc (f : Long) (s : State) : Out := issue .cpacc f f.len (cpaccBody f) s

/-- Waits for a buffer entry to be free or full and returns its status word. (R234) -/
def execBfwait (f : Long) (s : State) : Out := issue .bfwait f f.len (bfwaitBody f) s

/-- Releases a buffer entry, freeing it or starting a loop refill. (R232) -/
def execBfrel (f : Long) (s : State) : Out := issue .bfrel f f.len (bfrelBody f) s

end Sys2Proof.Machine
end

