-- ==== Sys2Proof/Machine/CrossLane.lean ====
section
/-! DEFINITION. The cross-lane and predicate groups, MAJ 0x4C to 0x53 (R140 to R147). -/

namespace Sys2Proof.Machine

/-- The source lane of `VSHFL` (R142): mode, width, lane, index. -/
def shflLane (mode n l i : Nat) : Nat :=
  match mode with
  | 0 => i % n
  | 1 => l ^^^ (i % n)
  | 2 => if i ≤ l then l - i else l
  | _ => if l + i < n then l + i else l

def vshflOp (f : Long) (w : Warp) : Warp :=
  perLane w (activeL w .vshfl f) f.ty f.d.toNat fun l =>
    (rdReg w f.ty f.a.toNat (shflLane f.fn.toNat w.width l (rdB1 w f l)), 0)

/-- The lanes that count true in a vote (R143). -/
def voteBits (o : Op) (f : Long) (w : Warp) : BitVec 64 := active w o f &&& rdP w f.a.toNat

/-- A vote that counts an absent lane sets `%jstat.ABSENT`. -/
def voteAbsent (w : Warp) : Warp :=
  if curLanes w = fullMask w.width then w else { w with jstat := w.jstat ||| 2 }

def vvoteOp (f : Long) (w : Warp) : Warp :=
  let v := voteBits .vvote f w
  let b := if f.fn = 0 then v == fullMask w.width else v != 0
  voteAbsent (perLaneP w (activeL w .vvote f) f.d.toNat fun _ => (b, 0))

def vvoteBallotOp (f : Long) (w : Warp) : Warp := voteAbsent (wrS w f.d.toNat (voteBits .vvoteBallot f w))

/-- `comb` of R144 on encodings, with a rounding mode for sums. -/
def combM (op mode : Nat) (t : Ty) (u v : Nat) : Nat × Nat :=
  if op = 0 ∧ tyInt t = false then faddBits (tyFmt t) mode u v else comb op t u v

/-- `comb` with empty operands. -/
def combE (op mode : Nat) (t : Ty) (u v : Option Nat) : Option Nat × Nat :=
  match u, v with
  | some a, some b => let (x, g) := combM op mode t a b; (some x, g)
  | none, y => (y, 0)
  | x, none => (x, 0)

/-- One level of the tree of R144: neighbours combine. -/
def treeLevel (op mode : Nat) (t : Ty) : List (Option Nat) → List (Option Nat) × Nat
  | x :: y :: r =>
    let (z, g) := combE op mode t x y
    let (zs, h) := treeLevel op mode t r
    (z :: zs, g ||| h)
  | l => (l, 0)

/-- The whole tree, over at most 2^n lanes. -/
def treeRun (op mode : Nat) (t : Ty) : Nat → List (Option Nat) → List (Option Nat) × Nat
  | 0, l => (l, 0)
  | n + 1, l =>
    let (l, g) := treeLevel op mode t l
    let (l, h) := treeRun op mode t n l
    (l, g ||| h)

def vrdcOp (f : Long) (w : Warp) : Warp :=
  let m := active w .vrdc f
  let xs := (List.range w.width).map fun l => if m.getLsbD l then some (rdReg w f.ty f.a.toNat l) else none
  let (ys, g) := treeRun f.fn.toNat f.mod.toNat f.ty 6 xs
  match ys with
  | some x :: _ => raiseFp (wrS w f.d.toNat (BitVec.ofInt 64 (intOf (tySigned f.ty) (tyBits f.ty) x))) g
  | _ => w

/-- The identity of a scan (R145). -/
def scanIdent (op : Nat) (t : Ty) : Nat :=
  match op with
  | 1 => if tyInt t then wrapN (tyBits t) (tyHi t) else fmtInf (tyFmt t)
  | 2 => if tyInt t then wrapN (tyBits t) (tyLo t) else fneg true (tyFmt t) (fmtInf (tyFmt t))
  | 3 => 2 ^ tyBits t - 1
  | _ => 0

/-- The serial scan over the active lanes. -/
def scanRun (w0 : Warp) (f : Long) (op : Nat) (excl : Bool) : List Nat → Option Nat → Warp → Warp
  | [], _, w => w
  | l :: r, run, w =>
    let (next, g) := combE op f.mod.toNat f.ty run (some (rdReg w0 f.ty f.a.toNat l))
    let out := (if excl then run else next).getD (scanIdent op f.ty)
    scanRun w0 f op excl r next (raiseFp (wrReg w f.ty f.d.toNat l out) g)

def vscanOp (f : Long) (w : Warp) : Warp :=
  scanRun w f (f.fn.toNat % 8) (decide (8 ≤ f.fn.toNat)) (activeL w .vscan f) none w

/-- The lane that `VBCAST` reads (R142). -/
def bcastVal (f : Long) (w : Warp) : Nat := rdReg w f.ty f.a.toNat ((rdSB w f).toNat % w.width)
def vbcastOp (f : Long) (w : Warp) : Warp :=
  let x := bcastVal f w
  perLane w (activeL w .vbcast f) f.ty f.d.toNat fun _ => (x, 0)
def vbcastSOp (f : Long) (w : Warp) : Warp := wrS w f.d.toNat (BitVec.ofNat 64 (bcastVal f w))

/-- `VMATCH` (R146). -/
def vmatchOp (f : Long) (w : Warp) : Warp :=
  let ls := activeL w .vmatch f
  let x (l : Nat) : Nat := rdReg w f.ty f.a.toNat l
  perLaneP w ls f.d.toNat fun l =>
    (if f.fn = 0 then ls.any fun m => m != l && x m == x l else ls.all fun m => x m == x l, 0)

/-- `PLOP` (R147). -/
def plopOp (f : Long) (w : Warp) : Warp :=
  let a := rdP w f.a.toNat
  let b := rdP w f.b.toNat
  perLaneP w (activeL w .plop f) f.d.toNat fun l =>
    (f.imm.getLsbD (2 * (if a.getLsbD l then 1 else 0) + if b.getLsbD l then 1 else 0), 0)

def pmovPsOp (f : Long) (w : Warp) : Warp := wrS w f.d.toNat (rdP w f.a.toNat)
def pmovSpOp (f : Long) (w : Warp) : Warp :=
  let x := rdS w f.a.toNat
  perLaneP w (activeL w .pmovSp f) f.d.toNat fun l => (x.getLsbD l, 0)

/-! ## The instructions -/

/-- Shuffles values between lanes by index, xor, up or down. (R142) -/
def execVshfl (f : Long) (s : State) : Out := warpOp .vshfl f f.len (vshflOp f) s

/-- All or any vote over the warp's lanes into a predicate, noting absent lanes. (R143) -/
def execVvote (f : Long) (s : State) : Out := warpOp .vvote f f.len (vvoteOp f) s

/-- Writes the counted predicate bits of all lanes into an s register. (R143) -/
def execVvoteBallot (f : Long) (s : State) : Out := warpOp .vvoteBallot f f.len (vvoteBallotOp f) s

/-- Reduces a vector over active lanes in a fixed tree into an s register. (R144) -/
def execVrdc (f : Long) (s : State) : Out := warpOp .vrdc f f.len (vrdcOp f) s

/-- Inclusive or exclusive serial scan over active lanes. (R145) -/
def execVscan (f : Long) (s : State) : Out := warpOp .vscan f f.len (vscanOp f) s

/-- Broadcasts one lane's value to every active lane. (R142) -/
def execVbcast (f : Long) (s : State) : Out := warpOp .vbcast f f.len (vbcastOp f) s

/-- Copies one lane's value into an s register. (R142) -/
def execVbcastS (f : Long) (s : State) : Out := warpOp .vbcastS f f.len (vbcastSOp f) s

/-- Any or all equality match among active lanes into a predicate. (R146) -/
def execVmatch (f : Long) (s : State) : Out := warpOp .vmatch f f.len (vmatchOp f) s

/-- Applies a two-input truth table to predicates. (R147) -/
def execPlop (f : Long) (s : State) : Out := warpOp .plop f f.len (plopOp f) s

/-- Copies all predicate bits into an s register. (R147) -/
def execPmovPs (f : Long) (s : State) : Out := warpOp .pmovPs f f.len (pmovPsOp f) s

/-- Writes predicate bits of active lanes from an s register. (R147) -/
def execPmovSp (f : Long) (s : State) : Out := warpOp .pmovSp f f.len (pmovSpOp f) s

end Sys2Proof.Machine
end

