-- ==== Sys2Proof/Machine/Fabric.lean ====
section
/-! DEFINITION. `MIGR` and `FSHOOT` (R341 to R343, R348 to R350): moving a page's home, changing its leaf entry, reading
its counts, and shooting translations down on every chip of the island. -/

namespace Sys2Proof.Machine

/-! ## Moving a page (R341) -/

/-- A key of the page at `old` as a key of the page at `new`. -/
def moveKey (old new size key : Nat) : Nat := if old ≤ key ∧ key < old + size then new + (key - old) else key

/-- The page's bytes are copied, those at a closed offset apart; the old page keeps its own. -/
def movePage (m : Memory) (old new size : Nat) (closed : Nat → Bool) : Memory :=
  let rest := m.filter fun e => !(decide (new ≤ e.1) && decide (e.1 < new + size) && !closed (e.1 - new))
  (m.filter fun e => decide (old ≤ e.1) && decide (e.1 < old + size) && !closed (e.1 - old)).foldl
    (fun r e => wrByte r (new + (e.1 - old)) e.2) rest

/-- A key that a move of world `sec` may not touch: secure bytes for a non-secure one (R377). -/
def closedKey (s : State) (sec : Bool) (key : Nat) : Bool := !sec && isSecure s (key / keyBase) (key % keyBase)

/-- The offsets of a page that its move does not copy: a secure byte at either end lets nothing be performed (R377, log 112). -/
def closedPage (s : State) (sec : Bool) (old new off : Nat) : Bool := closedKey s sec (old + off) || closedKey s sec (new + off)

/-- The 64 KiB parts of a page at a key, by their first key: regions of the security controller begin and end at such parts. -/
def pageParts (key size : Nat) : List Nat := (List.range (size / 2 ^ 16 + 1)).map fun i => key + min (i * 2 ^ 16) (size - 1)

/-- Each secure part of either page that a move meets is reported to its home's secure monitor (R377). -/
def moveReports (s : State) (sec : Bool) (old new size : Nat) : State :=
  ((pageParts old size ++ pageParts new size).filter (closedKey s sec)).foldl (fun s a => reportAt s (a / keyBase) (a % keyBase)) s

def moveMap {α : Type} (old new size : Nat) (m : KMap α) : KMap α :=
  m.foldl (fun r e => kinsert r (moveKey old new size e.1) e.2) []

/-- Publications pass to the new home with their stamps. -/
def movePub (old new size : Nat) (x : Pub) : Pub :=
  match x.body with
  | .bytes b => { x with body := .bytes (moveMap old new size b) }
  | .pot key op ty val => { x with body := .pot (moveKey old new size key) op ty val }

/-- Hands name the page at its new home from now on. -/
def moveHand (old new size : Nat) (h : Hand) : Hand :=
  { secs := h.secs.map fun x => { x with key := moveKey old new size x.key }
    pots := h.pots.map fun x => { x with key := moveKey old new size x.key } }

/-- The leaf entry after a move to `pa` on the chip of index `peer`. -/
def movedLeaf (e : BitVec 64) (here : Bool) (peer pa : Nat) : BitVec 64 :=
  let keep := e.toNat % 2 ^ 12 + e.toNat / 2 ^ 52 % 2 ^ 5 * 2 ^ 52 + e.toNat / 2 ^ 63 * 2 ^ 63
  let mode := if here then 0 else if leafMode e = 0 then 1 else leafMode e
  BitVec.ofNat 64 (keep + pa % 2 ^ 52 / 2 ^ 12 * 2 ^ 12 + (if here then leafPeer e else peer) * 2 ^ 57 + mode * 2 ^ 61)

/-- Writes that a started copy has still to make pass to the new home with its stamp. -/
def moveCopies (old new size : Nat) (g : Group) : Group :=
  { g with bufs := g.bufs.map fun b => (b.1, { b.2 with copy := b.2.copy.map fun c => { c with mw := moveMap old new size c.mw } }) }

/-- Every L1 drops the lines that a test selects. -/
def l1Drop (s : State) (hit : Nat → Bool) : State :=
  { s with chips := smap Chip.reset (fun ch =>
      { ch with cores := smap Core.reset (fun co => { co with l1 := co.l1.filter fun x => !hit x.key }) ch.cores }) s.chips }

/-- The whole move of the page that `t` maps in partition `p`; no L1 keeps a line of it from before, at either home (R342). A word that the turn unit advances stays at its old address
(R223). -/
def movePageTo (s : State) (p : Nat) (sec : Bool) (t : Tlb) (old new dstIdx pa : Nat) : State :=
  let c := chipOf p
  let n := t.size
  let e := movedLeaf (rdEntry s t.entry) (dstIdx == myIndex s c) dstIdx pa
  let s := { s with
    mem := wrBytes (movePage s.mem old new n (closedPage s sec old new)) t.entry (leBytes 8 e.toNat)
    pubs := s.pubs.map (movePub old new n)
    warps := s.warps.map fun x => (x.1, { x.2 with hand := moveHand old new n x.2.hand })
    groups := s.groups.map fun x => (x.1, moveCopies old new n x.2)
    forwards := (s.forwards.filter fun f => f.old != new) ++
      [{ old := old, new := new, size := n, va := t.base, ctx := t.ctx, moving := true, switched := [c] }]
    markers := s.markers ++ [(c, new)] }
  let inside (base a : Nat) : Bool := decide (base < a + lineSize) && decide (a < base + n)
  let s := sliceDrop (dropTlb s c fun x => tlbHit x t.ctx t.base) (old / keyBase) (inside old)
  let s := sliceTouch (l1Drop s fun a => inside old a || inside new a) true 0 t.entry
  let s := overlayTrim s (overlayLines s)
  let s := moveReports s sec old new n
  let ch := getChip s c
  setChip s c { ch with counts := ch.counts.filter fun x => !(x.2.page == t.base && x.2.ctx == t.ctx) }

/-- The page is moving or forwarding at its old home. -/
def pageMoved (s : State) (key : Nat) : Bool :=
  s.forwards.any fun f => decide (f.old ≤ key) && decide (key < f.old + f.size)

/-- Check 5 of `MIGR` (R349): the translation of `sA` as a load's, setting no bit. -/
def migrXlat (s : State) (z : Site) (sec : Bool) (a : Dword) : Except MErr Tlb :=
  match checkElem s z sec { size := 1, use := some .load, window := false, gsize := 0 } .global 0 a.toNat with
  | .error e => .error e
  | .ok _ => match findXlat s z a.toNat with
    | some t => .ok t
    | none => .error { cause := 5, kind := 0, addr := a, secure := none, late := true }

/-- A `MIGR` that passes its check writes `sD`. -/
def migrBody (f : Long) (g : State → Nat → Tlb → Dword × State) (s : State) (k : Nat) (w : Warp) : Act :=
  match migrXlat s (siteOf s k) w.sec (rdS w f.a.toNat) with
  | .error e => memFault s k [] e
  | .ok t =>
    let (x, s) := g (walkTouch s (siteOf s k) (rdS w f.a.toNat).toNat) (partOf k) t
    .retire (updWarp s k fun w => wrS w f.d.toNat x) .next none id

/-- The effect of `MIGR.move` and its status (R349). -/
def migrMove (dst : Dword) (sec : Bool) (s : State) (p : Nat) (t : Tlb) : Dword × State :=
  let d := dst.toNat
  let idx := d / 2 ^ 52 % 16
  let pa := d % 2 ^ 52
  let c := chipOf p
  let home := leafHome s c t.leaf
  let old := physKey home (leafPa t.leaf)
  if leafMode t.leaf = 2 then (5, s)
  else if pageMoved s old then (1, s)
  else if idx = (if leafMode t.leaf = 0 then myIndex s c else leafPeer t.leaf) then (2, s)
  else if d / 2 ^ 56 ≠ 0 ∨ d % 2 ^ 12 ≠ 0 ∨ pa % t.size ≠ 0 ∨ deviceSize ≤ pa ∨ (getChip s c).isize.toNat < idx then (4, s)
  else match domChip s c idx with
    | none => (4, s)
    | some c' => (0, movePageTo s p sec t old (physKey c' pa) idx pa)

def migrMoveBody (f : Long) (s : State) (k : Nat) (w : Warp) : Act := migrBody f (migrMove (rdS w f.b.toNat) w.sec) s k w

/-- Bits that `MIGR.set` may change. -/
def migrMask : BitVec 64 := BitVec.ofNat 64 ((2 ^ 10 - 1) * 2 ^ 53 + 2 ^ 5)

/-- What stands at the leaf of a held translation obeys R153, and R154 at that leaf's level (log 111). -/
def leafFits (t : Tlb) (e : BitVec 64) : Bool :=
  let level := if t.size = 2 ^ 30 then 2 else if t.size = 2 ^ 21 ∨ t.size = 2 ^ 25 then 1 else 0
  leafBit e 0 && leafBit e 1 && leafOk e && (pageSize level (leafCont e)).any fun n => leafPa e % n == 0

/-- The effect of `MIGR.set` and its status (R349). -/
def migrSet (v m : Dword) (s : State) (p : Nat) (t : Tlb) : Dword × State :=
  let e := (rdEntry s t.entry &&& ~~~m) ||| (v &&& m)
  if m &&& ~~~migrMask ≠ 0 ∨ leafFits t e = false ∨ leafPlace s p e = false then (4, s)
  else
    let s := sliceTouch { s with mem := wrBytes s.mem t.entry (leBytes 8 e.toNat) } true 0 t.entry
    (0, dropTlb s (chipOf p) fun x => tlbHit x t.ctx t.base)

def migrSetBody (f : Long) (s : State) (k : Nat) (w : Warp) : Act :=
  migrBody f (migrSet (rdS w f.b.toNat) (rdS w f.c.toNat)) s k w

/-- The page word of `MIGR.query` (R349). -/
def migrQuery (s : State) (p : Nat) (t : Tlb) : Dword × State :=
  let bit (b : Bool) (i : Nat) : Nat := if b then 2 ^ i else 0
  (BitVec.ofNat 64 (countOf (getChip s (chipOf p)) t.base t.ctx + leafThr t.leaf * 2 ^ 32 + leafMode t.leaf * 2 ^ 34 +
    bit (leafRap t.leaf) 36 + bit (leafRo t.leaf) 37 + leafPeer t.leaf * 2 ^ 40), s)

def migrQueryBody (f : Long) (s : State) (k : Nat) (w : Warp) : Act := migrBody f migrQuery s k w

/-! ## `FSHOOT` (R350) -/

/-- The chips that an `FSHOOT` of a chip reaches: every chip of its island, or itself; 16 + index stands for one that is off. -/
def shootChips (s : State) (c : Nat) : List Nat :=
  let ch := getChip s c
  if ch.fxEn then (List.range (ch.isize.toNat + 1)).map fun i => if i = ch.index.toNat then c else (chipOfIndex s i).getD (16 + i) else [c]

/-- `FSHOOT` waits for every chip. -/
def fshootBody (f : Long) (len : Nat) (va : Option Nat) (s : State) (k : Nat) (w : Warp) : Act :=
  .done (waitIn (updWarp s k fun w => { w with pending := false }) k
    (.fshoot (shootChips s (chipOf (partOf k))) va ((rdS w f.b.toNat).toNat % 2 ^ 16) f.d.toNat len f.fl.en))

def fshootVaBody (f : Long) (len : Nat) (s : State) (k : Nat) (w : Warp) : Act :=
  fshootBody f len (some (rdS w f.a.toNat).toNat) s k w
def fshootCtxBody (f : Long) (len : Nat) (s : State) (k : Nat) (w : Warp) : Act := fshootBody f len none s k w

/-- The translations that an `FSHOOT` covers (R350). -/
def shootHit (ctx : Nat) (va : Option Nat) (t : Tlb) : Bool :=
  match va with
  | some a => tlbHit t ctx a
  | none => t.ctx == ctx

/-- The physical keys of the covered pages whose replicas a chip keeps: first key and size. -/
def replicaRange (s : State) (c ctx : Nat) (va : Option Nat) : List (Nat × Nat) :=
  ((getChip s c).replicaOf.filter fun e => shootHit ctx va { ctx := e.1, base := e.2.1, size := e.2.2.1, entry := 0, leaf := 0 }).map
    fun e => (e.2.2.2, e.2.2.1)

/-- A covered page is still moving at its old home on a chip. -/
def shootMoving (s : State) (c ctx : Nat) (va : Option Nat) : Bool :=
  s.forwards.any fun f => f.moving && f.ctx == ctx && f.old / keyBase == c &&
    match va with | some a => decide (f.va ≤ a) && decide (a < f.va + f.size) | none => true

/-- What a chip does for an `FSHOOT` before it acknowledges: translations, replica lines in slices and L1s, forwarding entries. -/
def shootAt (s : State) (c ctx : Nat) (va : Option Nat) : State :=
  let rs := replicaRange s c ctx va
  let hit (n a : Nat) : Bool := rs.any fun r => decide (r.1 < a + n) && decide (a < r.1 + r.2)
  let s := dropTlb s c (shootHit ctx va)
  let ch := getChip s c
  let s := setChip s c { ch with
    replicas := ch.replicas.filter fun e => !hit 1 e.1
    replicaOf := ch.replicaOf.filter fun e => !rs.contains (e.2.2.2, e.2.2.1)
    cores := ch.cores.map fun e => (e.1, { e.2 with l1 := e.2.l1.filter fun x => x.key / keyBase == c || !hit lineSize x.key }) }
  { s with forwards := s.forwards.filter fun f => !(f.ctx == ctx && f.old / keyBase == c &&
      match va with | some a => decide (f.va ≤ a) && decide (a < f.va + f.size) | none => true) }

/-- `FSHOOT` retires with the mask of the chips that have not acknowledged. -/
def shootDone (s : State) (k : Nat) (left : List Nat) (d len : Nat) (en : Bool) : State :=
  let mask := left.foldl (fun m c => m ||| bitMask (if 16 ≤ c then c - 16 else myIndex s c)) 0
  retire (updWarp s k fun w => wrS { w with stat := .stalled } d mask) k 0 len en .next none id

/-- A chip acknowledges an `FSHOOT`. -/
def shootAck (s : State) (k c : Nat) : State :=
  match getWarp s k with
  | none => s
  | some w => match w.stat with
    | .fshoot left va ctx d len en =>
      let own := chipOf (partOf k)
      if !left.contains c || decide (16 ≤ c) || shootMoving s c ctx va || xlatInUse s c (shootHit ctx va) || !(c == own || reaches s own (myIndex s c)) then s
      else
        let s := shootAt s c ctx va
        let left := left.filter fun x => x != c
        if left.isEmpty then shootDone s k [] d len en
        else updWarp s k fun w => { w with stat := .fshoot left va ctx d len en }
    | _ => s

/-- 1 ms after issue, `FSHOOT` retires whoever has not acknowledged. -/
def shootTimeout (s : State) (k : Nat) : State :=
  match getWarp s k with
  | none => s
  | some w => match w.stat with
    | .fshoot left _ _ d len en => shootDone s k left d len en
    | _ => s

/-- The marker of a chip for a moved page, named by its key at the new home, reaches that home: the move is complete (R342). -/
def markerArrives (s : State) (c page : Nat) : State :=
  if s.markers.contains (c, page) then
    { s with markers := s.markers.erase (c, page)
             forwards := match s.forwards.find? fun f => f.new == page && f.moving with
               | some f => s.forwards.map fun x => if x = f then { x with moving := false } else x
               | none => s.forwards }
  else s

/-! ## The instructions -/

/-- Moves a page's home to a destination chip and address and rewrites the leaf entry. (R341) -/
def execMigrMove (f : Long) (s : State) : Out := issue .migrMove f f.len (migrMoveBody f) s

/-- Rewrites masked fields of this chip's leaf entry atomically. (R349) -/
def execMigrSet (f : Long) (s : State) : Out := issue .migrSet f f.len (migrSetBody f) s

/-- Returns the page's access count and leaf fields. (R349) -/
def execMigrQuery (f : Long) (s : State) : Out := issue .migrQuery f f.len (migrQueryBody f) s

/-- Island-wide invalidation of one page's translations, replicas and forwarding. (R350) -/
def execFshootVa (f : Long) (s : State) : Out := issue .fshootVa f f.len (fshootVaBody f f.len) s

/-- Island-wide invalidation of every page of a context. (R350) -/
def execFshootCtx (f : Long) (s : State) : Out := issue .fshootCtx f f.len (fshootCtxBody f f.len) s

end Sys2Proof.Machine
end

