-- ==== Sys2Proof/Machine/MemPipe.lean ====
section
/-! DEFINITION. The instructions of the memory pipe, MAJ 0x54 to 0x5C (R159 to R170). -/

namespace Sys2Proof.Machine

/-! ## Prefetch (R168) -/

/-- The first keys of the sectors of a key's line. -/
def lineSectors (key : Nat) : List Nat := (List.range 4).map fun i => lineOf key + 32 * i

/-- The lines of a prefetch enter the L1, where R171 and R337 keep them, and their home slices, and bring the settled image in
turn mode; a lane that is misaligned, outside global space or untranslatable is skipped, as is a direct remote page
(R336) and what a home refuses, and a secure byte is reported (R377). A lane's walk reads the table (R14), but none installs its
translation or sets `A` (log 73). -/
def vprfBody (f : Long) (s : State) (k : Nat) (w : Warp) : Act :=
  let q := accKind s k w (elemSize .vprf f) (some .load) false
  let tried := (memElems w .vprf f).filter fun e => spaceOf e.2 = .global
  let got := tried.map fun e => checkElem s (siteOf s k) w.sec q .global e.1 e.2
  let xs := (got.filterMap (·.toOption)).filter l1Able
  let refuses (x : Acc) : Option Nat := homeRefuses s (chipOf (partOf k)) w.sec (accKey x)
  let s := got.foldl (fun s r => match r with
    | .error e => faultWalk s k e
    | .ok x =>
      let s := walkTouch s (siteOf s k) x.va
      if l1Able x && refuses x == some 1 then reportAt s (accKey x / keyBase) (accKey x % keyBase) else s) s
  .retire (bringLines s k w f.mod.toNat (fun _ => false) ((xs.filter fun x => (refuses x).isNone).map fun x => (x, lineSectors (accKey x)))) .next none id

/-! ## Cache control (R169) -/

/-- Where what holds of address `a` ends: the page that maps it, or what the entry that stopped its walk covers, and in either
case no further than the next page that the site's TLBs hold. -/
def xlatEnd (s : State) (z : Site) (a : Nat) : Nat :=
  let ch := getChip s (chipOf z.part)
  let tlbs := (match z.core with | some n => (getCore ch n).tlb | none => []) ++ sget [] ch.dieTlb (siteDie s z)
  let n := levelSpan (3 - (walkAt s z a).path.length)
  let far := match findXlat s z a with
    | some t => t.base + t.size
    | none => (a / n + 1) * n
  tlbs.foldl (fun m t => if t.ctx = ctxOf s z.part ∧ a < t.base then min m t.base else m) far

/-- The pieces of the addresses `lo` to `hi` - 1, first address and length: each is one page, or what one entry leaves without a
translation. `fuel` bounds the number of pieces. -/
def rangePieces (s : State) (z : Site) (hi : Nat) : Nat → Nat → List (Nat × Nat)
  | 0, _ => []
  | fuel + 1, lo =>
    if hi ≤ lo ∨ 2 ^ 56 ≤ lo then []
    else
      let e := min hi (xlatEnd s z lo)
      (lo, e - lo) :: rangePieces s z hi fuel e

/-- The pieces that have a translation, by physical key and length: pages without a translation are skipped (R169). -/
def rangeKeys (s : State) (z : Site) (ps : List (Nat × Nat)) : List (Nat × Nat) :=
  ps.filterMap fun x => (findXlat s z x.1).map fun t => (xlatKey s z.part t x.1, x.2)

/-- The walks of a range read the table (R14). -/
def rangeWalks (s : State) (z : Site) (ps : List (Nat × Nat)) : State := ps.foldl (fun s x => walkTouch s z x.1) s

/-- A line holds a byte of one of the pieces. -/
def lineHit (ks : List (Nat × Nat)) (key : Nat) : Bool :=
  ks.any fun e => decide (e.1 < key + lineSize) && decide (key < e.1 + e.2)

/-- Drops every L1 line of the core that holds a byte of [lo, lo + n). -/
def invRange (s : State) (k : Nat) (lo : Int) (n : Nat) : State :=
  let ps := rangePieces s (siteOf s k) (lo + n).toNat n lo.toNat
  let ks := rangeKeys s (siteOf s k) ps
  updCore (rangeWalks s (siteOf s k) ps) k fun co => { co with l1 := co.l1.filter fun x => !lineHit ks x.key }

/-- A line holds an overlay entry (R174). -/
def overlaid (s : State) (key : Nat) : Bool :=
  s.pubs.any fun x => match x.body with
    | .bytes b => b.any fun e => lineOf e.1 == key
    | .pot a _ _ _ => lineOf a == key

/-- Writes back and drops the chip's slice lines of [lo, lo + n) that hold no overlay entry: memory as the slices serve it is unchanged. -/
def evictRange (s : State) (k : Nat) (lo : Int) (n : Nat) : State :=
  let ps := rangePieces s (siteOf s k) (lo + n).toNat n lo.toNat
  let ks := rangeKeys s (siteOf s k) ps
  sliceDrop (rangeWalks s (siteOf s k) ps) (chipOf (partOf k)) fun key => lineHit ks key && !overlaid s key

def cctlInvBody (f : Long) (s : State) (k : Nat) (w : Warp) : Act :=
  .retire (invRange s k (baseAddr w f) (rdS w f.b.toNat).toNat) .next none id
def cctlInvallBody (_ : Long) (s : State) (k : Nat) (_ : Warp) : Act := .retire (l1Clear s k) .next none id
def cctlEvictBody (f : Long) (s : State) (k : Nat) (w : Warp) : Act :=
  .retire (evictRange s k (baseAddr w f) (rdS w f.b.toNat).toNat) .next none id

/-! ## Invalidation of translations (R170) -/

/-- `TLBI` waits until every access that a removed entry translated has performed, then removes the entries on every die. -/
def tlbiBody (hit : Tlb → Bool) (s : State) (k : Nat) : Act :=
  let c := chipOf (partOf k)
  if xlatInUse s c hit then .wait else .retire (dropTlb s c hit) .next none id

def tlbiVaBody (f : Long) (s : State) (k : Nat) (w : Warp) : Act :=
  let va := (rdS w f.a.toNat).toNat
  let ctx := (rdS w f.b.toNat).toNat % 2 ^ 16
  tlbiBody (invalHit 0 ctx va) s k
def tlbiCtxBody (f : Long) (s : State) (k : Nat) (w : Warp) : Act :=
  let ctx := (rdS w f.b.toNat).toNat % 2 ^ 16
  tlbiBody (invalHit 1 ctx 0) s k
def tlbiAllBody (_ : Long) (s : State) (k : Nat) (_ : Warp) : Act := tlbiBody (invalHit 2 0 0) s k

/-! ## The instructions -/

/-- Short contiguous i32 vector load reading the hand then the settled image. (R163) -/
def execVldShort (f : ShortM) (s : State) : Out := issue .vld (f.expand .vld) 4 (loadBody .vld (f.expand .vld)) s

/-- Long contiguous vector load. (R163) -/
def execVldLong (f : Long) (s : State) : Out := issue .vld f f.len (loadBody .vld f) s

/-- Short contiguous i32 vector store into the hand or home slice. (R164) -/
def execVstShort (f : ShortM) (s : State) : Out := issue .vst (f.expand .vst) 4 (storeBody .vst (f.expand .vst)) s

/-- Long contiguous vector store. (R164) -/
def execVstLong (f : Long) (s : State) : Out := issue .vst f f.len (storeBody .vst f) s

/-- Indexed or strided vector gather load. (R161) -/
def execVlds (f : Long) (s : State) : Out := issue .vlds f f.len (loadBody .vlds f) s

/-- Indexed or strided vector scatter store, higher lanes winning shared bytes. (R164) -/
def execVsts (f : Long) (s : State) : Out := issue .vsts f f.len (storeBody .vsts f) s

/-- Short scalar i64 load. (R163) -/
def execSldShort (f : ShortM) (s : State) : Out := issue .sld (f.expand .sld) 4 (loadBody .sld (f.expand .sld)) s

/-- Long scalar load. (R163) -/
def execSldLong (f : Long) (s : State) : Out := issue .sld f f.len (loadBody .sld f) s

/-- Short scalar i64 store. (R164) -/
def execSstShort (f : ShortM) (s : State) : Out := issue .sst (f.expand .sst) 4 (storeBody .sst (f.expand .sst)) s

/-- Long scalar store. (R164) -/
def execSstLong (f : Long) (s : State) : Out := issue .sst f f.len (storeBody .sst f) s

/-- Prefetches addressed lines into the L1 and home slice without faulting. (R168) -/
def execVprf (f : Long) (s : State) : Out := issue .vprf f f.len (vprfBody f) s

/-- Invalidates the core's L1 lines in an address range. (R169) -/
def execCctlInv (f : Long) (s : State) : Out := issue .cctlInv f f.len (cctlInvBody f) s

/-- Invalidates every global L1 line of the core. (R169) -/
def execCctlInvall (f : Long) (s : State) : Out := issue .cctlInvall f f.len (cctlInvallBody f) s

/-- Writes back and drops slice lines in a range, keeping overlay lines. (R169) -/
def execCctlEvict (f : Long) (s : State) : Out := issue .cctlEvict f f.len (cctlEvictBody f) s

/-- Invalidates translations of one address in a context on every die. (R170) -/
def execTlbiVa (f : Long) (s : State) : Out := issue .tlbiVa f f.len (tlbiVaBody f) s

/-- Invalidates every translation of a context on every die. (R170) -/
def execTlbiCtx (f : Long) (s : State) : Out := issue .tlbiCtx f f.len (tlbiCtxBody f) s

/-- Invalidates every translation of every context on the chip. (R170) -/
def execTlbiAll (f : Long) (s : State) : Out := issue .tlbiAll f f.len (tlbiAllBody f) s

end Sys2Proof.Machine
end

