-- ==== Sys2Proof/Machine/Bodies.lean ====
section
/-! DEFINITION. The own effect of every operation, around which `issueAt` lays the shared course of Ops.lean: arbitration asks by
it whether a warp's next instruction can issue (R77). -/

namespace Sys2Proof.Machine

/-- The own effect of an operation. -/
def bodyOf (o : Op) (f : Long) (len : Nat) : State → Nat → Warp → Act :=
  match o with
  | .nop => nopBody f
  | .bra => braBody f
  | .brc => brcBody f
  | .brx => jumpBody f
  | .call => callBody f len
  | .callReg => callRegBody f len
  | .ret => jumpBody f
  | .mark => markBody f
  | .join => joinBody f
  | .exit => exitBody f
  | .rep => repBody f
  | .repReg => repRegBody f
  | .rgn => rgnBody f
  | .trap => trapBody f
  | .bpt => bptBody f
  | .eret => eretBody f
  | .srd => srdBody f
  | .srdHi => srdHiBody f
  | .swr => swrBody f
  | .give => giveBody f
  | .claim => claimBody f len
  | .jmovToS => jmovToSBody f
  | .jmovToJ => jmovToJBody f
  | .sadd => fun s k w => .retire (setWarp s k ((scalOp f saddOp) w)) .next none id
  | .ssub => fun s k w => .retire (setWarp s k ((scalOp f ssubOp) w)) .next none id
  | .smul => fun s k w => .retire (setWarp s k ((scalOp f smulOp) w)) .next none id
  | .sand => fun s k w => .retire (setWarp s k ((scalOp f sandOp) w)) .next none id
  | .sor => fun s k w => .retire (setWarp s k ((scalOp f sorOp) w)) .next none id
  | .sxor => fun s k w => .retire (setWarp s k ((scalOp f sxorOp) w)) .next none id
  | .sshl => fun s k w => .retire (setWarp s k ((scalOp f sshlOp) w)) .next none id
  | .sshr => fun s k w => .retire (setWarp s k ((scalOp f sshrOp) w)) .next none id
  | .ssra => fun s k w => .retire (setWarp s k ((scalOp f ssraOp) w)) .next none id
  | .scmp => fun s k w => .retire (setWarp s k ((scalOp f (scmpOp f.ty f.fn.toNat)) w)) .next none id
  | .ssel => fun s k w => .retire (setWarp s k ((scalOp f sselOp) w)) .next none id
  | .smov => fun s k w => .retire (setWarp s k ((scalOp f smovOp) w)) .next none id
  | .vadd => fun s k w => .retire (setWarp s k ((fun w => elementwise w .vadd f (vaddOp f.ty)) w)) .next none id
  | .vsub => fun s k w => .retire (setWarp s k ((fun w => elementwise w .vsub f (vsubOp f.ty)) w)) .next none id
  | .vadds => fun s k w => .retire (setWarp s k ((fun w => elementwise w .vadds f (vaddsOp f.ty)) w)) .next none id
  | .vsubs => fun s k w => .retire (setWarp s k ((fun w => elementwise w .vsubs f (vsubsOp f.ty)) w)) .next none id
  | .vmul24 => fun s k w => .retire (setWarp s k ((fun w => elementwise w .vmul24 f (vmul24Op f.ty)) w)) .next none id
  | .vmad24 => fun s k w => .retire (setWarp s k ((fun w => elementwise w .vmad24 f (vmad24Op f.ty)) w)) .next none id
  | .vmul => fun s k w => .retire (setWarp s k ((fun w => elementwise w .vmul f (vmulOp f.ty)) w)) .next none id
  | .vmulh => fun s k w => .retire (setWarp s k ((fun w => elementwise w .vmulh f (vmulhOp f.ty)) w)) .next none id
  | .vmad => fun s k w => .retire (setWarp s k ((fun w => elementwise w .vmad f (vmadOp f.ty)) w)) .next none id
  | .vmin => fun s k w => .retire (setWarp s k ((fun w => elementwise w .vmin f (vminOp f.ty)) w)) .next none id
  | .vmax => fun s k w => .retire (setWarp s k ((fun w => elementwise w .vmax f (vmaxOp f.ty)) w)) .next none id
  | .vabs => fun s k w => .retire (setWarp s k ((fun w => elementwise w .vabs f (vabsOp f.ty)) w)) .next none id
  | .vand => fun s k w => .retire (setWarp s k ((fun w => elementwise w .vand f vandOp) w)) .next none id
  | .vor => fun s k w => .retire (setWarp s k ((fun w => elementwise w .vor f vorOp) w)) .next none id
  | .vxor => fun s k w => .retire (setWarp s k ((fun w => elementwise w .vxor f vxorOp) w)) .next none id
  | .vnot => fun s k w => .retire (setWarp s k ((fun w => elementwise w .vnot f (vnotOp f.ty)) w)) .next none id
  | .vshl => fun s k w => .retire (setWarp s k ((fun w => elementwise w .vshl f (vshlOp f.ty)) w)) .next none id
  | .vshr => fun s k w => .retire (setWarp s k ((fun w => elementwise w .vshr f (vshrOp f.ty)) w)) .next none id
  | .vsra => fun s k w => .retire (setWarp s k ((fun w => elementwise w .vsra f (vsraOp f.ty)) w)) .next none id
  | .vrot => fun s k w => .retire (setWarp s k ((fun w => elementwise w .vrot f (vrotOp f.ty)) w)) .next none id
  | .vbfe => fun s k w => .retire (setWarp s k ((bitFieldOp .vbfe f) w)) .next none id
  | .vbfi => fun s k w => .retire (setWarp s k ((bitFieldOp .vbfi f) w)) .next none id
  | .vpopc => fun s k w => .retire (setWarp s k ((fun w => elementwise w .vpopc f (vpopcOp f.ty)) w)) .next none id
  | .vclz => fun s k w => .retire (setWarp s k ((fun w => elementwise w .vclz f (vclzOp f.ty)) w)) .next none id
  | .vbrev => fun s k w => .retire (setWarp s k ((fun w => elementwise w .vbrev f (vbrevOp f.ty)) w)) .next none id
  | .vcmp => fun s k w => .retire (setWarp s k ((vcmpOp f) w)) .next none id
  | .vsel => fun s k w => .retire (setWarp s k ((vselOp f) w)) .next none id
  | .vmov => fun s k w => .retire (setWarp s k ((vmovOp f) w)) .next none id
  | .vmovBc => fun s k w => .retire (setWarp s k ((vmovBcOp f) w)) .next none id
  | .vfadd => fun s k w => .retire (setWarp s k ((fun w => elementwise w .vfadd f (vfaddOp f.ty f.mod.toNat)) w)) .next none id
  | .vfsub => fun s k w => .retire (setWarp s k ((fun w => elementwise w .vfsub f (vfsubOp f.ty f.mod.toNat)) w)) .next none id
  | .vfmul => fun s k w => .retire (setWarp s k ((fun w => elementwise w .vfmul f (vfmulOp f.ty f.mod.toNat)) w)) .next none id
  | .vffma => fun s k w => .retire (setWarp s k ((fun w => elementwise w .vffma f (vffmaOp f.ty f.mod.toNat)) w)) .next none id
  | .vfmin => fun s k w => .retire (setWarp s k ((fun w => elementwise w .vfmin f (vfminOp f.ty)) w)) .next none id
  | .vfmax => fun s k w => .retire (setWarp s k ((fun w => elementwise w .vfmax f (vfmaxOp f.ty)) w)) .next none id
  | .vfabs => fun s k w => .retire (setWarp s k ((fun w => elementwise w .vfabs f (vfabsOp f.ty)) w)) .next none id
  | .vfneg => fun s k w => .retire (setWarp s k ((fun w => elementwise w .vfneg f (vfnegOp f.ty)) w)) .next none id
  | .vfcmp => fun s k w => .retire (setWarp s k ((vfcmpOp f) w)) .next none id
  | .vfclass => fun s k w => .retire (setWarp s k ((fun w => elementwise w .vfclass f (vfclassOp f.ty)) w)) .next none id
  | .vfrnd => fun s k w => .retire (setWarp s k ((fun w => elementwise w .vfrnd f (vfrndOp f.ty f.mod.toNat)) w)) .next none id
  | .vfscale => fun s k w => .retire (setWarp s k ((vfscaleOp f) w)) .next none id
  | .vfdot2 => fun s k w => .retire (setWarp s k ((vfdot2Op f) w)) .next none id
  | .vcvt => fun s k w => .retire (setWarp s k ((vcvtOp f) w)) .next none id
  | .vbfpq => fun s k w => .retire (setWarp s k ((vbfpqOp f) w)) .next none id
  | .vbfpx => fun s k w => .retire (setWarp s k ((vbfpxOp f) w)) .next none id
  | .vshfl => fun s k w => .retire (setWarp s k ((vshflOp f) w)) .next none id
  | .vvote => fun s k w => .retire (setWarp s k ((vvoteOp f) w)) .next none id
  | .vvoteBallot => fun s k w => .retire (setWarp s k ((vvoteBallotOp f) w)) .next none id
  | .vrdc => fun s k w => .retire (setWarp s k ((vrdcOp f) w)) .next none id
  | .vscan => fun s k w => .retire (setWarp s k ((vscanOp f) w)) .next none id
  | .vbcast => fun s k w => .retire (setWarp s k ((vbcastOp f) w)) .next none id
  | .vbcastS => fun s k w => .retire (setWarp s k ((vbcastSOp f) w)) .next none id
  | .vmatch => fun s k w => .retire (setWarp s k ((vmatchOp f) w)) .next none id
  | .plop => fun s k w => .retire (setWarp s k ((plopOp f) w)) .next none id
  | .pmovPs => fun s k w => .retire (setWarp s k ((pmovPsOp f) w)) .next none id
  | .pmovSp => fun s k w => .retire (setWarp s k ((pmovSpOp f) w)) .next none id
  | .vld => loadBody .vld f
  | .vst => storeBody .vst f
  | .vlds => loadBody .vlds f
  | .vsts => storeBody .vsts f
  | .sld => loadBody .sld f
  | .sst => storeBody .sst f
  | .vprf => vprfBody f
  | .cctlInv => cctlInvBody f
  | .cctlInvall => cctlInvallBody f
  | .cctlEvict => cctlEvictBody f
  | .tlbiVa => tlbiVaBody f
  | .tlbiCtx => tlbiCtxBody f
  | .tlbiAll => tlbiAllBody f
  | .migrMove => migrMoveBody f
  | .migrSet => migrSetBody f
  | .migrQuery => migrQueryBody f
  | .atom => atomBody f
  | .pot => potBody f
  | .acq => acqBody f
  | .rel => relBody f
  | .fenceRel => fenceBody f false
  | .fenceSc => fenceBody f true
  | .barArr => barArrBody f
  | .barWait => barWaitBody f len
  | .barSync => barSyncBody f len
  | .barTest => barTestBody f
  | .tktWait => tktWaitBody f
  | .tktDone => tktDoneBody f
  | .pass => passBody f
  | .passTo => passToBody f
  | .turn => turnBody f
  | .fshootVa => fshootVaBody f len
  | .fshootCtx => fshootCtxBody f len
  | .mma => mmaBody f len
  | .accrd => accrdBody f
  | .accwr => accwrBody f
  | .accz => acczBody f
  | .cpslice => cpsliceBody f
  | .cploop => cploopBody f
  | .cpchain => cpchainBody f
  | .cpacc => cpaccBody f
  | .bfwait => bfwaitBody f
  | .bfrel => bfrelBody f
  | .vrcp => specialBody .vrcp f
  | .vrsq => specialBody .vrsq f
  | .vsqrt => specialBody .vsqrt f
  | .vexp2 => specialBody .vexp2 f
  | .vlog2 => specialBody .vlog2 f
  | .vsinpi => specialBody .vsinpi f
  | .vcospi => specialBody .vcospi f
  | .vtanh => specialBody .vtanh f
  | .vfdiv => specialBody .vfdiv f
  | .lxadd => lxArithBody .lxadd f
  | .lxsub => lxArithBody .lxsub f
  | .lxmul => lxArithBody .lxmul f
  | .lxdiv => lxArithBody .lxdiv f
  | .lxcmp => lxCmpBody f
  | .lxexp => lxArithBody .lxexp f
  | .lxlog => lxArithBody .lxlog f
  | .lxlvl => lxLvlBody f
  | .lxcvt => lxCvtBody f
  | .spawn => spawnBody f
  | .invoke => invokeBody f
  | .invokeh => invokehBody f
  | .fwait => fwaitBody f len
  | .fpoll => fpollBody f
  | .fref => frefBody f
  | .fdrop => fdropBody f
  | .fpin => fpinBody f
  | .fresVal => fresValBody f
  | .fresPlace => fresPlaceBody f
  | .fbreak => fbreakBody f
  | .savept => saveptBody f
  | .digest => digestBody f
  | .seed => seedBody f

end Sys2Proof.Machine
end

