-- ==== Sys2Proof/Machine/Place.lean ====
section
/-! DEFINITION. Placement (R24, R28, R32, R33, R295) and pre-emption (R103, R204, R299 to R302). -/

namespace Sys2Proof.Machine

/-! ## Cores (R24, R369) -/

/-- The groups resident on a core. -/
def onCore (s : State) (c n : Nat) : List (Nat × Group) := s.groups.filter fun e => e.2.chip == c && e.2.core == some n

def groupShape (s : State) (gk : Nat) : Option Shape := (getCard s gk).map fun c => c.shape

/-- The registers that stay free on a core with room for a group of a shape, after placing it. -/
def coreRoom (s : State) (c n : Nat) (x : Shape) : Option Nat :=
  let gs := onCore s c n
  let xs := x :: gs.filterMap fun e => groupShape s e.1
  let regs := (xs.map groupRegs).sum
  if gs.length + 1 ≤ 16 ∧ (xs.map groupWarps).sum ≤ 48 ∧ regs ≤ 131072 ∧ (xs.map fun y => y.gmem).sum ≤ 384 * 1024 then
    some (131072 - regs)
  else none

/-- The core with room that keeps the fewest free registers, the first on a tie (R295). -/
def bestCore (s : State) (c : Nat) (ns : List Nat) (x : Shape) : Option Nat :=
  (ns.foldl (fun (a : Option (Nat × Nat)) n => match coreRoom s c n x with
    | none => a
    | some r => match a with
      | none => some (n, r)
      | some b => if r < b.2 then some (n, r) else a) none).map (·.1)

/-! ## Chunks (R28) -/

/-- The chunk of group `i`, as its first index and the index after its last, from the chunk that starts at `st`. -/
def chunkOf (g c : Nat) : Nat → Nat → Nat → Nat × Nat
  | 0, st, _ => (st, st + 1)
  | n + 1, st, i =>
    let e := st + max 1 (ceilDiv (g - st) (2 * c))
    if i < e then (st, e) else chunkOf g c n e i

/-- The chunk that the next group of a batch card belongs to. -/
def nextChunk (x : Card) : Nat × Nat := chunkOf x.shape.groups x.shape.canon (x.next + 1) 0 x.next

/-! ## Starting a group (R32, R33) -/

/-- A warp as it starts; bits [1:0] of `%tvec` are zero (R88). -/
def newWarp (c : Card) (x : Ctx) (ident stage allot : Nat) (arg : Dword) (entry : Nat) : Warp :=
  { ident := ident, stage := stage, width := c.shape.width, quantum := c.shape.quantum, clock := c.origin
    frags := [{ id := 0, parent := 0, sibs := 0, lanes := fullMask c.shape.width, pc := c.entry, wait := none }], run := 0
    v := [], s := sput 0 [] 1 arg, p := [], j := [], shadow := [], allot := allot, fpstat := 0, lxstat := 0, mstat := 0, jstat := 0
    repidx := 0, mstep := 0, mpc := none, rep := none, sys := false, sec := x.sec, turn := x.turn, tvec := x.tvec &&& ~~~(3 : Dword), tcause := 0
    tpc := 0, tregion := 0, tfrag := 0, tsibs := 0, taddr := 0, tclock := 0, pending := false, region := none, outst := []
    pend := [], unconf := [], posted := [], held := none, hposted := [], hheld := none, late := [], hand := Hand.empty
    stat := if x.turn then .gate (ceilMark c.shape.quantum c.origin) (c.origin / c.shape.quantum * c.shape.quantum) else .ready
    runLen := 0, slot := none, entry := entry, haltReq := false, halted := false, preReq := false, turns := [(c.origin, ident)], passed := false, endClock := 0 }

/-- The stage and the allotment of each warp of a group, in warp-in-group order (R20). -/
def warpPlan (x : Shape) : List (Nat × Nat) :=
  ((x.warps.zip x.allots).zipIdx).flatMap fun e => List.replicate e.1.1 (e.2, e.1.2)

/-- A handle whose task has a started group is running (R306). -/
def markRunning (s : State) (p : Nat) (h : Dword) : State :=
  match findSlot s p h with
  | some (key, y) => if y.st = .pending then putSlot s key { y with st := .running } else s
  | none => s

/-- The free entries of a core's 48-entry warp table, lowest first (R78; log 57). -/
def freeEntries (s : State) (c n : Nat) : List Nat :=
  (List.range 48).filter fun i => s.warps.all fun e => warpCore s e.1 != some (c, n) || e.2.entry != i

/-- The core that takes a group holds no instructions of earlier ones (log 10). -/
def clearIcache (s : State) (c n : Nat) : State :=
  setChip s c (setCore (getChip s c) n { getCore (getChip s c) n with icache := [] })

/-- The lowest slot of a card's save area that none of its groups holds (R296). -/
def freeSlotAt (s : State) (ck : Nat) (c : Card) : Nat :=
  ((List.range c.slots).find? fun i => s.groups.all fun e => cardKey e.1 != ck || e.2.slotAt != i).getD 0

/-- Starts the next group of a card on a core. A batch entry's stride is used as it stands, a multiple of 8 or not (log 80). -/
def startGroup (s : State) (ck : Nat) (c : Card) (x : Ctx) (n : Nat) : State :=
  let p := partOf ck
  let gk := ck + c.next * 2 ^ 8
  let pt := getPart s p
  let plan := warpPlan c.shape
  let arg := if c.batch then c.arg + BitVec.ofNat 64 (c.next * c.stride) else c.arg
  let g : Group :=
    { chip := chipOf p, core := some n, order := pt.order, saved := false, slotAt := freeSlotAt s ck c, ask := none, gsize := c.shape.gmem, gmem := [], acc := [], bufs := []
      bars := [], poolCap := (plan.map (·.2)).sum, poolFree := 0, claims := [] }
  let free := freeEntries s (chipOf p) n
  let s := clearIcache { s with groups := kinsert s.groups gk g } (chipOf p) n
  let s := plan.zipIdx.foldl (fun s e =>
    setWarp s (gk + e.2) (newWarp c x (identOf (gk + e.2)) e.1.1 e.1.2 arg (free.getD e.2 0))) s
  let more := c.batch && decide (c.next + 1 < (nextChunk c).2)
  let s := setCard s ck { c with placed := true, began := if c.placed then c.began else pt.order, next := c.next + 1, chunkCore := if more then some n else none }
  markRunning (setPart s p { pt with order := pt.order + 1, svc := if c.chunkCore.isSome then pt.svc else c.mbox }) p c.handle

/-! ## What can be placed -/

/-- Work for the dealer: a saved group, or the next group of a card. -/
inductive Work where
  | saved (gk : Nat)
  | fresh (ck : Nat)
  deriving DecidableEq, Repr

def workCard : Work → Nat
  | .saved gk => cardKey gk
  | .fresh ck => ck

/-- A valid entry of a late-reply table of the saved group has not `LATE` set (R302). -/
def awaitsReply (s : State) (gk : Nat) : Bool := s.warps.any fun e => groupKey e.1 == gk && e.2.late.any fun x => !x.late

/-- Groups of the card that are ready to place and have not started. -/
def readyCount (s : State) (e : Nat × Card) : Nat :=
  if canStart s e then min (e.2.slots - startedGroups s e.1) (e.2.shape.groups - e.2.next) else 0

/-- A request to save a group is waiting. -/
def preAsked (s : State) (gk : Nat) : Bool := s.warps.any fun w => groupKey w.1 == gk && isLive w.2 && w.2.preReq

/-- A core is being vacated: a group on it has still to be saved, and no work takes it before (R299). -/
def vacating (s : State) (c n : Nat) : Bool := (onCore s c n).any fun e => preAsked s e.1

/-- The core for a piece of work: any of the partition that is not being vacated, and for the rest of a chunk the chunk's. -/
def workCore (s : State) (p : Nat) (w : Work) : Option Nat :=
  match kfind s.cards (workCard w) with
  | none => none
  | some c =>
    let ns := match w, c.chunkCore with
      | .fresh _, some n => [n]
      | _, _ => coresOf s p
    bestCore s (chipOf p) (ns.filter fun n => !vacating s (chipOf p) n) c.shape

/-- In free mode the core that a group returns to keeps no line older than the group's own stores (R210). -/
def freshL1 (s : State) (p c n : Nat) : State :=
  match (getPart s p).ctx with
  | some x => if x.turn then s else setChip s c (setCore (getChip s c) n { getCore (getChip s c) n with l1 := [] })
  | none => s

/-- A saved group returns to a core, its warps to free entries of the warp table (R300). -/
def replace (s : State) (gk c n : Nat) : State :=
  let free := freeEntries s c n
  let ws := (s.warps.filter fun e => groupKey e.1 == gk).map (·.1)
  let s := freshL1 (clearIcache (updGroup s gk fun g => { g with core := some n, saved := false }) c n) (partOf gk) c n
  ws.zipIdx.foldl (fun s e => updWarp s e.1 fun w => { w with entry := free.getD e.2 0, late := [] }) s

/-- Places a piece of work on a core. -/
def placeOn (s : State) (p : Nat) (w : Work) (n : Nat) : State :=
  match w with
  | .saved gk => replace s gk (chipOf p) n
  | .fresh ck => match kfind s.cards ck, (getPart s p).ctx with
    | some c, some x => startGroup s ck c x n
    | _, _ => s

/-- An invocation of the same sender to the same handle, sent before the one that created a card, has still to start (R324). -/
def sentBehind (s : State) (e : Nat × Card) : Bool :=
  match e.2.via with
  | none => false
  | some (h, t) => s.cards.any fun x => !x.2.placed && x.2.stop.isNone && match x.2.via with
    | some (h', u) => h' == h && u.2 == t.2 && decide (u.1 < t.1)
    | none => false

/-- The work of a priority level in the order of service: saved groups, the rest of chunks, then the mailboxes round-robin
after the one served last. -/
def levelWork (s : State) (p lvl : Nat) : List Work :=
  let cs := s.cards.filter fun e => partOf e.1 == p && e.2.prio == lvl
  let saved := s.groups.filter fun e => partOf e.1 == p && e.2.saved && cs.any (fun c => c.1 == cardKey e.1) && !awaitsReply s e.1
  let ready := cs.filter fun e => canStart s e && !sentBehind s e
  let (mid, new) := ready.partition fun e => e.2.chunkCore.isSome
  let svc := (getPart s p).svc
  saved.map (fun e => .saved e.1) ++ mid.map (fun e => .fresh e.1) ++
    (List.range 256).flatMap fun i => (new.filter fun e => e.2.mbox == (svc + 1 + i) % 256).map fun e => .fresh e.1

/-- All ready work of a partition, highest level first. -/
def readyWork (s : State) (p : Nat) : List Work := (List.range 16).flatMap fun i => levelWork s p (15 - i)

/-- Places the first piece of ready work that has room (R295). -/
def placeNext (s : State) (p : Nat) : State :=
  match (readyWork s p).findSome? fun w => (workCore s p w).map fun n => (w, n) with
  | some (w, n) => placeOn s p w n
  | none => s

/-! ## Saving a group (R103, R300) -/

/-- A run boundary, or a boundary between repetitions, at user privilege, or the pending point of a trap (R93, R103). -/
def atBoundary (w : Warp) : Bool :=
  (w.slot.isNone || (w.rep.isSome && decide (1 ≤ w.repidx))) && (!w.sys || w.pending)

/-- A warp can be stopped now: at a point of R103; not inside an `MMA`, an `FSHOOT` or a debugger halt. -/
def canSave (w : Warp) : Bool :=
  !isLive w || (atBoundary w && !w.halted && match w.stat with
    | .mma .. | .fshoot .. => false
    | _ => true)

/-- Writes the oldest results that wait for no reply; `n` bounds their number. -/
def writeAll (s : State) (k : Nat) : Nat → State
  | 0 => s
  | n + 1 =>
    match getWarp s k with
    | none => s
    | some w => if w.pend.any (fun x => !pendWaits x) then writeAll (writeResult s k) k n else s

/-- Confirms unconfirmed accesses up to the first that faults; `n` bounds their number. -/
def confirmOk (s : State) (k : Nat) : Nat → State
  | 0 => s
  | n + 1 =>
    match getWarp s k with
    | none => s
    | some w => match w.unconf with
      | [] => s
      | u :: _ => if u.fault.isSome then s else confirmOk (confirmLoad s k) k n

/-- The late-reply table of a warp's slot: an entry for each result that waits for another chip (R302). -/
def lateTable (w : Warp) : List Late :=
  ((flightPends w).filter pendWaits).map fun x => { reg := x.regs.headD 0, late := false }

/-- A warp's results and posted stores are written before it is saved, but for replies from another chip; its run is over. -/
def readyWarp (s : State) (k : Nat) : State :=
  match getWarp s k with
  | none => s
  | some w =>
    let s := confirmOk s k w.unconf.length
    let s := writeAll s k (w.pend.length + w.unconf.length)
    let s := updWarp (drainAll s k) k fun w => { w with preReq := false, slot := none, runLen := 0, late := lateTable w }
    freeSlot s k

/-- The physical address of the slot that a group holds in its card's save area (R296, R297). -/
def slotPa (x : Ctx) (c : Card) (g : Group) : Nat := x.pool + c.areaAt + g.slotAt * slotBytes c.shape

/-- The bytes of a saved group's slot: the record of the group and its warps in a layout that the spec does not give (R296, R300), so
each byte is a free value (log 77). Nothing is written where the partition may not reach (R369) or to a secure byte of another
world, which is reported (R377). -/
def writeSlot (s : State) (gk : Nat) (g : Group) : State :=
  match (getPart s (partOf gk)).ctx, getCard s gk with
  | some x, some c =>
    let p := partOf gk
    let pa := slotPa x c g
    let n := slotBytes c.shape
    if !mayReach s p pa || !mayReach s p (pa + n - 1) then s
    else match closedByte s p pa n with
      | some a => reportAt s (chipOf p) a
      | none =>
        let key := physKey (chipOf p) pa
        let i := s.freeCtr
        sliceTouches { s with mem := wrSpan s.mem key n (Sys2Proof.Config.freeSaved i), freeCtr := i + 1 } true 0
          ((List.range (n / lineSize)).map fun j => key + lineSize * j)
  | _, _ => s

/-- Saves a group, whose warps and copies allow it, into its slot; what it holds stands in the records of the group and its warps until
it is placed again. -/
def saveGroup (s : State) (gk : Nat) : State :=
  match getGroup s gk with
  | none => s
  | some g =>
    let ws := s.warps.filter fun e => groupKey e.1 == gk && isLive e.2
    let s := ws.foldl (fun s e => readyWarp s e.1) s
    let s := match g.core with
      | none => s
      | some n =>
        let co := getCore (getChip s g.chip) n
        setChip s g.chip (setCore (getChip s g.chip) n { co with
          accHolder := if co.accHolder = some gk then none else co.accHolder, scores := kerase co.scores gk })
    writeSlot (updGroup s gk fun g => { g with core := none, saved := true, ask := none }) gk g

/-- Every warp of a resident group can be stopped and every copy of it has finished writing. -/
def groupSavable (s : State) (e : Nat × Group) : Bool :=
  e.2.core.isSome && !groupDead s e.1 && !copiesBusy e.2 && s.warps.all fun w => groupKey w.1 != e.1 || canSave w.2

/-- Saves the groups of a chip that were asked for and can be saved now. -/
def honourPre (s : State) (c : Nat) : State :=
  (s.groups.filter fun e => e.2.chip == c && preAsked s e.1 && groupSavable s e).foldl (fun s e => saveGroup s e.1) s

/-- Asks for every group on cores of a chip to be saved. -/
def askCores (s : State) (c : Nat) (ns : List Nat) (a : Ask) : State :=
  ns.foldl (fun s n => (onCore s c n).foldl (fun s e =>
    { updGroup s e.1 (fun g => { g with ask := some a }) with warps := s.warps.map fun w => if groupKey w.1 = e.1 ∧ isLive w.2 then (w.1, { w.2 with preReq := true }) else w }) s) s

/-! ## Which cores (R299) -/

/-- The priority of a group's card. -/
def groupPrio (s : State) (gk : Nat) : Nat := match getCard s gk with | some c => c.prio | none => 0

/-- A core's place in the order of vacating: its highest priority, the start of its oldest group, its number. -/
def coreRank (s : State) (c n : Nat) : List Nat :=
  let gs := onCore s c n
  [gs.foldl (fun a e => max a (groupPrio s e.1)) 0, (gs.map fun e => e.2.order).foldl min (2 ^ 64), n]

/-- Enters a core in that order. -/
def insertCore (s : State) (c n : Nat) : List Nat → List Nat
  | [] => [n]
  | m :: r => if coreRank s c n < coreRank s c m then n :: m :: r else m :: insertCore s c n r

def sortCores (s : State) (c : Nat) (ns : List Nat) : List Nat := ns.foldr (insertCore s c) []

/-- A core holds a group, and no request to vacate it is waiting. -/
def vacatable (s : State) (c n : Nat) : Bool := !(onCore s c n).isEmpty && !vacating s c n

/-- Cores of a partition that already wait to be vacated for the same work. -/
def askedCores (s : State) (p : Nat) (a : Ask) : Nat :=
  ((coresOf s p).filter fun n => (onCore s (chipOf p) n).any fun e => preAsked s e.1 && e.2.ask == some a).length

/-- A piece of work that any core with room can take: not the rest of a chunk that has its core. -/
def anyCore (s : State) (w : Work) : Bool :=
  match w with
  | .saved _ => true
  | .fresh ck => match kfind s.cards ck with | some c => c.chunkCore.isNone | none => false

/-- How many groups a list of work holds. -/
def workCount (s : State) (ws : List Work) : Nat :=
  (ws.map fun w => match w with
    | .saved _ => 1
    | .fresh ck => match kfind s.cards ck with | some x => readyCount s (ck, x) | none => 0).sum

/-- Row 1: the cores that ready groups of a level take from groups below it. -/
def prioCores (s : State) (p lvl : Nat) : List Nat :=
  let c := chipOf p
  let ready := (levelWork s p lvl).filter fun w => anyCore s w && (workCore s p w).isNone
  let below := (coresOf s p).filter fun m => vacatable s c m && (onCore s c m).all fun e => decide (groupPrio s e.1 < lvl)
  (sortCores s c below).take (workCount s ready - askedCores s p (.prio lvl))

/-- The least counted stamp of a domain. -/
def leastItem (s : State) (d : Nat) : Option Stamp :=
  (floorItems s d).foldl (fun a e => match a with
    | none => some e.1
    | some t => if stampLt e.1 t then some e.1 else a) none

/-- The work of least stamp. -/
def leastWork (l : List (Stamp × Work)) : Option Work :=
  (l.foldl (fun (a : Option (Stamp × Work)) x => match a with
    | none => some x
    | some y => if stampLt x.1 y.1 then some x else a) none).map (·.2)

/-- The warps of the saved groups of a partition that can be placed, each with its stamp and its group. -/
def savedWarps (s : State) (p : Nat) (sel : Nat × Warp → Bool) : List (Stamp × Work) :=
  s.warps.filterMap fun e =>
    if partOf e.1 == p && isLive e.2 && !isParked e.2 && inSaved s e.1 && !awaitsReply s (groupKey e.1) && sel e then
      some ((countClock e.2, identOf e.1), Work.saved (groupKey e.1))
    else none

/-- The unplaced group for which R204 makes room: of those that hold the floor, the one of least stamp; where it holds the floor that a
group stands there which has no slot yet (R298), the saved group of least stamp that can go on. -/
def floorWork (s : State) (p : Nat) : Option Work :=
  let d := domOf s p
  match floor s d with
  | none => none
  | some f =>
    let fresh := s.cards.filterMap fun e =>
      if partOf e.1 == p && canStart s e && !sentBehind s e && e.2.origin == f then some ((f, identOf e.1 + e.2.next * 2 ^ 8), Work.fresh e.1) else none
    (leastWork (savedWarps s p (fun e => countClock e.2 == f) ++ fresh)).or
      (if s.cards.any fun e => inDom s d (partOf e.1) && e.2.stop.isNone && decide (e.2.next < e.2.shape.groups) &&
          decide (e.2.slots ≤ startedGroups s e.1) && countOrigin s e == some f then
        leastWork (savedWarps s p fun e => !stuck s d e)
      else none)

/-- Row 3: the core that the group that holds the floor takes, and that group. -/
def floorCores (s : State) (p : Nat) : Option (Work × Nat) :=
  let d := domOf s p
  let c := chipOf p
  match (getPart s p).ctx, floorWork s p with
  | some x, some w =>
    if !x.turn || (workCore s p w).isSome || askedCores s p .floor != 0 || !noneRetires s d then none
    else
      let idle (n : Nat) : Bool := (onCore s c n).all fun e => s.warps.all fun v =>
        groupKey v.1 != e.1 || !isLive v.2 || isParked v.2 || gateAbove s d v.2
      let ns := (coresOf s p).filter (vacatable s c)
      ((sortCores s c (ns.filter idle) ++ sortCores s c (ns.filter fun n => !idle n)).head?).map fun n => (w, n)
  | _, _ => none

/-- The card of a priority that has run longest among those resident in a partition, but for one card. -/
def longestCard (s : State) (p prio ck : Nat) : Option Nat :=
  ((s.cards.filter fun e => partOf e.1 == p && e.2.prio == prio && e.1 != ck &&
    s.groups.any fun g => cardKey g.1 == e.1 && g.2.core.isSome).foldl (fun (a : Option (Nat × Nat)) e => match a with
      | none => some (e.1, e.2.began)
      | some b => if e.2.began < b.2 then some (e.1, e.2.began) else a) none).map (·.1)

/-- Row 2: the cores that a waiting card takes from the longest-running card of its priority. -/
def waitCores (s : State) (ck : Nat) : List Nat :=
  let p := partOf ck
  let c := chipOf p
  match kfind s.cards ck with
  | none => []
  | some x =>
    let ready := (levelWork s p x.prio).filter fun w => workCard w == ck && anyCore s w && (workCore s p w).isNone
    match longestCard s p x.prio ck with
    | none => []
    | some b =>
      let own := (coresOf s p).filter fun m => vacatable s c m && (onCore s c m).any fun e => cardKey e.1 == b
      (sortCores s c own).take (workCount s ready - askedCores s p (.wait ck))

/-- Vacates cores: their groups are saved now or as soon as R103 allows, and waiting work is placed. -/
def vacate (s : State) (c : Nat) (ns : List Nat) (a : Ask) : State := honourPre (askCores s c ns a) c

/-- Places as much work as there are cores. -/
def placeMany (s : State) (p : Nat) (ns : List Nat) : State := ns.foldl (fun s _ => placeNext s p) s

/-- The cores that a pre-emption of a partition vacates now, what for, and the group that holds the floor when it is for that. -/
def spatialCores (s : State) (p : Nat) : Option (List Nat × Ask × Option Work) :=
  match floorCores s p with
  | some (w, n) => some ([n], .floor, some w)
  | none => ((List.range 16).findSome? fun i =>
      match prioCores s p (15 - i) with
      | [] => none
      | ns => some (ns, .prio (15 - i), none))

/-- The dealer vacates cores that R299 or R204 names. A group that holds the floor takes the vacated core at once. -/
def spatial (s : State) (c : Nat) (ns : List Nat) : State :=
  match (List.range 8).findSome? fun i => match spatialCores s (c * 8 + i) with
      | some (xs, a, w) => if xs = ns then some (c * 8 + i, a, w) else none
      | none => none with
  | none => s
  | some (p, a, w) =>
    let s := vacate s c ns a
    match w, ns with
    | some (.fresh ck), [n] =>
      let s := updCard s ck fun x => { x with chunkCore := if x.chunkCore.isSome then some n else none }
      if (onCore s c n).isEmpty then placeOn s p (.fresh ck) n else s
    | some x, [n] => if (onCore s c n).isEmpty then placeOn s p x n else s
    | _, _ => placeMany s p ns

/-- A card has waited for 2 ms beside a resident card of its priority. -/
def waitExpiry (s : State) (ck : Nat) : State :=
  let p := partOf ck
  match waitCores s ck with
  | [] => s
  | ns => placeMany (vacate s (chipOf p) ns (.wait ck)) p ns

/-- System software names the cores; of those that an earlier request has named, none is asked again (R301). -/
def systemPreempt (s : State) (c : Nat) (ns : List Nat) : State :=
  let ns := ns.filter fun n => (onCore s c n).all fun e => !preAsked s e.1
  let s := vacate s c ns .system
  (List.range 8).foldl (fun s i => placeMany s (c * 8 + i) (ns.filter fun n => (coresOf s (c * 8 + i)).contains n)) s

/-- In turn mode the cards whose origin the floor has reached take their handle slots (R378). -/
def settleTurn (s : State) (p : Nat) : State :=
  match (getPart s p).ctx with
  | some x => if x.turn then settleHandles s (domOf s p) else s
  | none => s

/-- The dealer gives handle slots, saves what was asked for, then places one piece of work. -/
def placement (s : State) (p : Nat) : State := placeNext (honourPre (settleTurn s p) (chipOf p)) p

/-! ## The events -/

/-- Event. The dealer places a ready group or batch chunk on a core with room. (R295) -/
def execGroupPlacement (part : Nat) (s : State) : Out := .next (placement s part)

/-- Event. The dealer vacates k cores, saving their groups, and places waiting work. (R299) -/
def execSpatialPreemption (chip : Nat) (cores : (List Nat)) (s : State) : Out := .next (spatial s chip cores)

/-- Event. A card waiting 2 ms beside a resident card of equal priority triggers pre-emption. (R299) -/
def execPreemptionWaitExpiry (card : Nat) (s : State) : Out := .next (waitExpiry s card)

/-- Event. System software asks the dealer, through the system controller, to vacate the cores it names. (R299) -/
def execSystemPreemptionRequest (chip : Nat) (cores : (List Nat)) (s : State) : Out := .next (systemPreempt s chip cores)

end Sys2Proof.Machine
end

