-- ==== Sys2Proof/Machine/Grant.lean ====
section
/-! DEFINITION. The acts of the sequencer's slots and of the turn unit: arbitration (R72, R77, R78, R37), debugger halts (R104),
round gates (R186), the grants of turns (R193, R195), card end turns (R316), merges of publications (R185), and the
completions that an instruction in flight waits for (R74, R97, R158, R166, R232, R258, R336, R347, R350). -/

namespace Sys2Proof.Machine

/-! ## What a warp issues next -/

/-- The warp's group is on a core, and neither a debugger nor a waiting pre-emption holds the warp. -/
def mayIssue (s : State) (k : Nat) (w : Warp) : Bool :=
  (match getGroup s k with | some g => g.core.isSome | none => false) && !w.halted && !(w.preReq && (!w.sys || w.pending))

/-! ## Arbitration (R72, R77, R78) -/

/-- What the next issue of a warp comes to, on an issue slot of its core. -/
def tried (s : State) (k : Nat) (w : Warp) (slot : Nat) : State :=
  let w := { w with stat := .ready, slot := some slot, runLen := 0 }
  let s := { setWarp s k w with cur := some k }
  match fetchAt s (siteOf s k) (codeMark w) w.sec (fetchPc w), nextOp s k w with
  | .ok _ len, some (o, f, n) => issueAt o f n (bodyOf o f n) (fillFrom s (siteOf s k) (codeMark w) (fetchPc w) len) k w
  | _, _ => s

/-- The warp's next instruction waits. -/
def waiting (s : State) (k : Nat) : Bool :=
  match getWarp s k with
  | some w => w.stat == .stalled || w.stat == .turnWait
  | none => false

/-- The warp stands on a core, holds no slot, and may issue. -/
def idleOn (s : State) (c n : Nat) (e : Nat × Warp) : Bool :=
  (e.2.stat == .ready || e.2.stat == .stalled) && e.2.slot.isNone && warpCore s e.1 == some (c, n) && mayIssue s e.1 e.2

/-- A warp is ready when its next instruction can issue (R77); one that finds it waiting leaves what the attempt settled. -/
def refresh (slot : Nat) (s : State) (k : Nat) : State :=
  match getWarp s k with
  | none => s
  | some w =>
    let t := tried s k w slot
    if waiting t k then { t with cur := s.cur }
    else if w.stat == .stalled then setWarp s k { w with stat := .ready }
    else s

/-- The ready warps of a core that hold no slot. -/
def readyWarps (s : State) (c n : Nat) : List (Nat × Warp) := s.warps.filter fun e => e.2.stat == .ready && idleOn s c n e

/-- Opcodes for which a throttled warp does not win a slot (R78). -/
def throttled (m : Nat) : Bool :=
  (decide (0x54 ≤ m) && decide (m ≤ 0x5A)) || (decide (0x5E ≤ m) && decide (m ≤ 0x66)) || (decide (0x6D ≤ m) && decide (m ≤ 0x70))

/-- One of the next `n` instructions from an address is throttled: read as the cache or memory holds them, up to the first that does
not fetch or decode (log 96). -/
def throttledAhead (s : State) (z : Site) (sec : Bool) : Nat → Dword → Bool
  | 0, _ => false
  | n + 1, pc =>
    match fetchAt s z none sec pc with
    | .ok i len => (match i.core with | some x => throttled x.1.form.maj | none => false) ||
        throttledAhead s z sec n (pc + BitVec.ofNat 64 len)
    | _ => false

/-- The lowest warp-table entry of a group's warps. -/
def groupEntry (s : State) (gk : Nat) : Nat :=
  (s.warps.filter fun e => groupKey e.1 == gk).foldl (fun a e => min a e.2.entry) 48

/-- The group of the core that is never barred: the lowest score, and on a tie the lower warp-table position. -/
def leastScored (s : State) (c n : Nat) : Option Nat :=
  let co := getCore (getChip s c) n
  ((onCore s c n).foldl (fun (a : Option (Nat × Nat × Nat)) e =>
    let x := sget 0 co.scores e.1
    let i := groupEntry s e.1
    match a with
    | none => some (e.1, x, i)
    | some b => if x < b.2.1 ∨ (x = b.2.1 ∧ i < b.2.2) then some (e.1, x, i) else a) none).map (·.1)

def barred (s : State) (c n gk : Nat) : Bool :=
  decide (64 < sget 0 (getCore (getChip s c) n).scores gk) && leastScored s c n != some gk

/-- In free mode a ready warp may win unless its group is barred and it has not lost 64 arbitrations (R37). -/
def mayWin (s : State) (c n : Nat) (e : Nat × Warp) : Bool :=
  decide (64 ≤ sget 0 (getCore (getChip s c) n).lost e.1) || !barred s c n (groupKey e.1) ||
    !throttledAhead s (siteOf s e.1) e.2.sec 24 (curPc e.2)

/-- Of two warps, the one that the round-robin order reaches first after the warp-table entry `rr`. -/
def rrFirst (rr : Nat) (a b : Nat × Warp) : Nat × Warp :=
  let turn (e : Nat × Warp) : Nat := (e.2.entry + 47 - rr) % 48
  if turn b < turn a then b else a

/-- The first of some warps in the round-robin order. -/
def rrNext (rr : Nat) : List (Nat × Warp) → Option (Nat × Warp)
  | [] => none
  | e :: l => some (l.foldl (rrFirst rr) e)

/-- The winner of a core: in turn mode the lowest stamp; in free mode a warp that has lost 64 times, else the next in the
round-robin order of the warp table. -/
def winner (s : State) (c n : Nat) : Option Nat :=
  let ws := readyWarps s c n
  let low := (ws.filter fun e => e.2.turn).foldl (fun (a : Option (Nat × Warp)) e => match a with
    | none => some e
    | some b => if stampLt (stampOf e.1 e.2) (stampOf b.1 b.2) then some e else a) none
  match low with
  | some e => some e.1
  | none =>
    let co := getCore (getChip s c) n
    let can := ws.filter (mayWin s c n)
    ((rrNext co.rr (can.filter fun e => decide (64 ≤ sget 0 co.lost e.1))).or (rrNext co.rr can)).map (·.1)

/-- A free-mode warp of a stopped card stands at a run boundary on the core (R320). -/
def boundaryStop (s : State) (c n : Nat) (e : Nat × Warp) : Bool :=
  !e.2.turn && e.2.slot.isNone && (e.2.stat == .ready || e.2.stat == .stalled) &&
    (match getCard s e.1 with | some x => x.stop.isSome | none => false) &&
    warpCore s e.1 == some (c, n)

/-- A free-mode warp stops with its card (R320). -/
def stopFree (s : State) (e : Nat × Warp) : State :=
  let t : Stamp := (e.2.clock, identOf e.1)
  sweepCard (stopWarp s e.1 (nextMark e.2.quantum e.2.clock) t) (cardKey e.1)

/-- The issue slots of a core that no run holds, lowest first (R72). -/
def freeSlots (s : State) (c n : Nat) : List Nat :=
  (List.range 4).filter fun q => s.warps.all fun e => e.2.slot != some q || warpCore s e.1 != some (c, n)

/-- One arbitration: a free slot of a core takes its winner, whose run follows those already won (log 1); every other ready warp has
lost, also where each is barred and none wins (R37, R78). -/
def fillSlot (s : State) (c n : Nat) : State :=
  match freeSlots s c n with
  | [] => s
  | q :: _ =>
    let s := ((s.warps.filter fun e => idleOn s c n e).map (·.1)).foldl (refresh q) s
    let co := getCore (getChip s c) n
    let win := winner s c n
    let lost := (readyWarps s c n).foldl (fun (m : KMap Nat) e =>
      if win = some e.1 then m else sput 0 m e.1 (sget 0 co.lost e.1 + 1)) []
    match win with
    | none => setChip s c (setCore (getChip s c) n { co with lost := lost })
    | some k =>
      let rr := match getWarp s k with | some w => w.entry | none => co.rr
      let s := setChip s c (setCore (getChip s c) n { co with rr := rr, lost := lost })
      updWarp { s with cur := s.cur.or (some k), runs := s.runs ++ [k] } k fun w => { w with slot := some q, runLen := 0 }

/-- Every free slot of a core takes a ready warp; free-mode warps of stopped cards that stand at a run boundary stop first. -/
def arbitrate (s : State) (c n : Nat) : State :=
  let s := (s.warps.filter fun e => boundaryStop s c n e).foldl stopFree s
  (List.range 4).foldl (fun s _ => fillSlot s c n) s

/-- Every score of a core is halved. -/
def halveScores (s : State) (c n : Nat) : State :=
  let co := getCore (getChip s c) n
  setChip s c (setCore (getChip s c) n { co with
    scores := (co.scores.map fun e => (e.1, e.2 / 2)).filter fun e => e.2 != 0 })

/-! ## Debugger (R103, R104) -/

/-- A halt is honoured at a run boundary at user privilege, between repetitions (R93), or with a trap pending, else at the
next. -/
def debugHalt (s : State) (k : Nat) : State :=
  match getWarp s k with
  | none => s
  | some w =>
    if !isLive w || w.halted then s
    else if atBoundary w then
      freeSlot (updWarp s k fun w => { w with halted := true, haltReq := false, slot := none, runLen := 0 }) k
    else updWarp s k fun w => { w with haltReq := true }

/-- The warp goes on, and a waiting pre-emption is honoured at once. -/
def debugResume (s : State) (k : Nat) : State :=
  match getWarp s k with
  | none => s
  | some w => if w.halted then honourPre (updWarp s k fun w => { w with halted := false }) (chipOf (partOf k)) else s

/-! ## Gates and turns -/

/-- The gate of a mark opens once the floor has reached it, as the beacons show too, and the copies below it have staged their
writes (R186, R203, R345). -/
def gateOpen (s : State) (k : Nat) : State :=
  match getWarp s k with
  | none => s
  | some w => match w.stat with
    | .gate _ m =>
      let d := domOf s (partOf k)
      if floorGe s d m && copiesStaged s d m && beaconsProve s (chipOf (partOf k)) d (m, 0) && mayIssue s k w then updWarp s k fun w => { w with stat := .ready } else s
    | _ => s

/-- A warp whose card-ending fault has the least stamp: the card is stopped there, and the warp (R35). -/
def finishDying (s : State) (k : Nat) (w : Warp) : State :=
  match w.stat with
  | .dying cause kind c =>
    sweepCard (stopWarp (stopCard s (cardKey k) (c, identOf k) cause kind 2) k (nextMark w.quantum c) (c, identOf k)) (cardKey k)
  | _ => s

/-- A warp waits for a domain turn that is the least, or to end its card. -/
def leastWarp (s : State) (d : Nat) (e : Nat × Warp) : Bool :=
  inDom s d (partOf e.1) && leastInDom s (chipOf (partOf e.1)) d (some e.1) (countClock e.2, identOf e.1) && match e.2.stat with
    | .turnWait => mayIssue s e.1 e.2 && nextTurn s e.1 e.2 == .domain
    | .dying .. => true
    | _ => false

/-- The end of a group that has the least stamp, whose ticket words are still to advance (R223). -/
def leastDue (s : State) (d : Nat) : Option (Nat × Stamp × Nat) :=
  s.cards.findSome? fun e =>
    if inDom s d (partOf e.1) && e.2.stop.isNone then
      (e.2.due.find? fun x => leastInDom s (chipOf (partOf e.1)) d none x.1).map fun x => (e.1, x.1, x.2)
    else none

/-- A publication with the least stamp that has reached a registered ticket word (R223). -/
def leastTouched (s : State) (d : Nat) : Option (Nat × Stamp × Nat) :=
  s.cards.findSome? fun e =>
    if inDom s d (partOf e.1) then
      (e.2.touched.find? fun x => leastInDom s (chipOf (partOf e.1)) d none x.1).map fun x => (e.1, x.1, x.2)
    else none

/-- A card whose save area is exhausted and whose stop has the least stamp (R298). -/
def leastDoomed (s : State) (d : Nat) : Option (Nat × Stamp) :=
  s.cards.findSome? fun e =>
    match e.2.doomed with
    | some m => if inDom s d (partOf e.1) && e.2.stop.isNone && leastInDom s (chipOf (partOf e.1)) d none (exhaustStamp m) then some (e.1, exhaustStamp m) else none
    | none => none

/-- The domain's least turn is granted: the advances of a ticket word that a publication has reached, a card's end turn, the ticket
words of an ended group, the end of a card by a fault, or a waiting warp's turn, which then performs as the warp issues. -/
def domainGrant (s : State) (p : Nat) : State :=
  let d := domOf s p
  match leastTouched s d with
  | some (ck, t, key) => tktTouched s ck t key
  | none =>
  match s.cards.find? fun e => inDom s d (partOf e.1) && e.2.stop.isNone && allEnded e.2 && !e.2.endTurn &&
      leastInDom s (chipOf (partOf e.1)) d none (endStamp e.2) with
  | some e => cardEndTurn s e.1
  | none =>
    match leastDoomed s d with
    | some (ck, t) => stopCard s ck t 0 0 3
    | none =>
    match leastDue s d with
    | some (ck, t, g) => tktGroupEnd s ck g true t
    | none =>
      match s.warps.find? (leastWarp s d) with
      | some (k, w) => (match w.stat with
        | .turnWait => updWarp s k fun w => { w with stat := .ready }
        | _ => finishDying s k w)
      | none => s

/-- The least group turn of a group is granted. -/
def groupGrant (s : State) (gk : Nat) : State :=
  match s.warps.find? fun e => groupKey e.1 == gk && e.2.stat == .turnWait && mayIssue s e.1 e.2 &&
      nextTurn s e.1 e.2 == .group && leastInGroup s e.1 (stampOf e.1 e.2) with
  | some (k, _) => updWarp s k fun w => { w with stat := .ready }
  | none => s

/-! ## Merges (R185) -/

/-- The least clock of a started copy of the domain whose writes to global memory are still to be published (R184). -/
def copyBound (s : State) (d : Nat) : Option Nat :=
  (s.groups.filter fun e => inDom s d (partOf e.1)).foldl (fun a e => e.2.bufs.foldl (fun (a : Option Nat) b => match b.2.copy with
    | some c => if c.mw.isEmpty then a else some (min (a.getD c.stamp.1) c.stamp.1)
    | none => a) a) none

/-- The clock below which no warp, present or to come, reads an older image of the domain, and no publication is still to come;
`none` when there is no such bound. -/
def mergeBound (s : State) (d : Nat) : Option Nat :=
  let f := floor s d
  let ws := s.warps.filter fun e => inDom s d (partOf e.1) && isLive e.2
  let work := !ws.isEmpty || s.created.any (fun c => inDom s d c.target) ||
    s.cards.any fun e => inDom s d (partOf e.1) && e.2.stop.isNone && e.2.next < e.2.shape.groups
  let asked := (domParts s d).flatMap fun p => (getPart s p).save.reqs.map fun r => r.mark
  let base := match f with
    | some x => if work then some (x / 2 ^ 16 * 2 ^ 16) else some x
    | none => if work then some 0 else none
  (asked ++ (copyBound s d).toList).foldl (fun a m => match a with
    | none => some m
    | some x => some (min x m)) base

/-- Publications that nothing reads around any more are applied to memory in stamp order. -/
def mergePubs (s : State) (p : Nat) : State :=
  let d := domOf s p
  let below (x : Pub) : Bool := x.dom == d && match mergeBound s d with
    | none => true
    | some m => stampLt x.stamp (m, 0)
  { s with mem := (s.pubs.filter below).foldl applyPub s.mem, pubs := s.pubs.filter fun x => !below x }

/-! ## Completions -/

def postedPerform (s : State) (k : Nat) : State :=
  match getWarp s k with
  | none => s
  | some w => if canPost w then performPosted s k else s

/-- A reply arrives; the lines that came from a replicated page are kept by the chip (R338). -/
def remoteReply (s : State) (k : Nat) : State :=
  match getWarp s k with
  | none => s
  | some w =>
    match (servedPend w).bind (·.remote) with
    | none => s
    | some r =>
      let p := partOf k
      replyRemote (r.srcs.foldl (fun s e => keepReplica s (chipOf p) (ctxNum s p) e) s) k

/-- A page walk of a partition of the chip completes. -/
def walkDone (s : State) (c p va : Nat) : State := if chipOf p = c then install s (partSite p) va else s

/-! ## The events -/

/-- Event. A free issue slot takes a ready warp by stamp in turn mode or round-robin with throttling in free mode. (R77) -/
def execRunArbitration (chip : Nat) (die : Nat) (core : Nat) (s : State) : Out := .next (arbitrate s chip (die * 24 + core))

/-- Event. Every 1,024 cycles every group's locality score is halved. (R78) -/
def execLocalityScoreHalving (chip : Nat) (die : Nat) (core : Nat) (s : State) : Out := .next (halveScores s chip (die * 24 + core))

/-- Event. A load, atomic, unit or handle result returns and is written to its register. (R75) -/
def execOutstandingResultWrite (warp : Nat) (s : State) : Out := .next (writeResult s warp)

/-- Event. An unconfirmed load's translation completes, letting issue continue or reporting a fault. (R97) -/
def execLoadConfirmation (warp : Nat) (s : State) : Out := .next (confirmLoad s warp)

/-- Event. A free-mode posted store completes translation and performs at its home slice or is held on a fault. (R166) -/
def execPostedStorePerform (warp : Nat) (s : State) : Out := .next (postedPerform s warp)

/-- Event. A debugger halt is honoured at the next run boundary or trap pending point. (R104) -/
def execDebuggerHalt (warp : Nat) (s : State) : Out := .next (debugHalt s warp)

/-- Event. The debugger resumes a halted warp, honouring any pending pre-emption. (R104) -/
def execDebuggerResume (warp : Nat) (s : State) : Out := .next (debugResume s warp)

/-- Event. A warp waiting at a round gate resumes once the floor reaches the mark, retrying waits by passing. (R186) -/
def execRoundGateOpen (warp : Nat) (s : State) : Out := .next (gateOpen s warp)

/-- Event. A domain turn whose stamp is least performs, after publishing the hand. (R193) -/
def execDomainTurnGrant (part : Nat) (s : State) : Out := .next (domainGrant s part)

/-- Event. A group turn whose stamp is least in its group performs on group memory. (R195) -/
def execGroupTurnGrant (group : Nat) (s : State) : Out := .next (groupGrant s group)

/-- Event. Slices apply publications to memory in stamp order once no live warp can read an older image. (R185) -/
def execPublicationMerge (part : Nat) (s : State) : Out := .next (mergePubs s part)

/-- Event. A copy finishes, setting its entry full or free and waking in-place waiters. (R232) -/
def execCopyCompletion (group : Nat) (buf : Nat) (s : State) : Out := .next (completeCopy s group buf)

/-- Event. A page walk completes, installing a translation or faulting every joined access. (R158) -/
def execPageWalkCompletion (chip : Nat) (part : Nat) (va : Nat) (s : State) : Out := .next (walkDone s chip part va)

/-- Event. A forwarded access arrives at the home chip and is served at its home slice. (R336) -/
def execRemoteRequest (warp : Nat) (s : State) : Out := .next (serveRemote s warp)

/-- Event. A reply from another chip is written to the warp's register, its saved slot, or discarded. (R347) -/
def execRemoteReply (warp : Nat) (s : State) : Out := .next (remoteReply s warp)

/-- Event. A chip's acknowledgement of an FSHOOT arrives; the last one retires it. (R350) -/
def execFshootAcknowledgement (warp : Nat) (chip : Nat) (s : State) : Out := .next (shootAck s warp chip)

/-- Event. An FSHOOT retires 1 ms after issue with the mask of silent chips. (R350) -/
def execFshootTimeout (warp : Nat) (s : State) : Out := .next (shootTimeout s warp)

/-- Event. An MMA retires once its last K-step and the writes of c have reached the accumulator store, adding its weight and clearing %mrow.STEP. (R258) -/
def execMmaRetirement (warp : Nat) (s : State) : Out := .next (mmaRetire s warp)

end Sys2Proof.Machine
end

