-- ==== Sys2Proof/Machine/Host.lean ====
section
/-! DEFINITION. The host interface (R4, R280, R367 to R373, R377): command interfaces and every command, host registers,
window B, and device reset. -/

namespace Sys2Proof.Machine

/-! ## Command interfaces (R370) -/

/-- What a command comes to: the state, whether it failed, its result, and new argument dwords. -/
structure CmdOut where
  s : State
  err : Bool
  result : Nat
  args : Option (List Nat)
  deriving DecidableEq, Repr

/-- A command that succeeds without a result. -/
def cmdOk (s : State) : CmdOut := { s := s, err := false, result := 0, args := none }
/-- A command that fails with a code and changes nothing. -/
def cmdFail (s : State) (code : Nat) : CmdOut := { s := s, err := true, result := code, args := none }
/-- A command that returns argument dwords. -/
def cmdArgs (s : State) (l : List Nat) : CmdOut := { s := s, err := false, result := 0, args := some l }

/-- An interface whose command has started. -/
def startIf (c : CmdIf) (op : Nat) (r : CmdOut) : CmdIf :=
  let args := match r.args with
    | some l => l.zipIdx.foldl (fun m e => sput 0 m e.2 (BitVec.ofNat 64 e.1)) c.args
    | none => c.args
  { c with args := args, done := false, err := false, busy := true, op := op, outcome := (r.err, BitVec.ofNat 32 r.result) }

def argOf (c : CmdIf) (i : Nat) : Nat := (sget (0 : Dword) c.args i).toNat

/-- The host writes `CMD` of a partition's interface; the command acts on the arguments as they stand, and reports when it
finishes. A write while one is running is discarded. -/
def partCmd (s : State) (p op : Nat) (eff : (Nat → Nat) → State → CmdOut) : State :=
  let c := (getPart s p).cmd
  if c.busy then s
  else
    let r := eff (argOf c) s
    setPart r.s p { getPart r.s p with cmd := startIf (getPart r.s p).cmd op r }

/-- The same for the system interface of a chip. -/
def sysCmd (s : State) (chip op : Nat) (eff : (Nat → Nat) → State → CmdOut) : State :=
  let c := (getChip s chip).sysIf
  if c.busy then s
  else
    let r := eff (argOf c) s
    setChip r.s chip { getChip r.s chip with sysIf := startIf c op r }

def finishIf (c : CmdIf) : CmdIf := { c with busy := false, inval := none, done := true, err := c.outcome.1, result := c.outcome.2 }

/-- A running invalidation finishes once every access that one of its translations translated has performed (R170, R371). -/
def invalWaits (s : State) (p : Nat) : Bool :=
  match (getPart s p).cmd.inval with
  | some (form, ctx, va) => xlatInUse s (chipOf p) (invalHit form ctx va)
  | none => false

/-- The translations that a finished invalidation has removed. -/
def invalDone (s : State) (p : Nat) : State :=
  match (getPart s p).cmd.inval with
  | some (form, ctx, va) => dropTlb s (chipOf p) (invalHit form ctx va)
  | none => s

/-- The running command of an interface finishes: an invalidation when it may, a fault-queue command opening the ring (R372). -/
def commandDone (s : State) (chip : Nat) (iface : Option Nat) : State :=
  match iface with
  | some i =>
    let p := chip * 8 + i
    if invalWaits s p then s else
    let s := invalDone s p
    let pt := getPart s p
    if pt.cmd.busy then
      setPart s p { pt with
        cmd := finishIf pt.cmd, fq := if pt.cmd.op = 4 ∧ pt.cmd.outcome.1 = false then { pt.fq with set := true } else pt.fq }
    else s
  | none =>
    let ch := getChip s chip
    if ch.sysIf.busy then setChip s chip { ch with sysIf := finishIf ch.sysIf } else s

/-- R371 lists the command, in the place where it is written. -/
def listedCmd (iface : Option Nat) (op : Nat) : Bool :=
  match iface with
  | some _ => decide (1 ≤ op) && decide (op ≤ 0x0C)
  | none => decide (0x10 ≤ op) && decide (op ≤ 0x12)

/-- A command that is unlisted or in the wrong place. A listed one out of its limits fails by itself. -/
def invalidCmd (s : State) (chip : Nat) (iface : Option Nat) (op : Nat) : State :=
  if listedCmd iface op then s
  else match iface with
  | some i => partCmd s (chip * 8 + i) op fun _ s => cmdFail s 0xFF
  | none => sysCmd s chip op fun _ s => cmdFail s 0xFF

/-! ## Contexts (R280, R373) -/

/-- The bits of each dword of a context descriptor that have a meaning. -/
def descMask (i : Nat) : Nat :=
  match i with
  | 0 => 2 ^ 18 - 1
  | 1 => 2 ^ 52 - 2 ^ 20
  | 2 => 2 ^ 52 - 2 ^ 12
  | 3 => 2 ^ 13 - 1
  | 4 => 2 ^ 64 - 1
  | 5 => 2 ^ 52 - 2 ^ 6
  | 6 => 2 ^ 32 - 1
  | 7 => 2 ^ 52 - 2 ^ 12
  | 8 => 2 ^ 32 - 1
  | 9 => 3
  | 10 => 2 ^ 11 - 1
  | 12 | 13 | 14 | 15 => 2 ^ 64 - 1
  | _ => 0

/-- A partition may reach a physical range (R369). -/
def inPart (s : State) (p pa n : Nat) : Bool :=
  decide (pa + n ≤ deviceSize) && mayReach s p pa && mayReach s p (pa + n - 1)

/-- The engines that serve a command of a partition read `n` bytes of device memory, with the tag of the request (R377): the home
slices serve them, unless the partition may not reach them (R369) or a byte is closed to that world, which is reported. -/
def engineRead (s : State) (p : Nat) (sec : Bool) (pa n : Nat) : Bool × State :=
  let c := chipOf p
  if !inPart s p pa n then (false, s)
  else match (if sec then none else ((List.range n).map (pa + ·)).find? (isSecure s c)) with
    | some a => (false, reportAt s c a)
    | none => (true, sliceTouches s false 0 ((List.range n).map (physKey c pa + ·)))

/-- The state after the engines read a descriptor. -/
def descRead (s : State) (p : Nat) (sec : Bool) (pa : Nat) : Bool × State :=
  if pa % 256 ≠ 0 ∨ partDies s p = [] then (false, s) else engineRead s p sec pa 256

/-- The context and `MBOPEN` of a descriptor, unless it is rejected. -/
def readDescriptor (s : State) (p : Nat) (sec : Bool) (pa : Nat) : Option (Ctx × Nat) :=
  if !(descRead s p sec pa).1 then none
  else
    let d (i : Nat) : Nat := rdNat s.mem (physKey (chipOf p) (pa + 8 * i)) 8
    if (List.range 32).all (fun i => d i &&& descMask i == d i) && decide (d 3 ≤ 4096) && decide (1 ≤ d 6) then
      some ({ sec := (d 0).testBit 17, turn := (d 0).testBit 16, num := d 0 % 2 ^ 16, root := d 1, rtab := d 2, rcount := d 3
              tvec := BitVec.ofNat 64 (d 4), admrec := d 5, admlen := d 6, pool := d 7, poollen := d 8, repro := d 9
              msibase := d 10 }, rdNat s.mem (physKey (chipOf p) (pa + 0x60)) 32)
    else none

/-- An open mailbox at creation. -/
def Mbox.opened : Mbox := { Mbox.closedBox with closed := false }

/-- What stays of a save point in capture when its context ends: no manifest, but the copied units in the spare regions. Its digest
is none that a chain could name. -/
def unfinished (c : Capture) : SavePoint :=
  { num := 0, mark := c.req.mark, mbox := c.req.mbox, full := c.full, digest := [], prev := [], shape := 0, image := c.image
    units := c.units, manifest := [], dealt := c.dealt }

/-- The save-point engines for a new context: earlier save points and the spare regions stay. -/
def nextSave (sv : Save) : Save :=
  let points := sv.points ++ (sv.cap.map unfinished).toList
  { Save.reset with points := points, old := points.length, drain := sv.drain, drainAt := sv.drainAt, spare := sv.spare }

/-- Create context: code 4, 1 or 2, or the context with its open mailboxes. The map must hold the partition
(R373, log 75). -/
def createContext (s : State) (p : Nat) (monitor : Bool) (arg : Nat → Nat) : CmdOut :=
  let pt := getPart s p
  if pt.ctx.isSome then cmdFail s 4
  else
    let sec := monitor && (getChip s (chipOf p)).monitor
    let seen := (descRead s p sec (arg 0)).2
    match readDescriptor s p sec (arg 0) with
    | none => cmdFail seen 1
    | some (x, open_) =>
      if x.sec && !sec then cmdFail seen 2
      else
        let boxes := ((List.range 256).filter fun b => open_.testBit b).map fun b => (b, Mbox.opened)
        cmdOk (setPart seen p { Part.reset with ctx := some x, mboxes := boxes, cmd := pt.cmd, fq := pt.fq, save := nextSave pt.save })

/-- The translations that the dies of a partition hold are removed (R157). -/
def dropPartTlb (s : State) (p : Nat) : State :=
  let ds := partDies s p
  let ch := getChip s (chipOf p)
  setChip s (chipOf p) { ch with
    dieTlb := ds.foldl kerase ch.dieTlb, walks := ds.foldl kerase ch.walks
    cores := (ch.cores.map fun e => if ds.contains (e.1 / 24) then (e.1, { e.2 with tlb := [] }) else e).filter
      fun e => decide (e.2 ≠ Core.reset) }

/-- A partition reset (R373): its warps stop at once, nothing is recorded, its handle slots are free, saved groups are
discarded, its mailboxes closed and its translations dropped. Memory, with what was published to it, and the spare regions stay.
The other chips of an island hear nothing more of it. -/
def resetPart (s : State) (p : Nat) : State :=
  let d := domOf s p
  let c := chipOf p
  let s := dropPartTlb s p
  let gs := s.groups.filter fun e => partOf e.1 == p
  let s := gs.foldl (fun s e => match e.2.core with
    | none => s
    | some n =>
      let co := getCore (getChip s c) n
      setChip s c (setCore (getChip s c) n { co with
        accHolder := if co.accHolder = some e.1 then none else co.accHolder, scores := kerase co.scores e.1 })) s
  let out (k : Nat) : Bool := partOf k != p
  let alone := domParts s d == [p]
  let own := s.pubs.filter fun x => x.dom == d
  let s := { s with
    cards := s.cards.filter fun e => out e.1
    groups := s.groups.filter fun e => out e.1
    warps := s.warps.filter fun e => out e.1
    slots := s.slots.filter fun e => e.1 / 2 ^ 19 != p
    created := s.created.filter fun x => x.target != p
    cur := match s.cur with | some k => if out k then some k else none | none => none
    runs := s.runs.filter out
    mem := if alone then own.foldl applyPub s.mem else s.mem
    pubs := if alone then s.pubs.filter fun x => x.dom != d else s.pubs }
  let pt := getPart s p
  setPart s p { Part.reset with silent := (getChip s c).fxEn, cmd := pt.cmd, fq := pt.fq, save := nextSave pt.save }

/-! ## Partition commands (R371) -/

/-- Invalidate, as `TLBI`: it runs until every access that a removed translation translated has performed (R170). -/
def invalidateCmd (p : Nat) (arg : Nat → Nat) (s : State) : CmdOut :=
  if 3 ≤ arg 2 then cmdFail s 0xFF
  else
    let pt := getPart s p
    cmdOk (setPart s p { pt with cmd := { pt.cmd with inval := some (arg 2, arg 1 % 2 ^ 16, arg 0) } })

/-- Fault queue: the ring's address and size, head and tail 0. -/
def faultQueueCmd (p : Nat) (arg : Nat → Nat) (s : State) : CmdOut :=
  let n := arg 1
  if arg 0 % 4096 ≠ 0 ∨ ((List.range 11).any fun i => n == 2 ^ (6 + i)) = false then cmdFail s 0xFF
  else
    let pt := getPart s p
    cmdOk (setPart s p { pt with fq := { pt.fq with base := arg 0, entries := n, head := 0, tail := 0 } })

def saveFullCmd (p : Nat) (s : State) : CmdOut :=
  let pt := getPart s p
  cmdOk (setPart s p { pt with save := { pt.save with full := true } })

/-- A chip of the island other than a chip itself has the index. -/
def isPeer (s : State) (c i : Nat) : Bool :=
  let ch := getChip s c
  ch.fxEn && decide (i ≤ ch.isize.toNat) && i != ch.index.toNat && (chipOfIndex s i).isSome

/-- Drain target: a host address, or with bit 63 a peer chip of the island. -/
def drainTargetCmd (p : Nat) (arg : Nat → Nat) (s : State) : CmdOut :=
  let pt := getPart s p
  let t := if 2 ^ 63 ≤ arg 0 then 2 ^ 63 + arg 0 % 16 else arg 0
  if 2 ^ 63 ≤ arg 0 ∧ (arg 0 ≠ t ∨ isPeer s (chipOf p) (arg 0 % 16) = false) then cmdFail s 0xFF
  else cmdOk (setPart s p { pt with save := { pt.save with drain := some (t, arg 1), drainAt := 0 } })

/-- Restore: the numbers stand as dwords in device memory. A refusal reports the failing number, and keeps the stack whose shard
failed (R358, log 90). -/
def restoreCmd (p : Nat) (arg : Nat → Nat) (s : State) : CmdOut :=
  let (ok, s) := if arg 1 = 0 then (false, s) else engineRead s p (ctxSec s p) (arg 0) (8 * arg 1)
  if !ok then cmdFail s 0xFF
  else match verifyChain s p ((List.range (arg 1)).map fun i => rdNat s.mem (physKey (chipOf p) (arg 0 + 8 * i)) 8) none with
    | .error (n, k) =>
      let pt := getPart s p
      cmdFail (setPart s p { pt with save := { pt.save with failed := some (n, k) } }) n
    | .ok (some y) => cmdOk (restoreTo s p y)
    | .ok none => cmdFail s 0xFF

/-- Replay record: the entries to compare with. -/
def replayCmd (p : Nat) (arg : Nat → Nat) (s : State) : CmdOut :=
  let (ok, s) := if arg 1 = 0 then (true, s) else engineRead s p (ctxSec s p) (arg 0) (32 * arg 1)
  if ok then
    let pt := getPart s p
    let rs := (List.range (arg 1)).map fun i => rdBytes s.mem (physKey (chipOf p) (arg 0 + 32 * i)) 32
    cmdOk (setPart s p { pt with save := { pt.save with record := rs, differs := none } })
  else cmdFail s 0xFF

/-- Four dwords of 32 bytes. -/
def fourDwords (b : List Byte) : List Nat := (List.range 4).map fun i => leNat ((b.drop (8 * i)).take 8)

def readHashCmd (p : Nat) (arg : Nat → Nat) (s : State) : CmdOut :=
  if 256 ≤ arg 0 then cmdFail s 0xFF else cmdArgs s (fourDwords (getMbox s p (arg 0)).hash)

/-- `SLCSTAT` (R177). -/
def slcWord (x : Slice) : Nat := x.ret.toNat * 2 ^ 31 + x.thresh.toNat * 2 ^ 16 + x.ceCount.toNat

/-- Enters an error record and signals the vector of the partition that owns the die (R372, R376). -/
def logError (s : State) (c : Nat) (r : ErrRec) : State :=
  let ch := getChip s c
  let s := setChip s c { ch with errLog := ch.errLog ++ [r] }
  match (List.range 8).find? fun i => (partDies s (c * 8 + i)).contains r.die && (getPart s (c * 8 + i)).ctx.isSome with
  | some i => signal s c (msiBase s (c * 8 + i) + 257)
  | none => s

/-- The slice's count has changed: it begins to retire at its threshold, unless 8 of its die are retired
or on their way to it (R176, log 83). Then the error is logged; address, syndrome and a time that the act does not give are free
values (R376, log 78). -/
def checkRetire (s : State) (c die slice : Nat) (time : Option Nat) : State :=
  let ch := getChip s c
  let x := getSlice ch die slice
  let gone := ((List.range 24).filter fun i => let y := getSlice ch die i; y.ret || y.retiring).length
  if x.thresh = 0 ∨ x.ceCount.toNat < x.thresh.toNat ∨ x.ret ∨ x.retiring then s
  else if 8 ≤ gone then
    let i := s.freeCtr
    logError { s with freeCtr := i + 2 } c
      { elem := 1, die := die, unit := slice, sev := 0, ctx := 0, addr := (Sys2Proof.Config.freeBeat i).toNat
        time := time.getD (Sys2Proof.Config.freeTime i).toNat, synd := (Sys2Proof.Config.freeBeat (i + 1)).toNat }
  else setChip s c (setSlice ch die slice { x with retiring := true })

/-- Slice register: a die of the partition. -/
def sliceCmd (p : Nat) (arg : Nat → Nat) (s : State) : CmdOut :=
  let c := chipOf p
  let die := arg 0 / 2 ^ 8 % 8
  let slice := arg 0 % 32
  if 24 ≤ slice ∨ (partDies s p).contains die = false then cmdFail s 0xFF
  else
    let ch := getChip s c
    let x := getSlice ch die slice
    let s := if arg 2 % 2 = 1 then
        let s := setChip s c (setSlice ch die slice { x with
          thresh := BitVec.ofNat 8 (arg 1 / 2 ^ 16), ceCount := BitVec.ofNat 16 (arg 1) })
        if BitVec.ofNat 16 (arg 1) = x.ceCount then s else checkRetire s c die slice none
      else s
    cmdArgs s [slcWord (getSlice (getChip s c) die slice)]

/-- The dwords of an error record (R376). -/
def errWords (r : ErrRec) : List Nat :=
  [r.elem * 2 ^ 56 + r.die * 2 ^ 52 + r.unit * 2 ^ 44 + r.sev * 2 ^ 40 + r.ctx, r.addr, r.time, r.synd]

def errorLogCmd (p : Nat) (s : State) : CmdOut :=
  let ch := getChip s (chipOf p)
  match ch.errLog with
  | [] => cmdOk s
  | r :: rest => { s := setChip s (chipOf p) { ch with errLog := rest }, err := false, result := rest.length, args := some (errWords r) }

/-! ## System commands -/

/-- Byte `p` of a partition map, as its dies. -/
def mapDies (m p : Nat) : List Nat :=
  let b := m / 256 ^ p % 256
  if b / 128 = 1 then (List.range (2 ^ (b / 16 % 8))).map fun i => b % 16 + i else []

/-- Valid partitions are aligned powers of two of dies and do not overlap (R369). -/
def mapOk (m : Nat) : Bool :=
  (List.range 8).all (fun p =>
    let b := m / 256 ^ p % 256
    decide (b / 128 = 0) || (decide (b / 16 % 8 ≤ 3) && b % 16 % 2 ^ (b / 16 % 8) == 0 && decide (b % 16 + 2 ^ (b / 16 % 8) ≤ 8))) &&
  (List.range 8).all fun p => (List.range 8).all fun q => p == q || (mapDies m p).all fun d => !(mapDies m q).contains d

/-- Partition map: refused with 3 while a context exists. -/
def partitionMapCmd (c : Nat) (arg : Nat → Nat) (s : State) : CmdOut :=
  if !mapOk (arg 0) then cmdFail s 0xFF
  else if (List.range 8).any fun i => (getPart s (c * 8 + i)).ctx.isSome then cmdFail s 3
  else cmdOk (setChip s c { getChip s c with pmap := BitVec.ofNat 64 (arg 0) })

/-- `FXCFG` and `FXPEER`p (R334). -/
def fxcfgWord (ch : Chip) : Nat := ch.fxEn.toNat * 2 ^ 31 + ch.isize.toNat * 2 ^ 16 + ch.index.toNat * 2 ^ 8
def fxpeerWord (s : State) (c i : Nat) : Nat :=
  let ch := getChip s c
  let x := getPeer ch i
  let far := i != ch.index.toNat && decide (i ≤ ch.isize.toNat)
  (far && directUp s c i).toNat * 2 ^ 15 + (detours s c i).toNat * 2 ^ 14 + x.rv.toNat * 2 ^ 13 + x.relay.toNat * 2 ^ 8 + x.port.toNat

/-- Fabric register: `FXCFG` and the `PORT` fields do not change while `EN` = 1; there is no port 15 (R330). -/
def fabricCmd (c : Nat) (arg : Nat → Nat) (s : State) : CmdOut :=
  let ch := getChip s c
  let v := arg 1
  let wr := arg 2 % 2 = 1
  match arg 0 with
  | 0 =>
    let ch := if wr ∧ ch.fxEn = false then
        { ch with fxEn := v.testBit 31, isize := BitVec.ofNat 4 (v / 2 ^ 16), index := BitVec.ofNat 4 (v / 2 ^ 8) }
      else ch
    cmdArgs (setChip s c ch) [fxcfgWord ch]
  | n + 1 =>
    if 16 ≤ n ∨ (wr ∧ ch.fxEn = false ∧ v % 16 = 15) then cmdFail s 0xFF
    else
      let x := getPeer ch n
      let x := if wr then
          { rv := v.testBit 13, relay := BitVec.ofNat 4 (v / 2 ^ 8), port := if ch.fxEn then x.port else BitVec.ofNat 4 v }
        else x
      let s := failover (setChip s c { ch with peers := sput Peer.reset ch.peers n x }) c x.port.toNat
      cmdArgs s [fxpeerWord s c n]

/-- Enable map. -/
def enableCmd (c : Nat) (s : State) : CmdOut :=
  cmdArgs s ((List.range 4).map fun i => (getChip s c).enabled.toNat / 2 ^ (64 * i) % 2 ^ 64)

/-! ## Registers and window B (R4, R368, R372, R377) -/

/-- A write of `STAT` clears `ERR` and `DONE` where it holds 1. -/
def clearStat (c : CmdIf) (v : Dword) : CmdIf := { c with err := c.err && !v.getLsbD 2, done := c.done && !v.getLsbD 1 }

/-- Changes the command interface of a chip that a register belongs to. -/
def updIf (s : State) (chip : Nat) (iface : Option Nat) (f : CmdIf → CmdIf) : State :=
  match iface with
  | some i =>
    let pt := getPart s (chip * 8 + i)
    setPart s (chip * 8 + i) { pt with cmd := f pt.cmd }
  | none =>
    let ch := getChip s chip
    setChip s chip { ch with sysIf := f ch.sysIf }

/-- A write to a host register under its access codes; region registers are written by the secure monitor alone, once it has
started; the host resizes window B. -/
def registerWrite (s : State) (chip : Nat) (reg : HostReg) (v : Dword) : State :=
  match reg with
  | .arg iface i => if i < 4 then updIf s chip iface fun c => { c with args := sput 0 c.args i v } else s
  | .stat iface => updIf s chip iface fun c => clearStat c v
  | .fqHead i =>
    let pt := getPart s (chip * 8 + i)
    setPart s (chip * 8 + i) { pt with fq := { pt.fq with head := v } }
  | .region i =>
    let ch := getChip s chip
    if i < 64 ∧ ch.monitor then
      setChip s chip { ch with regions := sput 0 ch.regions i (v &&& ~~~(BitVec.ofNat 64 (3 * 2 ^ 60))) }
    else s
  | .barSize n => if n ≤ 10 then setChip s chip { getChip s chip with barSize := n } else s
  | .reserved _ => s

/-- Writing the tail's value back with bit 63 set clears the overflow mark (R372). -/
def tailWrite (s : State) (p : Nat) (v : Dword) : State :=
  let pt := getPart s p
  if v.getLsbD 63 && v == pt.fq.tail then setPart s p { pt with fq := { pt.fq with tail := pt.fq.tail &&& ~~~(BitVec.ofNat 64 (2 ^ 63)) } } else s

/-- The physical address of an offset in window B of the physical function, as far as its size reaches (log 89), or of a
virtual one. -/
def windowB (s : State) (chip : Nat) (vf : Option Nat) (off : Nat) : Option Nat :=
  match vf with
  | none => if off < deviceSize ∧ off < 2 ^ (30 + (getChip s chip).barSize) then some off else none
  | some i =>
    match stacksOf s (chip * 8 + i) with
    | [] => none
    | k :: r => if off < (r.length + 1) * 0xC00000000 then some (k * 0xC00000000 + off) else none

/-- An access through window B: bytes outside memory and secure bytes are neither read nor written, and an access to a
secure byte is reported. -/
def windowBAccess (s : State) (chip : Nat) (vf : Option Nat) (off len : Nat) (data : Option (List Byte)) : State :=
  let as := (List.range len).filterMap fun i => (windowB s chip vf (off + i)).map fun a => (i, a)
  let s' := match as.find? fun e => isSecure s chip e.2 with
    | some e => reportAt s chip e.2
    | none => s
  match data with
  | none => sliceTouches s' false 0 ((as.filter fun e => !isSecure s chip e.2).map fun e => physKey chip e.2)
  | some b =>
    let s' := sliceTouches s' true 0 ((as.filter fun e => !isSecure s chip e.2).map fun e => physKey chip e.2)
    { s' with mem := as.foldl (fun m e => match b[e.1]? with
        | some x => if isSecure s chip e.2 then m else wrByte m (physKey chip e.2) x
        | none => m) s'.mem }

/-- What a read of `len` bytes through window B returns: zero outside memory and for secure bytes. -/
def windowBRead (s : State) (chip : Nat) (vf : Option Nat) (off len : Nat) : List Byte :=
  (List.range len).map fun i => match windowB s chip vf (off + i) with
    | some a => if isSecure s chip a then 0 else rdByte s.mem (physKey chip a)
    | none => 0

/-! ## Window A (R281, R282, R368, R370, R372) -/

/-- What an offset in window A names: a mailbox's write window, `MBSTAT`, dword `i` of a command interface, the tail or head of a
fault queue, or nothing. -/
inductive RefA where
  | mailbox (part mbox off : Nat)
  | mbstat (part mbox : Nat)
  | iface (n : Option Nat) (i : Nat)
  | tail (part : Nat)
  | head (part : Nat)
  | reserved
  deriving DecidableEq, Repr

/-- An offset in the slice of a partition. -/
def sliceRef (chip i o : Nat) : RefA :=
  let p := chip * 8 + i
  if o < 0x100000 then .mailbox p (o / 0x1000) (o % 0x1000)
  else if o < 0x100800 then .mbstat p ((o - 0x100000) / 8)
  else if o < 0x100830 then .iface (some i) ((o - 0x100800) / 8)
  else if o / 8 = 0x100840 / 8 then .tail p
  else if o / 8 = 0x100848 / 8 then .head p
  else .reserved

/-- An offset in window A of the physical function, or of virtual function `vf`, which maps one partition's slice. -/
def refA (chip : Nat) (vf : Option Nat) (off : Nat) : RefA :=
  match vf with
  | some i => if off < 0x400000 then sliceRef chip i off else .reserved
  | none =>
    if off < 0x2000000 then sliceRef chip (off / 0x400000) (off % 0x400000)
    else if 0x2000800 ≤ off ∧ off < 0x2000830 then .iface none ((off - 0x2000800) / 8)
    else .reserved

/-- `STAT` (R370). -/
def statWord (c : CmdIf) : Nat := c.result.toNat * 2 ^ 32 + c.err.toNat * 4 + c.done.toNat * 2 + c.busy.toNat

/-- What a read of dword `i` of a command interface returns: `ARG0` to `ARG3`, `CMD` as zero, `STAT`. -/
def ifaceRead (c : CmdIf) (i : Nat) : Dword :=
  if i < 4 then sget 0 c.args i else if i = 5 then BitVec.ofNat 64 (statWord c) else 0

/-- What a read of the dword that holds an offset of window A returns. -/
def readA (s : State) (chip : Nat) (vf : Option Nat) (off : Nat) : Dword :=
  match refA chip vf off with
  | .mailbox _ _ _ => 0
  | .mbstat p b => mbStat (getMbox s p b)
  | .iface (some i) n => ifaceRead (getPart s (chip * 8 + i)).cmd n
  | .iface none n => ifaceRead (getChip s chip).sysIf n
  | .tail p => (getPart s p).fq.tail
  | .head p => (getPart s p).fq.head
  | .reserved => 0

/-! ## Device reset (R373) -/

/-- Every partition of the chip is as after reset, its memory and spare regions are zero, and the chip is at reset; which
cores are enabled is fixed at manufacture (R11), the flash and the fuses keep what they hold, and the secure monitor starts when
the firmware has the fused digest. -/
def deviceReset (s : State) (c : Nat) : State :=
  let ps := (List.range 8).map fun i => c * 8 + i
  let s := ps.foldl resetPart s
  let away (k : Nat) : Bool := k / keyBase != c
  let s := { s with
    mem := s.mem.filter fun e => away e.1
    pubs := s.pubs.filterMap fun x => match x.body with
      | .bytes b =>
        let b := b.filter fun e => away e.1
        if b.isEmpty then none else some { x with body := .bytes b }
      | .pot key _ _ _ => if away key then some x else none
    parts := s.parts.filter fun e => chipOf e.1 != c
    created := s.created.filter fun x => chipOf x.home != c
    forwards := s.forwards.filter fun f => away f.old && away f.new
    markers := s.markers.filter fun m => m.1 != c && away m.2 }
  let ch := getChip s c
  setChip s c { Chip.reset with enabled := ch.enabled, flash := ch.flash, fuse := ch.fuse, monitor := sha256 ch.flash == ch.fuse }

/-! ## The events -/

/-- Event. Power good starts firmware load, memory and SRAM clearing, and link bring-up. (R373) -/
def execDeviceReset (chip : Nat) (s : State) : Out := .next (deviceReset s chip)

/-- Event. A host read or write of device memory through window B. (R368) -/
def execHostWindowBAccess (chip : Nat) (vf : (Option Nat)) (off : Nat) (len : Nat) (data : (Option (List Byte))) (s : State) : Out := .next (windowBAccess s chip vf off len data)

/-- Event. A host write of the tail register with bit 63 clears the overflow mark. (R372) -/
def execFaultQueueTailWrite (part : Nat) (value : Dword) (s : State) : Out := .next (tailWrite s part value)

/-- Event. A write to a register without behaviour of its own, under its access codes. (R4) -/
def execRegisterWrite (chip : Nat) (reg : HostReg) (value : Dword) (s : State) : Out := .next (registerWrite s chip reg value)

/-- Event. Reads and checks a context descriptor and opens its mailboxes. (R280) -/
def execCreateContext (part : Nat) (monitor : Bool) (s : State) : Out := .next (partCmd s part 1 fun arg s => createContext s part monitor arg)

/-- Event. Destroys the context as a partition reset keeping memory. (R371) -/
def execDestroyContext (part : Nat) (s : State) : Out := .next (partCmd s part 2 fun _ s => cmdOk (resetPart s part))

/-- Event. Host-requested translation invalidation as TLBI. (R371) -/
def execInvalidate (part : Nat) (s : State) : Out := .next (partCmd s part 3 (invalidateCmd part))

/-- Event. Sets the system fault queue ring address and size and resets head and tail. (R371) -/
def execFaultQueue (part : Nat) (s : State) : Out := .next (partCmd s part 4 (faultQueueCmd part))

/-- Event. Marks the next save point full. (R371) -/
def execSaveFull (part : Nat) (s : State) : Out := .next (partCmd s part 5 fun _ s => saveFullCmd part s)

/-- Event. Names the host buffer or peer chip for spare-region draining. (R371) -/
def execDrainTarget (part : Nat) (s : State) : Out := .next (partCmd s part 6 (drainTargetCmd part))

/-- Event. Verifies a manifest chain and restores memory and dealer state to its last mark. (R358) -/
def execRestore (part : Nat) (s : State) : Out := .next (partCmd s part 7 (restoreCmd part))

/-- Event. Loads a recorded admission record for comparison during replay. (R359) -/
def execReplayRecord (part : Nat) (s : State) : Out := .next (partCmd s part 8 (replayCmd part))

/-- Event. Returns a mailbox's running hash. (R371) -/
def execReadHash (part : Nat) (s : State) : Out := .next (partCmd s part 9 (readHashCmd part))

/-- Event. Returns the admission record's write position. (R371) -/
def execAdmissionPosition (part : Nat) (s : State) : Out := .next (partCmd s part 10 fun _ s => cmdArgs s [(getPart s part).admPos])

/-- Event. Reads or writes a slice's SLCSTAT. (R371) -/
def execSliceRegister (part : Nat) (s : State) : Out := .next (partCmd s part 11 (sliceCmd part))

/-- Event. Returns the oldest unread error record and the count left. (R371) -/
def execErrorLog (part : Nat) (s : State) : Out := .next (partCmd s part 12 fun _ s => errorLogCmd part s)

/-- Event. Sets the partition map, refused while a context exists. (R371) -/
def execPartitionMap (chip : Nat) (s : State) : Out := .next (sysCmd s chip 0x10 (partitionMapCmd chip))

/-- Event. Reads or writes FXCFG or an FXPEER register. (R334) -/
def execFabricRegister (chip : Nat) (s : State) : Out := .next (sysCmd s chip 0x11 (fabricCmd chip))

/-- Event. Returns the map of enabled cores. (R371) -/
def execEnableMap (chip : Nat) (s : State) : Out := .next (sysCmd s chip 0x12 fun _ s => enableCmd chip s)

/-- Event. An unlisted, misplaced or out-of-limit command sets ERR with RESULT 0xFF. (R370) -/
def execInvalidCommand (chip : Nat) (iface : (Option Nat)) (op : Nat) (s : State) : Out := .next (invalidCmd s chip iface op)

/-- Event. A running command finishes, clearing BUSY and setting DONE and possibly ERR. (R370) -/
def execCommandCompletion (chip : Nat) (iface : (Option Nat)) (s : State) : Out := .next (commandDone s chip iface)

end Sys2Proof.Machine
end

