-- ==== Sys2Proof/Machine/Reliability.lean ====
section
/-! DEFINITION. Reliability and power (R176, R177, R374 to R376): counted errors, slice retirement, patrols, machine checks,
droops and the power limit. -/

namespace Sys2Proof.Machine

/-! ## Cards that end at once (R103, R333, R376) -/

/-- The greatest stamp among the live warps of a card; its origin when it has none. -/
def topStamp (s : State) (ck : Nat) (c : Card) : Stamp :=
  (s.warps.filter fun e => cardKey e.1 == ck && isLive e.2).foldl (fun a e =>
    let t : Stamp := (countClock e.2, identOf e.1)
    if stampLt a t then t else a) (c.origin, identOf ck)

/-- Ends a card with a cause, all of whose warps stop where they are. -/
def endAtOnce (s : State) (ck cause : Nat) : State :=
  match kfind s.cards ck with
  | none => s
  | some c =>
    if c.stop.isSome || allEnded c then s
    else
      let t := topStamp s ck c
      let s := stopCard s ck t cause 0 2
      let ws := s.warps.filter fun e => cardKey e.1 == ck && isLive e.2
      sweepCard (ws.foldl (fun s e => stopWarp s e.1 (nextMark e.2.quantum (countClock e.2)) t) s) ck

/-- Ends several cards. -/
def endCards (s : State) (cks : List Nat) (cause : Nat) : State := cks.foldl (fun s ck => endAtOnce s ck cause) s

/-! ## Machine checks (R376) -/

/-- The partition that owns a die of a chip. -/
def diePart (s : State) (c die : Nat) : Option Nat :=
  ((List.range 8).map fun i => c * 8 + i).find? fun p => (partDies s p).contains die

/-- The cards of a partition that are resident: a group of theirs is on a core. -/
def residentCards (s : State) (p : Nat) : List Nat :=
  (s.cards.filter fun x => partOf x.1 == p && s.groups.any fun g => cardKey g.1 == x.1 && g.2.core.isSome).map (·.1)

/-- The cards that a machine check ends: those with a group on the affected core, or every card of the partition's domain
that is resident on the chip. -/
def affected (s : State) (c : Nat) (e : ErrSite) : List Nat :=
  if e.core || e.elem == 2 then
    (s.cards.filter fun x => s.groups.any fun g => cardKey g.1 == x.1 && g.2.chip == c && g.2.core == some (e.die * 24 + e.unit)).map (·.1)
  else match diePart s c e.die with
    | some p => residentCards s p
    | none => []

/-- A machine check: an error record, the end of the affected cards, and of a capture of their partition. -/
def machineCheck (s : State) (c : Nat) (e : ErrSite) (time : Nat) : State :=
  let cks := affected s c e
  let ctx := match cks with | ck :: _ => ctxNum s (partOf ck) | [] => 0
  let s := logError s c
    { elem := e.elem, die := e.die, unit := e.unit, sev := 1, ctx := ctx, addr := e.addr, time := time, synd := e.synd }
  let s := endCards s cks 0x12
  match diePart s c e.die with
  | some p => abandonCapture s p
  | none => s

/-! ## Corrected errors and retirement (R176, R177) -/

/-- A corrected error of a slice is counted. -/
def countError (s : State) (c die slice time : Nat) : State :=
  let ch := getChip s c
  let x := getSlice ch die slice
  let n := min (x.ceCount.toNat + 1) 65535
  let s' := setChip s c (setSlice ch die slice { x with ceCount := BitVec.ofNat 16 n })
  if n = x.ceCount.toNat then s' else checkRetire s' c die slice (some time)

/-- The next slice of the ring that is not retired. -/
def successor (ch : Chip) (die slice : Nat) : Nat :=
  match (List.range 23).find? fun i => !(getSlice ch die ((slice + 1 + i) % 24)).ret with
  | some i => (slice + 1 + i) % 24
  | none => slice

/-- The slice writes back and drops its lines, its buckets move to its successor, whose ways take its overlay entries (R174), and it is
retired. -/
def retireSlice (s : State) (c die slice : Nat) : State :=
  let ch := getChip s c
  let x := getSlice ch die slice
  if !x.retiring then s
  else
    let n := successor ch die slice
    let buckets := (List.range 1024).foldl (fun m b =>
      if bucketSlice ch die b = slice then kinsert m (die * 1024 + b) n else m) ch.buckets
    let s := setChip s c (setSlice { ch with buckets := buckets } die slice { x with ret := true, retiring := false, lines := [] })
    overlayTrim s (overlayLines s)

/-- What the SRAM patrol finds is corrected, and counted for a slice, or is a machine check. -/
def patrol (s : State) (c : Nat) (found : Option SramFault) (time : Nat) : State :=
  match found with
  | none => s
  | some (.corrected die slice) => countError s c die slice time
  | some (.correctedCore _ _) => s
  | some (.doubleCore die core addr synd) =>
    machineCheck s c { elem := 1, core := true, die := die, unit := core, addr := addr, synd := synd } time
  | some (.doubleSlice die slice addr synd) =>
    machineCheck s c { elem := 1, core := false, die := die, unit := slice, addr := addr, synd := synd } time

/-- The stack patrol corrects latent faults, which stay masked: nothing that the state holds changes. -/
def stackScrub (s : State) (_chip _stack : Nat) (_fixed : List Nat) (_time : Nat) : State := s

/-- A beat with a bad CRC is resent once; a second failure is a machine check, whose address and syndrome are free values. -/
def beatError (s : State) (c die unit : Nat) (second : Bool) (time : Nat) : State :=
  if second then
    machineCheck { s with freeCtr := s.freeCtr + 2 } c
      { elem := 4, core := false, die := die, unit := unit, addr := (Config.freeBeat s.freeCtr).toNat
        synd := (Config.freeBeat (s.freeCtr + 1)).toNat } time
  else s

/-! ## Power (R374) -/

def droop (s : State) (c die : Nat) : State :=
  let ch := getChip s c
  setChip s c { ch with stretched := if ch.stretched.contains die then ch.stretched else ch.stretched ++ [die] }

def recovery (s : State) (c die : Nat) : State :=
  let ch := getChip s c
  setChip s c { ch with stretched := ch.stretched.filter fun d => d != die }

/-- The arithmetic clock moves by 25 MHz between 600 and 1,200 MHz. -/
def powerStep (s : State) (c : Nat) (up : Bool) : State :=
  let ch := getChip s c
  setChip s c { ch with mhz := if up then min (ch.mhz + 25) 1200 else max (ch.mhz - 25) 600 }

/-! ## The events -/

/-- Event. A corrected SRAM error increments CECOUNT and checks retirement. (R177) -/
def execSramCorrectableError (chip : Nat) (die : Nat) (slice : Nat) (time : Nat) (s : State) : Out := .next (countError s chip die slice time)

/-- Event. The bucket table moves to the successor and held requests are released. (R176) -/
def execSliceRetirementComplete (chip : Nat) (die : Nat) (slice : Nat) (s : State) : Out := .next (retireSlice s chip die slice)

/-- Event. Every 100 us the SRAM patrol scrubs, correcting or detecting faults. (R375) -/
def execSramPatrol (chip : Nat) (found : (Option SramFault)) (time : Nat) (s : State) : Out := .next (patrol s chip found time)

/-- Event. The 24-hour stack patrol scrub corrects latent faults. (R375) -/
def execStackPatrolScrub (chip : Nat) (stack : Nat) (fixed : (List Nat)) (time : Nat) (s : State) : Out := .next (stackScrub s chip stack fixed time)

/-- Event. A beat failing its end-to-end CRC is resent once; a second failure is a machine check. (R375) -/
def execNetworkBeatCrcError (chip : Nat) (die : Nat) (unit : Nat) (second : Bool) (time : Nat) (s : State) : Out := .next (beatError s chip die unit second time)

/-- Event. An uncorrectable fault writes an error record and ends affected cards with cause 0x12. (R376) -/
def execMachineCheck (chip : Nat) (err : ErrSite) (time : Nat) (s : State) : Out := .next (machineCheck s chip err time)

/-- Event. A supply droop stretches the die's cycles until recovery. (R374) -/
def execSupplyDroop (chip : Nat) (die : Nat) (s : State) : Out := .next (droop s chip die)

/-- Event. The supply recovers and cycle stretching ends. (R374) -/
def execSupplyRecovery (chip : Nat) (die : Nat) (s : State) : Out := .next (recovery s chip die)

/-- Event. The power limiter changes the arithmetic clock in 25 MHz steps. (R374) -/
def execPowerLimitStep (chip : Nat) (up : Bool) (s : State) : Out := .next (powerStep s chip up)

end Sys2Proof.Machine
end

