-- ==== Sys2Proof/Machine/Links.lean ====
section
/-! DEFINITION. The links of an island (R330 to R334), floor beacons (R344) and silent peers (R333). -/

namespace Sys2Proof.Machine

/-! ## Ports (R332, R334) -/

/-- A port goes down; its unacknowledged flits take the detour, in order, when there is one. -/
def portDown (s : State) (c q : Nat) : State :=
  failover (updPort s c q fun x => { x with up := false, replays := [], wire := [] }) c q

/-- The detours of the island that have become usable take what waits on ports that are down (R332). -/
def failoverAll (s : State) : State :=
  (islandChips s).foldl (fun s c => (getChip s c).ports.foldl (fun s e => failover s c e.1) s) s

/-- A port comes up: what it holds is sent, traffic to its peer returns from the detour, and that of other peers may take a detour
over it. -/
def raisePort (s : State) (c q : Nat) : State :=
  let ch := getChip s c
  if !ch.fxEn || (getPort ch q).up then s
  else
    let s := updPort s c q fun x => { x with
      up := true, trained := true, timedOut := false, replays := [], wire := x.buffer.take 512 }
    failoverAll (match portPeer ch q with
      | none => s
      | some i => ch.ports.foldl (fun s e =>
          if e.1 = q then s
          else
            let (s, fs) := takeFlits s c e.1 fun f => f.src == ch.index.toNat && f.dest == i
            resend s c fs) s)

/-- The port and the one at the other end of its link belong together: `EN` = 1 on both chips, and each names the other's port. -/
def linked (s : State) (c q : Nat) : Bool :=
  decide (q < 15) && match otherEnd s c q with
    | none => false
    | some (d, r) => otherEnd s d r == some (c, q)

/-- A port that was up comes back up. -/
def portUp (s : State) (c q : Nat) : State :=
  if (getPort (getChip s c) q).trained && linked s c q then raisePort s c q else s

/-- Training of a port completes. -/
def trainingDone (s : State) (c q : Nat) : State := if linked s c q then raisePort s c q else s

/-- A port that has not trained within 10 ms counts as down. -/
def trainingTimeout (s : State) (c q : Nat) : State :=
  let ch := getChip s c
  if ch.fxEn && !(getPort ch q).trained then failover (updPort s c q fun x => { x with timedOut := true }) c q else s

/-! ## Flits (R331) -/

/-- An acknowledgement frees the flits up to its sequence number, and flits that waited for room are sent. -/
def flitAck (s : State) (c q seq : Nat) : State :=
  updPort s c q fun x =>
    let rest := x.buffer.filter fun f => decide (seq < f.seq)
    let freed := x.buffer.length - rest.length
    let more := if x.up then (rest.take 512).drop (min 512 x.buffer.length - freed) else []
    { x with buffer := rest, wire := (x.wire.filter fun f => decide (seq < f.seq)) ++ more
             replays := x.replays.filter fun e => decide (seq < e.1) }

/-- A replay request makes the sender resend from a flit that it holds, in the original order; of each flit it counts the replays in
a row. -/
def flitReplay (s : State) (c q seq : Nat) : State :=
  updPort s c q fun x =>
    if x.buffer.any fun f => f.seq == seq then
      { x with replays := ((x.buffer.take 512).filter fun f => decide (seq ≤ f.seq)).foldl (fun m f =>
                 kinsert m f.seq ((kfind m f.seq).getD 0 + 1)) x.replays
               wire := if x.up then (x.buffer.take 512).filter fun f => decide (seq ≤ f.seq) else [] }
    else x

/-- A flit has been replayed 16 times in a row. -/
def replayedOut (x : Port) : Bool := x.replays.any fun e => decide (16 ≤ e.2)

/-- 16 replays of one flit without its acknowledgement declare the port down. -/
def replayLimit (s : State) (c q : Nat) : State := if replayedOut (getPort (getChip s c) q) then portDown s c q else s

/-! ## Beacons (R344) -/

/-- The part of the machine that a chip's beacon speaks of: its own warps, cards and mailboxes, and what it has created. -/
def chipPart (s : State) (c : Nat) : State :=
  { s with
    warps := s.warps.filter fun e => chipOf (partOf e.1) == c
    cards := s.cards.filter fun e => chipOf (partOf e.1) == c
    created := s.created.filter fun x => chipOf x.home == c || chipOf x.target == c
    parts := s.parts.filter fun e => chipOf e.1 == c }

/-- The stamps of what a chip has sent and its receiver has not acknowledged, in a domain: what its own ports hold, and what a
relay still holds of it. -/
def unackedStamps (s : State) (c d : Nat) : List Stamp :=
  ((islandChips s).flatMap fun r => (getChip s r).ports).flatMap fun e => e.2.buffer.filterMap fun f =>
    if f.src != (getChip s c).index.toNat then none
    else match f.payload with
      | .request k t _ => if inDom s d (partOf k) then some (t, identOf k) else none
      | .reply k t _ => if inDom s d (partOf k) then some (t, identOf k) else none
      | .publication t i _ => some (t, i)
      | .invocation t i _ => some (t, i)
      | _ => none

/-- The lower of two stamps, one of which may be absent. -/
def lowerStamp (a : Option Stamp) (t : Stamp) : Stamp :=
  match a with
  | some x => if stampLt x t then x else t
  | none => t

/-- The lower bound of a chip's part of the domain of the island's partitions numbered `d`; `none` for unbounded. A partition
whose reset has silenced it bounds nothing (R373). -/
def chipBound (s : State) (c d : Nat) : Option Stamp :=
  let pt := getPart s (c * 8 + d)
  if pt.silent then some (0, 0)
  else match pt.ctx with
    | some x => if x.turn then
        (unackedStamps s c d).foldl (fun a t => some (lowerStamp a t)) (leastItem (chipPart s c) d)
      else none
    | none => none

/-- The lower bound of a chip on the bases of entries still to be admitted to its partition numbered `d` (R287). -/
def baseBound (s : State) (c d : Nat) : Option Nat :=
  let p := c * 8 + d
  (getPart s p).mboxes.foldl (fun (a : Option Nat) b =>
    if b.2.closed && b.2.fifo.isEmpty then a
    else some (min (a.getD (boxBound s p 16 b.1)) (boxBound s p 16 b.1))) none

/-- What a chip's beacon says now. -/
def beaconNow (s : State) (c : Nat) : Beacon :=
  let ch := getChip s c
  { peer := ch.index.toNat, seq := ch.beaconSeq + 1
    bounds := (List.range 8).filterMap fun d => (chipBound s c d).map fun t => (d, t)
    abounds := (List.range 8).filterMap fun d => (baseBound s c d).map fun b => (d, b) }

/-- The peers that a chip reaches. -/
def peersOf (s : State) (c : Nat) : List Nat :=
  (List.range ((getChip s c).isize.toNat + 1)).filter fun i => i != (getChip s c).index.toNat && reaches s c i

/-- A chip with `EN` = 1 sends a beacon to every peer on its direct port, or over the detour. -/
def beaconSend (s : State) (c : Nat) : State :=
  let ch := getChip s c
  if !ch.fxEn then s
  else (peersOf s c).foldl (fun s' i => sendFlit s' c i (.beacon (beaconNow s c)))
    (setChip s c { ch with beaconSeq := ch.beaconSeq + 1 })

/-- The newest beacon of each peer is kept; an older one is discarded. -/
def beaconReceive (s : State) (c : Nat) (b : Beacon) : State :=
  let ch := getChip s c
  let last := match kfind ch.beacons b.peer with | some x => x.seq | none => 0
  if last < b.seq then setChip s c { ch with beacons := kinsert ch.beacons b.peer b } else s

/-- Some peer that the chip reaches has not heard what its beacon says now. -/
def beaconDue (s : State) (c : Nat) : Bool :=
  let b := beaconNow s c
  (getChip s c).fxEn && (peersOf s c).any fun i => match chipOfIndex s i with
    | none => false
    | some d => match kfind (getChip s d).beacons b.peer with
      | some x => x.bounds != b.bounds || x.abounds != b.abounds
      | none => true

/-! ## Receiving -/

/-- A flit in sequence is delivered once to its destination, however often a failover resent it, and a relay sends one on to its
peer alone, by its port to that peer (R331, R332). -/
def deliver (s : State) (c q : Nat) (f : Flit) : State :=
  let ch := getChip s c
  if f.dest = ch.index.toNat then
    match f.payload with
    | .beacon b => beaconReceive s c b
    | _ =>
      if ch.ports.any fun e => e.2.got.any fun g => g.src == f.src && g.tag == f.tag then s
      else updPort s c q fun x => { x with got := x.got ++ [f] }
  else putFlit s c (getPeer ch f.dest).port.toNat f.toPacket

/-- A flit arrives from the link: one in sequence is delivered once, a bad or early one makes the receiver ask for replay from
the first missing flit, a duplicate is discarded. What a request, reply, publication or invocation does is its own event (log 86). -/
def flitReceive (s : State) (c q : Nat) (crcOk : Bool) (f : Flit) : State :=
  let s := match otherEnd s c q with
    | some (d, r) => updPort s d r fun x => { x with wire := x.wire.erase f }
    | none => s
  let x := getPort (getChip s c) q
  if !crcOk || decide (x.rxSeq < f.seq) then updPort s c q fun x => { x with replayFrom := some x.rxSeq }
  else if f.seq < x.rxSeq then s
  else deliver (updPort s c q fun x => { x with rxSeq := f.seq + 1, replayFrom := none }) c q f

/-! ## A silent peer (R333, R373) -/

/-- The partitions of a chip whose domain hears nothing from a peer: those whose counterpart's reset has silenced it, or all. -/
def silentParts (s : State) (c i : Nat) : List Nat :=
  let ns := match chipOfIndex s i with
    | some d => (List.range 8).filter fun n => (getPart s (d * 8 + n)).silent
    | none => []
  (if ns.isEmpty then List.range 8 else ns).map fun n => c * 8 + n

/-- No beacon from a peer of the island for 1 ms: every card of the domain resident on the chip ends with cause 0x15. -/
def peerSilent (s : State) (c i : Nat) : State :=
  let ch := getChip s c
  if ch.fxEn && decide (i ≤ ch.isize.toNat) && i != ch.index.toNat then
    endCards s ((silentParts s c i).flatMap (residentCards s)) 0x15
  else s

/-! ## The events -/

/-- Event. A received flit is CRC-checked, acknowledged or replay requested, and delivered once. (R331) -/
def execFlitReceive (chip : Nat) (port : Nat) (seq : Nat) (crcOk : Bool) (payload : Packet) (s : State) : Out :=
  .next (flitReceive s chip port crcOk { payload with seq := seq })

/-- Event. An acknowledgement frees flits from the replay buffer. (R331) -/
def execFlitAcknowledgement (chip : Nat) (port : Nat) (seq : Nat) (s : State) : Out := .next (flitAck s chip port seq)

/-- Event. A replay request makes the sender resend from the requested flit in order. (R331) -/
def execReplayRequest (chip : Nat) (port : Nat) (seq : Nat) (s : State) : Out := .next (flitReplay s chip port seq)

/-- Event. A flit replayed 16 times in a row declares the port down and starts failover. (R332) -/
def execReplayLimitReached (chip : Nat) (port : Nat) (s : State) : Out := .next (replayLimit s chip port)

/-- Event. A lane losing lock declares its port down. (R332) -/
def execLaneLockLoss (chip : Nat) (port : Nat) (s : State) : Out := .next (portDown s chip port)

/-- Event. A port coming back up returns traffic from the detour. (R332) -/
def execPortUp (chip : Nat) (port : Nat) (s : State) : Out := .next (portUp s chip port)

/-- Event. Training with a peer's port completes and UP is set. (R334) -/
def execLinkTrainingComplete (chip : Nat) (port : Nat) (s : State) : Out := .next (trainingDone s chip port)

/-- Event. A port untrained 10 ms after enable counts as down. (R334) -/
def execLinkTrainingTimeout (chip : Nat) (port : Nat) (s : State) : Out := .next (trainingTimeout s chip port)

/-- Event. Every 256 link clocks a chip sends a beacon on every up port. (R344) -/
def execBeaconSend (chip : Nat) (s : State) : Out := .next (beaconSend s chip)

/-- Event. A newer beacon from a peer feeds its bounds into the gateway trees. (R344) -/
def execBeaconReceive (chip : Nat) (beacon : Beacon) (s : State) : Out := .next (beaconReceive s chip beacon)

/-- Event. No beacon from a peer for 1 ms ends every resident card of the domain with cause 0x15. (R333) -/
def execPeerSilentTimeout (chip : Nat) (peer : Nat) (s : State) : Out := .next (peerSilent s chip peer)

/-- Event. A marker from the old home releases a chip's held direct accesses at the new home. (R342) -/
def execMigrationMarker (chip : Nat) (page : Nat) (s : State) : Out := .next (markerArrives s chip page)

end Sys2Proof.Machine
end

