-- ==== Sys2Proof/Machine/Dispatch.lean ====
section
/-! DEFINITION. One arm for each row of the opcode table: the meaning of every machine instruction and of every event. -/

namespace Sys2Proof.Machine

/-- The effect of an instruction, or of an event, on the machine. -/
def exec (i : Instr) (s : State) : Host.Outcome State Fault Refusal :=
  match i with
  | .nopShort f => Sys2Proof.Machine.execNopShort f s
  | .nopLong f => Sys2Proof.Machine.execNopLong f s
  | .braShort f => Sys2Proof.Machine.execBraShort f s
  | .braLong f => Sys2Proof.Machine.execBraLong f s
  | .brcShort f => Sys2Proof.Machine.execBrcShort f s
  | .brcLong f => Sys2Proof.Machine.execBrcLong f s
  | .brxShort f => Sys2Proof.Machine.execBrxShort f s
  | .brxLong f => Sys2Proof.Machine.execBrxLong f s
  | .call f => Sys2Proof.Machine.execCall f s
  | .callReg f => Sys2Proof.Machine.execCallReg f s
  | .ret f => Sys2Proof.Machine.execRet f s
  | .mark f => Sys2Proof.Machine.execMark f s
  | .joinShort f => Sys2Proof.Machine.execJoinShort f s
  | .joinLong f => Sys2Proof.Machine.execJoinLong f s
  | .exitShort f => Sys2Proof.Machine.execExitShort f s
  | .exitLong f => Sys2Proof.Machine.execExitLong f s
  | .rep f => Sys2Proof.Machine.execRep f s
  | .repReg f => Sys2Proof.Machine.execRepReg f s
  | .rgn f => Sys2Proof.Machine.execRgn f s
  | .trap f => Sys2Proof.Machine.execTrap f s
  | .bpt f => Sys2Proof.Machine.execBpt f s
  | .eret f => Sys2Proof.Machine.execEret f s
  | .srd f => Sys2Proof.Machine.execSrd f s
  | .srdHi f => Sys2Proof.Machine.execSrdHi f s
  | .swr f => Sys2Proof.Machine.execSwr f s
  | .give f => Sys2Proof.Machine.execGive f s
  | .claim f => Sys2Proof.Machine.execClaim f s
  | .jmovToS f => Sys2Proof.Machine.execJmovToS f s
  | .jmovToJ f => Sys2Proof.Machine.execJmovToJ f s
  | .saddShort f => Sys2Proof.Machine.execSaddShort f s
  | .saddLong f => Sys2Proof.Machine.execSaddLong f s
  | .ssubShort f => Sys2Proof.Machine.execSsubShort f s
  | .ssubLong f => Sys2Proof.Machine.execSsubLong f s
  | .smulShort f => Sys2Proof.Machine.execSmulShort f s
  | .smulLong f => Sys2Proof.Machine.execSmulLong f s
  | .sandShort f => Sys2Proof.Machine.execSandShort f s
  | .sandLong f => Sys2Proof.Machine.execSandLong f s
  | .sorShort f => Sys2Proof.Machine.execSorShort f s
  | .sorLong f => Sys2Proof.Machine.execSorLong f s
  | .sxorShort f => Sys2Proof.Machine.execSxorShort f s
  | .sxorLong f => Sys2Proof.Machine.execSxorLong f s
  | .sshlShort f => Sys2Proof.Machine.execSshlShort f s
  | .sshlLong f => Sys2Proof.Machine.execSshlLong f s
  | .sshrShort f => Sys2Proof.Machine.execSshrShort f s
  | .sshrLong f => Sys2Proof.Machine.execSshrLong f s
  | .ssraShort f => Sys2Proof.Machine.execSsraShort f s
  | .ssraLong f => Sys2Proof.Machine.execSsraLong f s
  | .scmpShort f => Sys2Proof.Machine.execScmpShort f s
  | .scmpLong f => Sys2Proof.Machine.execScmpLong f s
  | .sselShort f => Sys2Proof.Machine.execSselShort f s
  | .sselLong f => Sys2Proof.Machine.execSselLong f s
  | .smovShort f => Sys2Proof.Machine.execSmovShort f s
  | .smovLong f => Sys2Proof.Machine.execSmovLong f s
  | .vaddShort f => Sys2Proof.Machine.execVaddShort f s
  | .vaddLong f => Sys2Proof.Machine.execVaddLong f s
  | .vsubShort f => Sys2Proof.Machine.execVsubShort f s
  | .vsubLong f => Sys2Proof.Machine.execVsubLong f s
  | .vaddsShort f => Sys2Proof.Machine.execVaddsShort f s
  | .vaddsLong f => Sys2Proof.Machine.execVaddsLong f s
  | .vsubsShort f => Sys2Proof.Machine.execVsubsShort f s
  | .vsubsLong f => Sys2Proof.Machine.execVsubsLong f s
  | .vmul24Short f => Sys2Proof.Machine.execVmul24Short f s
  | .vmul24Long f => Sys2Proof.Machine.execVmul24Long f s
  | .vmad24Short f => Sys2Proof.Machine.execVmad24Short f s
  | .vmad24Long f => Sys2Proof.Machine.execVmad24Long f s
  | .vmulShort f => Sys2Proof.Machine.execVmulShort f s
  | .vmulLong f => Sys2Proof.Machine.execVmulLong f s
  | .vmulhShort f => Sys2Proof.Machine.execVmulhShort f s
  | .vmulhLong f => Sys2Proof.Machine.execVmulhLong f s
  | .vmadShort f => Sys2Proof.Machine.execVmadShort f s
  | .vmadLong f => Sys2Proof.Machine.execVmadLong f s
  | .vminShort f => Sys2Proof.Machine.execVminShort f s
  | .vminLong f => Sys2Proof.Machine.execVminLong f s
  | .vmaxShort f => Sys2Proof.Machine.execVmaxShort f s
  | .vmaxLong f => Sys2Proof.Machine.execVmaxLong f s
  | .vabsShort f => Sys2Proof.Machine.execVabsShort f s
  | .vabsLong f => Sys2Proof.Machine.execVabsLong f s
  | .vandShort f => Sys2Proof.Machine.execVandShort f s
  | .vandLong f => Sys2Proof.Machine.execVandLong f s
  | .vorShort f => Sys2Proof.Machine.execVorShort f s
  | .vorLong f => Sys2Proof.Machine.execVorLong f s
  | .vxorShort f => Sys2Proof.Machine.execVxorShort f s
  | .vxorLong f => Sys2Proof.Machine.execVxorLong f s
  | .vnotShort f => Sys2Proof.Machine.execVnotShort f s
  | .vnotLong f => Sys2Proof.Machine.execVnotLong f s
  | .vshlShort f => Sys2Proof.Machine.execVshlShort f s
  | .vshlLong f => Sys2Proof.Machine.execVshlLong f s
  | .vshrShort f => Sys2Proof.Machine.execVshrShort f s
  | .vshrLong f => Sys2Proof.Machine.execVshrLong f s
  | .vsraShort f => Sys2Proof.Machine.execVsraShort f s
  | .vsraLong f => Sys2Proof.Machine.execVsraLong f s
  | .vrotShort f => Sys2Proof.Machine.execVrotShort f s
  | .vrotLong f => Sys2Proof.Machine.execVrotLong f s
  | .vbfeShort f => Sys2Proof.Machine.execVbfeShort f s
  | .vbfeLong f => Sys2Proof.Machine.execVbfeLong f s
  | .vbfiShort f => Sys2Proof.Machine.execVbfiShort f s
  | .vbfiLong f => Sys2Proof.Machine.execVbfiLong f s
  | .vpopcShort f => Sys2Proof.Machine.execVpopcShort f s
  | .vpopcLong f => Sys2Proof.Machine.execVpopcLong f s
  | .vclzShort f => Sys2Proof.Machine.execVclzShort f s
  | .vclzLong f => Sys2Proof.Machine.execVclzLong f s
  | .vbrevShort f => Sys2Proof.Machine.execVbrevShort f s
  | .vbrevLong f => Sys2Proof.Machine.execVbrevLong f s
  | .vcmpShort f => Sys2Proof.Machine.execVcmpShort f s
  | .vcmpLong f => Sys2Proof.Machine.execVcmpLong f s
  | .vselShort f => Sys2Proof.Machine.execVselShort f s
  | .vselLong f => Sys2Proof.Machine.execVselLong f s
  | .vmovShort f => Sys2Proof.Machine.execVmovShort f s
  | .vmovLong f => Sys2Proof.Machine.execVmovLong f s
  | .vmovBc f => Sys2Proof.Machine.execVmovBc f s
  | .vfaddShort f => Sys2Proof.Machine.execVfaddShort f s
  | .vfaddLong f => Sys2Proof.Machine.execVfaddLong f s
  | .vfsubShort f => Sys2Proof.Machine.execVfsubShort f s
  | .vfsubLong f => Sys2Proof.Machine.execVfsubLong f s
  | .vfmulShort f => Sys2Proof.Machine.execVfmulShort f s
  | .vfmulLong f => Sys2Proof.Machine.execVfmulLong f s
  | .vffma f => Sys2Proof.Machine.execVffma f s
  | .vfmin f => Sys2Proof.Machine.execVfmin f s
  | .vfmax f => Sys2Proof.Machine.execVfmax f s
  | .vfabs f => Sys2Proof.Machine.execVfabs f s
  | .vfneg f => Sys2Proof.Machine.execVfneg f s
  | .vfcmp f => Sys2Proof.Machine.execVfcmp f s
  | .vfclass f => Sys2Proof.Machine.execVfclass f s
  | .vfrnd f => Sys2Proof.Machine.execVfrnd f s
  | .vfscale f => Sys2Proof.Machine.execVfscale f s
  | .vfdot2 f => Sys2Proof.Machine.execVfdot2 f s
  | .vcvt f => Sys2Proof.Machine.execVcvt f s
  | .vbfpq f => Sys2Proof.Machine.execVbfpq f s
  | .vbfpx f => Sys2Proof.Machine.execVbfpx f s
  | .vshfl f => Sys2Proof.Machine.execVshfl f s
  | .vvote f => Sys2Proof.Machine.execVvote f s
  | .vvoteBallot f => Sys2Proof.Machine.execVvoteBallot f s
  | .vrdc f => Sys2Proof.Machine.execVrdc f s
  | .vscan f => Sys2Proof.Machine.execVscan f s
  | .vbcast f => Sys2Proof.Machine.execVbcast f s
  | .vbcastS f => Sys2Proof.Machine.execVbcastS f s
  | .vmatch f => Sys2Proof.Machine.execVmatch f s
  | .plop f => Sys2Proof.Machine.execPlop f s
  | .pmovPs f => Sys2Proof.Machine.execPmovPs f s
  | .pmovSp f => Sys2Proof.Machine.execPmovSp f s
  | .vldShort f => Sys2Proof.Machine.execVldShort f s
  | .vldLong f => Sys2Proof.Machine.execVldLong f s
  | .vstShort f => Sys2Proof.Machine.execVstShort f s
  | .vstLong f => Sys2Proof.Machine.execVstLong f s
  | .vlds f => Sys2Proof.Machine.execVlds f s
  | .vsts f => Sys2Proof.Machine.execVsts f s
  | .sldShort f => Sys2Proof.Machine.execSldShort f s
  | .sldLong f => Sys2Proof.Machine.execSldLong f s
  | .sstShort f => Sys2Proof.Machine.execSstShort f s
  | .sstLong f => Sys2Proof.Machine.execSstLong f s
  | .vprf f => Sys2Proof.Machine.execVprf f s
  | .cctlInv f => Sys2Proof.Machine.execCctlInv f s
  | .cctlInvall f => Sys2Proof.Machine.execCctlInvall f s
  | .cctlEvict f => Sys2Proof.Machine.execCctlEvict f s
  | .tlbiVa f => Sys2Proof.Machine.execTlbiVa f s
  | .tlbiCtx f => Sys2Proof.Machine.execTlbiCtx f s
  | .tlbiAll f => Sys2Proof.Machine.execTlbiAll f s
  | .migrMove f => Sys2Proof.Machine.execMigrMove f s
  | .migrSet f => Sys2Proof.Machine.execMigrSet f s
  | .migrQuery f => Sys2Proof.Machine.execMigrQuery f s
  | .atom f => Sys2Proof.Machine.execAtom f s
  | .pot f => Sys2Proof.Machine.execPot f s
  | .acq f => Sys2Proof.Machine.execAcq f s
  | .rel f => Sys2Proof.Machine.execRel f s
  | .fenceRel f => Sys2Proof.Machine.execFenceRel f s
  | .fenceSc f => Sys2Proof.Machine.execFenceSc f s
  | .barArr f => Sys2Proof.Machine.execBarArr f s
  | .barWait f => Sys2Proof.Machine.execBarWait f s
  | .barSync f => Sys2Proof.Machine.execBarSync f s
  | .barTest f => Sys2Proof.Machine.execBarTest f s
  | .tktWait f => Sys2Proof.Machine.execTktWait f s
  | .tktDone f => Sys2Proof.Machine.execTktDone f s
  | .pass f => Sys2Proof.Machine.execPass f s
  | .passTo f => Sys2Proof.Machine.execPassTo f s
  | .turn f => Sys2Proof.Machine.execTurn f s
  | .fshootVa f => Sys2Proof.Machine.execFshootVa f s
  | .fshootCtx f => Sys2Proof.Machine.execFshootCtx f s
  | .mma f => Sys2Proof.Machine.execMma f s
  | .accrd f => Sys2Proof.Machine.execAccrd f s
  | .accwr f => Sys2Proof.Machine.execAccwr f s
  | .accz f => Sys2Proof.Machine.execAccz f s
  | .cpslice f => Sys2Proof.Machine.execCpslice f s
  | .cploop f => Sys2Proof.Machine.execCploop f s
  | .cpchain f => Sys2Proof.Machine.execCpchain f s
  | .cpacc f => Sys2Proof.Machine.execCpacc f s
  | .bfwait f => Sys2Proof.Machine.execBfwait f s
  | .bfrel f => Sys2Proof.Machine.execBfrel f s
  | .vrcp f => Sys2Proof.Machine.execVrcp f s
  | .vrsq f => Sys2Proof.Machine.execVrsq f s
  | .vsqrt f => Sys2Proof.Machine.execVsqrt f s
  | .vexp2 f => Sys2Proof.Machine.execVexp2 f s
  | .vlog2 f => Sys2Proof.Machine.execVlog2 f s
  | .vsinpi f => Sys2Proof.Machine.execVsinpi f s
  | .vcospi f => Sys2Proof.Machine.execVcospi f s
  | .vtanh f => Sys2Proof.Machine.execVtanh f s
  | .vfdiv f => Sys2Proof.Machine.execVfdiv f s
  | .lxadd f => Sys2Proof.Machine.execLxadd f s
  | .lxsub f => Sys2Proof.Machine.execLxsub f s
  | .lxmul f => Sys2Proof.Machine.execLxmul f s
  | .lxdiv f => Sys2Proof.Machine.execLxdiv f s
  | .lxcmp f => Sys2Proof.Machine.execLxcmp f s
  | .lxexp f => Sys2Proof.Machine.execLxexp f s
  | .lxlog f => Sys2Proof.Machine.execLxlog f s
  | .lxlvl f => Sys2Proof.Machine.execLxlvl f s
  | .lxcvt f => Sys2Proof.Machine.execLxcvt f s
  | .spawn f => Sys2Proof.Machine.execSpawn f s
  | .invoke f => Sys2Proof.Machine.execInvoke f s
  | .invokeh f => Sys2Proof.Machine.execInvokeh f s
  | .fwait f => Sys2Proof.Machine.execFwait f s
  | .fpoll f => Sys2Proof.Machine.execFpoll f s
  | .fref f => Sys2Proof.Machine.execFref f s
  | .fdrop f => Sys2Proof.Machine.execFdrop f s
  | .fpin f => Sys2Proof.Machine.execFpin f s
  | .fresVal f => Sys2Proof.Machine.execFresVal f s
  | .fresPlace f => Sys2Proof.Machine.execFresPlace f s
  | .fbreak f => Sys2Proof.Machine.execFbreak f s
  | .savept f => Sys2Proof.Machine.execSavept f s
  | .digest f => Sys2Proof.Machine.execDigest f s
  | .seed f => Sys2Proof.Machine.execSeed f s
  | .runArbitration chip die core => Sys2Proof.Machine.execRunArbitration chip die core s
  | .localityScoreHalving chip die core => Sys2Proof.Machine.execLocalityScoreHalving chip die core s
  | .outstandingResultWrite warp => Sys2Proof.Machine.execOutstandingResultWrite warp s
  | .loadConfirmation warp => Sys2Proof.Machine.execLoadConfirmation warp s
  | .postedStorePerform warp => Sys2Proof.Machine.execPostedStorePerform warp s
  | .debuggerHalt warp => Sys2Proof.Machine.execDebuggerHalt warp s
  | .debuggerResume warp => Sys2Proof.Machine.execDebuggerResume warp s
  | .roundGateOpen warp => Sys2Proof.Machine.execRoundGateOpen warp s
  | .domainTurnGrant part => Sys2Proof.Machine.execDomainTurnGrant part s
  | .groupTurnGrant group => Sys2Proof.Machine.execGroupTurnGrant group s
  | .groupEnd group => Sys2Proof.Machine.execGroupEnd group s
  | .publicationMerge part => Sys2Proof.Machine.execPublicationMerge part s
  | .copyCompletion group buf => Sys2Proof.Machine.execCopyCompletion group buf s
  | .pageWalkCompletion chip part va => Sys2Proof.Machine.execPageWalkCompletion chip part va s
  | .mailboxWindowWrite part mbox off bytes => Sys2Proof.Machine.execMailboxWindowWrite part mbox off bytes s
  | .admission part => Sys2Proof.Machine.execAdmission part s
  | .fenceCompletion part mbox => Sys2Proof.Machine.execFenceCompletion part mbox s
  | .completionRecord part mbox => Sys2Proof.Machine.execCompletionRecord part mbox s
  | .groupPlacement part => Sys2Proof.Machine.execGroupPlacement part s
  | .spatialPreemption chip cores => Sys2Proof.Machine.execSpatialPreemption chip cores s
  | .preemptionWaitExpiry card => Sys2Proof.Machine.execPreemptionWaitExpiry card s
  | .saveAreaExhausted card => Sys2Proof.Machine.execSaveAreaExhausted card s
  | .allParked part => Sys2Proof.Machine.execAllParked part s
  | .remoteRequest warp => Sys2Proof.Machine.execRemoteRequest warp s
  | .remoteReply warp => Sys2Proof.Machine.execRemoteReply warp s
  | .invocationArrival part => Sys2Proof.Machine.execInvocationArrival part s
  | .migrationMarker chip page => Sys2Proof.Machine.execMigrationMarker chip page s
  | .flitReceive chip port seq crcOk payload => Sys2Proof.Machine.execFlitReceive chip port seq crcOk payload s
  | .flitAcknowledgement chip port seq => Sys2Proof.Machine.execFlitAcknowledgement chip port seq s
  | .replayRequest chip port seq => Sys2Proof.Machine.execReplayRequest chip port seq s
  | .replayLimitReached chip port => Sys2Proof.Machine.execReplayLimitReached chip port s
  | .laneLockLoss chip port => Sys2Proof.Machine.execLaneLockLoss chip port s
  | .portUp chip port => Sys2Proof.Machine.execPortUp chip port s
  | .linkTrainingComplete chip port => Sys2Proof.Machine.execLinkTrainingComplete chip port s
  | .linkTrainingTimeout chip port => Sys2Proof.Machine.execLinkTrainingTimeout chip port s
  | .beaconSend chip => Sys2Proof.Machine.execBeaconSend chip s
  | .beaconReceive chip beacon => Sys2Proof.Machine.execBeaconReceive chip beacon s
  | .peerSilentTimeout chip peer => Sys2Proof.Machine.execPeerSilentTimeout chip peer s
  | .fshootAcknowledgement warp chip => Sys2Proof.Machine.execFshootAcknowledgement warp chip s
  | .fshootTimeout warp => Sys2Proof.Machine.execFshootTimeout warp s
  | .savePointCapture part => Sys2Proof.Machine.execSavePointCapture part s
  | .unitCopyComplete part unit => Sys2Proof.Machine.execUnitCopyComplete part unit s
  | .manifestWrite part => Sys2Proof.Machine.execManifestWrite part s
  | .spareDrain part => Sys2Proof.Machine.execSpareDrain part s
  | .sramCorrectableError chip die slice time => Sys2Proof.Machine.execSramCorrectableError chip die slice time s
  | .sliceRetirementComplete chip die slice => Sys2Proof.Machine.execSliceRetirementComplete chip die slice s
  | .sramPatrol chip found time => Sys2Proof.Machine.execSramPatrol chip found time s
  | .stackPatrolScrub chip stack fixed time => Sys2Proof.Machine.execStackPatrolScrub chip stack fixed time s
  | .networkBeatCrcError chip die unit second time => Sys2Proof.Machine.execNetworkBeatCrcError chip die unit second time s
  | .machineCheck chip err time => Sys2Proof.Machine.execMachineCheck chip err time s
  | .supplyDroop chip die => Sys2Proof.Machine.execSupplyDroop chip die s
  | .supplyRecovery chip die => Sys2Proof.Machine.execSupplyRecovery chip die s
  | .powerLimitStep chip up => Sys2Proof.Machine.execPowerLimitStep chip up s
  | .deviceReset chip => Sys2Proof.Machine.execDeviceReset chip s
  | .hostWindowBAccess chip vf off len data => Sys2Proof.Machine.execHostWindowBAccess chip vf off len data s
  | .faultQueueTailWrite part value => Sys2Proof.Machine.execFaultQueueTailWrite part value s
  | .registerWrite chip reg value => Sys2Proof.Machine.execRegisterWrite chip reg value s
  | .createContext part monitor => Sys2Proof.Machine.execCreateContext part monitor s
  | .destroyContext part => Sys2Proof.Machine.execDestroyContext part s
  | .invalidate part => Sys2Proof.Machine.execInvalidate part s
  | .faultQueue part => Sys2Proof.Machine.execFaultQueue part s
  | .saveFull part => Sys2Proof.Machine.execSaveFull part s
  | .drainTarget part => Sys2Proof.Machine.execDrainTarget part s
  | .restore part => Sys2Proof.Machine.execRestore part s
  | .replayRecord part => Sys2Proof.Machine.execReplayRecord part s
  | .readHash part => Sys2Proof.Machine.execReadHash part s
  | .admissionPosition part => Sys2Proof.Machine.execAdmissionPosition part s
  | .sliceRegister part => Sys2Proof.Machine.execSliceRegister part s
  | .errorLog part => Sys2Proof.Machine.execErrorLog part s
  | .partitionMap chip => Sys2Proof.Machine.execPartitionMap chip s
  | .fabricRegister chip => Sys2Proof.Machine.execFabricRegister chip s
  | .enableMap chip => Sys2Proof.Machine.execEnableMap chip s
  | .invalidCommand chip iface op => Sys2Proof.Machine.execInvalidCommand chip iface op s
  | .commandCompletion chip iface => Sys2Proof.Machine.execCommandCompletion chip iface s
  | .mmaRetirement warp => Sys2Proof.Machine.execMmaRetirement warp s
  | .systemPreemptionRequest chip cores => Sys2Proof.Machine.execSystemPreemptionRequest chip cores s

end Sys2Proof.Machine
end

