-- ==== Sys2Proof/Machine/Sched.lean ====
section
/-! DEFINITION. Which act comes next (log 1): the pending list, the run being performed, and else the first act of the
hardware that is due; and the placing of one instruction where the machine fetches next (log 2). -/

namespace Sys2Proof.Machine

/-! ## Performing a run (R31, R59, R73, R92) -/

/-- The operation has only to be fetched again in a later run: a `REP` that would be a run's 24th instruction (R73). -/
def repWaits (w : Warp) (i : Instr) : Bool :=
  decide (23 ≤ w.runLen) && match i with
    | .rep _ | .repReg _ => true
    | _ => false

/-- The instruction that the repetition at hand performs: the target with its strided fields stepped. -/
def repInstr (r : Rep) (i : Nat) (o : Op) (f : Long) : Instr := Op.long o (stepTarget r.imm f i)

/-- The warp that holds the issue fetches and performs one instruction, or one repetition. -/
def runWarp (s : State) (k : Nat) (w : Warp) : Out :=
  let z := siteOf s k
  match w.stat with
  | .ready =>
    match fetchAt s z (codeMark w) w.sec (fetchPc w) with
    | .refused a key kd => .next (fetchRefusal s k w a key kd)
    | .fault a e => .next (trapAt (reportSecure (walkTouch s z a.toNat) (partOf k) { kind := 0, secure := e }) k 5 0 a)
    | .illegal => .next (trapAt s k 1 0 (curPc w))
    | .ok i len =>
      let s := fillFrom s z (codeMark w) (fetchPc w) len
      match w.rep with
      | some r => match i.core with
        | some x => exec (repInstr r w.repidx x.1 x.2.1) s
        | none => .next (trapAt s k 1 0 (curPc w))
      | none => if repWaits w i then .next (endRun s k) else exec i s
  | _ => .next (endRun s k)

/-! ## What is due -/

/-- An act that may be due: the meaning of an event with its arguments. -/
abbrev Due := State → Out

/-- What a chip's links have to deliver, to acknowledge and to ask again. -/
def linkActs (s : State) (c : Nat) (ch : Chip) : List Due :=
  ch.ports.flatMap fun e => match otherEnd s c e.1 with
    | none => []
    | some (d, r) =>
      (e.2.wire.map fun f => execFlitReceive d r f.seq true f.toPacket) ++
      (if e.2.buffer.any fun f => decide (f.seq < rxNext s c e.1) then [execFlitAcknowledgement c e.1 (rxNext s c e.1 - 1)] else []) ++
      (match (getPort (getChip s d) r).replayFrom with
       | some n => if e.2.wire.isEmpty && e.2.up then [execReplayRequest c e.1 n] else []
       | none => [])

/-- Acts that complete what is in flight. -/
def flightActs (s : State) : List Due :=
  (s.warps.flatMap fun e =>
    (match e.2.stat with
     | .mma .. => [execMmaRetirement e.1]
     | .fshoot left .. => left.map fun c => execFshootAcknowledgement e.1 c
     | _ => []) ++
    (if e.2.unconf.isEmpty then [] else [execLoadConfirmation e.1]) ++
    (if (flightPends e.2).any pendWaits then [execRemoteRequest e.1, execRemoteReply e.1] else []) ++
    (if e.2.pend.any fun x => !pendWaits x then [execOutstandingResultWrite e.1] else []) ++
    (if canPost e.2 then [execPostedStorePerform e.1] else [])) ++
  (s.groups.flatMap fun e => (e.2.bufs.filter fun b => b.2.copy.isSome).map fun b => execCopyCompletion e.1 b.1) ++
  (s.markers.map fun m => execMigrationMarker m.1 m.2) ++
  s.chips.flatMap fun e => linkActs s e.1 e.2

/-- Acts of the chips: commands and slices. -/
def chipActs (s : State) : List Due :=
  (s.parts.filter fun e => e.2.cmd.busy).map (fun e => execCommandCompletion (chipOf e.1) (some (e.1 % 8))) ++
  s.chips.flatMap fun e =>
    (if e.2.sysIf.busy then [execCommandCompletion e.1 none] else []) ++
    ((e.2.slices.filter fun x => x.2.retiring).map fun x => execSliceRetirementComplete e.1 (x.1 / 24) (x.1 % 24)) ++
    ((e.2.ports.filter fun x => replayedOut x.2).map fun x => execReplayLimitReached e.1 x.1)

/-- Acts of the dealer and of the save-point engines of each partition. -/
def partActs (s : State) : List Due :=
  (s.parts.filter fun e => e.2.ctx.isSome).flatMap fun e =>
    let p := e.1
    [execSavePointCapture p] ++
    (match e.2.save.cap with
     | some c => match c.left with
       | u :: _ => [execUnitCopyComplete p u]
       | [] => [execManifestWrite p]
     | none => []) ++
    (if e.2.save.spare.isEmpty then [] else [execSpareDrain p]) ++
    (e.2.mboxes.filterMap fun m => m.2.cur.map fun _ => execFenceCompletion p m.1) ++
    (e.2.mboxes.filterMap fun m => m.2.cur.map fun _ => execCompletionRecord p m.1) ++
    [execAdmission p, execInvocationArrival p, execGroupPlacement p]

/-- The ticket tables of each partition settle the registrations whose word has come to their number (R223). -/
def settleTables : Due := fun s => .next (s.parts.foldl (fun s e => tktIdle s e.1) s)

/-- Acts of the turn unit. -/
def turnActs (s : State) : List Due :=
  (s.warps.filterMap fun e => match e.2.stat with | .gate .. => some (execRoundGateOpen e.1) | _ => none) ++
  (s.groups.flatMap fun e => [execGroupEnd e.1, execGroupTurnGrant e.1]) ++
  ((s.parts.filter fun e => e.2.ctx.isSome).map fun e => execDomainTurnGrant e.1) ++
  [settleTables] ++
  ((s.parts.filter fun e => e.2.ctx.isSome).map fun e => execPublicationMerge e.1)

/-- The free slots of each core on which a group is resident. -/
def slotActs (s : State) : List Due :=
  s.groups.filterMap fun e => e.2.core.map fun n => execRunArbitration e.2.chip (n / 24) (n % 24)

/-- Beacons that say something new to a peer: those that say nothing new are not sent (log 64). -/
def beaconActs (s : State) : List Due :=
  (s.chips.filter fun e => beaconDue s e.1).map fun e => execBeaconSend e.1

/-- Acts that are due only when nothing else is: beacons, pre-emption, cards that cannot go on, a domain that is all parked,
and the end of an `FSHOOT`'s wait. -/
def lastActs (s : State) : List Due :=
  beaconActs s ++
  ((s.parts.filter fun e => e.2.ctx.isSome).filterMap fun e =>
    (spatialCores s e.1).map fun x => execSpatialPreemption (chipOf e.1) x.1) ++
  (s.cards.map fun e => execSaveAreaExhausted e.1) ++
  ((s.parts.filter fun e => e.2.ctx.isSome).map fun e => execAllParked e.1) ++
  (s.warps.filterMap fun e => match e.2.stat with | .fshoot .. => some (execFshootTimeout e.1) | _ => none)

/-- The state after an act, when the act changes it. -/
def changed (s : State) (o : Out) : Option State :=
  match o with
  | .next s' => if s' = s then none else some s'
  | _ => none

/-- The first act of a list that changes the state. -/
def firstAct (s : State) (l : List Due) : Option State := l.findSome? fun f => changed s (f s)

/-- One act of the machine when nothing is pending and no slot holds a run. -/
def idleStep (s : State) : State :=
  (firstAct s (flightActs s ++ chipActs s ++ partActs s ++ turnActs s ++ slotActs s ++ lastActs s)).getD s

/-- One step of the machine: the runs that hold slots are performed one after another, in the order in which they won
them (log 1). -/
def nextStep (s : State) : Out :=
  match s.agenda with
  | i :: rest => exec i { s with agenda := rest }
  | [] =>
    match s.cur.or s.runs.head? with
    | some k => match getWarp s k with
      | some w => runWarp { s with cur := some k } k w
      | none => .next (freeSlot { s with cur := none } k)
    | none => .next (idleStep s)

/-! ## Placing an instruction (log 2) -/

/-- A turn-mode context with its root table at 1 MiB. -/
def probeCtx : Ctx :=
  { sec := false, turn := true, num := 0, root := 0x100000, rtab := 0, rcount := 0, tvec := 0x1800, admrec := 0x40000, admlen := 1
    pool := 0, poollen := 0, repro := 0, msibase := 0 }

/-- A card of one group of one warp of 16 lanes with every register, entered at 0x1000. -/
def probeCard : Card :=
  { newCard { width := 16, groups := 1, warps := [1], allots := [256], gmem := 4096, canon := 128, split := 8, quantum := 1024, save := 0 }
      0x1000 0 with placed := true, next := 1 }

/-- Tables that map the page at 0x1000 to itself, readable and executable, and the bytes of an instruction there. -/
def probeMem (m : Memory) (code : List Byte) : Memory :=
  let m := wrBytes m 0x100000 (leBytes 8 0x200001)
  let m := wrBytes m 0x200000 (leBytes 8 0x201001)
  let m := wrBytes m 0x201000 (leBytes 8 0x202001)
  let m := wrBytes m 0x202008 (leBytes 8 0x1043)
  wrBytes m 0x1000 code

/-- The state in which the very next step fetches and runs the instruction with those bytes: a context on partition 0 of
chip 0, with one card whose one warp holds the issue. -/
def placeCode (s : State) (code : List Byte) : State :=
  let w := { newWarp probeCard probeCtx 0 0 256 0 0 with stat := .ready, slot := some 0 }
  let g : Group :=
    { chip := 0, core := some 0, order := 0, saved := false, slotAt := 0, ask := none, gsize := 4096, gmem := [], acc := [], bufs := [], bars := [], poolCap := 256
      poolFree := 0, claims := [] }
  let box : Mbox := { Mbox.closedBox with
    closed := false, count := 1, cur := some { n := 1, typ := 0, base := 0, card := some 0, doneAddr := 0, mark := none } }
  let s := { s with agenda := [], cur := some 0, runs := [0], mem := probeMem s.mem code }
  let s := setChip s 0 { getChip s 0 with
    pmap := 0xB0, fxEn := false, regions := [], dieTlb := [], walks := []
    cores := smap Core.reset (fun co => { co with tlb := [], icache := [] }) (getChip s 0).cores }
  let s := setPart s 0 { getPart s 0 with ctx := some probeCtx, mboxes := [(0, box)] }
  { s with cards := kinsert s.cards 0 probeCard, groups := kinsert s.groups 0 g, warps := kinsert s.warps 0 w }

end Sys2Proof.Machine
end

