-- ==== Sys2Proof/Machine/Step.lean ====
section
/-! DEFINITION. One step of the machine, and an instruction placed where the next step fetches. -/

namespace Sys2Proof.Machine

/-- One step: the next pending event, one instruction of the run being performed, or the next act that is due. -/
def step (s : State) : Host.Outcome State Fault Refusal := nextStep s

/-- The machine with the instruction whose bits are `w` placed where its next step fetches (log 2). -/
def State.withFetchWord (s : State) (nbits w : Nat) : State :=
  placeCode s ((Sys2Proof.tableWords nbits w).flatMap Sys2Proof.bytesOfWord)

end Sys2Proof.Machine
end

