-- ==== Sys2Proof/Safety.lean ====
section
/-! DEFINITION. The words in which claims about the machine are made: canonical data, a machine instruction that reaches its
own effect, what its retirement leaves, and the values that rules give for single elements. -/

namespace Sys2Proof.Machine

/-! ## Canonical data -/

/-- The register files of a warp list no register twice, in order, and none that holds its unlisted value. -/
def Warp.wf (w : Warp) : Bool := swf 0 w.v && swf 0 w.s && swf 0 w.p && swf JReg.empty w.j && swf 0 w.shadow

/-- Device memory and host memory have their canonical form. -/
def State.memWf (s : State) : Bool := s.mem.wf && s.hostMem.wf

/-- A step that answers a next state. -/
def goes (o : Out) : Bool :=
  match o with
  | .next _ => true
  | _ => false

/-! ## An instruction that reaches its own effect -/

/-- The state in which an instruction of warp `k`, which is `w`, comes to its own checks: a park point has written every
outstanding result (R75), one that follows unconfirmed loads with no region open has seen them confirmed (R97), and one that
orders posted stores has performed them (R166); `none` when it waits, an earlier access faults, a store is held, or a parked
repeat names a register out of range (R92) or a parked branch a misaligned target (R83). -/
def prepared (s : State) (k : Nat) (w : Warp) (o : Op) (f : Long) : Option State :=
  match (if parks o f then settle s k else if needsConfirm s k w o f then confirm s k else .ok s) with
  | .ok s => (getWarp s k).bind fun v =>
    if parks o f && ((branchFault v o f).isSome || (repRange s k v o f).isSome) then none
    else if takesAt v o f then
      if (getWarp (drainAll s k) k).any (fun x => (heldOf x).isSome) || postWaits (drainAll s k) k then none
      else some (drainAll s k)
    else some s
  | _ => none

/-- Warp `k` holds the issue and is `w`; the instruction passes the checks that R59 makes before its own, comes to `s0` with
the warp `w0` live, its card is not stopped, its turn may perform (R193, R195), and no home
refuses the hand that a domain turn publishes (R346). -/
structure Clear (s : State) (k : Nat) (w : Warp) (o : Op) (f : Long) (s0 : State) (w0 : Warp) : Prop where
  cur : s.cur = some k
  warp : getWarp s k = some w
  checks : preCheck s k w o f = none
  prep : prepared s k w o f = some s0
  warp0 : getWarp s0 k = some w0
  live : isLive w0 = true
  running : ((getCard s0 k).all fun c => c.stop.isNone) = true
  turn : turnFree s0 k w0 o f = true
  accepted : turnKind w0 o f = .domain → handRefusals s0 (chipOf (partOf k)) w0.sec w0.hand false = []

/-- The warp as its instruction performs: the region has taken the instruction's registers or is closed (R96). -/
def atIssue (s : State) (k : Nat) (w : Warp) (o : Op) (f : Long) : Warp :=
  { w with region := regionAt s k w o f, stat := .ready }

/-- The machine instruction `i` of warp `k`, which is the operation `o` with fields `f` in `len` bytes, performs its own
effect from the state `s1`, where the warp is `w`. -/
def Performs (i : Instr) (s : State) (k : Nat) (o : Op) (f : Long) (len : Nat) (s1 : State) (w : Warp) : Prop :=
  i.core = some (o, f, len) ∧
  ∃ v s0 w0, Clear s k v o f s0 w0 ∧ w = atIssue s0 k w0 o f ∧ s1 = setWarp s0 k w

/-! ## What retirement leaves -/

/-- Two warps agree but for the run: its length, its slot, the debugger's halt, and the model's record of the round's turns. -/
def SameRun (x v : Warp) : Prop :=
  { x with runLen := v.runLen, slot := v.slot, haltReq := v.haltReq, halted := v.halted, turns := v.turns } = v

/-- `t` is `s` but for which run is being performed. -/
structure UpToRun (s t : State) (k : Nat) : Prop where
  warp : ∃ x v, getWarp t k = some x ∧ getWarp s k = some v ∧ SameRun x v
  others : ∀ j, j ≠ k → getWarp t j = getWarp s j
  rest : { t with warps := s.warps, cur := s.cur, runs := s.runs } = s

/-- The warp after an instruction of `len` bytes: the next address (R180), or within a repeat the next repetition (R92); the
run is one instruction longer (R73). -/
def advance (v : Warp) (pc : Pc) (len : Nat) : Warp :=
  let run (v : Warp) : Warp := { v with runLen := v.runLen + 1, pending := false, passed := false }
  match v.rep with
  | some r =>
    if v.repidx + 1 < r.count then { v with repidx := v.repidx + 1, pending := false, passed := false }
    else run (setPc { v with repidx := 0, rep := none } (curPc v + BitVec.ofNat 64 r.len))
  | none => match pc with
    | .next => run (setPc v (curPc v + BitVec.ofNat 64 len))
    | .goto a => run (setPc v a)
    | .keep => run v

/-- `i` answers a next state: the state `s2` that its effect made, with the warp `v`, once the fragment has gone on to `pc` and
the clock has moved to `c` (`moveClock`: R178, R186). -/
def RetiresAt (i : Instr) (s : State) (k len : Nat) (s2 : State) (v : Warp) (pc : Pc) (c : Nat) : Prop :=
  ∃ t, exec i s = .next t ∧ UpToRun (moveClock (setWarp s2 k (advance v pc len)) k c) t k

/-- As `RetiresAt`, with a change of the warp that follows its retirement. -/
def RetiresThen (i : Instr) (s : State) (k len : Nat) (s2 : State) (v : Warp) (pc : Pc) (c : Nat) (after : Warp → Warp) : Prop :=
  ∃ t, exec i s = .next t ∧ UpToRun (updWarp (moveClock (setWarp s2 k (advance v pc len)) k c) k after) t k

/-- `i` answers the next state `s2`, but for which run is being performed. -/
def Becomes (i : Instr) (s : State) (k : Nat) (s2 : State) : Prop := ∃ t, exec i s = .next t ∧ UpToRun s2 t k

/-- It goes on at the next instruction, and the clock moves by the weight (R178). -/
def Retires (i : Instr) (s : State) (k : Nat) (o : Op) (f : Long) (len : Nat) (s2 : State) (v : Warp) : Prop :=
  RetiresAt i s k len s2 v .next (v.clock + weightOf v o f)

/-! ## Taking an exception -/

/-- `x` is the warp `w` in its handler (R97, R99, R100): the trap registers hold the cause, its kind, an address, where the
instruction stands, the clock, the fragment with its siblings, and the region; the clock is the one named, privilege is
system, and the fragment continues at `%tvec`. Every register of the program is as it was. -/
structure InHandler (w x : Warp) (cause kind : Nat) (addr tpc : Dword) (clk : Nat) : Prop where
  cause : x.tcause = BitVec.ofNat 64 (kind % 256 * 256 + cause)
  addr : x.taddr = addr
  tpc : x.tpc = tpc
  tclock : x.tclock = BitVec.ofNat 64 clk
  tfrag : ∀ g, curFrag w = some g → x.tfrag = BitVec.ofNat 64 (g.parent * 2 ^ 8 + g.id) ∧ x.tsibs = g.sibs
  noRegion : w.region = none → x.tregion = 0
  region : ∀ r, w.region = some r → x.tregion = BitVec.ofNat 64 (r.resumes * 2 ^ 57 + r.entry.toNat % 2 ^ 57 / 4 * 4 + 1)
  clock : x.clock = clk
  sys : x.sys = true
  rep : x.rep = none
  pc : x.frags = w.frags.map fun g => if g.id == w.run then { g with pc := w.tvec } else g
  registers : x.v = w.v ∧ x.s = w.s ∧ x.p = w.p ∧ x.j = w.j ∧ x.shadow = w.shadow
  flags : x.fpstat = w.fpstat ∧ x.lxstat = w.lxstat ∧ x.mstat = w.mstat ∧ x.jstat = w.jstat
  vector : x.tvec = w.tvec
  still : x.region = w.region ∧ x.hand = w.hand ∧ x.allot = w.allot ∧ x.repidx = w.repidx

/-- The state in which warp `k` raises a precise fault once every outstanding result is written and, at user privilege, every
posted store has performed (R97, R166), with the warp in it; `none` when it waits or an earlier access faults. -/
def faulting (s : State) (k : Nat) : Option (State × Warp) :=
  match settle s k with
  | .ok s => (getWarp (drainAll s k) k).map fun w => (drainAll s k, w)
  | _ => none

/-- `i` takes an exception: in the state it leaves, the warp `k` is `w` in its handler, and nothing but the warp differs
from `s2`. -/
def TakesTrap (i : Instr) (s : State) (k : Nat) (s2 : State) (w : Warp) (cause kind : Nat) (addr tpc : Dword) (clk : Nat) : Prop :=
  ∃ t x, exec i s = .next t ∧ getWarp t k = some x ∧ InHandler w x cause kind addr tpc clk ∧
    (∀ j, j ≠ k → getWarp t j = getWarp s2 j) ∧ { t with warps := s2.warps, cur := s2.cur, runs := s2.runs } = s2

/-- A repeat prefix names register `r` out of range in one of its repetitions (R92). -/
def RepFault (s : State) (k : Nat) (w : Warp) (o : Op) (f : Long) (r : Int) : Prop :=
  (o = .rep ∨ o = .repReg) ∧ ∃ j n o' g m, repFetch s k w = .ok j n ∧ j.core = some (o', g, m) ∧
    strideFault w f.imm (repCount w o f) o' g = some r

/-- A branch by register has the misaligned target `x` (R83). -/
def Misaligned (w : Warp) (o : Op) (f : Long) (x : Dword) : Prop :=
  o ∈ [.brx, .ret, .callReg] ∧ rdS w f.a.toNat = x ∧ x.toNat % 4 ≠ 0

/-- The first check of R59 that an instruction fails before its own effect, by its cause and `%taddr`: the fetch of a repeat's
target (with the secure address that refused it), a branch's misaligned target in a register with no outstanding result (log 97),
illegal (a repeat with its target, where no home refused its fetch; R90, R91, R101), privilege, register range, and where it is no park
point the range of a repeat and an unparked hazard. -/
def FailsCheck (s : State) (k : Nat) (v : Warp) (o : Op) (f : Long) (cause : Nat) (addr : Dword) (secure : Option Nat) : Prop :=
  let rep := o = .rep ∨ o = .repReg
  let target := repFetch s k v
  let barred (o : Op) : Prop := v.sys = true ∧ sysIllegal o = true
  let fits := ∃ j n o' g m, target = .ok j n ∧ j.core = some (o', g, m) ∧ f.fl.en = false ∧ repTarget o' = true ∧
    o'.legal g = true ∧ ¬barred o' ∧ stridesOk f.imm o' g = true
  let known := v.outst.contains (256 + f.a.toNat) = false
  let fetched := (rep → ∀ a e, target ≠ .fault a e) ∧ (known → ∀ x, ¬Misaligned v o f x)
  let refused := ∃ a key kind, target = .refused a key kind
  let legal := fetched ∧ o.legal f = true ∧ ¬barred o ∧ (rep → fits ∨ refused)
  let allowed := legal ∧ (v.sys = true ∨ privileged o f = false)
  let named := allowed ∧ rangeFault v o f = none ∧ parks o f = false
  (rep ∧ cause = 5 ∧ target = .fault addr secure) ∨
  (secure = none ∧
    ((known ∧ Misaligned v o f addr ∧ cause = 7) ∨
     (fetched ∧ ¬legal ∧ cause = 1 ∧ addr = curPc v) ∨
     (legal ∧ v.sys = false ∧ privileged o f = true ∧ cause = 2 ∧ addr = curPc v) ∨
     (allowed ∧ cause = 4 ∧ ∃ r, rangeFault v o f = some r ∧ addr = BitVec.ofNat 64 r) ∨
     (named ∧ cause = 4 ∧ ∃ r, RepFault s k v o f r ∧ addr = BitVec.ofInt 64 r) ∨
     (named ∧ cause = 3 ∧ (∀ r, ¬RepFault s k v o f r) ∧ ∃ r, hazard v o f = some r ∧ addr = BitVec.ofNat 64 r)))

/-- What a failed check leaves before its trap: a fetch that faults has read the tables of its walk (R14), and the secure address that
refused it is reported (R377). -/
def reported (s : State) (k cause : Nat) (addr : Dword) (secure : Option Nat) : State :=
  reportSecure (if cause = 5 then walkTouch s (siteOf s k) addr.toNat else s) (partOf k) { kind := 0, secure := secure }

/-- A warp of a user program with its trap registers loaded and its clock that of the fault (R93, R97, R99, R100). -/
def trapLoaded (w : Warp) (cause kind : Nat) (addr tpc : Dword) (clk : Nat) : Warp := { w with
  tcause := BitVec.ofNat 64 (kind % 256 * 256 + cause), taddr := addr, tpc := tpc, tclock := BitVec.ofNat 64 clk
  tfrag := BitVec.ofNat 64 ((curFrag w).elim 0 fun g => g.parent * 2 ^ 8 + g.id), tsibs := (curFrag w).elim 0 fun g => g.sibs
  tregion := w.region.elim 0 fun r => BitVec.ofNat 64 (r.resumes * 2 ^ 57 + r.entry.toNat % 2 ^ 57 / 4 * 4 + 1)
  clock := clk, rep := none, passed := false }

/-- The fault of warp `k` ends its card (R35, R101): from the state `s2`, in turn mode the warp stops until the fault's stamp is
the least; in free mode the card stops at once, and the warp with it (log 9). -/
def EndsCard (i : Instr) (s : State) (k : Nat) (s2 : State) (w : Warp) (cause kind clk : Nat) : Prop :=
  (w.turn = true → Becomes i s k (updWarp s2 k fun x => { x with stat := .dying cause kind clk })) ∧
  (w.turn = false → exec i s = .next (sweepCard (stopWarp (stopCard s2 (cardKey k) (clk, identOf k) cause kind 2) k
    (nextMark w.quantum clk) (clk, identOf k)) (cardKey k)))

/-- A fault that no handler takes ends the card (R99, R101): at system privilege with cause 0x11, the inner cause as its kind and the
inner `%taddr`; at user privilege without a handler with its own cause and kind. -/
def Unhandled (i : Instr) (s : State) (k : Nat) (s2 : State) (w : Warp) (cause kind : Nat) (addr tpc : Dword) (clk : Nat) : Prop :=
  (w.sys = true → EndsCard i s k (updWarp s2 k fun x => { x with clock := clk, taddr := addr }) w 0x11 cause clk) ∧
  (w.sys = false → w.tvec = 0 → EndsCard i s k (setWarp s2 k (trapLoaded w cause kind addr tpc clk)) w cause kind clk)

/-! ## A synchronising operation where it performs -/

/-- A synchronising operation comes to perform when its elements pass check 5 and it stalls at no buffer (R203): on group
memory in its own state; else, where it has not to wait for an earlier access of its lines or for a page on the move
(R173, R341), once `syncTouch` has happened and no home refuses it (R346). The state, the warp, the home and the elements;
`load` when it reads. -/
def reachesHome (s : State) (k : Nat) (w : Warp) (o : Op) (f : Long) (use : Use) (window load : Bool) :
    Option (State × Warp × Home × List Acc) :=
  match checkAll s k w o f (some use) window with
  | (_, some _) => none
  | (xs, none) =>
    if window && inWindow w o f then
      match getGroup s k with
      | some g => if xs.any (fun x => rangeStall w g false x.va (elemSize o f)) then none else some (s, w, .group, xs)
      | none => none
    else
      let s := if w.turn then s else serveCore s k (xs.map accKey)
      if syncWaits s k ((getWarp s k).getD w) load xs || !(refusedAccs (syncTouch o f use s k w xs) k w xs).isEmpty then none
      else let s := syncTouch o f use s k w xs
        (getWarp s k).map fun v => (s, v, if v.turn then .turn else .free, xs)

/-- The element at its home: `n` bytes of what the operation reads there. -/
def homeNat (m : Memory) (x : Acc) (n : Nat) : Nat := leNat ((List.range n).map fun i => rdByte m (homeKey x + i))

/-! ## Values that the rules give -/

/-- A comparison of R126 on two integers: codes 0 to 5. -/
def compares (cc : Nat) (a b : Int) : Bool :=
  match cc with
  | 0 => a == b
  | 1 => a != b
  | 2 => decide (a < b)
  | 3 => decide (a ≤ b)
  | 4 => decide (a > b)
  | _ => decide (a ≥ b)

/-- The result column of R127 on sources of `w` bits. -/
def scalarRule {w : Nat} (o : Op) (cc : Nat) (signed : Bool) (a b c : BitVec w) : BitVec w :=
  match o with
  | .sadd => a + b
  | .ssub => a - b
  | .smul => a * b
  | .sand => a &&& b
  | .sor => a ||| b
  | .sxor => a ^^^ b
  | .sshl => a <<< (b.toNat % w)
  | .sshr => a >>> (b.toNat % w)
  | .ssra => a.sshiftRight (b.toNat % w)
  | .scmp => if (if signed then compares cc a.toInt b.toInt else compares cc a.toNat b.toNat) then 1 else 0
  | .ssel => if c ≠ 0 then a else b
  | _ => b

/-- What a scalar instruction writes (R127): 64 bits, or the low 32 bits of its sources and a result extended to 64. -/
def scalarResult (o : Op) (t : Ty) (cc : Nat) (a b c : Dword) : Dword :=
  match t with
  | .i32 => (scalarRule o cc true (a.setWidth 32) (b.setWidth 32) (c.setWidth 32)).signExtend 64
  | .n32 => (scalarRule o cc false (a.setWidth 32) (b.setWidth 32) (c.setWidth 32)).setWidth 64
  | .i64 => scalarRule o cc true a b c
  | _ => scalarRule o cc false a b c

/-- The second source of a scalar instruction: `sB`, or the literal (R48). -/
def scalarB (w : Warp) (f : Long) : Dword := f.lit.getD (rdS w f.b.toNat)

/-- The operation column of R129 on elements given as bits: the result (its low bits count) and the flags. -/
def intRule (o : Op) (t : Ty) (a b c : Nat) : Nat × Nat :=
  let w := tyBits t
  let x := tyVal t a
  let y := tyVal t b
  let k := b % w
  let x24 (v : Nat) : Int := intOf (tySigned t) 24 v
  let clamp (v : Int) : Nat × Nat :=
    if v < tyLo t then (wrapN w (tyLo t), 32) else if tyHi t < v then (wrapN w (tyHi t), 32) else (wrapN w v, 0)
  match o with
  | .vadd => (wrapN w (x + y), 0)
  | .vsub => (wrapN w (x - y), 0)
  | .vadds => clamp (x + y)
  | .vsubs => clamp (x - y)
  | .vmul24 => (wrapN 32 (x24 a * x24 b), 0)
  | .vmad24 => (wrapN 32 (x24 a * x24 b + c), 0)
  | .vmul => (wrapN w (x * y), 0)
  | .vmulh => (wrapN w (x * y / 2 ^ w), 0)
  | .vmad => (wrapN w (x * y + tyVal t c), 0)
  | .vmin => (wrapN w (min x y), 0)
  | .vmax => (wrapN w (max x y), 0)
  | .vabs => (wrapN w x.natAbs, 0)
  | .vand => (a &&& b, 0)
  | .vor => (a ||| b, 0)
  | .vxor => (a ^^^ b, 0)
  | .vnot => (2 ^ w - 1 - a, 0)
  | .vshl => (a * 2 ^ k, 0)
  | .vshr => (a / 2 ^ k, 0)
  | .vsra => (wrapN w (intOf true w a / 2 ^ k), 0)
  | .vrot => (a * 2 ^ k % 2 ^ w + a / 2 ^ (w - k), 0)
  | .vpopc => ((List.range w).countP fun i => a.testBit i, 0)
  | .vclz => (if a = 0 then w else w - 1 - Nat.log2 a, 0)
  | _ => (((List.range w).map fun i => if a.testBit i then 2 ^ (w - 1 - i) else 0).sum, 0)

/-- `VBFE` and `VBFI` of R130: `i` is the index operand. -/
def fieldRule (o : Op) (t : Ty) (a i c : Nat) : Nat :=
  let w := tyBits t
  let pos := i % 2 ^ 8
  let len := i / 2 ^ 8 % 2 ^ 8
  let n := min len (w - pos)
  if len = 0 ∨ w ≤ pos then (if o = .vbfe then 0 else c)
  else if o = .vbfe then wrapN w (intOf (tySigned t) n (a / 2 ^ pos))
  else c % 2 ^ pos + a % 2 ^ n * 2 ^ pos + c / 2 ^ (pos + n) * 2 ^ (pos + n)

/-- The operations of R133 to R136 that act on elements: one rounding of the exact result (R109), NaN results canonical
(R108), a difference that is zero +0, and −0 in mode 3 (R111; for zeros of one sign log 84). -/
def floatRule (o : Op) (t : Ty) (mode a b c : Nat) : Nat × Nat :=
  let m := tyFmt t
  let x := fdec m a
  let y := fdec m b
  let sign := 2 ^ (tyBits t - 1)
  let rounded (v : FVal × Nat) : Nat × Nat := ((roundF m mode v.1).1, v.2 ||| (roundF m mode v.1).2)
  match o with
  | .vfadd => rounded (fsumE mode [x, y])
  | .vfsub => rounded (fsubE mode x y)
  | .vfmul => rounded (fmulE x y)
  | .vffma =>
    let p := fmulE x y
    let v := fsumE mode [p.1, fdec m c]
    rounded (v.1, p.2 ||| v.2)
  | .vfmin => fminmax m false a b
  | .vfmax => fminmax m true a b
  | .vfabs => (if isNaN x then fmtNaN m else a % sign, 0)
  | .vfneg => (if isNaN x then fmtNaN m else if a < sign then a + sign else a - sign, 0)
  | .vfclass => (2 ^ fclass m a, 0)
  | _ => vfrndOp t mode a b c

/-! ## Reductions and scans (R144, R145) -/

/-- `comb` of R144 on encodings of a type: `FN` 0 add, 1 min, 2 max, 3 and, 4 or, 5 xor. -/
def combRule (op mode : Nat) (t : Ty) (u v : Nat) : Nat × Nat :=
  if tyInt t then
    (match op with
     | 0 => wrapN (tyBits t) (tyVal t u + tyVal t v)
     | 1 => if tyVal t v < tyVal t u then v else u
     | 2 => if tyVal t u < tyVal t v then v else u
     | 3 => u &&& v
     | 4 => u ||| v
     | _ => u ^^^ v, 0)
  else floatRule (match op with | 0 => .vfadd | 1 => .vfmin | _ => .vfmax) t mode u v 0

/-- Position `i` of the tree of R144 after `h` of its levels, with the flags raised below it: what positions `i` and `i + 2^h'`
held after the level before, combined where both hold a value. -/
def reduceAt (c : Nat → Nat → Nat × Nat) (leaf : Nat → Option Nat) : Nat → Nat → Option Nat × Nat
  | 0, i => (leaf i, 0)
  | h + 1, i =>
    let x := reduceAt c leaf h i
    let y := reduceAt c leaf h (i + 2 ^ h)
    match x.1, y.1 with
    | some u, some v => (some (c u v).1, x.2 ||| y.2 ||| (c u v).2)
    | none, _ => (y.1, x.2 ||| y.2)
    | _, none => (x.1, x.2 ||| y.2)

/-- The running value of R145 after some elements. -/
def runOf (c : Nat → Nat → Nat × Nat) : List Nat → Option Nat
  | [] => none
  | x :: l => some (l.foldl (fun u v => (c u v).1) x)

/-- The identity of an operation (R145). -/
def identityRule (op : Nat) (t : Ty) : Nat :=
  let inf := fmtInf (tyFmt t)
  match op with
  | 1 => if tyInt t then wrapN (tyBits t) (tyHi t) else inf
  | 2 => if tyInt t then wrapN (tyBits t) (tyLo t) else 2 ^ (tyBits t - 1) + inf
  | 3 => 2 ^ tyBits t - 1
  | _ => 0

/-! ## Registers granted (R95) -/

/-- The claims, each a warp and a count, that a pool grants from the head of a queue, and what it then has left. -/
def grantsFrom : Nat → List (Nat × Nat) → List (Nat × Nat) × Nat
  | pool, [] => ([], pool)
  | pool, e :: r =>
    if e.2 ≤ pool then (e :: (grantsFrom (pool - e.2) r).1, (grantsFrom (pool - e.2) r).2) else ([], pool)

end Sys2Proof.Machine
end

