-- ==== Sys2Proof/Certificates/Slice0/Obligations.lean ====
section
/-! DEFINITION. The statements about the machine, by family of the instruction set and by part of the machine. -/

open Sys2Proof Sys2Proof.Machine

/-! ## Arithmetic -/

/-- R127: every scalar instruction writes its result into `sD`, of which a write to `s0` is discarded (R51), and nothing
else changes. -/
def Obligations.ScalarInstructionsWriteTheirResult : Prop :=
  ∀ (i : Instr) (s s1 : State) (k len : Nat) (o : Op) (f : Long) (w : Warp), Performs i s k o f len s1 w →
    o ∈ [.sadd, .ssub, .smul, .sand, .sor, .sxor, .sshl, .sshr, .ssra, .scmp, .ssel, .smov] →
    Retires i s k o f len s1
      (wrS w f.d.toNat (scalarResult o f.ty f.fn.toNat (rdS w f.a.toNat) (scalarB w f) (rdS w f.c.toNat)))

/-- R125, R129: the element-wise integer instructions, lane by lane and element by element. -/
def Obligations.IntegerInstructionsWriteTheirElements : Prop :=
  ∀ (i : Instr) (s s1 : State) (k len : Nat) (o : Op) (f : Long) (w : Warp), Performs i s k o f len s1 w →
    o ∈ [.vadd, .vsub, .vadds, .vsubs, .vmul24, .vmad24, .vmul, .vmulh, .vmad, .vmin, .vmax, .vabs, .vand, .vor, .vxor,
      .vnot, .vshl, .vshr, .vsra, .vrot, .vpopc, .vclz, .vbrev] →
    Retires i s k o f len s1 (elementwise w o f (intRule o f.ty))

/-- R130, R131: bit fields, selection, moves and comparisons of integers in the active lanes. -/
def Obligations.FieldSelectMoveCompareWriteActiveLanes : Prop :=
  ∀ (i : Instr) (s s1 : State) (k len : Nat) (o : Op) (f : Long) (w : Warp), Performs i s k o f len s1 w →
    let lanes := activeL w o f
    let a := rdReg w f.ty f.a.toNat
    let b := rdB w f.ty f
    (o ∈ [.vbfe, .vbfi] → Retires i s k o f len s1 (perLane w lanes f.ty f.d.toNat fun l =>
      (fieldRule o f.ty (a l) (rdB1 w f l) (rdReg w f.ty f.c.toNat l), 0))) ∧
    (o = .vsel → Retires i s k o f len s1 (perLane w lanes f.ty f.d.toNat fun l =>
      (if (rdP w f.c.toNat).getLsbD l then a l else b l, 0))) ∧
    (o = .vmov → Retires i s k o f len s1 (perLane w lanes f.ty f.d.toNat fun l => (b l, 0))) ∧
    (o = .vmovBc → Retires i s k o f len s1 (perLane w lanes f.ty f.d.toNat fun _ => ((rdS w f.a.toNat).toNat, 0))) ∧
    (o = .vcmp → Retires i s k o f len s1 (perLaneP w lanes f.d.toNat fun l =>
      (compares f.fn.toNat (tyVal f.ty (a l)) (tyVal f.ty (b l)), 0)))

/-- R125, R133 to R136: the element-wise floating-point instructions round the exact result once and raise its flags.
A difference of zeros is +0, in mode 3 −0 (R111); that it is so for two zeros of one sign too is the model's choice (log 84). -/
def Obligations.FloatInstructionsWriteRoundedElements : Prop :=
  ∀ (i : Instr) (s s1 : State) (k len : Nat) (o : Op) (f : Long) (w : Warp), Performs i s k o f len s1 w →
    o ∈ [.vfadd, .vfsub, .vfmul, .vffma, .vfmin, .vfmax, .vfabs, .vfneg, .vfclass, .vfrnd] →
    Retires i s k o f len s1 (elementwise w o f (floatRule o f.ty f.mod.toNat))

/-- R135 to R139: comparison, scaling, the two-term dot product, conversion, and block floating point, each over the active
lanes with every source read before any destination is written (R123). -/
def Obligations.FloatCompareScaleConvertWriteActiveLanes : Prop :=
  ∀ (i : Instr) (s s1 : State) (k len : Nat) (o : Op) (f : Long) (w : Warp), Performs i s k o f len s1 w →
    let lanes := activeL w o f
    let a := rdReg w f.ty f.a.toNat
    let mode := f.mod.toNat
    (o = .vfcmp → Retires i s k o f len s1 (perLaneP w lanes f.d.toNat fun l =>
      cmpFloat f.fn.toNat (fdec (tyFmt f.ty) (a l)) (fdec (tyFmt f.ty) (rdB w f.ty f l)))) ∧
    (o = .vfscale → Retires i s k o f len s1 (perLane w lanes f.ty f.d.toNat fun l =>
      if tyBits f.ty = 16 then
        mapElems f.ty (fun x e _ => scaleElem f.ty mode x (intOf true 16 e)) (a l) (rdB1 w f l) 0
      else scaleElem f.ty mode (a l) (intOf true 32 (rdB1 w f l)))) ∧
    (o = .vfdot2 → Retires i s k o f len s1 (perLane w lanes .f32 f.d.toNat fun l =>
      dot2 f.ty mode (rdV w f.a.toNat l).toNat (rdB w f.ty f l) (rdV w f.c.toNat l).toNat)) ∧
    (o = .vcvt → ∀ src, Ty.ofCode f.c.toNat = some src →
      Retires i s k o f len s1 (perLane w lanes f.ty f.d.toNat fun l =>
        let x := rdReg w src f.a.toNat l
        let one (e : Nat) : Nat × Nat := roundTo f.ty mode (valOf src e)
        if tyBits f.ty = 16 then
          if tyBits src = 16 then packTwo (one (elemOf src x 0)) (one (elemOf src x 1))
          else packTwo (one x) (one (rdReg w src f.b.toNat l))
        else if tyBits src = 16 then one (elemOf src x f.fn.toNat)
        else one x)) ∧
    (o = .vbfpq → Retires i s k o f len s1 (lanes.foldl (fun v l =>
      let (e, block, flags) :=
        bfpQuant (f.ty.code - 14) ((List.range 16).map fun i => fdec fmt32 (rdV w (f.a.toNat + i) l).toNat)
      let words := (List.range ((f.ty.code - 14 + 1) / 2)).map fun i => block / 2 ^ (32 * i) % 2 ^ 32
      raiseFp (wrV (wrRun v f.d.toNat l words) f.c.toNat l (setByteSel (rdV w f.c.toNat l) f.imm.toNat e)) flags) w)) ∧
    (o = .vbfpx → Retires i s k o f len s1 (lanes.foldl (fun v l =>
      let e := (rdV w f.c.toNat l).toNat / 2 ^ (8 * f.imm.toNat) % 2 ^ 8
      let block := rdRun w f.a.toNat l ((f.ty.code - 14 + 1) / 2)
      let ys := (List.range 16).map fun i => roundF fmt32 0 (bfpElem (f.ty.code - 14) e block i)
      raiseFp (wrRun v f.d.toNat l (ys.map (·.1))) (orAll (ys.map (·.2)))) w))

/-- R142, R146, R147, R143: shuffles and broadcasts, matches, predicate logic and moves, and votes. -/
def Obligations.CrossLaneInstructionsWriteTheirResult : Prop :=
  ∀ (i : Instr) (s s1 : State) (k len : Nat) (o : Op) (f : Long) (w : Warp), Performs i s k o f len s1 w →
    let lanes := activeL w o f
    let a := rdReg w f.ty f.a.toNat
    let votes := active w o f &&& rdP w f.a.toNat
    let absent (v : Warp) : Warp := if curLanes w = fullMask w.width then v else { v with jstat := v.jstat ||| 2 }
    (o = .vshfl → Retires i s k o f len s1 (perLane w lanes f.ty f.d.toNat fun l =>
      let x := rdB1 w f l
      (a (match f.fn.toNat with
        | 0 => x % w.width
        | 1 => l ^^^ (x % w.width)
        | 2 => if x ≤ l then l - x else l
        | _ => if l + x < w.width then l + x else l), 0))) ∧
    (o = .vbcast → Retires i s k o f len s1
      (perLane w lanes f.ty f.d.toNat fun _ => (a ((scalarB w f).toNat % w.width), 0))) ∧
    (o = .vbcastS → Retires i s k o f len s1 (wrS w f.d.toNat (BitVec.ofNat 64 (a ((scalarB w f).toNat % w.width))))) ∧
    (o = .vmatch → Retires i s k o f len s1 (perLaneP w lanes f.d.toNat fun l =>
      (if f.fn = 0 then lanes.any fun m => m != l && a m == a l else lanes.all fun m => a m == a l, 0))) ∧
    (o = .plop → Retires i s k o f len s1 (perLaneP w lanes f.d.toNat fun l =>
      (f.imm.getLsbD (2 * ((rdP w f.a.toNat).getLsbD l).toNat + ((rdP w f.b.toNat).getLsbD l).toNat), 0))) ∧
    (o = .pmovPs → Retires i s k o f len s1 (wrS w f.d.toNat (rdP w f.a.toNat))) ∧
    (o = .pmovSp → Retires i s k o f len s1 (perLaneP w lanes f.d.toNat fun l => ((rdS w f.a.toNat).getLsbD l, 0))) ∧
    (o = .vvote → Retires i s k o f len s1 (absent (perLaneP w lanes f.d.toNat fun _ =>
      (if f.fn = 0 then votes == fullMask w.width else votes != 0, 0)))) ∧
    (o = .vvoteBallot → Retires i s k o f len s1 (absent (wrS w f.d.toNat votes)))

/-- R144, R145: `VRDC` combines the active lanes in the fixed tree on lane positions (levels above W's combine with nothing), and
`VSCAN` from the lowest active lane upwards: each lane gets the running value with its own element, or in the exclusive form
the running value below it, and the first lane the identity. Each combination raises its own flags. -/
def Obligations.ReductionsAndScansCombineActiveLanes : Prop :=
  ∀ (i : Instr) (s s1 : State) (k len : Nat) (o : Op) (f : Long) (w : Warp), Performs i s k o f len s1 w →
    let a := rdReg w f.ty f.a.toNat
    let mode := f.mod.toNat
    (o = .vrdc →
      let tree := reduceAt (combRule f.fn.toNat mode f.ty)
        (fun l => if l < w.width ∧ (active w o f).getLsbD l = true then some (a l) else none) 6 0
      Retires i s k o f len s1 (match tree.1 with
        | some x => raiseFp (wrS w f.d.toNat (BitVec.ofInt 64 (intOf (tySigned f.ty) (tyBits f.ty) x))) tree.2
        | none => w)) ∧
    (o = .vscan →
      let c := combRule (f.fn.toNat % 8) mode f.ty
      let lanes := activeL w o f
      Retires i s k o f len s1 (perLane w lanes f.ty f.d.toNat fun l =>
        let run := runOf c ((lanes.filter fun m => decide (m < l)).map a)
        let next := match run with | some u => c u (a l) | none => (a l, 0)
        (if 8 ≤ f.fn.toNat then run.getD (identityRule (f.fn.toNat % 8) f.ty) else next.1, next.2)))

/-- R74, R114, R266, R278: a special function's results, rounded by `MOD`, are outstanding in `vD` from then on, with the
flags they raise, and take an entry for each pass in the slot's result queue (R279); no register changes yet. -/
def Obligations.SpecialFunctionResultsAreOutstanding : Prop :=
  ∀ (i : Instr) (s s1 : State) (k len : Nat) (o : Op) (f : Long) (w : Warp), Performs i s k o f len s1 w →
    o ∈ [.vrcp, .vrsq, .vsqrt, .vexp2, .vlog2, .vsinpi, .vcospi, .vtanh, .vfdiv] →
    let a (l : Nat) : Nat := (rdV w f.a.toNat l).toNat
    let value (l : Nat) : Nat × Nat := match o with
      | .vrcp => vrcp f.mod.toNat (a l)
      | .vrsq => vrsq f.mod.toNat (a l)
      | .vsqrt => vsqrt f.mod.toNat (a l)
      | .vexp2 => vexp2 f.mod.toNat (a l)
      | .vlog2 => vlog2 f.mod.toNat (a l)
      | .vsinpi => vsinpi f.mod.toNat (a l)
      | .vcospi => vcospi f.mod.toNat (a l)
      | .vtanh => vtanh f.mod.toNat (a l)
      | _ => vfdiv f.mod.toNat (a l) (rdB w .f32 f l)
    let lanes := activeL w o f
    Retires i s k o f len s1 { w with
      pend := w.pend ++ [{ regs := writeIds o f, writes := lanes.map fun l => .v f.d.toNat l (BitVec.ofNat 32 (value l).1)
                           fp := BitVec.ofNat 64 (orAll (lanes.map fun l => (value l).2)), lx := 0, remote := none
                           queue := some (w.slot.getD 0, w.width / 16) }]
      outst := (w.outst ++ writeIds o f).eraseDups }

/-- R272, R274 to R277: the level-index instructions' results, and the `PW` predicate, are outstanding with their `%lxstat`
flags, among them the crossings of R272. -/
def Obligations.LevelIndexResultsAreOutstanding : Prop :=
  ∀ (i : Instr) (s s1 : State) (k len : Nat) (o : Op) (f : Long) (w : Warp), Performs i s k o f len s1 w →
    let a (l : Nat) : Nat := (rdV w f.a.toNat l).toNat
    let b (l : Nat) : Nat := rdB w .sli f l
    let lanes := activeL w o f
    let outstanding (ws : List RegW) (fp lx : Nat) : Warp := { w with
      pend := w.pend ++ [{ regs := writeIds o f, writes := ws, fp := BitVec.ofNat 64 fp, lx := BitVec.ofNat 64 lx, remote := none
                           queue := some (w.slot.getD 0, w.width / 16) }]
      outst := (w.outst ++ writeIds o f).eraseDups }
    (o ∈ [.lxadd, .lxsub, .lxmul, .lxdiv, .lxexp, .lxlog] →
      let top (l : Nat) : Nat := if o = .lxexp ∨ o = .lxlog then sliLevel (a l) else max (sliLevel (a l)) (sliLevel (b l))
      let r (l : Nat) : Nat × Nat := match o with
        | .lxadd => lxAdd (a l) (b l)
        | .lxsub => lxSub (a l) (b l)
        | .lxmul => lxMul (a l) (b l)
        | .lxdiv => lxDiv (a l) (b l)
        | .lxexp => lxExp (a l)
        | _ => lxLog (a l)
      let cross (l : Nat) : Nat :=
        if top l < sliLevel (r l).1 then lxUp else if sliLevel (r l).1 < top l then lxDown else 0
      Retires i s k o f len s1 (outstanding
        (lanes.flatMap fun l => .v f.d.toNat l (BitVec.ofNat 32 (r l).1) ::
          (if f.imm.getLsbD 3 then [.p (f.imm.toNat % 8) l (sliLevel (r l).1 != top l)] else []))
        0 (orAll (lanes.map fun l => (r l).2 ||| cross l)))) ∧
    (o = .lxcmp → Retires i s k o f len s1
      (outstanding (lanes.map fun l => .p f.d.toNat l (lxCmp (f.imm.toNat % 8) (a l) (b l))) 0 0)) ∧
    (o = .lxlvl → Retires i s k o f len s1
      (outstanding (lanes.map fun l => .v f.d.toNat l (BitVec.ofNat 32 (lxLvl (a l)))) 0 0)) ∧
    (o = .lxcvt → ∀ src, Ty.ofCode f.fn.toNat = some src →
      let x (l : Nat) : Nat := rdReg w src f.a.toNat l
      let r (l : Nat) : Nat × Nat × Nat :=
        if f.ty = .sli then sliOfVal (x l) (fdec (tyFmt src) (x l))
        else ((valOfSli (tyFmt f.ty) f.mod.toNat (x l)).1, 0, (valOfSli (tyFmt f.ty) f.mod.toNat (x l)).2)
      Retires i s k o f len s1 (outstanding
        (lanes.flatMap fun l => if f.ty = .f64 then
            [.v f.d.toNat l (BitVec.ofNat 32 (r l).1), .v (f.d.toNat + 1) l (BitVec.ofNat 32 ((r l).1 / 2 ^ 32))]
          else [.v f.d.toNat l (BitVec.ofNat 32 (r l).1)])
        (orAll (lanes.map fun l => (r l).2.2)) (orAll (lanes.map fun l => (r l).2.1))))

/-! ## The sequencer -/

/-- R82, R83: `NOP` goes on; `BRA` and `CALL` go to the instruction's address plus four times the signed word offset, `BRX`, `RET`
and the register form of `CALL` to the aligned address in `sA`; `CALL` writes the next address into `sD`. -/
def Obligations.BranchesContinueAtTheirTarget : Prop :=
  ∀ (i : Instr) (s s1 : State) (k len : Nat) (o : Op) (f : Long) (w : Warp), Performs i s k o f len s1 w →
    let label := curPc w + BitVec.ofInt 64 (4 * f.imm.toInt)
    let target := rdS w f.a.toNat
    let c := w.clock + weightOf w o f
    let link := wrS w f.d.toNat (curPc w + BitVec.ofNat 64 len)
    (o = .nop → Retires i s k o f len s1 w) ∧
    (o = .bra → RetiresAt i s k len s1 w (.goto label) c) ∧
    (o = .brx ∨ o = .ret → target.toNat % 4 = 0 → RetiresAt i s k len s1 w (.goto target) c) ∧
    (o = .call → label.toNat % 4 = 0 → RetiresAt i s k len s1 link (.goto label) c) ∧
    (o = .callReg → target.toNat % 4 = 0 → RetiresAt i s k len s1 link (.goto target) c)

/-- R84: `BRC` takes the branch when every lane of the fragment meets the condition, goes on when none does, and else divides
the fragment: the lanes that meet it form a new fragment with the lowest free identifier, child of the issuing one, at the
target; and at user privilege the open region ends. -/
def Obligations.BrcTakesPassesOrDivides : Prop :=
  ∀ (i : Instr) (s s1 : State) (k len : Nat) (f : Long) (w : Warp), Performs i s k .brc f len s1 w →
    let p := rdP w f.pred.toNat
    let take := curLanes w &&& (if f.neg then ~~~p else p)
    let label := curPc w + BitVec.ofInt 64 (4 * f.imm.toInt)
    let c := w.clock + weightOf w .brc f
    (take = curLanes w → RetiresAt i s k len s1 w (.goto label) c) ∧
    (take ≠ curLanes w → take = 0 → RetiresAt i s k len s1 w .next c) ∧
    (take ≠ curLanes w → take ≠ 0 → RetiresThen i s k len s1 w .next c fun x =>
      let n := ((List.range 65).find? fun n => x.frags.all fun g => g.id != n).getD 64
      { x with
        frags := resib ((x.frags.map fun g => if g.id == x.run then { g with lanes := g.lanes &&& ~~~take } else g) ++
          [{ id := n, parent := x.run, sibs := 0, lanes := take, pc := label, wait := none }])
        region := if x.sys then x.region else none })

/-- R85, R88: `MARK` fills a rejoin register whose `ARRIVED` is 0, and `JMOV` copies one field of a rejoin register out or in,
dropping lanes at or above W. -/
def Obligations.MarkAndJmovWriteRejoinRegisters : Prop :=
  ∀ (i : Instr) (s s1 : State) (k len : Nat) (o : Op) (f : Long) (w : Warp), Performs i s k o f len s1 w →
    (o = .mark → (rdJ w f.a.toNat).arrived = 0 → Retires i s k o f len s1 (wrJ w f.a.toNat
      { addr := curPc w + BitVec.ofInt 64 (4 * f.imm.toInt), expect := curLanes w, arrived := 0 })) ∧
    (o = .jmovToS →
      let j := rdJ w f.a.toNat
      Retires i s k o f len s1
        (wrS w f.d.toNat (if f.imm = 0 then j.addr else if f.imm = 1 then j.expect else j.arrived))) ∧
    (o = .jmovToJ →
      let n := f.d.toNat
      let j := rdJ w n
      let x := rdS w f.a.toNat
      (f.imm = 0 → x.toNat % 4 = 0 → Retires i s k o f len s1 (wrJ w n { j with addr := x })) ∧
      (w.frags.all (fun g => g.wait != some n) = true →
        (f.imm = 1 → Retires i s k o f len s1 (wrJ w n { j with expect := x &&& fullMask w.width })) ∧
        (f.imm = 2 → Retires i s k o f len s1 (wrJ w n { j with arrived := x &&& fullMask w.width }))))

/-- R86, R87, R89: a `JOIN` whose arrivals complete `EXPECT` reunites the fragments that wait at the register with its own: the one
of the lowest identifier has the lanes of `ARRIVED` and continues at `ADDR`, the others are freed, and the register is empty; else
its fragment waits there and the run ends with the lowest-numbered fragment that waits nowhere, or, where none is, with the
release of the lowest register that a fragment waits at, which sets `LOST` and `LOSTJ`. An `EXIT` of a fragment that is not the
warp's last removes it. -/
def Obligations.JoinAndExitSwitchFragments : Prop :=
  (∀ (i : Instr) (s s1 : State) (k len : Nat) (o : Op) (f : Long) (w : Warp), Performs i s k o f len s1 w →
    let c := w.clock + weightOf w o f
    (o = .join →
      let n := f.a.toNat
      let j := rdJ w n
      let lanes := curLanes w
      let arrived (x : Warp) : Warp := wrJ x n { j with arrived := j.arrived ||| lanes }
      j.expect ≠ 0 → lanes &&& ~~~j.expect = 0 → lanes &&& j.arrived = 0 →
        (j.arrived ||| lanes = j.expect → RetiresThen i s k len s1 w .keep c fun x => reunite (arrived x) n (some x.run)) ∧
        (j.arrived ||| lanes ≠ j.expect → RetiresThen i s k len s1 w .keep c fun x =>
          let x := arrived x
          { switchFrag { x with frags := x.frags.map fun g => if g.id == x.run then { g with wait := some n } else g }
            with runLen := 24 })) ∧
    (o = .exit → w.frags.length ≠ 1 → RetiresThen i s k len s1 w .keep c fun x =>
      { switchFrag { x with frags := resib (x.frags.filter fun g => g.id != x.run) } with runLen := 24 })) ∧
  (∀ (x : Warp) (n : Nat) (own : Option Nat), swf JReg.empty x.j = true →
    let hit (g : Frag) : Bool := g.wait == some n || own == some g.id
    ∀ low ∈ x.frags, hit low = true → (∀ g ∈ x.frags, hit g = true → low.id ≤ g.id) →
    let y := reunite x n own
    y.run = low.id ∧ rdJ y n = JReg.empty ∧ (∀ m, m ≠ n → rdJ y m = rdJ x m) ∧
    y.frags = resib ((x.frags.filter fun g => !hit g || g.id == low.id).map fun g =>
      if g.id = low.id then { g with lanes := (rdJ x n).arrived, pc := (rdJ x n).addr, wait := none } else g) ∧
    { y with run := x.run, j := x.j, frags := x.frags } = x) ∧
  (∀ x : Warp,
    (∀ low ∈ x.frags, low.wait = none → (∀ g ∈ x.frags, g.wait = none → low.id ≤ g.id) → switchFrag x = { x with run := low.id }) ∧
    (∀ n, n < 8 → (∀ g ∈ x.frags, g.wait ≠ none) → (∃ g ∈ x.frags, g.wait = some n) →
      (∀ m, m < n → ∀ g ∈ x.frags, g.wait ≠ some m) →
      switchFrag x = { reunite x n none with jstat := BitVec.ofNat 64 (x.jstat.toNat % 256 / 2 * 2 + 1 + n * 256) }))

/-- R34, R89, R191: the `EXIT` of a warp's last fragment ends the warp, whose hand no home refuses: wherever the warp is still
listed, it has ended; in turn mode its unpublished bytes and its pot entries are published with the stamp (m - 1, identity),
where m is the least multiple of Q above its clock, the bytes before the entries (R184). -/
def Obligations.LastExitEndsTheWarp : Prop :=
  ∀ (i : Instr) (s s1 : State) (k len : Nat) (f : Long) (w : Warp), Performs i s k .exit f len s1 w →
    w.frags.length = 1 → handRefusals s1 (chipOf (partOf k)) w.sec w.hand true = [] →
    let pub (ord : Nat) (b : PubBody) : Pub :=
      { dom := domOf s1 (partOf k), stamp := ((w.clock / w.quantum + 1) * w.quantum - 1, identOf k), ord := ord, made := w.clock, body := b }
    ∃ t, exec i s = .next t ∧ t.cur ≠ some k ∧
      (∀ x, getWarp t k = some x → x.stat = .ended ∧ x.frags = [] ∧ x.clock = w.clock + 1) ∧
      (w.turn = true → (handFresh w.hand ≠ [] → pub 0 (.bytes (handFresh w.hand)) ∈ t.pubs) ∧
        ∀ e ∈ w.hand.pots, pub 2 (.pot e.key e.op e.ty e.val) ∈ t.pubs)

/-- R90 to R93: `REP` with a count above `%repidx` begins to repeat the next instruction: its own pip is added once, and the
fragment stays at the prefix; with a smaller count it passes the target by. `sA` counts as it stands once the results
outstanding are written (log 71). Where the prefix's own pip reaches a mark, its publication and the gate come between the prefix
and the first repetition: the model's choice (log 41). -/
def Obligations.RepBeginsOrSkipsTheTarget : Prop :=
  ∀ (i : Instr) (s s1 : State) (k len : Nat) (o : Op) (f : Long) (w : Warp), Performs i s k o f len s1 w →
    o = .rep ∨ o = .repReg →
    let written := (w.pend ++ w.unconf.flatMap fun u => u.pend.toList).foldl (fun w x => x.writes.foldl applyW w) w
    let count := if o = .rep then f.imm.toNat % 2 ^ 16 else (rdS written f.a.toNat).toNat % 2 ^ 16
    ∀ (j : Instr) (n : Nat), repFetch s1 k w = .ok j n →
      let pip := if w.repidx = 0 ∧ w.sys = false then 1 else 0
      (count ≤ w.repidx → w.rep = none → RetiresThen i s k len s1 { w with repidx := 0 }
        (.goto (curPc w + BitVec.ofNat 64 (12 + n))) (w.clock + pip) fun x => { x with runLen := x.runLen + 1 }) ∧
      (w.repidx < count → Becomes i s k (moveClock (setWarp s1 k { w with
        rep := some { count := count, imm := f.imm, clock := w.clock, len := 12 + n }, runLen := w.runLen + 1, pending := false })
        k (w.clock + pip)))

/-- R94, R95: `GIVE` returns registers, which lose their contents, to the group's pool, and the pool grants the waiting claims
from the head of their queue while it has enough: each warp granted has its registers and waits no more, the others wait on;
`CLAIM` takes what the pool has when no earlier claim waits, and parks at the end of the queue when it has not. -/
def Obligations.GiveAndClaimMoveRegisters : Prop :=
  ∀ (i : Instr) (s s1 : State) (k len : Nat) (o : Op) (f : Long) (w : Warp), Performs i s k o f len s1 w →
    let n := f.imm.toNat
    ∀ g, getGroup s1 k = some g →
      (o = .give → n ≤ w.allot → g.claims = [] →
        Retires i s k o f len (updGroup s1 k fun g => { g with poolFree := g.poolFree + n })
          { w with allot := w.allot - n, v := w.v.filter fun e => decide (e.1 < (w.allot - n) * 64) }) ∧
      (o = .give → n ≤ w.allot → ∀ claims : List (Nat × Nat), g.claims = claims.map (·.1) → g.claims.Nodup →
        (∀ e ∈ claims, e.1 ≠ k ∧ ∃ x l en, getWarp s1 e.1 = some x ∧ x.stat = .parked (.claim e.2) l en) →
        let got := grantsFrom (g.poolFree + n) claims
        ∃ t h, exec i s = .next t ∧ getGroup t k = some h ∧ h.poolFree = got.2 ∧ h.claims = g.claims.drop got.1.length ∧
          (∀ x, getWarp t k = some x → x.allot = w.allot - n) ∧
          (∀ e ∈ got.1, ∀ y, getWarp s1 e.1 = some y → ∃ x, getWarp t e.1 = some x ∧ x.allot = y.allot + e.2 ∧ isParked x = false) ∧
          ∀ j, j ≠ k → (∀ e ∈ got.1, e.1 ≠ j) → getWarp t j = getWarp s1 j) ∧
      (o = .claim → w.allot + n ≤ 256 → n ≤ g.poolCap - othersAllot s1 k →
        (g.claims = [] → n ≤ g.poolFree →
          Retires i s k o f len (setGroup s1 k { g with poolFree := g.poolFree - n }) { w with allot := w.allot + n }) ∧
        (g.claims ≠ [] ∨ g.poolFree < n →
          Becomes i s k (parkWarp (setGroup s1 k { g with claims := g.claims ++ [k] }) k w (.claim n) len f.fl.en)))

/-- R96: `RGN` opens a region at the next instruction, with the clock and the hand as they stand once it has retired and
empty register sets. -/
def Obligations.RgnOpensARegion : Prop :=
  ∀ (i : Instr) (s s1 : State) (k len : Nat) (f : Long) (w : Warp), Performs i s k .rgn f len s1 w →
    RetiresThen i s k len s1 w .next (w.clock + weightOf w .rgn f) fun x =>
      { x with region := some { entry := curPc x, clock := x.clock, secs := x.hand.secs.length, pots := x.hand.pots.length
                                reads := [], writes := [], resumes := 0, mma := false } }

/-- R96, R98, R101, R192, R243, R248, R255: at user privilege an open region closes at the instructions that the rule names, in either mode at those that R192
makes turns, in free mode at a store to global memory, in turn mode at one to what the hand held at the region's mark, and
at a write of a register that the region has read before writing it; else its register sets grow by the instruction's: by what it reads before the region has written it, and by what it
writes with every lane of the warp active (a scalar register whatever the lanes; a rejoin register when `MARK` sets it: log 113);
`VRDC` with no lane active writes nothing. A handler leaves it alone (log 20), and the region that an `MMA` opens stays open when the
`MMA` faults (log 44). -/
def Obligations.RegionsCloseAsListed : Prop :=
  ∀ (s : State) (k : Nat) (w : Warp) (o : Op) (f : Long) (r : Region), w.region = some r →
    let stores := o ∈ [.vst, .vsts, .sst, .pot] ∧ spaceOf (classAddr w o f) ≠ .window
    let marked (xs : List Acc) : Prop := if o = .pot
      then ∃ y ∈ w.hand.pots.take r.pots, ∃ x ∈ xs, accKey x = y.key ∧ y.op = f.fn.toNat ∧ y.ty = f.ty
      else ∃ y ∈ w.hand.secs.take r.secs, ∃ x ∈ xs, accKey x / 64 * 64 = y.key
    let closes := o ∈ [.join, .exit, .give, .claim, .mma, .cpslice, .cploop, .cpchain, .cpacc, .bfwait, .bfrel] ∨
      turnClass w o f ≠ .none ∨
      stores ∧ (w.turn = false ∨ ∃ xs, checkAll s k w o f (some .store) true = (xs, none) ∧ marked xs)
    let named := readIds o f ++ jReads o f
    let written := if o = .vrdc ∧ active w o f = 0 then [] else writeIds o f ++ jWrites o f
    let reads := r.reads ++ named.filter fun x => !r.writes.contains x && !r.reads.contains x
    let clash := written.any fun x => reads.contains x && !r.writes.contains x
    let after := (atIssue s k w o f).region
    (w.sys = true → after = some r) ∧
    (w.sys = false → closes → after = none) ∧
    (w.sys = false → ¬closes → clash = true → after = none) ∧
    (w.sys = false → ¬closes → clash = false →
      let full (x : Nat) : Prop := if 768 ≤ x then o = .mark else active w o f = fullMask w.width ∨ (256 ≤ x ∧ x < 512)
      after = some { r with reads := reads, writes := r.writes ++ written.filter fun x => full x ∧ x ∉ r.writes }) ∧
    (∀ (s1 s2 : State) (v x : Warp) (len cause kind : Nat) (addr : Dword), o = .mma → getWarp s1 k = some v →
      v.turn = true ∨ coreFlying s1 k = false → bodyOf .mma f len s1 k v = .trap s2 cause kind addr → getWarp s2 k = some x →
      x.region = some (keepResumes (mmaRegion v f) v) ∧
        faultRegion s w o f (.trap s2 cause kind addr) k = .trap s2 cause kind addr)

/-- R79, R80: `SRD` reads each special register into `sD`, `%lane` into the active lanes of `vD`; flags that outstanding results
carry are set before a flag register is read (R114). In free mode `%cycles` is a free value of the model (log 3). -/
def Obligations.SrdReadsSpecialRegisters : Prop :=
  ∀ (i : Instr) (s s1 : State) (k len : Nat) (o : Op) (f : Long) (w : Warp), Performs i s k o f len s1 w →
    let reads (x : Dword) : Prop := Retires i s k o f len s1 (wrS w f.d.toNat x)
    let n := f.a.toNat
    let nat := BitVec.ofNat 64
    (o = .srdHi → reads w.tsibs) ∧
    (o = .srd →
      (n = 0x00 → Retires i s k o f len s1 ((activeL w o f).foldl (fun x l => wrV x f.d.toNat l (BitVec.ofNat 32 l)) w)) ∧
      (n = 0x01 → reads (nat (identOf k))) ∧ (n = 0x02 → reads (nat (wigOf k))) ∧ (n = 0x03 → reads (nat (groupNo k))) ∧
      (n = 0x04 → reads (nat (serialOf k))) ∧ (n = 0x05 → reads (nat w.stage)) ∧ (n = 0x06 → reads (nat w.width)) ∧
      (n = 0x07 → reads (nat w.clock)) ∧ (n = 0x08 → reads (nat (w.clock / w.quantum))) ∧ (n = 0x09 → reads (nat w.quantum)) ∧
      (n = 0x0A → w.turn = true → reads (nat w.clock)) ∧
      (n = 0x0A → w.turn = false → Retires i s k o f len { s1 with freeCtr := s1.freeCtr + 1 }
        (wrS w f.d.toNat (Config.freeCycles s1.freeCtr))) ∧
      (n = 0x0B → w.turn = true → ∀ c, getCard s1 k = some c → reads (nat c.shape.canon)) ∧
      (n = 0x0B → w.turn = false → reads (nat (coreCount s1 (partOf k)))) ∧
      (n = 0x0C → ∀ c, getCard s1 k = some c → reads (nat c.shape.split)) ∧
      (n = 0x0D → ∀ c, getCard s1 k = some c → reads c.seed) ∧
      (n = 0x0E → reads (nat (w.sec.toNat * 4 + w.sys.toNat * 2 + w.turn.toNat))) ∧ (n = 0x0F → reads (nat (chipIdx k))) ∧
      (n = 0x10 ∨ n = 0x11 → w.turn = true → reads 0) ∧
      (n = 0x10 → w.turn = false → ∀ c m, warpCore s1 k = some (c, m) → reads (nat (m / 24))) ∧
      (n = 0x11 → w.turn = false → ∀ c m, warpCore s1 k = some (c, m) → reads (nat (m % 24))) ∧
      (n = 0x12 → reads (nat w.run)) ∧
      (0x18 ≤ n → n ≤ 0x1A → Retires i s k o f len s1 (wrS (flushFlags w) f.d.toNat
        (if n = 0x18 then (flushFlags w).fpstat else if n = 0x19 then (flushFlags w).lxstat else w.mstat))) ∧
      (n = 0x1B → reads (nat w.mstep)) ∧ (n = 0x1C → reads w.jstat) ∧ (n = 0x1D → reads (nat w.repidx)) ∧
      (n = 0x20 → reads w.tvec) ∧ (n = 0x21 → reads w.tcause) ∧ (n = 0x22 → reads w.tpc) ∧ (n = 0x23 → reads w.tregion) ∧
      (n = 0x24 → reads w.tfrag) ∧ (n = 0x25 → reads w.taddr) ∧ (n = 0x26 → reads w.tclock))

/-- R79, R80, R88: `SWR` writes the fields of a special register that are RW; reserved bits stay 0, and of `%tregion` only `OPEN`
can be cleared. -/
def Obligations.SwrWritesSpecialRegisters : Prop :=
  ∀ (i : Instr) (s s1 : State) (k len : Nat) (f : Long) (w : Warp), Performs i s k .swr f len s1 w →
    let x := rdS w f.b.toNat
    let writes (v : Warp) : Prop := Retires i s k .swr f len s1 v
    (f.a = 0x18 → writes { flushFlags w with fpstat := x &&& 0x3F }) ∧
    (f.a = 0x19 → writes { flushFlags w with lxstat := x &&& 0x1F }) ∧
    (f.a = 0x1A → writes { w with mstat := x &&& 0x3 }) ∧
    (f.a = 0x1C → writes { w with jstat := x &&& 0xF03 }) ∧
    (f.a = 0x20 → writes { w with tvec := x &&& ~~~3 }) ∧
    (f.a = 0x22 → writes { w with tpc := x }) ∧
    (f.a = 0x23 → writes { w with tregion := if x.getLsbD 0 then w.tregion else w.tregion &&& ~~~1 })

/-! ## Exceptions -/

/-- R59, R91 to R93, R97, R99, R100: an instruction of a user program that fails a check before its own takes the trap of that
check, in the order fetch of a repeat's target, misaligned target of a branch (R83), illegal (a repeat with its target), privilege, register
range, range of a repeat, unparked hazard, once outstanding results are written; of a park point the range of a repeat, and a branch's
target that an outstanding result gives, are checked after that.
The handler is entered at `%tvec` and sees the faulting instruction's address, within a repeat that of the prefix, with
`%repidx` kept; the clock is the instruction's. A negative identifier in two's complement (log 40), the strides that are illegal
(log 71; at system privilege a target that it forbids, log 95), which outstanding register is named (log 81), and the check of a target
that an outstanding result gives (log 97) are the model's choices. -/
def Obligations.FailedChecksTrapInOrder : Prop :=
  ∀ (i : Instr) (s s2 : State) (k len : Nat) (o : Op) (f : Long) (v w : Warp), i.core = some (o, f, len) →
    s.cur = some k → getWarp s k = some v → w.sys = false → w.tvec ≠ 0 →
    let traps (cause : Nat) (addr : Dword) : Prop := TakesTrap i s k s2 w cause 0 addr (curPc v) (faultClock v)
    (∀ cause addr secure, FailsCheck s k v o f cause addr secure → faulting (reported s k cause addr secure) k = some (s2, w) →
      traps cause addr) ∧
    ((∀ cause addr secure, ¬FailsCheck s k v o f cause addr secure) → parks o f = true →
      ∀ s0 w0, settle s k = .ok s0 → getWarp s0 k = some w0 → faulting s0 k = some (s2, w) →
        (∀ r, RepFault s0 k w0 o f r → traps 4 (BitVec.ofInt 64 r)) ∧ ∀ x, Misaligned w0 o f x → traps 7 x)

/-- R35, R59, R93, R97, R99 to R102: a fault at system privilege ends the card with cause 0x11, the inner cause as its kind and the
inner `%taddr`, and one of a user program without a handler (`%tvec` 0) with its own cause, kind and trap registers: a failed
check before the instruction's own (a repeat and a branch with their parked checks among them), a deferred page fault found at a park
point, whatever the instruction's own effect raises (alignment, range, region and handle faults and an access's page fault
among them), and `TRAP` and `BPT`, which retire first. In turn mode the card ends once the fault's stamp is the least, in free
mode at once (log 9). -/
def Obligations.FaultsWithoutAHandlerEndTheCard : Prop :=
  ∀ (i : Instr) (s : State) (k len : Nat) (o : Op) (f : Long) (v : Warp), i.core = some (o, f, len) →
    s.cur = some k → getWarp s k = some v →
    let passes := ∀ cause addr secure, ¬FailsCheck s k v o f cause addr secure
    (∀ s2 w cause addr secure, FailsCheck s k v o f cause addr secure → faulting (reported s k cause addr secure) k = some (s2, w) →
      Unhandled i s k s2 w cause 0 addr (curPc v) (faultClock v)) ∧
    (passes → parks o f = true →
      (∀ s0 s2 w0 w, settle s k = .ok s0 → getWarp s0 k = some w0 → faulting s0 k = some (s2, w) →
        (∀ r, RepFault s0 k w0 o f r → Unhandled i s k s2 w 4 0 (BitVec.ofInt 64 r) (curPc v) (faultClock v)) ∧
        ∀ x, Misaligned w0 o f x → Unhandled i s k s2 w 7 0 x (curPc v) (faultClock v)) ∧
      ∀ s2 w u kind a, settle s k = .fault s2 u → u.fault = some (kind, a) →
        getWarp (updWarp s2 k fun x => { x with repidx := u.idx }) k = some w →
        Unhandled i s k (updWarp s2 k fun x => { x with repidx := u.idx }) w 5 kind (BitVec.ofNat 64 a) u.pc u.clock) ∧
    (∀ s0 w0, Clear s k v o f s0 w0 →
      let w := atIssue s0 k w0 o f
      let s1 := setWarp s0 k w
      (∀ s2 s3 x cause kind addr, bodyOf o f len s1 k w = .trap s2 cause kind addr →
        let bad := if turnClass w0 o f = .none ∧ o ≠ .mma ∧ (closesRegion w0 o f = true ∨ storeCloses s0 k w0 o f = true) then
          updWarp s2 k fun y => { y with region := w0.region } else s2
        faulting bad k = some (s3, x) → Unhandled i s k s3 x cause kind addr (curPc x) (faultClock x)) ∧
      (o = .trap ∨ o = .bpt → ∀ s2 u x, faulting s1 k = some (s2, u) →
        let s3 := retire s2 k (weightOf w o f) len f.fl.en .next none id
        getWarp s3 k = some x → (∀ c d e, x.stat ≠ .dying c d e) → x.stat ≠ .stopped →
        Unhandled i s k s3 x (if o = .trap then 9 else 10) (if o = .trap then f.imm.toNat else 0) 0 (curPc x) x.clock))

/-- R85, R86, R88, R94, R97: the sequencer's own checks, and the traps that they raise with nothing changed: a misaligned rejoin
address (cause 7), joins and marks of a rejoin register in use (cause 6, kinds 1 and 2), and register counts (cause 4). -/
def Obligations.SequencerChecksTrap : Prop :=
  ∀ (i : Instr) (s s0 s2 : State) (k len : Nat) (o : Op) (f : Long) (v w0 u : Warp), i.core = some (o, f, len) →
    Clear s k v o f s0 w0 → w0.rep = none →
    let w := atIssue s0 k w0 o f
    faulting (setWarp s0 k (if closesRegion w0 o f then { w with region := w0.region } else w)) k = some (s2, u) →
    u.sys = false → u.tvec ≠ 0 →
    let traps (cause kind : Nat) (addr : Dword) : Prop := TakesTrap i s k s2 u cause kind addr (curPc w0) w0.clock
    let x := rdS w f.a.toNat
    let j := rdJ w f.a.toNat
    (o = .jmovToJ → f.imm = 0 → x.toNat % 4 ≠ 0 → traps 7 0 x) ∧
    (o = .jmovToJ → f.imm ≠ 0 → w.frags.any (fun g => g.wait == some f.d.toNat) = true → traps 6 1 (BitVec.ofNat 64 f.d.toNat)) ∧
    (o = .mark → j.arrived ≠ 0 → traps 6 2 (BitVec.ofNat 64 f.a.toNat)) ∧
    (o = .join → j.expect = 0 ∨ curLanes w &&& ~~~j.expect ≠ 0 ∨ curLanes w &&& j.arrived ≠ 0 →
      traps 6 1 (BitVec.ofNat 64 f.a.toNat)) ∧
    (o = .give → w.allot < f.imm.toNat → traps 4 0 (BitVec.ofNat 64 w.allot)) ∧
    (o = .claim → ∀ g, getGroup s0 k = some g → 256 < w.allot + f.imm.toNat ∨ g.poolCap - othersAllot s0 k < f.imm.toNat →
      traps 4 0 (BitVec.ofNat 64 f.imm.toNat))

/-- R99, R100, R102: `TRAP` and `BPT` retire and then trap, with causes 9 and 10; the handler sees the next instruction's
address. -/
def Obligations.TrapAndBptEnterTheHandler : Prop :=
  ∀ (i : Instr) (s s1 s2 : State) (k len : Nat) (o : Op) (f : Long) (w v u : Warp), Performs i s k o f len s1 w →
    o = .trap ∨ o = .bpt → faulting s1 k = some (s2, v) → w.sys = false → w.rep = none →
    let s3 := moveClock (setWarp s2 k (advance v .next len)) k (v.clock + 1)
    getWarp s3 k = some u → u.sys = false → u.tvec ≠ 0 → u.stat = .ready ∨ (∃ a b, u.stat = .gate a b) →
    TakesTrap i s k s3 u (if o = .trap then 9 else 10) (if o = .trap then f.imm.toNat else 0) 0 (curPc u) u.clock

/-- R88, R96 to R98, R101, R166, R188, R247, R255: `ERET`, after which no store still waits to perform (log 14), returns to user privilege. With `%tregion.OPEN` and a region it
resumes the region from its mark: entry, clock, hand and register sets; else the fragment continues at `%tpc`, whose bits [1:0]
count as zero (log 72), with no region open. An `MMA`'s step count is kept only for the
`MMA` that resumes (log 44). -/
def Obligations.EretReturnsFromTheHandler : Prop :=
  ∀ (i : Instr) (s s1 : State) (k len : Nat) (f : Long) (w : Warp), Performs i s k .eret f len s1 w →
    let user : Warp := { w with sys := false, pending := false, held := none }
    let stepFor (v : Warp) (pc : Dword) : Warp := if v.mpc = some pc then v else { v with mstep := 0, mpc := none }
    (∀ r, w.region = some r → w.tregion.getLsbD 0 = true →
      let n := min (r.resumes + 1) 127
      let u := setWarp s1 k (stepFor (setPc { user with
        clock := r.clock, repidx := 0
        hand := { secs := w.hand.secs.take r.secs, pots := w.hand.pots.take r.pots }
        region := some { r with resumes := n, reads := [], writes := [] }
        tregion := (w.tregion &&& BitVec.ofNat 64 (2 ^ 57 - 1)) ||| BitVec.ofNat 64 (n * 2 ^ 57) } r.entry) r.entry)
      postWaits (drainAll u k) k = false → Becomes i s k (drainAll u k)) ∧
    (w.region = none ∨ w.tregion.getLsbD 0 = false →
      let pc := w.tpc &&& ~~~3
      let u := setWarp s1 k (stepFor (setPc { user with region := none } pc) pc)
      postWaits (drainAll u k) k = false → Becomes i s k (drainAll u k))

/-! ## Memory -/

/-- R163, R74, R97, R171, R330, R336, R342: a load whose elements pass check 5 completes: its registers are outstanding, with the values that it
read, and its translations and L1 lines are installed; one that goes to another chip waits for the posted stores before it, and in free
mode one of this chip for its core's earlier accesses of the same lines and for a page on the move (R173, R342).
With a region open and a translation missing it goes on unconfirmed; and one whose walk faults with a region open goes on
too, its fault deferred until it is confirmed. -/
def Obligations.LoadsCompleteWithOutstandingResults : Prop :=
  ∀ (i : Instr) (s s1 : State) (k len : Nat) (o : Op) (f : Long) (w : Warp), Performs i s k o f len s1 w →
    o ∈ [.vld, .vlds, .sld] →
    let z := siteOf s1 k
    let unconfirmed (v : Warp) (xs : List Acc) (x : Option Pend) (flt : Option (Nat × Nat)) : Warp := { v with
      unconf := v.unconf ++ [{ pc := curPc v, frag := v.run, clock := faultClock v, idx := v.repidx, pend := x, fault := flt
                               vas := (xs.filter fun x => x.x.isSome).map (·.va) }]
      outst := (v.outst ++ writeIds o f).eraseDups }
    (∀ xs, checkAll s1 k w o f (some .load) true = (xs, none) →
      (inWindow w o f = true → ∀ g, getGroup s1 k = some g → (∀ x ∈ xs, rangeStall w g false x.va (elemSize o f) = false) →
        Retires i s k o f len s1 (addPend w (loadPend s1 k w o f xs))) ∧
      (inWindow w o f = false →
        let far := xs.any (farAccess s1 k)
        let sent := if far then drainAll s1 k else s1
        let keys := (xs.filter fun x => x.x.isSome && !farAccess sent k x).map accKey
        let early := if w.turn then sent else serveCore sent k keys
        (far = true → replies w < 16 ∧ postWaits early k = false) →
        (w.turn = false → linesWait early k keys = false ∧ ∀ a ∈ keys, keyHeld early (chipOf (partOf k)) a = false) →
        let s2 := sendAccess (countPages early z (accPages xs)) k w 8 xs
        refusedAccs s2 k w (xs.filter fun x => farAccess s2 k x || accKey x / keyBase == chipOf (partOf k)) = [] →
        ∀ v, getWarp s2 k = some v →
          let s3 := loadLines s2 k v f.mod.toNat xs
          let x := loadPend s2 k v o f xs
          let c := v.clock + weightOf w o f
          (w.region = none ∨ (∀ x ∈ xs, x.x.isSome = true → tlbHas s1 z x.va = true) →
            RetiresAt i s k len (installAll s3 z xs) (addPend v x) .next c) ∧
          (w.region ≠ none → (∃ x ∈ xs, x.x.isSome = true ∧ tlbHas s1 z x.va = false) →
            RetiresAt i s k len s3 (unconfirmed v xs (some x) none) .next c))) ∧
    (∀ xs e, checkAll s1 k w o f (some .load) true = (xs, some e) → e.late = true → w.region ≠ none →
      Retires i s k o f len (faultWalk s1 k e)
        (unconfirmed w xs none (some (e.kind, e.addr.toNat))))

/-- R163, R165, R171, R187, R207, R338, R160: the register writes of a load of this chip. In turn mode a byte is the hand's, else that
of the settled image of the warp's round; in free mode the warp's posted stores', else the L1's, which hint 3 passes by, else
memory's; a replica of the chip stands for the image or memory; group memory is read as it stands. A scalar is extended, and
8 bytes fill a register pair. The hand is read by physical key (log 34). -/
def Obligations.LoadsReadHandThenImage : Prop :=
  ∀ (s : State) (k : Nat) (w : Warp) (o : Op) (f : Long) (xs : List Acc), (∀ x ∈ xs, farAccess s k x = false) →
    let n := elemSize o f
    let writes (x : Acc) (byte : Nat → Byte) : List RegW :=
      let v := leNat ((List.range n).map byte)
      let ext : Int := if signExt f.ty then intOf true (8 * n) v else v
      if o = .sld then [.s f.d.toNat (BitVec.ofInt 64 ext)]
      else if n = 8 then [.v f.d.toNat x.lane (BitVec.ofNat 32 v), .v (f.d.toNat + 1) x.lane (BitVec.ofNat 32 (v / 2 ^ 32))]
      else [.v f.d.toNat x.lane (BitVec.ofInt 32 ext)]
    let pd := loadPend s k w o f xs
    let replica (x : Acc) (a : Nat) : Option Byte :=
      if x.x.any (fun y => y.mode == 2) = true then replicaByte s (chipOf (partOf k)) a else none
    let posted (x : Acc) (j : Nat) : Option Byte := postedByte s (siteOf s k) w (accKey x + j) (x.va + j)
    pd.regs = writeIds o f ∧ pd.remote = none ∧ pd.fp = 0 ∧ pd.lx = 0 ∧
    (w.turn = true → (∀ x ∈ xs, x.x.isSome = true) → pd.writes = xs.flatMap fun x => writes x fun j =>
      (handByte w.hand (accKey x + j)).getD ((replica x (accKey x + j)).getD
        (rdByte (image s (domOf s (partOf k)) (w.clock / w.quantum * w.quantum, 0)) (accKey x + j)))) ∧
    (w.turn = false → f.mod = 3 → (∀ x ∈ xs, x.x.isSome = true) → pd.writes = xs.flatMap fun x => writes x fun j =>
      (posted x j).getD ((replica x (accKey x + j)).getD (rdByte s.mem (accKey x + j)))) ∧
    (w.turn = false → f.mod ≠ 3 → (∀ x ∈ xs, x.x.isSome = true) → ∀ c m, warpCore s k = some (c, m) →
      pd.writes = xs.flatMap fun x => writes x fun j =>
        (posted x j).getD ((replica x (accKey x + j)).getD
          ((l1Byte (getCore (getChip s c) m) (accKey x + j)).getD (rdByte s.mem (accKey x + j))))) ∧
    (∀ g, getGroup s k = some g → (∀ x ∈ xs, x.x = none) → pd.writes = xs.flatMap fun x => writes x fun j =>
      sget 0 g.gmem (x.va + j))

/-- R164 to R166, R186, R188, R189: a store whose elements pass its checks writes group memory lane by lane, or in turn mode the hand,
or in free mode is posted, at either privilege. At the lane that needs a 65th sector a user program's hand is published for the
next mark, to which the clock moves, and the store goes on in the empty hand; a handler's store faults there. A handler's posted stores stand in a queue of their own
(log 14), and the hand tells its sectors apart by physical key (log 34): the model's choices. -/
def Obligations.StoresReachGroupMemoryHandOrQueue : Prop :=
  ∀ (i : Instr) (s s1 : State) (k len : Nat) (o : Op) (f : Long) (w : Warp), Performs i s k o f len s1 w →
    o ∈ [.vst, .vsts, .sst] →
    let z := siteOf s1 k
    let bytes (x : Acc) : List Byte := storeBytes w o f x.lane
    let put (h : Hand) (x : Acc) : Option Hand := handPut h (accKey x) x.va (curPc w) (bytes x)
    let puts (h : Hand) (xs : List Acc) : Option Hand := xs.foldl (fun a x => a.bind fun h => put h x) (some h)
    (inWindow w o f = true → ∀ xs g, checkAll s1 k w o f (if w.turn then some .store else none) true = (xs, none) →
      getGroup s1 k = some g → (∀ x ∈ xs, rangeStall w g true x.va (elemSize o f) = false) →
      Retires i s k o f len (setGroup s1 k (xs.foldl (fun g x => wrGroupMem g x.va (bytes x)) g)) w) ∧
    (inWindow w o f = false → w.turn = true → ∀ xs, checkAll s1 k w o f (some .store) true = (xs, none) →
      let s2 := countPages (dirtyAll s1 z xs) z (accPages xs)
      (∀ h, puts w.hand xs = some h → Retires i s k o f len s2 { w with hand := h }) ∧
      (∀ pre x post h, xs = pre ++ x :: post → puts w.hand pre = some h → put h x = none →
        (w.sys = true → bodyOf o f len s1 k w = .trap (installAll s1 z xs) 5 0 (BitVec.ofNat 64 x.va)) ∧
        (w.sys = false → 0 < w.quantum → handRefusals s2 (chipOf (partOf k)) w.sec h true = [] →
          ∀ h', puts Hand.empty (x :: post) = some h' →
            let m := nextMark w.quantum w.clock
            let full := { w with hand := h }
            RetiresAt i s k len (pubMark (setWarp s2 k full) k full m m)
              { w with hand := h', clock := m, region := none, stat := .gate m m } .next (m + weightOf w o f)))) ∧
    (inWindow w o f = false → w.turn = false → ∀ xs, checkAll s1 k w o f none true = (xs, none) →
      let x : List Posted := if xs = [] then [] else [{ pc := curPc w, hint := f.mod.toNat, lanes := xs.map fun x => (x.va, bytes x) }]
      Retires i s k o f len s1 (if w.sys then { w with hposted := w.hposted ++ x } else { w with posted := w.posted ++ x }))

/-- R164, R187, R188: what a store leaves: in memory, in group memory and in a hand, the stored bytes read as stored, and every
other byte reads as before. A hand takes a store unless it needs a 65th sector; its sectors
go by physical key (log 34). -/
def Obligations.StoresChangeTheirBytesOnly : Prop :=
  (∀ (s : State) (k key a hint : Nat) (bs : List Byte), s.mem.wf = true →
    rdByte (freeWrite s k key bs hint).mem a = if key ≤ a then (bs[a - key]?).getD (rdByte s.mem a) else rdByte s.mem a) ∧
  (∀ (g : Group) (off a : Nat) (bs : List Byte), swf 0 g.gmem = true →
    sget 0 (wrGroupMem g off bs).gmem a = if off ≤ a then (bs[a - off]?).getD (sget 0 g.gmem a) else sget 0 g.gmem a) ∧
  (∀ (h h' : Hand) (key va a : Nat) (pc : Dword) (bs : List Byte), key % 64 + bs.length ≤ 64 → handPut h key va pc bs = some h' →
    handByte h' a = if key ≤ a ∧ a < key + bs.length then bs[a - key]? else handByte h a) ∧
  (∀ (h : Hand) (key va : Nat) (pc : Dword) (bs : List Byte), handPut h key va pc bs = none ↔
    64 ≤ h.secs.length ∧ ∀ x ∈ h.secs, x.key ≠ key / 64 * 64)

/-- R14, R155 to R157, R160, R167 to R171, R174, R175, R336, R337, R377: a prefetch brings the whole lines of the lanes that pass every
check into the L1 and the slices, skips direct remote pages (log 65), installs no translation though its walks read the tables (log 73),
faults on none and reports a secure byte; `CCTL` goes through the pieces of its range that have a translation (log 15), and drops every line of the core's L1,
or of the chip's slices where it holds no overlay entry, that holds a byte of one, and keeps the others: what the slices serve
is as before (logs 36, 70). `TLBI` drops the translations of its form once no access that they translated is still to perform,
and waits until then. -/
def Obligations.CacheAndTranslationControl : Prop :=
  (∀ (i : Instr) (s s1 : State) (k len : Nat) (o : Op) (f : Long) (w : Warp), Performs i s k o f len s1 w →
    let z := siteOf s1 k
    let c := chipOf (partOf k)
    let becomes (t : State) : Prop := Retires i s k o f len t w
    let n := (rdS w f.b.toNat).toNat
    let a := (rdS w f.a.toNat).toNat
    let lo := baseAddr w f
    let pieces := rangePieces s1 z (lo + n).toNat n lo.toNat
    let walked := pieces.foldl (fun s x => walkTouch s z x.1) s1
    let held (key : Nat) : Bool := (rangeKeys s1 z pieces).any fun e =>
      decide (e.1 < key + lineSize) && decide (key < e.1 + e.2)
    let ctx := n % 2 ^ 16
    let drops (hit : Tlb → Bool) : Prop :=
      (xlatInUse s1 c hit = false → becomes (dropTlb s1 c hit)) ∧
      (w.sys = true → xlatInUse s1 c hit = true → Becomes i s k (setWarp s1 k { w with stat := .stalled }))
    (o = .vprf →
      let got := ((memElems w .vprf f).filter fun e => spaceOf e.2 = .global).map fun e =>
        checkElem s1 z w.sec (accKind s1 k w (elemSize .vprf f) (some .load) false) .global e.1 e.2
      let xs := got.filterMap fun r => match r with
        | .ok x => if x.x.any (fun y => y.mode == 0 || y.mode == 2) = true then some x else none
        | .error _ => none
      let refuses (x : Acc) : Option Nat := homeRefuses s1 c w.sec (accKey x)
      let s2 := got.foldl (fun s r => match r with
        | .error e => faultWalk s k e
        | .ok x =>
          if l1Able x && refuses x == some 1 then reportAt (walkTouch s (siteOf s k) x.va) (accKey x / keyBase) (accKey x % keyBase)
          else walkTouch s (siteOf s k) x.va) s1
      becomes (bringLines s2 k w f.mod.toNat (fun _ => false) ((xs.filter fun x => (refuses x).isNone).map fun x =>
        (x, (List.range 4).map fun j => accKey x / 128 * 128 + 32 * j)))) ∧
    (o = .cctlInv → becomes (updCore walked k fun co => { co with l1 := co.l1.filter fun x => !held x.key })) ∧
    (o = .cctlInvall → becomes (updCore s1 k fun co => { co with l1 := [] })) ∧
    (o = .cctlEvict →
      let ch := getChip walked c
      becomes (setChip walked c { ch with slices := smap Slice.reset (fun x =>
        { x with lines := x.lines.filter fun y => !(held y.key && !overlaid s1 y.key) }) ch.slices })) ∧
    (o = .tlbiVa → drops fun t => t.ctx == ctx && decide (t.base ≤ a) && decide (a < t.base + t.size)) ∧
    (o = .tlbiCtx → drops fun t => t.ctx == ctx) ∧
    (o = .tlbiAll → drops fun _ => true)) ∧
  (∀ (s : State) (z : Site) (hi fuel lo : Nat), ∀ e ∈ rangeKeys s z (rangePieces s z hi fuel lo),
    ∃ a t, lo ≤ a ∧ a < hi ∧ a < 2 ^ 56 ∧ findXlat s z a = some t ∧ e.1 = xlatKey s z.part t a ∧ a + e.2 ≤ hi) ∧
  (∀ (s : State) (z : Site) (hi fuel lo : Nat) (t : Tlb), lo < hi → lo < 2 ^ 56 → hi ≤ xlatEnd s z lo → findXlat s z lo = some t →
    rangeKeys s z (rangePieces s z hi (fuel + 1) lo) = [(xlatKey s z.part t lo, hi - lo)])

/-- R61, R162: a memory instruction whose elements fail check 5 traps with nothing stored: the first failing element in
ascending lane order is reported, with cause 7 when it is misaligned and else cause 5 with its kind, and what was translated
before it stays translated; a turn has closed the region at its turn, and any other access leaves it open (log 44). (A load's fault in a walk with a region open is deferred, as another statement says.) Within a repeat the clock is that
of R93. That the elements before the failing one stay installed and nothing of it does (log 85), and that a store's walk fault
in an open region is precise (log 31), are the model's choices. -/
def Obligations.FailingAccessesTrap : Prop :=
  ∀ (i : Instr) (s s0 s2 : State) (k len : Nat) (o : Op) (f : Long) (v w0 u : Warp), i.core = some (o, f, len) →
    Clear s k v o f s0 w0 →
    let w := atIssue s0 k w0 o f
    let s1 := setWarp s0 k w
    ∀ use window xs e, checkAll s1 k w o f use window = (xs, some e) →
      (o ∈ [.vld, .vlds, .sld] ∧ use = some .load ∧ window = true ∧ (w.region = none ∨ e.late = false)) ∨
      (o ∈ [.vst, .vsts, .sst] ∧ use = (if w.turn then some .store else none) ∧ window = true) ∨
      (o = .atom ∧ use = some .atomic ∧ window = true) ∨
      (o ∈ [.acq, .turn] ∧ use = some .load ∧ window = true) ∨
      (o ∈ [.rel, .pot] ∧ use = some .store ∧ window = true) ∨
      (o ∈ [.tktWait, .tktDone] ∧ use = some .store ∧ window = false) →
      (∃ l a, (l, a) ∈ memElems w o f ∧ e.addr = BitVec.ofInt 64 a ∧ (e.cause = 7 → a.toNat % elemSize o f ≠ 0) ∧
        (e.cause ≠ 7 → e.cause = 5) ∧ xs.map (·.lane) = ((memElems w o f).map (·.1)).take xs.length ∧
        (memElems w o f)[xs.length]? = some (l, a)) ∧
      (let bad := faultWalk (installAll s1 (siteOf s1 k) xs) k e
       let closed := decide (turnClass w0 o f = .none) && (closesRegion w0 o f || storeCloses s0 k w0 o f)
       faulting (if closed = true then updWarp bad k fun x => { x with region := w0.region } else bad) k = some (s2, u) →
       u.sys = false → u.tvec ≠ 0 → TakesTrap i s k s2 u e.cause e.kind e.addr (curPc w0) (faultClock w0))

/-- R349, R350, R341: `MIGR.query` reads a page's count and leaf fields; `MIGR.set` changes allowed bits of a leaf that stays legal;
`MIGR.move` moves the page's bytes and its leaf to a legal destination; each writes its status. A secure byte at either end is not moved
for a non-secure warp (log 112), and the leaf that `MIGR.set` reads must fit its level (log 111). `FSHOOT` waits for the chips
of its island, one that is off among them. The destination's home is compared by the chip's `INDEX` (log 45), and an index of the
island that no chip holds gives status 4 (log 106): the model's choices. -/
def Obligations.MigrAndFshoot : Prop :=
  ∀ (i : Instr) (s s1 : State) (k len : Nat) (o : Op) (f : Long) (w : Warp), Performs i s k o f len s1 w →
    let p := partOf k
    let c := chipOf p
    let x := rdS w f.b.toNat
    let m := rdS w f.c.toNat
    let ends (s2 : State) (st : Dword) : Prop := ∀ v, getWarp s2 k = some v → Retires i s k o f len s2 (wrS v f.d.toNat st)
    (∀ t s2, migrXlat s1 (siteOf s1 k) w.sec (rdS w f.a.toNat) = .ok t →
      walkTouch s1 (siteOf s1 k) (rdS w f.a.toNat).toNat = s2 →
      let old := physKey (leafHome s2 c t.leaf) (leafPa t.leaf)
      let idx := x.toNat / 2 ^ 52 % 16
      let pa := x.toNat % 2 ^ 52
      let e := (rdEntry s2 t.entry &&& ~~~m) ||| (x &&& m)
      let place : Prop := x.toNat < 2 ^ 56 ∧ x.toNat % 2 ^ 12 = 0 ∧ pa % t.size = 0 ∧ pa < deviceSize ∧ idx ≤ (getChip s2 c).isize.toNat
      let home := if leafMode t.leaf = 0 then myIndex s2 c else leafPeer t.leaf
      let may : Prop := leafMode t.leaf ≠ 2 ∧ pageMoved s2 old = false ∧ idx ≠ home
      (o = .migrMove →
        (leafMode t.leaf = 2 → ends s2 5) ∧ (leafMode t.leaf ≠ 2 → pageMoved s2 old = true → ends s2 1) ∧
        (leafMode t.leaf ≠ 2 → pageMoved s2 old = false → idx = home → ends s2 2) ∧
        (may → ¬place ∨ domChip s2 c idx = none → ends s2 4) ∧
        (may → place → ∀ c', domChip s2 c idx = some c' → ends (movePageTo s2 p w.sec t old (physKey c' pa) idx pa) 0)) ∧
      (o = .migrSet →
        let bad : Prop := m &&& ~~~migrMask ≠ 0 ∨ leafFits t e = false ∨ leafPlace s2 p e = false
        (bad → ends s2 4) ∧
        (¬bad → ends (dropTlb (sliceTouch { s2 with mem := wrBytes s2.mem t.entry (leBytes 8 e.toNat) } true 0 t.entry) c
          fun y => tlbHit y t.ctx t.base) 0)) ∧
      (o = .migrQuery → ends s2 (BitVec.ofNat 64 (countOf (getChip s2 c) t.base t.ctx + leafThr t.leaf * 2 ^ 32 + leafMode t.leaf * 2 ^ 34 +
        (leafRap t.leaf).toNat * 2 ^ 36 + (leafRo t.leaf).toNat * 2 ^ 37 + leafPeer t.leaf * 2 ^ 40)))) ∧
    (∀ (m : Memory) (old new size j : Nat) (closed : Nat → Bool), m.wf = true → new + size ≤ old ∨ old + size ≤ new →
      (j < size → rdByte (movePage m old new size closed) (new + j) = if closed j then rdByte m (new + j) else rdByte m (old + j)) ∧
      (j < new ∨ new + size ≤ j → rdByte (movePage m old new size closed) j = rdByte m j)) ∧
    (o = .fshootVa ∨ o = .fshootCtx → Becomes i s k (setWarp s1 k { w with
      pending := false
      stat := .fshoot (if (getChip s1 c).fxEn then (List.range ((getChip s1 c).isize.toNat + 1)).map fun i =>
          if i = (getChip s1 c).index.toNat then c else (chipOfIndex s1 i).getD (16 + i) else [c])
        (if o = .fshootVa then some (rdS w f.a.toNat).toNat else none) (x.toNat % 2 ^ 16) f.d.toNat len f.fl.en }))

/-! ## The turn unit -/

/-- R171, R186, R189, R193, R196, R200, R211, R215, R216: `ATOM` reads, combines and writes element by element in lane order, its old
values outstanding, and an acquiring one in turn mode jumps to the acquire mark; `POT` combines at its home, or in turn mode in
the hand. At the lane that needs a 33rd entry a user program's hand is published for the next mark, to which the clock moves,
and the pots go on in the empty hand. That an acquiring `ATOM` of free mode drops the L1's lines whatever its home, group memory among
them (log 16), and that the hand tells pot entries apart by physical key (log 34), are the model's choices. -/
def Obligations.AtomicsAndPotsCombineInLaneOrder : Prop :=
  ∀ (i : Instr) (s s1 : State) (k len : Nat) (o : Op) (f : Long) (w : Warp), Performs i s k o f len s1 w →
    let p := partOf k
    let n := elemSize o f
    (o = .atom → ∀ s2 v h xs, reachesHome s1 k w o f .atomic true true = some (s2, v, h, xs) →
      let m := homeMem s2 k v h
      let acquires : Bool := Forms.atomOrd f % 2 == 1
      let value (old l : Nat) : Nat × Nat :=
        let b := rdB v f.ty f l
        if Forms.atomOp f = 6 then (b, 0)
        else if Forms.atomOp f = 7 then (if old = rdReg v f.ty f.d.toNat l then b else old, 0)
        else comb (Forms.atomOp f) f.ty old b
      let r := xs.foldl (fun (a : KMap Byte × List RegW × Nat) x =>
        let old := ovNat m a.1 (homeKey x) n
        let new := value old x.lane
        (ovWrite a.1 (homeKey x) (leBytes n new.1),
          a.2.1 ++ elemWrites { vec := true, reg := f.d.toNat, lane := x.lane, key := 0, size := n, va := 0, sx := false, val := none } old,
          a.2.2 ||| new.2)) ([], [], 0)
      let v := raiseFp v r.2.2
      RetiresAt i s k len
        (if acquires = true ∧ v.turn = false ∧ 3 ≤ f.mod.toNat then l1Clear (homeWrite s2 k v h r.1) k else homeWrite s2 k v h r.1)
        (if Forms.atomNr f then v else addPend v { regs := writeIds .atom f, writes := r.2.1, fp := 0, lx := 0, remote := farReply s2 k v xs, queue := none })
        .next (if acquires = true ∧ h = .turn then ceilMark v.quantum (v.clock + 1) else v.clock + 1)) ∧
    (o = .pot → inWindow w o f = true ∨ w.turn = false → ∀ s2 v h xs, reachesHome s1 k w o f .store true false = some (s2, v, h, xs) →
      let m := homeMem s2 k v h
      let r := xs.foldl (fun (a : KMap Byte × Nat) x =>
        let new := comb f.fn.toNat f.ty (ovNat m a.1 (homeKey x) n) (rdB v f.ty f x.lane % 2 ^ tyBits f.ty)
        (ovWrite a.1 (homeKey x) (leBytes n new.1), a.2 ||| new.2)) ([], 0)
      Retires i s k o f len (homeWrite s2 k v h r.1) (if v.turn then raiseFp v r.2 else v)) ∧
    (o = .pot → inWindow w o f = false → w.turn = true → ∀ xs, checkAll s1 k w o f (some .store) true = (xs, none) →
      let z := siteOf s1 k
      let s2 := countPages (dirtyAll s1 z xs) z (accPages xs)
      let put (h : Hand) (x : Acc) : Option (Hand × Nat) := potPut h
        { key := accKey x, op := f.fn.toNat, ty := f.ty, val := BitVec.ofNat 64 (rdB w f.ty f x.lane % 2 ^ tyBits f.ty)
          pc := curPc w, va := x.va }
      let puts (h : Hand) (xs : List Acc) : Option (Hand × Nat) :=
        xs.foldl (fun a x => a.bind fun a => (put a.1 x).map fun r => (r.1, a.2 ||| r.2)) (some (h, 0))
      (∀ h g, puts w.hand xs = some (h, g) → Retires i s k o f len s2 (raiseFp { w with hand := h } g)) ∧
      (∀ pre x post h g h' g', xs = pre ++ x :: post → puts w.hand pre = some (h, g) → put h x = none →
        puts Hand.empty (x :: post) = some (h', g') → w.sys = false → 0 < w.quantum →
        handRefusals s2 (chipOf p) w.sec h true = [] →
          let m := nextMark w.quantum w.clock
          let full := { w with hand := h }
          RetiresAt i s k len (pubMark (setWarp s2 k full) k full m m)
            (raiseFp { w with hand := h', clock := m, region := none, stat := .gate m m } (g ||| g')) .next
            (m + weightOf w o f)))

/-- R164, R166, R171, R184, R187, R190, R193, R196, R199, R211, R217, R218: `ACQ` and `TURN` read one element of their home into `sD`, and an `ACQ` of the domain jumps; `REL` writes
one element; `FENCE` in turn mode publishes the hand at the turn's stamp. In free mode acquiring accesses of die scope or
wider drop the L1's lines, and so does `FENCE.sc` (the model's choice, log 16), before which the posted stores perform (log 14). -/
def Obligations.AcquireReleaseTurnAndFence : Prop :=
  ∀ (i : Instr) (s s1 : State) (k len : Nat) (o : Op) (f : Long) (w : Warp), Performs i s k o f len s1 w →
    let n := elemSize o f
    let wide : Prop := 3 ≤ f.mod.toNat
    (o ∈ [.acq, .turn] → ∀ s2 v h x, reachesHome s1 k w o f .load true true = some (s2, v, h, [x]) →
      let r := homeNat (homeMem s2 k v h) x n
      let v := wrS v f.d.toNat (BitVec.ofInt 64 (if signExt f.ty then intOf true (8 * n) r else r))
      RetiresAt i s k len (if o = .acq ∧ v.turn = false ∧ wide then updCore s2 k fun co => { co with l1 := [] } else s2) v .next
        (if o = .acq ∧ h = .turn then ceilMark v.quantum (v.clock + 1) else v.clock + 1)) ∧
    (o = .rel → ∀ s2 v h x, reachesHome s1 k w o f .store true false = some (s2, v, h, [x]) →
      Retires i s k o f len (homeWrite s2 k v h (ovWrite [] (homeKey x) (leBytes n (scalarB v f).toNat))) v) ∧
    (o = .fenceRel ∨ o = .fenceSc →
      (w.turn = true →
        Retires i s k o f len (pubHand s1 k w (w.clock, identOf k)) { w with hand := handPublished w.hand }) ∧
      (w.turn = false → Retires i s k o f len
        (if o = .fenceSc ∧ wide then updCore s1 k fun co => { co with l1 := [] } else s1) w))

/-- R184, R193, R208: what a synchronising operation writes: bytes of group memory; in turn mode a publication with the turn's
stamp, which an image above that stamp holds and one at or below it does not; in free mode memory. -/
def Obligations.HomesTakeWritesAtTheirStamp : Prop :=
  ∀ (s : State) (k : Nat) (w : Warp) (ov : KMap Byte), krising none ov = true → s.mem.wf = true →
    let d := domOf s (partOf k)
    let t := stampOf k w
    (∀ g, getGroup s k = some g → swf 0 g.gmem = true → ∃ g', getGroup (homeWrite s k w .group ov) k = some g' ∧
      ∀ a, sget 0 g'.gmem a = (kfind ov a).getD (sget 0 g.gmem a)) ∧
    (∀ a, rdByte (homeWrite s k w .free ov).mem a = (kfind ov a).getD (rdByte s.mem a)) ∧
    ((s.pubs.Pairwise fun a b => pubBefore b a = false) →
      (∀ x ∈ s.pubs, x.dom = d → stampLt x.stamp t = true ∨ (x.stamp = t ∧ x.ord ≤ 1)) → ∀ u a,
      rdByte (image (homeWrite s k w .turn ov) d u) a =
        if stampLt t u then (kfind ov a).getD (rdByte (image s d u) a) else rdByte (image s d u) a)

/-- R196, R219, R220: barriers: an arrival returns the phase and may complete it, a wait passes once the phase differs from the one
given and else parks, `BAR.sync` does both, and `BAR.test` gives the parity in the lanes. R186, R198: a parked warp that a turn
of clock c reinstates goes on behind its instruction with that one's effect, at the clock after the later of its own and c, or
in the `g` form at the mark after it; in turn mode it waits at the gate of a mark that this crosses, and no other warp changes. A completed phase reinstates so every warp of the group
parked on its barrier with another phase, by the clock of the act that completed it, and leaves every other warp as it is. -/
def Obligations.BarriersArriveWaitAndTest : Prop :=
  ∀ (i : Instr) (s s1 : State) (k len : Nat) (o : Op) (f : Long) (w : Warp), Performs i s k o f len s1 w →
    ∀ g, getGroup s1 k = some g → swf Bar.zero g.bars = true →
    let n := f.imm.toNat % 16
    let acquires := f.imm.getLsbD 16
    let b := getBar g n
    let ph := b.phase
    let v := if o = .barArr then wrS w f.d.toNat (BitVec.ofNat 64 ph) else w
    let arrived : State := updGroup (setWarp s1 k v) k fun g => setBar g n
      { phase := ph, count := b.count + 1, expect := if b.count = 0 then f.imm.toNat / 2 ^ 8 % 64 else b.expect
        arrived := if b.arrived.contains k then b.arrived else b.arrived ++ [k] }
    let turned : State := barStep arrived k (w.clock, identOf k) n
    let parks (t : State) (ph : Nat) : Prop := Becomes i s k (parkWarp t k w (.bar n ph f.mod.toNat acquires) len f.fl.en)
    let goesOn (t u : State) (j cr : Nat) (y : Warp) (what : ParkWhat) (len : Nat) : Prop :=
      let form : Bool := match what with
        | .bar _ _ _ g => g
        | .fwait _ _ g => g
        | .claim _ => false
      let c := if y.turn = false then y.clock + 1 else if form = true then nextMark y.quantum (max y.clock cr) else max y.clock cr + 1
      let effect : Warp := match what with
        | .bar .. => y
        | .fwait h d _ => wrGroup y d ((findSlot t (partOf j) h).elim [0, 0, 0, 0, 0, 0, 0, 0, 0] fun x => resultGroup x.2)
        | .claim m => { y with allot := y.allot + m }
      let crossed : Prop := y.turn = true ∧ y.clock / y.quantum < c / y.quantum
      ∃ x, getWarp u j = some x ∧
        (crossed → SameRun x { setPc effect (curPc y + BitVec.ofNat 64 len) with
          clock := c, stat := .gate (nextMark y.quantum y.clock) (c / y.quantum * y.quantum) }) ∧
        (¬crossed → SameRun x { setPc effect (curPc y + BitVec.ofNat 64 len) with clock := c, stat := .ready })
    let passes (t : State) : Prop := RetiresAt i s k len
      (if acquires = true ∧ w.turn = false ∧ 3 ≤ f.mod.toNat then updCore t k fun co => { co with l1 := [] } else t) w .next
      (if acquires = true ∧ w.turn = true then ceilMark w.quantum (w.clock + 1) else w.clock + 1)
    (barComplete arrived k n = true → ∃ g', getGroup turned k = some g' ∧
      getBar g' n = { phase := (ph + 1) % 2 ^ 16, count := 0, expect := 0, arrived := [] }) ∧
    (o = .barArr → Retires i s k o f len (if barComplete arrived k n then turned else arrived) v) ∧
    (o = .barSync → (barComplete arrived k n = true → passes turned) ∧ (barComplete arrived k n = false → parks arrived ph)) ∧
    (o = .barWait → let want := (rdS w f.a.toNat).toNat % 2 ^ 16
      (ph ≠ want → passes s1) ∧ (ph = want → parks s1 want)) ∧
    (o = .barTest → Retires i s k o f len s1
      (perLaneP w (lanesOf (curLanes w)) f.d.toNat fun _ => ((ph + (rdS w f.a.toNat).toNat) % 2 == 1, 0))) ∧
    (∀ (t : State) (j : Nat) (r : Stamp) (y : Warp) (what : ParkWhat) (n : Nat) (en : Bool),
      getWarp t j = some y → y.stat = .parked what n en →
      goesOn t (wake t j r) j r.1 y what n ∧ ∀ m, m ≠ j → getWarp (wake t j r) m = getWarp t m) ∧
    (barComplete arrived k n = true → krising none s1.warps = true → ∀ j y, getWarp arrived j = some y →
      let woken (what : ParkWhat) : Prop := groupKey j = groupKey k ∧ ∃ p scope form, what = .bar n p scope form ∧ p ≠ (ph + 1) % 2 ^ 16
      (∀ what len en, y.stat = .parked what len en → woken what → goesOn arrived turned j w.clock y what len) ∧
      ((∀ what len en, y.stat = .parked what len en → ¬woken what) → getWarp turned j = some y))

/-- R221 to R224: `TKT.wait` enters its word in the card's table, which holds 4, lets it advance over groups that have ended or
been stopped, and then holds the ticket, is refused, or waits by passing; what turns above its stamp have already published to the word is taken up in stamp order; a word refused by a full table is not entered (log 74), but advances where another base has it entered.
`TKT.done` passes a held ticket on; a word advances at once over the ticket of a group that ended without it (void) or that its
card's stop has stopped (broken); a word is found under the address of its registration or at its page's later home (log 21);
a stopped card's groups that never started count as stopped (log 87), of several registrations the first card's
and entry's status stands (log 94), and a base counts modulo 2^32 (log 98): the model's choices. `PASS` and `PASS.to` move the clock. -/
def Obligations.TicketsAndPassing : Prop :=
  ∀ (i : Instr) (s s1 : State) (k len : Nat) (o : Op) (f : Long) (w : Warp), Performs i s k o f len s1 w →
    let p := partOf k
    let g := groupNo k
    let base := (scalarB w f).toNat % 2 ^ 32
    let want := (base + g) % 2 ^ 32
    let names (s : State) (key : Nat) (tk : Ticket) : Bool := tk.key == key || forwardKey s tk.key == key
    let hits (s : State) (key : Nat) (tk : Ticket) : Bool := names s key tk && tk.base == base
    let full (s : State) (c : Card) (key : Nat) : Prop := c.tickets.any (hits s key) = false ∧ 4 ≤ c.tickets.length
    let settled (s : State) (v : Warp) (key : Nat) : State :=
      tktSettle s p v.turn (stampOf k v) 1 (if v.turn then none else some k) key
    let entered (s : State) (v : Warp) (c : Card) (key : Nat) : State :=
      if c.tickets.any (hits s key) = true then settled s v key
      else if 4 ≤ c.tickets.length then (if c.tickets.any (names s key) = true then settled s v key else s)
      else settled (updCard s k fun c => { c with
        tickets := c.tickets ++ [{ key := key, base := base, holder := none, had := [] }]
        touched := if v.turn then (c.touched ++ laterPubs s (domOf s p) (stampOf k v) key).eraseDups else c.touched }) v key
    let wordOf (s : State) (v : Warp) (key : Nat) : Nat := rdNat (actMem s p v.turn (stampOf k v) 1) key 8
    let far (index : Nat) : Prop := 2 ^ 31 ≤ (want + 2 ^ 32 - index) % 2 ^ 32
    (∀ s2 v h x c, reachesHome s1 k w o f .store false true = some (s2, v, h, [x]) → getCard s2 k = some c →
      let key := accKey x
      let outstanding (s : State) (v : Warp) (x' : Nat) : Warp :=
        addPend v { regs := writeIds o f, writes := [.s f.d.toNat (BitVec.ofNat 64 x')], fp := 0, lx := 0
                    remote := farReply s k v [x], queue := none }
      (o = .tktWait → v.turn = true ∨ tktStall f s1 k w = none →
        let s3 := entered s2 v c key
        let word := wordOf s3 v key
        let index := word % 2 ^ 32
        (full s2 c key ∨ far index → Retires i s k o f len s3 (outstanding s3 v (3 * 2 ^ 32 + index))) ∧
        (¬full s2 c key → index = want →
          let take (tk : Ticket) : Ticket :=
            { tk with holder := some g, had := if tk.had.contains g then tk.had else tk.had ++ [g] }
          let s4 := updCard s3 k fun c => { c with tickets := c.tickets.map fun tk => if hits s2 key tk then take tk else tk }
          RetiresAt i s k len (if v.turn = false ∧ 3 ≤ f.mod.toNat then l1Clear s4 k else s4) (outstanding s4 v word) .next
            (if v.turn then ceilMark v.quantum (v.clock + 1) else v.clock + 1)) ∧
        (¬full s2 c key → ¬far index → index ≠ want → v.turn = true →
          Becomes i s k (moveClock (updWarp s3 k fun x => { x with passed := true }) k (nextMark v.quantum v.clock)))) ∧
      (o = .tktDone →
        let held : Bool := c.tickets.any fun tk => names s2 key tk && tk.holder == some g
        (held = false → Retires i s k o f len s2 (outstanding s2 v (3 * 2 ^ 32))) ∧
        (held = true →
          let index := wordOf s2 v key % 2 ^ 32
          let s3 := settled (updCard (actWrite s2 p v.turn (stampOf k v) 1 (if v.turn then none else some k) key
              (leBytes 8 ((index + 1) % 2 ^ 32))) k
            fun c => { c with tickets := c.tickets.map fun tk => if names s2 key tk then freeHolder tk g else tk }) v key
          Retires i s k o f len s3 (outstanding s3 v 0)))) ∧
    (o = .tktWait → w.turn = false → ∀ x xs c, checkAll s1 k w o f (some .store) false = (x :: xs, none) → getCard s1 k = some c →
      let s3 := entered s1 w c (accKey x)
      let index := wordOf s3 w (accKey x) % 2 ^ 32
      ¬full s1 c (accKey x) → ¬far index → index ≠ want → homeRefuses s3 (chipOf p) w.sec (accKey x) = none →
        tktStall f s1 k w = some s3 ∧ Becomes i s k (updWarp s3 k fun x => { x with stat := .stalled })) ∧
    (∀ (c : Card) (tk : Ticket) (index : Nat), index < 2 ^ 32 → tk.base < 2 ^ 32 →
      let n := (index + 2 ^ 32 - tk.base) % 2 ^ 32
      let ended : Prop := (n ∈ c.quit ∨ ∃ e ∈ c.ended, groupNo e.1 = n) ∧ ∀ x ∈ c.due, x.2 ≠ n
      tktNext c tk index = if n ∈ tk.had then none else if ended then some 1
        else if c.stop.isSome = true ∧ n < c.shape.groups then some 2 else none) ∧
    (∀ (s : State) (v : Warp) (key : Nat) (st : Nat), 0 < tktFuel s → (s.cards.findSome? fun e => if inDom s (domOf s p) (partOf e.1) = true then
          e.2.tickets.findSome? (fun tk => if tk.key = key then tktNext e.2 tk (wordOf s v key % 2 ^ 32) else none) else none) = some st →
      settled s v key = tktAdvance (actWrite s p v.turn (stampOf k v) 1 (if v.turn then none else some k) key
        (leBytes 8 (st * 2 ^ 32 + (wordOf s v key % 2 ^ 32 + 1) % 2 ^ 32))) p v.turn (stampOf k v) 1 (if v.turn then none else some k) key
        (tktFuel s - 1)) ∧
    (o = .pass ∨ o = .passTo → w.turn = false → RetiresThen i s k len s1 w .next (w.clock + 1) fun x => { x with runLen := 24 }) ∧
    (o = .pass → w.turn = true → RetiresAt i s k len s1 w .next (nextMark w.quantum w.clock)) ∧
    (o = .passTo → w.turn = true →
      RetiresAt i s k len s1 w .next (max (w.clock + 1) (min (scalarB w f).toNat (w.clock + 2 ^ 32))))

/-! ## The matrix engine -/

/-- R192, R203, R243, R251 to R254, R257 to R263: an `MMA` whose checks pass performs its remaining steps on the group's store, counts its
accesses and waits for its retirement, which clears `%mrow.STEP`; `ACCRD` leaves the converted entries outstanding; `ACCWR`
and `ACCZ` write theirs, once no started copy has still to write one of the entries. Each makes the group the holder of its
core's store. In free mode the steps come after the core's earlier loads of their lines (R173, R336). A resumed `MMA` keeps the
count of its resumptions: the model's choice (log 44). -/
def Obligations.MatrixInstructionsUseTheStore : Prop :=
  ∀ (i : Instr) (s s1 : State) (k len : Nat) (o : Op) (f : Long) (w : Warp), Performs i s k o f len s1 w →
    ∀ g, getGroup s1 k = some g →
    let lanes := activeL w o f
    let row (l : Nat) : Nat := (Forms.accRow f + l) % 256
    let holds (s : State) : State := updCore s k fun co => { co with accHolder := some (groupKey k) }
    let pairs : Bool := Forms.pairAcc f.ty
    let free (rows cols : List Nat) : Prop :=
      ∀ b ∈ g.bufs, ∀ c, b.2.copy = some c → ∀ e ∈ c.aw, e.1 / 256 ∈ rows → e.1 % 256 ∉ cols
    let reads (starts : List Int) (n : Nat) : Prop :=
      ∀ a ∈ starts, spaceOf a = .window → rangeStall w g false (a - windowBase).toNat n = false
    (o = .mma → mmaRows w f = [] → Retires i s k o f len (holds s1)
      { w with region := some (keepResumes (mmaRegion w f) w), mstep := 0, mpc := none }) ∧
    (o = .mma → mmaRows w f ≠ [] →
      let v : Warp := { w with region := some (keepResumes (mmaRegion w f) w) }
      let s2 := holds (setWarp s1 k v)
      spansCheck g.gsize (stepBytes f f.ty * mmaSteps f) (operandAlign f.ty) ((mmaRows w f).map (rowStart w f)) = none →
      spansCheck g.gsize (stepBytes f (mmaTb f) * mmaSteps f) (operandAlign (mmaTb f)) ((List.range 32).map (colStart w f)) = none →
      free ((List.range 32).map (Forms.mmaRow f + ·)) ((List.range (if f.ty = .f64 then 64 else 32)).map (Forms.mmaCol f + ·)) →
      reads ((mmaRows w f).map (rowStart w f)) (stepBytes f f.ty * mmaSteps f) →
      reads ((List.range 32).map (colStart w f)) (stepBytes f (mmaTb f) * mmaSteps f) →
      let keys := mmaKeys s2 k w f (mmaRows w f)
      let s3 := serveCore s2 k keys
      keys = [] ∨ (linesWait s3 k keys = false ∧ ∀ a ∈ keys, keyHeld s3 (chipOf (partOf k)) a = false) →
      ∀ y g' flags xs, getWarp s3 k = some y →
        mmaRun s3 k w f (plainBase s3 k w) (mmaRows w f) (mmaCells w f (mmaRows w f)) (mmaSteps f - w.mstep) w.mstep g 0 [] =
          .ok g' flags xs →
        let z := siteOf s3 k
        let s4 := countPages (installAll (setGroup s3 k (mmaFillIn w f (mmaRows w f) g')) z xs) z (accPages xs)
        let s5 := bringLines (sendAccess s4 k w (operandAlign f.ty) xs) k w 0 (fun _ => false) (xs.map fun x => (x, [accKey x]))
        let ends : Warp := { y with mstat := y.mstat ||| BitVec.ofNat 64 flags, mstep := 0, mpc := none }
        Becomes i s k (setWarp s5 k { ends with stat := .mma (weightOf w o f) len f.fl.en })) ∧
    (∀ (x : State) (y : Warp) (wt n : Nat) (en : Bool), getWarp x k = some y → y.stat = .mma wt n en →
      exec (.mmaRetirement k) x = .next (retire (updWarp x k fun y => { y with stat := .stalled }) k wt n en .next none id)) ∧
    (let rows := lanes.map row
      let cols := (List.range (if f.fn = 2 then 2 * Forms.accN f else Forms.accN f)).map (Forms.accCol f + ·)
      (o = .accrd → free rows cols →
        let value (l q : Nat) : Nat × Nat := accRead g f (row l) q
        let d (q : Nat) : Nat := f.d.toNat + (if pairs then 2 * q else q)
        Retires i s k o f len (holds s1) (addPend w
          { regs := writeIds o f, lx := 0, remote := none, queue := none
            writes := lanes.flatMap fun l => (List.range (Forms.accN f)).flatMap fun q =>
              .v (d q) l (BitVec.ofNat 32 (value l q).1) ::
                (if pairs then [.v (d q + 1) l (BitVec.ofNat 32 ((value l q).1 / 2 ^ 32))] else [])
            fp := BitVec.ofNat 64 (orAll (lanes.flatMap fun l => (List.range (Forms.accN f)).map fun q => (value l q).2)) })) ∧
      (o = .accwr → free rows cols → Retires i s k o f len (holds (setGroup s1 k
        (lanes.foldl (fun g l => (List.range (Forms.accN f)).foldl (fun g q => accWrite g f w l q) g) g))) w) ∧
      (o = .accz →
        free ((List.range (f.imm.toNat / 2 ^ 16 % 256 + 1)).map (Forms.accRow f + ·))
          ((List.range (f.imm.toNat / 2 ^ 24 + 1)).map (Forms.accCol f + ·)) →
        let cells := (List.range (f.imm.toNat / 2 ^ 16 % 256 + 1)).flatMap fun r =>
          (List.range (f.imm.toNat / 2 ^ 24 + 1)).map fun c => (Forms.accRow f + r) * 256 + (Forms.accCol f + c)
        Retires i s k o f len (holds (setGroup s1 k { g with acc := cells.foldl (fun m a => sput 0 m a 0) g.acc })) w))

/-! ## Copies -/

/-- R203, R229 to R240, R263: `CPSLICE` joins, opens and completes a collection; `CPLOOP`, `CPCHAIN` and `CPACC` start a copy; an entry
that is not free for the command's role refuses; in turn mode each of these and `BFREL` first waits until every copy that its group has
started is complete (the model's choice, log 107); each waits while group memory that it reads, or that the copy it starts reads or a
drain of it writes, is filling. The slice that completes a collection gives its order and cache hint (log 101), and a loop is
refused for its stage entries only once its command's own conditions hold (log 100): the model's choices. `BFWAIT` reads the entry's
word, and `BFREL` frees an entry, or refills its stage when the loop has an iteration left for it. -/
def Obligations.CopyInstructionsMoveTheirEntries : Prop :=
  ∀ (i : Instr) (s s1 : State) (k len : Nat) (o : Op) (f : Long) (w : Warp), Performs i s k o f len s1 w →
    ∀ g, getGroup s1 k = some g →
    let ends (t : State) : Prop := Retires i s k o f len t w
    let writing : Prop := w.turn = true ∧ ∃ e ∈ g.bufs, e.2.copy ≠ none
    let waits : Prop := Becomes i s k (setWarp s1 k { w with stat := .stalled })
    let a := addrOf w f.a.toNat
    let b := f.d.toNat
    let x := getBuf g b
    let acquired (s : State) : State :=
      if w.turn = false ∧ f.fn.getLsbD 0 = true ∧ 3 ≤ f.mod.toNat then updCore s k fun co => { co with l1 := [] } else s
    (o = .cpslice →
      let c := addrOf w f.b.toNat
      let isBox := f.fn.getLsbD 2
      copyFault g.gsize ((a, 64) :: if isBox then [(c, 8)] else []) (cmdSpans a .slice ++ if isBox then [(c, 112)] else []) = none →
      (writing → waits) ∧ (¬writing →
      let share (d : Desc) : Share := if isBox then boxShare g d (windowOff c) else rangeShare d (rdS w f.b.toNat)
      let put (t : State) (col : Coll) : State :=
        if col.cmd.nslice = 0 ∨ 48 < col.cmd.nslice ∨ col.cmd.nslice ≤ col.shares.length then startCopy (acquired t) k w b col .slice
        else updBuf t k b fun x => { x with coll := some col }
      let cmd := readCmd g .slice (windowOff a)
      let record := inGroup (if isBox then [(c, 112)] else [])
      let readable (col : Coll) : Prop :=
        col.cmd.nslice = 0 ∨ 48 < col.cmd.nslice ∨ col.cmd.nslice ≤ col.shares.length →
          readsFilling w g [b] (stallSpans col.cmd .slice col.shares) = false
      (∀ col, x.coll = some col → readsFilling w g [] record = false →
        let next : Coll := { col with shares := col.shares ++ [share col.cmd.src] }
        (col.addr = rdS w f.a.toNat → readable next → ends (put s1 next)) ∧ (col.addr ≠ rdS w f.a.toNat → ends (refuseBuf s1 k b))) ∧
      (x.coll = none → readsFilling w g [] (record ++ inGroup (cmdSpans a .slice)) = false →
        let next : Coll := { addr := rdS w f.a.toNat, cmd := cmd, shares := [share cmd.src] }
        (opens x cmd.role = true → readable next → ends (put (updBuf s1 k b fun x => openBuf x cmd) next)) ∧
        (opens x cmd.role = false → ends (refuseBuf s1 k b))))) ∧
    (o ∈ [.cploop, .cpchain, .cpacc] →
      let kind : CopyKind := if o = .cploop then .loop
        else if o = .cpchain then .chain (f.lit.getD 0) ((List.range 7).map fun i => rdS w (f.c.toNat + i)) else .acc f.imm.toNat
      let cmd := readCmd g kind (windowOff a)
      let n := cmd.src.ext.getD 0 0 * (if cmd.src.ty = 9 then 2 else 1)
      let takes : Bool := if o = .cploop then loopFree g b cmd else opens x cmd.role
      copyFault g.gsize [(a, 64)] (cmdSpans a kind) = none →
      (writing → waits) ∧ (¬writing →
      readsFilling w g [] (inGroup (cmdSpans a kind)) = false →
      (takes = true → readsFilling w g [b] (stallSpans cmd kind []) = false) →
      (o = .cpacc → takes = true → (accCommand cmd f.imm.toNat && accBusy g ((List.range (cmd.src.ext.getD 1 0)).map (accRow0 f.imm.toNat + ·))
        ((List.range n).map (accCol0 f.imm.toNat + ·))) = false) →
      let s2 := if o = .cpacc then holdAcc s1 k else s1
      let s2 := if takes then acquired s2 else s2
      (o = .cploop → ends (startLoop s2 k w b cmd)) ∧
      (o ≠ .cploop → takes = true →
        ends (startCopy (updBuf s2 k b fun x => openBuf x cmd) k w b { addr := rdS w f.a.toNat, cmd := cmd, shares := [] } kind)) ∧
      (o ≠ .cploop → takes = false → ends (refuseBuf s2 k b)))) ∧
    (o = .bfwait → let y := getBuf g f.a.toNat
      let want := if f.fn = 0 then 0 else 2
      (y.state = want ∨ y.state = 4 → Retires i s k o f len s1 (wrS w f.d.toNat (bufWord y))) ∧
      (y.state ≠ want → y.state ≠ 4 → w.turn = true → y.copy = none ∨ y.state ≠ (if f.fn = 0 then 3 else 1) →
        Becomes i s k (moveClock s1 k (nextMark w.quantum w.clock)))) ∧
    (o = .bfrel →
      let n := f.a.toNat
      let y := getBuf g n
      let freed := updBuf s1 k n fun x => { x with state := 0, iter := 0, loop := none }
      (writing → waits) ∧ (¬writing →
      (y.state = 0 → ends s1) ∧ (y.state = 1 ∨ y.state = 3 → ends (refuseBuf s1 k n)) ∧
      (y.state = 2 → ∀ l, y.loop = some l → l.iter + l.cmd.stages < l.cmd.count →
        readsFilling w g [n] (if l.cmd.src.group then viewSpans (iterView l.cmd (l.iter + l.cmd.stages)) else []) = false →
        ends (startIter s1 k w l.cmd l.first (l.iter + l.cmd.stages))) ∧
      (y.state = 2 → ∀ l, y.loop = some l → l.cmd.count ≤ l.iter + l.cmd.stages → ends freed) ∧
      (y.state = 4 ∨ (y.state = 2 ∧ y.loop = none) → ends freed)))

/-- R184, R202, R203, R227, R229 to R232, R235, R238 to R241, R318, R377: a plain copy whose checks fail ends in state 4 with the first failing check's code (log 50); else it reads its source and
holds its writes until it completes: then group memory and the store have them, a fill is full and a drain free, and in
turn mode global bytes are published with the copy's stamp; a copy of a stopped card is discarded (log 22). What a copy reads it reads
when it starts (the model's choice, log 17), its region's tables with it, as its round shows them (the model's choice, log 10), and its
home slices serve what it reads (R14, R175). A loop's later iteration whose source no longer passes check REGION fails so too. -/
def Obligations.CopiesCheckReadAndComplete : Prop :=
  (∀ (s : State) (k b : Nat) (w : Warp) (c : Coll) (g : Group), getGroup s k = some g →
    let boxes := c.shares.map (·.box)
    let x := getBuf g b
    let fill := c.cmd.role == 0
    let vs : List View :=
      [{ d := c.cmd.src, boxes := boxes, shift := 0, write := false, range := if fill then none else some (x.off, x.len) },
       { d := c.cmd.dst, boxes := boxes, shift := 0, write := true, range := if fill then some (x.off, x.len) else none }]
    let q := tabsOf s k w
    let place (d : Desc) : Place := (placeOf s q d (boxes.flatMap (descSpans d 0))).toOption.getD .group
    let writes := plainWrites g (plainBase s k w) (chipOf (partOf k)) c.cmd (place c.cmd.src) 0 0 boxes
    let bad := vs.findSome? (secureByte s q)
    let err := laterChecks s q g [b] [(x.off, x.len)] boxes vs bad
    let t := startCopy s k w b c .slice
    (plainCommand c.cmd c.shares = false → t = updBuf s k b fun x => { x with state := 4, err := 3, coll := none, copy := none, loop := none }) ∧
    (plainCommand c.cmd c.shares = true → err ≠ 0 → t = updBuf (reportCopy s (partOf k) bad err) k b fun x =>
      { x with state := 4, err := err, coll := none, copy := none, loop := none }) ∧
    (plainCommand c.cmd c.shares = true → err = 0 → t = updBuf (copyTouch s q vs) k b fun x => { x with
      coll := none
      copy := some { stamp := (w.clock, identOf k), gw := gwOf (place c.cmd.dst) writes, mw := mwOf (chipOf (partOf k)) (place c.cmd.dst) writes
                     aw := [], flags := 0, ceil := false, floor := false, fill := fill } })) ∧
  (∀ (s : State) (k first i : Nat) (w : Warp) (cmd : CopyCmd) (g : Group) (a : Option Nat), getGroup s k = some g →
    placeOf s (tabsOf s k w) cmd.src (descSpans cmd.src (loopStep cmd * i) (fullBox cmd.src.ext)) = .error a →
    startIter s k w cmd first i = updBuf (reportSecure s (partOf k) { kind := 0, secure := a }) k (first + i % cmd.stages) fun x =>
      { x with state := 4, err := 1, coll := none, copy := none, loop := none }) ∧
  (∀ (s : State) (gk b : Nat) (g : Group) (c : Copy), kfind s.groups gk = some g → (getBuf g b).copy = some c →
    ((getCard s gk).any (fun x => x.stop.isSome) = true →
      ∃ t, exec (.copyCompletion gk b) s = .next t ∧ { t with groups := s.groups } = s ∧
        ∀ x, kfind t.groups gk = some x → ∀ e ∈ x.bufs, e.2.copy = none) ∧
    ((getCard s gk).any (fun x => x.stop.isSome) = false →
    let y : Buf := { getBuf g b with copy := none, flags := c.flags, ceil := c.ceil, floor := c.floor }
    let s1 := setGroup s gk (setBuf { g with
      gmem := c.gw.foldl (fun m e => sput 0 m e.1 e.2) g.gmem
      acc := c.aw.foldl (fun m e => sput 0 m e.1 e.2) g.acc } b
      (if c.fill then { y with state := 2 } else { y with state := 0, loop := none, iter := 0 }))
    (getPart s (partOf gk)).ctx.any (·.turn) = true ∧
        exec (.copyCompletion gk b) s = .next (pubBytes s1 (domOf s (partOf gk)) c.stamp 3 c.stamp.1 c.mw) ∨
      (getPart s (partOf gk)).ctx.any (·.turn) = false ∧
        exec (.copyCompletion gk b) s = .next (c.mw.foldl (fun s e => freeWrite s gk e.1 [e.2]) s1)))

/-! ## Handles, save points, digests -/

/-- R25, R183, R290, R304 to R313, R321, R323, R324, R326, R330, R378: a creating act whose marked handles are live and which finds a serial and a slot enters the slot as pending
with one holding, counts a holding of each marked handle, sends the new card to the partition of its number on
the target chip (logs 7, 11), and leaves the handle outstanding; in free mode the slot is the lowest that is free (log 19). -/
def Obligations.CreatingActsTakeASlotAndSendACard : Prop :=
  ∀ (i : Instr) (s s1 : State) (k len : Nat) (o : Op) (f : Long) (w : Warp), Performs i s k o f len s1 w →
    o = .spawn ∨ o = .invoke ∨ o = .invokeh →
    let p := partOf k
    let dom := domOf s1 p
    let t : Stamp := (w.clock, identOf k)
    let dest : Dest := if o = .spawn then .here else if o = .invoke then .chip (f.imm.toNat % 16) else .handle
    let mask := rdS w f.c.toNat ||| (if o = .invokeh then 1 else 0)
    let s2 := reapCards (if w.turn then settleHandles s1 dom else s1) dom
    ∀ s3 vals c n, readAcq s2 k w 8 ((lanesOf mask).map fun i => ((rdS w f.b.toNat).toNat : Int) + 8 * i) = .ok s3 vals →
      getCard s3 k = some c →
      let handles := vals.map (BitVec.ofNat 64)
      let serial := 0x8000 + createdCount s3 dom % 0x8000
      markFault s3 p handles [] = none → heldDistinct c < 256 → destFull s3 p dest handles = false →
      serialUsed s3 dom serial = false → pickSlot s3 p serial w.turn t = some n →
      let key := slotKey p (serial % dieCount s3 p) n
      let gen := (getSlot s3 key).gen
      let h := mkHandle (myIndex s3 (chipOf p)) (serial % dieCount s3 p) n gen
      let s4 := noteDealt (putSlot s3 key { Slot.fresh with gen := gen, st := .pending, count := 1 }) p w.clock
      let s5 := updCard (bumpCounts (setPart s4 p { getPart s4 p with nCreated := (getPart s4 p).nCreated + 1 }) p handles) k
        fun c => addHeld c h
      let s6 := place s5 p t dest handles
        { home := p, target := p, image := rdS w f.a.toNat, arg := rdS w f.b.toNat
          ident := myIndex s5 (chipOf p) * 2 ^ 48 + serial * 2 ^ 32, handle := h, origin := w.clock + 8, prio := c.prio
          mbox := c.mbox, held := handles, stamp := t
          via := if o = .invokeh then handles.head? else none, maker := c.maker.getD (p, c.mbox) }
      let result (v : Warp) : Warp :=
        addPend v { regs := writeIds o f, writes := [.s f.d.toNat h], fp := 0, lx := 0, remote := none, queue := none }
      ∀ v, getWarp s6 k = some v → v.stat = .ready → ((getCard s6 k).all fun c => c.stop.isNone) = true →
        RetiresAt i s k len (updWarp s6 k result) (result v) .next (v.clock + weightOf w o f)

/-- R196, R308 to R310, R312, R314, R315, R317, R324, R326, R328, R378: what the instructions on a handle that may be named do: waiting for and reading its result group,
holdings taken and dropped, and the issuing card's own handle resolved or broken, once. -/
def Obligations.HandleInstructionsReadHoldAndSettle : Prop :=
  ∀ (i : Instr) (s s1 : State) (k len : Nat) (o : Op) (f : Long) (w : Warp), Performs i s k o f len s1 w →
    let p := partOf k
    let h := rdS w f.a.toNat
    let t : Stamp := (w.clock, identOf k)
    let s2 := handleTurn s1 k w
    let ends (t : State) (g : Warp → Warp) (c : Option Nat) : Prop :=
      ∀ v, getWarp t k = some v → v.stat = .ready → ((getCard t k).all fun c => c.stop.isNone) = true →
        RetiresAt i s k len (updWarp t k g) (g v) .next (c.getD (v.clock + weightOf w o f))
    let dropsLines (t : State) : State := if w.turn then t else updCore t k fun co => { co with l1 := [] }
    (∀ key x, liveSlot s1 p h = some (key, x) →
      let pending := unresolved x
      (o = .fwait → ∀ v, getWarp s2 k = some v →
        let after := setWarp s2 k (wrGroup v f.d.toNat (resultGroup x))
        (pending = false → ends (dropsLines after) id
          (if f.imm.getLsbD 0 = true ∧ w.turn = true then some (ceilMark w.quantum (w.clock + 1)) else none)) ∧
        (pending = true → Becomes i s k (parkWarp s2 k v (.fwait h f.d.toNat (f.imm.getLsbD 0)) len f.fl.en))) ∧
      (o = .fpoll → ends (if pending then s2 else dropsLines s2) (fun v => addPend v
        { regs := writeIds o f, writes := (resultGroup x).zipIdx.map fun e => .s (f.d.toNat + e.2) e.1, fp := 0, lx := 0, remote := none, queue := none }) none) ∧
      (∀ c, getCard s1 k = some c →
        (o = .fref → x.count ≠ 65535 → heldCount c h ≠ 0 ∨ heldDistinct c < 256 →
          ends (updCard (putSlot s2 key { x with count := x.count + 1 }) k fun c => addHeld c h) id none) ∧
        (o = .fdrop → f.imm.getLsbD 0 = false → heldCount c h ≠ 0 →
          ends (cascade (updCard s2 k fun c => dropHeld c h) p t [.drop h]) id none) ∧
        (o = .fdrop → f.imm.getLsbD 0 = true → pinCount s1 p h ≠ 0 →
          let m := (getPart s2 p).pins
          ends (cascade (setPart s2 p { getPart s2 p with
            pins := if pinCount s2 p h ≤ 1 then kerase m h.toNat else kinsert m h.toNat (pinCount s2 p h - 1) }) p t [.drop h]) id none)) ∧
      (o = .fpin → x.count ≠ 65535 →
        let s3 := putSlot s2 key { x with count := x.count + 1 }
        ends (setPart s3 p { getPart s3 p with pins := kinsert (getPart s3 p).pins h.toNat (pinCount s3 p h + 1) }) id none)) ∧
    (let settles (u : State) (act : State → Nat → Slot → Dword → State) : Prop :=
       ∀ c key x, getCard u k = some c → findSlot u p c.handle = some (key, x) →
         (unresolved x = true → ends (act u key x c.handle) (fun v => wrS v f.d.toNat 0) none) ∧
         (x.st = .resolved ∨ x.st = .broken → ends u (fun v => wrS v f.d.toNat 1) none)
     (o = .fresVal → ∀ u vals, readAcq s1 k w 1 ((List.range (f.imm.toNat % 2 ^ 7)).map fun i => (h.toNat : Int) + i) = .ok u vals →
       settles u fun u key x h => resolveSlot u p key x h t (vals.map (BitVec.ofNat 8)) none) ∧
     (o = .fresPlace → settles s2 fun u key x own => resolveSlot u p key x own t [] (some ((rdS w f.b.toNat).toNat % 16, h))) ∧
     (o = .fbreak → settles s2 fun u _ _ own => cascade u p t [.brk own (BitVec.ofNat 64 ((rdS w f.b.toNat).toNat % 2 ^ 48)) false]))

/-- R352, R353, R361, R364 to R366: `SAVEPT` requests a save point in every partition of the domain and returns its mark, or in free
mode its number; `DIGEST` mixes a value into the card's digest where the chain is enabled; `SEED` leaves the mixed seed
outstanding. -/
def Obligations.SavePointDigestAndSeed : Prop :=
  ∀ (i : Instr) (s s1 : State) (k len : Nat) (o : Op) (f : Long) (w : Warp), Performs i s k o f len s1 w →
    let p := partOf k
    let x := rdS w f.a.toNat
    (∀ v, getWarp (turnPub s1 k) k = some v →
      (o = .savept →
        let s2 := requestSave (turnPub s1 k) p w.turn (if w.turn then w.clock + 1 else 0) true none
        let sv := (getPart s2 p).save
        Retires i s k o f len s2
          (wrS v f.d.toNat (BitVec.ofNat 64 (if w.turn then w.clock + 1 else sv.next + sv.reqs.length - 1)))) ∧
      (o = .digest → Retires i s k o f len
        (if chainOn s1 p then updCard (turnPub s1 k) k fun c => { c with digest := mix (c.digest ^^^ x) } else turnPub s1 k) v)) ∧
    (o = .seed → ∀ c, getCard s1 k = some c →
      Retires i s k o f len s1 (addPend w
        { regs := writeIds o f, fp := 0, lx := 0, remote := none, queue := none
          writes := [.s f.d.toNat (mix (mix (mix c.seed ^^^ BitVec.ofNat 64 (identOf k)) ^^^ scalarB w f))] }))

/-! ## Encodings -/

/-- R40, R41, R60: decoding the words of a well-formed machine instruction, with any words after it, gives the instruction back;
and what decodes is a well-formed machine instruction whose encoding the words are, as long as R40 says. -/
def Obligations.DecodingAndEncodingAgree : Prop :=
  (∀ (i : Instr) (rest : List Word), i.wf = true → i.core.isSome = true → decode (encode i ++ rest) = .ok (i, rest)) ∧
  ∀ (ws : List Word) (i : Instr) (rest : List Word), decode ws = .ok (i, rest) →
    i.wf = true ∧ ws = encode i ++ rest ∧ ∃ o f n, i.core = some (o, f, n) ∧ (encode i).length * 4 = n

/-- Instruction words that the spec writes out (spec 03, 05, 07, 08 and 09). -/
def Obligations.WordsOfTheSpecDecode : Prop :=
  let fl : Flags := { pk := false, en := false }
  let l : Long := { fl := fl, ty := .i32, fn := 0, d := 0, a := 0, b := 0, c := 0, neg := false, pred := 0, mod := 0, imm := 0, lit := none }
  decode [0x120C2A00] = .ok (.vaddShort { fl := fl, d := 5, a := 3, b := 9, lit := none }, []) ∧
  decode [0x120C2A08] = .ok (.vaddShort { fl := { pk := false, en := true }, d := 5, a := 3, b := 9, lit := none }, []) ∧
  decode [0x20102140] = .ok (.saddShort { fl := fl, d := 4, a := 4, imm7 := 16, lit := none }, []) ∧
  decode [0x20184540] = .ok (.vldShort { fl := fl, data := 8, base := 6, off7 := 16 }, []) ∧
  decode [0xFFFFE810] = .ok (.braShort { fl := fl, off21 := 0x1FFFFD }, []) ∧
  decode [0x0002D820] = .ok (.brcShort { fl := fl, off17 := 5, neg := true, pred := 3 }, []) ∧
  decode [0xFE0C1262, 0x000186A0, 0] = .ok (.vmulShort { fl := fl, d := 2, a := 3, b := 0x7F, lit := some 100000 }, []) ∧
  decode [0x400053F1, 0x2A0A0C0B, 0] = .ok (.vffma { l with ty := .f32, d := 10, a := 11, b := 12, c := 10, neg := true, pred := 2, mod := 2 }, []) ∧
  decode [0x00000061, 0, 0x0000000C] = .ok (.mark { l with imm := 12 }, []) ∧
  decode [0x00000088] = .ok (.exitShort { fl := { pk := false, en := true } }, []) ∧
  decode [0x900144A1, 0x00320014, 2] = .ok (.vbfpq { l with ty := .bfp4, d := 40, a := 20, c := 50, imm := 2 }, []) ∧
  decode [0x00000131, 0, 0] = .error .badMajor ∧
  decode [0x120C2A02, 0, 0] = .error .illegal ∧
  decode [0x400053F1, 0xAA0A0C0B, 0] = .error .illegal ∧
  decode [0x000053F1, 0x000A0C0B, 0] = .error .illegal

/-! ## A step -/

/-- R31, R41, R43, R59, R60, R72, R73, R92, R377: a step runs what is pending; else a warp that holds a slot, in the order in which the
slots were won (log 1), fetches at its program counter, or within a repeat the target behind the prefix, and runs what it
decodes, once its lines, in turn mode those of its round's image (log 10), are in the instruction cache: a page fault at a word that cannot be fetched, the illegal-instruction
fault for words that are no instruction, the end of the card where a home refuses the fetch (R346, R377), a run's end before a `REP` that the run has no room for (R73); else it performs the
next act that is due (log 1). A machine instruction that a warp issues answers a next state whatever the state is, and so does
every event; the one stop is a machine instruction without an issuing warp, which no step makes while only events are pending. -/
def Obligations.StepRunsTheDecodedInstruction : Prop :=
  (∀ s : State,
    (∀ i rest, s.agenda = i :: rest → step s = exec i { s with agenda := rest }) ∧
    (s.agenda = [] → s.cur = none → s.runs = [] → step s = .next (idleStep s)) ∧
    ∀ k, s.agenda = [] → (s.cur = some k ∨ (s.cur = none ∧ ∃ r, s.runs = k :: r)) →
      (getWarp s k = none → step s = .next { s with cur := none, runs := s.runs.filter fun j => j != k }) ∧
      ∀ w, getWarp s k = some w →
        let u : State := { s with cur := some k }
        let z := siteOf s k
        let m := codeMark w
        let a := if w.rep.isSome then curPc w + 12 else curPc w
        let fails (r : Fetched) : Prop :=
          (∃ b e, r = .fault b e ∧
            step s = .next (trapAt (reportSecure (walkTouch u z b.toNat) (partOf k) { kind := 0, secure := e }) k 5 0 b)) ∨
          ∃ b key kind, r = .refused b key kind ∧
            step s = .next (endRun (refuseAll u k [{ kind := kind, va := b.toNat, pc := curPc w, key := key }] true w.clock) k)
        (w.stat ≠ .ready → step s = .next (endRun u k)) ∧
        (w.stat = .ready → ∀ r, fetchWord u z m w.sec a = .error r → fails r) ∧
        ∀ x, w.stat = .ready → fetchWord u z m w.sec a = .ok x →
          (∀ r, fetchWords u z m w.sec (wordCount x) a = .error r → fails r) ∧
          ∀ ws, fetchWords u z m w.sec (wordCount x) a = .ok ws →
            (∀ e, decode ws = .error e → step s = .next (trapAt u k 1 0 (curPc w))) ∧
            ∀ i r, decode ws = .ok (i, r) →
              let v := fillFrom u z m a (4 * wordCount x)
              (w.rep = none → step s = if repWaits w i then .next (endRun v k) else exec i v) ∧
              ∀ q o f n, w.rep = some q → i.core = some (o, f, n) → step s = exec (o.long (stepTarget q.imm f w.repidx)) v) ∧
  ∀ (i : Instr) (s : State),
    (i.core = none → ∃ t, exec i s = .next t) ∧
    (i.core.isSome = true → ∀ k w, s.cur = some k → getWarp s k = some w → ∃ t, exec i s = .next t) ∧
    (i.core.isSome = true → (∀ k, s.cur = some k → getWarp s k = none) → exec i s = .fault .noIssuer) ∧
    ((∀ e ∈ s.agenda, e.core = none) → ∃ t, step s = .next t)

/-- The model's own form of memory, which every step keeps: bytes of device memory and of host memory by rising address, and none
listed that holds what an unlisted byte reads as, 0 (log 4). -/
def Obligations.StepsKeepMemoryCanonical : Prop :=
  ∀ s t : State, s.memWf = true → step s = .next t → t.memWf = true

/-- R373, R11, R175, R176, R334, R376, R377: after device reset every byte of device memory is 0 and memory is canonical, no
context exists, every fabric is disabled and every port down, no slice is retired, bucket b names slice b mod 24, no region is
set, the error log and the mailboxes are empty; nothing runs, and a write to a mailbox window is discarded. The enabled cores
are the model's choice (log 5). -/
def Obligations.ResetLeavesTheStatedState : Prop :=
  let s := State.reset
  s.memWf = true ∧ (∀ a, rdByte s.mem a = 0) ∧ s.pubs = [] ∧ s.warps = [] ∧ s.groups = [] ∧ s.cards = [] ∧ s.created = [] ∧ s.slots = [] ∧
  (∀ p, (getPart s p).ctx = none ∧ (getPart s p).mboxes = [] ∧ (getPart s p).cmd.busy = false ∧ (getPart s p).fq.set = false) ∧
  (∀ c, let x := getChip s c
    x.fxEn = false ∧ x.pmap = 0 ∧ x.dieTlb = [] ∧ x.walks = [] ∧ x.resolved = [] ∧ x.replicas = [] ∧ x.counts = [] ∧ x.errLog = [] ∧
    (∀ q, (getPort x q).up = false) ∧ (∀ q, (getPeer x q).rv = false) ∧ (∀ n, (sget Slice.reset x.slices n).ret = false ∧ (sget Slice.reset x.slices n).lines = []) ∧
    (∀ die b, b < 1024 → bucketSlice x die b = b % 24) ∧ (∀ pa, isSecure s c pa = false) ∧
    (∀ n, (getCore x n).l1 = [] ∧ (getCore x n).tlb = [] ∧ (getCore x n).icache = [] ∧ (getCore x n).accHolder = none)) ∧
  ∀ p b off l, exec (.mailboxWindowWrite p b off l) s = .next s

/-! ## Registers, warps and clocks -/

/-- R51, R52, R101: a register reads what was last written to it and no other register changes; `s0` reads as 0 and `p0` as all
ones, and writes to them are discarded; a predicate holds W bits; at system privilege `s112` to `s127` are the shadow bank. -/
def Obligations.RegistersReadWhatWasWritten : Prop :=
  ∀ (w : Warp), w.wf = true →
    (∀ r l x r' l', l < 64 → l' < 64 → rdV (wrV w r l x) r' l' = if r = r' ∧ l = l' then x else rdV w r' l') ∧
    (∀ r x r', rdS (wrS w r x) r' = if r ≠ 0 ∧ r = r' then x else rdS w r') ∧
    (∀ r x r', rdP (wrP w r x) r' = if r ≠ 0 ∧ r = r' then x &&& fullMask w.width else rdP w r') ∧
    (∀ r l b r' l', l' < w.width → w.width ≤ 64 →
      (rdP (wrPBit w r l b) r').getLsbD l' = if r ≠ 0 ∧ r = r' ∧ l = l' then b else (rdP w r').getLsbD l') ∧
    (∀ r l x, l < 64 → rdVV (wrVV w r l x) r l = x) ∧
    (∀ n x m, rdJ (wrJ w n x) m = if n = m then x else rdJ w m) ∧
    rdS w 0 = 0 ∧ rdP w 0 = fullMask w.width ∧
    (∀ r x, 112 ≤ r → (wrS { w with sys := true } r x).s = w.s ∧ (wrS { w with sys := false } r x).shadow = w.shadow) ∧
    (∀ r l x n d j, (wrV w r l x).wf = true ∧ (wrS w n d).wf = true ∧ (wrP w n d).wf = true ∧ (wrJ w n j).wf = true)

/-- R32, R33: a group starts with its memory zero, its buffers free and its barriers at phase 0, and each of its warps at the
card's entry and origin, with every register at its start value, as one fragment of all lanes and with an empty hand. -/
def Obligations.GroupsStartAsTheRulesSay : Prop :=
  ∀ (s : State) (ck n i stage allot : Nat) (c : Card) (x : Ctx), (warpPlan c.shape)[i]? = some (stage, allot) →
    let t := startGroup s ck c x n
    let gk := ck + c.next * 2 ^ 8
    (∃ g, kfind t.groups gk = some g ∧ g.core = some n ∧ g.gsize = c.shape.gmem ∧ (∀ a, sget 0 g.gmem a = 0) ∧
      (∀ b, getBuf g b = Buf.free) ∧ (∀ b, (getBar g b).phase = 0)) ∧
    ∃ w, getWarp t (gk + i) = some w ∧ w.wf = true ∧ w.clock = c.origin ∧ w.allot = allot ∧ w.width = c.shape.width ∧
      curPc w = c.entry ∧ (∀ r l, rdV w r l = 0) ∧
      rdS w 1 = (if c.batch then c.arg + BitVec.ofNat 64 (c.next * c.stride) else c.arg) ∧
      (∀ r, r ≠ 1 → rdS w r = 0) ∧ (∀ r, sget 0 w.shadow r = 0) ∧ rdP w 0 = fullMask c.shape.width ∧ (∀ r, r ≠ 0 → rdP w r = 0) ∧
      (∀ j, rdJ w j = JReg.empty) ∧ w.fpstat = 0 ∧ w.lxstat = 0 ∧ w.mstat = 0 ∧ w.jstat = 0 ∧ w.repidx = 0 ∧ w.hand = Hand.empty ∧
      w.region = none ∧ w.outst = [] ∧ w.sys = false ∧ w.tvec = x.tvec &&& ~~~3 ∧
      w.frags.map (fun g => (g.id, g.lanes)) = [(0, fullMask c.shape.width)] ∧ w.run = 0

/-- R178, R186, R330: within a round, and in free mode, only the clock moves. When it crosses a mark of the quantum, the warp
publishes its unpublished bytes and its pot entries at the last stamp below the first mark crossed, its hand is emptied, no region
is open, and it waits at the gate of the last mark crossed, which stays shut until the floor has reached that mark; no memory
changes (only flits are put on the chip's ports, lines of the slices give way, and cards note that a ticket word was reached,
R223). -/
def Obligations.ClockMovesAndMarksPublish : Prop :=
  ∀ (s : State) (k c : Nat) (w : Warp), getWarp s k = some w →
    let t := moveClock s k c
    (w.turn = false ∨ c / w.quantum ≤ w.clock / w.quantum → t = updWarp s k fun x => { x with clock := c }) ∧
    (w.turn = true → w.clock / w.quantum < c / w.quantum → (getCard s k).all (fun x => x.stop.isNone) = true →
      handRefusals s (chipOf (partOf k)) w.sec w.hand true = [] →
      let m := (w.clock / w.quantum + 1) * w.quantum
      let pub (ord : Nat) (b : PubBody) : Pub := { dom := domOf s (partOf k), stamp := (m - 1, identOf k), ord := ord, made := m, body := b }
      t.pubs = ((if (handFresh w.hand).isEmpty then [] else [pub 0 (.bytes (handFresh w.hand))]) ++
        w.hand.pots.map fun e => pub 2 (.pot e.key e.op e.ty e.val)).foldl insertPub s.pubs ∧
      getWarp t k = some { w with clock := c, hand := Hand.empty, region := none, stat := .gate m (c / w.quantum * w.quantum) } ∧
      (∀ j, j ≠ k → getWarp t j = getWarp s j) ∧
      t.cards.map (fun e => (e.1, { e.2 with touched := [] })) = s.cards.map (fun e => (e.1, { e.2 with touched := [] })) ∧
      { t with warps := s.warps, pubs := s.pubs, chips := s.chips, cards := s.cards } = s) ∧
    ∀ a m, w.stat = .gate a m → floorGe s (domOf s (partOf k)) m = false → exec (.roundGateOpen k) s = .next s

/-- R75, R97, R155, R157, R180: before a park point performs, every outstanding result is written, and the registers hold none; a
reply from another chip is waited for, and the earliest unconfirmed access that faults is reported with every result before it.
What was unconfirmed has its translations installed, in program order; nothing else changes. -/
def Obligations.ParkPointsWriteOutstandingResults : Prop :=
  ∀ (s : State) (k : Nat) (w : Warp), getWarp s k = some w →
    let waits : Bool := w.pend.any (fun x => x.remote.isSome) || w.unconf.any fun u => u.pend.any fun x => x.remote.isSome
    let written (ps : List Pend) : Warp := { ps.foldl applyPend w with pend := [], unconf := [], outst := [] }
    let installed (us : List Unconf) : State := (us.flatMap (·.vas)).foldl (fun t a => install t (siteOf s k) a) s
    let leaves (t : State) (us : List Unconf) : Prop :=
      getWarp t k = some (written (w.pend ++ us.flatMap fun u => u.pend.toList)) ∧
      (∀ j, j ≠ k → getWarp t j = getWarp s j) ∧ { t with warps := s.warps } = installed us
    (waits = true → settle s k = .wait) ∧
    (waits = false → (∀ u ∈ w.unconf, u.fault = none) → ∃ t, settle s k = .ok t ∧ leaves t w.unconf) ∧
    (waits = false → ∀ l u r, w.unconf = l ++ u :: r → (∀ x ∈ l, x.fault = none) → u.fault.isSome = true →
      ∃ t, settle s k = .fault t u ∧ leaves t l)

/-! ## Events -/

/-- R74, R75, R97, R155, R157, R158, R166, R302, R330, R336, R341, R342, R346, R347, R350: what is in flight completes. A result is
written; a confirmed load hands its result on, and one that faults takes its trap; a posted store performs at its homes or is
held, after the earlier loads of its lines by its core (R173); a request is served, below the bytes of the warp's own earlier
stores (R164), or refused at its home and its reply is written, into a saved warp's slot as a late one, or into the result of a
load that is not yet confirmed; bytes of a replicated page stay as replicas of the chip (R338); the chips
acknowledge an `FSHOOT` once nothing that it covers is in use, or it retires without them; a page walk installs its translation
with `A` set, the oldest of a full TLB giving way (log 69); a marker completes a move. That each refused sector gives a refusal of its own
(`perSector`, log 88), and that a handler's posted stores stand and fault in a queue of their own (`postedOf`, `heldOf`, log 14), are the
model's choices. -/
def Obligations.FlightCompletes : Prop :=
  (∀ (s : State) (k : Nat) (w : Warp), getWarp s k = some w →
    let p := partOf k
    let z := siteOf s k
    let chip := chipOf p
    (∀ l x r, w.pend = l ++ x :: r → (∀ y ∈ l, y.remote.isSome = true) → x.remote = none →
      exec (.outstandingResultWrite k) s = .next (setWarp s k (applyPend { w with pend := w.pend.filter fun y => y != x } x))) ∧
    (∀ u us, w.unconf = u :: us → u.fault = none → exec (.loadConfirmation k) s = .next
      (updWarp (u.vas.foldl (fun s a => install s z a) s) k fun v => { v with unconf := us, pend := v.pend ++ u.pend.toList })) ∧
    (∀ u us kind a, w.unconf = u :: us → u.fault = some (kind, a) → w.sys = false → w.tvec ≠ 0 →
      w.pend.any (fun x => x.remote.isSome) = false → us.any (fun y => y.pend.any fun x => x.remote.isSome) = false →
      u.pend.any (fun x => x.remote.isSome) = false →
      ∃ t x, exec (.loadConfirmation k) s = .next t ∧ getWarp t k = some x ∧
        InHandler { w.pend.foldl applyPend w with pend := [], unconf := [], outst := [], repidx := u.idx } x 5 kind
          (BitVec.ofNat 64 a) u.pc u.clock ∧
        (∀ j, j ≠ k → getWarp t j = getWarp s j) ∧ { t with warps := s.warps, cur := s.cur, runs := s.runs } = s) ∧
    (∀ x rest, postedOf w = x :: rest → heldOf w = none →
      (∀ a e, postedFault s z w.sec x = some (a, e) →
        exec (.postedStorePerform k) s = .next (updWarp (reportSecure (walkTouch s z a) p e) k fun v => setHeld v (some (e.kind, a)))) ∧
      (postedFault s z w.sec x = none →
        let lines := (postedLanes s z w.sec x).map fun y => y.2.1.key
        let s0 := serveCore s k lines
        linesWait s0 k lines = false → (∀ a ∈ lines, keyHeld s0 chip a = false) →
        ∀ v, getWarp s0 k = some v →
        let s1 := x.lanes.foldl (fun s l => setDirty (install s z l.1) z l.1) s0
        ∀ keys, x.lanes.mapM (fun l => (translate s1 z v.sec .store l.1 l.2.length).toOption.map fun y => (y.key, l.2)) = some keys →
          (∀ e ∈ keys, homeRefuses s1 chip v.sec e.1 = none) → krising none s0.chips = true →
          ∃ t, exec (.postedStorePerform k) s = .next t ∧ getWarp t k = some (setPosted v rest) ∧
            t.mem = keys.foldl (fun m e => wrBytes m e.1 e.2) s1.mem ∧ t.pubs = s0.pubs ∧ t.groups = s0.groups ∧
            ∀ j, j ≠ k → getWarp t j = getWarp s0 j)) ∧
    (∀ l x r q, flightPends w = l ++ x :: r → (∀ y ∈ l, canServe s k y = false) → canServe s k x = true → x.remote = some q →
      let s1 := sliceTouches s false q.hint (q.srcs.map fun e => forwardKey s e.key)
      let s2 := sendFlits s1 (q.home % 16) (myIndex s1 chip) (q.srcs.map (·.size)).sum fun i => .reply k q.clock i
      let becomes (q' : Remote) : State := updWarp s2 k fun v =>
        let put (y : Pend) : Pend := if y == x then { x with remote := some q' } else y
        { v with pend := v.pend.map put, unconf := v.unconf.map fun u => { u with pend := u.pend.map put } }
      let bad : List Denied := perSector (q.srcs.filterMap fun e => (homeRefuses s chip w.sec (forwardKey s e.key)).map fun kind =>
        { kind := kind, va := e.va, pc := q.pc, key := forwardKey s e.key })
      let found (e : RSrc) (i : Nat) : Byte := (kfind e.own i).getD (rdByte s.mem (forwardKey s e.key + i))
      (bad = [] → exec (.remoteRequest k) s = .next (becomes { q with served := true, srcs := q.srcs.map fun e =>
        { e with val := some (e.val.getD (BitVec.ofNat 64 (leNat ((List.range e.size).map (found e))))) } })) ∧
      (∀ b more, bad = b :: more → exec (.remoteRequest k) s =
        .next (refuseAll (becomes { q with refused := some b.kind }) k bad true q.clock))) ∧
    (∀ l x r q, flightPends w = l ++ x :: r → (∀ y ∈ l, ∀ q, y.remote = some q → q.served = false) → x.remote = some q → q.served = true →
      let bytes (e : RSrc) : Nat := match e.val with
        | some v => v.toNat
        | none => 0
      let s1 := q.srcs.foldl (fun s e => keepReplica s chip (ctxNum s p) e) s
      let late : List Late := match w.late.find? fun e => e.reg == x.regs.headD 0 && !e.late with
        | some e => w.late.erase e ++ [{ e with late := true }]
        | none => w.late
      let y := { x with writes := x.writes ++ q.srcs.flatMap fun e => elemWrites e (bytes e) }
      let put (z : Pend) : Pend := if z == x then { y with remote := none } else z
      (x ∈ w.pend → exec (.remoteReply k) s =
        .next (setWarp s1 k (applyPend { w with pend := w.pend.filter fun y => y != x, late := late } y))) ∧
      (x ∉ w.pend → exec (.remoteReply k) s =
        .next (setWarp s1 k { w with unconf := w.unconf.map fun u => { u with pend := u.pend.map put }, late := late }))) ∧
    (∀ left va ctx d len en, w.stat = .fshoot left va ctx d len en →
      (∀ c, c ∈ left → c < 16 → shootMoving s c ctx va = false → xlatInUse s c (shootHit ctx va) = false →
        c = chip ∨ reaches s chip (myIndex s c) = true →
        let u := shootAt s c ctx va
        let rest := left.filter fun x => x != c
        u.mem = s.mem ∧ u.warps = s.warps ∧ u.pubs = s.pubs ∧
        (rest ≠ [] → exec (.fshootAcknowledgement k c) s =
          .next (updWarp u k fun v => { v with stat := .fshoot rest va ctx d len en })) ∧
        (rest = [] → ∃ t, exec (.fshootAcknowledgement k c) s = .next t ∧
          UpToRun (setWarp u k (advance (wrS { w with stat := .ready } d 0) .next len)) t k)) ∧
      ∃ t, exec (.fshootTimeout k) s = .next t ∧ UpToRun (setWarp s k (advance
        (wrS { w with stat := .ready } d (left.foldl (fun m c => m ||| bitMask (if 16 ≤ c then c - 16 else myIndex s c)) 0)) .next len)) t k)) ∧
  (∀ (s : State) (z : Site) (va : Nat) (t : Tlb), (walkAt s z va).leaf = .ok t → held s z va = none →
    let c := chipOf z.part
    let t' : Tlb := { t with leaf := t.leaf ||| BitVec.ofNat 64 64 }
    let m := if leafA t.leaf then s.mem else wrBytes s.mem t.entry (leBytes 8 (rdEntry s t.entry ||| BitVec.ofNat 64 64).toNat)
    let old := sget [] (getChip s c).dieTlb (siteDie s z)
    let u := install s z va
    u.mem = m ∧ sget [] (getChip u c).dieTlb (siteDie s z) = (old ++ [t']).drop (old.length + 1 - 32768) ∧
    (z.core.isSome = true → l1Held u z va = some t') ∧ u.warps = s.warps ∧ u.pubs = s.pubs ∧
    (z = partSite z.part → exec (.pageWalkCompletion c z.part va) s = .next u)) ∧
  ∀ (s : State) (c page : Nat), exec (.migrationMarker c page) s = .next (if (c, page) ∈ s.markers then
    { s with markers := s.markers.erase (c, page)
             forwards := match s.forwards.find? fun f => f.new == page && f.moving with
               | some f => s.forwards.map fun x => if x = f then { x with moving := false } else x
               | none => s.forwards }
    else s)

/-- R34, R37, R39, R72, R77, R78, R93, R104, R185, R186, R193, R195, R298, R316, R345: the free slots of a core are filled one
after another, each by the ready warp with the lowest stamp, and in free mode by one that has lost 64 times or else by the next
in the round of the warp table (logs 1, 57), and every other ready warp has lost, also where none may win; a warp that waited competes again once its instruction can issue; scores halve; a
halt is honoured at a boundary, between repetitions too; a gate opens when the floor has reached its mark and the beacons prove
it (logs 48, 64); the least turn of a domain or of a group is granted, the end of a card by a fault among them (log 9), after the advances of a ticket word that a publication of a lower stamp has
reached (R223; their place in the order is the model's choice, log 21); a throttled warp is found by a scan of its code (log 96); a group ends with its warps and copies; publications below
the bound, which lies at or below the stamp of every started copy that has still to publish, become memory and leave every image
at or above it as it was (log 33); a card that waits for slots it will not get is doomed (log 23),
and the cards of a domain that is all parked end with cause 0x10, each at the stamp that it has before any of them stops (log 8). -/
def Obligations.SlotsTurnsAndEnds : Prop :=
  (∀ (s : State) (c die core : Nat), (∀ e ∈ s.warps, boundaryStop s c (die * 24 + core) e = false) →
    exec (.runArbitration c die core) s = .next ((List.range 4).foldl (fun s _ => fillSlot s c (die * 24 + core)) s)) ∧
  (∀ (s : State) (c n : Nat),
    (freeSlots s c n = [] → fillSlot s c n = s) ∧
    ∀ q more, freeSlots s c n = q :: more →
      let u := ((s.warps.filter fun e => idleOn s c n e).map fun e => e.1).foldl (refresh q) s
      let co := getCore (getChip u c) n
      let with_ (rr : Nat) (lost : KMap Nat) : State := setChip u c (setCore (getChip u c) n { co with rr := rr, lost := lost })
      let loses (lost : KMap Nat) (won : Option Nat) : Prop :=
        ∀ j, (won ≠ some j → (∃ v, (j, v) ∈ readyWarps u c n) → sget 0 lost j = sget 0 co.lost j + 1) ∧
          (won = some j ∨ (∀ v, (j, v) ∉ readyWarps u c n) → sget 0 lost j = 0)
      (winner u c n = none → ∃ lost, fillSlot s c n = with_ co.rr lost ∧ loses lost none) ∧
      ∀ k v, winner u c n = some k → getWarp u k = some v → ∃ t lost, fillSlot s c n = t ∧ loses lost (some k) ∧
        t.chips = (with_ v.entry lost).chips ∧ t.cur = u.cur.or (some k) ∧ t.runs = u.runs ++ [k] ∧
        t.warps = (updWarp u k fun v => { v with slot := some q, runLen := 0 }).warps ∧
        { t with cur := u.cur, runs := u.runs, warps := u.warps, chips := u.chips } = u) ∧
  (∀ (s : State) (c n q : Nat), q ∈ freeSlots s c n ↔ q < 4 ∧ ∀ e ∈ s.warps, e.2.slot = some q → warpCore s e.1 ≠ some (c, n)) ∧
  (∀ (s : State) (k q : Nat) (w : Warp), getWarp s k = some w →
    let t := tried s k w q
    (waiting t k = true → refresh q s k = { t with cur := s.cur }) ∧
    (waiting t k = false → w.stat = .stalled → refresh q s k = setWarp s k { w with stat := .ready })) ∧
  (∀ (s : State) (c n k : Nat) (w : Warp),
    let ws := readyWarps s c n
    let co := getCore (getChip s c) n
    let turn (e : Nat × Warp) : Nat := (e.2.entry + 47 - co.rr) % 48
    (k, w) ∈ ws →
    (w.turn = true → (∀ e ∈ ws, e.2.turn = true → e ≠ (k, w) → stampLt (stampOf k w) (stampOf e.1 e.2) = true) →
      winner s c n = some k) ∧
    ((∀ e ∈ ws, e.2.turn = false) → 64 ≤ sget 0 co.lost k →
      (∀ e ∈ ws, e ≠ (k, w) → 64 ≤ sget 0 co.lost e.1 → turn (k, w) < turn e) → winner s c n = some k) ∧
    ((∀ e ∈ ws, e.2.turn = false ∧ sget 0 co.lost e.1 < 64) →
      (barred s c n (groupKey k) = false ∨ throttledAhead s (siteOf s k) w.sec 24 (curPc w) = false) →
      (∀ e ∈ ws, e ≠ (k, w) → (barred s c n (groupKey e.1) = false ∨
        throttledAhead s (siteOf s e.1) e.2.sec 24 (curPc e.2) = false) → turn (k, w) < turn e) →
      winner s c n = some k)) ∧
  (∀ (s : State) (c die core : Nat),
    let n := die * 24 + core
    let co := getCore (getChip s c) n
    krising none co.scores = true → ∃ sc, exec (.localityScoreHalving c die core) s =
      .next (setChip s c (setCore (getChip s c) n { co with scores := sc })) ∧ ∀ g, sget 0 sc g = sget 0 co.scores g / 2) ∧
  (∀ (s : State) (k : Nat) (w : Warp), getWarp s k = some w →
    (isLive w = true → w.halted = false →
      let boundary : Bool := (w.slot == none || w.rep.isSome && decide (1 ≤ w.repidx)) && (!w.sys || w.pending)
      (boundary = true → ∃ t, exec (.debuggerHalt k) s = .next t ∧
        t.warps = (updWarp s k fun v => { v with halted := true, haltReq := false, slot := none, runLen := 0 }).warps ∧
        t.runs = s.runs.filter (fun x => x != k) ∧ t.cur = (if s.cur = some k then none else s.cur) ∧
        { t with warps := s.warps, runs := s.runs, cur := s.cur } = s) ∧
      (boundary = false → exec (.debuggerHalt k) s = .next (updWarp s k fun v => { v with haltReq := true }))) ∧
    (w.halted = true → (∀ e ∈ s.warps, e.2.preReq = false) →
      exec (.debuggerResume k) s = .next (updWarp s k fun v => { v with halted := false })) ∧
    (∀ a m, w.stat = .gate a m → mayIssue s k w = true →
      exec (.roundGateOpen k) s = .next (if floorGe s (domOf s (partOf k)) m ∧ copiesStaged s (domOf s (partOf k)) m ∧
          beaconsProve s (chipOf (partOf k)) (domOf s (partOf k)) (m, 0)
        then updWarp s k fun v => { v with stat := .ready } else s))) ∧
  (∀ (s : State) (p : Nat),
    let d := domOf s p
    let ends (e : Nat × Card) : Bool :=
      inDom s d (partOf e.1) && e.2.stop.isNone && allEnded e.2 && !e.2.endTurn &&
        leastInDom s (chipOf (partOf e.1)) d none (endStamp e.2)
    (∀ ck t key, leastTouched s d = some (ck, t, key) → exec (.domainTurnGrant p) s = .next (tktTouched s ck t key)) ∧
    (leastTouched s d = none → ∀ l e r, s.cards = l ++ e :: r → (∀ x ∈ l, ends x = false) → ends e = true →
      exec (.domainTurnGrant p) s = .next (cardEndTurn s e.1)) ∧
    (leastTouched s d = none → (∀ x ∈ s.cards, ends x = false) → leastDoomed s d = none → leastDue s d = none →
      ∀ l k w r, s.warps = l ++ (k, w) :: r → (∀ x ∈ l, leastWarp s d x = false) → leastWarp s d (k, w) = true →
        exec (.domainTurnGrant p) s = .next (match w.stat with
          | .dying cause kind c =>
            let stopped := stopCard s (cardKey k) (c, identOf k) cause kind 2
            sweepCard (stopWarp stopped k ((c / w.quantum + 1) * w.quantum) (c, identOf k)) (cardKey k)
          | _ => updWarp s k fun v => { v with stat := .ready }))) ∧
  (∀ (s : State) (g : Nat) (l : List (Nat × Warp)) (k : Nat) (w : Warp) (r : List (Nat × Warp)),
    let waits (e : Nat × Warp) : Bool := groupKey e.1 == g && e.2.stat == .turnWait && mayIssue s e.1 e.2 &&
      nextTurn s e.1 e.2 == .group && leastInGroup s e.1 (stampOf e.1 e.2)
    s.warps = l ++ (k, w) :: r → (∀ e ∈ l, waits e = false) → waits (k, w) = true →
    exec (.groupTurnGrant g) s = .next (updWarp s k fun v => { v with stat := .ready })) ∧
  (∀ (s : State) (g : Nat) (x : Group) (c : Card), krising none s.groups = true →
    kfind s.groups g = some x → kfind s.cards (cardKey g) = some c →
    groupDead s g = true → copiesBusy x = false → c.stop = none → (∃ e ∈ s.warps, groupKey e.1 = g ∧ e.2.turn = true) →
    c.ended.length + 1 < c.shape.groups →
    ∃ t, exec (.groupEnd g) s = .next t ∧ kfind t.groups g = none ∧ (∀ e ∈ t.warps, groupKey e.1 ≠ g) ∧
      t.mem = s.mem ∧ t.pubs = s.pubs) ∧
  (∀ (s : State) (p : Nat), ∃ t, exec (.publicationMerge p) s = .next t ∧ { t with mem := s.mem, pubs := s.pubs } = s ∧
    (∀ x, x ∈ t.pubs ↔ x ∈ s.pubs ∧ (x.dom = domOf s p → ∃ m, mergeBound s (domOf s p) = some m ∧ stampLt x.stamp (m, 0) = false)) ∧
    (∀ e ∈ s.groups, inDom s (domOf s p) (partOf e.1) = true → ∀ b ∈ e.2.bufs, ∀ c, b.2.copy = some c → c.mw ≠ [] →
      ∃ m, mergeBound s (domOf s p) = some m ∧ m ≤ c.stamp.1) ∧
    ∀ m u, mergeBound s (domOf s p) = some m → stampLt u (m, 0) = false →
      s.pubs.Pairwise (fun a b => pubBefore b a = false) → image t (domOf s p) u = image s (domOf s p) u) ∧
  (∀ (s : State) (ck : Nat) (c : Card) (x : Ctx), kfind s.cards ck = some c → (getPart s (partOf ck)).ctx = some x →
    let d := domOf s (partOf ck)
    exec (.saveAreaExhausted ck) s = .next (if x.turn = true ∧ c.stop = none ∧ c.doomed = none ∧ c.next < c.shape.groups ∧
        c.slots ≤ openGroups s ck ∧ noneCanGo s d = true ∧
        leastInDom s (chipOf (partOf ck)) d none (c.origin, identOf ck + c.next * 2 ^ 8) = true
      then setCard s ck { c with next := c.shape.groups, doomed := some ((c.origin / c.shape.quantum + 1) * c.shape.quantum) }
      else s)) ∧
  (∀ (s : State) (p : Nat) (x : Ctx), (getPart s p).ctx = some x → x.turn = true →
    exec (.allParked p) s = .next (if allParked s (domOf s p) = true then
      let l := parkedCards s (domOf s p)
      let u := l.foldl (fun s e => setStop s e.2 { stamp := e.1, cause := 0x10, kind := 0, status := 2 }) s
      let v := l.foldl (fun s e => (s.warps.filter fun w => cardKey w.1 == e.2 && isParked w.2).foldl
        (fun s w => stopWarp s w.1 ((e.1.1 / w.2.quantum + 1) * w.2.quantum) e.1) s) u
      l.foldl (fun s e => finishStop s e.2) v
      else s)) ∧
  ∀ (s : State) (d ck : Nat) (t : Stamp), (t, ck) ∈ parkedCards s d →
    (∃ c, (ck, c) ∈ s.cards) ∧ inDom s d (partOf ck) = true ∧
    ∃ k w, (k, w) ∈ s.warps ∧ cardKey k = ck ∧ isLive w = true ∧ isParked w = true ∧ (t = (w.clock, identOf k) ∨ t = (0, 0)) ∧
      ∀ j v, (j, v) ∈ s.warps → cardKey j = ck → isLive v = true → isParked v = true → stampLt t (v.clock, identOf j) = false

/-- R281, R282, R285 to R294, R306, R309, R311 to R313, R323, R353, R357 to R359, R362, R378: bytes of a mailbox window are kept
until the entry at the cursor is whole, which is then recognised under the next number, or dropped by a full mailbox, which
closes. Of the oldest entries whose bases are known the dealer admits the one of lowest key, in free mode of
those that would not wait (logs 18, 19, 25, 79): one that a check refuses completes
with status 1 and its code, a seed entry at once, a card gets its serial (log 7), its key, its origin and in free mode its slot, a fence or
save point waits for its mark, and a close entry closes its mailbox. A finished card's record is written and the card forgotten
(logs 51, 54, 76); of the created cards that can be taken, the one of least origin, in free mode the first to have come, becomes a
card, or its handle breaks (log 55). A header shows what had performed below the entry's base or the card's origin (log 10), and its
read, which installs no translation (log 105), reaches the slices or is reported; a refused card's record shows its base (log 102) and a
type of 16 or above its low bits (log 103). A created card's seed counts before the seed entries of a base at or above its origin (log
108), and an admission-record write is stamped with its entry's base (log 109): both are the model's choices. -/
def Obligations.DealerAdmitsAndCompletes : Prop :=
  ∀ (s : State) (p b : Nat) (x : Ctx), (getPart s p).ctx = some x → b < 256 →
    (∀ off bytes, ¬((getPart s p).cmd.busy = true ∧ (getPart s p).cmd.op = 7) →
      let m := getMbox s p b
      let ring := bytes.zipIdx.foldl (fun r e => if off + e.2 < 4096 then kinsert r (off + e.2) e.1 else r) m.ring
      let s1 := setMbox s p b { m with ring := ring }
      let m1 := getMbox s1 p b
      (chunkBytes m1 1 = none → exec (.mailboxWindowWrite p b off bytes) s = .next s1) ∧
      ∀ b0, chunkBytes m1 1 = some b0 →
        let mask := leNat (b0.take 2)
        let chunks := (2 + (((List.range 16).filter fun i => mask.testBit i).map fun i => fieldSizes.getD i 0).sum + 15) / 16
        (chunkBytes m1 chunks = none → exec (.mailboxWindowWrite p b off bytes) s = .next s1) ∧
        ∀ bs, chunkBytes m1 chunks = some bs →
          let fs := readFields bs mask fieldSizes.zipIdx 2 m1.prev
          let ds := (List.range 4).map fun i => readDep s1 p b (m1.count + 1) (getField fs 8 / 2 ^ (32 * i) % 2 ^ 32)
          let e : Entry := { n := m1.count + 1, fields := fs, deps := ds.filterMap fun d => d.join, badDep := ds.any fun d => d.isNone }
          let m2 : Mbox := { m1 with
            count := m1.count + 1, prev := fs, cursor := (m1.cursor + chunks) % 256
            ring := (List.range (16 * chunks)).foldl (fun r i => kerase r ((m1.cursor * 16 + i) % 4096)) m1.ring }
          let s2 := setMbox s1 p b
            (if m1.fifo.length < 512 then { m2 with fifo := m1.fifo ++ [e] }
             else if m1.closed then { m2 with ovf := true } else { m2 with ovf := true, closed := true, closedAt := m1.count })
          chunkBytes (getMbox s2 p b) 1 = none → exec (.mailboxWindowWrite p b off bytes) s = .next s2) ∧
    (∀ base e ok, lowestHead s p ok = some (b, base, e) → boxHead s p b = some (base, e) ∧ ok b e = true ∧
      ∀ y ∈ (getPart s p).mboxes, ∀ c z, boxHead s p y.1 = some (c, z) → ok y.1 z = true →
        ¬ keyOf s p y.1 c z.n < keyOf s p b base e.n) ∧
    (∀ base e, let s0 := reapCards s (domOf s p)
      (getPart s p).save.differs = none → lowestHead s0 p (goesNow s0 p x) = some (b, base, e) → (x.turn = true → mayAdmit s0 p b base e = true) →
      let noted := noteDealt s0 p base
      let m := getMbox noted p b
      let image := BitVec.ofNat 64 (getField e.fields 1)
      let seen := headerSeen noted p image
      let typ := getField e.fields 0
      let fin (s : State) (status code : Nat) : State :=
        let s := admitRecord (popFifo s p b) p base base typ b e.n status code 0 false
        setDone (doneRecord s p b e.n (getField e.fields 15) status code 0 base base 0) p b e.n base base
      { seen with chips := s0.chips } = noted ∧ ({ noted with parts := s0.parts } = s0 ∧
        ∀ q, { getPart noted q with hist := [] } = { getPart s0 q with hist := [] }) ∧
      (∀ c, checkEntry noted p base m e = .error c → exec (.admission p) s =
        .next (fin (if c = 4 ∨ c = 5 then noted else seen) 1 c)) ∧
      (checkEntry noted p base m e = .ok none → typ ∈ [4, 5, 6] →
        let settled : State := if x.turn = true then { noted with created := noted.created.map fun c =>
            if c.target = p ∧ c.origin ≤ base ∧ c.seed = none then { c with seed := some (seedNow noted p) } else c } else noted
        exec (.admission p) s = .next (fin (seedEntry settled p typ (BitVec.ofNat 64 (getField e.fields 9))) 0 0)) ∧
      (checkEntry noted p base m e = .ok none → typ = 7 →
        let u := fin noted 0 0
        exec (.admission p) s = .next (setMbox u p b (if (getMbox u p b).closed then getMbox u p b
          else { getMbox u p b with closed := true, closedAt := (getMbox u p b).count }))) ∧
      (checkEntry noted p base m e = .ok none → typ ∈ [2, 3] →
        let u := popFifo noted p b
        exec (.admission p) s = .next (admitRecord (setMbox u p b { getMbox u p b with
          cur := some { n := e.n, typ := typ, base := base, card := none, doneAddr := getField e.fields 15, mark := none } })
          p base base typ b e.n 0 0 0 false)) ∧
      (∀ sh entry, checkEntry noted p base m e = .ok (some (sh, entry)) → poolRoom seen p sh = true →
        let serial := (getPart s0 p).nMail % 0x8000
        let ck := p * 2 ^ 52 + myIndex seen (chipOf p) * 2 ^ 48 + serial * 2 ^ 32
        let seed := seedNow seen p
        let card : Card := { newCard sh entry (BitVec.ofNat 64 (getField e.fields 2)) with
          batch := typ == 1, stride := getField e.fields 4, areaAt := (poolGap seen p sh).getD 0
          origin := ceilMark sh.quantum base, base := base, mbox := b
          seq := seqOf e.n, admAt := (getPart s0 p).admPos, prio := getField e.fields 7 % 16, seed := seed
          digest := if getField e.fields 10 / 2 % 2 = 1 then seed else 0, doneAddr := getField e.fields 15 }
        kfind s0.cards ck = none → ck % 2 ^ 32 = 0 →
        (x.turn = true → ∃ t c, exec (.admission p) s = .next t ∧ kfind t.cards ck = some c ∧
          { c with handle := 0, blocked := false, origin := ceilMark sh.quantum base } = card) ∧
        ∀ i, x.turn = false → pickSlot seen p serial false (0, 0) = some i →
          let taken := takeSlot seen p serial i (some ck)
          ∃ t, exec (.admission p) s = .next t ∧ t.slots = taken.1.slots ∧ kfind t.cards ck = some { card with handle := taken.2 })) ∧
    (∀ c, (getMbox s p b).cur = some c →
      (c.typ = 2 ∨ c.typ = 3 → c.mark = none → fenceReady s p b x.turn c = true →
        let m := getMbox s p b
        let k := fenceMark s p b c
        let u := setMbox s p b { m with
          clock := k, cur := some { c with mark := some k }, done := kinsert m.done c.n (c.base, k)
          ends := (if (getPart s p).save.reqs = [] then [] else m.ends) ++ [(k - 1, m.clock)] }
        exec (.fenceCompletion p b) s = .next (if c.typ = 3 then requestSave u p x.turn k false (some (b, c.n)) else u)) ∧
      (∀ ck y, c.card = some ck → kfind s.cards ck = some y → cardFinished s ck = true →
        let why : Nat × Nat × Nat := match y.stop with
          | none => (0, 0, 0)
          | some z => (z.status, z.cause, z.kind)
        let u := doneRecord s p b c.n c.doneAddr why.1 why.2.1 why.2.2 y.origin y.mark (if chainOn s p then y.digest.toNat else 0)
        let u := cascade u p (y.mark, 0) [.drop y.handle]
        exec (.completionRecord p b) s = .next (setDone (forgetCard u ck) p b c.n c.base y.mark)) ∧
      (∀ k, c.card = none → c.mark = some k → c.typ = 2 → (x.turn = true → floorGe s (domOf s p) k = true) →
        let hash := leNat ((if x.turn then hashAt (getMbox s p b) k else (getMbox s p b).hash).take 8)
        exec (.completionRecord p b) s =
          .next (setDone (doneRecord s p b c.n c.doneAddr 0 0 0 c.base k hash) p b c.n c.base k))) ∧
    (nextArrival s p x = none → exec (.invocationArrival p) s = .next s) ∧
    (∀ c, nextArrival s p x = some c →
      (c ∈ s.created ∧ canArrive s p x c = true ∧
        (x.turn = true → ∀ y ∈ s.created, canArrive s p x y = true → c.origin ≤ y.origin) ∧
        ∀ l r, s.created = l ++ c :: r → c ∉ l → ∀ y ∈ l, canArrive s p x y = true → x.turn = true ∧ c.origin < y.origin) ∧
      let rest := s.created.erase c
      (∀ code, checkCard s p c.origin c.image [] false = .error code →
        exec (.invocationArrival p) s = .next (cascade
          (headerSeen { s with created := rest } p c.image) p (c.origin, c.ident)
          (.brk c.handle (BitVec.ofNat 64 (3 * 2 ^ 60 + code)) true :: c.held.map .drop))) ∧
      (∀ sh entry, checkCard s p c.origin c.image [] false = .ok (sh, entry) → findSlot s p c.handle = none →
        exec (.invocationArrival p) s = .next (setCard (headerSeen { s with created := rest } p c.image) (p * 2 ^ 52 + c.ident)
          { newCard sh entry c.arg with
            areaAt := (poolGap s p sh).getD 0, origin := c.origin, mbox := c.mbox, prio := c.prio, created := true, handle := c.handle
            via := c.via.map fun h => (h, c.stamp), seed := c.seed.getD (seedNow s p)
            maker := if c.maker = (p, c.mbox) then none else some c.maker
            held := c.held.foldl (fun m h => kinsert m h.toNat ((kfind m h.toNat).getD 0 + 1)) [] })) ∧
      (∀ sh entry key y, checkCard s p c.origin c.image [] false = .ok (sh, entry) →
        findSlot s p c.handle = some (key, y) →
        ∃ t, exec (.invocationArrival p) s = .next t ∧ t.created = rest ∧
          t.slots = sput Slot.fresh s.slots key { y with card := some (p * 2 ^ 52 + c.ident) } ∧
          t.warps = s.warps ∧ t.mem = s.mem ∧ t.pubs = s.pubs))

/-- R24, R28, R33, R93, R103, R204, R295, R299 to R302: the dealer saves the groups that were asked for and can be saved, then
places the first ready work that has room: a saved group goes on where it stood (logs 10, 57, 77), and a card's next group starts.
A placement, a pre-emption by priority or for the group that holds the floor, one after a wait, and one that system software asks
for each complete in every state: the groups of the named cores are asked to be saved, those that R103 admits are saved at once,
and as much waiting work is placed as cores are vacated (logs 56, 57). A saved group's warps keep their registers, and their clocks and hands
as the draining of their posted stores leaves them; the bytes of its slot in the card's save area are free values (R296, R297;
log 77), none where the partition may not reach, and a secure byte is reported instead (R369, R377). -/
def Obligations.GroupsArePlacedAndSaved : Prop :=
  (∀ (s : State) (p : Nat),
    let u := honourPre (settleTurn s p) (chipOf p)
    (readyWork u p = [] → exec (.groupPlacement p) s = .next u) ∧
    ((∀ a ∈ readyWork u p, workCore u p a = none) → exec (.groupPlacement p) s = .next u) ∧
    ∀ l a r n, readyWork u p = l ++ a :: r → (∀ y ∈ l, workCore u p y = none) → workCore u p a = some n →
      exec (.groupPlacement p) s = .next (placeOn u p a n)) ∧
  (∀ (s : State) (p n : Nat),
    let c := chipOf p
    let cleared (s : State) : State := setChip s c (setCore (getChip s c) n { getCore (getChip s c) n with icache := [] })
    let fresh (q : Nat) (s : State) : State := if (getPart s q).ctx.any (fun x => !x.turn) = true then
      setChip s c (setCore (getChip s c) n { getCore (getChip s c) n with l1 := [] }) else s
    let entries := (List.range 48).filter fun i => s.warps.all fun e => warpCore s e.1 != some (c, n) || e.2.entry != i
    (∀ g, placeOn s p (.saved g) n =
      (((s.warps.filter fun e => groupKey e.1 == g).map fun e => e.1).zipIdx.foldl
        (fun s e => updWarp s e.1 fun v => { v with entry := entries.getD e.2 0, late := [] })
        (fresh (partOf g) (cleared (updGroup s g fun y => { y with core := some n, saved := false }))))) ∧
    ∀ ck card x, kfind s.cards ck = some card → (getPart s p).ctx = some x → placeOn s p (.fresh ck) n = startGroup s ck card x n) ∧
  (∀ (s : State) (g : Nat) (x : Group) (n : Nat), kfind s.groups g = some x → groupKey g = g → x.core = some n →
    s.warps.Pairwise (fun a b => a.1 ≠ b.1) → groupSavable s (g, x) = true →
    (∀ e ∈ s.warps, groupKey e.1 = g → e.2.pend = [] ∧ e.2.unconf = [] ∧ e.2.posted = [] ∧ e.2.hposted = []) →
    let co := getCore (getChip s x.chip) n
    ∃ t, saveGroup s g = writeSlot t g x ∧ kfind t.groups g = some { x with core := none, saved := true, ask := none } ∧
      t.mem = s.mem ∧ t.pubs = s.pubs ∧ t.cards = s.cards ∧ t.runs = s.runs.filter (fun k => groupKey k != g ||
        s.warps.all fun e => e.1 != k || !isLive e.2) ∧
      t.chips = (setChip s x.chip (setCore (getChip s x.chip) n { co with
        accHolder := if co.accHolder = some g then none else co.accHolder, scores := kerase co.scores g })).chips ∧
      (∀ k w, (k, w) ∈ s.warps → groupKey k = g → isLive w = true →
        (k, { w with preReq := false, slot := none, runLen := 0, late := [] }) ∈ t.warps) ∧
      ∀ k, (groupKey k ≠ g → getWarp t k = getWarp s k)) ∧
  (∀ (s : State) (g : Nat) (x : Group) (cx : Ctx) (card : Card), (getPart s (partOf g)).ctx = some cx → getCard s g = some card →
    s.mem.wf = true →
    let p := partOf g
    let pa := cx.pool + card.areaAt + x.slotAt * slotBytes card.shape
    let n := slotBytes card.shape
    let key := physKey (chipOf p) pa
    let t := writeSlot s g x
    (mayReach s p pa = true → mayReach s p (pa + n - 1) = true → closedByte s p pa n = none →
      (∀ a, rdByte t.mem a = if key ≤ a ∧ a < key + n then Config.freeSaved s.freeCtr (a - key) else rdByte s.mem a) ∧
      t.freeCtr = s.freeCtr + 1 ∧ { t with mem := s.mem, freeCtr := s.freeCtr, chips := s.chips } = s) ∧
    (mayReach s p pa = false ∨ mayReach s p (pa + n - 1) = false → t = s) ∧
    (mayReach s p pa = true → mayReach s p (pa + n - 1) = true → ∀ a, closedByte s p pa n = some a → t = reportAt s (chipOf p) a)) ∧
  (∀ (s : State) (c : Nat), honourPre s c =
    (s.groups.filter fun e => e.2.chip == c && preAsked s e.1 && groupSavable s e).foldl (fun s e => saveGroup s e.1) s) ∧
  (∀ (s : State) (c : Nat) (ns : List Nat) (a : Ask),
    let asked := askCores s c ns a
    (∀ e, e ∈ asked.warps → ∃ v, (e.1, v) ∈ s.warps ∧ (e.2 = v ∨
      e.2 = { v with preReq := true } ∧ isLive v = true ∧ ∃ n ∈ ns, ∃ g, (groupKey e.1, g) ∈ s.groups ∧ g.chip = c ∧ g.core = some n)) ∧
    ∀ k v n g, (k, v) ∈ s.warps → isLive v = true → n ∈ ns → (groupKey k, g) ∈ s.groups → g.chip = c → g.core = some n →
      (k, { v with preReq := true }) ∈ asked.warps) ∧
  (∀ (s : State) (c : Nat) (ns : List Nat),
    let free := ns.filter fun n => (onCore s c n).all fun e => !preAsked s e.1
    exec (.systemPreemptionRequest c ns) s = .next ((List.range 8).foldl (fun s i =>
      (free.filter fun n => (coresOf s (c * 8 + i)).contains n).foldl (fun s _ => placeNext s (c * 8 + i)) s)
      (honourPre (askCores s c free .system) c))) ∧
  (∀ (s : State) (c : Nat) (ns : List Nat),
    ((∀ i, i < 8 → ∀ a w, spatialCores s (c * 8 + i) ≠ some (ns, a, w)) → exec (.spatialPreemption c ns) s = .next s) ∧
    ∀ i a w, i < 8 → (∀ j, j < i → ∀ b v, spatialCores s (c * 8 + j) ≠ some (ns, b, v)) →
      spatialCores s (c * 8 + i) = some (ns, a, w) →
      let p := c * 8 + i
      let u := honourPre (askCores s c ns a) c
      (w = none → exec (.spatialPreemption c ns) s = .next (ns.foldl (fun s _ => placeNext s p) u)) ∧
      (∀ g n, w = some (.saved g) → ns = [n] →
        exec (.spatialPreemption c ns) s = .next (if onCore u c n = [] then placeOn u p (.saved g) n else u)) ∧
      ∀ ck n, w = some (.fresh ck) → ns = [n] →
        let v := updCard u ck fun x => { x with chunkCore := if x.chunkCore.isSome then some n else none }
        exec (.spatialPreemption c ns) s = .next (if onCore v c n = [] then placeOn v p (.fresh ck) n else v)) ∧
  ∀ (s : State) (ck : Nat),
    let ns := waitCores s ck
    let p := partOf ck
    (ns = [] → exec (.preemptionWaitExpiry ck) s = .next s) ∧
    (ns ≠ [] → exec (.preemptionWaitExpiry ck) s =
      .next (ns.foldl (fun s _ => placeNext s p) (honourPre (askCores s (chipOf p) ns (.wait ck)) (chipOf p))))

/-- R287, R330 to R334, R344, R345, R373: a flit in sequence is delivered once, to its chip or by a relay to its peer; one that is
bad or early asks for replay from the first missing flit, and a duplicate changes nothing (log 86). An acknowledgement frees the
replay buffer, a replay request sends it again from the flit named, and a flit is kept until it is acknowledged. The sixteenth
replay of one flit in a row, or a lost lane, takes the port down, and the chip's own unacknowledged flits go over a ready detour in
their order; recovery brings them back to the direct port, and what waits on other ports that are down takes a detour that has
become usable. A detour serves only where the direct port is down: it was up, or it has
not trained within 10 ms. Training and recovery need both ports; until then flits wait (log 64). A beacon goes to every peer that the chip reaches and
carries the bounds of its stamps and bases, the newest of each peer is kept (log 64), and a silent peer ends every resident card of
the domain with cause 0x15, at the greatest stamp of its live warps, all of which stop at once: that stamp is the model's choice (log 43). -/
def Obligations.LinksDeliverAndFailOver : Prop :=
  ∀ (s : State) (c q : Nat),
    let ch := getChip s c
    let x := getPort ch q
    let me := ch.index.toNat
    let portAt (s : State) (c r : Nat) (y : Port) : State :=
      setChip s c { getChip s c with ports := sput Port.reset (getChip s c).ports r y }
    let port (s : State) (r : Nat) (y : Port) : State := portAt s c r y
    let shiftAt (s : State) (c r : Nat) (hit : Flit → Bool) : State :=
      let send (s : State) (f : Flit) : State := putFlit s c (portTo s c f.dest) f.toPacket
      let y := getPort (getChip s c) r
      let first := rxNext s c r
      let stay := y.buffer.filter fun f => !hit f
      let new := stay.filter fun f => decide (first ≤ f.seq)
      let rest := (stay.filter fun f => decide (f.seq < first)) ++ new.zipIdx.map fun e => { e.1 with seq := first + e.2 }
      (y.buffer.filter hit).foldl send
        (portAt s c r { y with txSeq := first + new.length, buffer := rest, wire := if y.up then rest.take 512 else [], replays := [] })
    let shift (s : State) (r : Nat) (hit : Flit → Bool) : State := shiftAt s c r hit
    let down : State :=
      let u := port s q { x with up := false, replays := [], wire := [] }
      if (getPort (getChip u c) q).up = true then u
      else shift u q fun f => f.src == (getChip u c).index.toNat && detours u c f.dest
    let back : State :=
      if ch.fxEn = false ∨ x.up = true then s
      else
        let u := port s q { x with up := true, trained := true, timedOut := false, replays := [], wire := x.buffer.take 512 }
        let v := match portPeer ch q with
          | none => u
          | some i => ch.ports.foldl (fun s e => if e.1 = q then s else shiftAt s c e.1 fun f => f.src == me && f.dest == i) u
        (islandChips v).foldl (fun s d => (getChip s d).ports.foldl (fun s e => if (getPort (getChip s d) e.1).up = true then s
          else shiftAt s d e.1 fun f => f.src == (getChip s d).index.toNat && detours s d f.dest) s) v
    let joined : Prop := q < 15 ∧ ∃ d r, otherEnd s c q = some (d, r) ∧ otherEnd s d r = some (c, q)
    (∀ f crcOk,
      let s1 := match otherEnd s c q with
        | some (d, r) => setChip s d { getChip s d with
            ports := sput Port.reset (getChip s d).ports r { getPort (getChip s d) r with wire := (getPort (getChip s d) r).wire.erase f } }
        | none => s
      let y := getPort (getChip s1 c) q
      let s2 := port s1 q { y with rxSeq := f.seq + 1, replayFrom := none }
      (crcOk = false ∨ y.rxSeq < f.seq → exec (.flitReceive c q f.seq crcOk f.toPacket) s = .next (port s1 q { y with replayFrom := some y.rxSeq })) ∧
      (crcOk = true → f.seq < y.rxSeq → exec (.flitReceive c q f.seq crcOk f.toPacket) s = .next s1) ∧
      (crcOk = true → f.seq = y.rxSeq →
        (∀ b, f.dest = (getChip s2 c).index.toNat → f.payload = .beacon b →
          exec (.flitReceive c q f.seq crcOk f.toPacket) s = exec (.beaconReceive c b) s2) ∧
        ((∀ b, f.payload ≠ .beacon b) → f.dest = (getChip s2 c).index.toNat →
          let z := getPort (getChip s2 c) q
          let seen : Bool := (getChip s2 c).ports.any fun e => e.2.got.any fun g => g.src == f.src && g.tag == f.tag
          exec (.flitReceive c q f.seq crcOk f.toPacket) s = .next (if seen then s2 else port s2 q { z with got := z.got ++ [f] })) ∧
        (f.dest ≠ (getChip s2 c).index.toNat →
          exec (.flitReceive c q f.seq crcOk f.toPacket) s =
            .next (putFlit s2 c (getPeer (getChip s2 c) f.dest).port.toNat f.toPacket)))) ∧
    (∀ r (pk : Packet),
      let y := getPort ch r
      let f : Flit := { pk with seq := y.txSeq }
      putFlit s c r pk = port s r { y with
        txSeq := y.txSeq + 1, buffer := y.buffer ++ [f]
        wire := if y.up = true ∧ y.buffer.length < 512 then y.wire ++ [f] else y.wire }) ∧
    (∀ dest pl, sendFlit s c dest pl = putFlit (setChip s c { ch with sent := ch.sent + 1 }) c (portTo s c dest)
      { dest := dest, src := me, tag := ch.sent, payload := pl }) ∧
    (∀ i,
      let y := getPort ch (getPeer ch i).port.toNat
      let down := y.up = false ∧ (y.trained = true ∨ y.timedOut = true)
      (directUp s c i = true ↔ ch.fxEn = true ∧ y.up = true) ∧
      (reaches s c i = true ↔ directUp s c i = true ∨ detours s c i = true) ∧
      (detours s c i = true ↔ ch.fxEn = true ∧ i ≠ me ∧ i ≤ ch.isize.toNat ∧ down ∧ (getPeer ch i).rv = true ∧
        directUp s c (getPeer ch i).relay.toNat = true ∧
        ∃ d, chipOfIndex s (getPeer ch i).relay.toNat = some d ∧ directUp s d i = true) ∧
      let isDown (d j : Nat) : Prop := let z := getPort (getChip s d) (getPeer (getChip s d) j).port.toNat
        z.up = false ∧ (z.trained = true ∨ z.timedOut = true)
      (unreachable s c i = true ↔ ch.fxEn = false ∨ (down ∧ ((getPeer ch i).rv = false ∨ isDown c (getPeer ch i).relay.toNat ∨
        ∀ d, chipOfIndex s (getPeer ch i).relay.toNat = some d → isDown d i))) ∧
      portTo s c i = (getPeer ch (if detours s c i then (getPeer ch i).relay.toNat else i)).port.toNat) ∧
    (∀ b, exec (.beaconReceive c b) s = .next (if (match kfind ch.beacons b.peer with | some y => y.seq | none => 0) < b.seq
      then setChip s c { ch with beacons := kinsert ch.beacons b.peer b } else s)) ∧
    (∀ seq, let rest := x.buffer.filter fun f => decide (seq < f.seq)
      let freed := x.buffer.length - rest.length
      exec (.flitAcknowledgement c q seq) s = .next (port s q { x with
        buffer := rest
        wire := (x.wire.filter fun f => decide (seq < f.seq)) ++
          (if x.up then (rest.take 512).drop (min 512 x.buffer.length - freed) else [])
        replays := x.replays.filter fun e => decide (seq < e.1) })) ∧
    (∀ seq, exec (.replayRequest c q seq) s = .next (port s q (if ∃ f ∈ x.buffer, f.seq = seq
      then
        let again := (x.buffer.take 512).filter fun f => decide (seq ≤ f.seq)
        { x with replays := again.foldl (fun m f => kinsert m f.seq ((kfind m f.seq).getD 0 + 1)) x.replays, wire := if x.up then again else [] }
      else x))) ∧
    exec (.replayLimitReached c q) s = .next (if ∃ e ∈ x.replays, 16 ≤ e.2 then down else s) ∧
    exec (.laneLockLoss c q) s = .next down ∧
    (joined → x.trained = true → exec (.portUp c q) s = .next back) ∧ (joined → exec (.linkTrainingComplete c q) s = .next back) ∧
    (¬joined → exec (.portUp c q) s = .next s ∧ exec (.linkTrainingComplete c q) s = .next s) ∧
    (x.trained = false → exec (.portUp c q) s = .next s) ∧
    (let u := port s q { x with timedOut := true }
      let v := if (getPort (getChip u c) q).up = true then u
        else shift u q fun f => f.src == (getChip u c).index.toNat && detours u c f.dest
      exec (.linkTrainingTimeout c q) s = .next (if ch.fxEn = true ∧ x.trained = false then v else s)) ∧
    (let b : Beacon :=
        { peer := me, seq := ch.beaconSeq + 1
          bounds := (List.range 8).filterMap fun d => (chipBound s c d).map fun t => (d, t)
          abounds := (List.range 8).filterMap fun d => (baseBound s c d).map fun y => (d, y) }
      let u := ((List.range (ch.isize.toNat + 1)).filter fun i => i != me && reaches s c i).foldl
        (fun s i => sendFlit s c i (.beacon b)) (setChip s c { ch with beaconSeq := ch.beaconSeq + 1 })
      exec (.beaconSend c) s = .next (if ch.fxEn = false then s else u)) ∧
    ∀ i,
      let quiet : List Nat := match chipOfIndex s i with
        | some d => (List.range 8).filter fun n => (getPart s (d * 8 + n)).silent
        | none => []
      let cks : List Nat := ((if quiet = [] then List.range 8 else quiet).map fun n => c * 8 + n).flatMap fun p =>
        (s.cards.filter fun e => partOf e.1 == p && s.groups.any fun g => cardKey g.1 == e.1 && g.2.core.isSome).map fun e => e.1
      exec (.peerSilentTimeout c i) s = .next (if ch.fxEn = true ∧ i ≤ ch.isize.toNat ∧ i ≠ me then
        cks.foldl (fun s ck => endAtOnce s ck 0x15) s else s)

/-- R174 to R177, R299, R354, R372, R374 to R376: a corrected error of a slice is counted and may start its retirement (logs 61, 83),
which writes back its lines and moves its buckets to the next slice that is not retired; what patrols find is corrected or is a
machine check, as is a network beat that fails twice, whose address and syndrome are free values (log 78); a machine check is
logged, ends with cause 0x12 the resident cards that it affects, at their greatest stamps (log 43), and abandons the capture; a
droop stretches a die's cycles until recovery; the arithmetic clock moves by 25 MHz within 600 to 1,200. -/
def Obligations.ReliabilityActs : Prop :=
  ∀ (s : State) (c die n time : Nat),
    let ch := getChip s c
    let x := getSlice ch die n
    let count := min (x.ceCount.toNat + 1) 65535
    let counted := setChip s c (setSlice ch die n { x with ceCount := BitVec.ofNat 16 count })
    let after := if x.ceCount.toNat = 65535 then counted else checkRetire counted c die n (some time)
    let check (s : State) (e : ErrSite) : State :=
      let on (y : Nat × Group) : Bool := if e.core = true ∨ e.elem = 2
        then y.2.chip == c && y.2.core == some (e.die * 24 + e.unit) else y.2.core.isSome
      let here (ck : Nat) : Bool := decide (e.core = true ∨ e.elem = 2) || diePart s c e.die == some (partOf ck)
      let cks := (s.cards.filter fun y => here y.1 && s.groups.any fun g => cardKey g.1 == y.1 && on g).map fun y => y.1
      let u := logError s c { elem := e.elem, die := e.die, unit := e.unit, sev := 1
                              ctx := match cks with
                                | ck :: _ => ctxNum s (partOf ck)
                                | [] => 0
                              addr := e.addr, time := time, synd := e.synd }
      let u := cks.foldl (fun s ck => endAtOnce s ck 0x12) u
      match diePart u c e.die with
      | some p => abandonCapture u p
      | none => u
    exec (.sramCorrectableError c die n time) s = .next after ∧
    exec (.sramPatrol c (some (.corrected die n)) time) s = .next after ∧
    exec (.sramPatrol c none time) s = .next s ∧
    exec (.sramPatrol c (some (.correctedCore die n)) time) s = .next s ∧
    (∀ a y, exec (.sramPatrol c (some (.doubleCore die n a y)) time) s =
      .next (check s { elem := 1, core := true, die := die, unit := n, addr := a, synd := y })) ∧
    (∀ a y, exec (.sramPatrol c (some (.doubleSlice die n a y)) time) s =
      .next (check s { elem := 1, core := false, die := die, unit := n, addr := a, synd := y })) ∧
    (∀ e, exec (.machineCheck c e time) s = .next (check s e)) ∧
    (∀ fixed, exec (.stackPatrolScrub c n fixed time) s = .next s) ∧
    exec (.networkBeatCrcError c die n false time) s = .next s ∧
    exec (.networkBeatCrcError c die n true time) s =
      .next (check { s with freeCtr := s.freeCtr + 2 } { elem := 4, core := false, die := die, unit := n
                                                         addr := (Config.freeBeat s.freeCtr).toNat
                                                         synd := (Config.freeBeat (s.freeCtr + 1)).toNat }) ∧
    (x.retiring = false → exec (.sliceRetirementComplete c die n) s = .next s) ∧
    (x.retiring = true → krising none s.chips = true → krising none ch.slices = true → n < 24 → die < 8 →
      ∃ t, exec (.sliceRetirementComplete c die n) s = .next t ∧
        getSlice (getChip t c) die n = { x with ret := true, retiring := false, lines := [] } ∧
        (∀ d b, b < 1024 → bucketSlice (getChip t c) d b =
          if d = die ∧ bucketSlice ch d b = n then successor ch die n else bucketSlice ch d b) ∧
        t.mem = s.mem ∧ t.pubs = s.pubs) ∧
    (∀ m, n < 24 → m < 24 → m ≠ n → (getSlice ch die m).ret = false → (getSlice ch die (successor ch die n)).ret = false ∧
      ∀ k, k < 23 → (getSlice ch die ((n + 1 + k) % 24)).ret = false → (successor ch die n + 24 - n) % 24 ≤ k + 1) ∧
    exec (.supplyDroop c die) s = .next (setChip s c { ch with
      stretched := if die ∈ ch.stretched then ch.stretched else ch.stretched ++ [die] }) ∧
    exec (.supplyRecovery c die) s = .next (setChip s c { ch with stretched := ch.stretched.filter fun d => d != die }) ∧
    exec (.powerLimitStep c true) s = .next (setChip s c { ch with mhz := min (ch.mhz + 25) 1200 }) ∧
    exec (.powerLimitStep c false) s = .next (setChip s c { ch with mhz := max (ch.mhz - 25) 600 })

/-- R16, R203, R290, R352 to R360, R362, R377: once the floor has reached the mark of the next request, and what is below it is
staged, the engines fix the units to copy, the image at the mark, the cards that were live there, ended ones among them, and the
dealer's state at the mark, of a mailbox up to the last entry admitted or refused: which acts count as below the mark is the model's choice
(log 26). In free mode each request is a save point of its own and all is as the request saw it (logs 26, 30). A capture that begins behind
another lists its units against that one's image and is copied after it. A unit is copied while its stack's spare region has
room, a secure byte of it is reported, and its pages lose `D` (log 29); when none is left, the offset lists of the shards and the
manifest follow, and its digest makes a save point. A new context keeps the copied units of an unfinished one (log 91). The oldest piece of the spare regions drains to the named host buffer, or
in flits to the named peer. -/
def Obligations.SavePointsAreTaken : Prop :=
  ∀ (s : State) (p : Nat) (x : Ctx), (getPart s p).ctx = some x →
    let pt := getPart s p
    let sv := pt.save
    let saved (v : Save) : State := setPart s p { pt with save := v }
    (∀ r, nextReq sv x.turn = some r →
      let d := domOf s p
      let img := partMem s p (if x.turn then image s d (r.mark, 0) else r.seen)
      let last := match (sv.cap.toList ++ sv.queue).getLast? with | some y => y.image | none => sv.prevImage
      let first {α : Type} (l : List (Nat × α)) (now : α) : α := match l.find? fun e => decide (r.mark ≤ e.1) with | some e => e.2 | none => now
      let q : Dealt := first pt.hist {
        admPos := pt.admPos, seeds := pt.seeds, nMail := pt.nMail, nCreated := pt.nCreated
        boxes := (List.range 256).map fun b => let m := getMbox s p b; (lastAdmitted m, m.closed, m.clock, m.hash)
        gens := (s.slots.filter fun e => e.1 / 2 ^ 19 == p).map fun e => (e.1, e.2.gen) }
      let atMark : Dealt := { q with boxes := q.boxes.zipIdx.map fun b =>
        let m := getMbox s p b.2
        (b.1.1, b.1.2.1, first m.ends m.clock, first m.folds m.hash) }
      let rest := sv.reqs.filter fun y => y.tag != r.tag
      let cap : Capture := {
        num := sv.next, req := r, full := sv.full, left := if sv.full then allUnits s p else diffUnits img last
        image := img, units := []
        live := if x.turn then
            ((s.cards.filter fun e => partOf e.1 == p && decide (e.2.origin < r.mark) &&
              !(e.2.endTurn && decide (e.2.mark ≤ r.mark))).map fun e => cardWord e.1) ++
              (sv.past.filter fun e => decide (e.1 < r.mark ∧ r.mark < e.2.1)).map fun e => e.2.2
          else r.live
        dealt := match r.dealt with | some y => y | none => atMark }
      exec (.savePointCapture p) s = .next (if x.turn = false ∨
          floorGe s d r.mark = true ∧ copiesStaged s d r.mark = true ∧ entryBelow s d r.mark = false then
        setPart s p { pt with
          hist := if rest = [] then [] else pt.hist
          save := { sv with
            next := sv.next + 1, full := false, reqs := rest, past := if rest = [] then [] else sv.past
            cap := match sv.cap with | some y => some y | none => some cap
            queue := match sv.cap with | some _ => sv.queue ++ [cap] | none => sv.queue } }
        else s)) ∧
    (∀ r, nextReq sv true = some r → r ∈ sv.reqs ∧ ∀ y ∈ sv.reqs, r.mark ≤ y.mark) ∧
    nextReq sv false = sv.reqs.head? ∧
    (∀ c u, sv.cap = some c → u ∈ c.left → spareRoom sv (u / unitsPerStack) = true →
      let left := c.left.filter fun v => v != u
      let u1 := saved { sv with
        cap := some { c with left := left, units := c.units ++ [u] }, spare := sv.spare ++ [(sv.points.length, .unit u)] }
      exec (.unitCopyComplete p u) s = .next (clearDirty (reportUnit u1 p u) p u left)) ∧
    (∀ u, (ctxSec s p = true ∨ (getChip s (chipOf p)).regions = [] ∨ closedByte s p (u * 65536) 65536 = none → reportUnit s p u = s) ∧
      ∀ a, ctxSec s p = false → (getChip s (chipOf p)).regions ≠ [] → closedByte s p (u * 65536) 65536 = some a →
        reportUnit s p u = setChip s (chipOf p) { getChip s (chipOf p) with secReports := (getChip s (chipOf p)).secReports ++ [a] }) ∧
    (∀ c, sv.cap = some c → c.left = [] →
      let m := manifestMap (manifestParts s p x.turn sv c)
      let digest := sha256 (manifestBytes m)
      exec (.manifestWrite p) s = .next (saved { sv with
        cap := sv.queue.head?, queue := sv.queue.drop 1, prevImage := c.image, prevDigest := digest
        points := sv.points ++ [{
          num := c.num, mark := c.req.mark, mbox := c.req.mbox, full := c.full, digest := digest
          prev := if c.full then List.replicate 32 0 else sv.prevDigest, shape := shapeRecord s p, image := c.image, units := c.units
          manifest := m, dealt := c.dealt }]
        spare := sv.spare ++ (((stacksOf s p).filter fun k => c.units.any fun u => u / unitsPerStack == k).map fun k =>
          (sv.points.length, Piece.offsets k)) ++ [(sv.points.length, .manifest)] })) ∧
    (∀ n y u k, sv.points[n]? = some y →
      pieceBytes sv n (.unit u) = rdBytes y.image (u * 65536) 65536 ∧
      pieceBytes sv n .manifest = rdBytes y.manifest 0 (0x3508 + 8 * rdNat y.manifest 0x3500 8) ∧
      pieceBytes sv n (.offsets k) = (sortNat (y.units.filter fun v => v / unitsPerStack == k)).flatMap fun v =>
        leBytes 8 ((v - k * unitsPerStack) * 65536)) ∧
    (∀ n c u, sv.points[n]? = none → sv.cap = some c → pieceBytes sv n (.unit u) = rdBytes c.image (u * 65536) 65536) ∧
    (∀ m : Mbox, lastAdmitted m = match m.fifo with | e :: _ => e.n - 1 | [] => m.count) ∧
    ((nextSave sv).spare = sv.spare ∧ ∀ n c u, n ≤ sv.points.length → sv.cap = some c →
      pieceBytes (nextSave sv) n (.unit u) = rdBytes ((sv.points[n]?.map SavePoint.image).getD c.image) (u * 65536) 65536) ∧
    ∀ target bytes n piece rest, sv.drain = some (target, bytes) → sv.spare = (n, piece) :: rest →
      let b := pieceBytes sv n piece
      (bytes < sv.drainAt + b.length → exec (.spareDrain p) s = .next s) ∧
      (sv.drainAt + b.length ≤ bytes → target < 2 ^ 63 →
        exec (.spareDrain p) s = .next { saved { sv with spare := rest, drainAt := sv.drainAt + b.length } with
          hostMem := wrBytes s.hostMem (target + sv.drainAt) b }) ∧
      (sv.drainAt + b.length ≤ bytes → 2 ^ 63 ≤ target →
        let u := sendFlits s (chipOf p) (target - 2 ^ 63) b.length fun i => .data ((b.drop (240 * i)).take 240)
        exec (.spareDrain p) s = .next (setPart u p { getPart u p with
          save := { (getPart u p).save with spare := rest, drainAt := (getPart u p).save.drainAt + b.length } }))

/-- R4, R11, R155 to R157, R177, R280 to R282, R330, R332, R334, R354, R357 to R360, R367 to R373, R376, R377: a command acts on its
arguments when the host writes it (logs 13, 58, 59), is discarded while another runs, and reports when it completes; each command has its
effect or fails with its code and no other effect. A restore takes the last save point of its chain (logs 27, 28, 91), and a refused one keeps the failing number and stack (log 90). Bytes that
a command reads are closed to its partition outside its dies and, but for the monitor and a secure context, where they are secure (log 93);
an invalidation runs until the accesses that a removed translation translated have performed. Host registers
take writes under their access codes; reads of window A return mailboxes as zero, `MBSTAT`, the interfaces with `CMD` as zero, and
the fault queue's tail and head; window B reads and writes device memory as far as its size reaches (log 89) but no secure byte (log 60); a
device reset clears the chip's memory and everything that runs on it (logs 62, 63), and starts the monitor when the firmware has the fused
digest (log 75). -/
def Obligations.HostCommandsAndRegisters : Prop :=
  ∀ (s : State) (c j : Nat), j < 8 →
    let p := c * 8 + j
    let pt := getPart s p
    let ch := getChip s c
    let arg := argOf pt.cmd
    let sarg := argOf ch.sysIf
    let started (f : CmdIf) (op : Nat) (err : Bool) (result : Nat) (args : List Nat) : CmdIf := { f with
      args := args.zipIdx.foldl (fun m e => sput 0 m e.2 (BitVec.ofNat 64 e.1)) f.args, done := false, err := false, busy := true
      op := op, outcome := (err, BitVec.ofNat 32 result) }
    let runs (i : Instr) (op : Nat) (u : State) (err : Bool) (result : Nat) (args : List Nat) : Prop :=
      exec i s = .next (setPart u p { getPart u p with cmd := started (getPart u p).cmd op err result args })
    let sysRuns (i : Instr) (op : Nat) (u : State) (err : Bool) (result : Nat) (args : List Nat) : Prop :=
      exec i s = .next (setChip u c { getChip u c with sysIf := started ch.sysIf op err result args })
    let fails (i : Instr) (op code : Nat) : Prop := runs i op s true code []
    let save (v : Save) : State := setPart s p { pt with save := v }
    (pt.cmd.busy = true → ∀ i ∈ [Instr.createContext p false, .createContext p true, .destroyContext p, .invalidate p, .faultQueue p,
        .saveFull p, .drainTarget p, .restore p, .replayRecord p, .readHash p, .admissionPosition p, .sliceRegister p, .errorLog p],
      exec i s = .next s) ∧
    (ch.sysIf.busy = true → ∀ i ∈ [Instr.partitionMap c, .fabricRegister c, .enableMap c], exec i s = .next s) ∧
    (pt.cmd.busy = false →
      (∀ m, pt.ctx.isSome = true → fails (.createContext p m) 1 4) ∧
      (∀ sec pa n, engineRead s p sec pa n =
        if inPart s p pa n = false then (false, s)
        else match (if sec then none else ((List.range n).map (pa + ·)).find? (isSecure s c)) with
          | some a => (false, setChip s c { ch with secReports := ch.secReports ++ [a] })
          | none => (true, sliceTouches s false 0 ((List.range n).map (physKey c pa + ·)))) ∧
      (∀ sec pa, pa % 256 ≠ 0 ∨ (descRead s p sec pa).1 = false → readDescriptor s p sec pa = none) ∧
      (∀ sec pa, pa % 256 = 0 → partDies s p ≠ [] → descRead s p sec pa = engineRead s p sec pa 256) ∧
      (∀ m, pt.ctx = none →
        let sec := m && ch.monitor
        let t := (descRead s p sec (arg 0)).2
        (readDescriptor s p sec (arg 0) = none → runs (.createContext p m) 1 t true 1 []) ∧
        ∀ x o, readDescriptor s p sec (arg 0) = some (x, o) →
          (x.sec = true → sec = false → runs (.createContext p m) 1 t true 2 []) ∧
          (x.sec = false ∨ sec = true → runs (.createContext p m) 1 (setPart t p { Part.reset with
            ctx := some x, cmd := pt.cmd, fq := pt.fq, save := nextSave pt.save
            mboxes := ((List.range 256).filter fun b => o.testBit b).map fun b => (b, { Mbox.closedBox with closed := false }) })
            false 0 [])) ∧
      (runs (.destroyContext p) 2 (resetPart s p) false 0 [] ∧
        (getPart (resetPart s p) p).ctx = none ∧ (getPart (resetPart s p) p).silent = ch.fxEn ∧
        (∀ e ∈ (resetPart s p).warps, partOf e.1 ≠ p) ∧ (∀ e ∈ (resetPart s p).cards, partOf e.1 ≠ p) ∧
        ∀ e ∈ (resetPart s p).groups, partOf e.1 ≠ p) ∧
      (arg 2 ≤ 2 → runs (.invalidate p) 3
        (setPart s p { pt with cmd := { pt.cmd with inval := some (arg 2, arg 1 % 2 ^ 16, arg 0) } }) false 0 []) ∧
      (2 < arg 2 → fails (.invalidate p) 3 0xFF) ∧
      (arg 0 % 4096 = 0 → (∃ n, n ≤ 10 ∧ arg 1 = 2 ^ (6 + n)) → runs (.faultQueue p) 4 (setPart s p { pt with
        fq := { pt.fq with base := arg 0, entries := arg 1, head := 0, tail := 0 } }) false 0 []) ∧
      (arg 0 % 4096 ≠ 0 ∨ (¬ ∃ n, n ≤ 10 ∧ arg 1 = 2 ^ (6 + n)) → fails (.faultQueue p) 4 0xFF) ∧
      runs (.saveFull p) 5 (save { pt.save with full := true }) false 0 [] ∧
      (let peer := arg 0 - 2 ^ 63
       (arg 0 < 2 ^ 63 ∨ (peer < 16 ∧ ch.fxEn = true ∧ peer ≤ ch.isize.toNat ∧ peer ≠ ch.index.toNat ∧
           (chipOfIndex s peer).isSome = true) →
         runs (.drainTarget p) 6 (save { pt.save with drain := some (arg 0, arg 1), drainAt := 0 }) false 0 []) ∧
       (2 ^ 63 ≤ arg 0 → ¬(peer < 16 ∧ ch.fxEn = true ∧ peer ≤ ch.isize.toNat ∧ peer ≠ ch.index.toNat ∧
           (chipOfIndex s peer).isSome = true) → fails (.drainTarget p) 6 0xFF)) ∧
      (arg 1 ≠ 0 →
        let read := engineRead s p (ctxSec s p) (arg 0) (8 * arg 1)
        let t := read.2
        let nums := (List.range (arg 1)).map fun i => rdNat t.mem (physKey c (arg 0 + 8 * i)) 8
        (read.1 = false → runs (.restore p) 7 t true 0xFF []) ∧
        (∀ n k, read.1 = true → verifyChain t p nums none = .error (n, k) → runs (.restore p) 7 (setPart t p { getPart t p with
          save := { (getPart t p).save with failed := some (n, k) } }) true n []) ∧
        ∀ y, read.1 = true → verifyChain t p nums none = .ok (some y) → runs (.restore p) 7 (restoreTo t p y) false 0 []) ∧
      (arg 1 = 0 → fails (.restore p) 7 0xFF) ∧
      (let read := if arg 1 = 0 then (true, s) else engineRead s p (ctxSec s p) (arg 0) (32 * arg 1)
       let t := read.2
       (read.1 = true → runs (.replayRecord p) 8 (setPart t p { getPart t p with save := { (getPart t p).save with
         record := (List.range (arg 1)).map fun i => rdBytes t.mem (physKey c (arg 0 + 32 * i)) 32, differs := none } }) false 0 []) ∧
       (read.1 = false → runs (.replayRecord p) 8 t true 0xFF [])) ∧
      (arg 0 < 256 → runs (.readHash p) 9 s false 0
        ((List.range 4).map fun i => leNat (((getMbox s p (arg 0)).hash.drop (8 * i)).take 8))) ∧
      (256 ≤ arg 0 → fails (.readHash p) 9 0xFF) ∧
      runs (.admissionPosition p) 10 s false 0 [pt.admPos] ∧
      (let die := arg 0 / 256 % 8
       let n := arg 0 % 32
       let x := getSlice ch die n
       (24 ≤ n ∨ die ∉ partDies s p → fails (.sliceRegister p) 11 0xFF) ∧
       (n < 24 → die ∈ partDies s p → arg 2 % 2 = 0 → runs (.sliceRegister p) 11 s false 0
         [x.ret.toNat * 2 ^ 31 + x.thresh.toNat * 2 ^ 16 + x.ceCount.toNat]) ∧
       (n < 24 → die ∈ partDies s p → arg 2 % 2 = 1 →
         let y : Slice := { x with thresh := BitVec.ofNat 8 (arg 1 / 2 ^ 16), ceCount := BitVec.ofNat 16 (arg 1) }
         let u := setChip s c (setSlice ch die n y)
         let u := if y.ceCount = x.ceCount then u else checkRetire u c die n none
         runs (.sliceRegister p) 11 u false 0 [slcWord (getSlice (getChip u c) die n)])) ∧
      (ch.errLog = [] → runs (.errorLog p) 12 s false 0 []) ∧
      (∀ r rest, ch.errLog = r :: rest → runs (.errorLog p) 12 (setChip s c { ch with errLog := rest }) false rest.length
        [r.elem * 2 ^ 56 + r.die * 2 ^ 52 + r.unit * 2 ^ 44 + r.sev * 2 ^ 40 + r.ctx, r.addr, r.time, r.synd]) ∧
      ∀ op, (op < 1 ∨ 12 < op → fails (.invalidCommand c (some j) op) op 0xFF) ∧
        (1 ≤ op → op ≤ 12 → exec (.invalidCommand c (some j) op) s = .next s)) ∧
    (ch.sysIf.busy = false →
      (mapOk (sarg 0) = false → sysRuns (.partitionMap c) 0x10 s true 0xFF []) ∧
      (mapOk (sarg 0) = true → (∃ i, i < 8 ∧ (getPart s (c * 8 + i)).ctx.isSome = true) → sysRuns (.partitionMap c) 0x10 s true 3 []) ∧
      (mapOk (sarg 0) = true → (∀ i, i < 8 → (getPart s (c * 8 + i)).ctx = none) →
        sysRuns (.partitionMap c) 0x10 (setChip s c { ch with pmap := BitVec.ofNat 64 (sarg 0) }) false 0 []) ∧
      (sarg 0 = 0 → sysRuns (.fabricRegister c) 0x11
        (setChip s c (if sarg 2 % 2 = 1 ∧ ch.fxEn = false then { ch with
          fxEn := (sarg 1).testBit 31, isize := BitVec.ofNat 4 (sarg 1 / 2 ^ 16), index := BitVec.ofNat 4 (sarg 1 / 2 ^ 8) } else ch))
        false 0 [fxcfgWord (if sarg 2 % 2 = 1 ∧ ch.fxEn = false then { ch with
          fxEn := (sarg 1).testBit 31, isize := BitVec.ofNat 4 (sarg 1 / 2 ^ 16), index := BitVec.ofNat 4 (sarg 1 / 2 ^ 8) } else ch)]) ∧
      (∀ n, sarg 0 = n + 1 → n < 16 →
        (sarg 2 % 2 = 1 → ch.fxEn = false → sarg 1 % 16 = 15 → sysRuns (.fabricRegister c) 0x11 s true 0xFF []) ∧
        (¬(sarg 2 % 2 = 1 ∧ ch.fxEn = false ∧ sarg 1 % 16 = 15) →
          let x := getPeer ch n
          let y : Peer := if sarg 2 % 2 = 1 then
              { rv := (sarg 1).testBit 13, relay := BitVec.ofNat 4 (sarg 1 / 2 ^ 8), port := if ch.fxEn then x.port else BitVec.ofNat 4 (sarg 1) }
            else x
          let u := failover (setChip s c { ch with peers := sput Peer.reset ch.peers n y }) c y.port.toNat
          let z := getPeer (getChip u c) n
          let far : Bool := decide (n ≠ (getChip u c).index.toNat ∧ n ≤ (getChip u c).isize.toNat)
          sysRuns (.fabricRegister c) 0x11 u false 0 [(far && directUp u c n).toNat * 2 ^ 15 + (detours u c n).toNat * 2 ^ 14 +
            z.rv.toNat * 2 ^ 13 + z.relay.toNat * 2 ^ 8 + z.port.toNat])) ∧
      (∀ q, (getPort ch q).up = true → failover s c q = s) ∧
      (16 < sarg 0 → sysRuns (.fabricRegister c) 0x11 s true 0xFF []) ∧
      sysRuns (.enableMap c) 0x12 s false 0 ((List.range 4).map fun i => ch.enabled.toNat / 2 ^ (64 * i) % 2 ^ 64) ∧
      ∀ op, (op < 0x10 ∨ 0x12 < op → sysRuns (.invalidCommand c none op) op s true 0xFF []) ∧
        (0x10 ≤ op → op ≤ 0x12 → exec (.invalidCommand c none op) s = .next s)) ∧
    (let finished (t : State) : State := if (getPart t p).cmd.busy then setPart t p { getPart t p with
        cmd := { (getPart t p).cmd with
          busy := false, inval := none, done := true, err := (getPart t p).cmd.outcome.1, result := (getPart t p).cmd.outcome.2 }
        fq := if (getPart t p).cmd.op = 4 ∧ (getPart t p).cmd.outcome.1 = false then { (getPart t p).fq with set := true }
          else (getPart t p).fq } else t
     (pt.cmd.inval = none → exec (.commandCompletion c (some j)) s = .next (finished s)) ∧
     ∀ form n va, pt.cmd.inval = some (form, n, va) →
       let hit (t : Tlb) : Bool := if form = 0 then tlbHit t n va else form != 1 || t.ctx == n
       (xlatInUse s c hit = true → exec (.commandCompletion c (some j)) s = .next s) ∧
       (xlatInUse s c hit = false → exec (.commandCompletion c (some j)) s = .next (finished (dropTlb s c hit)))) ∧
    exec (.commandCompletion c none) s = .next (if ch.sysIf.busy then setChip s c { ch with
      sysIf := { ch.sysIf with busy := false, inval := none, done := true, err := ch.sysIf.outcome.1, result := ch.sysIf.outcome.2 } } else s) ∧
    (∀ i v, i < 4 → exec (.registerWrite c (.arg (some j) i) v) s =
      .next (setPart s p { pt with cmd := { pt.cmd with args := sput 0 pt.cmd.args i v } })) ∧
    (∀ v, exec (.registerWrite c (.stat (some j)) v) s = .next (setPart s p { pt with
      cmd := { pt.cmd with err := pt.cmd.err && !v.getLsbD 2, done := pt.cmd.done && !v.getLsbD 1 } })) ∧
    (∀ v, exec (.registerWrite c (.fqHead j) v) s = .next (setPart s p { pt with fq := { pt.fq with head := v } })) ∧
    (∀ i v, i < 64 → exec (.registerWrite c (.region i) v) s = .next (if ch.monitor then setChip s c { ch with
      regions := sput 0 ch.regions i (v &&& ~~~(BitVec.ofNat 64 (3 * 2 ^ 60))) } else s)) ∧
    (∀ n v, exec (.registerWrite c (.barSize n) v) s = .next (if n ≤ 10 then setChip s c { ch with barSize := n } else s)) ∧
    (∀ off v, exec (.registerWrite c (.reserved off) v) s = .next s) ∧
    (∀ v, exec (.faultQueueTailWrite p v) s = .next (if v.getLsbD 63 = true ∧ v = pt.fq.tail then
      setPart s p { pt with fq := { pt.fq with tail := pt.fq.tail &&& ~~~(BitVec.ofNat 64 (2 ^ 63)) } } else s)) ∧
    (∀ off bytes, off + bytes.length ≤ deviceSize → off + bytes.length ≤ 2 ^ (30 + ch.barSize) → (∀ i, i < bytes.length → isSecure s c (off + i) = false) →
      exec (.hostWindowBAccess c none off bytes.length (some bytes)) s =
        .next { sliceTouches s true 0 ((List.range bytes.length).map fun i => physKey c (off + i)) with
          mem := wrBytes s.mem (physKey c off) bytes }) ∧
    (∀ off bytes i, off + bytes.length ≤ deviceSize → off + bytes.length ≤ 2 ^ (30 + ch.barSize) → i < bytes.length → isSecure s c (off + i) = true →
      ∃ t a, exec (.hostWindowBAccess c none off bytes.length (some bytes)) s = .next t ∧
        rdByte t.mem (physKey c (off + i)) = rdByte s.mem (physKey c (off + i)) ∧ isSecure s c a = true ∧
        (getChip t c).secReports = ch.secReports ++ [a]) ∧
    (∀ off n, off + n ≤ deviceSize → off + n ≤ 2 ^ (30 + ch.barSize) → (∀ i, i < n → isSecure s c (off + i) = false) →
      exec (.hostWindowBAccess c none off n none) s =
        .next (sliceTouches s false 0 ((List.range n).map fun i => physKey c (off + i)))) ∧
    (∀ off bytes, deviceSize ≤ off ∨ 2 ^ (30 + ch.barSize) ≤ off →
      exec (.hostWindowBAccess c none off bytes.length (some bytes)) s = .next s) ∧
    (∀ off n i, i < n → (windowBRead s c none off n)[i]? = some (
      if deviceSize ≤ off + i ∨ 2 ^ (30 + ch.barSize) ≤ off + i ∨ isSecure s c (off + i) = true then 0
      else rdByte s.mem (physKey c (off + i)))) ∧
    (∀ o vf off, o < 0x400000 → (vf = some j ∧ off = o) ∨ (vf = none ∧ off = j * 0x400000 + o) →
      let word (f : CmdIf) (i : Nat) : Dword := if i < 4 then sget 0 f.args i
        else if i = 5 then BitVec.ofNat 64 (f.result.toNat * 2 ^ 32 + f.err.toNat * 4 + f.done.toNat * 2 + f.busy.toNat) else 0
      (o < 0x100000 → readA s c vf off = 0) ∧
      (0x100000 ≤ o → o < 0x100800 →
        let m := getMbox s p ((o - 0x100000) / 8)
        readA s c vf off = BitVec.ofNat 64 (seqOf m.count * 2 ^ 24 + m.cursor * 2 ^ 16 + m.ovf.toNat * 2 ^ 11 + m.closed.toNat * 2 ^ 10 +
          (512 - m.fifo.length))) ∧
      (0x100800 ≤ o → o < 0x100830 → readA s c vf off = word pt.cmd ((o - 0x100800) / 8)) ∧
      (0x100840 ≤ o → o < 0x100848 → readA s c vf off = pt.fq.tail) ∧
      (0x100848 ≤ o → o < 0x100850 → readA s c vf off = pt.fq.head) ∧
      ((0x100830 ≤ o ∧ o < 0x100840) ∨ 0x100850 ≤ o → readA s c vf off = 0) ∧
      ∀ i, i < 48 → readA s c none (0x2000800 + i) = word ch.sysIf (i / 8)) ∧
    (krising none s.chips = true → ∃ t, exec (.deviceReset c) s = .next t ∧ getChip t c = { Chip.reset with
        enabled := ch.enabled, flash := ch.flash, fuse := ch.fuse, monitor := sha256 ch.flash == ch.fuse } ∧
      (∀ e ∈ t.mem, e.1 / 2 ^ 52 ≠ c) ∧ (∀ e ∈ t.parts, chipOf e.1 ≠ c) ∧ (∀ e ∈ t.warps, chipOf (partOf e.1) ≠ c) ∧
      (∀ e ∈ t.groups, chipOf (partOf e.1) ≠ c) ∧ ∀ e ∈ t.cards, chipOf (partOf e.1) ≠ c)
end

