-- ==== Sys2Proof/Laws/Map.lean ====
section
/-! SUPPORT. Laws of sparse data: what a key reads as after an insertion, a change or a removal, and the canonical form. -/

namespace Sys2Proof.Machine

variable {α : Type}

/-! ## Reading after writing -/

theorem kfind_kinsert (m : KMap α) (i j : Nat) (x : α) :
    kfind (kinsert m i x) j = if j = i then some x else kfind m j := by
  induction m with
  | nil => simp only [kinsert, kfind]; split <;> simp_all [eq_comm]
  | cons e m ih =>
    obtain ⟨k, y⟩ := e
    simp only [kinsert]
    split
    · simp only [kfind]; split <;> simp_all [eq_comm]
    · split
      · subst_vars; simp only [kfind]; split <;> simp_all [eq_comm]
      · simp only [kfind, ih]; split <;> split <;> simp_all

/-- The later of two writes at a key stands. -/
theorem kinsert_kinsert (m : KMap α) (i : Nat) (x y : α) : kinsert (kinsert m i x) i y = kinsert m i y := by
  induction m with
  | nil => simp [kinsert]
  | cons e m ih =>
    obtain ⟨j, z⟩ := e
    by_cases h1 : i < j
    · simp [kinsert, h1]
    · by_cases h2 : i = j
      · simp [kinsert, h2]
      · simp only [kinsert, if_neg h1, if_neg h2, ih]

theorem kfind_kmodify (m : KMap α) (i j : Nat) (f : α → α) :
    kfind (kmodify m i f) j = if j = i then (kfind m j).map f else kfind m j := by
  induction m with
  | nil => simp [kmodify, kfind]
  | cons e m ih =>
    obtain ⟨k, y⟩ := e
    simp only [kmodify]
    split <;> simp only [kfind] <;> (repeat' split) <;> simp_all

theorem kfind_kerase_ne (m : KMap α) (i j : Nat) (h : j ≠ i) : kfind (kerase m i) j = kfind m j := by
  induction m with
  | nil => rfl
  | cons e m ih =>
    obtain ⟨k, y⟩ := e
    simp only [kerase]
    split
    · subst_vars; simp [kfind, Ne.symm h]
    · simp only [kfind, ih]

/-! ## The canonical form -/

/-- Every listed key is above a bound. -/
theorem krising_mem {m : KMap α} : ∀ {lo : Nat}, krising (some lo) m = true → ∀ e ∈ m, lo < e.1 := by
  induction m with
  | nil => intro lo _ e h; cases h
  | cons a m ih =>
    obtain ⟨k, y⟩ := a
    intro lo h e he
    simp only [krising, Bool.and_eq_true, decide_eq_true_eq] at h
    rcases List.mem_cons.1 he with rfl | he
    · exact h.1
    · exact Nat.lt_trans h.1 (ih h.2 e he)

theorem krising_weaken {m : KMap α} {a b : Nat} (h : krising (some b) m = true) (hab : a ≤ b) :
    krising (some a) m = true := by
  cases m with
  | nil => rfl
  | cons e m =>
    simp only [krising, Bool.and_eq_true, decide_eq_true_eq] at h ⊢
    exact ⟨by omega, h.2⟩

theorem krising_none {m : KMap α} {a : Nat} (h : krising (some a) m = true) : krising none m = true := by
  cases m with
  | nil => rfl
  | cons e m => simp only [krising, Bool.and_eq_true, decide_eq_true_eq, Bool.true_and] at h ⊢; exact h.2

theorem kfind_below {m : KMap α} {lo j : Nat} (h : krising (some lo) m = true) (hj : j ≤ lo) : kfind m j = none := by
  induction m generalizing lo with
  | nil => rfl
  | cons e m ih =>
    simp only [krising, Bool.and_eq_true, decide_eq_true_eq] at h
    simp only [kfind]
    rw [if_neg (by omega)]
    exact ih h.2 (by omega)

theorem krising_kinsert (m : KMap α) (i : Nat) (x : α) :
    ∀ lo : Option Nat, krising lo m = true → (∀ l, lo = some l → l < i) → krising lo (kinsert m i x) = true := by
  induction m with
  | nil => intro lo _ hl; cases lo <;> simp_all [kinsert, krising]
  | cons e m ih =>
    obtain ⟨k, y⟩ := e
    intro lo h hl
    have hm : krising (some k) m = true := by
      simp only [krising, Bool.and_eq_true] at h; exact h.2
    simp only [kinsert]
    split
    · cases lo <;> simp_all [krising]
    · split
      · subst_vars; cases lo <;> simp_all [krising]
      · have := ih (some k) hm (by intro l hl'; cases hl'; omega)
        cases lo <;> simp_all [krising]

theorem krising_kerase (m : KMap α) (i : Nat) : ∀ lo : Option Nat, krising lo m = true → krising lo (kerase m i) = true := by
  induction m with
  | nil => intro lo _; cases lo <;> rfl
  | cons e m ih =>
    obtain ⟨k, y⟩ := e
    intro lo h
    have hm : krising (some k) m = true := by
      simp only [krising, Bool.and_eq_true] at h; exact h.2
    simp only [kerase]
    split
    · cases lo with
      | none => exact krising_none hm
      | some l =>
        simp only [krising, Bool.and_eq_true, decide_eq_true_eq] at h
        exact krising_weaken hm (by omega)
    · have := ih (some k) hm
      cases lo <;> simp_all [krising]

theorem krising_kmodify (m : KMap α) (i : Nat) (f : α → α) :
    ∀ lo : Option Nat, krising lo (kmodify m i f) = krising lo m := by
  induction m with
  | nil => intro lo; rfl
  | cons e m ih =>
    obtain ⟨k, y⟩ := e
    intro lo
    simp only [kmodify]
    split
    · cases lo <;> rfl
    · simp only [krising, ih]

theorem kfind_kerase_eq {m : KMap α} {i : Nat} (h : krising none m = true) : kfind (kerase m i) i = none := by
  suffices ∀ lo : Option Nat, krising lo m = true → kfind (kerase m i) i = none from this _ h
  clear h
  induction m with
  | nil => intros; rfl
  | cons e m ih =>
    obtain ⟨k, y⟩ := e
    intro lo h
    have hm : krising (some k) m = true := by
      simp only [krising, Bool.and_eq_true] at h; exact h.2
    simp only [kerase]
    split
    · subst_vars; exact kfind_below hm (Nat.le_refl _)
    · simp only [kfind]; rw [if_neg (by assumption)]; exact ih _ hm

theorem mem_kinsert {m : KMap α} {i : Nat} {x : α} {e : Nat × α} (h : e ∈ kinsert m i x) : e = (i, x) ∨ e ∈ m := by
  induction m with
  | nil => simpa [kinsert] using h
  | cons a m ih =>
    obtain ⟨k, y⟩ := a
    simp only [kinsert] at h
    split at h
    · simpa using h
    · split at h
      · rcases List.mem_cons.1 h with h | h
        · exact .inl h
        · exact .inr (List.mem_cons_of_mem _ h)
      · rcases List.mem_cons.1 h with h | h
        · exact .inr (h ▸ List.mem_cons_self)
        · rcases ih h with h | h
          · exact .inl h
          · exact .inr (List.mem_cons_of_mem _ h)

theorem mem_kerase {m : KMap α} {i : Nat} {e : Nat × α} (h : e ∈ kerase m i) : e ∈ m := by
  induction m with
  | nil => simp [kerase] at h
  | cons a m ih =>
    obtain ⟨k, y⟩ := a
    simp only [kerase] at h
    split at h
    · exact List.mem_cons_of_mem _ h
    · rcases List.mem_cons.1 h with h | h
      · exact h ▸ List.mem_cons_self
      · exact List.mem_cons_of_mem _ (ih h)

variable [DecidableEq α]

theorem swf_iff {d : α} {m : KMap α} : swf d m = true ↔ krising none m = true ∧ ∀ e ∈ m, e.2 ≠ d := by
  simp [swf]

omit [DecidableEq α] in
/-- Rising keys, by pairs. -/
theorem krising_iff (m : KMap α) : ∀ lo : Option Nat,
    krising lo m = true ↔ (∀ l, lo = some l → ∀ e ∈ m, l < e.1) ∧ m.Pairwise fun a b => a.1 < b.1 := by
  induction m with
  | nil => simp [krising]
  | cons e m ih =>
    intro lo
    simp only [krising, Bool.and_eq_true, ih, List.pairwise_cons, List.mem_cons]
    cases lo <;> simp
    exact fun h1 _ h a b he => Nat.lt_trans h (h1 a b he)

omit [DecidableEq α] in
/-- In a map with rising keys, what is found at a key is what is listed there. -/
theorem kfind_iff {m : KMap α} (h : m.Pairwise fun a b => a.1 < b.1) (i : Nat) (x : α) : kfind m i = some x ↔ (i, x) ∈ m := by
  induction m with
  | nil => simp [kfind]
  | cons e m ih =>
    obtain ⟨h1, h2⟩ := List.pairwise_cons.mp h
    by_cases he : e.1 = i
    · subst he
      have hn : (e.1, x) ∉ m := fun hm => absurd (h1 _ hm) (Nat.lt_irrefl _)
      simp [kfind, hn, Prod.ext_iff, eq_comm]
    · have hne : (i, x) ≠ e := fun hx => he (by rw [← hx])
      simp [kfind, he, ih h2, hne]

@[simp] theorem swf_nil (d : α) : swf d ([] : KMap α) = true := rfl

/-- Writing keeps the canonical form. -/
theorem swf_sput {d : α} {m : KMap α} (i : Nat) (x : α) (h : swf d m = true) : swf d (sput d m i x) = true := by
  rw [swf_iff] at h ⊢
  unfold sput
  split
  · exact ⟨krising_kerase m i none h.1, fun e he => h.2 e (mem_kerase he)⟩
  · refine ⟨krising_kinsert m i x none h.1 (by intro l hl; cases hl), fun e he => ?_⟩
    rcases mem_kinsert he with rfl | he
    · assumption
    · exact h.2 e he

/-- What a key reads as after a write. -/
theorem sget_sput {d : α} {m : KMap α} (i j : Nat) (x : α) (h : swf d m = true) :
    sget d (sput d m i x) j = if j = i then x else sget d m j := by
  rw [swf_iff] at h
  unfold sget sput
  split
  · by_cases hj : j = i
    · subst hj; simp [kfind_kerase_eq h.1, *]
    · simp [kfind_kerase_ne m i j hj, hj]
  · rw [kfind_kinsert]; split <;> rfl

theorem sget_sput_ne {d : α} {m : KMap α} {i j : Nat} (x : α) (h : j ≠ i) : sget d (sput d m i x) j = sget d m j := by
  unfold sget sput
  split
  · rw [kfind_kerase_ne m i j h]
  · rw [kfind_kinsert, if_neg h]

end Sys2Proof.Machine
end

