-- ==== Sys2Proof/Laws/State.lean ====
section
/-! SUPPORT. What each update of the state and of a warp leaves in each field, and what its records read as after it. -/

namespace Sys2Proof.Machine

/-! ## Fields of the state -/

@[simp] theorem setChip_agenda (s : State) (c : Nat) (x : Chip) : (setChip s c x).agenda = s.agenda := rfl
@[simp] theorem setChip_cur (s : State) (c : Nat) (x : Chip) : (setChip s c x).cur = s.cur := rfl
@[simp] theorem setChip_runs (s : State) (c : Nat) (x : Chip) : (setChip s c x).runs = s.runs := rfl
@[simp] theorem setChip_freeCtr (s : State) (c : Nat) (x : Chip) : (setChip s c x).freeCtr = s.freeCtr := rfl
@[simp] theorem setChip_mem (s : State) (c : Nat) (x : Chip) : (setChip s c x).mem = s.mem := rfl
@[simp] theorem setChip_hostMem (s : State) (c : Nat) (x : Chip) : (setChip s c x).hostMem = s.hostMem := rfl
@[simp] theorem setChip_msi (s : State) (c : Nat) (x : Chip) : (setChip s c x).msi = s.msi := rfl
@[simp] theorem setChip_pubs (s : State) (c : Nat) (x : Chip) : (setChip s c x).pubs = s.pubs := rfl
@[simp] theorem setChip_parts (s : State) (c : Nat) (x : Chip) : (setChip s c x).parts = s.parts := rfl
@[simp] theorem setChip_cards (s : State) (c : Nat) (x : Chip) : (setChip s c x).cards = s.cards := rfl
@[simp] theorem setChip_groups (s : State) (c : Nat) (x : Chip) : (setChip s c x).groups = s.groups := rfl
@[simp] theorem setChip_warps (s : State) (c : Nat) (x : Chip) : (setChip s c x).warps = s.warps := rfl
@[simp] theorem setChip_slots (s : State) (c : Nat) (x : Chip) : (setChip s c x).slots = s.slots := rfl
@[simp] theorem setChip_created (s : State) (c : Nat) (x : Chip) : (setChip s c x).created = s.created := rfl
@[simp] theorem setChip_forwards (s : State) (c : Nat) (x : Chip) : (setChip s c x).forwards = s.forwards := rfl
@[simp] theorem setChip_markers (s : State) (c : Nat) (x : Chip) : (setChip s c x).markers = s.markers := rfl

@[simp] theorem setPart_agenda (s : State) (p : Nat) (x : Part) : (setPart s p x).agenda = s.agenda := rfl
@[simp] theorem setPart_cur (s : State) (p : Nat) (x : Part) : (setPart s p x).cur = s.cur := rfl
@[simp] theorem setPart_runs (s : State) (p : Nat) (x : Part) : (setPart s p x).runs = s.runs := rfl
@[simp] theorem setPart_freeCtr (s : State) (p : Nat) (x : Part) : (setPart s p x).freeCtr = s.freeCtr := rfl
@[simp] theorem setPart_mem (s : State) (p : Nat) (x : Part) : (setPart s p x).mem = s.mem := rfl
@[simp] theorem setPart_hostMem (s : State) (p : Nat) (x : Part) : (setPart s p x).hostMem = s.hostMem := rfl
@[simp] theorem setPart_msi (s : State) (p : Nat) (x : Part) : (setPart s p x).msi = s.msi := rfl
@[simp] theorem setPart_pubs (s : State) (p : Nat) (x : Part) : (setPart s p x).pubs = s.pubs := rfl
@[simp] theorem setPart_chips (s : State) (p : Nat) (x : Part) : (setPart s p x).chips = s.chips := rfl
@[simp] theorem setPart_cards (s : State) (p : Nat) (x : Part) : (setPart s p x).cards = s.cards := rfl
@[simp] theorem setPart_groups (s : State) (p : Nat) (x : Part) : (setPart s p x).groups = s.groups := rfl
@[simp] theorem setPart_warps (s : State) (p : Nat) (x : Part) : (setPart s p x).warps = s.warps := rfl
@[simp] theorem setPart_slots (s : State) (p : Nat) (x : Part) : (setPart s p x).slots = s.slots := rfl
@[simp] theorem setPart_created (s : State) (p : Nat) (x : Part) : (setPart s p x).created = s.created := rfl
@[simp] theorem setPart_forwards (s : State) (p : Nat) (x : Part) : (setPart s p x).forwards = s.forwards := rfl
@[simp] theorem setPart_markers (s : State) (p : Nat) (x : Part) : (setPart s p x).markers = s.markers := rfl

@[simp] theorem setMbox_agenda (s : State) (p b : Nat) (x : Mbox) : (setMbox s p b x).agenda = s.agenda := rfl
@[simp] theorem setMbox_cur (s : State) (p b : Nat) (x : Mbox) : (setMbox s p b x).cur = s.cur := rfl
@[simp] theorem setMbox_runs (s : State) (p b : Nat) (x : Mbox) : (setMbox s p b x).runs = s.runs := rfl
@[simp] theorem setMbox_freeCtr (s : State) (p b : Nat) (x : Mbox) : (setMbox s p b x).freeCtr = s.freeCtr := rfl
@[simp] theorem setMbox_mem (s : State) (p b : Nat) (x : Mbox) : (setMbox s p b x).mem = s.mem := rfl
@[simp] theorem setMbox_hostMem (s : State) (p b : Nat) (x : Mbox) : (setMbox s p b x).hostMem = s.hostMem := rfl
@[simp] theorem setMbox_msi (s : State) (p b : Nat) (x : Mbox) : (setMbox s p b x).msi = s.msi := rfl
@[simp] theorem setMbox_pubs (s : State) (p b : Nat) (x : Mbox) : (setMbox s p b x).pubs = s.pubs := rfl
@[simp] theorem setMbox_chips (s : State) (p b : Nat) (x : Mbox) : (setMbox s p b x).chips = s.chips := rfl
@[simp] theorem setMbox_cards (s : State) (p b : Nat) (x : Mbox) : (setMbox s p b x).cards = s.cards := rfl
@[simp] theorem setMbox_groups (s : State) (p b : Nat) (x : Mbox) : (setMbox s p b x).groups = s.groups := rfl
@[simp] theorem setMbox_warps (s : State) (p b : Nat) (x : Mbox) : (setMbox s p b x).warps = s.warps := rfl
@[simp] theorem setMbox_slots (s : State) (p b : Nat) (x : Mbox) : (setMbox s p b x).slots = s.slots := rfl
@[simp] theorem setMbox_created (s : State) (p b : Nat) (x : Mbox) : (setMbox s p b x).created = s.created := rfl
@[simp] theorem setMbox_forwards (s : State) (p b : Nat) (x : Mbox) : (setMbox s p b x).forwards = s.forwards := rfl
@[simp] theorem setMbox_markers (s : State) (p b : Nat) (x : Mbox) : (setMbox s p b x).markers = s.markers := rfl

@[simp] theorem setWarp_agenda (s : State) (k : Nat) (x : Warp) : (setWarp s k x).agenda = s.agenda := rfl
@[simp] theorem setWarp_cur (s : State) (k : Nat) (x : Warp) : (setWarp s k x).cur = s.cur := rfl
@[simp] theorem setWarp_runs (s : State) (k : Nat) (x : Warp) : (setWarp s k x).runs = s.runs := rfl
@[simp] theorem setWarp_freeCtr (s : State) (k : Nat) (x : Warp) : (setWarp s k x).freeCtr = s.freeCtr := rfl
@[simp] theorem setWarp_mem (s : State) (k : Nat) (x : Warp) : (setWarp s k x).mem = s.mem := rfl
@[simp] theorem setWarp_hostMem (s : State) (k : Nat) (x : Warp) : (setWarp s k x).hostMem = s.hostMem := rfl
@[simp] theorem setWarp_msi (s : State) (k : Nat) (x : Warp) : (setWarp s k x).msi = s.msi := rfl
@[simp] theorem setWarp_pubs (s : State) (k : Nat) (x : Warp) : (setWarp s k x).pubs = s.pubs := rfl
@[simp] theorem setWarp_chips (s : State) (k : Nat) (x : Warp) : (setWarp s k x).chips = s.chips := rfl
@[simp] theorem setWarp_parts (s : State) (k : Nat) (x : Warp) : (setWarp s k x).parts = s.parts := rfl
@[simp] theorem setWarp_cards (s : State) (k : Nat) (x : Warp) : (setWarp s k x).cards = s.cards := rfl
@[simp] theorem setWarp_groups (s : State) (k : Nat) (x : Warp) : (setWarp s k x).groups = s.groups := rfl
@[simp] theorem setWarp_slots (s : State) (k : Nat) (x : Warp) : (setWarp s k x).slots = s.slots := rfl
@[simp] theorem setWarp_created (s : State) (k : Nat) (x : Warp) : (setWarp s k x).created = s.created := rfl
@[simp] theorem setWarp_forwards (s : State) (k : Nat) (x : Warp) : (setWarp s k x).forwards = s.forwards := rfl
@[simp] theorem setWarp_markers (s : State) (k : Nat) (x : Warp) : (setWarp s k x).markers = s.markers := rfl

@[simp] theorem updWarp_agenda (s : State) (k : Nat) (f : Warp → Warp) : (updWarp s k f).agenda = s.agenda := rfl
@[simp] theorem updWarp_cur (s : State) (k : Nat) (f : Warp → Warp) : (updWarp s k f).cur = s.cur := rfl
@[simp] theorem updWarp_runs (s : State) (k : Nat) (f : Warp → Warp) : (updWarp s k f).runs = s.runs := rfl
@[simp] theorem updWarp_freeCtr (s : State) (k : Nat) (f : Warp → Warp) : (updWarp s k f).freeCtr = s.freeCtr := rfl
@[simp] theorem updWarp_mem (s : State) (k : Nat) (f : Warp → Warp) : (updWarp s k f).mem = s.mem := rfl
@[simp] theorem updWarp_hostMem (s : State) (k : Nat) (f : Warp → Warp) : (updWarp s k f).hostMem = s.hostMem := rfl
@[simp] theorem updWarp_msi (s : State) (k : Nat) (f : Warp → Warp) : (updWarp s k f).msi = s.msi := rfl
@[simp] theorem updWarp_pubs (s : State) (k : Nat) (f : Warp → Warp) : (updWarp s k f).pubs = s.pubs := rfl
@[simp] theorem updWarp_chips (s : State) (k : Nat) (f : Warp → Warp) : (updWarp s k f).chips = s.chips := rfl
@[simp] theorem updWarp_parts (s : State) (k : Nat) (f : Warp → Warp) : (updWarp s k f).parts = s.parts := rfl
@[simp] theorem updWarp_cards (s : State) (k : Nat) (f : Warp → Warp) : (updWarp s k f).cards = s.cards := rfl
@[simp] theorem updWarp_groups (s : State) (k : Nat) (f : Warp → Warp) : (updWarp s k f).groups = s.groups := rfl
@[simp] theorem updWarp_slots (s : State) (k : Nat) (f : Warp → Warp) : (updWarp s k f).slots = s.slots := rfl
@[simp] theorem updWarp_created (s : State) (k : Nat) (f : Warp → Warp) : (updWarp s k f).created = s.created := rfl
@[simp] theorem updWarp_forwards (s : State) (k : Nat) (f : Warp → Warp) : (updWarp s k f).forwards = s.forwards := rfl
@[simp] theorem updWarp_markers (s : State) (k : Nat) (f : Warp → Warp) : (updWarp s k f).markers = s.markers := rfl

@[simp] theorem setGroup_agenda (s : State) (k : Nat) (x : Group) : (setGroup s k x).agenda = s.agenda := rfl
@[simp] theorem setGroup_cur (s : State) (k : Nat) (x : Group) : (setGroup s k x).cur = s.cur := rfl
@[simp] theorem setGroup_runs (s : State) (k : Nat) (x : Group) : (setGroup s k x).runs = s.runs := rfl
@[simp] theorem setGroup_freeCtr (s : State) (k : Nat) (x : Group) : (setGroup s k x).freeCtr = s.freeCtr := rfl
@[simp] theorem setGroup_mem (s : State) (k : Nat) (x : Group) : (setGroup s k x).mem = s.mem := rfl
@[simp] theorem setGroup_hostMem (s : State) (k : Nat) (x : Group) : (setGroup s k x).hostMem = s.hostMem := rfl
@[simp] theorem setGroup_msi (s : State) (k : Nat) (x : Group) : (setGroup s k x).msi = s.msi := rfl
@[simp] theorem setGroup_pubs (s : State) (k : Nat) (x : Group) : (setGroup s k x).pubs = s.pubs := rfl
@[simp] theorem setGroup_chips (s : State) (k : Nat) (x : Group) : (setGroup s k x).chips = s.chips := rfl
@[simp] theorem setGroup_parts (s : State) (k : Nat) (x : Group) : (setGroup s k x).parts = s.parts := rfl
@[simp] theorem setGroup_cards (s : State) (k : Nat) (x : Group) : (setGroup s k x).cards = s.cards := rfl
@[simp] theorem setGroup_warps (s : State) (k : Nat) (x : Group) : (setGroup s k x).warps = s.warps := rfl
@[simp] theorem setGroup_slots (s : State) (k : Nat) (x : Group) : (setGroup s k x).slots = s.slots := rfl
@[simp] theorem setGroup_created (s : State) (k : Nat) (x : Group) : (setGroup s k x).created = s.created := rfl
@[simp] theorem setGroup_forwards (s : State) (k : Nat) (x : Group) : (setGroup s k x).forwards = s.forwards := rfl
@[simp] theorem setGroup_markers (s : State) (k : Nat) (x : Group) : (setGroup s k x).markers = s.markers := rfl

@[simp] theorem updGroup_agenda (s : State) (k : Nat) (f : Group → Group) : (updGroup s k f).agenda = s.agenda := rfl
@[simp] theorem updGroup_cur (s : State) (k : Nat) (f : Group → Group) : (updGroup s k f).cur = s.cur := rfl
@[simp] theorem updGroup_runs (s : State) (k : Nat) (f : Group → Group) : (updGroup s k f).runs = s.runs := rfl
@[simp] theorem updGroup_freeCtr (s : State) (k : Nat) (f : Group → Group) : (updGroup s k f).freeCtr = s.freeCtr := rfl
@[simp] theorem updGroup_mem (s : State) (k : Nat) (f : Group → Group) : (updGroup s k f).mem = s.mem := rfl
@[simp] theorem updGroup_hostMem (s : State) (k : Nat) (f : Group → Group) : (updGroup s k f).hostMem = s.hostMem := rfl
@[simp] theorem updGroup_msi (s : State) (k : Nat) (f : Group → Group) : (updGroup s k f).msi = s.msi := rfl
@[simp] theorem updGroup_pubs (s : State) (k : Nat) (f : Group → Group) : (updGroup s k f).pubs = s.pubs := rfl
@[simp] theorem updGroup_chips (s : State) (k : Nat) (f : Group → Group) : (updGroup s k f).chips = s.chips := rfl
@[simp] theorem updGroup_parts (s : State) (k : Nat) (f : Group → Group) : (updGroup s k f).parts = s.parts := rfl
@[simp] theorem updGroup_cards (s : State) (k : Nat) (f : Group → Group) : (updGroup s k f).cards = s.cards := rfl
@[simp] theorem updGroup_warps (s : State) (k : Nat) (f : Group → Group) : (updGroup s k f).warps = s.warps := rfl
@[simp] theorem updGroup_slots (s : State) (k : Nat) (f : Group → Group) : (updGroup s k f).slots = s.slots := rfl
@[simp] theorem updGroup_created (s : State) (k : Nat) (f : Group → Group) : (updGroup s k f).created = s.created := rfl
@[simp] theorem updGroup_forwards (s : State) (k : Nat) (f : Group → Group) : (updGroup s k f).forwards = s.forwards := rfl
@[simp] theorem updGroup_markers (s : State) (k : Nat) (f : Group → Group) : (updGroup s k f).markers = s.markers := rfl

@[simp] theorem setCard_agenda (s : State) (k : Nat) (x : Card) : (setCard s k x).agenda = s.agenda := rfl
@[simp] theorem setCard_cur (s : State) (k : Nat) (x : Card) : (setCard s k x).cur = s.cur := rfl
@[simp] theorem setCard_runs (s : State) (k : Nat) (x : Card) : (setCard s k x).runs = s.runs := rfl
@[simp] theorem setCard_freeCtr (s : State) (k : Nat) (x : Card) : (setCard s k x).freeCtr = s.freeCtr := rfl
@[simp] theorem setCard_mem (s : State) (k : Nat) (x : Card) : (setCard s k x).mem = s.mem := rfl
@[simp] theorem setCard_hostMem (s : State) (k : Nat) (x : Card) : (setCard s k x).hostMem = s.hostMem := rfl
@[simp] theorem setCard_msi (s : State) (k : Nat) (x : Card) : (setCard s k x).msi = s.msi := rfl
@[simp] theorem setCard_pubs (s : State) (k : Nat) (x : Card) : (setCard s k x).pubs = s.pubs := rfl
@[simp] theorem setCard_chips (s : State) (k : Nat) (x : Card) : (setCard s k x).chips = s.chips := rfl
@[simp] theorem setCard_parts (s : State) (k : Nat) (x : Card) : (setCard s k x).parts = s.parts := rfl
@[simp] theorem setCard_groups (s : State) (k : Nat) (x : Card) : (setCard s k x).groups = s.groups := rfl
@[simp] theorem setCard_warps (s : State) (k : Nat) (x : Card) : (setCard s k x).warps = s.warps := rfl
@[simp] theorem setCard_slots (s : State) (k : Nat) (x : Card) : (setCard s k x).slots = s.slots := rfl
@[simp] theorem setCard_created (s : State) (k : Nat) (x : Card) : (setCard s k x).created = s.created := rfl
@[simp] theorem setCard_forwards (s : State) (k : Nat) (x : Card) : (setCard s k x).forwards = s.forwards := rfl
@[simp] theorem setCard_markers (s : State) (k : Nat) (x : Card) : (setCard s k x).markers = s.markers := rfl

@[simp] theorem updCard_agenda (s : State) (k : Nat) (f : Card → Card) : (updCard s k f).agenda = s.agenda := rfl
@[simp] theorem updCard_cur (s : State) (k : Nat) (f : Card → Card) : (updCard s k f).cur = s.cur := rfl
@[simp] theorem updCard_runs (s : State) (k : Nat) (f : Card → Card) : (updCard s k f).runs = s.runs := rfl
@[simp] theorem updCard_freeCtr (s : State) (k : Nat) (f : Card → Card) : (updCard s k f).freeCtr = s.freeCtr := rfl
@[simp] theorem updCard_mem (s : State) (k : Nat) (f : Card → Card) : (updCard s k f).mem = s.mem := rfl
@[simp] theorem updCard_hostMem (s : State) (k : Nat) (f : Card → Card) : (updCard s k f).hostMem = s.hostMem := rfl
@[simp] theorem updCard_msi (s : State) (k : Nat) (f : Card → Card) : (updCard s k f).msi = s.msi := rfl
@[simp] theorem updCard_pubs (s : State) (k : Nat) (f : Card → Card) : (updCard s k f).pubs = s.pubs := rfl
@[simp] theorem updCard_chips (s : State) (k : Nat) (f : Card → Card) : (updCard s k f).chips = s.chips := rfl
@[simp] theorem updCard_parts (s : State) (k : Nat) (f : Card → Card) : (updCard s k f).parts = s.parts := rfl
@[simp] theorem updCard_groups (s : State) (k : Nat) (f : Card → Card) : (updCard s k f).groups = s.groups := rfl
@[simp] theorem updCard_warps (s : State) (k : Nat) (f : Card → Card) : (updCard s k f).warps = s.warps := rfl
@[simp] theorem updCard_slots (s : State) (k : Nat) (f : Card → Card) : (updCard s k f).slots = s.slots := rfl
@[simp] theorem updCard_created (s : State) (k : Nat) (f : Card → Card) : (updCard s k f).created = s.created := rfl
@[simp] theorem updCard_forwards (s : State) (k : Nat) (f : Card → Card) : (updCard s k f).forwards = s.forwards := rfl
@[simp] theorem updCard_markers (s : State) (k : Nat) (f : Card → Card) : (updCard s k f).markers = s.markers := rfl

@[simp] theorem putSlot_agenda (s : State) (k : Nat) (x : Slot) : (putSlot s k x).agenda = s.agenda := rfl
@[simp] theorem putSlot_cur (s : State) (k : Nat) (x : Slot) : (putSlot s k x).cur = s.cur := rfl
@[simp] theorem putSlot_runs (s : State) (k : Nat) (x : Slot) : (putSlot s k x).runs = s.runs := rfl
@[simp] theorem putSlot_freeCtr (s : State) (k : Nat) (x : Slot) : (putSlot s k x).freeCtr = s.freeCtr := rfl
@[simp] theorem putSlot_mem (s : State) (k : Nat) (x : Slot) : (putSlot s k x).mem = s.mem := rfl
@[simp] theorem putSlot_hostMem (s : State) (k : Nat) (x : Slot) : (putSlot s k x).hostMem = s.hostMem := rfl
@[simp] theorem putSlot_msi (s : State) (k : Nat) (x : Slot) : (putSlot s k x).msi = s.msi := rfl
@[simp] theorem putSlot_pubs (s : State) (k : Nat) (x : Slot) : (putSlot s k x).pubs = s.pubs := rfl
@[simp] theorem putSlot_chips (s : State) (k : Nat) (x : Slot) : (putSlot s k x).chips = s.chips := rfl
@[simp] theorem putSlot_parts (s : State) (k : Nat) (x : Slot) : (putSlot s k x).parts = s.parts := rfl
@[simp] theorem putSlot_cards (s : State) (k : Nat) (x : Slot) : (putSlot s k x).cards = s.cards := rfl
@[simp] theorem putSlot_groups (s : State) (k : Nat) (x : Slot) : (putSlot s k x).groups = s.groups := rfl
@[simp] theorem putSlot_warps (s : State) (k : Nat) (x : Slot) : (putSlot s k x).warps = s.warps := rfl
@[simp] theorem putSlot_created (s : State) (k : Nat) (x : Slot) : (putSlot s k x).created = s.created := rfl
@[simp] theorem putSlot_forwards (s : State) (k : Nat) (x : Slot) : (putSlot s k x).forwards = s.forwards := rfl
@[simp] theorem putSlot_markers (s : State) (k : Nat) (x : Slot) : (putSlot s k x).markers = s.markers := rfl

@[simp] theorem addPub_agenda (s : State) (x : Pub) : (addPub s x).agenda = s.agenda := rfl
@[simp] theorem addPub_cur (s : State) (x : Pub) : (addPub s x).cur = s.cur := rfl
@[simp] theorem addPub_runs (s : State) (x : Pub) : (addPub s x).runs = s.runs := rfl
@[simp] theorem addPub_freeCtr (s : State) (x : Pub) : (addPub s x).freeCtr = s.freeCtr := rfl
@[simp] theorem addPub_mem (s : State) (x : Pub) : (addPub s x).mem = s.mem := rfl
@[simp] theorem addPub_hostMem (s : State) (x : Pub) : (addPub s x).hostMem = s.hostMem := rfl
@[simp] theorem addPub_msi (s : State) (x : Pub) : (addPub s x).msi = s.msi := rfl
@[simp] theorem addPub_chips (s : State) (x : Pub) : (addPub s x).chips = s.chips := rfl
@[simp] theorem addPub_parts (s : State) (x : Pub) : (addPub s x).parts = s.parts := rfl
@[simp] theorem addPub_cards (s : State) (x : Pub) : (addPub s x).cards = s.cards := rfl
@[simp] theorem addPub_groups (s : State) (x : Pub) : (addPub s x).groups = s.groups := rfl
@[simp] theorem addPub_warps (s : State) (x : Pub) : (addPub s x).warps = s.warps := rfl
@[simp] theorem addPub_slots (s : State) (x : Pub) : (addPub s x).slots = s.slots := rfl
@[simp] theorem addPub_created (s : State) (x : Pub) : (addPub s x).created = s.created := rfl
@[simp] theorem addPub_forwards (s : State) (x : Pub) : (addPub s x).forwards = s.forwards := rfl
@[simp] theorem addPub_markers (s : State) (x : Pub) : (addPub s x).markers = s.markers := rfl

/-! ## Fields of a warp -/

@[simp] theorem updFrag_ident (w : Warp) (g : Frag → Frag) : (updFrag w g).ident = w.ident := rfl
@[simp] theorem updFrag_stage (w : Warp) (g : Frag → Frag) : (updFrag w g).stage = w.stage := rfl
@[simp] theorem updFrag_width (w : Warp) (g : Frag → Frag) : (updFrag w g).width = w.width := rfl
@[simp] theorem updFrag_quantum (w : Warp) (g : Frag → Frag) : (updFrag w g).quantum = w.quantum := rfl
@[simp] theorem updFrag_clock (w : Warp) (g : Frag → Frag) : (updFrag w g).clock = w.clock := rfl
@[simp] theorem updFrag_run (w : Warp) (g : Frag → Frag) : (updFrag w g).run = w.run := rfl
@[simp] theorem updFrag_v (w : Warp) (g : Frag → Frag) : (updFrag w g).v = w.v := rfl
@[simp] theorem updFrag_s (w : Warp) (g : Frag → Frag) : (updFrag w g).s = w.s := rfl
@[simp] theorem updFrag_p (w : Warp) (g : Frag → Frag) : (updFrag w g).p = w.p := rfl
@[simp] theorem updFrag_j (w : Warp) (g : Frag → Frag) : (updFrag w g).j = w.j := rfl
@[simp] theorem updFrag_shadow (w : Warp) (g : Frag → Frag) : (updFrag w g).shadow = w.shadow := rfl
@[simp] theorem updFrag_allot (w : Warp) (g : Frag → Frag) : (updFrag w g).allot = w.allot := rfl
@[simp] theorem updFrag_fpstat (w : Warp) (g : Frag → Frag) : (updFrag w g).fpstat = w.fpstat := rfl
@[simp] theorem updFrag_lxstat (w : Warp) (g : Frag → Frag) : (updFrag w g).lxstat = w.lxstat := rfl
@[simp] theorem updFrag_mstat (w : Warp) (g : Frag → Frag) : (updFrag w g).mstat = w.mstat := rfl
@[simp] theorem updFrag_jstat (w : Warp) (g : Frag → Frag) : (updFrag w g).jstat = w.jstat := rfl
@[simp] theorem updFrag_repidx (w : Warp) (g : Frag → Frag) : (updFrag w g).repidx = w.repidx := rfl
@[simp] theorem updFrag_mstep (w : Warp) (g : Frag → Frag) : (updFrag w g).mstep = w.mstep := rfl
@[simp] theorem updFrag_mpc (w : Warp) (g : Frag → Frag) : (updFrag w g).mpc = w.mpc := rfl
@[simp] theorem updFrag_rep (w : Warp) (g : Frag → Frag) : (updFrag w g).rep = w.rep := rfl
@[simp] theorem updFrag_sys (w : Warp) (g : Frag → Frag) : (updFrag w g).sys = w.sys := rfl
@[simp] theorem updFrag_sec (w : Warp) (g : Frag → Frag) : (updFrag w g).sec = w.sec := rfl
@[simp] theorem updFrag_turn (w : Warp) (g : Frag → Frag) : (updFrag w g).turn = w.turn := rfl
@[simp] theorem updFrag_tvec (w : Warp) (g : Frag → Frag) : (updFrag w g).tvec = w.tvec := rfl
@[simp] theorem updFrag_tcause (w : Warp) (g : Frag → Frag) : (updFrag w g).tcause = w.tcause := rfl
@[simp] theorem updFrag_tpc (w : Warp) (g : Frag → Frag) : (updFrag w g).tpc = w.tpc := rfl
@[simp] theorem updFrag_tregion (w : Warp) (g : Frag → Frag) : (updFrag w g).tregion = w.tregion := rfl
@[simp] theorem updFrag_tfrag (w : Warp) (g : Frag → Frag) : (updFrag w g).tfrag = w.tfrag := rfl
@[simp] theorem updFrag_tsibs (w : Warp) (g : Frag → Frag) : (updFrag w g).tsibs = w.tsibs := rfl
@[simp] theorem updFrag_taddr (w : Warp) (g : Frag → Frag) : (updFrag w g).taddr = w.taddr := rfl
@[simp] theorem updFrag_tclock (w : Warp) (g : Frag → Frag) : (updFrag w g).tclock = w.tclock := rfl
@[simp] theorem updFrag_pending (w : Warp) (g : Frag → Frag) : (updFrag w g).pending = w.pending := rfl
@[simp] theorem updFrag_passed (w : Warp) (g : Frag → Frag) : (updFrag w g).passed = w.passed := rfl
@[simp] theorem updFrag_region (w : Warp) (g : Frag → Frag) : (updFrag w g).region = w.region := rfl
@[simp] theorem updFrag_outst (w : Warp) (g : Frag → Frag) : (updFrag w g).outst = w.outst := rfl
@[simp] theorem updFrag_pend (w : Warp) (g : Frag → Frag) : (updFrag w g).pend = w.pend := rfl
@[simp] theorem updFrag_unconf (w : Warp) (g : Frag → Frag) : (updFrag w g).unconf = w.unconf := rfl
@[simp] theorem updFrag_posted (w : Warp) (g : Frag → Frag) : (updFrag w g).posted = w.posted := rfl
@[simp] theorem updFrag_held (w : Warp) (g : Frag → Frag) : (updFrag w g).held = w.held := rfl
@[simp] theorem updFrag_hposted (w : Warp) (g : Frag → Frag) : (updFrag w g).hposted = w.hposted := rfl
@[simp] theorem updFrag_hheld (w : Warp) (g : Frag → Frag) : (updFrag w g).hheld = w.hheld := rfl
@[simp] theorem updFrag_late (w : Warp) (g : Frag → Frag) : (updFrag w g).late = w.late := rfl
@[simp] theorem updFrag_hand (w : Warp) (g : Frag → Frag) : (updFrag w g).hand = w.hand := rfl
@[simp] theorem updFrag_stat (w : Warp) (g : Frag → Frag) : (updFrag w g).stat = w.stat := rfl
@[simp] theorem updFrag_runLen (w : Warp) (g : Frag → Frag) : (updFrag w g).runLen = w.runLen := rfl
@[simp] theorem updFrag_slot (w : Warp) (g : Frag → Frag) : (updFrag w g).slot = w.slot := rfl
@[simp] theorem updFrag_entry (w : Warp) (g : Frag → Frag) : (updFrag w g).entry = w.entry := rfl
@[simp] theorem updFrag_haltReq (w : Warp) (g : Frag → Frag) : (updFrag w g).haltReq = w.haltReq := rfl
@[simp] theorem updFrag_halted (w : Warp) (g : Frag → Frag) : (updFrag w g).halted = w.halted := rfl
@[simp] theorem updFrag_preReq (w : Warp) (g : Frag → Frag) : (updFrag w g).preReq = w.preReq := rfl
@[simp] theorem updFrag_turns (w : Warp) (g : Frag → Frag) : (updFrag w g).turns = w.turns := rfl
@[simp] theorem updFrag_endClock (w : Warp) (g : Frag → Frag) : (updFrag w g).endClock = w.endClock := rfl

@[simp] theorem setPc_ident (w : Warp) (a : Dword) : (setPc w a).ident = w.ident := rfl
@[simp] theorem setPc_stage (w : Warp) (a : Dword) : (setPc w a).stage = w.stage := rfl
@[simp] theorem setPc_width (w : Warp) (a : Dword) : (setPc w a).width = w.width := rfl
@[simp] theorem setPc_quantum (w : Warp) (a : Dword) : (setPc w a).quantum = w.quantum := rfl
@[simp] theorem setPc_clock (w : Warp) (a : Dword) : (setPc w a).clock = w.clock := rfl
@[simp] theorem setPc_run (w : Warp) (a : Dword) : (setPc w a).run = w.run := rfl
@[simp] theorem setPc_v (w : Warp) (a : Dword) : (setPc w a).v = w.v := rfl
@[simp] theorem setPc_s (w : Warp) (a : Dword) : (setPc w a).s = w.s := rfl
@[simp] theorem setPc_p (w : Warp) (a : Dword) : (setPc w a).p = w.p := rfl
@[simp] theorem setPc_j (w : Warp) (a : Dword) : (setPc w a).j = w.j := rfl
@[simp] theorem setPc_shadow (w : Warp) (a : Dword) : (setPc w a).shadow = w.shadow := rfl
@[simp] theorem setPc_allot (w : Warp) (a : Dword) : (setPc w a).allot = w.allot := rfl
@[simp] theorem setPc_fpstat (w : Warp) (a : Dword) : (setPc w a).fpstat = w.fpstat := rfl
@[simp] theorem setPc_lxstat (w : Warp) (a : Dword) : (setPc w a).lxstat = w.lxstat := rfl
@[simp] theorem setPc_mstat (w : Warp) (a : Dword) : (setPc w a).mstat = w.mstat := rfl
@[simp] theorem setPc_jstat (w : Warp) (a : Dword) : (setPc w a).jstat = w.jstat := rfl
@[simp] theorem setPc_repidx (w : Warp) (a : Dword) : (setPc w a).repidx = w.repidx := rfl
@[simp] theorem setPc_mstep (w : Warp) (a : Dword) : (setPc w a).mstep = w.mstep := rfl
@[simp] theorem setPc_mpc (w : Warp) (a : Dword) : (setPc w a).mpc = w.mpc := rfl
@[simp] theorem setPc_rep (w : Warp) (a : Dword) : (setPc w a).rep = w.rep := rfl
@[simp] theorem setPc_sys (w : Warp) (a : Dword) : (setPc w a).sys = w.sys := rfl
@[simp] theorem setPc_sec (w : Warp) (a : Dword) : (setPc w a).sec = w.sec := rfl
@[simp] theorem setPc_turn (w : Warp) (a : Dword) : (setPc w a).turn = w.turn := rfl
@[simp] theorem setPc_tvec (w : Warp) (a : Dword) : (setPc w a).tvec = w.tvec := rfl
@[simp] theorem setPc_tcause (w : Warp) (a : Dword) : (setPc w a).tcause = w.tcause := rfl
@[simp] theorem setPc_tpc (w : Warp) (a : Dword) : (setPc w a).tpc = w.tpc := rfl
@[simp] theorem setPc_tregion (w : Warp) (a : Dword) : (setPc w a).tregion = w.tregion := rfl
@[simp] theorem setPc_tfrag (w : Warp) (a : Dword) : (setPc w a).tfrag = w.tfrag := rfl
@[simp] theorem setPc_tsibs (w : Warp) (a : Dword) : (setPc w a).tsibs = w.tsibs := rfl
@[simp] theorem setPc_taddr (w : Warp) (a : Dword) : (setPc w a).taddr = w.taddr := rfl
@[simp] theorem setPc_tclock (w : Warp) (a : Dword) : (setPc w a).tclock = w.tclock := rfl
@[simp] theorem setPc_pending (w : Warp) (a : Dword) : (setPc w a).pending = w.pending := rfl
@[simp] theorem setPc_passed (w : Warp) (a : Dword) : (setPc w a).passed = w.passed := rfl
@[simp] theorem setPc_region (w : Warp) (a : Dword) : (setPc w a).region = w.region := rfl
@[simp] theorem setPc_outst (w : Warp) (a : Dword) : (setPc w a).outst = w.outst := rfl
@[simp] theorem setPc_pend (w : Warp) (a : Dword) : (setPc w a).pend = w.pend := rfl
@[simp] theorem setPc_unconf (w : Warp) (a : Dword) : (setPc w a).unconf = w.unconf := rfl
@[simp] theorem setPc_posted (w : Warp) (a : Dword) : (setPc w a).posted = w.posted := rfl
@[simp] theorem setPc_held (w : Warp) (a : Dword) : (setPc w a).held = w.held := rfl
@[simp] theorem setPc_hposted (w : Warp) (a : Dword) : (setPc w a).hposted = w.hposted := rfl
@[simp] theorem setPc_hheld (w : Warp) (a : Dword) : (setPc w a).hheld = w.hheld := rfl
@[simp] theorem setPc_late (w : Warp) (a : Dword) : (setPc w a).late = w.late := rfl
@[simp] theorem setPc_hand (w : Warp) (a : Dword) : (setPc w a).hand = w.hand := rfl
@[simp] theorem setPc_stat (w : Warp) (a : Dword) : (setPc w a).stat = w.stat := rfl
@[simp] theorem setPc_runLen (w : Warp) (a : Dword) : (setPc w a).runLen = w.runLen := rfl
@[simp] theorem setPc_slot (w : Warp) (a : Dword) : (setPc w a).slot = w.slot := rfl
@[simp] theorem setPc_entry (w : Warp) (a : Dword) : (setPc w a).entry = w.entry := rfl
@[simp] theorem setPc_haltReq (w : Warp) (a : Dword) : (setPc w a).haltReq = w.haltReq := rfl
@[simp] theorem setPc_halted (w : Warp) (a : Dword) : (setPc w a).halted = w.halted := rfl
@[simp] theorem setPc_preReq (w : Warp) (a : Dword) : (setPc w a).preReq = w.preReq := rfl
@[simp] theorem setPc_turns (w : Warp) (a : Dword) : (setPc w a).turns = w.turns := rfl
@[simp] theorem setPc_endClock (w : Warp) (a : Dword) : (setPc w a).endClock = w.endClock := rfl

@[simp] theorem wrV_ident (w : Warp) (r l : Nat) (x : Word) : (wrV w r l x).ident = w.ident := rfl
@[simp] theorem wrV_stage (w : Warp) (r l : Nat) (x : Word) : (wrV w r l x).stage = w.stage := rfl
@[simp] theorem wrV_width (w : Warp) (r l : Nat) (x : Word) : (wrV w r l x).width = w.width := rfl
@[simp] theorem wrV_quantum (w : Warp) (r l : Nat) (x : Word) : (wrV w r l x).quantum = w.quantum := rfl
@[simp] theorem wrV_clock (w : Warp) (r l : Nat) (x : Word) : (wrV w r l x).clock = w.clock := rfl
@[simp] theorem wrV_frags (w : Warp) (r l : Nat) (x : Word) : (wrV w r l x).frags = w.frags := rfl
@[simp] theorem wrV_run (w : Warp) (r l : Nat) (x : Word) : (wrV w r l x).run = w.run := rfl
@[simp] theorem wrV_s (w : Warp) (r l : Nat) (x : Word) : (wrV w r l x).s = w.s := rfl
@[simp] theorem wrV_p (w : Warp) (r l : Nat) (x : Word) : (wrV w r l x).p = w.p := rfl
@[simp] theorem wrV_j (w : Warp) (r l : Nat) (x : Word) : (wrV w r l x).j = w.j := rfl
@[simp] theorem wrV_shadow (w : Warp) (r l : Nat) (x : Word) : (wrV w r l x).shadow = w.shadow := rfl
@[simp] theorem wrV_allot (w : Warp) (r l : Nat) (x : Word) : (wrV w r l x).allot = w.allot := rfl
@[simp] theorem wrV_fpstat (w : Warp) (r l : Nat) (x : Word) : (wrV w r l x).fpstat = w.fpstat := rfl
@[simp] theorem wrV_lxstat (w : Warp) (r l : Nat) (x : Word) : (wrV w r l x).lxstat = w.lxstat := rfl
@[simp] theorem wrV_mstat (w : Warp) (r l : Nat) (x : Word) : (wrV w r l x).mstat = w.mstat := rfl
@[simp] theorem wrV_jstat (w : Warp) (r l : Nat) (x : Word) : (wrV w r l x).jstat = w.jstat := rfl
@[simp] theorem wrV_repidx (w : Warp) (r l : Nat) (x : Word) : (wrV w r l x).repidx = w.repidx := rfl
@[simp] theorem wrV_mstep (w : Warp) (r l : Nat) (x : Word) : (wrV w r l x).mstep = w.mstep := rfl
@[simp] theorem wrV_mpc (w : Warp) (r l : Nat) (x : Word) : (wrV w r l x).mpc = w.mpc := rfl
@[simp] theorem wrV_rep (w : Warp) (r l : Nat) (x : Word) : (wrV w r l x).rep = w.rep := rfl
@[simp] theorem wrV_sys (w : Warp) (r l : Nat) (x : Word) : (wrV w r l x).sys = w.sys := rfl
@[simp] theorem wrV_sec (w : Warp) (r l : Nat) (x : Word) : (wrV w r l x).sec = w.sec := rfl
@[simp] theorem wrV_turn (w : Warp) (r l : Nat) (x : Word) : (wrV w r l x).turn = w.turn := rfl
@[simp] theorem wrV_tvec (w : Warp) (r l : Nat) (x : Word) : (wrV w r l x).tvec = w.tvec := rfl
@[simp] theorem wrV_tcause (w : Warp) (r l : Nat) (x : Word) : (wrV w r l x).tcause = w.tcause := rfl
@[simp] theorem wrV_tpc (w : Warp) (r l : Nat) (x : Word) : (wrV w r l x).tpc = w.tpc := rfl
@[simp] theorem wrV_tregion (w : Warp) (r l : Nat) (x : Word) : (wrV w r l x).tregion = w.tregion := rfl
@[simp] theorem wrV_tfrag (w : Warp) (r l : Nat) (x : Word) : (wrV w r l x).tfrag = w.tfrag := rfl
@[simp] theorem wrV_tsibs (w : Warp) (r l : Nat) (x : Word) : (wrV w r l x).tsibs = w.tsibs := rfl
@[simp] theorem wrV_taddr (w : Warp) (r l : Nat) (x : Word) : (wrV w r l x).taddr = w.taddr := rfl
@[simp] theorem wrV_tclock (w : Warp) (r l : Nat) (x : Word) : (wrV w r l x).tclock = w.tclock := rfl
@[simp] theorem wrV_pending (w : Warp) (r l : Nat) (x : Word) : (wrV w r l x).pending = w.pending := rfl
@[simp] theorem wrV_passed (w : Warp) (r l : Nat) (x : Word) : (wrV w r l x).passed = w.passed := rfl
@[simp] theorem wrV_region (w : Warp) (r l : Nat) (x : Word) : (wrV w r l x).region = w.region := rfl
@[simp] theorem wrV_outst (w : Warp) (r l : Nat) (x : Word) : (wrV w r l x).outst = w.outst := rfl
@[simp] theorem wrV_pend (w : Warp) (r l : Nat) (x : Word) : (wrV w r l x).pend = w.pend := rfl
@[simp] theorem wrV_unconf (w : Warp) (r l : Nat) (x : Word) : (wrV w r l x).unconf = w.unconf := rfl
@[simp] theorem wrV_posted (w : Warp) (r l : Nat) (x : Word) : (wrV w r l x).posted = w.posted := rfl
@[simp] theorem wrV_held (w : Warp) (r l : Nat) (x : Word) : (wrV w r l x).held = w.held := rfl
@[simp] theorem wrV_hposted (w : Warp) (r l : Nat) (x : Word) : (wrV w r l x).hposted = w.hposted := rfl
@[simp] theorem wrV_hheld (w : Warp) (r l : Nat) (x : Word) : (wrV w r l x).hheld = w.hheld := rfl
@[simp] theorem wrV_late (w : Warp) (r l : Nat) (x : Word) : (wrV w r l x).late = w.late := rfl
@[simp] theorem wrV_hand (w : Warp) (r l : Nat) (x : Word) : (wrV w r l x).hand = w.hand := rfl
@[simp] theorem wrV_stat (w : Warp) (r l : Nat) (x : Word) : (wrV w r l x).stat = w.stat := rfl
@[simp] theorem wrV_runLen (w : Warp) (r l : Nat) (x : Word) : (wrV w r l x).runLen = w.runLen := rfl
@[simp] theorem wrV_slot (w : Warp) (r l : Nat) (x : Word) : (wrV w r l x).slot = w.slot := rfl
@[simp] theorem wrV_entry (w : Warp) (r l : Nat) (x : Word) : (wrV w r l x).entry = w.entry := rfl
@[simp] theorem wrV_haltReq (w : Warp) (r l : Nat) (x : Word) : (wrV w r l x).haltReq = w.haltReq := rfl
@[simp] theorem wrV_halted (w : Warp) (r l : Nat) (x : Word) : (wrV w r l x).halted = w.halted := rfl
@[simp] theorem wrV_preReq (w : Warp) (r l : Nat) (x : Word) : (wrV w r l x).preReq = w.preReq := rfl
@[simp] theorem wrV_turns (w : Warp) (r l : Nat) (x : Word) : (wrV w r l x).turns = w.turns := rfl
@[simp] theorem wrV_endClock (w : Warp) (r l : Nat) (x : Word) : (wrV w r l x).endClock = w.endClock := rfl

@[simp] theorem wrVV_ident (w : Warp) (r l : Nat) (x : Dword) : (wrVV w r l x).ident = w.ident := rfl
@[simp] theorem wrVV_stage (w : Warp) (r l : Nat) (x : Dword) : (wrVV w r l x).stage = w.stage := rfl
@[simp] theorem wrVV_width (w : Warp) (r l : Nat) (x : Dword) : (wrVV w r l x).width = w.width := rfl
@[simp] theorem wrVV_quantum (w : Warp) (r l : Nat) (x : Dword) : (wrVV w r l x).quantum = w.quantum := rfl
@[simp] theorem wrVV_clock (w : Warp) (r l : Nat) (x : Dword) : (wrVV w r l x).clock = w.clock := rfl
@[simp] theorem wrVV_frags (w : Warp) (r l : Nat) (x : Dword) : (wrVV w r l x).frags = w.frags := rfl
@[simp] theorem wrVV_run (w : Warp) (r l : Nat) (x : Dword) : (wrVV w r l x).run = w.run := rfl
@[simp] theorem wrVV_s (w : Warp) (r l : Nat) (x : Dword) : (wrVV w r l x).s = w.s := rfl
@[simp] theorem wrVV_p (w : Warp) (r l : Nat) (x : Dword) : (wrVV w r l x).p = w.p := rfl
@[simp] theorem wrVV_j (w : Warp) (r l : Nat) (x : Dword) : (wrVV w r l x).j = w.j := rfl
@[simp] theorem wrVV_shadow (w : Warp) (r l : Nat) (x : Dword) : (wrVV w r l x).shadow = w.shadow := rfl
@[simp] theorem wrVV_allot (w : Warp) (r l : Nat) (x : Dword) : (wrVV w r l x).allot = w.allot := rfl
@[simp] theorem wrVV_fpstat (w : Warp) (r l : Nat) (x : Dword) : (wrVV w r l x).fpstat = w.fpstat := rfl
@[simp] theorem wrVV_lxstat (w : Warp) (r l : Nat) (x : Dword) : (wrVV w r l x).lxstat = w.lxstat := rfl
@[simp] theorem wrVV_mstat (w : Warp) (r l : Nat) (x : Dword) : (wrVV w r l x).mstat = w.mstat := rfl
@[simp] theorem wrVV_jstat (w : Warp) (r l : Nat) (x : Dword) : (wrVV w r l x).jstat = w.jstat := rfl
@[simp] theorem wrVV_repidx (w : Warp) (r l : Nat) (x : Dword) : (wrVV w r l x).repidx = w.repidx := rfl
@[simp] theorem wrVV_mstep (w : Warp) (r l : Nat) (x : Dword) : (wrVV w r l x).mstep = w.mstep := rfl
@[simp] theorem wrVV_mpc (w : Warp) (r l : Nat) (x : Dword) : (wrVV w r l x).mpc = w.mpc := rfl
@[simp] theorem wrVV_rep (w : Warp) (r l : Nat) (x : Dword) : (wrVV w r l x).rep = w.rep := rfl
@[simp] theorem wrVV_sys (w : Warp) (r l : Nat) (x : Dword) : (wrVV w r l x).sys = w.sys := rfl
@[simp] theorem wrVV_sec (w : Warp) (r l : Nat) (x : Dword) : (wrVV w r l x).sec = w.sec := rfl
@[simp] theorem wrVV_turn (w : Warp) (r l : Nat) (x : Dword) : (wrVV w r l x).turn = w.turn := rfl
@[simp] theorem wrVV_tvec (w : Warp) (r l : Nat) (x : Dword) : (wrVV w r l x).tvec = w.tvec := rfl
@[simp] theorem wrVV_tcause (w : Warp) (r l : Nat) (x : Dword) : (wrVV w r l x).tcause = w.tcause := rfl
@[simp] theorem wrVV_tpc (w : Warp) (r l : Nat) (x : Dword) : (wrVV w r l x).tpc = w.tpc := rfl
@[simp] theorem wrVV_tregion (w : Warp) (r l : Nat) (x : Dword) : (wrVV w r l x).tregion = w.tregion := rfl
@[simp] theorem wrVV_tfrag (w : Warp) (r l : Nat) (x : Dword) : (wrVV w r l x).tfrag = w.tfrag := rfl
@[simp] theorem wrVV_tsibs (w : Warp) (r l : Nat) (x : Dword) : (wrVV w r l x).tsibs = w.tsibs := rfl
@[simp] theorem wrVV_taddr (w : Warp) (r l : Nat) (x : Dword) : (wrVV w r l x).taddr = w.taddr := rfl
@[simp] theorem wrVV_tclock (w : Warp) (r l : Nat) (x : Dword) : (wrVV w r l x).tclock = w.tclock := rfl
@[simp] theorem wrVV_pending (w : Warp) (r l : Nat) (x : Dword) : (wrVV w r l x).pending = w.pending := rfl
@[simp] theorem wrVV_passed (w : Warp) (r l : Nat) (x : Dword) : (wrVV w r l x).passed = w.passed := rfl
@[simp] theorem wrVV_region (w : Warp) (r l : Nat) (x : Dword) : (wrVV w r l x).region = w.region := rfl
@[simp] theorem wrVV_outst (w : Warp) (r l : Nat) (x : Dword) : (wrVV w r l x).outst = w.outst := rfl
@[simp] theorem wrVV_pend (w : Warp) (r l : Nat) (x : Dword) : (wrVV w r l x).pend = w.pend := rfl
@[simp] theorem wrVV_unconf (w : Warp) (r l : Nat) (x : Dword) : (wrVV w r l x).unconf = w.unconf := rfl
@[simp] theorem wrVV_posted (w : Warp) (r l : Nat) (x : Dword) : (wrVV w r l x).posted = w.posted := rfl
@[simp] theorem wrVV_held (w : Warp) (r l : Nat) (x : Dword) : (wrVV w r l x).held = w.held := rfl
@[simp] theorem wrVV_hposted (w : Warp) (r l : Nat) (x : Dword) : (wrVV w r l x).hposted = w.hposted := rfl
@[simp] theorem wrVV_hheld (w : Warp) (r l : Nat) (x : Dword) : (wrVV w r l x).hheld = w.hheld := rfl
@[simp] theorem wrVV_late (w : Warp) (r l : Nat) (x : Dword) : (wrVV w r l x).late = w.late := rfl
@[simp] theorem wrVV_hand (w : Warp) (r l : Nat) (x : Dword) : (wrVV w r l x).hand = w.hand := rfl
@[simp] theorem wrVV_stat (w : Warp) (r l : Nat) (x : Dword) : (wrVV w r l x).stat = w.stat := rfl
@[simp] theorem wrVV_runLen (w : Warp) (r l : Nat) (x : Dword) : (wrVV w r l x).runLen = w.runLen := rfl
@[simp] theorem wrVV_slot (w : Warp) (r l : Nat) (x : Dword) : (wrVV w r l x).slot = w.slot := rfl
@[simp] theorem wrVV_entry (w : Warp) (r l : Nat) (x : Dword) : (wrVV w r l x).entry = w.entry := rfl
@[simp] theorem wrVV_haltReq (w : Warp) (r l : Nat) (x : Dword) : (wrVV w r l x).haltReq = w.haltReq := rfl
@[simp] theorem wrVV_halted (w : Warp) (r l : Nat) (x : Dword) : (wrVV w r l x).halted = w.halted := rfl
@[simp] theorem wrVV_preReq (w : Warp) (r l : Nat) (x : Dword) : (wrVV w r l x).preReq = w.preReq := rfl
@[simp] theorem wrVV_turns (w : Warp) (r l : Nat) (x : Dword) : (wrVV w r l x).turns = w.turns := rfl
@[simp] theorem wrVV_endClock (w : Warp) (r l : Nat) (x : Dword) : (wrVV w r l x).endClock = w.endClock := rfl

@[simp] theorem wrJ_ident (w : Warp) (n : Nat) (x : JReg) : (wrJ w n x).ident = w.ident := rfl
@[simp] theorem wrJ_stage (w : Warp) (n : Nat) (x : JReg) : (wrJ w n x).stage = w.stage := rfl
@[simp] theorem wrJ_width (w : Warp) (n : Nat) (x : JReg) : (wrJ w n x).width = w.width := rfl
@[simp] theorem wrJ_quantum (w : Warp) (n : Nat) (x : JReg) : (wrJ w n x).quantum = w.quantum := rfl
@[simp] theorem wrJ_clock (w : Warp) (n : Nat) (x : JReg) : (wrJ w n x).clock = w.clock := rfl
@[simp] theorem wrJ_frags (w : Warp) (n : Nat) (x : JReg) : (wrJ w n x).frags = w.frags := rfl
@[simp] theorem wrJ_run (w : Warp) (n : Nat) (x : JReg) : (wrJ w n x).run = w.run := rfl
@[simp] theorem wrJ_v (w : Warp) (n : Nat) (x : JReg) : (wrJ w n x).v = w.v := rfl
@[simp] theorem wrJ_s (w : Warp) (n : Nat) (x : JReg) : (wrJ w n x).s = w.s := rfl
@[simp] theorem wrJ_p (w : Warp) (n : Nat) (x : JReg) : (wrJ w n x).p = w.p := rfl
@[simp] theorem wrJ_shadow (w : Warp) (n : Nat) (x : JReg) : (wrJ w n x).shadow = w.shadow := rfl
@[simp] theorem wrJ_allot (w : Warp) (n : Nat) (x : JReg) : (wrJ w n x).allot = w.allot := rfl
@[simp] theorem wrJ_fpstat (w : Warp) (n : Nat) (x : JReg) : (wrJ w n x).fpstat = w.fpstat := rfl
@[simp] theorem wrJ_lxstat (w : Warp) (n : Nat) (x : JReg) : (wrJ w n x).lxstat = w.lxstat := rfl
@[simp] theorem wrJ_mstat (w : Warp) (n : Nat) (x : JReg) : (wrJ w n x).mstat = w.mstat := rfl
@[simp] theorem wrJ_jstat (w : Warp) (n : Nat) (x : JReg) : (wrJ w n x).jstat = w.jstat := rfl
@[simp] theorem wrJ_repidx (w : Warp) (n : Nat) (x : JReg) : (wrJ w n x).repidx = w.repidx := rfl
@[simp] theorem wrJ_mstep (w : Warp) (n : Nat) (x : JReg) : (wrJ w n x).mstep = w.mstep := rfl
@[simp] theorem wrJ_mpc (w : Warp) (n : Nat) (x : JReg) : (wrJ w n x).mpc = w.mpc := rfl
@[simp] theorem wrJ_rep (w : Warp) (n : Nat) (x : JReg) : (wrJ w n x).rep = w.rep := rfl
@[simp] theorem wrJ_sys (w : Warp) (n : Nat) (x : JReg) : (wrJ w n x).sys = w.sys := rfl
@[simp] theorem wrJ_sec (w : Warp) (n : Nat) (x : JReg) : (wrJ w n x).sec = w.sec := rfl
@[simp] theorem wrJ_turn (w : Warp) (n : Nat) (x : JReg) : (wrJ w n x).turn = w.turn := rfl
@[simp] theorem wrJ_tvec (w : Warp) (n : Nat) (x : JReg) : (wrJ w n x).tvec = w.tvec := rfl
@[simp] theorem wrJ_tcause (w : Warp) (n : Nat) (x : JReg) : (wrJ w n x).tcause = w.tcause := rfl
@[simp] theorem wrJ_tpc (w : Warp) (n : Nat) (x : JReg) : (wrJ w n x).tpc = w.tpc := rfl
@[simp] theorem wrJ_tregion (w : Warp) (n : Nat) (x : JReg) : (wrJ w n x).tregion = w.tregion := rfl
@[simp] theorem wrJ_tfrag (w : Warp) (n : Nat) (x : JReg) : (wrJ w n x).tfrag = w.tfrag := rfl
@[simp] theorem wrJ_tsibs (w : Warp) (n : Nat) (x : JReg) : (wrJ w n x).tsibs = w.tsibs := rfl
@[simp] theorem wrJ_taddr (w : Warp) (n : Nat) (x : JReg) : (wrJ w n x).taddr = w.taddr := rfl
@[simp] theorem wrJ_tclock (w : Warp) (n : Nat) (x : JReg) : (wrJ w n x).tclock = w.tclock := rfl
@[simp] theorem wrJ_pending (w : Warp) (n : Nat) (x : JReg) : (wrJ w n x).pending = w.pending := rfl
@[simp] theorem wrJ_passed (w : Warp) (n : Nat) (x : JReg) : (wrJ w n x).passed = w.passed := rfl
@[simp] theorem wrJ_region (w : Warp) (n : Nat) (x : JReg) : (wrJ w n x).region = w.region := rfl
@[simp] theorem wrJ_outst (w : Warp) (n : Nat) (x : JReg) : (wrJ w n x).outst = w.outst := rfl
@[simp] theorem wrJ_pend (w : Warp) (n : Nat) (x : JReg) : (wrJ w n x).pend = w.pend := rfl
@[simp] theorem wrJ_unconf (w : Warp) (n : Nat) (x : JReg) : (wrJ w n x).unconf = w.unconf := rfl
@[simp] theorem wrJ_posted (w : Warp) (n : Nat) (x : JReg) : (wrJ w n x).posted = w.posted := rfl
@[simp] theorem wrJ_held (w : Warp) (n : Nat) (x : JReg) : (wrJ w n x).held = w.held := rfl
@[simp] theorem wrJ_hposted (w : Warp) (n : Nat) (x : JReg) : (wrJ w n x).hposted = w.hposted := rfl
@[simp] theorem wrJ_hheld (w : Warp) (n : Nat) (x : JReg) : (wrJ w n x).hheld = w.hheld := rfl
@[simp] theorem wrJ_late (w : Warp) (n : Nat) (x : JReg) : (wrJ w n x).late = w.late := rfl
@[simp] theorem wrJ_hand (w : Warp) (n : Nat) (x : JReg) : (wrJ w n x).hand = w.hand := rfl
@[simp] theorem wrJ_stat (w : Warp) (n : Nat) (x : JReg) : (wrJ w n x).stat = w.stat := rfl
@[simp] theorem wrJ_runLen (w : Warp) (n : Nat) (x : JReg) : (wrJ w n x).runLen = w.runLen := rfl
@[simp] theorem wrJ_slot (w : Warp) (n : Nat) (x : JReg) : (wrJ w n x).slot = w.slot := rfl
@[simp] theorem wrJ_entry (w : Warp) (n : Nat) (x : JReg) : (wrJ w n x).entry = w.entry := rfl
@[simp] theorem wrJ_haltReq (w : Warp) (n : Nat) (x : JReg) : (wrJ w n x).haltReq = w.haltReq := rfl
@[simp] theorem wrJ_halted (w : Warp) (n : Nat) (x : JReg) : (wrJ w n x).halted = w.halted := rfl
@[simp] theorem wrJ_preReq (w : Warp) (n : Nat) (x : JReg) : (wrJ w n x).preReq = w.preReq := rfl
@[simp] theorem wrJ_turns (w : Warp) (n : Nat) (x : JReg) : (wrJ w n x).turns = w.turns := rfl
@[simp] theorem wrJ_endClock (w : Warp) (n : Nat) (x : JReg) : (wrJ w n x).endClock = w.endClock := rfl

@[simp] theorem raiseFp_ident (w : Warp) (n : Nat) : (raiseFp w n).ident = w.ident := rfl
@[simp] theorem raiseFp_stage (w : Warp) (n : Nat) : (raiseFp w n).stage = w.stage := rfl
@[simp] theorem raiseFp_width (w : Warp) (n : Nat) : (raiseFp w n).width = w.width := rfl
@[simp] theorem raiseFp_quantum (w : Warp) (n : Nat) : (raiseFp w n).quantum = w.quantum := rfl
@[simp] theorem raiseFp_clock (w : Warp) (n : Nat) : (raiseFp w n).clock = w.clock := rfl
@[simp] theorem raiseFp_frags (w : Warp) (n : Nat) : (raiseFp w n).frags = w.frags := rfl
@[simp] theorem raiseFp_run (w : Warp) (n : Nat) : (raiseFp w n).run = w.run := rfl
@[simp] theorem raiseFp_v (w : Warp) (n : Nat) : (raiseFp w n).v = w.v := rfl
@[simp] theorem raiseFp_s (w : Warp) (n : Nat) : (raiseFp w n).s = w.s := rfl
@[simp] theorem raiseFp_p (w : Warp) (n : Nat) : (raiseFp w n).p = w.p := rfl
@[simp] theorem raiseFp_j (w : Warp) (n : Nat) : (raiseFp w n).j = w.j := rfl
@[simp] theorem raiseFp_shadow (w : Warp) (n : Nat) : (raiseFp w n).shadow = w.shadow := rfl
@[simp] theorem raiseFp_allot (w : Warp) (n : Nat) : (raiseFp w n).allot = w.allot := rfl
@[simp] theorem raiseFp_lxstat (w : Warp) (n : Nat) : (raiseFp w n).lxstat = w.lxstat := rfl
@[simp] theorem raiseFp_mstat (w : Warp) (n : Nat) : (raiseFp w n).mstat = w.mstat := rfl
@[simp] theorem raiseFp_jstat (w : Warp) (n : Nat) : (raiseFp w n).jstat = w.jstat := rfl
@[simp] theorem raiseFp_repidx (w : Warp) (n : Nat) : (raiseFp w n).repidx = w.repidx := rfl
@[simp] theorem raiseFp_mstep (w : Warp) (n : Nat) : (raiseFp w n).mstep = w.mstep := rfl
@[simp] theorem raiseFp_mpc (w : Warp) (n : Nat) : (raiseFp w n).mpc = w.mpc := rfl
@[simp] theorem raiseFp_rep (w : Warp) (n : Nat) : (raiseFp w n).rep = w.rep := rfl
@[simp] theorem raiseFp_sys (w : Warp) (n : Nat) : (raiseFp w n).sys = w.sys := rfl
@[simp] theorem raiseFp_sec (w : Warp) (n : Nat) : (raiseFp w n).sec = w.sec := rfl
@[simp] theorem raiseFp_turn (w : Warp) (n : Nat) : (raiseFp w n).turn = w.turn := rfl
@[simp] theorem raiseFp_tvec (w : Warp) (n : Nat) : (raiseFp w n).tvec = w.tvec := rfl
@[simp] theorem raiseFp_tcause (w : Warp) (n : Nat) : (raiseFp w n).tcause = w.tcause := rfl
@[simp] theorem raiseFp_tpc (w : Warp) (n : Nat) : (raiseFp w n).tpc = w.tpc := rfl
@[simp] theorem raiseFp_tregion (w : Warp) (n : Nat) : (raiseFp w n).tregion = w.tregion := rfl
@[simp] theorem raiseFp_tfrag (w : Warp) (n : Nat) : (raiseFp w n).tfrag = w.tfrag := rfl
@[simp] theorem raiseFp_tsibs (w : Warp) (n : Nat) : (raiseFp w n).tsibs = w.tsibs := rfl
@[simp] theorem raiseFp_taddr (w : Warp) (n : Nat) : (raiseFp w n).taddr = w.taddr := rfl
@[simp] theorem raiseFp_tclock (w : Warp) (n : Nat) : (raiseFp w n).tclock = w.tclock := rfl
@[simp] theorem raiseFp_pending (w : Warp) (n : Nat) : (raiseFp w n).pending = w.pending := rfl
@[simp] theorem raiseFp_passed (w : Warp) (n : Nat) : (raiseFp w n).passed = w.passed := rfl
@[simp] theorem raiseFp_region (w : Warp) (n : Nat) : (raiseFp w n).region = w.region := rfl
@[simp] theorem raiseFp_outst (w : Warp) (n : Nat) : (raiseFp w n).outst = w.outst := rfl
@[simp] theorem raiseFp_pend (w : Warp) (n : Nat) : (raiseFp w n).pend = w.pend := rfl
@[simp] theorem raiseFp_unconf (w : Warp) (n : Nat) : (raiseFp w n).unconf = w.unconf := rfl
@[simp] theorem raiseFp_posted (w : Warp) (n : Nat) : (raiseFp w n).posted = w.posted := rfl
@[simp] theorem raiseFp_held (w : Warp) (n : Nat) : (raiseFp w n).held = w.held := rfl
@[simp] theorem raiseFp_hposted (w : Warp) (n : Nat) : (raiseFp w n).hposted = w.hposted := rfl
@[simp] theorem raiseFp_hheld (w : Warp) (n : Nat) : (raiseFp w n).hheld = w.hheld := rfl
@[simp] theorem raiseFp_late (w : Warp) (n : Nat) : (raiseFp w n).late = w.late := rfl
@[simp] theorem raiseFp_hand (w : Warp) (n : Nat) : (raiseFp w n).hand = w.hand := rfl
@[simp] theorem raiseFp_stat (w : Warp) (n : Nat) : (raiseFp w n).stat = w.stat := rfl
@[simp] theorem raiseFp_runLen (w : Warp) (n : Nat) : (raiseFp w n).runLen = w.runLen := rfl
@[simp] theorem raiseFp_slot (w : Warp) (n : Nat) : (raiseFp w n).slot = w.slot := rfl
@[simp] theorem raiseFp_entry (w : Warp) (n : Nat) : (raiseFp w n).entry = w.entry := rfl
@[simp] theorem raiseFp_haltReq (w : Warp) (n : Nat) : (raiseFp w n).haltReq = w.haltReq := rfl
@[simp] theorem raiseFp_halted (w : Warp) (n : Nat) : (raiseFp w n).halted = w.halted := rfl
@[simp] theorem raiseFp_preReq (w : Warp) (n : Nat) : (raiseFp w n).preReq = w.preReq := rfl
@[simp] theorem raiseFp_turns (w : Warp) (n : Nat) : (raiseFp w n).turns = w.turns := rfl
@[simp] theorem raiseFp_endClock (w : Warp) (n : Nat) : (raiseFp w n).endClock = w.endClock := rfl

@[simp] theorem wrS_ident (w : Warp) (r : Nat) (x : Dword) : (wrS w r x).ident = w.ident := by unfold wrS; split <;> [rfl; (split <;> rfl)]
@[simp] theorem wrS_stage (w : Warp) (r : Nat) (x : Dword) : (wrS w r x).stage = w.stage := by unfold wrS; split <;> [rfl; (split <;> rfl)]
@[simp] theorem wrS_width (w : Warp) (r : Nat) (x : Dword) : (wrS w r x).width = w.width := by unfold wrS; split <;> [rfl; (split <;> rfl)]
@[simp] theorem wrS_quantum (w : Warp) (r : Nat) (x : Dword) : (wrS w r x).quantum = w.quantum := by unfold wrS; split <;> [rfl; (split <;> rfl)]
@[simp] theorem wrS_clock (w : Warp) (r : Nat) (x : Dword) : (wrS w r x).clock = w.clock := by unfold wrS; split <;> [rfl; (split <;> rfl)]
@[simp] theorem wrS_frags (w : Warp) (r : Nat) (x : Dword) : (wrS w r x).frags = w.frags := by unfold wrS; split <;> [rfl; (split <;> rfl)]
@[simp] theorem wrS_run (w : Warp) (r : Nat) (x : Dword) : (wrS w r x).run = w.run := by unfold wrS; split <;> [rfl; (split <;> rfl)]
@[simp] theorem wrS_v (w : Warp) (r : Nat) (x : Dword) : (wrS w r x).v = w.v := by unfold wrS; split <;> [rfl; (split <;> rfl)]
@[simp] theorem wrS_p (w : Warp) (r : Nat) (x : Dword) : (wrS w r x).p = w.p := by unfold wrS; split <;> [rfl; (split <;> rfl)]
@[simp] theorem wrS_j (w : Warp) (r : Nat) (x : Dword) : (wrS w r x).j = w.j := by unfold wrS; split <;> [rfl; (split <;> rfl)]
@[simp] theorem wrS_allot (w : Warp) (r : Nat) (x : Dword) : (wrS w r x).allot = w.allot := by unfold wrS; split <;> [rfl; (split <;> rfl)]
@[simp] theorem wrS_fpstat (w : Warp) (r : Nat) (x : Dword) : (wrS w r x).fpstat = w.fpstat := by unfold wrS; split <;> [rfl; (split <;> rfl)]
@[simp] theorem wrS_lxstat (w : Warp) (r : Nat) (x : Dword) : (wrS w r x).lxstat = w.lxstat := by unfold wrS; split <;> [rfl; (split <;> rfl)]
@[simp] theorem wrS_mstat (w : Warp) (r : Nat) (x : Dword) : (wrS w r x).mstat = w.mstat := by unfold wrS; split <;> [rfl; (split <;> rfl)]
@[simp] theorem wrS_jstat (w : Warp) (r : Nat) (x : Dword) : (wrS w r x).jstat = w.jstat := by unfold wrS; split <;> [rfl; (split <;> rfl)]
@[simp] theorem wrS_repidx (w : Warp) (r : Nat) (x : Dword) : (wrS w r x).repidx = w.repidx := by unfold wrS; split <;> [rfl; (split <;> rfl)]
@[simp] theorem wrS_mstep (w : Warp) (r : Nat) (x : Dword) : (wrS w r x).mstep = w.mstep := by unfold wrS; split <;> [rfl; (split <;> rfl)]
@[simp] theorem wrS_mpc (w : Warp) (r : Nat) (x : Dword) : (wrS w r x).mpc = w.mpc := by unfold wrS; split <;> [rfl; (split <;> rfl)]
@[simp] theorem wrS_rep (w : Warp) (r : Nat) (x : Dword) : (wrS w r x).rep = w.rep := by unfold wrS; split <;> [rfl; (split <;> rfl)]
@[simp] theorem wrS_sys (w : Warp) (r : Nat) (x : Dword) : (wrS w r x).sys = w.sys := by unfold wrS; split <;> [rfl; (split <;> rfl)]
@[simp] theorem wrS_sec (w : Warp) (r : Nat) (x : Dword) : (wrS w r x).sec = w.sec := by unfold wrS; split <;> [rfl; (split <;> rfl)]
@[simp] theorem wrS_turn (w : Warp) (r : Nat) (x : Dword) : (wrS w r x).turn = w.turn := by unfold wrS; split <;> [rfl; (split <;> rfl)]
@[simp] theorem wrS_tvec (w : Warp) (r : Nat) (x : Dword) : (wrS w r x).tvec = w.tvec := by unfold wrS; split <;> [rfl; (split <;> rfl)]
@[simp] theorem wrS_tcause (w : Warp) (r : Nat) (x : Dword) : (wrS w r x).tcause = w.tcause := by unfold wrS; split <;> [rfl; (split <;> rfl)]
@[simp] theorem wrS_tpc (w : Warp) (r : Nat) (x : Dword) : (wrS w r x).tpc = w.tpc := by unfold wrS; split <;> [rfl; (split <;> rfl)]
@[simp] theorem wrS_tregion (w : Warp) (r : Nat) (x : Dword) : (wrS w r x).tregion = w.tregion := by unfold wrS; split <;> [rfl; (split <;> rfl)]
@[simp] theorem wrS_tfrag (w : Warp) (r : Nat) (x : Dword) : (wrS w r x).tfrag = w.tfrag := by unfold wrS; split <;> [rfl; (split <;> rfl)]
@[simp] theorem wrS_tsibs (w : Warp) (r : Nat) (x : Dword) : (wrS w r x).tsibs = w.tsibs := by unfold wrS; split <;> [rfl; (split <;> rfl)]
@[simp] theorem wrS_taddr (w : Warp) (r : Nat) (x : Dword) : (wrS w r x).taddr = w.taddr := by unfold wrS; split <;> [rfl; (split <;> rfl)]
@[simp] theorem wrS_tclock (w : Warp) (r : Nat) (x : Dword) : (wrS w r x).tclock = w.tclock := by unfold wrS; split <;> [rfl; (split <;> rfl)]
@[simp] theorem wrS_pending (w : Warp) (r : Nat) (x : Dword) : (wrS w r x).pending = w.pending := by unfold wrS; split <;> [rfl; (split <;> rfl)]
@[simp] theorem wrS_passed (w : Warp) (r : Nat) (x : Dword) : (wrS w r x).passed = w.passed := by unfold wrS; split <;> [rfl; (split <;> rfl)]
@[simp] theorem wrS_region (w : Warp) (r : Nat) (x : Dword) : (wrS w r x).region = w.region := by unfold wrS; split <;> [rfl; (split <;> rfl)]
@[simp] theorem wrS_outst (w : Warp) (r : Nat) (x : Dword) : (wrS w r x).outst = w.outst := by unfold wrS; split <;> [rfl; (split <;> rfl)]
@[simp] theorem wrS_pend (w : Warp) (r : Nat) (x : Dword) : (wrS w r x).pend = w.pend := by unfold wrS; split <;> [rfl; (split <;> rfl)]
@[simp] theorem wrS_unconf (w : Warp) (r : Nat) (x : Dword) : (wrS w r x).unconf = w.unconf := by unfold wrS; split <;> [rfl; (split <;> rfl)]
@[simp] theorem wrS_posted (w : Warp) (r : Nat) (x : Dword) : (wrS w r x).posted = w.posted := by unfold wrS; split <;> [rfl; (split <;> rfl)]
@[simp] theorem wrS_held (w : Warp) (r : Nat) (x : Dword) : (wrS w r x).held = w.held := by unfold wrS; split <;> [rfl; (split <;> rfl)]
@[simp] theorem wrS_hposted (w : Warp) (r : Nat) (x : Dword) : (wrS w r x).hposted = w.hposted := by unfold wrS; split <;> [rfl; (split <;> rfl)]
@[simp] theorem wrS_hheld (w : Warp) (r : Nat) (x : Dword) : (wrS w r x).hheld = w.hheld := by unfold wrS; split <;> [rfl; (split <;> rfl)]
@[simp] theorem wrS_late (w : Warp) (r : Nat) (x : Dword) : (wrS w r x).late = w.late := by unfold wrS; split <;> [rfl; (split <;> rfl)]
@[simp] theorem wrS_hand (w : Warp) (r : Nat) (x : Dword) : (wrS w r x).hand = w.hand := by unfold wrS; split <;> [rfl; (split <;> rfl)]
@[simp] theorem wrS_stat (w : Warp) (r : Nat) (x : Dword) : (wrS w r x).stat = w.stat := by unfold wrS; split <;> [rfl; (split <;> rfl)]
@[simp] theorem wrS_runLen (w : Warp) (r : Nat) (x : Dword) : (wrS w r x).runLen = w.runLen := by unfold wrS; split <;> [rfl; (split <;> rfl)]
@[simp] theorem wrS_slot (w : Warp) (r : Nat) (x : Dword) : (wrS w r x).slot = w.slot := by unfold wrS; split <;> [rfl; (split <;> rfl)]
@[simp] theorem wrS_entry (w : Warp) (r : Nat) (x : Dword) : (wrS w r x).entry = w.entry := by unfold wrS; split <;> [rfl; (split <;> rfl)]
@[simp] theorem wrS_haltReq (w : Warp) (r : Nat) (x : Dword) : (wrS w r x).haltReq = w.haltReq := by unfold wrS; split <;> [rfl; (split <;> rfl)]
@[simp] theorem wrS_halted (w : Warp) (r : Nat) (x : Dword) : (wrS w r x).halted = w.halted := by unfold wrS; split <;> [rfl; (split <;> rfl)]
@[simp] theorem wrS_preReq (w : Warp) (r : Nat) (x : Dword) : (wrS w r x).preReq = w.preReq := by unfold wrS; split <;> [rfl; (split <;> rfl)]
@[simp] theorem wrS_turns (w : Warp) (r : Nat) (x : Dword) : (wrS w r x).turns = w.turns := by unfold wrS; split <;> [rfl; (split <;> rfl)]
@[simp] theorem wrS_endClock (w : Warp) (r : Nat) (x : Dword) : (wrS w r x).endClock = w.endClock := by unfold wrS; split <;> [rfl; (split <;> rfl)]

@[simp] theorem wrP_ident (w : Warp) (r : Nat) (x : BitVec 64) : (wrP w r x).ident = w.ident := by unfold wrP; split <;> rfl
@[simp] theorem wrP_stage (w : Warp) (r : Nat) (x : BitVec 64) : (wrP w r x).stage = w.stage := by unfold wrP; split <;> rfl
@[simp] theorem wrP_width (w : Warp) (r : Nat) (x : BitVec 64) : (wrP w r x).width = w.width := by unfold wrP; split <;> rfl
@[simp] theorem wrP_quantum (w : Warp) (r : Nat) (x : BitVec 64) : (wrP w r x).quantum = w.quantum := by unfold wrP; split <;> rfl
@[simp] theorem wrP_clock (w : Warp) (r : Nat) (x : BitVec 64) : (wrP w r x).clock = w.clock := by unfold wrP; split <;> rfl
@[simp] theorem wrP_frags (w : Warp) (r : Nat) (x : BitVec 64) : (wrP w r x).frags = w.frags := by unfold wrP; split <;> rfl
@[simp] theorem wrP_run (w : Warp) (r : Nat) (x : BitVec 64) : (wrP w r x).run = w.run := by unfold wrP; split <;> rfl
@[simp] theorem wrP_v (w : Warp) (r : Nat) (x : BitVec 64) : (wrP w r x).v = w.v := by unfold wrP; split <;> rfl
@[simp] theorem wrP_s (w : Warp) (r : Nat) (x : BitVec 64) : (wrP w r x).s = w.s := by unfold wrP; split <;> rfl
@[simp] theorem wrP_j (w : Warp) (r : Nat) (x : BitVec 64) : (wrP w r x).j = w.j := by unfold wrP; split <;> rfl
@[simp] theorem wrP_shadow (w : Warp) (r : Nat) (x : BitVec 64) : (wrP w r x).shadow = w.shadow := by unfold wrP; split <;> rfl
@[simp] theorem wrP_allot (w : Warp) (r : Nat) (x : BitVec 64) : (wrP w r x).allot = w.allot := by unfold wrP; split <;> rfl
@[simp] theorem wrP_fpstat (w : Warp) (r : Nat) (x : BitVec 64) : (wrP w r x).fpstat = w.fpstat := by unfold wrP; split <;> rfl
@[simp] theorem wrP_lxstat (w : Warp) (r : Nat) (x : BitVec 64) : (wrP w r x).lxstat = w.lxstat := by unfold wrP; split <;> rfl
@[simp] theorem wrP_mstat (w : Warp) (r : Nat) (x : BitVec 64) : (wrP w r x).mstat = w.mstat := by unfold wrP; split <;> rfl
@[simp] theorem wrP_jstat (w : Warp) (r : Nat) (x : BitVec 64) : (wrP w r x).jstat = w.jstat := by unfold wrP; split <;> rfl
@[simp] theorem wrP_repidx (w : Warp) (r : Nat) (x : BitVec 64) : (wrP w r x).repidx = w.repidx := by unfold wrP; split <;> rfl
@[simp] theorem wrP_mstep (w : Warp) (r : Nat) (x : BitVec 64) : (wrP w r x).mstep = w.mstep := by unfold wrP; split <;> rfl
@[simp] theorem wrP_mpc (w : Warp) (r : Nat) (x : BitVec 64) : (wrP w r x).mpc = w.mpc := by unfold wrP; split <;> rfl
@[simp] theorem wrP_rep (w : Warp) (r : Nat) (x : BitVec 64) : (wrP w r x).rep = w.rep := by unfold wrP; split <;> rfl
@[simp] theorem wrP_sys (w : Warp) (r : Nat) (x : BitVec 64) : (wrP w r x).sys = w.sys := by unfold wrP; split <;> rfl
@[simp] theorem wrP_sec (w : Warp) (r : Nat) (x : BitVec 64) : (wrP w r x).sec = w.sec := by unfold wrP; split <;> rfl
@[simp] theorem wrP_turn (w : Warp) (r : Nat) (x : BitVec 64) : (wrP w r x).turn = w.turn := by unfold wrP; split <;> rfl
@[simp] theorem wrP_tvec (w : Warp) (r : Nat) (x : BitVec 64) : (wrP w r x).tvec = w.tvec := by unfold wrP; split <;> rfl
@[simp] theorem wrP_tcause (w : Warp) (r : Nat) (x : BitVec 64) : (wrP w r x).tcause = w.tcause := by unfold wrP; split <;> rfl
@[simp] theorem wrP_tpc (w : Warp) (r : Nat) (x : BitVec 64) : (wrP w r x).tpc = w.tpc := by unfold wrP; split <;> rfl
@[simp] theorem wrP_tregion (w : Warp) (r : Nat) (x : BitVec 64) : (wrP w r x).tregion = w.tregion := by unfold wrP; split <;> rfl
@[simp] theorem wrP_tfrag (w : Warp) (r : Nat) (x : BitVec 64) : (wrP w r x).tfrag = w.tfrag := by unfold wrP; split <;> rfl
@[simp] theorem wrP_tsibs (w : Warp) (r : Nat) (x : BitVec 64) : (wrP w r x).tsibs = w.tsibs := by unfold wrP; split <;> rfl
@[simp] theorem wrP_taddr (w : Warp) (r : Nat) (x : BitVec 64) : (wrP w r x).taddr = w.taddr := by unfold wrP; split <;> rfl
@[simp] theorem wrP_tclock (w : Warp) (r : Nat) (x : BitVec 64) : (wrP w r x).tclock = w.tclock := by unfold wrP; split <;> rfl
@[simp] theorem wrP_pending (w : Warp) (r : Nat) (x : BitVec 64) : (wrP w r x).pending = w.pending := by unfold wrP; split <;> rfl
@[simp] theorem wrP_passed (w : Warp) (r : Nat) (x : BitVec 64) : (wrP w r x).passed = w.passed := by unfold wrP; split <;> rfl
@[simp] theorem wrP_region (w : Warp) (r : Nat) (x : BitVec 64) : (wrP w r x).region = w.region := by unfold wrP; split <;> rfl
@[simp] theorem wrP_outst (w : Warp) (r : Nat) (x : BitVec 64) : (wrP w r x).outst = w.outst := by unfold wrP; split <;> rfl
@[simp] theorem wrP_pend (w : Warp) (r : Nat) (x : BitVec 64) : (wrP w r x).pend = w.pend := by unfold wrP; split <;> rfl
@[simp] theorem wrP_unconf (w : Warp) (r : Nat) (x : BitVec 64) : (wrP w r x).unconf = w.unconf := by unfold wrP; split <;> rfl
@[simp] theorem wrP_posted (w : Warp) (r : Nat) (x : BitVec 64) : (wrP w r x).posted = w.posted := by unfold wrP; split <;> rfl
@[simp] theorem wrP_held (w : Warp) (r : Nat) (x : BitVec 64) : (wrP w r x).held = w.held := by unfold wrP; split <;> rfl
@[simp] theorem wrP_hposted (w : Warp) (r : Nat) (x : BitVec 64) : (wrP w r x).hposted = w.hposted := by unfold wrP; split <;> rfl
@[simp] theorem wrP_hheld (w : Warp) (r : Nat) (x : BitVec 64) : (wrP w r x).hheld = w.hheld := by unfold wrP; split <;> rfl
@[simp] theorem wrP_late (w : Warp) (r : Nat) (x : BitVec 64) : (wrP w r x).late = w.late := by unfold wrP; split <;> rfl
@[simp] theorem wrP_hand (w : Warp) (r : Nat) (x : BitVec 64) : (wrP w r x).hand = w.hand := by unfold wrP; split <;> rfl
@[simp] theorem wrP_stat (w : Warp) (r : Nat) (x : BitVec 64) : (wrP w r x).stat = w.stat := by unfold wrP; split <;> rfl
@[simp] theorem wrP_runLen (w : Warp) (r : Nat) (x : BitVec 64) : (wrP w r x).runLen = w.runLen := by unfold wrP; split <;> rfl
@[simp] theorem wrP_slot (w : Warp) (r : Nat) (x : BitVec 64) : (wrP w r x).slot = w.slot := by unfold wrP; split <;> rfl
@[simp] theorem wrP_entry (w : Warp) (r : Nat) (x : BitVec 64) : (wrP w r x).entry = w.entry := by unfold wrP; split <;> rfl
@[simp] theorem wrP_haltReq (w : Warp) (r : Nat) (x : BitVec 64) : (wrP w r x).haltReq = w.haltReq := by unfold wrP; split <;> rfl
@[simp] theorem wrP_halted (w : Warp) (r : Nat) (x : BitVec 64) : (wrP w r x).halted = w.halted := by unfold wrP; split <;> rfl
@[simp] theorem wrP_preReq (w : Warp) (r : Nat) (x : BitVec 64) : (wrP w r x).preReq = w.preReq := by unfold wrP; split <;> rfl
@[simp] theorem wrP_turns (w : Warp) (r : Nat) (x : BitVec 64) : (wrP w r x).turns = w.turns := by unfold wrP; split <;> rfl
@[simp] theorem wrP_endClock (w : Warp) (r : Nat) (x : BitVec 64) : (wrP w r x).endClock = w.endClock := by unfold wrP; split <;> rfl

@[simp] theorem wrPBit_ident (w : Warp) (r l : Nat) (b : Bool) : (wrPBit w r l b).ident = w.ident := wrP_ident ..
@[simp] theorem wrPBit_stage (w : Warp) (r l : Nat) (b : Bool) : (wrPBit w r l b).stage = w.stage := wrP_stage ..
@[simp] theorem wrPBit_width (w : Warp) (r l : Nat) (b : Bool) : (wrPBit w r l b).width = w.width := wrP_width ..
@[simp] theorem wrPBit_quantum (w : Warp) (r l : Nat) (b : Bool) : (wrPBit w r l b).quantum = w.quantum := wrP_quantum ..
@[simp] theorem wrPBit_clock (w : Warp) (r l : Nat) (b : Bool) : (wrPBit w r l b).clock = w.clock := wrP_clock ..
@[simp] theorem wrPBit_frags (w : Warp) (r l : Nat) (b : Bool) : (wrPBit w r l b).frags = w.frags := wrP_frags ..
@[simp] theorem wrPBit_run (w : Warp) (r l : Nat) (b : Bool) : (wrPBit w r l b).run = w.run := wrP_run ..
@[simp] theorem wrPBit_v (w : Warp) (r l : Nat) (b : Bool) : (wrPBit w r l b).v = w.v := wrP_v ..
@[simp] theorem wrPBit_s (w : Warp) (r l : Nat) (b : Bool) : (wrPBit w r l b).s = w.s := wrP_s ..
@[simp] theorem wrPBit_j (w : Warp) (r l : Nat) (b : Bool) : (wrPBit w r l b).j = w.j := wrP_j ..
@[simp] theorem wrPBit_shadow (w : Warp) (r l : Nat) (b : Bool) : (wrPBit w r l b).shadow = w.shadow := wrP_shadow ..
@[simp] theorem wrPBit_allot (w : Warp) (r l : Nat) (b : Bool) : (wrPBit w r l b).allot = w.allot := wrP_allot ..
@[simp] theorem wrPBit_fpstat (w : Warp) (r l : Nat) (b : Bool) : (wrPBit w r l b).fpstat = w.fpstat := wrP_fpstat ..
@[simp] theorem wrPBit_lxstat (w : Warp) (r l : Nat) (b : Bool) : (wrPBit w r l b).lxstat = w.lxstat := wrP_lxstat ..
@[simp] theorem wrPBit_mstat (w : Warp) (r l : Nat) (b : Bool) : (wrPBit w r l b).mstat = w.mstat := wrP_mstat ..
@[simp] theorem wrPBit_jstat (w : Warp) (r l : Nat) (b : Bool) : (wrPBit w r l b).jstat = w.jstat := wrP_jstat ..
@[simp] theorem wrPBit_repidx (w : Warp) (r l : Nat) (b : Bool) : (wrPBit w r l b).repidx = w.repidx := wrP_repidx ..
@[simp] theorem wrPBit_mstep (w : Warp) (r l : Nat) (b : Bool) : (wrPBit w r l b).mstep = w.mstep := wrP_mstep ..
@[simp] theorem wrPBit_mpc (w : Warp) (r l : Nat) (b : Bool) : (wrPBit w r l b).mpc = w.mpc := wrP_mpc ..
@[simp] theorem wrPBit_rep (w : Warp) (r l : Nat) (b : Bool) : (wrPBit w r l b).rep = w.rep := wrP_rep ..
@[simp] theorem wrPBit_sys (w : Warp) (r l : Nat) (b : Bool) : (wrPBit w r l b).sys = w.sys := wrP_sys ..
@[simp] theorem wrPBit_sec (w : Warp) (r l : Nat) (b : Bool) : (wrPBit w r l b).sec = w.sec := wrP_sec ..
@[simp] theorem wrPBit_turn (w : Warp) (r l : Nat) (b : Bool) : (wrPBit w r l b).turn = w.turn := wrP_turn ..
@[simp] theorem wrPBit_tvec (w : Warp) (r l : Nat) (b : Bool) : (wrPBit w r l b).tvec = w.tvec := wrP_tvec ..
@[simp] theorem wrPBit_tcause (w : Warp) (r l : Nat) (b : Bool) : (wrPBit w r l b).tcause = w.tcause := wrP_tcause ..
@[simp] theorem wrPBit_tpc (w : Warp) (r l : Nat) (b : Bool) : (wrPBit w r l b).tpc = w.tpc := wrP_tpc ..
@[simp] theorem wrPBit_tregion (w : Warp) (r l : Nat) (b : Bool) : (wrPBit w r l b).tregion = w.tregion := wrP_tregion ..
@[simp] theorem wrPBit_tfrag (w : Warp) (r l : Nat) (b : Bool) : (wrPBit w r l b).tfrag = w.tfrag := wrP_tfrag ..
@[simp] theorem wrPBit_tsibs (w : Warp) (r l : Nat) (b : Bool) : (wrPBit w r l b).tsibs = w.tsibs := wrP_tsibs ..
@[simp] theorem wrPBit_taddr (w : Warp) (r l : Nat) (b : Bool) : (wrPBit w r l b).taddr = w.taddr := wrP_taddr ..
@[simp] theorem wrPBit_tclock (w : Warp) (r l : Nat) (b : Bool) : (wrPBit w r l b).tclock = w.tclock := wrP_tclock ..
@[simp] theorem wrPBit_pending (w : Warp) (r l : Nat) (b : Bool) : (wrPBit w r l b).pending = w.pending := wrP_pending ..
@[simp] theorem wrPBit_passed (w : Warp) (r l : Nat) (b : Bool) : (wrPBit w r l b).passed = w.passed := wrP_passed ..
@[simp] theorem wrPBit_region (w : Warp) (r l : Nat) (b : Bool) : (wrPBit w r l b).region = w.region := wrP_region ..
@[simp] theorem wrPBit_outst (w : Warp) (r l : Nat) (b : Bool) : (wrPBit w r l b).outst = w.outst := wrP_outst ..
@[simp] theorem wrPBit_pend (w : Warp) (r l : Nat) (b : Bool) : (wrPBit w r l b).pend = w.pend := wrP_pend ..
@[simp] theorem wrPBit_unconf (w : Warp) (r l : Nat) (b : Bool) : (wrPBit w r l b).unconf = w.unconf := wrP_unconf ..
@[simp] theorem wrPBit_posted (w : Warp) (r l : Nat) (b : Bool) : (wrPBit w r l b).posted = w.posted := wrP_posted ..
@[simp] theorem wrPBit_held (w : Warp) (r l : Nat) (b : Bool) : (wrPBit w r l b).held = w.held := wrP_held ..
@[simp] theorem wrPBit_hposted (w : Warp) (r l : Nat) (b : Bool) : (wrPBit w r l b).hposted = w.hposted := wrP_hposted ..
@[simp] theorem wrPBit_hheld (w : Warp) (r l : Nat) (b : Bool) : (wrPBit w r l b).hheld = w.hheld := wrP_hheld ..
@[simp] theorem wrPBit_late (w : Warp) (r l : Nat) (b : Bool) : (wrPBit w r l b).late = w.late := wrP_late ..
@[simp] theorem wrPBit_hand (w : Warp) (r l : Nat) (b : Bool) : (wrPBit w r l b).hand = w.hand := wrP_hand ..
@[simp] theorem wrPBit_stat (w : Warp) (r l : Nat) (b : Bool) : (wrPBit w r l b).stat = w.stat := wrP_stat ..
@[simp] theorem wrPBit_runLen (w : Warp) (r l : Nat) (b : Bool) : (wrPBit w r l b).runLen = w.runLen := wrP_runLen ..
@[simp] theorem wrPBit_slot (w : Warp) (r l : Nat) (b : Bool) : (wrPBit w r l b).slot = w.slot := wrP_slot ..
@[simp] theorem wrPBit_entry (w : Warp) (r l : Nat) (b : Bool) : (wrPBit w r l b).entry = w.entry := wrP_entry ..
@[simp] theorem wrPBit_haltReq (w : Warp) (r l : Nat) (b : Bool) : (wrPBit w r l b).haltReq = w.haltReq := wrP_haltReq ..
@[simp] theorem wrPBit_halted (w : Warp) (r l : Nat) (b : Bool) : (wrPBit w r l b).halted = w.halted := wrP_halted ..
@[simp] theorem wrPBit_preReq (w : Warp) (r l : Nat) (b : Bool) : (wrPBit w r l b).preReq = w.preReq := wrP_preReq ..
@[simp] theorem wrPBit_turns (w : Warp) (r l : Nat) (b : Bool) : (wrPBit w r l b).turns = w.turns := wrP_turns ..
@[simp] theorem wrPBit_endClock (w : Warp) (r l : Nat) (b : Bool) : (wrPBit w r l b).endClock = w.endClock := wrP_endClock ..

/-! ## Records after an update -/

@[simp] theorem getWarp_setWarp (s : State) (k j : Nat) (w : Warp) :
    getWarp (setWarp s k w) j = if j = k then some w else getWarp s j := kfind_kinsert ..
@[simp] theorem getWarp_updWarp (s : State) (k j : Nat) (f : Warp → Warp) :
    getWarp (updWarp s k f) j = if j = k then (getWarp s j).map f else getWarp s j := kfind_kmodify ..
theorem getGroup_setGroup (s : State) (k j : Nat) (g : Group) :
    getGroup (setGroup s k g) j = if groupKey j = groupKey k then some g else getGroup s j := kfind_kinsert ..
theorem getCard_setCard (s : State) (k j : Nat) (c : Card) :
    getCard (setCard s k c) j = if cardKey j = cardKey k then some c else getCard s j := kfind_kinsert ..
@[simp] theorem getGroup_setWarp (s : State) (k j : Nat) (w : Warp) : getGroup (setWarp s k w) j = getGroup s j := rfl
@[simp] theorem getGroup_updWarp (s : State) (k j : Nat) (f : Warp → Warp) : getGroup (updWarp s k f) j = getGroup s j := rfl
@[simp] theorem getCard_setWarp (s : State) (k j : Nat) (w : Warp) : getCard (setWarp s k w) j = getCard s j := rfl
@[simp] theorem getCard_updWarp (s : State) (k j : Nat) (f : Warp → Warp) : getCard (updWarp s k f) j = getCard s j := rfl
@[simp] theorem getPart_setWarp (s : State) (k j : Nat) (w : Warp) : getPart (setWarp s k w) j = getPart s j := rfl
@[simp] theorem getPart_updWarp (s : State) (k j : Nat) (f : Warp → Warp) : getPart (updWarp s k f) j = getPart s j := rfl
@[simp] theorem getChip_setWarp (s : State) (k j : Nat) (w : Warp) : getChip (setWarp s k w) j = getChip s j := rfl
@[simp] theorem getChip_updWarp (s : State) (k j : Nat) (f : Warp → Warp) : getChip (updWarp s k f) j = getChip s j := rfl

theorem getPart_setPart_ne (s : State) {p q : Nat} (x : Part) (h : q ≠ p) : getPart (setPart s p x) q = getPart s q :=
  sget_sput_ne x h
theorem getPart_setPart (s : State) (p : Nat) (x : Part) (h : swf Part.reset s.parts = true) : getPart (setPart s p x) p = x := by
  unfold getPart setPart; rw [sget_sput _ _ _ h, if_pos rfl]
theorem getChip_setChip_ne (s : State) {c d : Nat} (x : Chip) (h : d ≠ c) : getChip (setChip s c x) d = getChip s d :=
  sget_sput_ne x h
theorem getChip_setChip (s : State) (c : Nat) (x : Chip) (h : swf Chip.reset s.chips = true) : getChip (setChip s c x) c = x := by
  unfold getChip setChip; rw [sget_sput _ _ _ h, if_pos rfl]

/-! ## Registers after a write -/

/-- `s0` stays 0 whatever is written; any other register reads as what was written (R51). -/
theorem rdS_wrS (w : Warp) (r q : Nat) (x : Dword) (h : swf 0 w.s = true ∧ swf 0 w.shadow = true) :
    rdS (wrS w r x) q = if q = 0 then 0 else if q = r then x else rdS w q := by
  unfold rdS wrS
  by_cases hq : q = 0
  · simp [hq]
  · rw [if_neg hq, if_neg hq]
    by_cases hr : r = 0
    · have : q ≠ r := by omega
      simp [hr, hq]
    · rw [if_neg hr]
      by_cases hs : (w.sys && decide (112 ≤ r)) = true
      · rw [if_pos hs]
        by_cases hq2 : (w.sys && decide (112 ≤ q)) = true
        · simpa [hq2, hq] using sget_sput r q x h.2
        · have : q ≠ r := by rintro rfl; exact hq2 hs
          simp [hq2, this, hq]
      · rw [if_neg hs]
        by_cases hq2 : (w.sys && decide (112 ≤ q)) = true
        · have : q ≠ r := by rintro rfl; exact hs hq2
          simp [hq2, this, hq]
        · simpa [hq2, hq] using sget_sput r q x h.1

end Sys2Proof.Machine
end

