-- ==== Sys2Proof/Laws/Course.lean ====
section
/-! SUPPORT. The shared course of an instruction: what ending a run, moving the clock within a round, settling and retiring
do, and where an instruction that is clear to perform gets to. -/

namespace Sys2Proof.Machine

/-! ## Ends of runs and clocks -/

theorem endRun_rest (s : State) (k : Nat) : { endRun s k with warps := s.warps, cur := s.cur, runs := s.runs } = s := rfl

theorem endRun_other (s : State) {k j : Nat} (h : j ≠ k) : getWarp (endRun s k) j = getWarp s j := by
  unfold endRun freeSlot
  exact (getWarp_updWarp s k j _).trans (if_neg h)

/-- What the end of a run does to its warp. -/
theorem endRun_warp {s : State} {k : Nat} {w : Warp} (h : getWarp s k = some w) :
    ∃ x, getWarp (endRun s k) k = some x ∧ SameRun x w := by
  unfold endRun freeSlot
  refine ⟨_, (getWarp_updWarp s k k _).trans ((if_pos rfl).trans (congrArg (Option.map _) h)), ?_⟩
  unfold SameRun; dsimp only; split <;> rfl

theorem updWarp_id {s : State} {k : Nat} {w : Warp} {g : Warp → Warp} (h : getWarp s k = some w) (hg : g w = w) :
    updWarp s k g = s := by
  have : ∀ m : KMap Warp, kfind m k = some w → kmodify m k g = m := by
    intro m
    induction m with
    | nil => intro _; rfl
    | cons e m ih =>
      obtain ⟨i, y⟩ := e
      simp only [kfind, kmodify]
      split
      · intro hy; cases hy; rw [hg]
      · intro hm; rw [ih hm]
  unfold updWarp
  rw [this _ h]

theorem moveClock_inRound {s : State} {k c : Nat} {w : Warp} (h : getWarp s k = some w)
    (hr : w.turn = true → c / w.quantum ≤ w.clock / w.quantum) :
    moveClock s k c = updWarp s k fun w => { w with clock := c } := by
  unfold moveClock
  rw [h]
  dsimp only
  rw [if_pos]
  cases ht : w.turn
  · rfl
  · simpa using hr ht


theorem endRun_upTo {s : State} {k : Nat} {w : Warp} (h : getWarp s k = some w) : UpToRun s (endRun s k) k := by
  obtain ⟨x, hx, hs⟩ := endRun_warp h
  exact ⟨⟨x, w, hx, h, hs⟩, fun j hj => endRun_other s hj, endRun_rest s k⟩

theorem upToRun_refl {s : State} {k : Nat} {w : Warp} (h : getWarp s k = some w) : UpToRun s s k :=
  ⟨⟨w, w, h, h, rfl⟩, fun _ _ => rfl, rfl⟩

/-- A group turn's record changes the run alone. -/
theorem upToRun_addTurn {s t : State} {k : Nat} {n : Stamp} (h : UpToRun s t k) : UpToRun s (updWarp t k fun x => addTurn x n) k := by
  obtain ⟨⟨x, v, hx, hv, hs⟩, ho, hr⟩ := h
  refine ⟨⟨addTurn x n, v, by rw [getWarp_updWarp, if_pos rfl, hx]; rfl, hv, ?_⟩, ?_, ?_⟩
  · unfold SameRun at *
    exact hs
  · intro j hj; rw [getWarp_updWarp, if_neg hj]; exact ho j hj
  · rw [← hr]; rfl

/-! ## Issue -/

/-- An instruction that is clear performs what its body comes to. -/
theorem issue_clear {o : Op} {f : Long} {len : Nat} {body : State → Nat → Warp → Act} {s s0 : State} {k : Nat} {w w0 : Warp}
    (c : Clear s k w o f s0 w0) : issue o f len body s = .next (perform o f len body s0 k w0) := by
  have hp := c.prep
  unfold prepared at hp
  unfold issue issueAt
  simp only [c.cur, c.warp, c.checks]
  generalize (if parks o f then settle s k else if needsConfirm s k w o f then confirm s k else Settled.ok s) = r at hp ⊢
  cases r with
  | wait => cases hp
  | fault a b => cases hp
  | ok s' =>
    dsimp only at hp ⊢
    unfold performHeld
    cases hv : getWarp s' k with
    | none => rw [hv] at hp; cases hp
    | some v =>
      rw [hv] at hp
      simp only [Option.bind_some] at hp
      cases hr : (parks o f && ((branchFault v o f).isSome || (repRange s' k v o f).isSome)) with
      | true => rw [hr, if_pos rfl] at hp; cases hp
      | false =>
        rw [hr] at hp
        simp only [Bool.false_eq_true, if_false] at hp
        have h1 : (if parks o f then branchFault v o f else none) = none := by
          cases hpk : parks o f
          · rfl
          · rw [hpk] at hr; simp at hr; simp [hr.1]
        have h2 : (if parks o f then repRange s' k v o f else none) = none := by
          cases hpk : parks o f
          · rfl
          · rw [hpk] at hr; simp at hr; simp [hr.2]
        simp only [h1, h2]
        cases ht : takesAt v o f
        · rw [ht, if_neg (by simp)] at hp
          cases hp
          rw [if_neg (by simp)]
          simp [c.warp0, c.live, takesHeld, ht]
        · rw [ht, if_pos rfl] at hp
          split at hp
          · cases hp
          · rename_i hh
            cases hp
            have h0 := c.warp0
            rw [if_pos rfl]
            simp only [h0, Option.any_some, Bool.or_eq_true, not_or, Bool.not_eq_true] at hh
            simp [h0, c.live, takesHeld, hh.1, hh.2]

/-- What an instruction that is clear comes to, by what its body comes to; a group turn leaves its record besides. -/
theorem perform_clear {o : Op} {f : Long} {len : Nat} {body : State → Nat → Warp → Act} {s s0 : State} {k : Nat} {w w0 : Warp}
    (c : Clear s k w o f s0 w0) {a : Act} (ha : body (setWarp s0 k (atIssue s0 k w0 o f)) k (atIssue s0 k w0 o f) = a) :
    perform o f len body s0 k w0 =
      (let t := finish (atTurn s0 k w0 o f) k (weightOf w0 o f) len f.fl.en (faultRegion s0 w0 o f a k)
       if turnKind w0 o f = .group && takesTurn a then updWarp t k fun x => addTurn x (stampOf k w0) else t) := by
  have hrun := c.running
  have hnil : ∀ (t : State), refuseAll t k [] false w0.clock = t := fun _ => rfl
  unfold atIssue at ha
  unfold perform
  dsimp only
  rw [if_neg (by
    cases hk : getCard s0 k with
    | none => simp
    | some x => rw [hk] at hrun; cases hx : x.stop <;> simp_all)]
  simp only [c.turn, Bool.not_true, Bool.false_eq_true, if_false, ha]
  by_cases hd : turnKind w0 o f = .domain
  · rw [c.accepted hd]
    cases takesTurn a <;> simp [hd, hnil]
  · simp [hd]

/-! ## Retirement -/

theorem getWarp_postFault (s : State) (p : Nat) (e : List Byte) (k : Nat) : getWarp (postFault s p e) k = getWarp s k := by
  unfold postFault
  dsimp only
  split <;> rfl

theorem waitIn_warp {s : State} {k : Nat} {w : Warp} (h : getWarp s k = some w) (st : WStat) :
    ∃ x, getWarp (waitIn s k st) k = some x ∧ x.stat = st := by
  unfold waitIn
  obtain ⟨x, hx, hs⟩ := endRun_warp (s := updWarp s k fun w => { w with stat := st }) (k := k)
    (w := { w with stat := st }) (by rw [getWarp_updWarp, if_pos rfl, h]; rfl)
  exact ⟨x, hx, congrArg Warp.stat hs⟩

theorem getWarp_reportAt (s : State) (c a k : Nat) : getWarp (reportAt s c a) k = getWarp s k := rfl

theorem getWarp_noteRefusal (s : State) (k : Nat) (load : Bool) (x : Denied) (j : Nat) :
    getWarp (noteRefusal s k load x) j = getWarp s j := by
  unfold noteRefusal
  split
  · rfl
  · dsimp only
    rw [getWarp_postFault]
    split
    · exact getWarp_reportAt ..
    · rfl

/-- What is sent on the links leaves every warp alone. -/
theorem getWarp_putFlit (s : State) (c q : Nat) (x : Packet) (j : Nat) : getWarp (putFlit s c q x) j = getWarp s j := rfl
theorem getWarp_sendFlit (s : State) (c dest : Nat) (x : FlitPayload) (j : Nat) : getWarp (sendFlit s c dest x) j = getWarp s j := rfl

/-- A fold whose every step leaves the warps alone leaves them alone. -/
theorem getWarp_foldl {α : Type} {g : State → α → State} (j : Nat) (hg : ∀ s x, getWarp (g s x) j = getWarp s j) (l : List α) (s : State) :
    getWarp (l.foldl g s) j = getWarp s j := by
  induction l generalizing s with
  | nil => rfl
  | cons x l ih => exact (ih _).trans (hg _ _)

theorem getWarp_sendFlits (s : State) (c dest n : Nat) (x : Nat → FlitPayload) (j : Nat) :
    getWarp (sendFlits s c dest n x) j = getWarp s j := by
  unfold sendFlits
  split
  · rfl
  · split
    · rfl
    · exact getWarp_foldl j (fun s i => getWarp_sendFlit ..) _ _

theorem getWarp_sendPub (s : State) (k : Nat) (t : Stamp) (ks : List Nat) (j : Nat) : getWarp (sendPub s k t ks) j = getWarp s j := by
  unfold sendPub
  exact getWarp_foldl j (fun s h => getWarp_sendFlits ..) _ _

theorem getWarp_overlayTrim (s : State) (keys : List Nat) (j : Nat) : getWarp (overlayTrim s keys) j = getWarp s j := by
  unfold overlayTrim
  refine getWarp_foldl j (fun s k => ?_) _ _
  unfold updSlice
  dsimp only
  split <;> rfl

theorem getWarp_publish (s : State) (x : Pub) (keys : List Nat) (j : Nat) : getWarp (publish s x keys) j = getWarp s j :=
  (getWarp_overlayTrim ..).trans rfl

theorem getWarp_pubBytes (s : State) (d : Nat) (t : Stamp) (n made : Nat) (b : KMap Byte) (j : Nat) :
    getWarp (pubBytes s d t n made b) j = getWarp s j := by
  unfold pubBytes; split
  · rfl
  · exact getWarp_publish ..

/-- A mark publishes without touching any warp but its own hand (R186). -/
theorem getWarp_pubMark (s : State) (k : Nat) (w : Warp) (m made : Nat) :
    getWarp (pubMark s k w m made) k = (getWarp s k).map fun w => { w with hand := Hand.empty } := by
  unfold pubMark
  dsimp only
  rw [getWarp_updWarp, if_pos rfl]
  refine congrArg (Option.map _) ((getWarp_foldl k (fun _ _ => ?_) _ _).trans ?_)
  · exact getWarp_publish ..
  · rw [getWarp_pubBytes, getWarp_sendPub]

/-- Refusals end the card of a turn-mode warp, which then dies; without any nothing happens. -/
theorem refuseAll_stat {s : State} {k : Nat} {w : Warp} (h : getWarp s k = some w) (ht : w.turn = true) (xs : List Denied)
    (load : Bool) (clk : Nat) : ∃ x, getWarp (refuseAll s k xs load clk) k = some x ∧
      ((xs = [] ∧ x = w) ∨ ∃ kd, x.stat = .dying 0x14 kd clk) := by
  cases xs with
  | nil => exact ⟨w, h, .inl ⟨rfl, rfl⟩⟩
  | cons y ys =>
    have hf : getWarp ((y :: ys).foldl (fun s x => noteRefusal s k load x) s) k = some w :=
      (getWarp_foldl k (fun s x => getWarp_noteRefusal ..) _ _).trans h
    unfold refuseAll
    simp only [h, ht, if_true]
    obtain ⟨x, hx, hs⟩ := waitIn_warp hf (.dying 0x14 y.kind clk)
    exact ⟨x, hx, .inr ⟨_, hs⟩⟩

/-- A clock that moves leaves a ready warp ready, at the round gate, or dying of a refused publication. -/
theorem moveClock_stat {s : State} {k c : Nat} {v : Warp} (h : getWarp s k = some v) (hs : v.stat = .ready)
    (hc : ((getCard s k).all fun c => c.stop.isNone) = true) :
    ∃ x, getWarp (moveClock s k c) k = some x ∧ x.stat ≠ .stalled ∧ x.stat ≠ .turnWait := by
  unfold moveClock
  rw [h]
  dsimp only
  split
  · exact ⟨_, by rw [getWarp_updWarp, if_pos rfl, h]; rfl, by simp [hs]⟩
  · rename_i hcross
    have ht : v.turn = true := by cases hvt : v.turn <;> simp_all
    rw [if_neg (by
      cases hk : getCard s k with
      | none => simp
      | some y => rw [hk] at hc; cases hy : y.stop <;> simp_all)]
    have hm := (getWarp_pubMark s k v (nextMark v.quantum v.clock) (nextMark v.quantum v.clock)).trans (congrArg (Option.map _) h)
    obtain ⟨x, hx, hxs⟩ := refuseAll_stat
      (s := updWarp (pubMark s k v (nextMark v.quantum v.clock) (nextMark v.quantum v.clock)) k fun w =>
        { w with clock := c, region := none, stat := .gate (nextMark v.quantum v.clock) (c / w.quantum * w.quantum) })
      (k := k) ((getWarp_updWarp ..).trans ((if_pos rfl).trans (congrArg (Option.map _) hm))) ht
      (handRefusals s (chipOf (partOf k)) v.sec v.hand true) false (nextMark v.quantum v.clock - 1)
    refine ⟨x, hx, ?_⟩
    rcases hxs with ⟨-, rfl⟩ | ⟨kd, hk⟩
    · simp
    · simp [hk]

/-- What retiring does to the state that an effect made, when what follows leaves a warp that goes on. -/
theorem retire_upTo {s : State} {k wt len : Nat} {en : Bool} {pc : Pc} {clk : Option Nat} {after : Warp → Warp} {v x : Warp}
    (hv : getWarp s k = some v)
    (hx : getWarp (updWarp (moveClock (setWarp s k (advance v pc len)) k (clk.getD (v.clock + wt))) k after) k = some x)
    (h1 : x.stat ≠ .stalled) (h2 : x.stat ≠ .turnWait) :
    UpToRun (updWarp (moveClock (setWarp s k (advance v pc len)) k (clk.getD (v.clock + wt))) k after)
      (retire s k wt len en pc clk after) k := by
  have main : ∃ last : Bool, retire s k wt len en pc clk after =
      (let S := updWarp (moveClock (setWarp s k (advance v pc len)) k (clk.getD (v.clock + wt))) k after
       match getWarp S k with
       | none => S
       | some w' =>
         let cont := match w'.stat with | .ready | .stalled | .turnWait => true | _ => false
         let s := updWarp S k fun w => match w.stat with | .stalled | .turnWait => { w with stat := .ready } | _ => w
         if !cont || (last && (en || decide (24 ≤ w'.runLen))) then endRun s k else s) := by
    unfold retire
    rw [hv]
    cases hr : v.rep with
    | none =>
      refine ⟨true, ?_⟩
      have : advance v pc len = (match pc with
          | .next => { setPc v (curPc v + BitVec.ofNat 64 len) with runLen := v.runLen + 1, pending := false, passed := false }
          | .goto a => { setPc v a with runLen := v.runLen + 1, pending := false, passed := false }
          | .keep => { v with runLen := v.runLen + 1, pending := false, passed := false }) := by
        unfold advance; dsimp only; split <;> simp_all
      rw [this]
      cases pc <;> simp only [if_true, hr] <;> rfl
    | some r =>
      by_cases hcnt : v.repidx + 1 < r.count
      · refine ⟨false, ?_⟩
        have : advance v pc len = { v with repidx := v.repidx + 1, pending := false, passed := false } := by
          unfold advance; dsimp only; split <;> simp_all
        rw [this]
        simp only [hr, hcnt, if_true, Bool.false_eq_true, if_false]
        try rfl
      · refine ⟨true, ?_⟩
        have : advance v pc len = { setPc { v with repidx := 0, rep := none } (curPc v + BitVec.ofNat 64 r.len) with
            runLen := v.runLen + 1, pending := false, passed := false } := by
          unfold advance; dsimp only; split <;> simp_all
        rw [this]
        simp only [hr, hcnt, if_true, if_false]
        rfl
  obtain ⟨last, hm⟩ := main
  rw [hm]
  generalize updWarp (moveClock (setWarp s k (advance v pc len)) k (clk.getD (v.clock + wt))) k after = S at hx ⊢
  dsimp only
  rw [hx]
  have hid : updWarp S k (fun w => match w.stat with | .stalled | .turnWait => { w with stat := .ready } | _ => w) = S := by
    apply updWarp_id hx
    split
    · exact absurd ‹_› h1
    · exact absurd ‹_› h2
    · rfl
  have hif : ∀ b : Bool, UpToRun S (if b = true then endRun S k else S) k := by
    intro b
    cases b
    · exact upToRun_refl hx
    · exact endRun_upTo hx
  dsimp only
  rw [hid]
  exact hif _

end Sys2Proof.Machine
end

