-- ==== Sys2Proof/Laws/Dispatch.lean ====
section
/-! SUPPORT. `exec` of a machine instruction is the shared course of Ops.lean around its own effect, and what follows for an
instruction that performs. -/

namespace Sys2Proof.Machine

/-- `exec` of a machine instruction is the shared course around its own effect. -/
theorem exec_core {i : Instr} {o : Op} {f : Long} {len : Nat} (h : i.core = some (o, f, len)) (s : State) :
    exec i s = issue o f len (bodyOf o f len) s := by
  cases i <;> first | (cases h; rfl) | cases h

theorem weightOf_sys {v w : Warp} (h : v.sys = w.sys) (o : Op) (f : Long) : weightOf v o f = weightOf w o f := by
  unfold weightOf; rw [h]

/-- A machine instruction that performs: what its body comes to, finished. -/
theorem performs_act {i : Instr} {s s1 : State} {k len : Nat} {o : Op} {f : Long} {w : Warp} (h : Performs i s k o f len s1 w) :
    ∃ s0 w0, turnFree s0 k w0 o f = true ∧ w = atIssue s0 k w0 o f ∧ s1 = setWarp s0 k w ∧
      ((getCard s0 k).all fun c => c.stop.isNone) = true ∧
      ∀ a, bodyOf o f len s1 k w = a →
        exec i s = .next (let t := finish (atTurn s0 k w0 o f) k (weightOf w o f) len f.fl.en (faultRegion s0 w0 o f a k)
          if turnKind w0 o f = .group && takesTurn a then updWarp t k fun x => addTurn x (stampOf k w0) else t) := by
  obtain ⟨hi, v, s0, w0, c, hw, hs⟩ := h
  refine ⟨s0, w0, c.turn, hw, hs, c.running, ?_⟩
  intro a ha
  subst hs hw
  rw [exec_core hi, issue_clear c, perform_clear c ha]
  rfl

/-- A machine instruction whose own effect retires it. -/
theorem retiresAt_run {i : Instr} {s s1 s2 : State} {k len : Nat} {o : Op} {f : Long} {w v : Warp} {pc : Pc} {clk : Option Nat}
    (h : Performs i s k o f len s1 w) (hb : bodyOf o f len s1 k w = .retire s2 pc clk id) (hv : getWarp s2 k = some v)
    (hst : v.stat = .ready) (hc : ((getCard s2 k).all fun c => c.stop.isNone) = true) :
    RetiresAt i s k len s2 v pc (clk.getD (v.clock + weightOf w o f)) := by
  obtain ⟨s0, w0, -, hw, hs, hrun, hx⟩ := performs_act h
  have hx := hx _ hb
  have hcard : ((getCard (setWarp s2 k (advance v pc len)) k).all fun c => c.stop.isNone) = true := hc
  have hadv : (advance v pc len).stat = .ready := by
    unfold advance; dsimp only; split
    · split <;> exact hst
    · cases pc <;> exact hst
  obtain ⟨x, hxx, h1, h2⟩ := moveClock_stat (s := setWarp s2 k (advance v pc len)) (k := k)
    (c := clk.getD (v.clock + weightOf w o f)) (v := advance v pc len) (by simp) hadv hcard
  have hx' : getWarp (updWarp (moveClock (setWarp s2 k (advance v pc len)) k (clk.getD (v.clock + weightOf w o f))) k id) k = some x := by
    rw [updWarp_id hxx rfl]; exact hxx
  have hu := retire_upTo (en := f.fl.en) (after := id) hv hx' h1 h2
  rw [updWarp_id hxx rfl] at hu
  refine ⟨_, hx, ?_⟩
  dsimp only [faultRegion, finish, takesTurn]
  have hif : ∀ b : Bool, UpToRun (moveClock (setWarp s2 k (advance v pc len)) k (clk.getD (v.clock + weightOf w o f)))
      (if b = true then updWarp (retire s2 k (weightOf w o f) len f.fl.en pc clk id) k fun x => addTurn x (stampOf k w0)
       else retire s2 k (weightOf w o f) len f.fl.en pc clk id) k := by
    intro b
    cases b
    · exact hu
    · exact upToRun_addTurn hu
  exact hif _

/-- No card that is the warp's own is stopped where it performs. -/
theorem performs_running {i : Instr} {s s1 : State} {k len : Nat} {o : Op} {f : Long} {w : Warp} (h : Performs i s k o f len s1 w) :
    ((getCard s1 k).all fun c => c.stop.isNone) = true := by
  obtain ⟨-, v, s0, w0, c, -, hs⟩ := h
  rw [hs]; exact c.running

/-- As `retiresAt_run`, where the effect leaves the cards alone. -/
theorem retiresAt_law {i : Instr} {s s1 s2 : State} {k len : Nat} {o : Op} {f : Long} {w v : Warp} {pc : Pc} {clk : Option Nat}
    (h : Performs i s k o f len s1 w) (hb : bodyOf o f len s1 k w = .retire s2 pc clk id) (hv : getWarp s2 k = some v)
    (hst : v.stat = .ready) (hc : s2.cards = s1.cards) :
    RetiresAt i s k len s2 v pc (clk.getD (v.clock + weightOf w o f)) :=
  retiresAt_run h hb hv hst (by have := performs_running h; unfold getCard at this ⊢; rw [hc]; exact this)

/-- A machine instruction whose own effect retires it and then changes its warp. -/
theorem retiresThen_law {i : Instr} {s s1 s2 : State} {k len : Nat} {o : Op} {f : Long} {w v : Warp} {pc : Pc} {clk : Option Nat}
    {after : Warp → Warp} (h : Performs i s k o f len s1 w) (hb : bodyOf o f len s1 k w = .retire s2 pc clk after)
    (hv : getWarp s2 k = some v) (hst : v.stat = .ready) (ha : ∀ x, (after x).stat = x.stat) (hc : s2.cards = s1.cards) :
    RetiresThen i s k len s2 v pc (clk.getD (v.clock + weightOf w o f)) after := by
  obtain ⟨s0, w0, -, hw, hs, hrun, hx⟩ := performs_act h
  have hx := hx _ hb
  have hcard : ((getCard (setWarp s2 k (advance v pc len)) k).all fun c => c.stop.isNone) = true := by
    have : (setWarp s2 k (advance v pc len)).cards = s0.cards := by
      have h1 : (setWarp s2 k (advance v pc len)).cards = s2.cards := rfl
      rw [h1, hc, hs]; rfl
    unfold getCard at hrun ⊢
    rw [this]; exact hrun
  have hadv : (advance v pc len).stat = .ready := by
    unfold advance; dsimp only; split
    · split <;> exact hst
    · cases pc <;> exact hst
  obtain ⟨x, hxx, h1, h2⟩ := moveClock_stat (s := setWarp s2 k (advance v pc len)) (k := k)
    (c := clk.getD (v.clock + weightOf w o f)) (v := advance v pc len) (by simp) hadv hcard
  have hx' : getWarp (updWarp (moveClock (setWarp s2 k (advance v pc len)) k (clk.getD (v.clock + weightOf w o f))) k after) k =
      some (after x) := by
    rw [getWarp_updWarp, if_pos rfl, hxx]; rfl
  have hu := retire_upTo (en := f.fl.en) (after := after) hv hx' (by rw [ha]; exact h1) (by rw [ha]; exact h2)
  refine ⟨_, hx, ?_⟩
  dsimp only [faultRegion, finish, takesTurn]
  have hif : ∀ b : Bool, UpToRun
      (updWarp (moveClock (setWarp s2 k (advance v pc len)) k (clk.getD (v.clock + weightOf w o f))) k after)
      (if b = true then updWarp (retire s2 k (weightOf w o f) len f.fl.en pc clk after) k fun x => addTurn x (stampOf k w0)
       else retire s2 k (weightOf w o f) len f.fl.en pc clk after) k := by
    intro b
    cases b
    · exact hu
    · exact upToRun_addTurn hu
  exact hif _

/-- A machine instruction whose own effect is the state that it shows. -/
theorem becomes_law {i : Instr} {s s1 s2 s3 : State} {k len : Nat} {o : Op} {f : Long} {w : Warp} (h : Performs i s k o f len s1 w)
    (hb : bodyOf o f len s1 k w = .done s2) (hu : UpToRun s3 s2 k) : Becomes i s k s3 := by
  obtain ⟨s0, w0, -, hw, hs, hrun, hx⟩ := performs_act h
  have hx := hx _ hb
  refine ⟨_, hx, ?_⟩
  dsimp only [faultRegion, finish, takesTurn]
  have hif : ∀ b : Bool, UpToRun s3 (if b = true then updWarp s2 k fun x => addTurn x (stampOf k w0) else s2) k := by
    intro b
    cases b
    · exact hu
    · exact upToRun_addTurn hu
  exact hif _

/-- The usual case: the next instruction follows and the clock moves by the weight. -/
theorem retires_law {i : Instr} {s s1 s2 : State} {k len : Nat} {o : Op} {f : Long} {w v : Warp}
    (h : Performs i s k o f len s1 w) (hb : bodyOf o f len s1 k w = .retire s2 .next none id) (hv : getWarp s2 k = some v)
    (hst : v.stat = .ready) (hsys : v.sys = w.sys) (hc : s2.cards = s1.cards) : Retires i s k o f len s2 v := by
  have := retiresAt_law h hb hv hst hc
  unfold Retires
  rw [weightOf_sys hsys]
  exact this

/-- Where the warp that performs stands. -/
theorem performs_ready {i : Instr} {s s1 : State} {k len : Nat} {o : Op} {f : Long} {w : Warp} (h : Performs i s k o f len s1 w) :
    w.stat = .ready := by
  obtain ⟨-, v, s0, w0, -, hw, -⟩ := h
  rw [hw]; rfl

/-- A change of a warp's registers that leaves its course alone. -/
structure RegEffect (w v : Warp) : Prop where
  sys : v.sys = w.sys
  stat : v.stat = w.stat

theorem setWarp_setWarp (s : State) (k : Nat) (v x : Warp) : setWarp (setWarp s k v) k x = setWarp s k x := by
  unfold setWarp; simp only [kinsert_kinsert]

/-- An instruction that changes registers of its warp alone. -/
theorem regOp_law {i : Instr} {s s1 : State} {k len : Nat} {o : Op} {f : Long} {w v : Warp} (h : Performs i s k o f len s1 w)
    (hb : bodyOf o f len s1 k w = .retire (setWarp s1 k v) .next none id) (hr : RegEffect w v) : Retires i s k o f len s1 v := by
  have := retires_law h hb (by simp) (by rw [hr.stat]; exact performs_ready h) hr.sys rfl
  unfold Retires RetiresAt at *
  rw [setWarp_setWarp] at this
  exact this

theorem performs_warp {i : Instr} {s s1 : State} {k len : Nat} {o : Op} {f : Long} {w : Warp} (h : Performs i s k o f len s1 w) :
    getWarp s1 k = some w := by
  obtain ⟨-, v, s0, w0, -, -, hs⟩ := h
  rw [hs]; simp

theorem performs_set {i : Instr} {s s1 : State} {k len : Nat} {o : Op} {f : Long} {w : Warp} (h : Performs i s k o f len s1 w) :
    setWarp s1 k w = s1 := by
  obtain ⟨-, v, s0, w0, -, -, hs⟩ := h
  rw [hs, setWarp_setWarp]

/-! ## Taking an exception -/

/-- A user program's precise fault enters the handler. -/
theorem trapAt_law {s s2 : State} {k cause kind : Nat} {addr : Dword} {v w : Warp} (hv : getWarp s k = some v)
    (hf : faulting s k = some (s2, w)) (hsys : w.sys = false) (htv : w.tvec ≠ 0) (hrep : v.rep = none) :
    ∃ x, getWarp (trapAt s k cause kind addr) k = some x ∧ InHandler w x cause kind addr (curPc v) v.clock ∧
      (∀ j, j ≠ k → getWarp (trapAt s k cause kind addr) j = getWarp s2 j) ∧
      { trapAt s k cause kind addr with warps := s2.warps, cur := s2.cur, runs := s2.runs } = s2 := by
  unfold faulting at hf
  unfold trapAt
  rw [hv]
  cases hset : settle s k with
  | wait => rw [hset] at hf; cases hf
  | fault a b => rw [hset] at hf; cases hf
  | ok s' =>
    rw [hset] at hf
    dsimp only at hf ⊢
    cases hd : getWarp (drainAll s' k) k with
    | none => rw [hd] at hf; cases hf
    | some w' =>
      rw [hd] at hf
      simp only [Option.map_some, Option.some.injEq, Prod.mk.injEq] at hf
      obtain ⟨h1, h2⟩ := hf
      subst h1 h2
      have hfc : faultClock v = v.clock := by unfold faultClock; rw [hrep]
      rw [hfc]
      unfold enterTrap
      rw [hd]
      simp only [hsys, Bool.false_eq_true, if_false, if_neg htv]
      generalize hy : ({ setPc { w' with
          tcause := BitVec.ofNat 64 (kind % 256 * 256 + cause), taddr := addr, tpc := curPc v, tclock := BitVec.ofNat 64 v.clock
          tfrag := BitVec.ofNat 64 (match curFrag w' with | some f => f.parent * 256 + f.id | none => 0)
          tsibs := match curFrag w' with | some f => f.sibs | none => 0
          tregion := tregionOf w', clock := v.clock, rep := none, passed := false, sys := true, pending := true } w'.tvec with
          stat := match w'.stat with | .gate a m => if v.clock < a then .ready else WStat.gate a m | _ => .ready } : Warp) = y
      have hg : getWarp (setWarp (drainAll s' k) k y) k = some y := by simp
      obtain ⟨x, hx, hs⟩ := endRun_warp hg
      have hrest := endRun_rest (setWarp (drainAll s' k) k y) k
      have hfin : InHandler w' y cause kind addr (curPc v) v.clock := by
        subst hy
        refine ⟨rfl, rfl, rfl, rfl, ?_, ?_, ?_, rfl, rfl, rfl, rfl, ⟨rfl, rfl, rfl, rfl, rfl⟩, ⟨rfl, rfl, rfl, rfl⟩, rfl, ⟨rfl, rfl, rfl, rfl⟩⟩
        · intro g hg; simp [setPc, updFrag, hg]
        · intro hr; simp [setPc, updFrag, tregionOf, hr]
        · intro r hr; simp [setPc, updFrag, tregionOf, hr]
      refine ⟨x, ?_, ?_, ?_, ?_⟩
      · subst hy; exact hx
      · unfold SameRun at hs
        have hc := fun {α : Type} (p : Warp → α) => congrArg p hs
        refine ⟨?_, ?_, ?_, ?_, ?_, ?_, ?_, ?_, ?_, ?_, ?_, ?_, ?_, ?_, ?_⟩
        · rw [← hfin.cause]; exact hc (·.tcause)
        · rw [← hfin.addr]; exact hc (·.taddr)
        · rw [← hfin.tpc]; exact hc (·.tpc)
        · rw [← hfin.tclock]; exact hc (·.tclock)
        · intro g hgf
          rw [← (hfin.tfrag g hgf).1, ← (hfin.tfrag g hgf).2]; exact ⟨hc (·.tfrag), hc (·.tsibs)⟩
        · intro hr; rw [← hfin.noRegion hr]; exact hc (·.tregion)
        · intro r hr; rw [← hfin.region r hr]; exact hc (·.tregion)
        · rw [← hfin.clock]; exact hc (·.clock)
        · rw [← hfin.sys]; exact hc (·.sys)
        · rw [← hfin.rep]; exact hc (·.rep)
        · rw [← hfin.pc]; exact hc (·.frags)
        · rw [← hfin.registers.1, ← hfin.registers.2.1, ← hfin.registers.2.2.1, ← hfin.registers.2.2.2.1, ← hfin.registers.2.2.2.2]
          exact ⟨hc (·.v), hc (·.s), hc (·.p), hc (·.j), hc (·.shadow)⟩
        · rw [← hfin.flags.1, ← hfin.flags.2.1, ← hfin.flags.2.2.1, ← hfin.flags.2.2.2]
          exact ⟨hc (·.fpstat), hc (·.lxstat), hc (·.mstat), hc (·.jstat)⟩
        · rw [← hfin.vector]; exact hc (·.tvec)
        · rw [← hfin.still.1, ← hfin.still.2.1, ← hfin.still.2.2.1, ← hfin.still.2.2.2]
          exact ⟨hc (·.region), hc (·.hand), hc (·.allot), hc (·.repidx)⟩
      · intro j hj
        subst hy
        rw [endRun_other _ hj]; simp [hj]
      · subst hy
        exact congrArg (fun y : State => { y with warps := (drainAll s' k).warps, cur := (drainAll s' k).cur, runs := (drainAll s' k).runs }) hrest

end Sys2Proof.Machine
end

