-- ==== Sys2Proof/Laws/Frames.lean ====
section
/-! SUPPORT. What the operations on memory, translations, caches and counters leave alone: one lemma per operation. -/

namespace Sys2Proof.Machine

/-- `t` differs from `s` in memory, interrupts, chips, partitions and pages on the move at most: warps, groups, cards,
publications, slots and created cards on their way are as they were. -/
def MemOnly (s t : State) : Prop :=
  { t with mem := s.mem, hostMem := s.hostMem, msi := s.msi, chips := s.chips, parts := s.parts, forwards := s.forwards,
           markers := s.markers } = s

theorem MemOnly.refl (s : State) : MemOnly s s := rfl

theorem MemOnly.trans {s t u : State} (h : MemOnly s t) (g : MemOnly t u) : MemOnly s u := by
  unfold MemOnly at *
  rw [← h]
  conv => rhs; rw [← g]

theorem MemOnly.warps {s t : State} (h : MemOnly s t) : t.warps = s.warps := by unfold MemOnly at h; rw [← h]
theorem MemOnly.cards {s t : State} (h : MemOnly s t) : t.cards = s.cards := by unfold MemOnly at h; rw [← h]
theorem MemOnly.groups {s t : State} (h : MemOnly s t) : t.groups = s.groups := by unfold MemOnly at h; rw [← h]
theorem MemOnly.pubs {s t : State} (h : MemOnly s t) : t.pubs = s.pubs := by unfold MemOnly at h; rw [← h]
theorem MemOnly.cur {s t : State} (h : MemOnly s t) : t.cur = s.cur := by unfold MemOnly at h; rw [← h]
theorem MemOnly.slots {s t : State} (h : MemOnly s t) : t.slots = s.slots := by unfold MemOnly at h; rw [← h]
theorem MemOnly.created {s t : State} (h : MemOnly s t) : t.created = s.created := by unfold MemOnly at h; rw [← h]
theorem MemOnly.getWarp {s t : State} (h : MemOnly s t) (k : Nat) : getWarp t k = getWarp s k := by
  unfold Machine.getWarp; rw [h.warps]
theorem MemOnly.getCard {s t : State} (h : MemOnly s t) (k : Nat) : getCard t k = getCard s k := by
  unfold Machine.getCard; rw [h.cards]
theorem MemOnly.getGroup {s t : State} (h : MemOnly s t) (k : Nat) : getGroup t k = getGroup s k := by
  unfold Machine.getGroup; rw [h.groups]

theorem MemOnly.foldl {α : Type} {g : State → α → State} (hg : ∀ s x, MemOnly s (g s x)) (l : List α) (s : State) :
    MemOnly s (l.foldl g s) := by
  induction l generalizing s with
  | nil => exact .refl s
  | cons x l ih => exact (hg s x).trans (ih _)

theorem setChip_memOnly (s : State) (c : Nat) (x : Chip) : MemOnly s (setChip s c x) := rfl
theorem setPart_memOnly (s : State) (p : Nat) (x : Part) : MemOnly s (setPart s p x) := rfl

/-! ## Slices (R174, R175) -/

theorem updSlice_memOnly (s : State) (ov : List Nat) (key : Nat) (f : Nat → List SLine → List SLine) :
    MemOnly s (updSlice s ov key f) := by
  unfold updSlice; dsimp only; split <;> rfl

theorem sliceTouch_memOnly (s : State) (w : Bool) (hint key : Nat) : MemOnly s (sliceTouch s w hint key) := updSlice_memOnly ..

theorem sliceTouches_memOnly (s : State) (w : Bool) (hint : Nat) (keys : List Nat) : MemOnly s (sliceTouches s w hint keys) :=
  MemOnly.foldl (fun _ _ => updSlice_memOnly ..) _ s

theorem overlayTrim_memOnly (s : State) (keys : List Nat) : MemOnly s (overlayTrim s keys) :=
  MemOnly.foldl (fun _ _ => updSlice_memOnly ..) _ s

theorem sliceDrop_memOnly (s : State) (c : Nat) (hit : Nat → Bool) : MemOnly s (sliceDrop s c hit) := rfl

theorem setEntryBit_memOnly (s : State) (a i : Nat) : MemOnly s (setEntryBit s a i) :=
  MemOnly.trans (t := { s with mem := wrBytes s.mem a (leBytes 8 ((rdEntry s a) ||| BitVec.ofNat 64 (2 ^ i)).toNat) }) rfl
    (sliceTouch_memOnly ..)
theorem dropTlb_memOnly (s : State) (c : Nat) (hit : Tlb → Bool) : MemOnly s (dropTlb s c hit) := rfl

/-! ## Translation (R155, R157, R170) -/

theorem enterL1_memOnly (s : State) (z : Site) (t : Tlb) : MemOnly s (enterL1 s z t) := by
  unfold enterL1; split <;> rfl

theorem switchHome_memOnly (s : State) (c : Nat) (t : Tlb) : MemOnly s (switchHome s c t) := by
  rfl

theorem walkTouch_memOnly (s : State) (z : Site) (va : Nat) : MemOnly s (walkTouch s z va) := by
  unfold walkTouch; split
  · rfl
  · exact sliceTouches_memOnly ..

theorem install_memOnly (s : State) (z : Site) (va : Nat) : MemOnly s (install s z va) := by
  unfold install
  split
  · rfl
  · split
    · exact enterL1_memOnly ..
    · dsimp only
      split
      · exact walkTouch_memOnly ..
      · have h : ∀ (s : State) (t : Tlb) (path : List Tlb) (c : Nat),
            MemOnly s (switchHome (enterL1 (enterDie s z t path) z t) c t) := fun s t path c =>
          (show MemOnly s (enterDie s z t path) from rfl).trans ((enterL1_memOnly ..).trans (switchHome_memOnly ..))
        refine MemOnly.trans ?_ (h ..)
        split
        · exact sliceTouches_memOnly s false 0 _
        · exact (sliceTouches_memOnly s false 0 _).trans (setEntryBit_memOnly ..)

theorem setDirty_memOnly (s : State) (z : Site) (va : Nat) : MemOnly s (setDirty s z va) := by
  unfold setDirty
  split
  · rfl
  · split
    · rfl
    · exact (setEntryBit_memOnly ..).trans rfl

theorem installAll_memOnly (s : State) (z : Site) (xs : List Acc) : MemOnly s (installAll s z xs) := by
  unfold installAll
  refine MemOnly.foldl (fun s x => ?_) xs s
  split
  · exact install_memOnly ..
  · rfl

/-- The accessed and dirty bits of a store's elements. -/
theorem dirtyAll_memOnly (s : State) (z : Site) (xs : List Acc) : MemOnly s (dirtyAll s z xs) := by
  unfold dirtyAll
  refine MemOnly.foldl (fun s x => ?_) xs s
  split
  · exact (install_memOnly ..).trans (setDirty_memOnly ..)
  · rfl

theorem reportSecure_memOnly (s : State) (p : Nat) (e : XErr) : MemOnly s (reportSecure s p e) := by
  unfold reportSecure; split <;> rfl

/-! ## Faults posted, counters (R339, R340) -/

theorem postFault_memOnly (s : State) (p : Nat) (e : List Byte) : MemOnly s (postFault s p e) := by
  unfold postFault; dsimp only; split <;> rfl

theorem addCount_memOnly (s : State) (p : Nat) (x : Xlat) (home n : Nat) : MemOnly s (addCount s p x home n) := by
  unfold addCount
  dsimp only
  split
  · exact (setChip_memOnly ..).trans (postFault_memOnly ..)
  · rfl

theorem countPages_memOnly (s : State) (z : Site) (xs : List (Nat × Xlat)) : MemOnly s (countPages s z xs) := by
  unfold countPages
  refine MemOnly.foldl (fun s x => ?_) _ s
  dsimp only
  split
  · rfl
  · exact addCount_memOnly ..

/-! ## The L1 (R171) -/

theorem updCore_memOnly (s : State) (k : Nat) (f : Core → Core) : MemOnly s (updCore s k f) := by
  unfold updCore; split <;> rfl

theorem l1Clear_memOnly (s : State) (k : Nat) : MemOnly s (l1Clear s k) := updCore_memOnly ..

theorem freeWrite_memOnly (s : State) (k key : Nat) (bs : List Byte) (hint : Nat) : MemOnly s (freeWrite s k key bs hint) :=
  MemOnly.trans (t := { s with mem := wrBytes s.mem key bs }) rfl ((updCore_memOnly ..).trans (sliceTouches_memOnly ..))

theorem bringL1_memOnly (s : State) (k : Nat) (w : Warp) (hint : Nat) (keys : List Nat) : MemOnly s (bringL1 s k w hint keys) := by
  unfold bringL1
  dsimp only
  split
  · rfl
  · exact updCore_memOnly ..

theorem noteReplica_memOnly (s : State) (k : Nat) (x : Acc) : MemOnly s (noteReplica s k x) := by
  unfold noteReplica
  dsimp only
  split
  · rfl
  · split
    · split <;> rfl
    · rfl

theorem bringLines_memOnly (s : State) (k : Nat) (w : Warp) (hint : Nat) (away : Acc → Bool) (xs : List (Acc × List Nat)) :
    MemOnly s (bringLines s k w hint away xs) := by
  unfold bringLines
  exact (MemOnly.foldl (fun s x => noteReplica_memOnly ..) _ s).trans ((bringL1_memOnly ..).trans (sliceTouches_memOnly ..))

theorem loadLines_memOnly (s : State) (k : Nat) (w : Warp) (hint : Nat) (xs : List Acc) : MemOnly s (loadLines s k w hint xs) :=
  bringLines_memOnly ..

theorem rangeWalks_memOnly (s : State) (z : Site) (ps : List (Nat × Nat)) : MemOnly s (rangeWalks s z ps) :=
  MemOnly.foldl (fun _ _ => walkTouch_memOnly ..) _ s

theorem invRange_memOnly (s : State) (k : Nat) (lo : Int) (n : Nat) : MemOnly s (invRange s k lo n) := by
  unfold invRange
  exact (rangeWalks_memOnly ..).trans (updCore_memOnly ..)

/-! ## Flits (R330) -/

theorem sendFlit_memOnly (s : State) (c dest : Nat) (x : FlitPayload) : MemOnly s (sendFlit s c dest x) := rfl

theorem sendFlits_memOnly (s : State) (c dest n : Nat) (x : Nat → FlitPayload) : MemOnly s (sendFlits s c dest n x) := by
  unfold sendFlits
  split
  · rfl
  · split
    · rfl
    · exact MemOnly.foldl (fun s i => sendFlit_memOnly ..) _ s

theorem keepReplica_memOnly (s : State) (c ctx : Nat) (e : RSrc) : MemOnly s (keepReplica s c ctx e) := by
  unfold keepReplica; split <;> rfl

/-! ## What memory reads as -/

theorem updCore_mem (s : State) (k : Nat) (f : Core → Core) : (updCore s k f).mem = s.mem := by
  unfold updCore; split <;> rfl

theorem updSlice_mem (s : State) (ov : List Nat) (key : Nat) (f : Nat → List SLine → List SLine) : (updSlice s ov key f).mem = s.mem := by
  unfold updSlice; dsimp only; split <;> rfl

theorem sliceTouch_mem (s : State) (w : Bool) (hint key : Nat) : (sliceTouch s w hint key).mem = s.mem := updSlice_mem ..

theorem sliceTouches_mem (s : State) (w : Bool) (hint : Nat) (keys : List Nat) : (sliceTouches s w hint keys).mem = s.mem := by
  unfold sliceTouches
  dsimp only
  generalize overlayLines s = ov
  generalize (sparse (keys.map lineOf)).eraseDups = l
  induction l generalizing s with
  | nil => rfl
  | cons k l ih => exact (ih _).trans (updSlice_mem ..)

theorem freeWrite_mem (s : State) (k key : Nat) (bs : List Byte) (hint : Nat) : (freeWrite s k key bs hint).mem = wrBytes s.mem key bs := by
  unfold freeWrite; rw [sliceTouches_mem, updCore_mem]

/-! ## Retirement over such an effect -/

/-- An instruction whose effect changes memory, chips and partitions, and its own warp. -/
theorem memOp_law {i : Instr} {s s1 s2 : State} {k len : Nat} {o : Op} {f : Long} {w v : Warp} (h : Performs i s k o f len s1 w)
    (hb : bodyOf o f len s1 k w = .retire (setWarp s2 k v) .next none id) (hm : MemOnly s1 s2) (hr : RegEffect w v) :
    Retires i s k o f len s2 v := by
  have := retires_law h hb (by simp) (by rw [hr.stat]; exact performs_ready h) hr.sys hm.cards
  unfold Retires RetiresAt at *
  rw [setWarp_setWarp] at this
  exact this

/-- As `memOp_law`, where the warp is the one that performs. -/
theorem memKeep_law {i : Instr} {s s1 s2 : State} {k len : Nat} {o : Op} {f : Long} {w : Warp} (h : Performs i s k o f len s1 w)
    (hb : bodyOf o f len s1 k w = .retire s2 .next none id) (hm : MemOnly s1 s2) : Retires i s k o f len s2 w :=
  retires_law h hb (by rw [hm.getWarp]; exact performs_warp h) (performs_ready h) rfl hm.cards

theorem kmodify_kinsert {α : Type} (m : KMap α) (i : Nat) (x : α) (g : α → α) : kmodify (kinsert m i x) i g = kinsert m i (g x) := by
  induction m with
  | nil => simp [kinsert, kmodify]
  | cons e m ih =>
    obtain ⟨j, y⟩ := e
    simp only [kinsert]
    split
    · simp [kmodify]
    · split
      · simp [kmodify]
      · rename_i h1 h2
        simp only [kmodify]
        rw [if_neg (Ne.symm h2), ih]

/-- A change of the warp that performs, in a state whose warps are as they were where it performs. -/
theorem updWarp_performs {i : Instr} {s s1 s2 : State} {k len : Nat} {o : Op} {f : Long} {w : Warp} (h : Performs i s k o f len s1 w)
    (hw : s2.warps = s1.warps) (g : Warp → Warp) : updWarp s2 k g = setWarp s2 k (g w) := by
  obtain ⟨-, v, s0, w0, -, -, hs⟩ := h
  unfold updWarp setWarp
  rw [hw, hs]
  simp only [setWarp, kmodify_kinsert, kinsert_kinsert]

end Sys2Proof.Machine
end

