-- ==== Sys2Proof/Laws/Memory.lean ====
section
/-! SUPPORT. Laws of memory: what a byte reads as after a write, and that every memory operation keeps the canonical form. -/

namespace Sys2Proof.Machine

theorem Memory.wf_nil : Memory.wf [] = true := rfl

/-! ## Canonical form -/

theorem wf_wrByte {m : Memory} (k : Nat) (b : Byte) (h : m.wf = true) : (wrByte m k b).wf = true := swf_sput k b h

theorem wf_wrBytes {m : Memory} (k : Nat) (l : List Byte) (h : m.wf = true) : (wrBytes m k l).wf = true := by
  induction l generalizing m k with
  | nil => exact h
  | cons b r ih => exact ih (k + 1) (wf_wrByte k b h)

/-- A fold whose every step keeps the form keeps it. -/
theorem wf_foldl {β : Type} {f : Memory → β → Memory} (hf : ∀ m b, m.wf = true → (f m b).wf = true) (l : List β) :
    ∀ {m : Memory}, m.wf = true → (l.foldl f m).wf = true := by
  induction l with
  | nil => exact id
  | cons b r ih => exact fun h => ih (hf _ b h)

theorem wf_wrPairs {m : Memory} (l : List (Nat × Byte)) (h : m.wf = true) : (wrPairs m l).wf = true :=
  wf_foldl (fun _ e h => wf_wrByte e.1 e.2 h) l h

theorem krising_filter (q : Nat × Byte → Bool) (m : Memory) :
    ∀ lo : Option Nat, krising lo m = true → krising lo (m.filter q) = true := by
  induction m with
  | nil => exact fun _ h => h
  | cons e m ih =>
    intro lo h
    have hm : krising (some e.1) m = true := by simp only [krising, Bool.and_eq_true] at h; exact h.2
    rw [List.filter_cons]
    split
    · have := ih _ hm
      cases lo <;> simp_all [krising]
    · cases lo with
      | none => exact krising_none (ih _ hm)
      | some l =>
        simp only [krising, Bool.and_eq_true, decide_eq_true_eq] at h
        exact krising_weaken (ih _ hm) (by omega)

/-- Leaving bytes out keeps the form. -/
theorem wf_filter {m : Memory} (q : Nat × Byte → Bool) (h : m.wf = true) : Memory.wf (m.filter q) = true := by
  unfold Memory.wf at *
  rw [swf_iff] at h ⊢
  exact ⟨krising_filter q m none h.1, fun e he => h.2 e (List.mem_of_mem_filter he)⟩

/-- The bytes of a span lie between those below it and those above it. -/
theorem span_pairwise {m : Memory} (k n : Nat) (f : Nat → Byte) (h : m.wf = true) :
    (wrSpan m k n f).Pairwise fun a b => a.1 < b.1 := by
  have hp := ((krising_iff m none).mp (swf_iff.mp h).1).2
  unfold wrSpan
  simp only [List.pairwise_append, List.mem_append, List.mem_filter, List.mem_map, List.mem_range, decide_eq_true_eq]
  refine ⟨⟨hp.filter _, .filter _ (List.pairwise_map.mpr (List.pairwise_lt_range.imp fun h => by simpa using h)), ?_⟩, hp.filter _, ?_⟩
  · rintro a ⟨-, ha⟩ b ⟨⟨i, hi, rfl⟩, -⟩
    simp; omega
  · rintro a (⟨-, ha⟩ | ⟨⟨i, hi, rfl⟩, -⟩) b ⟨-, hb⟩
    · omega
    · simp; omega

/-- A span that is written keeps the form (R300). -/
theorem wf_wrSpan {m : Memory} (k n : Nat) (f : Nat → Byte) (h : m.wf = true) : (wrSpan m k n f).wf = true := by
  refine swf_iff.mpr ⟨(krising_iff _ none).mpr ⟨by simp, span_pairwise k n f h⟩, fun e he => ?_⟩
  simp only [wrSpan, List.mem_append, List.mem_filter, List.mem_map] at he
  rcases he with (⟨he, -⟩ | ⟨-, he⟩) | ⟨he, -⟩
  · exact (swf_iff.mp h).2 e he
  · simpa using he
  · exact (swf_iff.mp h).2 e he

/-- A byte after a span is written: its value there, or what it was. -/
theorem rdByte_wrSpan {m : Memory} (k n i : Nat) (f : Nat → Byte) (h : m.wf = true) :
    rdByte (wrSpan m k n f) i = if k ≤ i ∧ i < k + n then f (i - k) else rdByte m i := by
  have hp := ((krising_iff m none).mp (swf_iff.mp h).1).2
  have hs := span_pairwise k n f h
  have hmem (x : Byte) : (i, x) ∈ wrSpan m k n f ↔
      if k ≤ i ∧ i < k + n then x = f (i - k) ∧ x ≠ 0 else (i, x) ∈ m := by
    simp only [wrSpan, List.mem_append, List.mem_filter, List.mem_map, List.mem_range, decide_eq_true_eq, bne_iff_ne, ne_eq, Prod.mk.injEq]
    constructor
    · rintro ((⟨hm, hi⟩ | ⟨⟨j, hj, rfl, rfl⟩, hx⟩) | ⟨hm, hi⟩)
      · rw [if_neg (by omega)]; exact hm
      · rw [if_pos (by omega)]; exact ⟨by congr 1; omega, hx⟩
      · rw [if_neg (by omega)]; exact hm
    · split
      · rintro ⟨rfl, hx⟩
        exact .inl (.inr ⟨⟨i - k, by omega, by omega, rfl⟩, hx⟩)
      · intro hm
        by_cases hi : i < k
        · exact .inl (.inl ⟨hm, hi⟩)
        · exact .inr ⟨hm, by omega⟩
  unfold rdByte sget
  split
  · rename_i hin
    cases hk : kfind (wrSpan m k n f) i with
    | some x =>
      have := (hmem x).mp ((kfind_iff hs i x).mp hk)
      rw [if_pos hin] at this
      exact this.1
    | none =>
      by_cases h0 : f (i - k) = 0
      · simp [h0]
      · have := (kfind_iff hs i _).mpr ((hmem (f (i - k))).mpr (by rw [if_pos hin]; exact ⟨rfl, h0⟩))
        simp [this] at hk
  · rename_i hout
    congr 1
    apply Option.ext
    intro x
    rw [kfind_iff hs, kfind_iff hp, hmem, if_neg hout]

/-- A publication that is applied keeps the form (R184). -/
theorem wf_applyPub {m : Memory} (x : Pub) (h : m.wf = true) : (applyPub m x).wf = true := by
  unfold applyPub
  split
  · exact wf_wrPairs _ h
  · exact wf_wrBytes _ _ h

/-- Every image of a domain has the form (R185). -/
theorem wf_image {s : State} (d : Nat) (t : Stamp) (h : s.mem.wf = true) : (image s d t).wf = true :=
  wf_foldl (fun _ x h => wf_applyPub x h) _ h

/-- A page that moves keeps the form (R341). -/
theorem wf_movePage {m : Memory} (old new size : Nat) (closed : Nat → Bool) (h : m.wf = true) :
    (movePage m old new size closed).wf = true :=
  wf_foldl (fun _ e h => wf_wrByte _ e.2 h) _ (wf_filter _ h)

/-! ## Reading after writing -/

theorem rdByte_wrByte {m : Memory} (k i : Nat) (b : Byte) (h : m.wf = true) :
    rdByte (wrByte m k b) i = if i = k then b else rdByte m i := sget_sput k i b h

theorem rdByte_wrByte_ne (m : Memory) {k i : Nat} (b : Byte) (h : i ≠ k) : rdByte (wrByte m k b) i = rdByte m i :=
  sget_sput_ne b h

/-- A byte after a write of bytes: the byte written there, or what it was. -/
theorem rdByte_wrBytes {m : Memory} (k i : Nat) (l : List Byte) (h : m.wf = true) :
    rdByte (wrBytes m k l) i = if k ≤ i then (l[i - k]?).getD (rdByte m i) else rdByte m i := by
  induction l generalizing m k with
  | nil => simp [wrBytes]
  | cons b r ih =>
    rw [wrBytes, ih (k + 1) (wf_wrByte k b h), rdByte_wrByte k i b h]
    by_cases hk : k ≤ i
    · rw [if_pos hk]
      by_cases he : i = k
      · subst he; simp
      · rw [if_pos (by omega), show i - k = (i - (k + 1)) + 1 by omega, List.getElem?_cons_succ, if_neg he]
    · rw [if_neg hk, if_neg (by omega), if_neg (by omega)]

/-- A write leaves every byte outside it alone, whatever the memory. -/
theorem rdByte_wrBytes_out (m : Memory) (k i : Nat) (l : List Byte) (h : i < k ∨ k + l.length ≤ i) :
    rdByte (wrBytes m k l) i = rdByte m i := by
  induction l generalizing m k with
  | nil => rfl
  | cons b r ih =>
    simp only [List.length_cons] at h
    rw [wrBytes, ih _ (k + 1) (by omega), rdByte_wrByte_ne _ _ (by omega)]

theorem rdBytes_length (m : Memory) (k n : Nat) : (rdBytes m k n).length = n := by simp [rdBytes]

/-- What is read where bytes were written is what was written. -/
theorem rdBytes_wrBytes {m : Memory} (k : Nat) (l : List Byte) (h : m.wf = true) :
    rdBytes (wrBytes m k l) k l.length = l := by
  apply List.ext_getElem
  · simp [rdBytes]
  · intro i h1 h2
    simp only [rdBytes, List.getElem_map, List.getElem_range]
    rw [rdByte_wrBytes k (k + i) l h, if_pos (by omega)]
    simp [h2]

end Sys2Proof.Machine
end

