-- ==== Sys2Proof/Laws/PerInstr.lean ====
section
/-! SUPPORT. The family `Length`, constructor by constructor: an instruction's words are as many as its length says (R40). -/

namespace Sys2Proof.Laws

/-- The encoding of a machine instruction is as long as its core says. -/
def Length.Statement (i : Instr) : Prop := ∀ o f n, i.core = some (o, f, n) → (encode i).length * 4 = n

theorem long_length (maj : Nat) (f : Long) : (Enc.long maj f).length * 4 = f.len := by
  unfold Enc.long Long.len; cases f.lit <;> rfl

theorem shortR_length (maj : Nat) (f : ShortR) : (Enc.shortR maj f).length * 4 = f.len := by
  unfold Enc.shortR ShortR.len; cases f.lit <;> rfl

theorem shortI_length (maj : Nat) (f : ShortI) : (Enc.shortI maj f).length * 4 = f.len := by
  unfold Enc.shortI ShortI.len; cases f.lit <;> rfl

theorem Length.nopShort (f : ShortZ) : Length.Statement (.nopShort f) := fun _ _ _ h => by cases h; rfl
theorem Length.nopLong (f : Long) : Length.Statement (.nopLong f) := fun _ _ _ h => by cases h; exact long_length _ _
theorem Length.braShort (f : ShortB) : Length.Statement (.braShort f) := fun _ _ _ h => by cases h; rfl
theorem Length.braLong (f : Long) : Length.Statement (.braLong f) := fun _ _ _ h => by cases h; exact long_length _ _
theorem Length.brcShort (f : ShortC) : Length.Statement (.brcShort f) := fun _ _ _ h => by cases h; rfl
theorem Length.brcLong (f : Long) : Length.Statement (.brcLong f) := fun _ _ _ h => by cases h; exact long_length _ _
theorem Length.brxShort (f : ShortA) : Length.Statement (.brxShort f) := fun _ _ _ h => by cases h; rfl
theorem Length.brxLong (f : Long) : Length.Statement (.brxLong f) := fun _ _ _ h => by cases h; exact long_length _ _
theorem Length.call (f : Long) : Length.Statement (.call f) := fun _ _ _ h => by cases h; exact long_length _ _
theorem Length.callReg (f : Long) : Length.Statement (.callReg f) := fun _ _ _ h => by cases h; exact long_length _ _
theorem Length.ret (f : Long) : Length.Statement (.ret f) := fun _ _ _ h => by cases h; exact long_length _ _
theorem Length.mark (f : Long) : Length.Statement (.mark f) := fun _ _ _ h => by cases h; exact long_length _ _
theorem Length.joinShort (f : ShortA) : Length.Statement (.joinShort f) := fun _ _ _ h => by cases h; rfl
theorem Length.joinLong (f : Long) : Length.Statement (.joinLong f) := fun _ _ _ h => by cases h; exact long_length _ _
theorem Length.exitShort (f : ShortZ) : Length.Statement (.exitShort f) := fun _ _ _ h => by cases h; rfl
theorem Length.exitLong (f : Long) : Length.Statement (.exitLong f) := fun _ _ _ h => by cases h; exact long_length _ _
theorem Length.rep (f : Long) : Length.Statement (.rep f) := fun _ _ _ h => by cases h; exact long_length _ _
theorem Length.repReg (f : Long) : Length.Statement (.repReg f) := fun _ _ _ h => by cases h; exact long_length _ _
theorem Length.rgn (f : Long) : Length.Statement (.rgn f) := fun _ _ _ h => by cases h; exact long_length _ _
theorem Length.trap (f : Long) : Length.Statement (.trap f) := fun _ _ _ h => by cases h; exact long_length _ _
theorem Length.bpt (f : Long) : Length.Statement (.bpt f) := fun _ _ _ h => by cases h; exact long_length _ _
theorem Length.eret (f : Long) : Length.Statement (.eret f) := fun _ _ _ h => by cases h; exact long_length _ _
theorem Length.srd (f : Long) : Length.Statement (.srd f) := fun _ _ _ h => by cases h; exact long_length _ _
theorem Length.srdHi (f : Long) : Length.Statement (.srdHi f) := fun _ _ _ h => by cases h; exact long_length _ _
theorem Length.swr (f : Long) : Length.Statement (.swr f) := fun _ _ _ h => by cases h; exact long_length _ _
theorem Length.give (f : Long) : Length.Statement (.give f) := fun _ _ _ h => by cases h; exact long_length _ _
theorem Length.claim (f : Long) : Length.Statement (.claim f) := fun _ _ _ h => by cases h; exact long_length _ _
theorem Length.jmovToS (f : Long) : Length.Statement (.jmovToS f) := fun _ _ _ h => by cases h; exact long_length _ _
theorem Length.jmovToJ (f : Long) : Length.Statement (.jmovToJ f) := fun _ _ _ h => by cases h; exact long_length _ _
theorem Length.saddShort (f : ShortI) : Length.Statement (.saddShort f) := fun _ _ _ h => by cases h; exact shortI_length _ _
theorem Length.saddLong (f : Long) : Length.Statement (.saddLong f) := fun _ _ _ h => by cases h; exact long_length _ _
theorem Length.ssubShort (f : ShortI) : Length.Statement (.ssubShort f) := fun _ _ _ h => by cases h; exact shortI_length _ _
theorem Length.ssubLong (f : Long) : Length.Statement (.ssubLong f) := fun _ _ _ h => by cases h; exact long_length _ _
theorem Length.smulShort (f : ShortI) : Length.Statement (.smulShort f) := fun _ _ _ h => by cases h; exact shortI_length _ _
theorem Length.smulLong (f : Long) : Length.Statement (.smulLong f) := fun _ _ _ h => by cases h; exact long_length _ _
theorem Length.sandShort (f : ShortI) : Length.Statement (.sandShort f) := fun _ _ _ h => by cases h; exact shortI_length _ _
theorem Length.sandLong (f : Long) : Length.Statement (.sandLong f) := fun _ _ _ h => by cases h; exact long_length _ _
theorem Length.sorShort (f : ShortI) : Length.Statement (.sorShort f) := fun _ _ _ h => by cases h; exact shortI_length _ _
theorem Length.sorLong (f : Long) : Length.Statement (.sorLong f) := fun _ _ _ h => by cases h; exact long_length _ _
theorem Length.sxorShort (f : ShortI) : Length.Statement (.sxorShort f) := fun _ _ _ h => by cases h; exact shortI_length _ _
theorem Length.sxorLong (f : Long) : Length.Statement (.sxorLong f) := fun _ _ _ h => by cases h; exact long_length _ _
theorem Length.sshlShort (f : ShortI) : Length.Statement (.sshlShort f) := fun _ _ _ h => by cases h; exact shortI_length _ _
theorem Length.sshlLong (f : Long) : Length.Statement (.sshlLong f) := fun _ _ _ h => by cases h; exact long_length _ _
theorem Length.sshrShort (f : ShortI) : Length.Statement (.sshrShort f) := fun _ _ _ h => by cases h; exact shortI_length _ _
theorem Length.sshrLong (f : Long) : Length.Statement (.sshrLong f) := fun _ _ _ h => by cases h; exact long_length _ _
theorem Length.ssraShort (f : ShortI) : Length.Statement (.ssraShort f) := fun _ _ _ h => by cases h; exact shortI_length _ _
theorem Length.ssraLong (f : Long) : Length.Statement (.ssraLong f) := fun _ _ _ h => by cases h; exact long_length _ _
theorem Length.scmpShort (f : ShortI) : Length.Statement (.scmpShort f) := fun _ _ _ h => by cases h; exact shortI_length _ _
theorem Length.scmpLong (f : Long) : Length.Statement (.scmpLong f) := fun _ _ _ h => by cases h; exact long_length _ _
theorem Length.sselShort (f : ShortI) : Length.Statement (.sselShort f) := fun _ _ _ h => by cases h; exact shortI_length _ _
theorem Length.sselLong (f : Long) : Length.Statement (.sselLong f) := fun _ _ _ h => by cases h; exact long_length _ _
theorem Length.smovShort (f : ShortI) : Length.Statement (.smovShort f) := fun _ _ _ h => by cases h; exact shortI_length _ _
theorem Length.smovLong (f : Long) : Length.Statement (.smovLong f) := fun _ _ _ h => by cases h; exact long_length _ _
theorem Length.vaddShort (f : ShortR) : Length.Statement (.vaddShort f) := fun _ _ _ h => by cases h; exact shortR_length _ _
theorem Length.vaddLong (f : Long) : Length.Statement (.vaddLong f) := fun _ _ _ h => by cases h; exact long_length _ _
theorem Length.vsubShort (f : ShortR) : Length.Statement (.vsubShort f) := fun _ _ _ h => by cases h; exact shortR_length _ _
theorem Length.vsubLong (f : Long) : Length.Statement (.vsubLong f) := fun _ _ _ h => by cases h; exact long_length _ _
theorem Length.vaddsShort (f : ShortR) : Length.Statement (.vaddsShort f) := fun _ _ _ h => by cases h; exact shortR_length _ _
theorem Length.vaddsLong (f : Long) : Length.Statement (.vaddsLong f) := fun _ _ _ h => by cases h; exact long_length _ _
theorem Length.vsubsShort (f : ShortR) : Length.Statement (.vsubsShort f) := fun _ _ _ h => by cases h; exact shortR_length _ _
theorem Length.vsubsLong (f : Long) : Length.Statement (.vsubsLong f) := fun _ _ _ h => by cases h; exact long_length _ _
theorem Length.vmul24Short (f : ShortR) : Length.Statement (.vmul24Short f) := fun _ _ _ h => by cases h; exact shortR_length _ _
theorem Length.vmul24Long (f : Long) : Length.Statement (.vmul24Long f) := fun _ _ _ h => by cases h; exact long_length _ _
theorem Length.vmad24Short (f : ShortR) : Length.Statement (.vmad24Short f) := fun _ _ _ h => by cases h; exact shortR_length _ _
theorem Length.vmad24Long (f : Long) : Length.Statement (.vmad24Long f) := fun _ _ _ h => by cases h; exact long_length _ _
theorem Length.vmulShort (f : ShortR) : Length.Statement (.vmulShort f) := fun _ _ _ h => by cases h; exact shortR_length _ _
theorem Length.vmulLong (f : Long) : Length.Statement (.vmulLong f) := fun _ _ _ h => by cases h; exact long_length _ _
theorem Length.vmulhShort (f : ShortR) : Length.Statement (.vmulhShort f) := fun _ _ _ h => by cases h; exact shortR_length _ _
theorem Length.vmulhLong (f : Long) : Length.Statement (.vmulhLong f) := fun _ _ _ h => by cases h; exact long_length _ _
theorem Length.vmadShort (f : ShortR) : Length.Statement (.vmadShort f) := fun _ _ _ h => by cases h; exact shortR_length _ _
theorem Length.vmadLong (f : Long) : Length.Statement (.vmadLong f) := fun _ _ _ h => by cases h; exact long_length _ _
theorem Length.vminShort (f : ShortR) : Length.Statement (.vminShort f) := fun _ _ _ h => by cases h; exact shortR_length _ _
theorem Length.vminLong (f : Long) : Length.Statement (.vminLong f) := fun _ _ _ h => by cases h; exact long_length _ _
theorem Length.vmaxShort (f : ShortR) : Length.Statement (.vmaxShort f) := fun _ _ _ h => by cases h; exact shortR_length _ _
theorem Length.vmaxLong (f : Long) : Length.Statement (.vmaxLong f) := fun _ _ _ h => by cases h; exact long_length _ _
theorem Length.vabsShort (f : ShortR) : Length.Statement (.vabsShort f) := fun _ _ _ h => by cases h; exact shortR_length _ _
theorem Length.vabsLong (f : Long) : Length.Statement (.vabsLong f) := fun _ _ _ h => by cases h; exact long_length _ _
theorem Length.vandShort (f : ShortR) : Length.Statement (.vandShort f) := fun _ _ _ h => by cases h; exact shortR_length _ _
theorem Length.vandLong (f : Long) : Length.Statement (.vandLong f) := fun _ _ _ h => by cases h; exact long_length _ _
theorem Length.vorShort (f : ShortR) : Length.Statement (.vorShort f) := fun _ _ _ h => by cases h; exact shortR_length _ _
theorem Length.vorLong (f : Long) : Length.Statement (.vorLong f) := fun _ _ _ h => by cases h; exact long_length _ _
theorem Length.vxorShort (f : ShortR) : Length.Statement (.vxorShort f) := fun _ _ _ h => by cases h; exact shortR_length _ _
theorem Length.vxorLong (f : Long) : Length.Statement (.vxorLong f) := fun _ _ _ h => by cases h; exact long_length _ _
theorem Length.vnotShort (f : ShortR) : Length.Statement (.vnotShort f) := fun _ _ _ h => by cases h; exact shortR_length _ _
theorem Length.vnotLong (f : Long) : Length.Statement (.vnotLong f) := fun _ _ _ h => by cases h; exact long_length _ _
theorem Length.vshlShort (f : ShortR) : Length.Statement (.vshlShort f) := fun _ _ _ h => by cases h; exact shortR_length _ _
theorem Length.vshlLong (f : Long) : Length.Statement (.vshlLong f) := fun _ _ _ h => by cases h; exact long_length _ _
theorem Length.vshrShort (f : ShortR) : Length.Statement (.vshrShort f) := fun _ _ _ h => by cases h; exact shortR_length _ _
theorem Length.vshrLong (f : Long) : Length.Statement (.vshrLong f) := fun _ _ _ h => by cases h; exact long_length _ _
theorem Length.vsraShort (f : ShortR) : Length.Statement (.vsraShort f) := fun _ _ _ h => by cases h; exact shortR_length _ _
theorem Length.vsraLong (f : Long) : Length.Statement (.vsraLong f) := fun _ _ _ h => by cases h; exact long_length _ _
theorem Length.vrotShort (f : ShortR) : Length.Statement (.vrotShort f) := fun _ _ _ h => by cases h; exact shortR_length _ _
theorem Length.vrotLong (f : Long) : Length.Statement (.vrotLong f) := fun _ _ _ h => by cases h; exact long_length _ _
theorem Length.vbfeShort (f : ShortR) : Length.Statement (.vbfeShort f) := fun _ _ _ h => by cases h; exact shortR_length _ _
theorem Length.vbfeLong (f : Long) : Length.Statement (.vbfeLong f) := fun _ _ _ h => by cases h; exact long_length _ _
theorem Length.vbfiShort (f : ShortR) : Length.Statement (.vbfiShort f) := fun _ _ _ h => by cases h; exact shortR_length _ _
theorem Length.vbfiLong (f : Long) : Length.Statement (.vbfiLong f) := fun _ _ _ h => by cases h; exact long_length _ _
theorem Length.vpopcShort (f : ShortR) : Length.Statement (.vpopcShort f) := fun _ _ _ h => by cases h; exact shortR_length _ _
theorem Length.vpopcLong (f : Long) : Length.Statement (.vpopcLong f) := fun _ _ _ h => by cases h; exact long_length _ _
theorem Length.vclzShort (f : ShortR) : Length.Statement (.vclzShort f) := fun _ _ _ h => by cases h; exact shortR_length _ _
theorem Length.vclzLong (f : Long) : Length.Statement (.vclzLong f) := fun _ _ _ h => by cases h; exact long_length _ _
theorem Length.vbrevShort (f : ShortR) : Length.Statement (.vbrevShort f) := fun _ _ _ h => by cases h; exact shortR_length _ _
theorem Length.vbrevLong (f : Long) : Length.Statement (.vbrevLong f) := fun _ _ _ h => by cases h; exact long_length _ _
theorem Length.vcmpShort (f : ShortR) : Length.Statement (.vcmpShort f) := fun _ _ _ h => by cases h; exact shortR_length _ _
theorem Length.vcmpLong (f : Long) : Length.Statement (.vcmpLong f) := fun _ _ _ h => by cases h; exact long_length _ _
theorem Length.vselShort (f : ShortR) : Length.Statement (.vselShort f) := fun _ _ _ h => by cases h; exact shortR_length _ _
theorem Length.vselLong (f : Long) : Length.Statement (.vselLong f) := fun _ _ _ h => by cases h; exact long_length _ _
theorem Length.vmovShort (f : ShortR) : Length.Statement (.vmovShort f) := fun _ _ _ h => by cases h; exact shortR_length _ _
theorem Length.vmovLong (f : Long) : Length.Statement (.vmovLong f) := fun _ _ _ h => by cases h; exact long_length _ _
theorem Length.vmovBc (f : Long) : Length.Statement (.vmovBc f) := fun _ _ _ h => by cases h; exact long_length _ _
theorem Length.vfaddShort (f : ShortR) : Length.Statement (.vfaddShort f) := fun _ _ _ h => by cases h; exact shortR_length _ _
theorem Length.vfaddLong (f : Long) : Length.Statement (.vfaddLong f) := fun _ _ _ h => by cases h; exact long_length _ _
theorem Length.vfsubShort (f : ShortR) : Length.Statement (.vfsubShort f) := fun _ _ _ h => by cases h; exact shortR_length _ _
theorem Length.vfsubLong (f : Long) : Length.Statement (.vfsubLong f) := fun _ _ _ h => by cases h; exact long_length _ _
theorem Length.vfmulShort (f : ShortR) : Length.Statement (.vfmulShort f) := fun _ _ _ h => by cases h; exact shortR_length _ _
theorem Length.vfmulLong (f : Long) : Length.Statement (.vfmulLong f) := fun _ _ _ h => by cases h; exact long_length _ _
theorem Length.vffma (f : Long) : Length.Statement (.vffma f) := fun _ _ _ h => by cases h; exact long_length _ _
theorem Length.vfmin (f : Long) : Length.Statement (.vfmin f) := fun _ _ _ h => by cases h; exact long_length _ _
theorem Length.vfmax (f : Long) : Length.Statement (.vfmax f) := fun _ _ _ h => by cases h; exact long_length _ _
theorem Length.vfabs (f : Long) : Length.Statement (.vfabs f) := fun _ _ _ h => by cases h; exact long_length _ _
theorem Length.vfneg (f : Long) : Length.Statement (.vfneg f) := fun _ _ _ h => by cases h; exact long_length _ _
theorem Length.vfcmp (f : Long) : Length.Statement (.vfcmp f) := fun _ _ _ h => by cases h; exact long_length _ _
theorem Length.vfclass (f : Long) : Length.Statement (.vfclass f) := fun _ _ _ h => by cases h; exact long_length _ _
theorem Length.vfrnd (f : Long) : Length.Statement (.vfrnd f) := fun _ _ _ h => by cases h; exact long_length _ _
theorem Length.vfscale (f : Long) : Length.Statement (.vfscale f) := fun _ _ _ h => by cases h; exact long_length _ _
theorem Length.vfdot2 (f : Long) : Length.Statement (.vfdot2 f) := fun _ _ _ h => by cases h; exact long_length _ _
theorem Length.vcvt (f : Long) : Length.Statement (.vcvt f) := fun _ _ _ h => by cases h; exact long_length _ _
theorem Length.vbfpq (f : Long) : Length.Statement (.vbfpq f) := fun _ _ _ h => by cases h; exact long_length _ _
theorem Length.vbfpx (f : Long) : Length.Statement (.vbfpx f) := fun _ _ _ h => by cases h; exact long_length _ _
theorem Length.vshfl (f : Long) : Length.Statement (.vshfl f) := fun _ _ _ h => by cases h; exact long_length _ _
theorem Length.vvote (f : Long) : Length.Statement (.vvote f) := fun _ _ _ h => by cases h; exact long_length _ _
theorem Length.vvoteBallot (f : Long) : Length.Statement (.vvoteBallot f) := fun _ _ _ h => by cases h; exact long_length _ _
theorem Length.vrdc (f : Long) : Length.Statement (.vrdc f) := fun _ _ _ h => by cases h; exact long_length _ _
theorem Length.vscan (f : Long) : Length.Statement (.vscan f) := fun _ _ _ h => by cases h; exact long_length _ _
theorem Length.vbcast (f : Long) : Length.Statement (.vbcast f) := fun _ _ _ h => by cases h; exact long_length _ _
theorem Length.vbcastS (f : Long) : Length.Statement (.vbcastS f) := fun _ _ _ h => by cases h; exact long_length _ _
theorem Length.vmatch (f : Long) : Length.Statement (.vmatch f) := fun _ _ _ h => by cases h; exact long_length _ _
theorem Length.plop (f : Long) : Length.Statement (.plop f) := fun _ _ _ h => by cases h; exact long_length _ _
theorem Length.pmovPs (f : Long) : Length.Statement (.pmovPs f) := fun _ _ _ h => by cases h; exact long_length _ _
theorem Length.pmovSp (f : Long) : Length.Statement (.pmovSp f) := fun _ _ _ h => by cases h; exact long_length _ _
theorem Length.vldShort (f : ShortM) : Length.Statement (.vldShort f) := fun _ _ _ h => by cases h; rfl
theorem Length.vldLong (f : Long) : Length.Statement (.vldLong f) := fun _ _ _ h => by cases h; exact long_length _ _
theorem Length.vstShort (f : ShortM) : Length.Statement (.vstShort f) := fun _ _ _ h => by cases h; rfl
theorem Length.vstLong (f : Long) : Length.Statement (.vstLong f) := fun _ _ _ h => by cases h; exact long_length _ _
theorem Length.vlds (f : Long) : Length.Statement (.vlds f) := fun _ _ _ h => by cases h; exact long_length _ _
theorem Length.vsts (f : Long) : Length.Statement (.vsts f) := fun _ _ _ h => by cases h; exact long_length _ _
theorem Length.sldShort (f : ShortM) : Length.Statement (.sldShort f) := fun _ _ _ h => by cases h; rfl
theorem Length.sldLong (f : Long) : Length.Statement (.sldLong f) := fun _ _ _ h => by cases h; exact long_length _ _
theorem Length.sstShort (f : ShortM) : Length.Statement (.sstShort f) := fun _ _ _ h => by cases h; rfl
theorem Length.sstLong (f : Long) : Length.Statement (.sstLong f) := fun _ _ _ h => by cases h; exact long_length _ _
theorem Length.vprf (f : Long) : Length.Statement (.vprf f) := fun _ _ _ h => by cases h; exact long_length _ _
theorem Length.cctlInv (f : Long) : Length.Statement (.cctlInv f) := fun _ _ _ h => by cases h; exact long_length _ _
theorem Length.cctlInvall (f : Long) : Length.Statement (.cctlInvall f) := fun _ _ _ h => by cases h; exact long_length _ _
theorem Length.cctlEvict (f : Long) : Length.Statement (.cctlEvict f) := fun _ _ _ h => by cases h; exact long_length _ _
theorem Length.tlbiVa (f : Long) : Length.Statement (.tlbiVa f) := fun _ _ _ h => by cases h; exact long_length _ _
theorem Length.tlbiCtx (f : Long) : Length.Statement (.tlbiCtx f) := fun _ _ _ h => by cases h; exact long_length _ _
theorem Length.tlbiAll (f : Long) : Length.Statement (.tlbiAll f) := fun _ _ _ h => by cases h; exact long_length _ _
theorem Length.migrMove (f : Long) : Length.Statement (.migrMove f) := fun _ _ _ h => by cases h; exact long_length _ _
theorem Length.migrSet (f : Long) : Length.Statement (.migrSet f) := fun _ _ _ h => by cases h; exact long_length _ _
theorem Length.migrQuery (f : Long) : Length.Statement (.migrQuery f) := fun _ _ _ h => by cases h; exact long_length _ _
theorem Length.atom (f : Long) : Length.Statement (.atom f) := fun _ _ _ h => by cases h; exact long_length _ _
theorem Length.pot (f : Long) : Length.Statement (.pot f) := fun _ _ _ h => by cases h; exact long_length _ _
theorem Length.acq (f : Long) : Length.Statement (.acq f) := fun _ _ _ h => by cases h; exact long_length _ _
theorem Length.rel (f : Long) : Length.Statement (.rel f) := fun _ _ _ h => by cases h; exact long_length _ _
theorem Length.fenceRel (f : Long) : Length.Statement (.fenceRel f) := fun _ _ _ h => by cases h; exact long_length _ _
theorem Length.fenceSc (f : Long) : Length.Statement (.fenceSc f) := fun _ _ _ h => by cases h; exact long_length _ _
theorem Length.barArr (f : Long) : Length.Statement (.barArr f) := fun _ _ _ h => by cases h; exact long_length _ _
theorem Length.barWait (f : Long) : Length.Statement (.barWait f) := fun _ _ _ h => by cases h; exact long_length _ _
theorem Length.barSync (f : Long) : Length.Statement (.barSync f) := fun _ _ _ h => by cases h; exact long_length _ _
theorem Length.barTest (f : Long) : Length.Statement (.barTest f) := fun _ _ _ h => by cases h; exact long_length _ _
theorem Length.tktWait (f : Long) : Length.Statement (.tktWait f) := fun _ _ _ h => by cases h; exact long_length _ _
theorem Length.tktDone (f : Long) : Length.Statement (.tktDone f) := fun _ _ _ h => by cases h; exact long_length _ _
theorem Length.pass (f : Long) : Length.Statement (.pass f) := fun _ _ _ h => by cases h; exact long_length _ _
theorem Length.passTo (f : Long) : Length.Statement (.passTo f) := fun _ _ _ h => by cases h; exact long_length _ _
theorem Length.turn (f : Long) : Length.Statement (.turn f) := fun _ _ _ h => by cases h; exact long_length _ _
theorem Length.fshootVa (f : Long) : Length.Statement (.fshootVa f) := fun _ _ _ h => by cases h; exact long_length _ _
theorem Length.fshootCtx (f : Long) : Length.Statement (.fshootCtx f) := fun _ _ _ h => by cases h; exact long_length _ _
theorem Length.mma (f : Long) : Length.Statement (.mma f) := fun _ _ _ h => by cases h; exact long_length _ _
theorem Length.accrd (f : Long) : Length.Statement (.accrd f) := fun _ _ _ h => by cases h; exact long_length _ _
theorem Length.accwr (f : Long) : Length.Statement (.accwr f) := fun _ _ _ h => by cases h; exact long_length _ _
theorem Length.accz (f : Long) : Length.Statement (.accz f) := fun _ _ _ h => by cases h; exact long_length _ _
theorem Length.cpslice (f : Long) : Length.Statement (.cpslice f) := fun _ _ _ h => by cases h; exact long_length _ _
theorem Length.cploop (f : Long) : Length.Statement (.cploop f) := fun _ _ _ h => by cases h; exact long_length _ _
theorem Length.cpchain (f : Long) : Length.Statement (.cpchain f) := fun _ _ _ h => by cases h; exact long_length _ _
theorem Length.cpacc (f : Long) : Length.Statement (.cpacc f) := fun _ _ _ h => by cases h; exact long_length _ _
theorem Length.bfwait (f : Long) : Length.Statement (.bfwait f) := fun _ _ _ h => by cases h; exact long_length _ _
theorem Length.bfrel (f : Long) : Length.Statement (.bfrel f) := fun _ _ _ h => by cases h; exact long_length _ _
theorem Length.vrcp (f : Long) : Length.Statement (.vrcp f) := fun _ _ _ h => by cases h; exact long_length _ _
theorem Length.vrsq (f : Long) : Length.Statement (.vrsq f) := fun _ _ _ h => by cases h; exact long_length _ _
theorem Length.vsqrt (f : Long) : Length.Statement (.vsqrt f) := fun _ _ _ h => by cases h; exact long_length _ _
theorem Length.vexp2 (f : Long) : Length.Statement (.vexp2 f) := fun _ _ _ h => by cases h; exact long_length _ _
theorem Length.vlog2 (f : Long) : Length.Statement (.vlog2 f) := fun _ _ _ h => by cases h; exact long_length _ _
theorem Length.vsinpi (f : Long) : Length.Statement (.vsinpi f) := fun _ _ _ h => by cases h; exact long_length _ _
theorem Length.vcospi (f : Long) : Length.Statement (.vcospi f) := fun _ _ _ h => by cases h; exact long_length _ _
theorem Length.vtanh (f : Long) : Length.Statement (.vtanh f) := fun _ _ _ h => by cases h; exact long_length _ _
theorem Length.vfdiv (f : Long) : Length.Statement (.vfdiv f) := fun _ _ _ h => by cases h; exact long_length _ _
theorem Length.lxadd (f : Long) : Length.Statement (.lxadd f) := fun _ _ _ h => by cases h; exact long_length _ _
theorem Length.lxsub (f : Long) : Length.Statement (.lxsub f) := fun _ _ _ h => by cases h; exact long_length _ _
theorem Length.lxmul (f : Long) : Length.Statement (.lxmul f) := fun _ _ _ h => by cases h; exact long_length _ _
theorem Length.lxdiv (f : Long) : Length.Statement (.lxdiv f) := fun _ _ _ h => by cases h; exact long_length _ _
theorem Length.lxcmp (f : Long) : Length.Statement (.lxcmp f) := fun _ _ _ h => by cases h; exact long_length _ _
theorem Length.lxexp (f : Long) : Length.Statement (.lxexp f) := fun _ _ _ h => by cases h; exact long_length _ _
theorem Length.lxlog (f : Long) : Length.Statement (.lxlog f) := fun _ _ _ h => by cases h; exact long_length _ _
theorem Length.lxlvl (f : Long) : Length.Statement (.lxlvl f) := fun _ _ _ h => by cases h; exact long_length _ _
theorem Length.lxcvt (f : Long) : Length.Statement (.lxcvt f) := fun _ _ _ h => by cases h; exact long_length _ _
theorem Length.spawn (f : Long) : Length.Statement (.spawn f) := fun _ _ _ h => by cases h; exact long_length _ _
theorem Length.invoke (f : Long) : Length.Statement (.invoke f) := fun _ _ _ h => by cases h; exact long_length _ _
theorem Length.invokeh (f : Long) : Length.Statement (.invokeh f) := fun _ _ _ h => by cases h; exact long_length _ _
theorem Length.fwait (f : Long) : Length.Statement (.fwait f) := fun _ _ _ h => by cases h; exact long_length _ _
theorem Length.fpoll (f : Long) : Length.Statement (.fpoll f) := fun _ _ _ h => by cases h; exact long_length _ _
theorem Length.fref (f : Long) : Length.Statement (.fref f) := fun _ _ _ h => by cases h; exact long_length _ _
theorem Length.fdrop (f : Long) : Length.Statement (.fdrop f) := fun _ _ _ h => by cases h; exact long_length _ _
theorem Length.fpin (f : Long) : Length.Statement (.fpin f) := fun _ _ _ h => by cases h; exact long_length _ _
theorem Length.fresVal (f : Long) : Length.Statement (.fresVal f) := fun _ _ _ h => by cases h; exact long_length _ _
theorem Length.fresPlace (f : Long) : Length.Statement (.fresPlace f) := fun _ _ _ h => by cases h; exact long_length _ _
theorem Length.fbreak (f : Long) : Length.Statement (.fbreak f) := fun _ _ _ h => by cases h; exact long_length _ _
theorem Length.savept (f : Long) : Length.Statement (.savept f) := fun _ _ _ h => by cases h; exact long_length _ _
theorem Length.digest (f : Long) : Length.Statement (.digest f) := fun _ _ _ h => by cases h; exact long_length _ _
theorem Length.seed (f : Long) : Length.Statement (.seed f) := fun _ _ _ h => by cases h; exact long_length _ _
theorem Length.runArbitration (chip : Nat) (die : Nat) (core : Nat) : Length.Statement (.runArbitration chip die core) := fun _ _ _ h => nomatch h
theorem Length.localityScoreHalving (chip : Nat) (die : Nat) (core : Nat) : Length.Statement (.localityScoreHalving chip die core) := fun _ _ _ h => nomatch h
theorem Length.outstandingResultWrite (warp : Nat) : Length.Statement (.outstandingResultWrite warp) := fun _ _ _ h => nomatch h
theorem Length.loadConfirmation (warp : Nat) : Length.Statement (.loadConfirmation warp) := fun _ _ _ h => nomatch h
theorem Length.postedStorePerform (warp : Nat) : Length.Statement (.postedStorePerform warp) := fun _ _ _ h => nomatch h
theorem Length.debuggerHalt (warp : Nat) : Length.Statement (.debuggerHalt warp) := fun _ _ _ h => nomatch h
theorem Length.debuggerResume (warp : Nat) : Length.Statement (.debuggerResume warp) := fun _ _ _ h => nomatch h
theorem Length.roundGateOpen (warp : Nat) : Length.Statement (.roundGateOpen warp) := fun _ _ _ h => nomatch h
theorem Length.domainTurnGrant (part : Nat) : Length.Statement (.domainTurnGrant part) := fun _ _ _ h => nomatch h
theorem Length.groupTurnGrant (group : Nat) : Length.Statement (.groupTurnGrant group) := fun _ _ _ h => nomatch h
theorem Length.groupEnd (group : Nat) : Length.Statement (.groupEnd group) := fun _ _ _ h => nomatch h
theorem Length.publicationMerge (part : Nat) : Length.Statement (.publicationMerge part) := fun _ _ _ h => nomatch h
theorem Length.copyCompletion (group : Nat) (buf : Nat) : Length.Statement (.copyCompletion group buf) := fun _ _ _ h => nomatch h
theorem Length.pageWalkCompletion (chip : Nat) (part : Nat) (va : Nat) : Length.Statement (.pageWalkCompletion chip part va) := fun _ _ _ h => nomatch h
theorem Length.mailboxWindowWrite (part : Nat) (mbox : Nat) (off : Nat) (bytes : (List Byte)) : Length.Statement (.mailboxWindowWrite part mbox off bytes) := fun _ _ _ h => nomatch h
theorem Length.admission (part : Nat) : Length.Statement (.admission part) := fun _ _ _ h => nomatch h
theorem Length.fenceCompletion (part : Nat) (mbox : Nat) : Length.Statement (.fenceCompletion part mbox) := fun _ _ _ h => nomatch h
theorem Length.completionRecord (part : Nat) (mbox : Nat) : Length.Statement (.completionRecord part mbox) := fun _ _ _ h => nomatch h
theorem Length.groupPlacement (part : Nat) : Length.Statement (.groupPlacement part) := fun _ _ _ h => nomatch h
theorem Length.spatialPreemption (chip : Nat) (cores : (List Nat)) : Length.Statement (.spatialPreemption chip cores) := fun _ _ _ h => nomatch h
theorem Length.preemptionWaitExpiry (card : Nat) : Length.Statement (.preemptionWaitExpiry card) := fun _ _ _ h => nomatch h
theorem Length.saveAreaExhausted (card : Nat) : Length.Statement (.saveAreaExhausted card) := fun _ _ _ h => nomatch h
theorem Length.allParked (part : Nat) : Length.Statement (.allParked part) := fun _ _ _ h => nomatch h
theorem Length.remoteRequest (warp : Nat) : Length.Statement (.remoteRequest warp) := fun _ _ _ h => nomatch h
theorem Length.remoteReply (warp : Nat) : Length.Statement (.remoteReply warp) := fun _ _ _ h => nomatch h
theorem Length.invocationArrival (part : Nat) : Length.Statement (.invocationArrival part) := fun _ _ _ h => nomatch h
theorem Length.migrationMarker (chip : Nat) (page : Nat) : Length.Statement (.migrationMarker chip page) := fun _ _ _ h => nomatch h
theorem Length.flitReceive (chip : Nat) (port : Nat) (seq : Nat) (crcOk : Bool) (payload : Packet) : Length.Statement (.flitReceive chip port seq crcOk payload) := fun _ _ _ h => nomatch h
theorem Length.flitAcknowledgement (chip : Nat) (port : Nat) (seq : Nat) : Length.Statement (.flitAcknowledgement chip port seq) := fun _ _ _ h => nomatch h
theorem Length.replayRequest (chip : Nat) (port : Nat) (seq : Nat) : Length.Statement (.replayRequest chip port seq) := fun _ _ _ h => nomatch h
theorem Length.replayLimitReached (chip : Nat) (port : Nat) : Length.Statement (.replayLimitReached chip port) := fun _ _ _ h => nomatch h
theorem Length.laneLockLoss (chip : Nat) (port : Nat) : Length.Statement (.laneLockLoss chip port) := fun _ _ _ h => nomatch h
theorem Length.portUp (chip : Nat) (port : Nat) : Length.Statement (.portUp chip port) := fun _ _ _ h => nomatch h
theorem Length.linkTrainingComplete (chip : Nat) (port : Nat) : Length.Statement (.linkTrainingComplete chip port) := fun _ _ _ h => nomatch h
theorem Length.linkTrainingTimeout (chip : Nat) (port : Nat) : Length.Statement (.linkTrainingTimeout chip port) := fun _ _ _ h => nomatch h
theorem Length.beaconSend (chip : Nat) : Length.Statement (.beaconSend chip) := fun _ _ _ h => nomatch h
theorem Length.beaconReceive (chip : Nat) (beacon : Beacon) : Length.Statement (.beaconReceive chip beacon) := fun _ _ _ h => nomatch h
theorem Length.peerSilentTimeout (chip : Nat) (peer : Nat) : Length.Statement (.peerSilentTimeout chip peer) := fun _ _ _ h => nomatch h
theorem Length.fshootAcknowledgement (warp : Nat) (chip : Nat) : Length.Statement (.fshootAcknowledgement warp chip) := fun _ _ _ h => nomatch h
theorem Length.fshootTimeout (warp : Nat) : Length.Statement (.fshootTimeout warp) := fun _ _ _ h => nomatch h
theorem Length.savePointCapture (part : Nat) : Length.Statement (.savePointCapture part) := fun _ _ _ h => nomatch h
theorem Length.unitCopyComplete (part : Nat) (unit : Nat) : Length.Statement (.unitCopyComplete part unit) := fun _ _ _ h => nomatch h
theorem Length.manifestWrite (part : Nat) : Length.Statement (.manifestWrite part) := fun _ _ _ h => nomatch h
theorem Length.spareDrain (part : Nat) : Length.Statement (.spareDrain part) := fun _ _ _ h => nomatch h
theorem Length.sramCorrectableError (chip : Nat) (die : Nat) (slice : Nat) (time : Nat) : Length.Statement (.sramCorrectableError chip die slice time) := fun _ _ _ h => nomatch h
theorem Length.sliceRetirementComplete (chip : Nat) (die : Nat) (slice : Nat) : Length.Statement (.sliceRetirementComplete chip die slice) := fun _ _ _ h => nomatch h
theorem Length.sramPatrol (chip : Nat) (found : (Option SramFault)) (time : Nat) : Length.Statement (.sramPatrol chip found time) := fun _ _ _ h => nomatch h
theorem Length.stackPatrolScrub (chip : Nat) (stack : Nat) (fixed : (List Nat)) (time : Nat) : Length.Statement (.stackPatrolScrub chip stack fixed time) := fun _ _ _ h => nomatch h
theorem Length.networkBeatCrcError (chip : Nat) (die : Nat) (unit : Nat) (second : Bool) (time : Nat) : Length.Statement (.networkBeatCrcError chip die unit second time) := fun _ _ _ h => nomatch h
theorem Length.machineCheck (chip : Nat) (err : ErrSite) (time : Nat) : Length.Statement (.machineCheck chip err time) := fun _ _ _ h => nomatch h
theorem Length.supplyDroop (chip : Nat) (die : Nat) : Length.Statement (.supplyDroop chip die) := fun _ _ _ h => nomatch h
theorem Length.supplyRecovery (chip : Nat) (die : Nat) : Length.Statement (.supplyRecovery chip die) := fun _ _ _ h => nomatch h
theorem Length.powerLimitStep (chip : Nat) (up : Bool) : Length.Statement (.powerLimitStep chip up) := fun _ _ _ h => nomatch h
theorem Length.deviceReset (chip : Nat) : Length.Statement (.deviceReset chip) := fun _ _ _ h => nomatch h
theorem Length.hostWindowBAccess (chip : Nat) (vf : (Option Nat)) (off : Nat) (len : Nat) (data : (Option (List Byte))) : Length.Statement (.hostWindowBAccess chip vf off len data) := fun _ _ _ h => nomatch h
theorem Length.faultQueueTailWrite (part : Nat) (value : Dword) : Length.Statement (.faultQueueTailWrite part value) := fun _ _ _ h => nomatch h
theorem Length.registerWrite (chip : Nat) (reg : HostReg) (value : Dword) : Length.Statement (.registerWrite chip reg value) := fun _ _ _ h => nomatch h
theorem Length.createContext (part : Nat) (monitor : Bool) : Length.Statement (.createContext part monitor) := fun _ _ _ h => nomatch h
theorem Length.destroyContext (part : Nat) : Length.Statement (.destroyContext part) := fun _ _ _ h => nomatch h
theorem Length.invalidate (part : Nat) : Length.Statement (.invalidate part) := fun _ _ _ h => nomatch h
theorem Length.faultQueue (part : Nat) : Length.Statement (.faultQueue part) := fun _ _ _ h => nomatch h
theorem Length.saveFull (part : Nat) : Length.Statement (.saveFull part) := fun _ _ _ h => nomatch h
theorem Length.drainTarget (part : Nat) : Length.Statement (.drainTarget part) := fun _ _ _ h => nomatch h
theorem Length.restore (part : Nat) : Length.Statement (.restore part) := fun _ _ _ h => nomatch h
theorem Length.replayRecord (part : Nat) : Length.Statement (.replayRecord part) := fun _ _ _ h => nomatch h
theorem Length.readHash (part : Nat) : Length.Statement (.readHash part) := fun _ _ _ h => nomatch h
theorem Length.admissionPosition (part : Nat) : Length.Statement (.admissionPosition part) := fun _ _ _ h => nomatch h
theorem Length.sliceRegister (part : Nat) : Length.Statement (.sliceRegister part) := fun _ _ _ h => nomatch h
theorem Length.errorLog (part : Nat) : Length.Statement (.errorLog part) := fun _ _ _ h => nomatch h
theorem Length.partitionMap (chip : Nat) : Length.Statement (.partitionMap chip) := fun _ _ _ h => nomatch h
theorem Length.fabricRegister (chip : Nat) : Length.Statement (.fabricRegister chip) := fun _ _ _ h => nomatch h
theorem Length.enableMap (chip : Nat) : Length.Statement (.enableMap chip) := fun _ _ _ h => nomatch h
theorem Length.invalidCommand (chip : Nat) (iface : (Option Nat)) (op : Nat) : Length.Statement (.invalidCommand chip iface op) := fun _ _ _ h => nomatch h
theorem Length.commandCompletion (chip : Nat) (iface : (Option Nat)) : Length.Statement (.commandCompletion chip iface) := fun _ _ _ h => nomatch h
theorem Length.mmaRetirement (warp : Nat) : Length.Statement (.mmaRetirement warp) := fun _ _ _ h => nomatch h
theorem Length.systemPreemptionRequest (chip : Nat) (cores : (List Nat)) : Length.Statement (.systemPreemptionRequest chip cores) := fun _ _ _ h => nomatch h

end Sys2Proof.Laws
end

