-- ==== Sys2Proof/Laws/Registers.lean ====
section
/-! SUPPORT. Writing registers leaves a warp's course alone; what an encoding that passed the checks is known to be; and the
scalar results by bits. -/

namespace Sys2Proof.Machine

/-! ## Register writes leave the warp's course alone -/

theorem RegEffect.refl (w : Warp) : RegEffect w w := ⟨rfl, rfl⟩

theorem RegEffect.trans {u v w : Warp} (h : RegEffect u v) (g : RegEffect v w) : RegEffect u w :=
  ⟨g.sys.trans h.sys, g.stat.trans h.stat⟩

theorem RegEffect.foldl {α : Type} {g : Warp → α → Warp} (hg : ∀ w x, RegEffect w (g w x)) (l : List α) (w : Warp) :
    RegEffect w (l.foldl g w) := by
  induction l generalizing w with
  | nil => exact .refl w
  | cons x l ih => exact (hg w x).trans (ih _)

theorem wrV_effect (w : Warp) (r l : Nat) (x : Word) : RegEffect w (wrV w r l x) := ⟨rfl, rfl⟩

theorem wrS_effect (w : Warp) (r : Nat) (x : Dword) : RegEffect w (wrS w r x) := by
  unfold wrS
  split
  · exact .refl w
  · split <;> exact ⟨rfl, rfl⟩

theorem wrPBit_effect (w : Warp) (r l : Nat) (b : Bool) : RegEffect w (wrPBit w r l b) := by
  unfold wrPBit wrP
  split <;> exact ⟨rfl, rfl⟩

theorem raiseFp_effect (w : Warp) (n : Nat) : RegEffect w (raiseFp w n) := ⟨rfl, rfl⟩

theorem wrReg_effect (w : Warp) (t : Ty) (r l x : Nat) : RegEffect w (wrReg w t r l x) := by
  unfold wrReg; split <;> exact ⟨rfl, rfl⟩

theorem perLane_effect (w : Warp) (ls : List Nat) (t : Ty) (d : Nat) (g : Nat → Nat × Nat) : RegEffect w (perLane w ls t d g) :=
  .foldl (fun x l => (wrReg_effect x t d l _).trans (raiseFp_effect _ _)) ls w

theorem perLaneP_effect (w : Warp) (ls : List Nat) (d : Nat) (g : Nat → Bool × Nat) : RegEffect w (perLaneP w ls d g) :=
  .foldl (fun x l => (wrPBit_effect x d l _).trans (raiseFp_effect _ _)) ls w

theorem elementwise_effect (w : Warp) (o : Op) (f : Long) (op : Nat → Nat → Nat → Nat × Nat) :
    RegEffect w (elementwise w o f op) := perLane_effect ..

theorem wrRun_effect (w : Warp) (r l : Nat) (xs : List Nat) : RegEffect w (wrRun w r l xs) := by
  unfold wrRun
  generalize xs.zipIdx = ys
  induction ys generalizing w with
  | nil => exact .refl w
  | cons y ys ih => exact (wrV_effect w (r + y.2) l (BitVec.ofNat 32 y.1)).trans (ih _)

theorem scanRun_effect (w0 : Warp) (f : Long) (op : Nat) (excl : Bool) (ls : List Nat) (run : Option Nat) (w : Warp) :
    RegEffect w (scanRun w0 f op excl ls run w) := by
  induction ls generalizing run w with
  | nil => exact .refl w
  | cons l ls ih =>
    unfold scanRun
    exact ((wrReg_effect w f.ty f.d.toNat l _).trans (raiseFp_effect _ _)).trans (ih _ _)

/-! ## What passed the checks -/

theorem performs_legal {i : Instr} {s s1 : State} {k len : Nat} {o : Op} {f : Long} {w : Warp} (h : Performs i s k o f len s1 w) :
    o.legal f = true := by
  obtain ⟨-, v, s0, w0, c, -, -⟩ := h
  have := c.checks
  unfold preCheck at this
  by_contra hl
  have hl' : o.legal f = false := by simpa using hl
  simp only [hl', Bool.not_false, Bool.true_or, if_true] at this
  split at this
  · cases this
  · split at this <;> cases this

theorem legal_ty {o : Op} {f : Long} (h : o.legal f = true) : f.ty ∈ o.form.tys := by
  unfold Op.legal at h
  simp only [Bool.and_eq_true] at h
  simpa using h.1.1.1.1.1.1.1.1.1.2

/-! ## Scalar results by bits (R127) -/

theorem intOf_toInt (n : Nat) (x : Nat) (hn : 0 < n) : intOf true n x = (BitVec.ofNat n x).toInt := by
  unfold intOf
  rw [BitVec.toInt_eq_toNat_cond]
  simp only [BitVec.toNat_ofNat, Bool.true_and, decide_eq_true_eq]
  have h2 : 2 ^ n = 2 * 2 ^ (n - 1) := by
    conv_lhs => rw [show n = (n - 1) + 1 by omega, pow_succ]
    omega
  split <;> split <;> first | rfl | (exfalso; omega)

/-- The result of a scalar operation, by its value as bits. -/
theorem scalRes_bits (t : Ty) (x : Nat) (y : BitVec (tyBits t)) (hy : y = BitVec.ofNat (tyBits t) x) (ht : t ∈ Forms.tyW) :
    scalRes t x = (if tySigned t then y.signExtend 64 else y.setWidth 64) := by
  unfold scalRes
  subst hy
  simp only [Forms.tyW, List.mem_cons, List.not_mem_nil, or_false] at ht
  rcases ht with rfl | rfl | rfl | rfl <;> simp only [tySigned, tyBits, if_true, Bool.false_eq_true, if_false]
  · rw [intOf_toInt _ _ (by decide)]; rfl
  · apply BitVec.eq_of_toNat_eq; simp [intOf]; omega
  · rw [intOf_toInt _ _ (by decide)]; rfl
  · apply BitVec.eq_of_toNat_eq; simp [intOf]; omega

theorem ofNat_wrapN (n : Nat) (x : Int) : BitVec.ofNat n (wrapN n x) = BitVec.ofInt n x := by
  unfold wrapN
  apply BitVec.eq_of_toNat_eq
  have hp : (0 : Int) < ((2 ^ n : Nat) : Int) := by positivity
  simp only [BitVec.toNat_ofNat, BitVec.toNat_ofInt]
  have := Int.emod_nonneg x (by omega : ((2 ^ n : Nat) : Int) ≠ 0)
  have h2 := Int.emod_lt_of_pos x hp
  exact Nat.mod_eq_of_lt (by omega)

theorem cmpInt_eq (cc : Nat) (a b : Int) : cmpInt cc a b = compares cc a b := by
  unfold cmpInt compares
  split <;> first | rfl | (by_cases h : a = b <;> simp [h])

/-- The model's operation for each scalar instruction. -/
def scalarOpOf (o : Op) (f : Long) : Nat → Nat → Nat → Nat → Nat :=
  match o with
  | .sadd => saddOp | .ssub => ssubOp | .smul => smulOp | .sand => sandOp | .sor => sorOp | .sxor => sxorOp | .sshl => sshlOp
  | .sshr => sshrOp | .ssra => ssraOp | .scmp => scmpOp f.ty f.fn.toNat | .ssel => sselOp | _ => smovOp

/-- The operations of the scalar group are those of R127. -/
theorem scalarRule_bits (o : Op) (f : Long) (n : Nat) (hn : 0 < n) (sg : Bool) (hs : n = tyBits f.ty) (hsg : sg = tySigned f.ty) (a b c : BitVec n)
    (ho : o ∈ [.sadd, .ssub, .smul, .sand, .sor, .sxor, .sshl, .sshr, .ssra, .scmp, .ssel, .smov]) :
    scalarRule o f.fn.toNat sg a b c = BitVec.ofNat n (scalarOpOf o f n a.toNat b.toNat c.toNat) := by
  simp only [List.mem_cons, List.not_mem_nil, or_false] at ho
  rcases ho with rfl | rfl | rfl | rfl | rfl | rfl | rfl | rfl | rfl | rfl | rfl | rfl <;> simp only [scalarRule, scalarOpOf]
  · apply BitVec.eq_of_toNat_eq; simp [saddOp, BitVec.toNat_add]
  · simp only [ssubOp, ofNat_wrapN]
    apply BitVec.eq_of_toInt_eq
    rw [BitVec.toInt_sub, BitVec.toInt_ofInt, BitVec.toInt_eq_toNat_bmod a, BitVec.toInt_eq_toNat_bmod b]
    simp
  · apply BitVec.eq_of_toNat_eq; simp [smulOp, BitVec.toNat_mul]
  · simp [sandOp, BitVec.ofNat_and]
  · simp [sorOp, BitVec.ofNat_or]
  · simp [sxorOp, BitVec.ofNat_xor]
  · apply BitVec.eq_of_toNat_eq; simp [sshlOp, Nat.shiftLeft_eq]
  · apply BitVec.eq_of_toNat_eq
    simp [sshrOp, Nat.shiftRight_eq_div_pow]
    exact (Nat.mod_eq_of_lt (lt_of_le_of_lt (Nat.div_le_self _ _) a.isLt)).symm
  · simp only [ssraOp, sraN, ofNat_wrapN, intOf_toInt _ _ hn, BitVec.ofNat_toNat, BitVec.setWidth_eq]
    apply BitVec.eq_of_toInt_eq
    rw [BitVec.toInt_sshiftRight, BitVec.toInt_ofInt, Int.shiftRight_eq_div_pow]
    have := (a.sshiftRight (b.toNat % n)).toInt_bmod_cancel
    rw [BitVec.toInt_sshiftRight, Int.shiftRight_eq_div_pow] at this
    exact this.symm
  · subst hsg
    subst hs
    unfold scmpOp tyVal
    rw [cmpInt_eq]
    cases h : tySigned f.ty
    · simp only [Bool.false_eq_true, if_false, intOf, Bool.false_and]
      rw [Nat.mod_eq_of_lt a.isLt, Nat.mod_eq_of_lt b.isLt]
      split <;> rfl
    · simp only [if_true, intOf_toInt _ _ hn, BitVec.ofNat_toNat, BitVec.setWidth_eq]
      split <;> rfl
  · unfold sselOp
    by_cases hc : c = 0
    · simp [hc]
    · have : c.toNat ≠ 0 := fun h => hc (BitVec.eq_of_toNat_eq (by simpa using h))
      rw [if_pos hc, if_neg this]; simp
  · simp [smovOp]

theorem scalSrc_bits (t : Ty) (x : Dword) : scalSrc t x = (x.setWidth (tyBits t)).toNat := by
  unfold scalSrc; simp

/-- A scalar instruction of a legal type writes the result of R127. -/
theorem scalOp_result (o : Op) (f : Long) (w : Warp) (hty : f.ty ∈ Forms.tyW)
    (ho : o ∈ [.sadd, .ssub, .smul, .sand, .sor, .sxor, .sshl, .sshr, .ssra, .scmp, .ssel, .smov]) :
    scalOp f (scalarOpOf o f) w =
      wrS w f.d.toNat (scalarResult o f.ty f.fn.toNat (rdS w f.a.toNat) (scalarB w f) (rdS w f.c.toNat)) := by
  have hb : rdSB w f = scalarB w f := by unfold rdSB scalarB; cases f.lit <;> rfl
  unfold scalOp
  rw [hb]
  congr 1
  have hle : 0 < tyBits f.ty := by
    generalize f.ty = t at hty
    revert t; decide
  rw [scalSrc_bits, scalSrc_bits, scalSrc_bits]
  rw [scalRes_bits f.ty _ _ (scalarRule_bits o f _ hle _ rfl rfl _ _ _ ho) hty]
  unfold scalarResult
  generalize rdS w f.a.toNat = a
  generalize scalarB w f = b
  generalize rdS w f.c.toNat = c
  simp only [Forms.tyW, List.mem_cons, List.not_mem_nil, or_false] at hty
  rcases hty with h' | h' | h' | h' <;> rw [h'] <;> simp [tySigned, tyBits]

end Sys2Proof.Machine
end

