-- ==== Sys2Proof/Tests/Slice0.lean ====
section
/-! SUPPORT. Tests of the model: ill-formed terms that `Instr.wf` refuses, words of the spec that decode, a step on a small
state, and for each obligation with hypotheses a state and operands that meet them. Values come from the spec's examples, or
from its rules by hand. -/

namespace Sys2Proof.Tests

set_option Elab.async false

open Sys2Proof Sys2Proof.Machine

/-! ## A small machine -/

def fl0 : Flags := { pk := false, en := false }

/-- A long form with every field zero. -/
def lg : Long :=
  { fl := fl0, ty := .i32, fn := 0, d := 0, a := 0, b := 0, c := 0, neg := false, pred := 0, mod := 0, imm := 0, lit := none }

/-- A warp of 16 lanes with every register, about to issue at 0x1000. -/
def tw (turn : Bool) : Warp :=
  { newWarp probeCard { probeCtx with turn := turn } 0 0 256 0 0 with stat := .ready, slot := some 0 }

/-- Its group, of 4 KiB of group memory on core 0. -/
def tg : Group :=
  { chip := 0, core := some 0, order := 0, saved := false, slotAt := 0, ask := none, gsize := 4096, gmem := [], acc := [], bufs := [], bars := []
    poolCap := 256, poolFree := 16, claims := [] }

/-- A mailbox that runs the card. -/
def tbox : Mbox := { Mbox.closedBox with
  closed := false, count := 1, cur := some { n := 1, typ := 0, base := 0, card := some 0, doneAddr := 0, mark := none } }

/-- A chip of one partition whose translations of the pages at 0x1000 and 0x2000 are held, the second writable. -/
def tc : Chip := { Chip.reset with
  pmap := 0xB0
  dieTlb := [(0, [{ ctx := 0, base := 0x1000, size := 0x1000, entry := 0x202008, leaf := 0x1043 },
    { ctx := 0, base := 0x2000, size := 0x1000, entry := 0x202010, leaf := 0x20E3 }])] }

/-- One card with one group of one warp, which holds the issue. -/
def ts (w : Warp) : State := { State.reset with
  cur := some 0, runs := [0], chips := [(0, tc)]
  parts := [(0, { Part.reset with ctx := some { probeCtx with turn := w.turn }, mboxes := [(0, tbox)] })]
  cards := [(0, probeCard)], groups := [(0, tg)], warps := [(0, w)] }

/-- What an instruction that reaches its own effect performs from (`Performs`): operation, fields, length, state and warp. -/
def performing (i : Instr) (s : State) : Option (Op × Long × Nat × State × Warp) :=
  match i.core, s.cur with
  | some (o, f, n), some k =>
    match getWarp s k with
    | none => none
    | some v =>
      match prepared s k v o f with
      | none => none
      | some s0 =>
        match getWarp s0 k with
        | none => none
        | some w0 =>
          if preCheck s k v o f = none ∧ isLive w0 = true ∧ ((getCard s0 k).all fun c => c.stop.isNone) = true ∧
              turnFree s0 k w0 o f = true ∧
              (turnKind w0 o f = .domain → handRefusals s0 (chipOf (partOf k)) w0.sec w0.hand false = []) then
            some (o, f, n, setWarp s0 k (atIssue s0 k w0 o f), atIssue s0 k w0 o f)
          else none
  | _, _ => none

/-- An instruction that is found performing does. -/
theorem performing_performs {i : Instr} {s s1 : State} {o : Op} {f : Long} {n : Nat} {w : Warp}
    (h : performing i s = some (o, f, n, s1, w)) : ∃ k, Performs i s k o f n s1 w := by
  unfold performing at h
  split at h
  · split at h
    · cases h
    · split at h
      · cases h
      · split at h
        · cases h
        · split at h
          · rename_i hc hcur _ v hv _ s0 hp _ w0 hw hcond
            cases h
            exact ⟨_, hc, v, s0, w0, ⟨hcur, hv, hcond.1, hp, hw, hcond.2.1, hcond.2.2.1, hcond.2.2.2.1, hcond.2.2.2.2⟩, rfl, rfl⟩
          · cases h
  · cases h

/-- The instruction performs, and what it performs from satisfies a test. -/
def meets (i : Instr) (s : State) (p : Op → Long → State → Warp → Bool) : Bool :=
  match performing i s with
  | some (o, f, _, s1, w) => p o f s1 w
  | none => false


/-- Every one holds. -/
def allOf (l : List Bool) : Bool := l.all fun b => b

/-! ## Legal fields for every operation -/

/-- A register number for an operand of a class. -/
def pick (k : Fld) (n : BitVec 8) : BitVec 8 := if k = .z then 0 else n

/-- The first number below `n` that passes. -/
def firstOf (p : Nat → Bool) : Nat → Nat → Nat
  | 0, i => i
  | n + 1, i => if p i then i else firstOf p n (i + 1)

/-- Legal fields of an operation: destination 3 and sources 1, 2 and 4 where its row has them. -/
def ex (o : Op) : Long :=
  let r := o.form
  let f := { lg with
    ty := r.tys.headD .i32, fn := BitVec.ofNat 8 (firstOf r.fn 8 0), d := pick r.d 3, a := pick r.a 1, b := pick r.b 2, c := pick r.c 4 }
  match o with
  | .give | .claim => { f with imm := 8 }
  | .srdHi => { f with a := 0x24 }
  | .swr => { f with a := 0x18 }
  | .fresPlace => { f with imm := 256 }
  | .vcvt => { f with ty := .f32, b := 0, c := 0 }
  | .vlds | .vsts => { f with b := 5 }
  | .vprf => { f with b := 0 }
  | .vbfpq => { f with a := 20, d := 40, c := 60 }
  | .vbfpx => { f with a := 40, d := 20, c := 60 }
  | .mma => { f with ty := .f16, fn := 10, imm := 0x80000 }
  | .accrd | .accwr => { f with imm := 0x10000 }
  | .cpchain => { f with b := 0xFF, lit := some 0 }
  | .lxcvt => { f with fn := 8 }
  | .vmatch => { f with ty := .b32 }
  | _ => f

/-- Every operation of the machine. -/
def ops : List Op :=
  [.nop, .bra, .brc, .brx, .call, .callReg, .ret, .mark, .join, .exit, .rep, .repReg, .rgn, .trap, .bpt, .eret, .srd,
   .srdHi, .swr, .give, .claim, .jmovToS, .jmovToJ, .sadd, .ssub, .smul, .sand, .sor, .sxor, .sshl, .sshr, .ssra, .scmp,
   .ssel, .smov, .vadd, .vsub, .vadds, .vsubs, .vmul24, .vmad24, .vmul, .vmulh, .vmad, .vmin, .vmax, .vabs, .vand, .vor,
   .vxor, .vnot, .vshl, .vshr, .vsra, .vrot, .vbfe, .vbfi, .vpopc, .vclz, .vbrev, .vcmp, .vsel, .vmov, .vmovBc, .vfadd,
   .vfsub, .vfmul, .vffma, .vfmin, .vfmax, .vfabs, .vfneg, .vfcmp, .vfclass, .vfrnd, .vfscale, .vfdot2, .vcvt, .vbfpq,
   .vbfpx, .vshfl, .vvote, .vvoteBallot, .vrdc, .vscan, .vbcast, .vbcastS, .vmatch, .plop, .pmovPs, .pmovSp, .vld, .vst,
   .vlds, .vsts, .sld, .sst, .vprf, .cctlInv, .cctlInvall, .cctlEvict, .tlbiVa, .tlbiCtx, .tlbiAll, .migrMove, .migrSet,
   .migrQuery, .atom, .pot, .acq, .rel, .fenceRel, .fenceSc, .barArr, .barWait, .barSync, .barTest, .tktWait, .tktDone,
   .pass, .passTo, .turn, .fshootVa, .fshootCtx, .mma, .accrd, .accwr, .accz, .cpslice, .cploop, .cpchain, .cpacc,
   .bfwait, .bfrel, .vrcp, .vrsq, .vsqrt, .vexp2, .vlog2, .vsinpi, .vcospi, .vtanh, .vfdiv, .lxadd, .lxsub, .lxmul,
   .lxdiv, .lxcmp, .lxexp, .lxlog, .lxlvl, .lxcvt, .spawn, .invoke, .invokeh, .fwait, .fpoll, .fref, .fdrop, .fpin,
   .fresVal, .fresPlace, .fbreak, .savept, .digest, .seed]

theorem test_every_operation_has_a_legal_form : (ops.all fun o => o.legal (ex o)) = true := by decide

/-- Operations of system privilege only (R58); `SRD.hi` names a trap register. -/
def sysOps : List Op := [.eret, .srdHi, .tlbiVa, .tlbiCtx, .tlbiAll, .migrMove, .migrSet, .migrQuery, .fshootVa, .fshootCtx]

/-- The short form of `VADD v10, v20, v3` behind a long instruction at 0x1000, as a repeat's target. -/
def target (s : State) : State := { s with mem := wrBytes s.mem 0x100C [0x00, 0x52, 0x50, 0x06] }

/-- Every operation comes to its own effect in turn mode, in a handler where it is privileged. -/
theorem witness_every_operation_performs :
    (ops.all fun o => meets (o.long (ex o)) (target (ts { tw true with sys := sysOps.contains o })) fun o' _ _ _ => o' = o) = true := by
  decide +kernel

/-- So it does in free mode. -/
theorem witness_every_operation_performs_free :
    (ops.all fun o => meets (o.long (ex o)) (target (ts { tw false with sys := sysOps.contains o })) fun o' _ _ _ => o' = o) = true := by
  decide +kernel

/-- The same instruction in its short forms. -/
def shorts : List Instr :=
  let z : ShortZ := { fl := fl0 }
  let a : ShortA := { fl := fl0, a := 1 }
  let r : ShortR := { fl := fl0, d := 3, a := 1, b := 2, lit := none }
  let i : ShortI := { fl := fl0, d := 3, a := 1, imm7 := 5, lit := none }
  let m : ShortM := { fl := fl0, data := 3, base := 1, off7 := 2 }
  [.nopShort z, .braShort { fl := fl0, off21 := 4 }, .brcShort { fl := fl0, off17 := 4, neg := false, pred := 1 },
   .brxShort a, .joinShort a, .exitShort z, .saddShort i, .ssubShort i, .smulShort i, .sandShort i, .sorShort i,
   .sxorShort i, .sshlShort i, .sshrShort i, .ssraShort i, .scmpShort i, .sselShort i, .smovShort { i with a := 0 },
   .vaddShort r, .vsubShort r, .vaddsShort r, .vsubsShort r, .vmul24Short r, .vmad24Short r, .vmulShort r,
   .vmulhShort r, .vmadShort r, .vminShort r, .vmaxShort r, .vabsShort { r with b := 0 }, .vandShort r, .vorShort r,
   .vxorShort r, .vnotShort { r with b := 0 }, .vshlShort r, .vshrShort r, .vsraShort r, .vrotShort r, .vbfeShort r,
   .vbfiShort r, .vpopcShort { r with b := 0 }, .vclzShort { r with b := 0 }, .vbrevShort { r with b := 0 },
   .vcmpShort r, .vselShort r, .vmovShort { r with a := 0 }, .vfaddShort r, .vfsubShort r, .vfmulShort r, .vldShort m,
   .vstShort m, .sldShort m, .sstShort m]

theorem witness_short_forms_perform : (shorts.all fun i => i.wf && meets i (ts (tw true)) fun _ _ _ _ => true) = true := by
  decide +kernel

/-! ## Decoding -/

/-- Words written out from R40, R44, R47 and R57 decode to the operation with the fields of `ex`. -/
def decodes (l : List (Op × List Word)) : Bool := l.all fun e => decode e.2 == .ok (e.1.long (ex e.1), [])

theorem test_decode_sequencer : decodes
    [(.nop, [0x00000001, 0, 0]), (.bra, [0x00000011, 0, 0]), (.brc, [0x00000021, 0, 0]),
     (.brx, [0x00000031, 0x00000001, 0]), (.call, [0x00001841, 0, 0]), (.callReg, [0x00081841, 0x00000001, 0]),
     (.ret, [0x00000051, 0x00000001, 0]), (.mark, [0x00000061, 0x00000001, 0]), (.join, [0x00000071, 0x00000001, 0]),
     (.exit, [0x00000081, 0, 0]), (.rep, [0x00000091, 0, 0]), (.repReg, [0x00080091, 0x00000001, 0]),
     (.rgn, [0x000000A1, 0, 0]), (.trap, [0x000000B1, 0, 0]), (.bpt, [0x000000C1, 0, 0]), (.eret, [0x000000D1, 0, 0]),
     (.srd, [0x000018E1, 0x00000001, 0]), (.srdHi, [0x000818E1, 0x00000024, 0]), (.swr, [0x000000F1, 0x00000218, 0]),
     (.give, [0x00000101, 0, 0x00000008]), (.claim, [0x00000111, 0, 0x00000008]),
     (.jmovToS, [0x00001921, 0x00000001, 0]), (.jmovToJ, [0x00081921, 0x00000001, 0])] = true := by decide +kernel

theorem test_decode_scalar : decodes
    [(.sadd, [0x00001941, 0x00000201, 0]), (.ssub, [0x00001951, 0x00000201, 0]), (.smul, [0x00001961, 0x00000201, 0]),
     (.sand, [0x00001971, 0x00000201, 0]), (.sor, [0x00001981, 0x00000201, 0]), (.sxor, [0x00001991, 0x00000201, 0]),
     (.sshl, [0x000019A1, 0x00000201, 0]), (.sshr, [0x000019B1, 0x00000201, 0]), (.ssra, [0x000019C1, 0x00000201, 0]),
     (.scmp, [0x000019D1, 0x00000201, 0]), (.ssel, [0x000019E1, 0x00040201, 0]), (.smov, [0x000019F1, 0x00000200, 0])] = true := by decide +kernel

theorem test_decode_integer : decodes
    [(.vadd, [0x00001A01, 0x00000201, 0]), (.vsub, [0x00001A11, 0x00000201, 0]), (.vadds, [0x00001A21, 0x00000201, 0]),
     (.vsubs, [0x00001A31, 0x00000201, 0]), (.vmul24, [0x00001A41, 0x00000201, 0]),
     (.vmad24, [0x00001A51, 0x00040201, 0]), (.vmul, [0x00001A61, 0x00000201, 0]),
     (.vmulh, [0x00001A71, 0x00000201, 0]), (.vmad, [0x00001A81, 0x00040201, 0]), (.vmin, [0x00001A91, 0x00000201, 0]),
     (.vmax, [0x00001AA1, 0x00000201, 0]), (.vabs, [0x00001AB1, 0x00000001, 0]), (.vand, [0x00001AC1, 0x00000201, 0]),
     (.vor, [0x00001AD1, 0x00000201, 0]), (.vxor, [0x00001AE1, 0x00000201, 0]), (.vnot, [0x00001AF1, 0x00000001, 0]),
     (.vshl, [0x00001B01, 0x00000201, 0]), (.vshr, [0x00001B11, 0x00000201, 0]), (.vsra, [0x00001B21, 0x00000201, 0]),
     (.vrot, [0x00001B31, 0x00000201, 0]), (.vbfe, [0x00001B41, 0x00000201, 0]), (.vbfi, [0x00001B51, 0x00040201, 0]),
     (.vpopc, [0x00001B61, 0x00000001, 0]), (.vclz, [0x00001B71, 0x00000001, 0]), (.vbrev, [0x00001B81, 0x00000001, 0]),
     (.vcmp, [0x00001B91, 0x00000201, 0]), (.vsel, [0x00001BA1, 0x00040201, 0]), (.vmov, [0x00001BB1, 0x00000200, 0]),
     (.vmovBc, [0x00081BB1, 0x00000001, 0])] = true := by decide +kernel

theorem test_decode_float : decodes
    [(.vfadd, [0x40001BC1, 0x00000201, 0]), (.vfsub, [0x40001BD1, 0x00000201, 0]),
     (.vfmul, [0x40001BE1, 0x00000201, 0]), (.vffma, [0x40001BF1, 0x00040201, 0]),
     (.vfmin, [0x40001C01, 0x00000201, 0]), (.vfmax, [0x40001C11, 0x00000201, 0]),
     (.vfabs, [0x40001C21, 0x00000001, 0]), (.vfneg, [0x40001C31, 0x00000001, 0]),
     (.vfcmp, [0x40001C41, 0x00000201, 0]), (.vfclass, [0x40001C51, 0x00000001, 0]),
     (.vfrnd, [0x40001C61, 0x00000001, 0]), (.vfscale, [0x40001C71, 0x00000201, 0]),
     (.vfdot2, [0x50001C81, 0x00040201, 0]), (.vcvt, [0x40001C91, 0x00000001, 0]),
     (.vbfpq, [0x800144A1, 0x003C0014, 0]), (.vbfpx, [0x8000A4B1, 0x003C0028, 0])] = true := by decide +kernel

theorem test_decode_crosslane : decodes
    [(.vshfl, [0x00001CC1, 0x00000201, 0]), (.vvote, [0x00001CD1, 0x00000001, 0]),
     (.vvoteBallot, [0x00101CD1, 0x00000001, 0]), (.vrdc, [0x00001CE1, 0x00000001, 0]),
     (.vscan, [0x00001CF1, 0x00000001, 0]), (.vbcast, [0x00001D01, 0x00000201, 0]),
     (.vbcastS, [0x00081D01, 0x00000201, 0]), (.vmatch, [0x78001D11, 0x00000001, 0]),
     (.plop, [0x00001D21, 0x00000201, 0]), (.pmovPs, [0x00001D31, 0x00000001, 0]),
     (.pmovSp, [0x00081D31, 0x00000001, 0])] = true := by decide +kernel

theorem test_decode_memory : decodes
    [(.vld, [0x00001D41, 0x00000001, 0]), (.vst, [0x00001D51, 0x00000001, 0]), (.vlds, [0x00001D61, 0x00000501, 0]),
     (.vsts, [0x00001D71, 0x00000501, 0]), (.sld, [0x00001D81, 0x00000001, 0]), (.sst, [0x00001D91, 0x00000001, 0]),
     (.vprf, [0x000005A1, 0x00000001, 0]), (.cctlInv, [0x000005B1, 0x00000201, 0]), (.cctlInvall, [0x000805B1, 0, 0]),
     (.cctlEvict, [0x001005B1, 0x00000201, 0]), (.tlbiVa, [0x000005C1, 0x00000201, 0]),
     (.tlbiCtx, [0x000805C1, 0x00000200, 0]), (.tlbiAll, [0x001005C1, 0, 0]), (.migrMove, [0x00001DD1, 0x00000201, 0]),
     (.migrSet, [0x00081DD1, 0x00040201, 0]), (.migrQuery, [0x00101DD1, 0x00000001, 0])] = true := by decide +kernel

theorem test_decode_turn : decodes
    [(.atom, [0x00001DE1, 0x00040201, 0]), (.pot, [0x000005F1, 0x00040201, 0]), (.acq, [0x00001E01, 0x00000001, 0]),
     (.rel, [0x00000611, 0x00000201, 0]), (.fenceRel, [0x00000621, 0, 0]), (.fenceSc, [0x00080621, 0, 0]),
     (.barArr, [0x00001E31, 0, 0]), (.barWait, [0x00080631, 0x00000001, 0]), (.barSync, [0x00100631, 0, 0]),
     (.barTest, [0x00181E31, 0x00000001, 0]), (.tktWait, [0x00001E41, 0x00000201, 0]),
     (.tktDone, [0x00081E41, 0x00000001, 0]), (.pass, [0x00000651, 0, 0]), (.passTo, [0x00080651, 0x00000200, 0]),
     (.turn, [0x00001E61, 0x00000001, 0]), (.fshootVa, [0x00001E71, 0x00000201, 0]),
     (.fshootCtx, [0x00081E71, 0x00000200, 0])] = true := by decide +kernel

theorem test_decode_matrix : decodes
    [(.mma, [0x50501E81, 0x00040001, 0x00080000]), (.accrd, [0x40001E91, 0, 0x00010000]),
     (.accwr, [0x400006A1, 0x00000001, 0x00010000]), (.accz, [0x000006B1, 0, 0])] = true := by decide +kernel

theorem test_decode_copy : decodes
    [(.cpslice, [0x00001ED1, 0x00000201, 0]), (.cploop, [0x00001EE1, 0x00000001, 0]),
     (.cpchain, [0x00001EF3, 0x0004FF01, 0, 0, 0]), (.cpacc, [0x00001F01, 0x00000001, 0]),
     (.bfwait, [0x00001F11, 0x00000001, 0]), (.bfrel, [0x00000721, 0x00000001, 0])] = true := by decide +kernel

theorem test_decode_special : decodes
    [(.vrcp, [0x40001F31, 0x00000001, 0]), (.vrsq, [0x40081F31, 0x00000001, 0]), (.vsqrt, [0x40101F31, 0x00000001, 0]),
     (.vexp2, [0x40181F31, 0x00000001, 0]), (.vlog2, [0x40201F31, 0x00000001, 0]),
     (.vsinpi, [0x40281F31, 0x00000001, 0]), (.vcospi, [0x40301F31, 0x00000001, 0]),
     (.vtanh, [0x40381F31, 0x00000001, 0]), (.vfdiv, [0x40401F31, 0x00000201, 0]),
     (.lxadd, [0x60001F41, 0x00000201, 0]), (.lxsub, [0x60081F41, 0x00000201, 0]),
     (.lxmul, [0x60101F41, 0x00000201, 0]), (.lxdiv, [0x60181F41, 0x00000201, 0]),
     (.lxcmp, [0x60201F41, 0x00000201, 0]), (.lxexp, [0x60281F41, 0x00000001, 0]),
     (.lxlog, [0x60301F41, 0x00000001, 0]), (.lxlvl, [0x60381F41, 0x00000001, 0]),
     (.lxcvt, [0x60401F51, 0x00000001, 0])] = true := by decide +kernel

theorem test_decode_handle : decodes
    [(.spawn, [0x00001F61, 0x00040201, 0]), (.invoke, [0x00001F71, 0x00040201, 0]),
     (.invokeh, [0x00081F71, 0x00040201, 0]), (.fwait, [0x00001F81, 0x00000001, 0]),
     (.fpoll, [0x00081F81, 0x00000001, 0]), (.fref, [0x00000791, 0x00000001, 0]), (.fdrop, [0x00080791, 0x00000001, 0]),
     (.fpin, [0x00100791, 0x00000001, 0]), (.fresVal, [0x00001FA1, 0x00000001, 0]),
     (.fresPlace, [0x00001FA1, 0x00000201, 0x00000100]), (.fbreak, [0x00081FA1, 0x00000200, 0]),
     (.savept, [0x00001FB1, 0, 0]), (.digest, [0x000007C1, 0x00000001, 0]), (.seed, [0x00081FC1, 0x00000200, 0])] = true := by decide +kernel

theorem test_decode_short_forms :
    shorts.map (fun i => (Except.ok (i, []) : Except DecodeError (Instr × List Word))) =
    [0x00000000, 0x00002010, 0x00020820, 0x00040030, 0x00040070, 0x00000080, 0x0A041940, 0x0A041950, 0x0A041960,
     0x0A041970, 0x0A041980, 0x0A041990, 0x0A0419A0, 0x0A0419B0, 0x0A0419C0, 0x0A0419D0, 0x0A0419E0, 0x0A0019F0,
     0x04041A00, 0x04041A10, 0x04041A20, 0x04041A30, 0x04041A40, 0x04041A50, 0x04041A60, 0x04041A70, 0x04041A80,
     0x04041A90, 0x04041AA0, 0x00041AB0, 0x04041AC0, 0x04041AD0, 0x04041AE0, 0x00041AF0, 0x04041B00, 0x04041B10,
     0x04041B20, 0x04041B30, 0x04041B40, 0x04041B50, 0x00041B60, 0x00041B70, 0x00041B80, 0x04041B90, 0x04041BA0,
     0x04001BB0, 0x04041BC0, 0x04041BD0, 0x04041BE0, 0x04041D40, 0x04041D50, 0x04041D80, 0x04041D90].map (fun w => decode [w]) := by
  decide +kernel

def en0 : Flags := { pk := false, en := true }
def pk0 : Flags := { pk := true, en := false }

/-- Words that chapters 5, 7, 8 and 9 of the spec write out. -/
theorem test_words_of_sequencer_vector_memory_turn :
    [decode [0x0003C820], decode [0x00021020], decode [0x00000070], decode [0x00000091, 0, 0x00110003],
      decode [0x00200B91, 2, 0], decode [0xFE0412C2, 1, 0], decode [0x000834C3, 0xFF05, 0, 8, 0],
      decode [0x00042D50], decode [0x10041590], decode [0x4000A561, 0x01000806, 0x100], decode [0x000005C1, 0x0504, 0],
      decode [0x08B015E1, 0x01000301, 0], decode [0x08000611, 1, 0], decode [0x00100631, 0, 0x200], decode [0x00000651, 0, 0]] =
    [.ok (.brcShort { fl := fl0, off17 := 7, neg := true, pred := 1 }, []),
      .ok (.brcShort { fl := fl0, off17 := 4, neg := false, pred := 2 }, []), .ok (.joinShort { fl := fl0, a := 0 }, []),
      .ok (.rep { lg with imm := 0x110003 }, []),
      .ok (.vcmpLong { lg with fn := 4, d := 1, a := 2 }, []),
      .ok (.vandShort { fl := fl0, d := 2, a := 1, b := 0x7F, lit := some 1 }, []),
      .ok (.vshfl { lg with fn := 1, d := 6, a := 5, b := 0xFF, lit := some 8 }, []),
      .ok (.vstShort { fl := fl0, data := 5, base := 1, off7 := 0 }, []),
      .ok (.sstShort { fl := fl0, data := 2, base := 1, off7 := 8 }, []),
      .ok (.vlds { lg with ty := .f32, d := 20, a := 6, b := 8, pred := 1, imm := 0x100 }, []),
      .ok (.tlbiVa { lg with a := 4, b := 5 }, []),
      .ok (.atom { lg with ty := .n32, fn := 0x16, d := 2, a := 1, b := 3, c := 0, pred := 1 }, []),
      .ok (.rel { lg with ty := .n32, a := 1, b := 0 }, []), .ok (.barSync { lg with fn := 2, imm := 0x200 }, []), .ok (.pass lg, [])] := by
  decide +kernel

/-- Words that chapters 10, 11 and 12 write out; of `LXEXP v9, v6, p2` the word that its fields give by R47 (chapter 12 prints
0x6028_4745, whose `D` is 8). -/
theorem test_words_of_copy_matrix_level :
    [decode [0x00081ED1, 0x10000402, 0], decode [0x00001ED1, 0x0402, 0], decode [0x00082F11, 3, 0],
      decode [0x00002EF3, 0x0014FF02, 0, 0x0926C103, 0], decode [0xB3905E83, 0x0014FF0A, 0x00400000, 0x01802829, 0],
      decode [0x40018691, 0, 0x00200000], decode [0x60403755, 0x01000003, 0], decode [0x60284F45, 0x01000006, 0xA],
      decode [0x40607755, 0x0100000D, 0]] =
    [.ok (.cpslice { lg with fn := 1, mod := 1, d := 3, a := 2, b := 4 }, []), .ok (.cpslice { lg with d := 3, a := 2, b := 4 }, []),
      .ok (.bfwait { lg with fn := 1, d := 5, a := 3 }, []),
      .ok (.cpchain { lg with d := 5, a := 2, b := 0xFF, c := 20, lit := some 0x0926C103 }, []),
      .ok (.mma { lg with ty := .bfp8, fn := 0x72, d := 11, a := 10, b := 0xFF, c := 20, imm := 0x00400000, lit := some 0x01802829 }, []),
      .ok (.accrd { lg with ty := .f32, d := 48, imm := 0x00200000 }, []),
      .ok (.lxcvt { lg with fl := pk0, ty := .sli, fn := 8, d := 6, a := 3, pred := 1 }, []),
      .ok (.lxexp { lg with fl := pk0, ty := .sli, fn := 5, d := 9, a := 6, pred := 1, imm := 10 }, []),
      .ok (.lxcvt { lg with fl := pk0, ty := .f32, fn := 12, d := 14, a := 13, pred := 1 }, [])] := by
  decide +kernel

/-- Words that chapters 14, 15 and 16 write out. -/
theorem test_words_of_handles_fabric_save_points :
    [decode [0x00005761, 0x0214, 0], decode [0x00087775, 0x0315, 0], decode [0x0000F781, 10, 0], decode [0x00080791, 13, 0],
      decode [0x00006FA1, 0x0506, 0x100], decode [0x000015D1, 0x0504, 0], decode [0x00001671, 0x0504, 0],
      decode [0x00081671, 0x0500, 0], decode [0x400025E1, 0x01000302, 0], decode [0x001385D1, 2, 0],
      decode [0x000BBDD1, 0x00767602, 0], decode [0x000017B1, 0, 0], decode [0x000007C1, 5, 0], decode [0x00081FC1, 0x0400, 0],
      decode [0x00081FC3, 0xFF00, 0, 7, 0]] =
    [.ok (.spawn { lg with d := 10, a := 20, b := 2, c := 0 }, []), .ok (.invokeh { lg with fl := pk0, fn := 1, d := 14, a := 21, b := 3 }, []),
      .ok (.fwait { lg with d := 30, a := 10 }, []), .ok (.fdrop { lg with fn := 1, a := 13 }, []),
      .ok (.fresPlace { lg with d := 13, a := 6, b := 5, imm := 256 }, []), .ok (.migrMove { lg with d := 2, a := 4, b := 5 }, []),
      .ok (.fshootVa { lg with d := 2, a := 4, b := 5 }, []), .ok (.fshootCtx { lg with fn := 1, d := 2, b := 5 }, []),
      .ok (.atom { lg with ty := .f32, d := 4, a := 2, b := 3, pred := 1 }, []), .ok (.migrQuery { lg with fn := 2, d := 112, a := 2 }, []),
      .ok (.migrSet { lg with fn := 1, d := 119, a := 2, b := 118, c := 118 }, []), .ok (.savept { lg with d := 2 }, []),
      .ok (.digest { lg with a := 5 }, []), .ok (.seed { lg with fn := 1, d := 3, b := 4 }, []),
      .ok (.seed { lg with fn := 1, d := 3, b := 0xFF, lit := some 7 }, [])] := by
  decide +kernel

/-- Words that are no instruction (R46, R57, R60), and too few words. -/
theorem test_no_instruction :
    [decode [0x00000131, 0, 0], decode [0x000006C1, 0, 0], decode [0x000007D1, 0, 0], decode [0xB8000201, 0, 0],
      decode [0x00000130], decode [0x000007B0], decode [0x00000800], decode [0x120C2A02, 5, 0], decode [0x120C2A01, 0], decode []] =
    [.error .badMajor, .error .badMajor, .error .badMajor, .error .badType, .error .badShort, .error .badShort, .error .badShort,
      .error .illegal, .error .truncated, .error .truncated] := by
  decide +kernel

/-! ## Ill-formed terms -/

/-- An event whose arguments name no part of the package: a chip, a die, a core, a port, a partition, a mailbox and its window,
listed cores, an interface, host registers, SRAM faults, sites of an error, stacks, units, beacons and flits. -/
theorem test_wf_refuses_events :
    ([.runArbitration 16 0 0, .runArbitration 0 8 0, .runArbitration 0 0 24, .portUp 0 15, .admission 128, .fenceCompletion 0 256,
      .mailboxWindowWrite 0 0 4095 [0, 0], .systemPreemptionRequest 0 [192], .invalidCommand 0 (some 8) 0, .invalidCommand 0 none 256,
      .registerWrite 0 (.arg none 4) 0, .registerWrite 0 (.stat (some 8)) 0, .registerWrite 0 (.fqHead 8) 0, .registerWrite 0 (.region 64) 0,
      .sramPatrol 0 (some (.corrected 8 0)) 0, .sramPatrol 0 (some (.correctedCore 0 24)) 0, .sramPatrol 0 (some (.doubleCore 8 0 0 0)) 0,
      .sramPatrol 0 (some (.doubleSlice 0 24 0 0)) 0, .machineCheck 0 { elem := 0, core := false, die := 0, unit := 0, addr := 0, synd := 0 } 0,
      .machineCheck 0 { elem := 7, core := false, die := 0, unit := 0, addr := 0, synd := 0 } 0,
      .machineCheck 0 { elem := 1, core := true, die := 8, unit := 0, addr := 0, synd := 0 } 0,
      .machineCheck 0 { elem := 1, core := true, die := 0, unit := 256, addr := 0, synd := 0 } 0,
      .stackPatrolScrub 0 16 [] 0, .networkBeatCrcError 0 0 256 false 0, .hostWindowBAccess 0 (some 8) 0 8 none,
      .beaconReceive 0 { peer := 16, seq := 1, bounds := [], abounds := [] },
      .beaconReceive 0 { peer := 1, seq := 2 ^ 64, bounds := [], abounds := [] },
      .flitReceive 0 0 0 true { dest := 0, src := 0, tag := 0, payload := .data (List.replicate 241 0) },
      .flitReceive 0 0 0 true { dest := 0, src := 0, tag := 0, payload := .beacon { peer := 16, seq := 1, bounds := [], abounds := [] } }, .flitReceive 0 0 0 true { dest := 16, src := 0, tag := 0, payload := .data [] }] : List Instr).all
    (fun i => !i.wf) = true := by
  decide +kernel

/-- Illegal encodings (R46 to R52, R60): `FN`, a type, `MOD` of each class, a guard, a literal, register numbers of each class, an
odd pair, `IMM32`, and a short form whose literal is not selected. -/
theorem test_wf_refuses_encodings :
    ([.nopLong { lg with fn := 1 }, .scmpLong { lg with fn := 6 }, .vabsLong { lg with ty := .n32 }, .nopLong { lg with mod := 1 },
      .vfaddLong { lg with ty := .f32, mod := 4 }, .vaddLong { lg with mod := 1 }, .acq { lg with mod := 6 }, .vldLong { lg with mod := 4 },
      .nopLong { lg with pred := 1 }, .vaddLong { lg with neg := true }, .vaddLong { lg with b := 0xFF }, .vaddLong { lg with b := 1, lit := some 1 },
      .cpchain { lg with c := 20 }, .vnotLong { lg with b := 0xFF, lit := some 1 }, .nopLong { lg with d := 1 }, .vaddLong { lg with d := 0xFF },
      .vaddLong { lg with ty := .i64, a := 1 }, .vfdot2 { lg with ty := .f16, d := 0xFF }, .saddLong { lg with a := 128 },
      .vselLong { lg with c := 8 }, .mark { lg with a := 8 }, .bfrel { lg with a := 64 }, .trap { lg with imm := 256 },
      .saddShort { fl := fl0, d := 1, a := 1, imm7 := 5, lit := some 5 }, .vaddShort { fl := fl0, d := 1, a := 1, b := 2, lit := some 5 }] : List Instr).all
    (fun i => !i.wf) = true := by
  decide +kernel

/-- Operand limits of single entries (R60, last item): the special register numbers, a compare of raw words, conversions, block formats,
reductions, indices, atomics, pots, barriers, the matrix engine, copies, level-index conversion and result groups. -/
theorem test_wf_refuses_operands :
    ([.srd { lg with a := 0x13 }, .srd { lg with d := 200, a := 1 }, .srdHi { lg with a := 0x23 }, .swr { lg with a := 0x07 },
      .vcmpLong { lg with ty := .b32, fn := 2 }, .vcvt { lg with ty := .f32, c := 8 }, .vcvt { lg with ty := .i32, c := 1 },
      .vbfpq { lg with ty := .bfp4, a := 20, d := 40, c := 35 }, .vbfpx { lg with ty := .bfp4, a := 40, d := 20, c := 41 },
      .vrdc { lg with ty := .f32, fn := 3 }, .vlds { lg with b := 0xFF }, .vsts { lg with fn := 1, b := 128 }, .vprf { lg with b := 1 },
      .atom { lg with ty := .b32, fn := 0 }, .atom { lg with ty := .f32, fn := 3 }, .atom { lg with fn := 0x47 }, .pot { lg with ty := .bf16, fn := 3 },
      .barArr { lg with imm := 0x10000, mod := 1 }, .barSync { lg with fn := 2, imm := 0x10000 }, .barSync { lg with fn := 2, imm := 0x3100 },
      .barWait { lg with fn := 1, imm := 0x100 }, .give { lg with imm := 4 }, .claim { lg with imm := 264 },
      .mma { lg with ty := .f16, fn := 11, imm := 0x80000 }, .mma { lg with ty := .f16, fn := 10, imm := 0x40000 },
      .mma { lg with ty := .f16, fn := 10, imm := 0x800E1 }, .accrd { lg with ty := .f32, fn := 1, imm := 0x10000 },
      .accrd { lg with ty := .f32, imm := 0x210000 }, .accz { lg with imm := 0x000100FF }, .cpslice { lg with mod := 1 },
      .cpchain { lg with b := 0xFF, c := 20, lit := some 10 }, .cpchain { lg with b := 0xFF, c := 122, lit := some 0 },
      .lxcvt { lg with ty := .sli, fn := 12 }, .fwait { lg with d := 120 }, .fresVal { lg with imm := 65 }, .vshfl { lg with ty := .i16 }] : List Instr).all
    (fun i => !i.wf) = true := by
  decide +kernel

/-! ## What the statements suppose: the sequencer -/

/-- One fragment of lanes 0 to 7 that stands, with another waiting. -/
def two : List Frag :=
  [{ id := 0, parent := 0, sibs := 0, lanes := 0xFF, pc := 0x1000, wait := none },
    { id := 1, parent := 0, sibs := 0, lanes := 0xFF00, pc := 0x1040, wait := some 2 }]

theorem witness_branches : allOf
    [meets (.brxShort { fl := fl0, a := 1 }) (ts (wrS (tw true) 1 0xFFFFFFFC)) fun _ f _ w => (rdS w f.a.toNat).toNat % 4 == 0,
      meets (.call { lg with d := 3, imm := 0xFFFFFFFF }) (ts (tw true)) fun _ f _ w =>
        (curPc w + BitVec.ofInt 64 (4 * f.imm.toInt)).toNat % 4 == 0,
      meets (.callReg { lg with fn := 1, d := 3, a := 3 }) (ts (wrS (tw true) 3 8)) fun _ f _ w => (rdS w f.a.toNat).toNat % 4 == 0] = true := by decide +kernel

/-- The three cases of `BRC`: every lane, no lane, some lanes. -/
theorem witness_brc : allOf
    [meets (.brcLong { lg with imm := 4 }) (ts (tw true)) fun _ f _ w => curLanes w &&& rdP w f.pred.toNat == curLanes w,
      meets (.brcLong { lg with imm := 4, pred := 1 }) (ts (tw true)) fun _ f _ w => curLanes w &&& rdP w f.pred.toNat == 0,
      meets (.brcShort { fl := fl0, off17 := 4, neg := true, pred := 1 }) (ts (wrP (tw true) 1 0x8000)) fun _ f _ w =>
        let t := curLanes w &&& ~~~(rdP w f.pred.toNat)
        t != 0 && t != curLanes w] = true := by decide +kernel

/-- `MARK` of an empty register; `JMOV` of each field out and in. -/
theorem witness_mark_jmov : allOf
    [meets (.mark { lg with a := 7, imm := 4 }) (ts (tw true)) fun _ f _ w => (rdJ w f.a.toNat).arrived == 0,
      meets (.jmovToS { lg with d := 3, a := 7, imm := 2 }) (ts (tw true)) fun _ _ _ _ => true,
      meets (.jmovToJ { lg with fn := 1, d := 7, a := 3 }) (ts (wrS (tw true) 3 0x1004)) fun _ f _ w =>
        f.imm == 0 && (rdS w f.a.toNat).toNat % 4 == 0,
      meets (.jmovToJ { lg with fn := 1, d := 7, a := 3, imm := 1 }) (ts (wrS (tw true) 3 0x1FFFF)) fun _ f _ w =>
        w.frags.all fun g => g.wait != some f.d.toNat,
      meets (.jmovToJ { lg with fn := 1, d := 7, a := 3, imm := 2 }) (ts { tw true with frags := two }) fun _ f _ w =>
        w.frags.all fun g => g.wait != some f.d.toNat] = true := by decide +kernel

/-- A `JOIN` that completes its register, one that does not, and an `EXIT` that leaves a fragment. -/
theorem witness_join_exit : allOf
    [meets (.joinShort { fl := fl0, a := 2 }) (ts (wrJ { tw true with frags := two } 2 { addr := 0x1080, expect := 0xFFFF, arrived := 0xFF00 }))
        fun _ f _ w =>
          let j := rdJ w f.a.toNat
          j.expect != 0 && (curLanes w &&& ~~~j.expect) == 0 && (curLanes w &&& j.arrived) == 0 && (j.arrived ||| curLanes w) == j.expect,
      meets (.joinLong { lg with a := 2 }) (ts (wrJ { tw true with frags := two } 2 { addr := 0x1080, expect := 0xFFFF, arrived := 0 }))
        fun _ f _ w =>
          let j := rdJ w f.a.toNat
          j.expect != 0 && (curLanes w &&& ~~~j.expect) == 0 && (curLanes w &&& j.arrived) == 0 && (j.arrived ||| curLanes w) != j.expect,
      meets (.exitShort { fl := fl0 }) (ts { tw true with frags := two }) fun _ _ _ w => w.frags.length != 1] = true := by decide +kernel

theorem witness_last_exit : allOf
    [meets (.exitLong lg) (ts (tw true)) fun _ _ s w => w.frags.length == 1 && (handRefusals s (chipOf (partOf 0)) w.sec w.hand true).isEmpty,
      meets (.exitLong lg) (ts (tw false)) fun _ _ s w => w.frags.length == 1 && (handRefusals s (chipOf (partOf 0)) w.sec w.hand true).isEmpty] = true := by decide +kernel

/-- Code at 0x1000: a `REP` of `VADD v10, v20, v3`, as chapter 5 writes it. -/
def trep (w : Warp) : State := { ts w with mem := probeMem [] ([0x91, 0, 0, 0, 0, 0, 0, 0, 0x03, 0, 0x11, 0] ++ [0x00, 0x52, 0x50, 0x06]) }

/-- What the statement of `REP` supposes of the instruction behind it. -/
def repMeets (imm : Word) (w : Warp) (more : Warp → Nat → Bool) : Bool :=
  meets (.rep { lg with imm := imm }) (trep w) fun _ f s w =>
    (match repFetch s 0 w with | .ok _ _ => true | _ => false) && more w (f.imm.toNat % 2 ^ 16)

theorem witness_rep : allOf
    [repMeets 0x110003 (tw true) fun w c => decide (w.repidx < c),
      repMeets 0x110003 { tw true with repidx := 2 } fun w c => decide (w.repidx < c),
      repMeets 0x110003 { tw true with repidx := 3 } fun w c => decide (c ≤ w.repidx) && w.rep.isNone,
      repMeets 0x110000 (tw true) fun w c => decide (c ≤ w.repidx) && w.rep.isNone] = true := by decide +kernel

/-- A pool of 16 registers: a `GIVE` of 8, a `CLAIM` that is granted and one that parks. -/
theorem witness_give_claim : allOf
    [meets (.give { lg with imm := 8 }) (ts (tw true)) fun _ f s w =>
        (getGroup s 0).any fun g => g.claims.isEmpty && decide (f.imm.toNat ≤ w.allot),
      meets (.claim { lg with imm := 16 }) (ts { tw true with allot := 240 }) fun _ f s w =>
        (getGroup s 0).any fun g => decide (w.allot + f.imm.toNat ≤ 256) && decide (f.imm.toNat ≤ g.poolCap - othersAllot s 0) &&
          g.claims.isEmpty && decide (f.imm.toNat ≤ g.poolFree),
      meets (.claim { lg with imm := 24 }) (ts { tw true with allot := 232 }) fun _ f s w =>
        (getGroup s 0).any fun g => decide (w.allot + f.imm.toNat ≤ 256) && decide (f.imm.toNat ≤ g.poolCap - othersAllot s 0) &&
          decide (g.poolFree < f.imm.toNat)] = true := by decide +kernel

/-- Warps 1 and 2 of the group claim 8 and 32 registers of its pool of 16; the `GIVE` of 8 grants the first alone. -/
theorem witness_give_with_claims :
    (let c (n : Nat) : Warp := { tw true with stat := .parked (.claim n) 12 false, allot := 8 }
     let s := { ts (tw true) with groups := [(0, { tg with claims := [1, 2] })], warps := [(0, tw true), (1, c 8), (2, c 32)] }
     meets (.give { lg with imm := 8 }) s (fun _ f s _ => (getGroup s 0).any fun g =>
       g.claims == [(1, 8), (2, 32)].map (·.1) && grantsFrom (g.poolFree + f.imm.toNat) [(1, 8), (2, 32)] == ([(1, 8)], 16))) = true := by
  decide +kernel

/-- A region that has read `v1`. -/
def reg1 : Region :=
  { entry := 0x1000, clock := 0, secs := 0, pots := 0, reads := readIds .vnot { lg with a := 1 }, writes := [], resumes := 0, mma := false }

/-- A region in a handler; one that an atomic closes, one that a write to `v1` closes, one that goes on. -/
theorem witness_regions : allOf
    [(ops.all fun o => closesRegion { tw true with region := some reg1 } o (ex o) ||
        !((o ∈ [.join, .exit, .give, .claim, .mma, .cpslice, .cploop, .cpchain, .cpacc, .bfwait, .bfrel]) : Bool)),
      turnKind { tw true with region := some reg1 } .atom (ex .atom) != .none,
      (writeIds .vadd { lg with d := 1, a := 2 }).any fun x => reg1.reads.contains x,
      (writeIds .vadd { lg with d := 3, a := 1 }).all fun x => !reg1.reads.contains x] = true := by decide +kernel

/-- Stores that close a region: in free mode any to global memory, in turn mode one to a sector that the hand held at the mark,
not one to another sector. -/
theorem witness_regions_and_stores :
    (let h : Hand := { Hand.empty with secs := [{ key := 0x2000, data := [(0, 1)], pub := 0, pc := 0, va := 0x2000 }] }
     [(tw false, 0x2000, true), (tw true, 0x2000, true), (tw true, 0x2040, false)].all fun e =>
       let w := wrS { e.1 with hand := h, region := some { reg1 with secs := 1 } } 1 (BitVec.ofNat 64 e.2.1)
       meets (.sstLong { lg with d := 3, a := 1 }) (ts w) fun o f s1 x =>
         x.region.isNone == e.2.2 && (checkAll s1 0 x o f (some .store) true).2.isNone) = true := by decide +kernel

/-- Every special register of R53 can be read, `%cycles` in both modes; those of R79 can be written. -/
theorem witness_special_registers : allOf
    [[0x00, 0x01, 0x02, 0x03, 0x04, 0x05, 0x06, 0x07, 0x08, 0x09, 0x0A, 0x0B, 0x0C, 0x0D, 0x0E, 0x0F, 0x10, 0x11, 0x12,
        0x18, 0x19, 0x1A, 0x1B, 0x1C, 0x1D].all fun n => [true, false].all fun t =>
        meets (.srd { lg with d := 3, a := n }) (ts (tw t)) fun _ _ s _ => (getCard s 0).isSome && (warpCore s 0).isSome,
      [0x20, 0x21, 0x22, 0x23, 0x24, 0x25, 0x26].all fun n => [true, false].all fun t =>
        meets (.srd { lg with d := 3, a := n }) (ts { tw t with sys := true }) fun _ _ _ _ => true,
      [0x18, 0x19, 0x1A, 0x1C].all fun n => meets (.swr { lg with a := n, b := 3 }) (ts (tw true)) fun _ _ _ _ => true,
      [0x20, 0x22, 0x23].all fun n => meets (.swr { lg with a := n, b := 3 }) (ts { tw true with sys := true }) fun _ _ _ _ => true] = true := by decide +kernel

/-! ## What the statements suppose: exceptions -/

/-- The warp's program would enter its handler from this state. -/
def enters (s : State) : Bool :=
  match faulting s 0 with
  | some (_, u) => !u.sys && u.tvec != 0 && u.rep.isNone
  | none => false

/-- A failed check of each kind at user privilege: illegal, privileged, a register beyond the allotment, an outstanding register. -/
theorem witness_failed_checks : allOf
    [enters (ts (tw true)), !Op.legal .vadd { lg with mod := 1 },
      Op.legal .migrMove (ex .migrMove) && privileged .migrMove (ex .migrMove),
      Op.legal .vadd { lg with d := 3, a := 8 } && rangeFault { tw true with allot := 8 } .vadd { lg with d := 3, a := 8 } == some 8,
      enters (ts { tw true with allot := 8 }),
      let w := addPend (tw true) { regs := writeIds .vadd { lg with d := 2 }, writes := [.v 2 0 5], fp := 0, lx := 0, remote := none, queue := none }
      (rangeFault w .vadd { lg with d := 3, a := 2 }).isNone && (hazard w .vadd { lg with d := 3, a := 2 }).isSome &&
        !parks .vadd { lg with d := 3, a := 2 } && enters (ts w)] = true := by decide +kernel

/-- A repeat whose target cannot be fetched, whose target is none, and whose registers pass the allotment. -/
theorem witness_failed_repeats : allOf
    [(match repFetch (ts (setPc (tw true) 0x1FF4)) 0 (setPc (tw true) 0x1FF4) with
      | .fault a e => a == 0x2000 && e.isNone && enters (ts (setPc (tw true) 0x1FF4))
      | _ => false),
      match repFetch (ts (tw true)) 0 (tw true) with
      | .ok j _ => !repLegal (tw true) { lg with imm := 0x110005 } j && enters (ts (tw true))
      | _ => false,
      let w := { tw true with allot := 24 }
      match repFetch (trep w) 0 w with
      | .ok j _ => repLegal w { lg with imm := 0x110005 } j && enters (trep w) &&
          j.core.any fun x => strideFault w 0x110005 (repCount w .rep { lg with imm := 0x110005 }) x.1 x.2.1 == some 24
      | _ => false] = true := by decide +kernel

/-- In a handler: an illegal encoding, an instruction that R101 makes illegal, a register beyond the allotment; and no handler. -/
theorem witness_card_ends : allOf
    [match faulting (ts { tw true with sys := true }) 0 with
      | some (_, u) => u.sys && u.turn && u.rep.isNone && sysIllegal .mark && !Op.legal .vadd { lg with mod := 1 }
      | none => false,
      let w := { tw true with sys := true, allot := 8 }
      Op.legal .vadd { lg with d := 8 } && !sysIllegal .vadd && rangeFault w .vadd { lg with d := 8 } == some 8 && (faulting (ts w) 0).isSome,
      match faulting (ts { tw true with tvec := 0 }) 0 with
      | some (_, u) => !u.sys && u.turn && u.tvec == 0
      | none => false,
      let w := addPend { tw false with sys := true } { regs := [2], writes := [.v 2 0 5], fp := 0, lx := 0, remote := none, queue := none }
      (rangeFault w .vadd { lg with d := 3, a := 2 }).isNone && (hazard w .vadd { lg with d := 3, a := 2 }).isSome &&
        match faulting (ts w) 0 with
        | some (_, u) => u.sys && !u.turn
        | none => false,
      [true, false].all fun t => meets (.sstLong { lg with d := 3, a := 1 }) (ts { wrS (tw t) 1 0x2001 with sys := true }) fun o f s w =>
        match bodyOf o f 12 s 0 w with
        | .trap s2 7 _ _ => (getWarp s2 0).any (fun v => v.region.isNone && v.rep.isNone) && (faulting s2 0).any fun x => x.2.sys && x.2.turn == t
        | _ => false] = true := by decide +kernel

/-- The misaligned target of a branch, at hand and outstanding. -/
theorem witness_misaligned_branch : allOf (
    [tw true, tw false, { tw true with tvec := 0 }, { tw true with sys := true }].map fun v =>
      let w := wrS v 3 0x1002
      let u := addPend v { regs := [259], writes := [.s 3 0x1002], fp := 0, lx := 0, remote := none, queue := none }
      !w.outst.contains 259 && branchFault w .ret { lg with a := 3 } == some 0x1002 && (faulting (ts w) 0).isSome &&
        parks .ret { lg with a := 3, fl := { fl0 with pk := true } } && u.outst.contains 259 && match settle (ts u) 0 with
        | .ok s0 => (faulting s0 0).isSome && (getWarp s0 0).any fun x => branchFault x .ret { lg with a := 3 } == some 0x1002
        | _ => false) = true := by decide +kernel

/-- Each own check of the sequencer, at the value where it fails. -/
theorem witness_sequencer_checks : allOf
    [meets (.jmovToJ { lg with fn := 1, d := 2, a := 3 }) (ts (wrS (tw true) 3 1)) fun _ f s w => (rdS w f.a.toNat).toNat % 4 != 0 && enters s,
      meets (.jmovToJ { lg with fn := 1, d := 2, a := 3, imm := 1 }) (ts { tw true with frags := two }) fun _ f s w =>
        w.frags.any (fun g => g.wait == some f.d.toNat) && enters s,
      meets (.mark { lg with a := 2 }) (ts (wrJ (tw true) 2 { addr := 0, expect := 3, arrived := 1 })) fun _ f s w =>
        (rdJ w f.a.toNat).arrived != 0 && enters s,
      meets (.joinLong { lg with a := 2 }) (ts (tw true)) fun _ f s w => (rdJ w f.a.toNat).expect == 0 && enters s,
      meets (.joinLong { lg with a := 2 }) (ts (wrJ (tw true) 2 { addr := 0, expect := 0x7FFF, arrived := 0 })) fun _ f s w =>
        (curLanes w &&& ~~~(rdJ w f.a.toNat).expect) != 0 && enters s,
      meets (.joinLong { lg with a := 2 }) (ts (wrJ (tw true) 2 { addr := 0, expect := 0x1FFFF, arrived := 1 })) fun _ f s w =>
        (curLanes w &&& (rdJ w f.a.toNat).arrived) != 0 && enters s,
      meets (.give { lg with imm := 16 }) (ts { tw true with allot := 8 }) fun _ f s w => decide (w.allot < f.imm.toNat) && enters s,
      meets (.claim { lg with imm := 8 }) (ts (tw true)) fun _ f s w => decide (256 < w.allot + f.imm.toNat) && enters s] = true := by
  decide +kernel

theorem witness_trap_bpt : allOf (
    [Instr.trap { lg with imm := 255 }, .bpt lg].map fun i => meets i (ts (tw true)) fun _ _ s w =>
      match faulting s 0 with
      | some (s2, v) =>
        match getWarp (moveClock (setWarp s2 0 (advance v .next 12)) 0 (v.clock + 1)) 0 with
        | some u => !w.sys && w.rep.isNone && !u.sys && u.tvec != 0 && u.stat == WStat.ready
        | none => false
      | none => false) = true := by decide +kernel

/-- `ERET` with a region to resume, with `OPEN` cleared, and with no region. -/
theorem witness_eret : allOf
    [meets (.eret lg) (ts { tw true with sys := true, region := some reg1, tregion := 0x1001 }) fun _ _ _ w =>
        w.region.isSome && w.tregion.getLsbD 0,
      meets (.eret lg) (ts { tw true with sys := true, region := some reg1, tregion := 0x1000 }) fun _ _ _ w => !w.tregion.getLsbD 0,
      meets (.eret lg) (ts { tw true with sys := true, tpc := 0x100F }) fun _ _ s w => w.region.isNone &&
        let u := setWarp s 0 (setPc { w with sys := false } 0x100C)
        !postWaits (drainAll u 0) 0] = true := by decide +kernel

/-! ## What the statements suppose: memory -/

/-- The elements pass check 5, and satisfy a test. -/
def passing (s : State) (w : Warp) (o : Op) (f : Long) (u : Option Use) (window : Bool) (p : List Acc → Bool) : Bool :=
  match checkAll s 0 w o f u window with
  | (xs, none) => p xs
  | _ => false

/-- With `s1` at an address. -/
def at1 (w : Warp) (a : Dword) : Warp := wrS w 1 a

/-- Group memory's first byte, by R149. -/
def window0 : Dword := 0xFF00000000000000

/-- Loads of group memory, of this chip, with a region and no translation held; of two chips, the second's page. -/
theorem witness_loads : allOf
    [meets (.vldShort { fl := fl0, data := 3, base := 1, off7 := 0 }) (ts (at1 (tw true) window0)) fun o f s w =>
        inWindow w o f && passing s w o f (some .load) true fun xs =>
          (getGroup s 0).any fun g => xs.all fun x => !rangeStall w g false x.va (elemSize o f),
      meets (.vldLong { lg with d := 3, a := 1 }) (ts (at1 (tw true) 0x2000)) fun o f s w =>
        !inWindow w o f && w.region.isNone && passing s w o f (some .load) true fun xs => !xs.isEmpty && xs.all fun x => !farAccess s 0 x,
      meets (.sldShort { fl := fl0, data := 3, base := 1, off7 := 1 }) (ts (at1 (tw false) 0x2000)) fun o f s w =>
        !inWindow w o f && passing s w o f (some .load) true fun xs => !xs.isEmpty && xs.all fun x => !farAccess s 0 x && x.x.any (·.mode != 2),
      meets (.sldLong { lg with d := 3, a := 1 })
          { ts { at1 (tw true) 0x1000 with region := some reg1 } with mem := probeMem [] [], chips := [(0, { tc with dieTlb := [] })] }
          fun o f s w => !inWindow w o f && w.region.isSome && passing s w o f (some .load) true fun xs =>
            xs.any (fun x => x.x.isSome && !tlbHas s (siteOf s 0) x.va) && xs.all fun x => !farAccess s 0 x,
      meets (.vlds { lg with d := 3, a := 1, b := 5 })
          { ts (at1 (tw true) 0x2000) with chips := [(0, { tc with
            fxEn := true, isize := 1, peers := [(1, { rv := false, relay := 0, port := 3 })], ports := [(3, { Port.reset with up := true })]
            dieTlb := [(0, [{ ctx := 0, base := 0x2000, size := 0x1000, entry := 0x202010, leaf := 0x22000000000020C3 }])] }),
            (1, { Chip.reset with fxEn := true, isize := 1, index := 1, pmap := 0xB0 })], parts := (ts (tw true)).parts ++ [(8, { Part.reset with ctx := some probeCtx })] }
          fun o f s w => !inWindow w o f && passing s w o f (some .load) true fun xs =>
            xs.any (farAccess s 0) && decide (replies w < 16) && w.posted.isEmpty && (refusedAccs s 0 w xs).isEmpty] = true := by
  decide +kernel

/-- A load in an open region whose walk faults. -/
theorem witness_deferred_load_fault :
    meets (.sldLong { lg with d := 3, a := 1 }) (ts { at1 (tw true) 0x3000 with region := some reg1 }) (fun o f s w =>
      w.region.isSome && match checkAll s 0 w o f (some .load) true with
        | (_, some e) => e.late && e.cause == 5
        | _ => false) = true := by decide +kernel

/-- A hand of 64 sectors. -/
def fullHand : Hand :=
  { Hand.empty with secs := (List.range 64).map fun i => { key := 0x8000 + 64 * i, data := [(0, 1)], pub := 0, pc := 0, va := 0x8000 } }

/-- A store that needs a 65th sector, of a user program and of a handler. -/
theorem witness_hand_full :
    ([false, true].all fun y =>
      meets (.sstLong { lg with d := 3, a := 1 }) (ts { at1 (tw true) 0x2000 with hand := fullHand, sys := y }) fun o f s w =>
        match checkAll s 0 w o f (some .store) true with
        | ([x], none) => (handPut w.hand (accKey x) x.va (curPc w) (storeBytes w o f x.lane)).isNone && w.sys == y &&
            (y || (handRefusals s 0 w.sec w.hand true).isEmpty) &&
            (handPut Hand.empty (accKey x) x.va (curPc w) (storeBytes w o f x.lane)).isSome
        | _ => false) = true := by decide +kernel

/-- Stores to group memory, to the hand, in free mode, and of a handler in free mode. -/
theorem witness_stores : allOf
    [meets (.vstShort { fl := fl0, data := 3, base := 1, off7 := 63 }) (ts (at1 (tw true) window0)) fun o f s w =>
        inWindow w o f && passing s w o f (some .store) true fun xs =>
          (getGroup s 0).any fun g => xs.all fun x => !rangeStall w g true x.va (elemSize o f),
      meets (.vsts { lg with d := 3, a := 1, b := 5 }) (ts (at1 (tw true) 0x2000)) fun o f s w =>
        !inWindow w o f && w.turn && passing s w o f (some .store) true fun xs =>
          (xs.foldl (fun (a : Option Hand) x => a.bind fun h => handPut h (accKey x) x.va (curPc w) (storeBytes w o f x.lane)) (some w.hand)).isSome,
      meets (.vstLong { lg with d := 3, a := 1 }) (ts (at1 (tw false) 0x2000)) fun o f s w =>
        !inWindow w o f && !w.turn && !w.sys && decide (w.posted.length < 8) && passing s w o f none true fun xs => !xs.isEmpty,
      meets (.sstShort { fl := fl0, data := 3, base := 1, off7 := 0 }) (ts (at1 { tw false with sys := true } 0x2000)) fun o f s w =>
        !inWindow w o f && !w.turn && w.sys && passing s w o f none true fun xs =>
          w.hposted.isEmpty && !xs.isEmpty,
      decide (0x2000 % 64 + [(1 : Byte), 2].length ≤ 64) && (handPut Hand.empty 0x2000 0x2000 0 [1, 2]).isSome] = true := by decide +kernel

/-- Failing elements: misaligned, and a page that is not mapped; for each kind of access. -/
def failing (i : Instr) (w : Warp) (u : Option Use) (window : Bool) (cause : Nat) : Bool :=
  meets i (ts w) fun o f s v =>
    match checkAll s 0 v o f u window with
    | (_, some e) => e.cause == cause && v.region.isNone && enters s
    | _ => false

theorem witness_failing_accesses : allOf
    [failing (.vldLong (ex .vld)) (at1 (tw true) 0x2002) (some .load) true 7, failing (.vldLong (ex .vld)) (at1 (tw true) 0x3000) (some .load) true 5,
      failing (.sstLong (ex .sst)) (at1 (tw true) 0x2001) (some .store) true 7, failing (.vstLong (ex .vst)) (at1 (tw true) 0x1000) (some .store) true 5,
      failing (.vstLong (ex .vst)) (at1 (tw false) 0x2002) none true 7,
      failing (.atom (ex .atom)) (at1 (tw true) 0x2002) (some .atomic) true 7, failing (.turn (ex .turn)) (at1 (tw true) 0x3000) (some .load) true 5,
      failing (.rel (ex .rel)) (at1 (tw false) 0x1000) (some .store) true 5, failing (.pot (ex .pot)) (at1 (tw true) 0x2002) (some .store) true 7,
      failing (.tktDone (ex .tktDone)) (at1 (tw true) 0x2004) (some .store) false 7] = true := by decide +kernel

/-- The page at 0x2000 for `MIGR`: moves refused by each check, a move, and leaves set and refused. -/
def tm (x m : Dword) (leaf : BitVec 64) : State :=
  let w := { tw true with sys := true }
  { ts (wrS (wrS (wrS w 1 0x2000) 2 x) 4 m) with
    mem := wrBytes (probeMem [] []) 0x202010 (leBytes 8 leaf.toNat)
    chips := [(0, { tc with fxEn := true, isize := 1, dieTlb := [(0, [{ ctx := 0, base := 0x2000, size := 0x1000, entry := 0x202010, leaf := leaf }])] }),
      (1, { Chip.reset with fxEn := true, isize := 1, index := 1, pmap := 0xB0 })]
    parts := (ts w).parts ++ [(8, { Part.reset with ctx := some probeCtx })] }

/-- What the statement says of a page that `MIGR` finds. -/
def migrMeets (i : Instr) (s : State) (p : State → Long → Warp → Tlb → Bool) : Bool :=
  meets i s fun _ f s w => match migrXlat s (siteOf s 0) w.sec (rdS w f.a.toNat) with
    | .ok t => p s f w t
    | .error _ => false

def movePlace (s : State) (x : Nat) (t : Tlb) : Bool :=
  let pa := x % 2 ^ 52
  decide (x < 2 ^ 56) && x % 2 ^ 12 == 0 && pa % t.size == 0 && decide (pa < deviceSize) && decide (x / 2 ^ 52 % 16 ≤ (getChip s 0).isize.toNat)

theorem witness_migr : allOf
    [migrMeets (.migrMove (ex .migrMove)) (tm 0x10000000005000 0 0x20E3) fun s f w t =>
        let x := (rdS w f.b.toNat).toNat
        leafMode t.leaf == 0 && !pageMoved s 0x2000 && movePlace s x t && (domChip s 0 (x / 2 ^ 52 % 16)).isSome,
      migrMeets (.migrMove (ex .migrMove)) (tm 0x10000000005001 0 0x20E3) fun s f w t => !movePlace s (rdS w f.b.toNat).toNat t,
      migrMeets (.migrMove (ex .migrMove)) (tm 0x5000 0 0x20E3) fun s f w t =>
        leafMode t.leaf != 2 && (rdS w f.b.toNat).toNat / 2 ^ 52 % 16 == myIndex s 0,
      migrMeets (.migrMove (ex .migrMove)) { tm 0x5000 0 0x20E3 with
          forwards := [{ old := 0x2000, new := 0x5000, size := 0x1000, va := 0x2000, ctx := 0, moving := true, switched := [] }] } fun s _ _ t =>
        leafMode t.leaf != 2 && pageMoved s 0x2000,
      migrMeets (.migrMove (ex .migrMove)) (tm 0x5000 0 0x42200000000020C3) fun _ _ _ t => leafMode t.leaf == 2,
      migrMeets (.migrSet (ex .migrSet)) (tm (3 * 2 ^ 54) (3 * 2 ^ 54) 0x20E3) fun s f w t =>
        let x := rdS w f.b.toNat
        let m := rdS w f.c.toNat
        let e := (rdEntry s t.entry &&& ~~~m) ||| (x &&& m)
        m &&& ~~~migrMask == 0 && leafOk e && leafPlace s 0 e,
      migrMeets (.migrSet (ex .migrSet)) (tm 1 1 0x20E3) fun _ f w _ => rdS w f.c.toNat &&& ~~~migrMask != 0,
      migrMeets (.migrQuery (ex .migrQuery)) (tm 0 0 0x20E3) fun _ _ _ _ => true] = true := by decide +kernel

/-! ## What the statements suppose: the turn unit -/

/-- A synchronising operation reaches its home with a test met there. -/
def homes (i : Instr) (s : State) (u : Use) (window : Bool) (p : State → Long → Warp → Home → List Acc → Bool) : Bool :=
  meets i s fun o f s w => match reachesHome s 0 w o f u window (o != .pot && o != .rel) with
    | some (t, v, h, xs) => p t f v h xs
    | none => false

/-- Exchange, compare-and-swap and addition, at each home; pots in group memory, in free mode and in the hand. -/
theorem witness_atomics : allOf
    [homes (.atom { lg with fn := 0x16, d := 3, a := 1, b := 2, c := 5 }) (ts (at1 (tw true) 0x2000)) .atomic true fun _ f _ h xs =>
        h == .turn && xs.length == 16 && Forms.atomOrd f % 2 == 1,
      homes (.atom { lg with ty := .i64, fn := 7, d := 4, a := 1, b := 2, c := 5 }) (ts (at1 (tw true) window0)) .atomic true fun _ _ _ h _ => h == .group,
      homes (.atom { lg with fn := 0x40, a := 1, b := 2, c := 5 }) (ts (at1 (tw false) 0x2000)) .atomic true fun _ f _ h _ => h == .free && Forms.atomNr f,
      homes (.pot { lg with a := 1, b := 2, c := 5 }) (ts (at1 (tw true) window0)) .store true fun _ _ _ h _ => h == .group,
      homes (.pot { lg with ty := .f32, a := 1, b := 2, c := 5 }) (ts (at1 (tw false) 0x2000)) .store true fun _ _ _ h _ => h == .free,
      meets (.pot { lg with ty := .n32, fn := 2, a := 1, b := 2, c := 5 }) (ts (at1 (tw true) 0x2000)) fun o f s w =>
        !inWindow w o f && w.turn && passing s w o f (some .store) true fun xs =>
          (xs.foldl (fun (a : Option (Hand × Nat)) x => a.bind fun a =>
            (potPut a.1 { key := accKey x, op := f.fn.toNat, ty := f.ty, val := BitVec.ofNat 64 (rdB w f.ty f x.lane % 2 ^ tyBits f.ty)
                          pc := curPc w, va := x.va }).map fun r => (r.1, a.2 ||| r.2)) (some (w.hand, 0))).isSome] = true := by decide +kernel

/-- `ACQ` at each home, with an L1 to drop in free mode; `TURN`, `REL` and both fences. -/
theorem witness_acquire_release : allOf
    [homes (.acq { lg with d := 3, a := 1 }) (ts (at1 (tw true) 0x2000)) .load true fun _ _ _ h xs => h == .turn && xs.length == 1,
      homes (.acq { lg with ty := .i64, d := 3, a := 1 }) (ts (at1 (tw true) window0)) .load true fun _ _ _ h xs => h == .group && xs.length == 1,
      homes (.acq { lg with d := 3, a := 1, mod := 3 }) (ts (at1 (tw false) 0x2000)) .load true fun _ f _ h xs =>
        h == .free && xs.length == 1 && decide (3 ≤ f.mod.toNat),
      homes (.turn { lg with d := 3, a := 1 }) (ts (at1 (tw true) 0x2000)) .load true fun _ _ _ h xs => h == .turn && xs.length == 1,
      homes (.rel { lg with a := 1, b := 2 }) (ts (at1 (tw true) 0x2000)) .store true fun _ _ _ h xs => h == .turn && xs.length == 1,
      homes (.rel { lg with a := 1, b := 2 }) (ts (at1 (tw false) 0x2000)) .store true fun _ _ _ h xs => h == .free && xs.length == 1,
      meets (.fenceRel lg) (ts (tw true)) fun _ _ _ w => w.turn,
      meets (.fenceSc { lg with fn := 1, mod := 3 }) (ts (tw false)) fun _ _ _ w => !w.turn] = true := by decide +kernel

/-- The bytes and the publications that a home's write supposes. -/
theorem witness_home_write :
    krising none [(0x2000, (1 : Byte)), (0x2001, 2)] = true ∧ (ts (tw true)).mem.wf = true ∧ swf 0 tg.gmem = true ∧
    (ts (tw true)).pubs.Pairwise (fun a b => pubBefore b a = false) := by decide

/-- An arrival that completes and one that does not; a phase that differs and one that does not. -/
theorem witness_barriers : allOf
    [meets (.barArr { lg with d := 3, imm := 0x100 }) (ts (tw true)) fun _ f s _ => (getGroup s 0).any fun g =>
        swf Bar.zero g.bars && barComplete (updGroup s 0 fun g => setBar g (f.imm.toNat % 16) { phase := 0, count := 1, expect := 1, arrived := [0] }) 0 0,
      meets (.barSync { lg with fn := 2, imm := 0x10000, mod := 1 }) (ts (tw true)) fun _ f s _ => (getGroup s 0).any fun _ =>
        barComplete (updGroup s 0 fun g => setBar g (f.imm.toNat % 16) { phase := 0, count := 1, expect := 0, arrived := [0] }) 0 0,
      meets (.barSync { lg with fn := 2, imm := 0x20F }) (ts (tw true)) fun _ f s _ => (getGroup s 0).any fun _ =>
        !barComplete (updGroup s 0 fun g => setBar g (f.imm.toNat % 16) { phase := 0, count := 1, expect := 2, arrived := [0] }) 0 15,
      meets (.barWait { lg with fn := 1, a := 3 }) (ts (wrS (tw true) 3 1)) fun _ f s w => (getGroup s 0).any fun g =>
        (getBar g 0).phase != (rdS w f.a.toNat).toNat % 2 ^ 16,
      meets (.barWait { lg with fn := 1, a := 3 }) (ts (wrS (tw true) 3 0x10000)) fun _ f s w => (getGroup s 0).any fun g =>
        (getBar g 0).phase == (rdS w f.a.toNat).toNat % 2 ^ 16] = true := by decide +kernel

/-- A card that holds a ticket of the word at 0x2000, and one whose table of tickets is full. -/
def tick (holder : Option Nat) (n : Nat) (w : Warp) : State :=
  { ts w with cards := [(0, { probeCard with
    tickets := (List.range n).map fun i => { key := 0x2000 + 8 * i, base := 0, holder := holder, had := [] } })] }

theorem witness_tickets : allOf
    [homes (.tktWait { lg with d := 3, a := 1, b := 2 }) (ts (at1 (tw true) 0x2000)) .store false fun s _ _ h xs =>
        h == .turn && xs.length == 1 && (getCard s 0).any fun c => c.tickets.isEmpty,
      homes (.tktWait { lg with d := 3, a := 1, b := 2 }) (ts (at1 (wrS (tw true) 2 5) 0x2000)) .store false fun _ f v _ xs =>
        xs.length == 1 && (scalarB v f).toNat == 5,
      homes (.tktWait { lg with d := 3, a := 1, b := 2, mod := 3 }) (ts (at1 (tw false) 0x2000)) .store false fun s f v h xs =>
        xs.length == 1 && h == .free && (tktStall f s 0 v).isNone,
      meets (.tktWait { lg with d := 3, a := 1, b := 2 }) (ts (at1 (wrS (tw false) 2 5) 0x2000)) fun o f s w =>
        match checkAll s 0 w o f (some .store) false with
        | (x :: _, none) => !w.turn && (getCard s 0).isSome && (homeRefuses s 0 w.sec (accKey x)).isNone && (tktStall f s 0 w).isSome
        | _ => false,
      let s := tick none 1 (tw true)
      let c : Card := { (getCard s 0).getD probeCard with ended := [(groupKey 0, (5, 0))] }
      c.tickets.any fun t => tktNext c t 0 == some 1 && tktNext { c with ended := [], stop := some { stamp := (0, 0), cause := 1, kind := 0, status := 2 } } t 0 == some 2,
      homes (.tktWait { lg with d := 3, a := 1, b := 2 }) (ts (at1 (wrS (tw true) 2 0x80000000) 0x2000)) .store false fun _ f v _ xs =>
        xs.length == 1 && decide (2 ^ 31 ≤ (scalarB v f).toNat),
      homes (.tktWait { lg with d := 3, a := 1, b := 2 }) (tick none 4 (at1 (tw true) 0x2020)) .store false fun s _ _ _ xs =>
        xs.length == 1 && (getCard s 0).any fun c => c.tickets.length == 4,
      homes (.tktDone { lg with fn := 1, d := 3, a := 1 }) (tick none 1 (at1 (tw true) 0x2000)) .store false fun s _ _ _ xs =>
        xs.length == 1 && (getCard s 0).any fun c => c.tickets.all fun t => t.holder.isNone,
      homes (.tktDone { lg with fn := 1, d := 3, a := 1 }) (tick (some 0) 1 (at1 (tw true) 0x2000)) .store false fun s _ _ _ xs =>
        xs.length == 1 && (getCard s 0).any fun c => c.tickets.all fun t => t.key == 0x2000 && t.holder == some 0] = true := by decide +kernel

/-! ## What the statements suppose: the matrix engine and copies -/

theorem witness_matrix : allOf
    [meets (.mma { ex .mma with pred := 1 }) (ts (tw true)) fun _ f s w => (mmaRows w f).isEmpty && (getGroup s 0).isSome,
      meets (.mma (ex .mma)) (ts (wrS (at1 (tw true) window0) 3 window0)) fun _ f s w => (getGroup s 0).any fun g =>
        !(mmaRows w f).isEmpty && g.bufs.isEmpty &&
        (spansCheck g.gsize (stepBytes f f.ty * mmaSteps f) (operandAlign f.ty) ((mmaRows w f).map (rowStart w f))).isNone &&
        (spansCheck g.gsize (stepBytes f (mmaTb f) * mmaSteps f) (operandAlign (mmaTb f)) ((List.range 32).map (colStart w f))).isNone &&
        match mmaRun s 0 w f (plainBase s 0 w) (mmaRows w f) (mmaCells w f (mmaRows w f)) (mmaSteps f - w.mstep) w.mstep g 0 [] with
        | .ok _ _ _ => true
        | _ => false,
      [ex .accrd, ex .accwr, ex .accz].zip [Op.accrd, .accwr, .accz] |>.all fun e =>
        meets (e.2.long e.1) (ts (tw true)) fun _ _ s _ => (getGroup s 0).any fun g => g.bufs.isEmpty] = true := by decide +kernel

/-- Four words of group memory from an offset. -/
def td (base : Int) : Desc := { ok := true, region := 0, group := true, ndim := 1, ty := 0, base := base, ext := [4], expoff := 0, str := [4] }
def tcmd : CopyCmd :=
  { ok := true, role := 0, nslice := 1, bufoff := 1024, buflen := 64, src := td 0, dst := td 1024, strm := noDesc, loopOk := true
    count := 2, stages := 1, step := [1] }
/-- A state with one buffer entry. -/
def tbuf (n : Nat) (x : Buf) (w : Warp) : State := { ts w with groups := [(0, setBuf tg n x)] }
def coll0 : Coll := { addr := window0, cmd := { tcmd with nslice := 2 }, shares := [] }

/-- Registers 1 and 2 at the start of group memory, where a command of zeros stands. -/
def tcp (t : Bool) : Warp := wrS (at1 (tw t) window0) 2 window0

theorem witness_copy_instructions : allOf
    [[(lg, false), ({ lg with fn := 4 }, true)].all fun e =>
        meets (.cpslice { e.1 with d := 3, a := 1, b := 2 }) (ts (tcp true)) fun _ f s w => (getGroup s 0).any fun g =>
          let a := addrOf w f.a.toNat
          let c := addrOf w f.b.toNat
          f.fn.getLsbD 2 == e.2 && (copyFault g.gsize ((a, 64) :: if e.2 then [(c, 8)] else []) (cmdSpans a .slice ++ if e.2 then [(c, 112)] else [])).isNone &&
            (getBuf g 3).coll.isNone && opens (getBuf g 3) (readCmd g .slice (windowOff a)).role,
      meets (.cpslice { lg with d := 3, a := 1, b := 2 }) (tbuf 3 { Buf.free with coll := some coll0, state := 1 } (tcp true)) fun _ f s w =>
        (getGroup s 0).any fun g => (getBuf g 3).coll.any fun c => c.addr == rdS w f.a.toNat,
      meets (.cpslice { lg with d := 3, a := 1, b := 2 }) (tbuf 3 { Buf.free with coll := some { coll0 with addr := 0 }, state := 1 } (tcp true)) fun _ f s w =>
        (getGroup s 0).any fun g => (getBuf g 3).coll.any fun c => c.addr != rdS w f.a.toNat,
      meets (.cpslice { lg with d := 3, a := 1, b := 2 }) (tbuf 3 { Buf.free with state := 2 } (tcp true)) fun _ f s w =>
        (getGroup s 0).any fun g => (getBuf g 3).coll.isNone && !opens (getBuf g 3) (readCmd g .slice (windowOff (addrOf w f.a.toNat))).role,
      [Op.cploop, .cpchain].all fun o => [0, 2].all fun st =>
        meets (o.long (ex o)) (tbuf 3 { Buf.free with state := st } (tcp true)) fun o f s w => (getGroup s 0).any fun g =>
          let kind : CopyKind := if o = .cploop then .loop else .chain (f.lit.getD 0) ((List.range 7).map fun i => rdS w (f.c.toNat + i))
          (copyFault g.gsize [(addrOf w f.a.toNat, 64)] (cmdSpans (addrOf w f.a.toNat) kind)).isNone,
      [0, 2].all fun st => meets (.cpacc (ex .cpacc)) (tbuf 3 { Buf.free with state := st } (tcp false)) fun _ f s w => (getGroup s 0).any fun g =>
        let a := addrOf w f.a.toNat
        let cmd := readCmd g (.acc f.imm.toNat) (windowOff a)
        let n := cmd.src.ext.getD 0 0 * (if cmd.src.ty = 9 then 2 else 1)
        (copyFault g.gsize [(a, 64)] (cmdSpans a (.acc f.imm.toNat))).isNone &&
          !(accCommand cmd f.imm.toNat && accBusy g ((List.range (cmd.src.ext.getD 1 0)).map (accRow0 f.imm.toNat + ·))
            ((List.range n).map (accCol0 f.imm.toNat + ·))),
      meets (.bfwait { lg with d := 3, a := 1 }) (ts (tw true)) fun _ f s _ => (getGroup s 0).any fun g => (getBuf g f.a.toNat).state == 0,
      meets (.bfwait { lg with fn := 1, d := 3, a := 1 }) (tbuf 1 { Buf.free with state := 4 } (tw true)) fun _ f s _ =>
        (getGroup s 0).any fun g => (getBuf g f.a.toNat).state == 4,
      [0, 1, 3, 2, 4].all fun st => meets (.bfrel { lg with a := 1 }) (tbuf 1 { Buf.free with state := st } (tw true)) fun _ f s _ =>
        (getGroup s 0).any fun g => (getBuf g f.a.toNat).state == st && (getBuf g f.a.toNat).loop.isNone,
      meets (.bfrel { lg with a := 1 }) (tbuf 1 { Buf.free with state := 2, loop := some { cmd := tcmd, first := 1, iter := 0 } } (tw true)) fun _ f s _ =>
        (getGroup s 0).any fun g => (getBuf g f.a.toNat).loop.any fun l => decide (l.iter + l.cmd.stages < l.cmd.count)] = true := by decide +kernel

/-- A copy whose command fails, one that a later check fails, and one that starts; a buffer whose copy completes, in both modes. -/
theorem witness_copies : allOf
    [(let share := rangeShare (td 0) 0x400000000
      plainCommand tcmd [share] && !plainCommand { tcmd with nslice := 49 } [share] &&
        [(tcmd, true), ({ tcmd with dst := td 4092 }, false)].all fun e =>
          let boxes := [share.box]
          let vs : List View := [{ d := e.1.src, boxes := boxes, shift := 0, write := false, range := none },
            { d := e.1.dst, boxes := boxes, shift := 0, write := true, range := some (1024, 64) }]
          plainCommand e.1 [share] && (laterChecks (ts (tw true)) (tabsOf (ts (tw true)) 0 (tw true)) tg [3] [(1024, 64)] boxes vs none == 0) == e.2),
      [true, false].all fun t =>
        let s := tbuf 1 { Buf.free with state := 1, copy := some { stamp := (0, 0), gw := [(1024, 5)], mw := [], aw := [], flags := 0, ceil := false, floor := false, fill := true } } (tw t)
        (kfind s.groups 0).any (fun g => (getBuf g 1).copy.isSome) && (getPart s (partOf 0)).ctx.any fun c => c.turn == t] = true := by decide +kernel

/-- A pot that needs a 33rd entry; a wait that parks, reinstated in both modes and both forms; a page of a translation in use. -/
theorem witness_pots_full_wakes_and_uses : allOf
    [(let full : Hand := { Hand.empty with pots := (List.range 32).map fun i =>
        { key := 0x8000 + 4 * i, op := 2, ty := .n32, val := 1, pc := 0, va := 0x8000 } }
      meets (.pot { lg with ty := .n32, fn := 2, a := 1, b := 2, c := 5 }) (ts (wrP { at1 (tw true) 0x2000 with hand := full } 0 1)) fun o f s w =>
        !inWindow w o f && !w.sys && (handRefusals s 0 w.sec w.hand true).isEmpty && passing s w o f (some .store) true fun xs =>
          let e : PotEnt := { key := 0x2000, op := 2, ty := .n32, val := 0, pc := 0, va := 0x2000 }
          (xs.head?.any fun x => accKey x == e.key) && (potPut w.hand e).isNone && (potPut Hand.empty e).isSome),
      [ParkWhat.bar 0 0 0 true, .claim 8, .fwait 1 3 false].all fun what => [true, false].all fun t =>
        (getWarp (ts { tw t with stat := .parked what 12 false }) 0).any fun y => isParked y,
      let w : Warp := { tw true with sys := true, pend := [
        { regs := [3], writes := [], fp := 0, lx := 0, queue := none, remote := some {
            home := 1, srcs := [{ vec := true, reg := 3, lane := 0, key := 2 ^ 52 + 0x2000, size := 4, sx := false, val := none, va := 0x2000 }]
            served := false, refused := none, va := 0x2000, pc := 0x1000, clock := 0 } }] }
      xlatInUse (ts w) 0 (fun _ => true) && !xlatInUse (ts (tw true)) 0 fun _ => true] = true := by decide +kernel

/-! ## What the statements suppose: handles and save points -/

/-- Handle 1, of slot 0, in a state and held once by the card, whose own handle it is. -/
def th (st : SlotSt) (w : Warp) : State :=
  { ts w with
    slots := [(0, { Slot.fresh with st := st, count := 1 })], cards := [(0, { probeCard with handle := 1, held := [(1, 1)] })]
    parts := [(0, { Part.reset with ctx := some { probeCtx with turn := w.turn, repro := 2 }, mboxes := [(0, tbox)], pins := [(1, 1)] })] }

/-- The creating acts, without a marked handle in both modes, with one marked, and addressed to a handle. -/
def creates (i : Instr) (s : State) : Bool :=
  meets i s fun o f s1 w =>
    let dom := domOf s1 0
    let mask := rdS w f.c.toNat ||| (if o = .invokeh then 1 else 0)
    let dest : Dest := if o = .spawn then .here else if o = .invoke then .chip (f.imm.toNat % 16) else .handle
    let s2 := reapCards (if w.turn then settleHandles s1 dom else s1) dom
    match readAcq s2 0 w 8 ((lanesOf mask).map fun i => ((rdS w f.b.toNat).toNat : Int) + 8 * i) with
    | .ok s3 vals =>
      match getCard s3 0 with
      | some c =>
        let handles := vals.map (BitVec.ofNat 64)
        let serial := 0x8000 + createdCount s3 dom % 0x8000
        (markFault s3 0 handles []).isNone && decide (heldDistinct c < 256) && !destFull s3 0 dest handles && !serialUsed s3 dom serial &&
        match pickSlot s3 0 serial w.turn (w.clock, identOf 0) with
        | some n =>
          let key := slotKey 0 (serial % dieCount s3 0) n
          let gen := (getSlot s3 key).gen
          let h := mkHandle (myIndex s3 0) (serial % dieCount s3 0) n gen
          let s4 := putSlot s3 key { Slot.fresh with gen := gen, st := .pending, count := 1 }
          let s5 := updCard (bumpCounts (setPart s4 0 { getPart s4 0 with nCreated := (getPart s4 0).nCreated + 1 }) 0 handles) 0 fun c => addHeld c h
          let s6 := place s5 0 (w.clock, identOf 0) dest handles
            { home := 0, target := 0, image := rdS w f.a.toNat, arg := rdS w f.b.toNat, ident := myIndex s5 0 * 2 ^ 48 + serial * 2 ^ 32
              handle := h, origin := w.clock + 8, prio := c.prio, mbox := c.mbox, held := handles, stamp := (w.clock, identOf 0)
              via := if o = .invokeh then handles.head? else none, maker := c.maker.getD (partOf 0, c.mbox) }
          (getWarp s6 0).any (fun v => v.stat == WStat.ready) && (getCard s6 0).all fun c => c.stop.isNone
        | none => false
      | none => false
    | _ => false

/-- Handle 1 as a dword of memory at 0x2000. -/
def withHandle (s : State) : State := { s with mem := wrBytes s.mem 0x2000 (leBytes 8 1) }

theorem witness_creating_acts : allOf
    [creates (.spawn { lg with d := 3, a := 1, b := 2 }) (ts (tw true)), creates (.spawn { lg with d := 3, a := 1, b := 2 }) (ts (tw false)),
      creates (.spawn { lg with d := 3, a := 1, b := 2, c := 4 }) (withHandle (th .pending (wrS (wrS (tw true) 2 0x2000) 4 1))),
      creates (.invoke { lg with d := 3, a := 1, b := 2, imm := 15 }) (ts (tw true)),
      creates (.invokeh { lg with fn := 1, d := 3, a := 1, b := 2 }) (withHandle (th .resolved (wrS (tw true) 2 0x2000)))] = true := by decide +kernel

/-- Register 1 names handle 1. -/
def wh (t : Bool) : Warp := wrS (tw t) 1 1

/-- A handle instruction whose handle is live. -/
def handles (i : Instr) (s : State) (p : State → Long → Warp → Slot → Card → Bool) : Bool :=
  meets i s fun _ f s w => match liveSlot s 0 (rdS w f.a.toNat), getCard s 0 with
    | some (_, x), some c => p s f w x c
    | _, _ => false

theorem witness_handle_instructions : allOf
    [handles (.fwait { lg with d := 119, a := 1, imm := 1 }) (th .resolved (wh true)) fun _ _ _ x _ => !unresolved x,
      handles (.fwait { lg with d := 8, a := 1 }) (th .broken (wh false)) fun _ _ _ x _ => !unresolved x,
      handles (.fwait { lg with d := 8, a := 1 }) (th .running (wh true)) fun _ _ _ x _ => unresolved x,
      handles (.fpoll { lg with fn := 1, d := 8, a := 1 }) (th .pending (wh true)) fun s _ w _ _ =>
        (getWarp (handleTurn s 0 w) 0).any fun v => v.stat == WStat.ready,
      handles (.fpoll { lg with fn := 1, d := 8, a := 1 }) (th .resolved (wh false)) fun _ _ _ x _ => !unresolved x,
      handles (.fref { lg with a := 1 }) (th .pending (wh true)) fun _ f w x c => x.count != 65535 && heldCount c (rdS w f.a.toNat) != 0,
      handles (.fdrop { lg with fn := 1, a := 1 }) (th .running (wh true)) fun s f w _ c => heldCount c (rdS w f.a.toNat) != 0 &&
        (getWarp (cascade (updCard (handleTurn s 0 w) 0 fun c => dropHeld c 1) 0 (w.clock, identOf 0) [.drop 1]) 0).any fun v => v.stat == WStat.ready,
      handles (.fdrop { lg with fn := 1, a := 1, imm := 1 }) (th .running (wh false)) fun s f w _ _ => pinCount s 0 (rdS w f.a.toNat) != 0,
      handles (.fpin { lg with fn := 2, a := 1 }) (th .resolved (wh true)) fun _ _ _ x _ => x.count != 65535] = true := by decide +kernel

/-- The card's own handle, unresolved and resolved; 0 and 64 bytes of a value. -/
theorem witness_own_handle : allOf
    [[(SlotSt.running, 0), (.resolved, 64)].all fun e =>
        meets (.fresVal { lg with d := 3, a := 1, imm := e.2 }) (th e.1 (wrS (tw true) 1 0x2000)) fun _ f s w =>
          match readAcq s 0 w 1 ((List.range (f.imm.toNat % 2 ^ 7)).map fun i => ((rdS w f.a.toNat).toNat : Int) + i) with
          | .ok u vals => vals.length == f.imm.toNat && (getCard u 0).any fun c => (findSlot u 0 c.handle).any fun x => x.2.st == e.1
          | _ => false,
      [Op.fresPlace, .fbreak].all fun o => [SlotSt.running, .broken].all fun st =>
        meets (o.long { ex o with d := 3 }) (th st (wh true)) fun _ _ s w =>
          let u := handleTurn s 0 w
          (getCard u 0).any fun c => (findSlot u 0 c.handle).any fun x => x.2.st == st] = true := by decide +kernel

theorem witness_save_points_digests_seeds : allOf
    [[true, false].all fun t => meets (.savept { lg with d := 3 }) (th .running (tw t)) fun _ _ s _ => (getWarp (turnPub s 0) 0).isSome,
      meets (.digest { lg with a := 1 }) (th .running (wh true)) fun _ _ s _ => chainOn s 0 && (getWarp (turnPub s 0) 0).isSome,
      meets (.digest { lg with a := 1 }) (ts (wh false)) fun _ _ s _ => !chainOn s 0,
      meets (.seed { lg with fn := 1, d := 3, b := 0xFF, lit := some 7 }) (ts (tw true)) fun _ _ s _ => (getCard s 0).isSome] = true := by decide +kernel

/-! ## What the statements suppose: encodings, steps, warps -/

/-- Every legal form is well formed as the instruction that it is, with the longest literal too. -/
theorem witness_encodings :
    (ops.all fun o => (o.long (ex o)).wf && (o.long (ex o)).core.isSome) = true ∧
    (Instr.vaddLong { lg with b := 0xFF, lit := some (2 ^ 64 - 1) }).wf = true ∧
    decode (encode (.vaddLong { lg with b := 0xFF, lit := some (2 ^ 64 - 1) }) ++ [7]) =
      .ok (.vaddLong { lg with b := 0xFF, lit := some (2 ^ 64 - 1) }, [7]) := by decide +kernel

/-- The code at 0x1000 and a warp that stands there. -/
def tstep (w : Warp) (code : List Byte) : State := { ts w with mem := probeMem [] code }

/-- The site of the warp: partition 0, core 0. -/
def site0 : Site := { part := 0, core := some 0 }

/-- A pending event; no issue; an issuing warp that is gone, that is not ready, whose word cannot be fetched, whose words are none,
whose second word lies in a page that cannot be fetched, that waits for a run's end, that runs, and that repeats. -/
theorem witness_step : allOf
    [!(([.portUp 0 0] : List Instr).isEmpty), (State.reset.cur).isNone && State.reset.agenda.isEmpty && State.reset.runs.isEmpty,
      (getWarp { State.reset with cur := some 5 } 5).isNone,
      (getWarp (ts { tw true with stat := .stalled }) 0).any fun w => w.stat != WStat.ready,
      (fetchWord (tstep (setPc (tw true) 0x5000) []) site0 (codeMark (tw true)) false 0x5000).toOption.isNone,
      match fetchWords (tstep (tw true) [0x31, 0x01, 0, 0]) site0 (codeMark (tw true)) false 3 0x1000 with
      | .ok ws => decode ws == .error .badMajor
      | _ => false,
      match fetchWord (tstep (setPc (tw true) 0x1FFC) []) site0 (codeMark (tw true)) false 0x1FFC, fetchWords (tstep (setPc (tw true) 0x1FFC) []) site0 (codeMark (tw true)) false 3 0x1FFC with
      | .ok _, .error (.fault a _) => a == 0x2000
      | _, _ => false,
      repWaits { tw true with runLen := 24 } (.rep lg) || repWaits { tw true with runLen := 23 } (.rep lg),
      match fetchWords (tstep (tw true) []) site0 (codeMark (tw true)) false 1 0x1000 with
      | .ok ws => decode ws == .ok (.nopShort { fl := fl0 }, [])
      | _ => false,
      match fetchWords (trep { tw true with rep := some { count := 3, imm := 0x110003, clock := 0, len := 16 } }) site0 (codeMark (tw true)) false 1 0x100C with
      | .ok ws => (decode ws).toOption.any fun x => x.1.core.isSome
      | _ => false,
      State.reset.memWf && (tstep (tw true) [1, 2, 3]).memWf] = true := by decide +kernel

/-- Registers of a new warp; a plan of two stages; a clock that stays in its round and one that crosses a mark; a shut gate. -/
theorem witness_warps_and_clocks : allOf
    [(tw true).wf, (wrS (wrV (tw true) 255 63 5) 127 5).wf,
      (warpPlan { probeCard.shape with warps := [2, 1], allots := [64, 128] })[2]? == some (1, 128),
      decide (1023 / (tw true).quantum ≤ (tw true).clock / (tw true).quantum),
      decide ((tw true).clock / (tw true).quantum < 1024 / (tw true).quantum),
      (getWarp (ts (tw true)) 0).isSome && (getCard (ts (tw true)) 0).all (fun x => x.stop.isNone) &&
        (handRefusals (ts (tw true)) 0 false (tw true).hand true).isEmpty,
      let s := ts { tw true with stat := .gate 1024 1024, clock := 1024 }
      !floorGe s (domOf s 0) 1025] = true := by decide +kernel

/-- Outstanding results: one that waits for another chip; two of this chip, one of them unconfirmed; an unconfirmed one that faults. -/
def pd (r : Option Remote) : Pend := { regs := [3], writes := [.v 3 0 5], fp := 1, lx := 0, remote := r, queue := none }
def rem (served : Bool) (h : Option (BitVec 64)) : Remote :=
  { home := 1, srcs := [{ vec := true, reg := 3, lane := 0, key := 2 ^ 52 + 0x2000, size := 4, sx := false, val := h, va := 0x2000 }], served := served
    refused := none, va := 0x2000, pc := 0x1000, clock := 0 }
def uc (f : Option (Nat × Nat)) : Unconf :=
  { pc := 0x1000, frag := 0, clock := 0, idx := 0, pend := some (pd none), fault := f, vas := [0x2000] }

theorem witness_park_points : allOf
    [{ tw true with pend := [pd (some (rem false none))] }.pend.any fun x => x.remote.isSome,
      let w := { tw true with pend := [pd none], unconf := [uc none] }
      !(w.pend.any (fun x => x.remote.isSome) || w.unconf.any fun u => u.pend.any fun x => x.remote.isSome) && w.unconf.all fun u => u.fault.isNone,
      let w := { tw true with unconf := [uc none, uc (some (0, 0x3000))] }
      !(w.unconf.any fun u => u.pend.any fun x => x.remote.isSome) && w.unconf.any fun u => u.fault.isSome] = true := by decide +kernel

/-! ## What the statements suppose: events -/

/-- Two chips that reach each other, with the second's partition of the same number. -/
def two_ (w : Warp) : State :=
  let up : KMap Port := [(3, { Port.reset with up := true })]
  { ts w with
    chips := [(0, { tc with fxEn := true, isize := 1, peers := [(1, { rv := false, relay := 0, port := 3 })], ports := up }),
      (1, { Chip.reset with fxEn := true, isize := 1, index := 1, pmap := 0xB0, peers := [(0, { rv := false, relay := 0, port := 3 })], ports := up })]
    parts := (ts w).parts ++ [(8, { Part.reset with ctx := some probeCtx })] }

theorem witness_flight : allOf
    [{ tw true with pend := [pd (some (rem false none)), pd none] }.pend.any fun x => x.remote.isNone,
      (uc none).fault.isNone && (uc (some (0, 0x3000))).fault.isSome && !(tw true).sys && (tw true).tvec != 0,
      let x : Posted := { pc := 0x1000, lanes := [(0x2000, [1, 2, 3, 4])] }
      let s := ts { tw false with posted := [x] }
      (postedFault s site0 false x).isNone && (postedFault s site0 false { x with lanes := [(0x1000, [1])] }).isSome &&
        let s := serveCore s 0 [0x2000]
        !linesWait s 0 [0x2000] && !keyHeld s 0 0x2000 &&
        let s1 := x.lanes.foldl (fun s l => setDirty (install s site0 l.1) site0 l.1) s
        (x.lanes.mapM (fun l => (translate s1 site0 false .store l.1 l.2.length).toOption.map fun y => (y.key, l.2))).any fun keys =>
          krising none s.chips && keys.all fun e => (homeRefuses s1 0 false e.1).isNone,
      let x := pd (some (rem false none))
      let s := two_ { tw true with pend := [x] }
      canServe s 0 x && (rem false none).srcs.all fun e => (homeRefuses s 0 false (forwardKey s e.key)).isNone,
      let x := pd (some (rem false none))
      let s := ts { tw true with pend := [x] }
      canServe s 0 x && (rem false none).srcs.any fun e => (homeRefuses s 0 false (forwardKey s e.key)).isSome,
      (rem true (some 7)).served,
      let s := two_ { tw true with sys := true, stat := .fshoot [0, 1] (some 0x2000) 0 3 12 false }
      [0, 1].all fun c => !shootMoving s c 0 (some 0x2000) && !xlatInUse s c (shootHit 0 (some 0x2000)) && (c == 0 || reaches s 0 (myIndex s c)),
      let s := tstep (tw true) []
      let u := { s with chips := [(0, { tc with dieTlb := [] })] }
      (walkAt u site0 0x1000).leaf.toOption.isSome && !tlbHas u site0 0x1000 && (walkAt u (partSite 0) 0x1000).leaf.toOption.isSome,
      decide ((0, 5) ∈ { State.reset with markers := [(0, 5)] }.markers)] = true := by decide +kernel

/-- A second warp, of the same group, at the next entry of the warp table. -/
def tw2 (t : Bool) : Warp := { tw t with ident := 1, clock := 5, entry := 1 }

/-- The state in which nobody issues. -/
def idle (w : Warp) : State := { ts { w with slot := none } with cur := none, runs := [] }

/-- Both warps of the group, without a slot. -/
def pair_ (w v : Warp) : State := { idle w with warps := [(0, { w with slot := none }), (1, { v with slot := none })] }

/-- A turn-mode winner; free-mode winners by losses and by the round; free slots; a warp that waits on and one that need not. -/
theorem witness_slots : allOf
    [(let s := pair_ (tw true) (tw2 true)
      (readyWarps s 0 0).length == 2 && s.warps.all (fun e => !boundaryStop s 0 0 e) &&
        stampLt (stampOf 0 (tw true)) (stampOf 1 (tw2 true)) && freeSlots s 0 0 == [0, 1, 2, 3] && winner s 0 0 == some 0 &&
        (let u := ((s.warps.filter fun e => idleOn s 0 0 e).map fun e => e.1).foldl (refresh 0) s
         winner u 0 0 == some 0)),
      let s := pair_ (tw false) (tw2 false)
      let ws := readyWarps s 0 0
      let co := getCore (getChip s 0) 0
      let turn (e : Nat × Warp) : Nat := (e.2.entry + 47 - co.rr) % 48
      ws.length == 2 && ws.all (fun e => !e.2.turn && decide (sget 0 co.lost e.1 < 64) && !barred s 0 0 (groupKey e.1)) &&
        decide (turn (0, tw false) < turn (1, tw2 false)),
      let u := pair_ (tw false) (tw2 false)
      let s := setChip u 0 (setCore (getChip u 0) 0 { getCore (getChip u 0) 0 with lost := [(1, 64)] })
      (readyWarps s 0 0).any (fun e => e.1 == 1) && winner s 0 0 == some 1 && krising none (getCore (getChip s 0) 0).scores,
      (freeSlots (ts (tw true)) 0 0) == [1, 2, 3],
      let w := { tw false with stat := .stalled, slot := none }
      let held (st : Nat) : State := { idle w with
        mem := probeMem [] [0x11, 0x1F, 0, 0, 1, 0, 0, 0, 0, 0, 0, 0]
        groups := [(0, setBuf tg 1 { Buf.free with state := st })] }
      waiting (tried (held 3) 0 w 0) 0 && !waiting (tried (held 0) 0 w 0) 0] = true := by decide +kernel

/-- Halts at a boundary, within a run, and between two repetitions; a resumption; a gate that opens and one that no beacon proves. -/
theorem witness_halts_and_gates : allOf
    [(getWarp (idle (tw true)) 0).any fun w => isLive w && !w.halted && w.slot == none && !w.sys,
      (getWarp (ts (tw true)) 0).any fun w => isLive w && !w.halted && w.slot != none && w.rep.isNone,
      let w := { tw true with repidx := 1, rep := some { count := 3, imm := 0x110003, clock := 0, len := 16 } }
      (getWarp (trep w) 0).any fun w => isLive w && w.rep.isSome && decide (1 ≤ w.repidx),
      (getWarp (idle { tw true with halted := true }) 0).any fun w => w.halted && !w.preReq,
      let s := idle { tw true with stat := .gate 0 0 }
      (getWarp s 0).any fun w => mayIssue s 0 w && floorGe s 0 0 && copiesStaged s 0 0 && beaconsProve s 0 (domOf s 0) (0, 0)] = true := by
  decide +kernel

theorem witness_turns_and_ends : allOf
    [(let s := { idle (tw true) with warps := [], groups := [], cards := [(0, { probeCard with ended := [(0, (5, 0))], mark := 1024 })],
                                        parts := [(0, { Part.reset with ctx := some probeCtx, mboxes := [(0, { tbox with clock := 1024 })] })] }
      s.cards.all fun e => inDom s (domOf s 0) (partOf e.1) && e.2.stop.isNone && allEnded e.2 && !e.2.endTurn &&
        leastInDom s 0 (domOf s 0) none (endStamp e.2)),
      let s := { idle { tw true with stat := .turnWait } with mem := probeMem [] [0x51, 0x06, 0, 0, 0, 0, 0, 0, 0, 0, 0, 0] }
      let s' := idle { tw true with stat := .dying 1 0 0 }
      let f := { idle { tw true with stat := .turnWait } with mem := probeMem [] [0x21, 0x06, 0, 0, 0, 0, 0, 0, 0, 0, 0, 0] }
      (!leastWarp s (domOf s 0) (0, { tw true with stat := .turnWait, slot := none })) &&
        leastWarp f (domOf f 0) (0, { tw true with stat := .turnWait, slot := none }) &&
        leastWarp s' (domOf s' 0) (0, { tw true with stat := .dying 1 0 0, slot := none }) &&
        (leastDoomed f (domOf f 0)).isNone && (leastDue f (domOf f 0)).isNone,
      let w := { tw true with stat := WStat.turnWait, slot := none }
      let s := { idle w with mem := probeMem [] [0x31, 0x06, 0x10, 0, 0, 0, 0, 0, 0, 1, 0, 0] }
      mayIssue s 0 w && nextTurn s 0 w == .group && leastInGroup s 0 (stampOf 0 w),
      let s := { idle { tw true with stat := .ended } with cards := [(0, { probeCard with shape := { probeCard.shape with groups := 2 } })] }
      krising none s.groups && groupDead s 0 && !copiesBusy tg && (s.warps.any fun e => groupKey e.1 == 0 && e.2.turn) &&
        s.cards.all fun e => decide (e.2.ended.length + 1 < e.2.shape.groups),
      let p : Pub := { dom := 8, stamp := (5, 0), ord := 1, made := 0, body := .bytes [(0x2000, 7)] }
      let s := { State.reset with pubs := [p], parts := [(0, { Part.reset with ctx := some probeCtx })] }
      (mergeBound s (domOf s 0)).isNone && p.dom == domOf s 0,
      let s := { idle { tw true with stat := .gate 1024 1024, clock := 1024 } with cards := [(0, { probeCard with shape := { probeCard.shape with groups := 2 }, slots := 1 })] }
      s.cards.all fun e => e.2.stop.isNone && e.2.doomed.isNone && decide (e.2.next < e.2.shape.groups) && decide (e.2.slots ≤ startedGroups s 0) &&
        noneRetires s (domOf s 0) && leastInDom s 0 (domOf s 0) none (e.2.origin, identOf 0 + e.2.next * 2 ^ 8),
      let s := { idle { tw true with stat := .parked (.bar 0 0 0 false) 12 false } with cards := [(0, { probeCard with handle := 1 })] }
      allParked s (domOf s 0) && parkedCards s (domOf s 0) == [((0, 0), 0)]] = true := by decide +kernel

/-! ## What the statements suppose: the dealer -/

/-- A card header at 0x2000 (R69): magic, version 1, entry 0x40, one group of one warp of 16 lanes with 8 registers, code of 8 bytes. -/
def header : List Byte :=
  [0x5A, 0x56, 0x43, 0x48, 1, 0, 0, 0] ++ leBytes 8 0x40 ++ leBytes 4 1 ++ leBytes 4 0x10 ++ leBytes 4 1 ++ leBytes 4 1 ++ leBytes 16 0 ++
    leBytes 4 8 ++ leBytes 12 0

/-- An idle partition whose mailbox 3 holds an entry with these fields. -/
def td_ (turn : Bool) (fields : Fields) : State := { State.reset with
  mem := wrBytes [] 0x2000 header, chips := [(0, tc)]
  parts := [(0, { Part.reset with
    ctx := some { probeCtx with turn := turn, poollen := 4096 }
    mboxes := [(3, { Mbox.closedBox with
      closed := false, count := 1, fifo := [{ n := 1, fields := fields, deps := [], badDep := false }] })] })] }

/-- The head of the queue passes to its check, with a test of what the check answers. -/
def admits (s : State) (p : Nat → Entry → Except Nat (Option (Shape × Dword)) → Bool) : Bool :=
  let s0 := reapCards s (domOf s 0)
  match (getPart s 0).ctx, (getPart s 0).ctx.bind fun x => lowestHead s0 0 (goesNow s0 0 x) with
  | some x, some (b, base, e) => b == 3 && (getPart s 0).save.differs.isNone && (!x.turn || mayAdmit s0 0 b base e) &&
      p base e (checkEntry s0 0 base (getMbox s0 0 b) e)
  | _, _ => false

/-- What an admission finds: a reserved type, seed entries, a close, a fence, a save point, a card in both modes, no header. -/
theorem witness_admissions : allOf
    [admits (td_ true [(0, 8)]) fun _ _ r => match r with | .error c => c == 5 | _ => false,
      admits (td_ true [(1, 0x3000)]) fun _ _ r => match r with | .error c => c == 7 | _ => false,
      [2, 3, 4, 5, 6, 7].all fun t => admits (td_ true [(0, t)]) fun _ e r => (match r with | .ok none => true | _ => false) && getField e.fields 0 == t,
      [true, false].all fun t => admits (td_ t [(1, 0x2000), (2, 0x5000)]) fun _ _ r => match r with
        | .ok (some (sh, entry)) => poolRoom (td_ t []) 0 sh && sh.groups == 1 && sh.allots == [8] && entry == 0x2040 && (t || (pickSlot (td_ t []) 0 0 false (0, 0)).isSome)
        | _ => false,
      (td_ true []).cards.isEmpty && (0 * 2 ^ 52 + myIndex (td_ true []) 0 * 2 ^ 48 + 0 * 2 ^ 32) % 2 ^ 32 == 0] = true := by decide +kernel

/-- The two chunks that chapter 13 writes out: the first alone, both, and both into a mailbox that is full. -/
def chunks : List Byte := [0x8087, 0, 0x41, 0x40000, 0x40, 0x10010008, 0x8000, 0].flatMap fun w => leBytes 4 w
def boxed (m : Mbox) : Mbox := { m with ring := chunks.zipIdx.foldl (fun r e => kinsert r e.2 e.1) m.ring }

theorem witness_mailbox_writes : allOf
    [(let m := { Mbox.closedBox with closed := false }
      (chunkBytes m 1).isNone && (chunkBytes { m with ring := (chunks.take 16).zipIdx.foldl (fun r e => kinsert r e.2 e.1) [] } 1).isSome &&
        (chunkBytes { m with ring := (chunks.take 16).zipIdx.foldl (fun r e => kinsert r e.2 e.1) [] } 2).isNone && (chunkBytes (boxed m) 2).isSome),
      !(getPart (td_ true []) 0).cmd.busy,
      decide ((2 + (((List.range 16).filter fun i => 0x8087.testBit i).map fun i => fieldSizes.getD i 0).sum + 15) / 16 = 2)] = true := by decide +kernel

/-- An entry in progress: a fence without a mark, a fence whose mark the floor has reached, a finished card. -/
def tcur (c : Current) (cards : KMap Card) : State := { State.reset with
  chips := [(0, tc)], cards := cards
  parts := [(0, { Part.reset with
    ctx := some probeCtx, mboxes := [(3, { Mbox.closedBox with closed := false, count := 1, clock := 1024, cur := some c })] })] }

theorem witness_completions : allOf
    [[2, 3].all fun t =>
        let c : Current := { n := 1, typ := t, base := 0, card := none, doneAddr := 0, mark := none }
        fenceReady (tcur c []) 0 3 true c && fenceReady (tcur c []) 0 3 false c,
      let c : Current := { n := 1, typ := 2, base := 0, card := none, doneAddr := 32, mark := some 1024 }
      floorGe (tcur c []) (domOf (tcur c []) 0) 1024,
      let c : Current := { n := 1, typ := 0, base := 0, card := some 0, doneAddr := 33, mark := none }
      cardFinished (tcur c [(0, { probeCard with ended := [(0, (5, 0))], mark := 1024, endTurn := true })]) 0] = true := by decide +kernel

/-- A created card whose header is not mapped, and one whose card has a place, without a handle's slot and with it. -/
def tcreated (image : Dword) (slots : KMap Slot) : State := { td_ true [] with
  parts := [(0, { Part.reset with ctx := some { probeCtx with poollen := 4096 } })], slots := slots
  created := [{ home := 0, target := 0, image := image, arg := 0, ident := 0x8000 * 2 ^ 32, handle := 1, origin := 8, prio := 0, mbox := 3, held := []
                stamp := (0, 0), via := none, maker := (0, 3) }] }

theorem witness_arrivals : allOf
    [([0x3000, 0x2000] : List Dword).all fun a => (nextArrival (tcreated a []) 0 { probeCtx with poollen := 4096 }).any fun c => c.image == a,
      (nextArrival (td_ true []) 0 probeCtx).isNone,
      (match checkCard (tcreated 0x3000 []) 0 8 0x3000 [] false with | .error c => c == 7 | _ => false),
      [([], true), ([(0, { Slot.fresh with st := .pending, count := 1 })], false)].all fun e =>
        let s := tcreated 0x2000 e.1
        (match checkCard s 0 8 0x2000 [] false with | .ok _ => true | _ => false) && (findSlot s 0 1).isNone == e.2] = true := by
  decide +kernel

/-- A card with a group to start, a saved group, a group that was asked for and can be saved. -/
def tplace (g : Option Group) (w : Warp) (c : Card) : State := { td_ true [] with
  cards := [(0, c)], groups := match g with | some g => [(0, g)] | none => [], warps := match g with | some _ => [(0, w)] | none => [] }

theorem witness_placement : allOf
    [(let s := tplace none (tw true) { probeCard with next := 0, slots := 1, handle := 1 }
      (readyWork s 0).length == 1 && (readyWork s 0).all fun a => (workCore s 0 a).isSome),
      let s := tplace (some { tg with core := none, saved := true }) { tw true with slot := none } { probeCard with handle := 1 }
      (readyWork s 0).length == 1 && (readyWork s 0).all (fun a => (workCore s 0 a).isSome) && s.groups.all fun e => !preAsked s e.1,
      (readyWork State.reset 0).isEmpty,
      let s := { tplace (some tg) { tw true with preReq := true, slot := none } probeCard with cards := [] }
      preAsked s 0 && groupSavable s (0, tg) && tg.core == some 0 && (onCore s 0 0).any (fun e => e.1 == 0) && groupKey 0 == 0 && tg.chip == chipOf (partOf 0)] = true := by decide +kernel

/-- Group 0 on core 0 of a card of a low level while a card of a higher level has no core: pre-emption asks for core 0. -/
def tpre (prio : Nat) : State :=
  let one : BitVec 192 := 1
  { tplace (some tg) { tw true with slot := none } { probeCard with handle := 1 } with
    chips := [(0, { tc with enabled := one })]
    groups := [(0, { tg with gsize := 98304 * 4 })]
    cards := [(0, { probeCard with handle := 1, shape := { probeCard.shape with gmem := 98304 * 4 } }),
      (2 ^ 32, { probeCard with handle := 1, next := 0, slots := 1, prio := prio, shape := { probeCard.shape with gmem := 98304 * 4 } })] }

theorem witness_preemption : allOf
    [spatialCores (tpre 5) 0 == some ([0], .prio 5, none), waitCores (tpre 0) (2 ^ 32) == [0], (waitCores (tpre 5) 0).isEmpty,
      (tpre 5).warps.all fun e => isLive e.2 && (kfind (tpre 5).groups (groupKey e.1)).any fun g => g.core == some 0] = true := by decide +kernel

/-! ## What the statements suppose: links, reliability, save points, the host -/

/-- Flits that come in sequence, early, late and spoilt, to the chip itself and to be relayed; the other end of a port; a peer
that a detour reaches; a port that 16 replays take down; a wire that has to wait for the buffer. -/
theorem witness_links : allOf
    [(let s := two_ (tw true)
      otherEnd s 0 3 == some (1, 3) && otherEnd s 1 3 == some (0, 3) && directUp s 0 1 && !detours s 0 1 && reaches s 0 1 &&
        (getPort (getChip s 0) 3).rxSeq == 0 && (getPort (getChip s 0) 3).buffer.isEmpty && (getChip s 0).index.toNat == 0),
      (otherEnd (two_ (tw true)) 0 4).isNone && otherEnd (two_ (tw true)) 0 4 != some (1, 3),
      let y : Peer := { rv := true, relay := 1, port := 4 }
      let s := two_ (tw true)
      let z : KMap Port := [(3, { Port.reset with up := true }), (5, { Port.reset with up := true })]
      let s := setChip s 0 { getChip s 0 with isize := 2, peers := [(1, { y with rv := false, port := 3 }), (2, y)] }
      let s := setChip s 1 { getChip s 1 with isize := 2, ports := z, peers := [(0, { y with rv := false, port := 3 }), (2, { y with rv := false, port := 5 })] }
      let four (x : Port) : State := setChip s 0 { getChip s 0 with ports := sput Port.reset (getChip s 0).ports 4 x }
      [{ Port.reset with timedOut := true }, { Port.reset with trained := true }].all (fun x =>
        detours (four x) 0 2 && reaches (four x) 0 2 && !directUp (four x) 0 2 && !unreachable (four x) 0 2) &&
        !detours s 0 2 && !unreachable s 0 2 && portTo s 0 2 == 4,
      ({ Port.reset with replays := [(5, 16)] } : Port).replays.any fun e => decide (16 ≤ e.2)] = true := by decide +kernel

theorem witness_retirement : allOf
    [(let s := { State.reset with chips := [(0, { Chip.reset with slices := [(23, { Slice.reset with retiring := true })] })] }
      (getSlice (getChip s 0) 0 23).retiring && krising none s.chips && krising none (getChip s 0).slices),
      !(getSlice (getChip State.reset 0) 7 23).retiring,
      let c := { Chip.reset with slices := [(0, { Slice.reset with ret := true })] }
      !(getSlice c 0 1).ret && successor c 0 23 == 1] = true := by decide +kernel

/-- A partition with a requested save point, a capture with a unit left and one with none, a unit that waits to drain. -/
def tsv (v : Save) : State := { State.reset with
  chips := [(0, tc)], parts := [(0, { Part.reset with ctx := some probeCtx, save := v })] }
def req0 : SpReq := { mark := 1024, bySavept := true, mbox := none, seen := [], tag := 1, live := [] }
def dealt0 : Dealt := { admPos := 0, nMail := 0, nCreated := 0, seeds := [], boxes := [], gens := [] }
def cap0 : Capture :=
  { num := 1, req := req0, full := true, left := [5], image := [], units := [], live := []
    dealt := dealt0 }

theorem witness_save_points : allOf
    [(nextReq { Save.reset with reqs := [{ req0 with mark := 2048 }, req0] } true).any fun r => r.mark == 1024,
      let s := tsv { Save.reset with reqs := [req0] }
      floorGe s (domOf s 0) 1024 && copiesStaged s (domOf s 0) 1024 && !entryBelow s (domOf s 0) 1024,
      (let s := tsv { Save.reset with reqs := [req0], cap := some cap0 }
       let u := beginCapture (setPart s 0 { getPart s 0 with seeds := [7], hist := [(1024, { dealt0 with seeds := [6] })] }) 0
       let v := (getPart u 0).save
       v.reqs.isEmpty && v.cap == some cap0 && v.queue.any (fun c => c.dealt.seeds == [6]) && (getPart u 0).hist.isEmpty),
      (5 ∈ cap0.left : Bool) && spareRoom { Save.reset with cap := some cap0 } (5 / unitsPerStack),
      ({ cap0 with left := [] } : Capture).left.isEmpty,
      [(0x1000, 65536, true), (2 ^ 63 + 1, 65536, true), (0x1000, 65535, false)].all fun e =>
        let v := { Save.reset with cap := some { cap0 with image := [(5 * 65536, 1)] }, drain := some (e.1, e.2.1), spare := [(0, .unit 5)] }
        decide (v.drainAt + 65536 ≤ e.2.1) == e.2.2 && v.points[0]?.isNone && v.spare.head?.any fun y => y.1 == 0 && y.2 == .unit 5,
      let s := tsv Save.reset
      (closedByte (setChip s 0 { getChip s 0 with regions := [(63, BitVec.ofNat 64 (3 * 2 ^ 62 + 2 ^ 36))] }) 0 0 65536) == some 0 &&
        !ctxSec s 0] = true := by decide +kernel

/-- A context descriptor at 0x4000, of the normal world and of the secure one. -/
def tdesc (sec : Bool) : State := { State.reset with
  chips := [(0, { tc with sysIf := { CmdIf.reset with args := [(0, 0xB0)] } })]
  mem := wrBytes (wrBytes (wrBytes [] 0x4000 (leBytes 8 (0x10000 + if sec then 0x20000 else 0))) 0x4008 (leBytes 8 0x100000)) 0x4030 (leBytes 8 1)
  parts := [(0, { Part.reset with cmd := { CmdIf.reset with args := [(0, 0x4000)] } })] }

theorem witness_commands : allOf
    [!(getPart (tdesc false) 0).cmd.busy && !(getChip (tdesc false) 0).sysIf.busy,
      ({ CmdIf.reset with busy := true } : CmdIf).busy,
      (getPart (ts (tw true)) 0).ctx.isSome && (readDescriptor State.reset 0 false 4).isNone && !(descRead State.reset 0 false 4).1,
      [true, false].all fun b => (readDescriptor (tdesc true) 0 b 0x4000).any fun x => x.1.sec, (readDescriptor (tdesc false) 0 false 0x4000).any fun x => !x.1.sec,
      mapOk 0xB0 && !mapOk 0xF0 && mapOk 0, inPart (tdesc false) 0 0x4000 8 && !inPart (tdesc false) 0 deviceSize 8,
      (match verifyChain (tdesc false) 0 [1] none with | .error e => e == (1, none) | _ => false),
      !(partDies (tdesc false) 0).isEmpty, !isSecure (tdesc false) 0 0x4000,
      isSecure { State.reset with chips := [(0, { Chip.reset with regions := [(63, BitVec.ofNat 64 (3 * 2 ^ 62 + 2 ^ 36))] })] } 0 0xFFFF,
      (let s := two_ (tw true)
       (getChip s 0).fxEn && decide (1 ≤ (getChip s 0).isize.toNat) && (getChip s 0).index.toNat == 0 && (chipOfIndex s 1).isSome),
      !({ Chip.reset with monitor := false } : Chip).monitor, (getPort (getChip (two_ (tw true)) 0) 3).up,
      decide (8 ≤ deviceSize ∧ 8 ≤ 2 ^ (30 + Chip.reset.barSize)) && decide (2 ^ (30 + ({ Chip.reset with barSize := 0 } : Chip).barSize) ≤ 2 ^ 30),
      krising none (tdesc false).chips] = true := by decide +kernel

/-- A partition of one die. -/
def tone (v : Save) : State := { tsv v with chips := [(0, { tc with pmap := 0x80 })] }

/-- A full save point of it, with no units. -/
def pointOf (m : KMap Byte) : SavePoint :=
  { num := 1, mark := 0, mbox := none, full := true, digest := sha256 (manifestBytes m), prev := List.replicate 32 0
    shape := shapeRecord (tone Save.reset) 0, image := [], units := [], manifest := m, dealt := dealt0 }
def tpoint (m : KMap Byte) : State := tone { Save.reset with points := [pointOf m] }

/-- SHA-256 of no bytes, the digest of an empty shard. -/
theorem test_sha256_of_nothing : sha256 [] = emptyDigest := by decide +kernel

/-- A manifest that holds the digests of the partition's two empty shards. -/
def man0 : KMap Byte := wrBytes (wrBytes [] 0x3120 emptyDigest) 0x3160 emptyDigest

theorem point_verifies (m : KMap Byte) (h : badShard (tpoint m) 0 (pointOf m) = none)
    (hs : shapeRecord (tpoint m) 0 = shapeRecord (tone Save.reset) 0) : verifyChain (tpoint m) 0 [1] none = .ok (some (pointOf m)) := by
  have hf : (getPart (tpoint m) 0).save.points.reverse.find? (fun x => x.num == 1) = some (pointOf m) := by
    simp [tpoint, getPart, tone, tsv, sget, kfind, pointOf]
  have hl : linkOk (tpoint m) 0 none (pointOf m) = true := by
    unfold linkOk
    rw [hs]
    simp [pointOf]
  simp [verifyChain, hf, hl, h]

/-- A chain that verifies, as `RESTORE` supposes, and one whose first stack's shard does not. -/
theorem witness_restore : badShard (tpoint man0) 0 (pointOf man0) = none ∧ shapeRecord (tpoint man0) 0 = shapeRecord (tone Save.reset) 0 ∧
    badShard (tpoint []) 0 (pointOf []) = some 0 := by
  decide +kernel

/-! ## One step, with results that the spec gives -/

/-- The state after an instruction. -/
def after (i : Instr) (s : State) : State :=
  match exec i s with
  | .next t => t
  | _ => State.reset

/-- The warp after an instruction; a warp of clock 999 where it stops. -/
def wafter (i : Instr) (s : State) : Warp := (getWarp (after i s) 0).getD { tw true with clock := 999 }

/-- A vector register of the lanes from 0. -/
def lanesV (w : Warp) (r : Nat) (xs : List Word) : Warp := xs.zipIdx.foldl (fun w e => wrV w r e.2 e.1) w

/-- R127: `SADD s4, s4, 16` of chapter 3's table wraps modulo 2^64, adds one pip and goes on. -/
theorem test_sadd :
    let w := wafter (.saddShort { fl := fl0, d := 4, a := 4, imm7 := 16, lit := none }) (ts (wrS (tw true) 4 (2 ^ 64 - 1)))
    rdS w 4 = 15 ∧ w.clock = 1 ∧ curPc w = 0x1004 := by decide +kernel

/-- R51: a write to `s0` is discarded. -/
theorem test_s0 : rdS (wafter (.saddShort { fl := fl0, d := 0, a := 4, imm7 := 16, lit := none }) (ts (tw true))) 0 = 0 := by decide +kernel

/-- R129: a saturating addition of bytes clamps and sets `SAT`. -/
theorem test_vadds :
    let w := wafter (.vaddsLong { lg with ty := .i8, d := 3, a := 1, b := 2 }) (ts (lanesV (lanesV (tw true) 1 [0x7F800100]) 2 [0x01FF0002]))
    rdV w 3 0 = 0x7F800102 ∧ w.fpstat = 32 := by decide +kernel

/-- Chapter 6's roundings of 1 + 2^-24 in the four modes: 1.0 and its successor, and NX. -/
theorem test_rounding_modes : ([0, 1, 2, 3] : List (BitVec 4)).map (fun m =>
      let w := wafter (.vfaddLong { lg with ty := .f32, d := 3, a := 1, b := 2, mod := m }) (ts (lanesV (lanesV (tw true) 1 [0x3F800000]) 2 [0x33800000]))
      (rdV w 3 0, w.fpstat)) =
    [(0x3F800000, 16), (0x3F800000, 16), (0x3F800001, 16), (0x3F800000, 16)] := by decide +kernel

/-- Chapter 6's `BFP4` block: 3.0, -1.25, 0.3, 5.5 and zeros give 0x60F3, exponent 0x81 in byte 2, and NX. -/
theorem test_vbfpq :
    let x : Warp := [(20, 0x40400000), (21, 0xBFA00000), (22, 0x3E99999A), (23, 0x40B00000)].foldl (fun w e => wrV w e.1 0 e.2) (tw true)
    let w := wafter (.vbfpq { lg with ty := .bfp4, d := 40, a := 20, c := 50, imm := 2 }) (ts x)
    rdV w 40 0 = 0x60F3 ∧ rdV w 41 0 = 0 ∧ rdV w 50 0 = 0x810000 ∧ w.fpstat = 16 := by decide +kernel

/-- Chapter 7's tree and serial order: 2^24, 1, 1 and -2^24 reduce to 1.0, and scan to 2^24, 2^24, 2^24 and 0. -/
theorem test_tree_and_serial_order :
    let s := ts (wrP (lanesV (tw true) 4 [0x4B800000, 0x3F800000, 0x3F800000, 0xCB800000]) 2 0xF)
    let w := wafter (.vrdc { lg with ty := .f32, d := 8, a := 4, pred := 2 }) s
    let v := wafter (.vscan { lg with ty := .f32, d := 5, a := 4, pred := 2 }) s
    rdS w 8 = 0x3F800000 ∧ w.fpstat = 16 ∧ (List.range 4).map (rdV v 5) = [0x4B800000, 0x4B800000, 0x4B800000, 0] := by decide +kernel

/-- Chapter 12's words: `LXEXP` of 1 is e, of e is e^e. -/
theorem test_lxexp : (lxExp 0x00000000).1 = 0x08000000 ∧ (lxExp 0x08000000).1 = 0x10000000 := by decide +kernel

/-- R84: a `BRC` on half of the lanes makes fragment 1, child of 0, at the target. -/
theorem test_brc_divides :
    let w := wafter (.brcShort { fl := fl0, off17 := 5, neg := false, pred := 1 }) (ts (wrP (tw true) 1 0xFF00))
    w.frags.map (fun g => (g.id, g.parent, g.lanes, g.pc)) = [(0, 0, 0xFF, 0x1004), (1, 0, 0xFF00, 0x1014)] := by decide +kernel

/-- Chapter 5's `REP 5, 1, 1` of `VADD v10, v20, v3` with allotment 24 raises the register-range fault with address 24. -/
theorem test_rep_range :
    let w := wafter (.rep { lg with imm := 0x110005 }) (trep { tw true with allot := 24 })
    w.tcause = 4 ∧ w.taddr = 24 ∧ w.tpc = 0x1000 ∧ w.sys = true ∧ curPc w = 0x1800 := by decide +kernel

/-- R97, R99, R102: `TRAP 7` retires, and its handler sees cause 9 with kind 7, the next address and the next clock. -/
theorem test_trap :
    let w := wafter (.trap { lg with imm := 7 }) (ts (tw true))
    w.tcause = 0x709 ∧ w.tpc = 0x100C ∧ w.tclock = 1 ∧ w.sys = true ∧ curPc w = 0x1800 := by decide +kernel

/-- R58: a privileged instruction of a user program is cause 2. -/
theorem test_privilege : (wafter (.migrMove { lg with d := 2, a := 4, b := 5 }) (ts (tw true))).tcause = 2 := by decide +kernel

/-- R164, chapter 8's colliding scatter: sixteen lanes store to four words; a load before any turn finds the highest lanes. -/
theorem test_colliding_scatter :
    let lane := (List.range 16).map (BitVec.ofNat 32)
    let x := at1 (lanesV (lanesV (tw true) 5 lane) 8 (lane.map fun l => l / 4)) 0x2000
    let s := after (.vsts { lg with ty := .n32, d := 5, a := 1, b := 8 }) (ts x)
    (getWarp s 0).any (fun w => (List.range 4).map (fun i => handByte w.hand (0x2000 + 4 * i)) == [some 3, some 7, some 11, some 15]) = true ∧
      s.mem = [] := by decide +kernel

/-- R193, R215: an exchange in turn mode publishes at its stamp; its old value is outstanding, and acquiring moves the clock to 1,024. -/
theorem test_exchange :
    let s := after (.atom { lg with ty := .n32, fn := 0x16, d := 2, a := 1, b := 3, c := 0, pred := 1 })
      (ts (wrP (at1 (lanesV (tw true) 3 [1]) 0x2000) 1 1))
    s.pubs.map (fun p => (p.stamp, p.body)) = [((0, 0), .bytes [(0x2000, 1), (0x2001, 0), (0x2002, 0), (0x2003, 0)])] ∧
      (getWarp s 0).any (fun w => decide (w.clock = 1024) && w.outst == [2]) = true := by decide +kernel

/-- Log 2: the bits of `VADD v5, v3, v9` placed, the next step runs it. -/
theorem test_with_fetch_word :
    (match step (State.reset.withFetchWord 32 0x120C2A00) with
      | .next s => (getWarp s 0).any fun w => decide (curPc w = 0x1004 ∧ w.clock = 1)
      | _ => false) = true := by decide +kernel

/-- R334, R344: a beacon is sent on a port that is up, and only a newer one is kept. -/
theorem test_beacons :
    let s := two_ (tw true)
    let b : Beacon := { peer := 1, seq := 1, bounds := [], abounds := [] }
    (getPort (getChip (after (.beaconSend 0) s) 0) 3).buffer.length = 1 ∧
      kfind (getChip (after (.beaconReceive 0 { b with seq := 0 }) (after (.beaconReceive 0 b) s)) 0).beacons 1 = some b := by decide +kernel

/-! ## What the statements suppose: fragments, regions and faults that no handler takes -/

/-- Two fragments that wait at registers 2 and 5, and a warp in which every fragment waits. -/
def waiting (x y : Option Nat) : Warp :=
  { tw true with frags := [{ id := 0, parent := 0, sibs := 0, lanes := 0xFF, pc := 0x1000, wait := x },
    { id := 1, parent := 0, sibs := 0, lanes := 0xFF00, pc := 0x1040, wait := y }] }

/-- Fragments that reunite, one of them the issuing one; a fragment to switch to; a release of register 2 that is lost. -/
theorem witness_fragments : allOf
    [(let x := wrJ (waiting none (some 2)) 2 { addr := 0x1080, expect := 0xFFFF, arrived := 0xFFFF }
      swf JReg.empty x.j && (x.frags.filter fun g => g.wait == some 2 || some 0 == some g.id).map (·.id) == [0, 1] &&
        (reunite x 2 (some 0)).frags.map (fun g => (g.id, g.lanes, g.pc)) == [(0, 0xFFFF, 0x1080)]),
      (let x := waiting (some 2) none
       (x.frags.filter fun g => g.wait.isNone).map (·.id) == [1] && (switchFrag x).run == 1),
      (let x := waiting (some 5) (some 2)
       x.frags.all (fun g => g.wait.isSome) && x.frags.any (fun g => g.wait == some 2) && [0, 1].all (fun m => x.frags.all fun g => g.wait != some m) &&
         (switchFrag x).jstat == 0x201)] = true := by decide +kernel

/-- A region that goes on: a vector write with every lane, one with some lanes, a scalar write; and an `MMA` that traps. -/
theorem witness_region_sets : allOf
    [[(0xFFFF, .vadd), (0xFF, .vadd), (0xFF, .sadd)].all fun (e : Nat × Op) =>
        let w := { tw true with region := some reg1, frags := [{ id := 0, parent := 0, sibs := 0, lanes := BitVec.ofNat 64 e.1, pc := 0x1000, wait := none }] }
        let f := { lg with d := 3, a := 1 }
        !closesRegion w e.2 f && !storeCloses (ts w) 0 w e.2 f && !w.sys && (writeIds e.2 f).all (fun x => !(readIds e.2 f).contains x) &&
          (regionStep w e.2 f).any fun r => r.writes.isEmpty == (e.1 == 0xFF && e.2 == .vadd),
      (let w := { at1 (tw true) 0x2002 with region := some reg1 }
       meets (.mma (ex .mma)) (ts w) fun o f s v => match bodyOf o f 12 s 0 v with
         | .trap s2 _ _ _ => v.turn && (getWarp s2 0).any fun x => x.region == some (keepResumes (mmaRegion v f) v)
         | _ => false)] = true := by decide +kernel

/-- A prefix by register that is a park point. -/
def parkedRep : Long := { lg with fl := { fl0 with pk := true }, fn := 1, a := 4, imm := 0x110000 }

/-- What fails before an instruction's own effect, for a user program, with or without a handler, in each mode. -/
def failsBefore (w : Warp) (s : State) : Bool :=
  (faulting s 0).any fun x => x.2.turn == w.turn && x.2.sys == w.sys && x.2.tvec == w.tvec

/-- Privilege, register range, an outstanding register, and the range of a repeat that parks; within a repeat as well. -/
theorem witness_failed_checks_everywhere : allOf (
    [tw true, tw false, { tw true with tvec := 0 }, { tw false with tvec := 0 },
      { tw true with rep := some { count := 3, imm := 0x110003, clock := 5, len := 16 }, repidx := 1 }].map fun v =>
      Op.legal .migrMove (ex .migrMove) && privileged .migrMove (ex .migrMove) && failsBefore v (ts v) &&
      (let w := { v with allot := 8 }
       Op.legal .vadd { lg with d := 3, a := 8 } && rangeFault w .vadd { lg with d := 3, a := 8 } == some 8 && failsBefore w (ts w)) &&
      (let w := addPend v { regs := writeIds .vadd { lg with d := 2 }, writes := [.v 2 0 5], fp := 0, lx := 0, remote := none, queue := none }
       (rangeFault w .vadd { lg with d := 3, a := 2 }).isNone && (hazard w .vadd { lg with d := 3, a := 2 }).isSome &&
         !parks .vadd { lg with d := 3, a := 2 } && failsBefore w (ts w)) &&
      (v.rep.isSome ||
        let w := { wrS v 4 5 with allot := 24 }
        match settle (trep w) 0 with
        | .ok s0 => parks .repReg parkedRep && Op.legal .repReg parkedRep && failsBefore w s0 && (getWarp s0 0).any fun w0 =>
            match repFetch s0 0 w0 with
            | .ok j _ => repLegal w0 parkedRep j && j.core.any fun x => strideFault w0 parkedRep.imm (repCount w0 .repReg parkedRep) x.1 x.2.1 == some 24
            | _ => false
        | _ => false)) = true := by decide +kernel

/-- What an instruction's own effect raises with no handler: a page fault of a load, a misaligned store, a join of a register in
use, and a register count; at user and at system privilege. -/
theorem witness_unhandled_effects : allOf (
    [true, false].flatMap fun t => [true, false].flatMap fun y =>
      let w (a : Dword) : Warp := at1 { tw t with tvec := 0, sys := y } a
      let bad (i : Instr) (w : Warp) (c : Nat) : Bool := meets i (ts w) fun o f s v => match bodyOf o f 12 s 0 v with
        | .trap s2 cause _ _ => cause == c && (faulting s2 0).any fun x => x.2.sys == y && x.2.turn == t && x.2.tvec == 0
        | _ => false
      [bad (.vldLong (ex .vld)) (w 0x3000) 5, bad (.sstLong { lg with d := 3, a := 1 }) (w 0x2001) 7] ++
        (if y then [] else [bad (.joinLong { lg with a := 2 }) (w 0) 6, bad (.give { lg with imm := 16 }) { w 0 with allot := 8 } 4])) = true := by
  decide +kernel

/-- `TRAP` and `BPT` with no handler retire first, at each privilege and in each mode. -/
theorem witness_unhandled_traps : allOf (
    [true, false].flatMap fun t => [true, false].flatMap fun y => [Instr.trap { lg with imm := 255 }, .bpt lg].map fun i =>
      meets i (ts { tw t with tvec := 0, sys := y }) fun o f s w =>
        match faulting s 0 with
        | some (s2, _) => (getWarp (retire s2 0 (weightOf w o f) 12 f.fl.en .next none id) 0).any fun x =>
            x.stat == .ready && x.sys == y && x.tvec == 0 && x.turn == t
        | none => false) = true := by decide +kernel

/-- A page fault of an unconfirmed load is found at a park point, with no handler. -/
theorem witness_deferred_fault_unhandled :
    (let w := { tw true with tvec := 0, unconf := [uc (some (0, 0x3000))] }
     parks .repReg parkedRep && match settle (ts w) 0 with
      | .fault s2 u => u.fault == some (0, 0x3000) && (getWarp (updWarp s2 0 fun x => { x with repidx := u.idx }) 0).any fun x => x.tvec == 0 && !x.sys
      | _ => false) = true := by decide +kernel

/-! ## What the statements suppose: caches, moves, barriers, tickets and save areas -/

/-- A range within one translation, and a destination index that no chip of the island has. -/
theorem witness_range_and_absent_chip : allOf
    [(let s := tstep (tw true) []
      decide (0x2010 ≤ xlatEnd s site0 0x2000) && (findXlat s site0 0x2000).isSome && (rangeKeys s site0 (rangePieces s site0 0x2010 0x10 0x2000)).length == 1),
      (let s := tm 0x20000000005000 0 0x20E3
       migrMeets (.migrMove (ex .migrMove)) (setChip s 0 { getChip s 0 with isize := 3 }) fun s f w t =>
         let x := (rdS w f.b.toNat).toNat
         leafMode t.leaf == 0 && !pageMoved s 0x2000 && movePlace s x t && x / 2 ^ 52 % 16 != myIndex s 0 && (domChip s 0 (x / 2 ^ 52 % 16)).isNone)] = true := by
  decide +kernel

/-- A second warp of the group waits on barrier 0 in phase 0; the first's arrival completes it. -/
theorem witness_barrier_wakes :
    (let v : Warp := { tw true with ident := 1, entry := 1, slot := none, stat := .parked (.bar 0 0 0 false) 12 false }
     let s := { ts (tw true) with warps := [(0, tw true), (1, v)], groups := [(0, setBar tg 0 { phase := 0, count := 1, expect := 2, arrived := [1] })] }
     meets (.barArr { lg with d := 3, imm := 0x200 }) s fun _ f s w => krising none s.warps &&
       let arrived := updGroup (setWarp s 0 w) 0 fun g => setBar g (f.imm.toNat % 16) { phase := 0, count := 2, expect := 2, arrived := [1, 0] }
       barComplete arrived 0 0 && (getWarp (barStep arrived 0 (w.clock, identOf 0) 0) 1).any fun x => x.stat != v.stat) = true := by decide +kernel

/-- A full table holds another base of the word. -/
theorem witness_full_table_of_a_registered_word :
    homes (.tktWait { lg with d := 3, a := 1, b := 2 }) (tick none 4 (at1 (wrS (tw true) 2 5) 0x2000)) .store false (fun s _ _ _ xs =>
      xs.length == 1 && (getCard s 0).any fun c => c.tickets.length == 4 && c.tickets.any (fun t => t.key == 0x2000) && c.tickets.all fun t => t.base != 5) = true := by
  decide +kernel

/-- A warp's state with the context's pool at an address, and a secure region over the first 64 KiB of memory or none. -/
def tpool (pool : Nat) (closed : Bool) : State := { ts (tw true) with
  chips := [(0, { tc with regions := if closed then [(63, BitVec.ofNat 64 (3 * 2 ^ 62 + 2 ^ 36))] else [] })]
  parts := [(0, { Part.reset with ctx := some { probeCtx with pool := pool } })] }

/-- No region, no byte is closed. -/
theorem open_without_regions (pool pa n : Nat) : closedByte (tpool pool false) 0 pa n = none := by
  have h : (getChip (tpool pool false) (chipOf 0)).regions = [] := rfl
  unfold closedByte
  split
  · rfl
  · simp [isSecure, h]

/-- A secure first byte is the one that is found. -/
theorem first_closed (pool n : Nat) : closedByte (tpool pool true) 0 0xF000 (n + 1) = some 0xF000 := by
  have h : isSecure (tpool pool true) (chipOf 0) 0xF000 = true := rfl
  have c : ctxSec (tpool pool true) 0 = false := rfl
  unfold closedByte
  rw [if_neg (by simp [c]), List.range_succ_eq_map]
  simp [h]

/-- The pool of a context lies where its partition reaches, and where it does not; a secure region closes it. -/
theorem witness_slot_writes : allOf
    [(let n := slotBytes probeCard.shape
      mayReach (tpool 0xF000 false) 0 0xF000 && mayReach (tpool 0xF000 true) 0 (0xF000 + n - 1) && decide (0 < n) && !mayReach (tpool 0 false) 0 deviceSize),
      (getCard (tpool 0 false) 0).any fun c => c.areaAt == 0 && c.shape == probeCard.shape, (tpool 0xF000 false).mem.wf] = true := by decide +kernel

/-! ## What the statements suppose: links, commands -/

/-- Both ends of a link name each other; a port of no peer. -/
theorem witness_joined :
    (otherEnd (two_ (tw true)) 0 3 = some (1, 3) ∧ otherEnd (two_ (tw true)) 1 3 = some (0, 3)) ∧ otherEnd (two_ (tw true)) 0 9 = none := by
  decide +kernel

/-- What a command reads: bytes of the partition, bytes of none, and secure ones; an invalidation that waits and one that does not. -/
theorem witness_command_reads : allOf
    [(engineRead (tdesc false) 0 false 0x4000 8).1, !(engineRead (tdesc false) 0 false deviceSize 8).1,
      (let s := { tdesc false with chips := [(0, { tc with regions := [(63, BitVec.ofNat 64 (3 * 2 ^ 62 + 2 ^ 36))] })] }
       !(engineRead s 0 false 0x4000 8).1 && (engineRead s 0 true 0x4000 8).1),
      !(descRead (tdesc false) 0 false 0x4001).1 && (descRead (tdesc false) 0 false 0x4000).1,
      (let s := two_ { tw true with pend := [pd (some (rem false none))] }
       xlatInUse s 0 (invalHit 2 0 0) && !xlatInUse s 1 (invalHit 2 0 0))] = true := by decide +kernel

/-- A free-mode load of this chip that nothing goes before; an instruction that waits for a copy; a copy whose region has no entry; a
code page whose home is unreachable; a leaf with no legal place at its level; a page with a byte that is not moved; a group that quit. -/
theorem witness_homes_copies_and_fetches : allOf
    [meets (.vldLong { lg with d := 3, a := 1 }) (ts (at1 (tw false) 0x2000)) fun o f s w =>
        !inWindow w o f && passing s w o f (some .load) true fun xs =>
          let keys := (xs.filter fun x => x.x.isSome && !farAccess s 0 x).map accKey
          !keys.isEmpty && !linesWait (serveCore s 0 keys) 0 keys && keys.all fun a => !keyHeld (serveCore s 0 keys) 0 a,
      (let y := { Buf.free with state := 1, copy := some { stamp := (0, 0), gw := [], mw := [], aw := [], flags := 0, ceil := false, floor := false, fill := true } }
       meets (.bfrel { lg with a := 1 }) (tbuf 1 y (tw true)) fun _ _ s w => (getGroup s 0).any (copyWaits w)),
      (let s := ts (tw true)
       let c := { tcmd with src := { td 0 with group := false } }
       match placeOf s (tabsOf s 0 (tw true)) c.src (descSpans c.src (loopStep c * 1) (fullBox c.src.ext)) with
       | .error _ => true
       | .ok _ => false),
      (let s := { tstep (tw true) [] with chips := [(0, { tc with
          fxEn := true, isize := 1, peers := [(1, { rv := false, relay := 0, port := 3 })], ports := [(3, { Port.reset with timedOut := true })]
          dieTlb := [(0, [{ ctx := 0, base := 0x1000, size := 0x1000, entry := 0x202008, leaf := 0x2200000000001043 }])] }),
          (1, { Chip.reset with fxEn := true, isize := 1, index := 1, pmap := 0xB0 })] }
       match fetchWord s site0 (codeMark (tw true)) false 0x1000 with
       | .error (.refused a _ kind) => a == 0x1000 && kind == 2
       | _ => false),
      (let t : Tlb := { ctx := 0, base := 0, size := 0x200000, entry := 0x202010, leaf := 0x43 }
       leafOk 0x1043 && !leafFits t 0x1043 && leafFits t 0x43),
      (let m := movePage [(0x2000, 7), (0x2001, 8)] 0x2000 0x5000 0x1000 fun j => j == 1
       rdByte m 0x5000 == 7 && rdByte m 0x5001 == 0),
      ({ probeCard with quit := [3] } : Card).quit.contains 3] = true := by decide +kernel

end Sys2Proof.Tests
end

section
/-! PROOF. O60: what a destroyed context leaves of its partition (R371, R373), and why the statement needs canonical partitions. -/

namespace Sys2Proof.Machine

/-! ## What a partition reset leaves (R373) -/

/-- A partition reset ends with a write of a partition without a context, over a state with the same partitions: what stops the
partition's groups changes chips alone. -/
theorem resetPart_eq_setPart (s : State) (p : Nat) : ∃ t x, t.parts = s.parts ∧ x.ctx = none ∧ resetPart s p = setPart t p x := by
  refine ⟨_, _, ?parts, ?ctx, rfl⟩
  case ctx => rfl
  case parts =>
    refine List.foldlRecOn (motive := fun (u : State) => u.parts = s.parts) _ _ rfl fun u hu e _ => ?_
    dsimp only
    split
    · exact hu
    · exact hu

/-- Where the partitions are canonical, none keeps its context through its reset. -/
theorem ctx_resetPart (s : State) (p : Nat) (h : swf Part.reset s.parts = true) : (getPart (resetPart s p) p).ctx = none := by
  obtain ⟨t, x, ht, hx, hr⟩ := resetPart_eq_setPart s p
  rw [hr, getPart_setPart t p x (ht ▸ h), hx]

/-! ## A partition that is listed twice -/

/-- A context whose descriptor holds nothing but the record length that R280 asks for. -/
def strayCtx : Ctx :=
  { sec := false, turn := false, num := 0, root := 0, rtab := 0, rcount := 0, tvec := 0, admrec := 0, admlen := 1, pool := 0, poollen := 0
    repro := 0, msibase := 0 }

/-- The machine after reset, but with partition 0 listed twice: at its reset value, which is what it reads as, and behind that with
a context. -/
def listedTwice : State := { State.reset with parts := [(0, Part.reset), (0, { Part.reset with ctx := some strayCtx })] }

/-- The reset value unlists the first entry only, so partition 0 then reads as the second. -/
theorem ctx_resetPart_listedTwice : (getPart (resetPart listedTwice 0) 0).ctx = some strayCtx := rfl

/-- Refutes O60: its clause on `.destroyContext` says of every state that the partition has no context afterwards, and it fails in
`listedTwice`, whose partition 0 reads as idle and without a context before the command and as the one with `strayCtx` after it. The
statement supposes canonical chips for a device reset, but nothing of the partitions; where these are canonical, the clause is
`ctx_resetPart`. -/
theorem not_hostCommandsAndRegisters : ¬ Obligations.HostCommandsAndRegisters := by
  intro h
  obtain ⟨-, -, idle, -⟩ := h listedTwice 0 0 (by decide)
  obtain ⟨-, -, -, -, -, ⟨-, destroyed, -⟩, -⟩ := idle rfl
  exact Option.some_ne_none strayCtx (ctx_resetPart_listedTwice.symm.trans destroyed)

end Sys2Proof.Machine
end

section
/-! PROOF. O30: prefetch, cache control and the invalidation of translations (R168 to R170). -/

namespace Sys2Proof.Machine

/-! ## An instruction that waits in place (R73) -/

/-- States whose warps read alike and that agree in everything else are alike for what a run leaves. -/
theorem UpToRun.of_alike {s t u : State} {k : Nat} (h : UpToRun t u k) (hw : ∀ j, getWarp t j = getWarp s j)
    (hr : { t with warps := s.warps } = s) : UpToRun s u k := by
  obtain ⟨⟨x, v, hx, hv, hrun⟩, others, rest⟩ := h
  refine ⟨⟨x, v, hx, (hw k).symm.trans hv, hrun⟩, fun j hj => (others j hj).trans (hw j), ?_⟩
  calc { u with warps := s.warps, cur := s.cur, runs := s.runs }
      = { ({ u with warps := t.warps, cur := t.cur, runs := t.runs } : State) with warps := s.warps } := by rw [← hr]
    _ = s := by rw [rest, hr]

/-- What its turn leaves of a warp at system privilege: all of it, since a handler leaves the region alone (R96, log 20). -/
theorem getWarp_atTurn {s : State} {k : Nat} {w : Warp} {o : Op} {f : Long} (h : getWarp s k = some w) (hsys : w.sys = true) (j : Nat) :
    getWarp (atTurn s k w o f) j = getWarp s j := by
  unfold atTurn
  split
  · rfl
  · have hreg : regionAt s k w o f = w.region := if_pos hsys
    rw [hreg, getWarp_setWarp]
    split
    · subst_vars; exact h.symm
    · rfl

/-- The warp while it waits in place. -/
def stalled (w : Warp) : Warp := { w with stat := .stalled }

/-- An instruction at system privilege whose own effect waits leaves its warp stalled and nothing else changed. -/
theorem stalls_law {i : Instr} {s s1 : State} {k len : Nat} {o : Op} {f : Long} {w : Warp} (h : Performs i s k o f len s1 w)
    (hb : bodyOf o f len s1 k w = .wait) (hsys : w.sys = true) : Becomes i s k (setWarp s1 k (stalled w)) := by
  obtain ⟨hi, v, s0, w0, c, hw, hs⟩ := h
  subst hs hw
  have hreg : regionAt s0 k w0 o f = w0.region := if_pos hsys
  refine ⟨waitIn (atTurn s0 k w0 o f) k .stalled, ?runs, ?leaves⟩
  case runs =>
    rw [exec_core hi, issue_clear c, perform_clear c hb]
    simp [faultRegion, finish, takesTurn]
  case leaves =>
    have hat := getWarp_atTurn (o := o) (f := f) c.warp0 hsys
    have hstall (j : Nat) : getWarp (updWarp (atTurn s0 k w0 o f) k stalled) j =
        getWarp (setWarp (setWarp s0 k (atIssue s0 k w0 o f)) k (stalled (atIssue s0 k w0 o f))) j := by
      rw [getWarp_updWarp, getWarp_setWarp, getWarp_setWarp, hat j]
      split
      · subst_vars
        rw [c.warp0, atIssue, hreg]
        rfl
      · rfl
    have hrest : { updWarp (atTurn s0 k w0 o f) k stalled with
        warps := (setWarp (setWarp s0 k (atIssue s0 k w0 o f)) k (stalled (atIssue s0 k w0 o f))).warps } =
        setWarp (setWarp s0 k (atIssue s0 k w0 o f)) k (stalled (atIssue s0 k w0 o f)) := by
      unfold atTurn; split <;> rfl
    have hk := (hstall k).trans (by rw [getWarp_setWarp, if_pos rfl])
    exact (endRun_upTo hk).of_alike hstall hrest

/-! ## Translations cover what they translate (R154, R157) -/

theorem pageSize_pos {level n : Nat} {cont : Bool} (h : pageSize level cont = some n) : 0 < n := by
  unfold pageSize at h
  split at h <;> cases h <;> decide

theorem leafAt_covers {s : State} {p va level key : Nat} {e : BitVec 64} {t : Tlb} (h : leafAt s p va level key e = some t) :
    va < t.base + t.size := by
  unfold leafAt at h
  split at h
  · cases h
  · rename_i n hn
    split at h
    · cases h
      have := Nat.mod_lt va (pageSize_pos hn)
      show va < va - va % n + n
      omega
    · cases h

theorem walkFrom_covers {s : State} {z : Site} {sec : Bool} {va level t : Nat} {path : List Tlb} {x : Tlb}
    (h : (walkFrom s z sec va level t path).leaf = .ok x) : va < x.base + x.size := by
  fun_induction walkFrom s z sec va level t path with
  | case3 | case5 =>
    generalize hl : leafAt s _ va _ _ _ = leaf at h
    cases leaf with
    | none => cases h
    | some y => cases h; exact leafAt_covers hl
  | case8 => rename_i ih; exact ih h
  | _ => cases h

theorem walk_covers {s : State} {z : Site} {va : Nat} {t : Tlb} (h : walk s z va = some t) : va < t.base + t.size := by
  have hw : (walkAt s z va).leaf = .ok t := by
    unfold walk at h
    cases hl : (walkAt s z va).leaf with
    | error a => rw [hl] at h; cases h
    | ok y => rw [hl] at h; cases h; rfl
  unfold walkAt at hw
  split at hw
  · cases hw
  · exact walkFrom_covers hw

theorem find_tlbHit_covers {l : List Tlb} {ctx va : Nat} {t : Tlb} (h : l.find? (fun t => tlbHit t ctx va) = some t) :
    va < t.base + t.size := by
  have hit := List.find?_some h
  simp only [tlbHit, Bool.and_eq_true, decide_eq_true_eq] at hit
  exact hit.2

theorem held_covers {s : State} {z : Site} {va : Nat} {t : Tlb} (h : held s z va = some t) : va < t.base + t.size := by
  rcases Option.or_eq_some_iff.1 h with h1 | ⟨-, h2⟩
  · obtain ⟨n, -, hn⟩ := Option.bind_eq_some_iff.1 h1
    exact find_tlbHit_covers hn
  · exact find_tlbHit_covers h2

theorem findXlat_covers {s : State} {z : Site} {va : Nat} {t : Tlb} (h : findXlat s z va = some t) : va < t.base + t.size := by
  rcases Option.or_eq_some_iff.1 h with hh | ⟨-, hw⟩
  · exact held_covers hh
  · exact walk_covers hw

/-! ## The pieces of a range (R169) -/

theorem lt_nextBase (l : List Tlb) (ctx a : Nat) : ∀ m, a < m →
    a < l.foldl (fun m t => if t.ctx = ctx ∧ a < t.base then min m t.base else m) m := by
  induction l with
  | nil => exact fun m h => h
  | cons t l ih =>
    intro m h
    refine ih _ ?_
    dsimp only
    split
    · omega
    · exact h

/-- What holds of an address ends above it, so a piece is never empty. -/
theorem lt_xlatEnd (s : State) (z : Site) (a : Nat) : a < xlatEnd s z a := by
  refine lt_nextBase _ _ _ _ ?_
  split
  · exact findXlat_covers ‹_›
  · rw [Nat.mul_comm]
    exact Nat.lt_mul_div_succ a (Nat.two_pow_pos _)

/-- A piece lies in its range. -/
theorem mem_rangePieces {s : State} {z : Site} {hi fuel lo : Nat} {x : Nat × Nat} (h : x ∈ rangePieces s z hi fuel lo) :
    lo ≤ x.1 ∧ x.1 < hi ∧ x.1 < 2 ^ 56 ∧ x.1 + x.2 ≤ hi := by
  induction fuel generalizing lo with
  | zero => cases h
  | succ fuel ih =>
    unfold rangePieces at h
    split at h
    · cases h
    · have hend := lt_xlatEnd s z lo
      rcases List.mem_cons.1 h with rfl | hx
      · dsimp only; omega
      · have := ih hx; omega

/-- A range that ends within its first piece is that piece. -/
theorem rangePieces_single {s : State} {z : Site} {hi lo : Nat} (fuel : Nat) (h : lo < hi) (hlo : lo < 2 ^ 56) (hend : hi ≤ xlatEnd s z lo) :
    rangePieces s z hi (fuel + 1) lo = [(lo, hi - lo)] := by
  have hnil : rangePieces s z hi fuel hi = [] := by
    cases fuel with
    | zero => rfl
    | succ n => exact if_pos (.inl (Nat.le_refl hi))
  rw [rangePieces, if_neg (by omega)]
  dsimp only
  rw [Nat.min_eq_left hend, hnil]

/-- A piece whose lines are dropped has a translation (R169, log 15). -/
theorem mem_rangeKeys {s : State} {z : Site} {ps : List (Nat × Nat)} {e : Nat × Nat} (h : e ∈ rangeKeys s z ps) :
    ∃ x ∈ ps, ∃ t, findXlat s z x.1 = some t ∧ e = (xlatKey s z.part t x.1, x.2) := by
  obtain ⟨x, hx, he⟩ := List.mem_filterMap.1 h
  obtain ⟨t, ht, rfl⟩ := Option.map_eq_some_iff.1 he
  exact ⟨x, hx, t, ht, rfl⟩

/-- Lines that the slices write back and drop leave warps, groups and cards alone. -/
theorem evictRange_memOnly (s : State) (k : Nat) (lo : Int) (n : Nat) : MemOnly s (evictRange s k lo n) :=
  (rangeWalks_memOnly ..).trans (sliceDrop_memOnly ..)

/-! ## Prefetch (R168) -/

theorem faultWalk_memOnly (s : State) (k : Nat) (e : MErr) : MemOnly s (faultWalk s k e) := by
  unfold faultWalk
  refine MemOnly.trans ?_ (reportSecure_memOnly ..)
  split
  · exact walkTouch_memOnly ..
  · rfl

/-- The checks of the lanes that a prefetch tries: those in global space (R168). -/
def prefetchChecks (f : Long) (s : State) (k : Nat) (w : Warp) : List (Except MErr Acc) :=
  ((memElems w .vprf f).filter fun e => spaceOf e.2 = .global).map fun e =>
    checkElem s (siteOf s k) w.sec (accKind s k w (elemSize .vprf f) (some .load) false) .global e.1 e.2

/-- What a home says to the line of a lane that a prefetch asks for. -/
def prefetchRefusal (s : State) (k : Nat) (w : Warp) (x : Acc) : Option Nat := homeRefuses s (chipOf (partOf k)) w.sec (accKey x)

/-- What one lane of a prefetch that is performed in `s` does to `t`, where the lanes before it have been: its walk reads the tables,
and a secure byte is reported (R14, R377). -/
def prefetchWalk (s : State) (k : Nat) (w : Warp) (t : State) : Except MErr Acc → State
  | .error e => faultWalk t k e
  | .ok x =>
    if l1Able x && prefetchRefusal s k w x == some 1 then
      reportAt (walkTouch t (siteOf t k) x.va) (accKey x / keyBase) (accKey x % keyBase)
    else walkTouch t (siteOf t k) x.va

theorem prefetchWalk_memOnly (s : State) (k : Nat) (w : Warp) (t : State) (r : Except MErr Acc) : MemOnly t (prefetchWalk s k w t r) := by
  cases r with
  | error e => exact faultWalk_memOnly ..
  | ok x =>
    unfold prefetchWalk
    dsimp only
    split
    · exact (walkTouch_memOnly ..).trans rfl
    · exact walkTouch_memOnly ..

/-- A prefetch leaves every warp, group and card alone. -/
theorem prefetch_memOnly (s : State) (k : Nat) (w : Warp) (hint : Nat) (away : Acc → Bool) (rs : List (Except MErr Acc))
    (xs : List (Acc × List Nat)) : MemOnly s (bringLines (rs.foldl (prefetchWalk s k w) s) k w hint away xs) :=
  (MemOnly.foldl (prefetchWalk_memOnly s k w) rs s).trans (bringLines_memOnly ..)

/-- The access of a lane that passes every check and that the L1 may hold (R171, R336, R337). -/
def prefetchLane : Except MErr Acc → Option Acc
  | .ok x => if x.x.any (fun y => y.mode == 0 || y.mode == 2) = true then some x else none
  | .error _ => none

theorem prefetchLane_eq (r : Except MErr Acc) : prefetchLane r = r.toOption.filter l1Able := by
  cases r with
  | error e => rfl
  | ok x =>
    have hable : l1Able x = x.x.any fun y => y.mode == 0 || y.mode == 2 := by
      unfold l1Able; cases x.x <;> rfl
    rw [prefetchLane, ← hable]
    rfl

theorem vprfBody_eq (f : Long) (s : State) (k : Nat) (w : Warp) : vprfBody f s k w =
    .retire (bringLines ((prefetchChecks f s k w).foldl (prefetchWalk s k w) s) k w f.mod.toNat (fun _ => false)
      ((((prefetchChecks f s k w).filterMap prefetchLane).filter fun x => (prefetchRefusal s k w x).isNone).map
        fun x => (x, lineSectors (accKey x)))) .next none id := by
  rw [funext prefetchLane_eq, ← List.filter_filterMap]
  rfl

/-! ## Invalidation of translations (R170) -/

/-- `TLBI` removes the translations that it selects once none of them is in use, and waits in place until then. -/
theorem tlbi_law {i : Instr} {s s1 : State} {k len : Nat} {o : Op} {f : Long} {w : Warp} {hit : Tlb → Bool}
    (h : Performs i s k o f len s1 w) (hb : bodyOf o f len s1 k w = tlbiBody hit s1 k) :
    (xlatInUse s1 (chipOf (partOf k)) hit = false → Retires i s k o f len (dropTlb s1 (chipOf (partOf k)) hit) w) ∧
    (w.sys = true → xlatInUse s1 (chipOf (partOf k)) hit = true → Becomes i s k (setWarp s1 k (stalled w))) :=
  ⟨fun hfree => memKeep_law h (hb.trans (if_neg (by simp [hfree]))) (dropTlb_memOnly ..),
    fun hsys huse => stalls_law h (hb.trans (if_pos huse)) hsys⟩

/-! ## The statement -/

/-- Settles O30, operation by operation: each body retires over a change of chips alone, or waits; that each piece of a range lies in
it rests on `lt_xlatEnd`, that what holds of an address ends above it. -/
theorem cacheAndTranslationControl : Obligations.CacheAndTranslationControl := by
  refine ⟨fun i s s1 k len o f w h => ⟨?vprf, ?inv, ?invall, ?evict, ?va, ?ctx, ?all⟩, ?pieces, ?single⟩
  case vprf =>
    rintro rfl
    exact memKeep_law h (vprfBody_eq f s1 k w) (prefetch_memOnly ..)
  case inv => rintro rfl; exact memKeep_law h rfl (invRange_memOnly ..)
  case invall => rintro rfl; exact memKeep_law h rfl (l1Clear_memOnly ..)
  case evict => rintro rfl; exact memKeep_law h rfl (evictRange_memOnly ..)
  case va => rintro rfl; exact tlbi_law h rfl
  case ctx => rintro rfl; exact tlbi_law h rfl
  case all => rintro rfl; exact tlbi_law h rfl
  case pieces =>
    intro s z hi fuel lo e he
    obtain ⟨x, hx, t, ht, rfl⟩ := mem_rangeKeys he
    obtain ⟨hlo, hhi, htop, hend⟩ := mem_rangePieces hx
    exact ⟨x.1, t, hlo, hhi, htop, ht, rfl, hend⟩
  case single =>
    intro s z hi fuel lo t hlt hlo hend ht
    rw [rangePieces_single fuel hlt hlo hend]
    simp [rangeKeys, ht]

end Sys2Proof.Machine
end

section
/-! PROOF. O40: a copy is checked, reads its source and completes (R231, R232, R235, R241). -/

namespace Sys2Proof.Machine

/-! ## A plain copy (R229, R231) -/

/-- The operands of a plain copy: its source and its destination, of which the one in the buffer has the entry's tracking range. -/
def plainViews (g : Group) (b : Nat) (c : Coll) : List View :=
  let boxes := c.shares.map (·.box)
  let x := getBuf g b
  let fill := c.cmd.role == 0
  [{ d := c.cmd.src, boxes := boxes, shift := 0, write := false, range := if fill then none else some (x.off, x.len) },
   { d := c.cmd.dst, boxes := boxes, shift := 0, write := true, range := if fill then some (x.off, x.len) else none }]

/-- The secure byte that a plain copy touches, if any. -/
def plainSecure (s : State) (k b : Nat) (w : Warp) (c : Coll) (g : Group) : Option Nat :=
  (plainViews g b c).findSome? (secureByte s (tabsOf s k w))

/-- The code of the first check after COMMAND that a plain copy fails, or 0. -/
def plainError (s : State) (k b : Nat) (w : Warp) (c : Coll) (g : Group) : Nat :=
  let x := getBuf g b
  laterChecks s (tabsOf s k w) g [b] [(x.off, x.len)] (c.shares.map (·.box)) (plainViews g b c) (plainSecure s k b w c g)

/-- What a plain copy that passes its checks holds until it completes: the bytes that it has read, for their destination. -/
def plainCopy (s : State) (k : Nat) (w : Warp) (c : Coll) (g : Group) : Copy :=
  let boxes := c.shares.map (·.box)
  let place (d : Desc) : Place := placeAt s (tabsOf s k w) d (boxes.flatMap (descSpans d 0))
  let writes := plainWrites g (plainBase s k w) (chipOf (partOf k)) c.cmd (place c.cmd.src) 0 0 boxes
  { stamp := (w.clock, identOf k), gw := gwOf (place c.cmd.dst) writes, mw := mwOf (chipOf (partOf k)) (place c.cmd.dst) writes
    aw := [], flags := 0, ceil := false, floor := false, fill := c.cmd.role == 0 }

theorem trackIf_not (c : Bool) (r : Nat × Nat) : trackIf (!c) r = if c then none else some r := by cases c <;> rfl

/-- A plain copy fails check COMMAND or a later one, or it has read its source and waits for its completion. -/
theorem startCopy_plain {s : State} {k : Nat} {g : Group} (hg : getGroup s k = some g) (w : Warp) (b : Nat) (c : Coll) :
    startCopy s k w b c .slice =
      if plainCommand c.cmd c.shares = false then failBuf s k b 3
      else if plainError s k b w c g = 0 then updBuf (copyTouch s (tabsOf s k w) (plainViews g b c)) k b fun x =>
        { x with coll := none, copy := some (plainCopy s k w c g) }
      else failBuf (reportCopy s (partOf k) (plainSecure s k b w c g) (plainError s k b w c g)) k b (plainError s k b w c g) := by
  unfold startCopy
  simp only [hg, trackIf_not]
  cases plainCommand c.cmd c.shares with
  | false => rfl
  | true =>
    change (match plainError s k b w c g with | 0 => _ | e => _) = _
    cases plainError s k b w c g <;> rfl

/-- An iteration whose source no longer passes check REGION fails with its code (R235). -/
theorem startIter_failsRegion {s : State} {k first i : Nat} {w : Warp} {cmd : CopyCmd} {g : Group} {a : Option Nat}
    (hg : getGroup s k = some g)
    (h : placeOf s (tabsOf s k w) cmd.src (descSpans cmd.src (loopStep cmd * i) (fullBox cmd.src.ext)) = .error a) :
    startIter s k w cmd first i = failBuf (reportCopy s (partOf k) a 1) k (first + i % cmd.stages) 1 := by
  unfold startIter
  simp only [hg, h]

/-! ## Completion (R232, R241) -/

theorem cardStopped_eq_any (s : State) (k : Nat) : cardStopped s k = (getCard s k).any fun c => c.stop.isSome := by
  unfold cardStopped; cases getCard s k <;> rfl

theorem mem_of_kfind {α : Type} {m : KMap α} {j : Nat} {x : α} (h : kfind m j = some x) : (j, x) ∈ m := by
  induction m with
  | nil => cases h
  | cons e m ih =>
    rw [kfind] at h
    split at h
    · subst_vars; cases h; exact List.mem_cons_self
    · exact List.mem_cons_of_mem _ (ih h)

/-- A group of a card whose copies are discarded has none left. -/
theorem copy_dropCopies {s : State} {ck gk : Nat} {x : Group} (hk : cardKey gk = ck)
    (h : kfind (dropCopies s ck).groups gk = some x) : ∀ e ∈ x.bufs, e.2.copy = none := by
  obtain ⟨e, -, he⟩ := List.mem_map.1 (mem_of_kfind h)
  split at he
  · cases he
    intro y hy
    obtain ⟨b, -, rfl⟩ := List.mem_map.1 hy
    rfl
  · rename_i hne
    rw [he] at hne
    exact absurd hk hne

/-- Group memory, the accumulator store and the buffer entry once the copy of the entry has completed (R232). -/
def completed (s : State) (gk b : Nat) (g : Group) (c : Copy) : State :=
  let y : Buf := { getBuf g b with copy := none, flags := c.flags, ceil := c.ceil, floor := c.floor }
  setGroup s gk (setBuf { g with
    gmem := c.gw.foldl (fun m e => sput 0 m e.1 e.2) g.gmem
    acc := c.aw.foldl (fun m e => sput 0 m e.1 e.2) g.acc } b
    (if c.fill then { y with state := 2 } else { y with state := 0, loop := none, iter := 0 }))

/-- A copy that has read completes, or is discarded with the other copies of its card where that has stopped (R232, R241). -/
theorem completeCopy_eq {s : State} {gk b : Nat} {g : Group} {c : Copy} (hg : kfind s.groups gk = some g)
    (hc : (getBuf g b).copy = some c) : completeCopy s gk b =
      if (getCard s gk).any (fun x => x.stop.isSome) = true then dropCopies s (cardKey gk)
      else if (getPart s (partOf gk)).ctx.any (·.turn) = true then
        pubBytes (completed s gk b g c) (domOf s (partOf gk)) c.stamp 3 c.stamp.1 c.mw
      else c.mw.foldl (fun s e => freeWrite s gk e.1 [e.2]) (completed s gk b g c) := by
  unfold completeCopy completed
  simp only [hg, hc, cardStopped_eq_any]
  split
  · rfl
  · cases (getPart s (partOf gk)).ctx <;> cases c.fill <;> rfl

/-- Settles O40: what a start comes to (`startCopy_plain`, `startIter_failsRegion`) and what a completion does (`completeCopy_eq`). -/
theorem copiesCheckReadAndComplete : Obligations.CopiesCheckReadAndComplete := by
  refine ⟨fun s k b w c g hg => ?starts, fun s k first i w cmd g a hg h => ?iterates, fun s gk b g c hg hc => ?completes⟩
  case starts =>
    refine ⟨fun h => ?_, fun h he => ?_, fun h he => ?_⟩
    · exact (startCopy_plain hg w b c).trans (if_pos h)
    · exact (startCopy_plain hg w b c).trans ((if_neg (by simp [h])).trans (if_neg he))
    · exact (startCopy_plain hg w b c).trans ((if_neg (by simp [h])).trans (if_pos he))
  case iterates => exact startIter_failsRegion hg h
  case completes =>
    have hend := completeCopy_eq hg hc
    refine ⟨fun hstop => ⟨dropCopies s (cardKey gk), ?_, rfl, fun x => copy_dropCopies rfl⟩, fun hrun => ?_⟩
    · rw [if_pos hstop] at hend
      exact congrArg Host.Outcome.next hend
    · rw [if_neg (by simp [hrun])] at hend
      cases hturn : (getPart s (partOf gk)).ctx.any (·.turn) with
      | true => exact .inl ⟨rfl, congrArg Host.Outcome.next (hend.trans (if_pos hturn))⟩
      | false => exact .inr ⟨rfl, congrArg Host.Outcome.next (hend.trans (if_neg (by simp [hturn])))⟩

end Sys2Proof.Machine
end

section
/-! PROOF. O59: save points are captured, written and drained (R353 to R360). -/

namespace Sys2Proof.Machine

/-! ## The next request (R353, R364) -/

/-- The request of lower mark, the one held so far where the marks agree. -/
def lowerReq (a : Option SpReq) (r : SpReq) : Option SpReq :=
  match a with
  | none => some r
  | some x => if r.mark < x.mark then some r else a

theorem lowerReq_some (a : Option SpReq) (r : SpReq) :
    ∃ z, lowerReq a r = some z ∧ (z = r ∨ a = some z) ∧ z.mark ≤ r.mark ∧ ∀ x, a = some x → z.mark ≤ x.mark := by
  cases a with
  | none => exact ⟨r, rfl, .inl rfl, Nat.le_refl _, by simp⟩
  | some x =>
    by_cases h : r.mark < x.mark
    · exact ⟨r, if_pos h, .inl rfl, Nat.le_refl _, by rintro _ ⟨⟩; omega⟩
    · exact ⟨x, if_neg h, .inr rfl, by omega, by rintro _ ⟨⟩; omega⟩

/-- What is held after some requests is one of them or what was held before, and none of these has a lower mark. -/
theorem foldl_lowerReq (l : List SpReq) {a : Option SpReq} {r : SpReq} (h : l.foldl lowerReq a = some r) :
    (r ∈ l ∨ a = some r) ∧ (∀ y ∈ l, r.mark ≤ y.mark) ∧ ∀ x, a = some x → r.mark ≤ x.mark := by
  induction l generalizing a with
  | nil => subst h; exact ⟨.inr rfl, by simp, by simp⟩
  | cons y l ih =>
    obtain ⟨z, hz, hfrom, hzy, hzx⟩ := lowerReq_some a y
    rw [List.foldl_cons, hz] at h
    obtain ⟨hr, hl, hrz⟩ := ih h
    have hle := hrz z rfl
    refine ⟨?_, List.forall_mem_cons.2 ⟨hle.trans hzy, hl⟩, fun x hx => hle.trans (hzx x hx)⟩
    rcases hr with hr | ⟨⟨⟩⟩
    · exact .inl (List.mem_cons_of_mem _ hr)
    · exact hfrom.imp_left fun hy => by rw [hy]; exact List.mem_cons_self

/-- In turn mode the next request is one that stands, of the lowest mark. -/
theorem nextReq_turn {sv : Save} {r : SpReq} (h : nextReq sv true = some r) : r ∈ sv.reqs ∧ ∀ y ∈ sv.reqs, r.mark ≤ y.mark := by
  obtain ⟨hr, hl, -⟩ := foldl_lowerReq sv.reqs (a := none) h
  exact ⟨hr.resolve_right (by simp), hl⟩

/-! ## Capture (R355, R357) -/

/-- What stood before the first change at or above a mark, else what stands now. -/
def firstFrom {α : Type} (mark : Nat) (l : List (Nat × α)) (now : α) : α :=
  match l.find? fun e => decide (mark ≤ e.1) with
  | some e => e.2
  | none => now

theorem before_eq_firstFrom {α : Type} (mark : Nat) (l : List (Nat × α)) (now : α) : before l mark now = firstFrom mark l now := by
  unfold before firstFrom; cases l.find? fun e => decide (mark ≤ e.1) <;> rfl

/-- The dealer's state as of a mark (log 26). -/
def dealtFrom (s : State) (p mark : Nat) : Dealt :=
  let q := firstFrom mark (getPart s p).hist (dealtNow s p)
  { q with boxes := q.boxes.zipIdx.map fun b =>
    let m := getMbox s p b.2
    (b.1.1, b.1.2.1, firstFrom mark m.ends m.clock, firstFrom mark m.folds m.hash) }

theorem dealtAt_eq (s : State) (p mark : Nat) : dealtAt s p mark = dealtFrom s p mark := by
  unfold dealtAt hashAt dealtFrom
  simp only [before_eq_firstFrom]

/-- The image against which the next capture lists its units. -/
def latestImage (sv : Save) : Memory :=
  match (sv.cap.toList ++ sv.queue).getLast? with
  | some y => y.image
  | none => sv.prevImage

theorem lastImage_eq (sv : Save) : lastImage sv = latestImage sv := by
  unfold lastImage latestImage; cases (sv.cap.toList ++ sv.queue).getLast? <;> rfl

/-- The cards live at the mark of a request, ended and forgotten ones among them (R357). -/
def cardsAt (s : State) (p : Nat) (turn : Bool) (r : SpReq) : List Nat :=
  if turn then
    ((s.cards.filter fun e => partOf e.1 == p && decide (e.2.origin < r.mark) && !(e.2.endTurn && decide (e.2.mark ≤ r.mark))).map
      fun e => cardWord e.1) ++
      ((getPart s p).save.past.filter fun e => decide (e.1 < r.mark ∧ r.mark < e.2.1)).map fun e => e.2.2
  else r.live

theorem liveCards_eq (s : State) (p : Nat) (turn : Bool) (r : SpReq) : liveCards s p turn r = cardsAt s p turn r := by
  unfold liveCards cardsAt liveAt
  simp only [if_true, Bool.and_assoc, Bool.decide_and]

/-- The capture that begins for a request. -/
def captureFor (s : State) (p : Nat) (x : Ctx) (r : SpReq) : Capture :=
  let sv := (getPart s p).save
  let img := partMem s p (if x.turn then image s (domOf s p) (r.mark, 0) else r.seen)
  { num := sv.next, req := r, full := sv.full, left := if sv.full then allUnits s p else diffUnits img (latestImage sv)
    image := img, units := [], live := cardsAt s p x.turn r
    dealt := match r.dealt with | some y => y | none => dealtFrom s p r.mark }

/-- The partition once the capture `c` of its next request has begun. -/
def withCapture (pt : Part) (r : SpReq) (c : Capture) : Part :=
  let sv := pt.save
  let rest := sv.reqs.filter fun y => y.tag != r.tag
  { pt with
    hist := if rest = [] then [] else pt.hist
    save := { sv with
      next := sv.next + 1, full := false, reqs := rest, past := if rest = [] then [] else sv.past
      cap := match sv.cap with | some y => some y | none => some c
      queue := match sv.cap with | some _ => sv.queue ++ [c] | none => sv.queue } }

/-- The capture of the next request begins at once in free mode, and in turn mode once the floor has reached its mark, the copies below
it are staged and no fence mark below it is open; until then nothing changes (R353, R355). -/
theorem beginCapture_eq {s : State} {p : Nat} {x : Ctx} {r : SpReq} (hx : (getPart s p).ctx = some x)
    (hr : nextReq (getPart s p).save x.turn = some r) : beginCapture s p =
      if x.turn = false ∨ floorGe s (domOf s p) r.mark = true ∧ copiesStaged s (domOf s p) r.mark = true ∧
        entryBelow s (domOf s p) r.mark = false then
        setPart s p (withCapture (getPart s p) r (captureFor s p x r))
      else s := by
  have hwait : (x.turn && !(floorGe s (domOf s p) r.mark && copiesStaged s (domOf s p) r.mark && !entryBelow s (domOf s p) r.mark)) = true ↔
      ¬(x.turn = false ∨ floorGe s (domOf s p) r.mark = true ∧ copiesStaged s (domOf s p) r.mark = true ∧
        entryBelow s (domOf s p) r.mark = false) := by
    simp [imp_iff_not_or, or_assoc]
  unfold beginCapture
  simp only [hx, hr, hwait, ite_not]
  split
  · simp only [withCapture, captureFor, lastImage_eq, liveCards_eq, dealtAt_eq, List.isEmpty_iff, hx]
    cases (getPart s p).save.cap <;> cases r.dealt <;> rfl
  · rfl

/-! ## Units and the manifest (R355 to R357, R377) -/

theorem copyUnit_listed {s : State} {p u : Nat} {c : Capture} (hc : (getPart s p).save.cap = some c) (hu : u ∈ c.left)
    (hroom : spareRoom (getPart s p).save (u / unitsPerStack) = true) :
    copyUnit s p u =
      let pt := getPart s p
      let left := c.left.filter fun v => v != u
      let taken := setPart s p { pt with save := { pt.save with
        cap := some { c with left := left, units := c.units ++ [u] }, spare := pt.save.spare ++ [(pt.save.points.length, .unit u)] } }
      clearDirty (reportUnit taken p u) p u left := by
  unfold copyUnit
  simp [hc, hu, hroom]

theorem reportUnit_open {s : State} {p u : Nat}
    (h : ctxSec s p = true ∨ (getChip s (chipOf p)).regions = [] ∨ closedByte s p (u * 65536) 65536 = none) : reportUnit s p u = s := by
  unfold reportUnit unitSize
  split
  · rfl
  · rename_i hclosed
    rw [(h.resolve_left (by simp_all)).resolve_left (by simp_all)]

/-- The first secure byte of a unit that is copied for a non-secure context is reported (R377). -/
theorem reportUnit_closed {s : State} {p u a : Nat} (hsec : ctxSec s p = false) (hr : (getChip s (chipOf p)).regions ≠ [])
    (ha : closedByte s p (u * 65536) 65536 = some a) : reportUnit s p u = reportAt s (chipOf p) a := by
  unfold reportUnit unitSize
  rw [ha, if_neg (by simp [hsec, hr])]

theorem insertNat_ne_nil (n : Nat) (l : List Nat) : insertNat n l ≠ [] := by
  cases l with
  | nil => simp [insertNat]
  | cons m r => unfold insertNat; split <;> simp

theorem sortNat_eq_nil {l : List Nat} : sortNat l = [] ↔ l = [] := by
  cases l with
  | nil => simp [sortNat]
  | cons n l => simp [sortNat, insertNat_ne_nil]

/-- A stack has an offset list when some unit of it was copied. -/
theorem stackUnits_isEmpty (units : List Nat) (k : Nat) : (!(stackUnits units k).isEmpty) = units.any fun u => u / unitsPerStack == k := by
  rw [Bool.eq_iff_iff]
  simp [stackUnits, sortNat_eq_nil, List.filter_eq_nil_iff]

/-- The manifest of a capture whose units are all copied (R357). -/
def capturedManifest (s : State) (p : Nat) (x : Ctx) (c : Capture) : Memory := manifestMap (manifestParts s p x.turn (getPart s p).save c)

/-- The save point that it completes. -/
def capturedPoint (s : State) (p : Nat) (x : Ctx) (c : Capture) : SavePoint :=
  { num := c.num, mark := c.req.mark, mbox := c.req.mbox, full := c.full, digest := sha256 (manifestBytes (capturedManifest s p x c))
    prev := if c.full then List.replicate 32 0 else (getPart s p).save.prevDigest, shape := shapeRecord s p, image := c.image
    units := c.units, manifest := capturedManifest s p x c, dealt := c.dealt }

/-- Once every unit is copied, the offset lists and the manifest follow, and the save point is complete (R356, R357). -/
theorem writeManifest_eq {s : State} {p : Nat} {x : Ctx} {c : Capture} (hx : (getPart s p).ctx = some x)
    (hc : (getPart s p).save.cap = some c) (hleft : c.left = []) :
    writeManifest s p =
      let pt := getPart s p
      let sv := pt.save
      setPart s p { pt with save := { sv with
        cap := sv.queue.head?, queue := sv.queue.drop 1, prevImage := c.image
        prevDigest := sha256 (manifestBytes (capturedManifest s p x c)), points := sv.points ++ [capturedPoint s p x c]
        spare := sv.spare ++ (((stacksOf s p).filter fun k => c.units.any fun u => u / unitsPerStack == k).map fun k =>
          (sv.points.length, Piece.offsets k)) ++ [(sv.points.length, .manifest)] } } := by
  unfold writeManifest
  simp only [hx, hc, hleft, stackUnits_isEmpty, capturedPoint, capturedManifest, List.isEmpty_nil, Bool.not_true, Bool.false_eq_true, if_false]

/-! ## The pieces of the spare regions (R355, R356) -/

theorem pieceBytes_unit {sv : Save} {n : Nat} {y : SavePoint} (h : sv.points[n]? = some y) (u : Nat) :
    pieceBytes sv n (.unit u) = unitBytes y.image u := by
  unfold pieceBytes; rw [h]

theorem pieceBytes_unit_captured {sv : Save} {n : Nat} {c : Capture} (h : sv.points[n]? = none) (hc : sv.cap = some c) (u : Nat) :
    pieceBytes sv n (.unit u) = unitBytes c.image u := by
  unfold pieceBytes; rw [h, hc]

theorem pieceBytes_offsets {sv : Save} {n : Nat} {y : SavePoint} (h : sv.points[n]? = some y) (k : Nat) :
    pieceBytes sv n (.offsets k) = (stackUnits y.units k).flatMap fun u => leBytes 8 ((u - k * unitsPerStack) * unitSize) := by
  unfold pieceBytes; rw [h]

theorem pieceBytes_manifest {sv : Save} {n : Nat} {y : SavePoint} (h : sv.points[n]? = some y) :
    pieceBytes sv n .manifest = manifestBytes y.manifest := by
  unfold pieceBytes; rw [h]

/-- A new context keeps the units of an unfinished capture, in the place that its save point would have had (R353, log 91). -/
theorem pieceBytes_nextSave {sv : Save} {n : Nat} {c : Capture} (hn : n ≤ sv.points.length) (hc : sv.cap = some c) (u : Nat) :
    pieceBytes (nextSave sv) n (.unit u) = unitBytes ((sv.points[n]?.map SavePoint.image).getD c.image) u := by
  have hpoints : (nextSave sv).points = sv.points ++ [unfinished c] := by
    unfold nextSave; rw [hc]; rfl
  rcases Nat.lt_or_eq_of_le hn with hlt | rfl
  · have hy : (nextSave sv).points[n]? = some sv.points[n] := by
      rw [hpoints, List.getElem?_append_left hlt, List.getElem?_eq_getElem hlt]
    rw [pieceBytes_unit hy, List.getElem?_eq_getElem hlt]
    rfl
  · have hy : (nextSave sv).points[sv.points.length]? = some (unfinished c) := by rw [hpoints, List.getElem?_concat_length]
    rw [pieceBytes_unit hy, List.getElem?_eq_none (Nat.le_refl _)]
    rfl

/-! ## Draining (R355) -/

section
variable {s : State} {p target bytes n : Nat} {piece : Piece} {rest : List (Nat × Piece)}
  (hd : (getPart s p).save.drain = some (target, bytes)) (hs : (getPart s p).save.spare = (n, piece) :: rest)
include hd hs

theorem drainUnit_full (h : bytes < (getPart s p).save.drainAt + (pieceBytes (getPart s p).save n piece).length) : drainUnit s p = s := by
  unfold drainUnit
  simp only [hd, hs]
  exact if_pos h

theorem drainUnit_host (h : (getPart s p).save.drainAt + (pieceBytes (getPart s p).save n piece).length ≤ bytes) (ht : target < 2 ^ 63) :
    drainUnit s p =
      let pt := getPart s p
      let sv := pt.save
      let b := pieceBytes sv n piece
      { setPart s p { pt with save := { sv with spare := rest, drainAt := sv.drainAt + b.length } } with
        hostMem := wrBytes s.hostMem (target + sv.drainAt) b } := by
  conv_lhs => unfold drainUnit; simp only [hd, hs]
  rw [if_neg (by omega), if_neg (by omega)]
  rfl

theorem drainUnit_peer (h : (getPart s p).save.drainAt + (pieceBytes (getPart s p).save n piece).length ≤ bytes) (ht : 2 ^ 63 ≤ target) :
    drainUnit s p =
      let b := pieceBytes (getPart s p).save n piece
      let u := sendFlits s (chipOf p) (target - 2 ^ 63) b.length fun i => .data ((b.drop (240 * i)).take 240)
      setPart u p { getPart u p with
        save := { (getPart u p).save with spare := rest, drainAt := (getPart u p).save.drainAt + b.length } } := by
  unfold drainUnit
  simp only [hd, hs]
  rw [if_neg (by omega), if_pos ht]

end

/-! ## The statement -/

/-- Settles O59, event by event: the capture (`beginCapture_eq`), a unit, the manifest, and the draining of the oldest piece. -/
theorem savePointsAreTaken : Obligations.SavePointsAreTaken := by
  intro s p x hx
  refine ⟨fun r hr => ?capture, fun r => nextReq_turn, rfl, fun c u hc hu hroom => ?unit,
    fun u => ⟨reportUnit_open, fun a => reportUnit_closed⟩, fun c hc hleft => ?manifest, fun n y u k hy => ⟨pieceBytes_unit hy u, pieceBytes_manifest hy, pieceBytes_offsets hy k⟩,
    fun n c u hy hc => pieceBytes_unit_captured hy hc u, fun m => rfl, ⟨rfl, fun n c u hn hc => pieceBytes_nextSave hn hc u⟩,
    fun target bytes n piece rest hd hs => ⟨fun h => ?full, fun h ht => ?host, fun h ht => ?peer⟩⟩
  case capture => exact congrArg Host.Outcome.next (beginCapture_eq hx hr)
  case unit => exact congrArg Host.Outcome.next (copyUnit_listed hc hu hroom)
  case manifest => exact congrArg Host.Outcome.next (writeManifest_eq hx hc hleft)
  case full => exact congrArg Host.Outcome.next (drainUnit_full hd hs h)
  case host => exact congrArg Host.Outcome.next (drainUnit_host hd hs h ht)
  case peer => exact congrArg Host.Outcome.next (drainUnit_peer hd hs h ht)

end Sys2Proof.Machine
end

section
/-! PROOF. O48: the state that device reset leaves (R373). -/

namespace Sys2Proof.Machine

/-- A bucket that no slice's retirement has moved names slice b mod 24 (R175, R176). -/
theorem bucketSlice_of_noBuckets {ch : Chip} (h : ch.buckets = []) (die b : Nat) : bucketSlice ch die b = b % 24 := by
  unfold bucketSlice; rw [h]; rfl

/-- Where no region is set, no byte is secure (R377). -/
theorem isSecure_of_noRegions {s : State} {c : Nat} (h : (getChip s c).regions = []) (pa : Nat) : isSecure s c pa = false := by
  unfold isSecure; rw [h]; rfl

/-- Without a context a write to a mailbox window is discarded (R367, R373). -/
theorem windowWrite_of_noCtx {s : State} {p : Nat} (h : (getPart s p).ctx = none) (b off : Nat) (l : List Byte) :
    windowWrite s p b off l = s := by
  unfold windowWrite; simp [h]

/-- Settles O48: `State.reset` lists nothing, so every chip and partition reads as its reset value. -/
theorem resetLeavesTheStatedState : Obligations.ResetLeavesTheStatedState := by
  refine ⟨rfl, fun _ => rfl, rfl, rfl, rfl, rfl, rfl, rfl, fun p => ?parts, fun c => ?chips, fun p b off l => ?window⟩
  case parts => exact ⟨rfl, rfl, rfl, rfl⟩
  case chips =>
    refine ⟨rfl, rfl, rfl, rfl, rfl, rfl, rfl, rfl, fun _ => rfl, fun _ => rfl, fun _ => ⟨rfl, rfl⟩, ?buckets, ?secure,
      fun _ => ⟨rfl, rfl, rfl, rfl⟩⟩
    case buckets => exact fun die b _ => bucketSlice_of_noBuckets rfl die b
    case secure => exact isSecure_of_noRegions rfl
  case window => exact congrArg Host.Outcome.next (windowWrite_of_noCtx rfl b off l)

end Sys2Proof.Machine
end

section
/-! PROOF. O50: how a group and its warps start (R32, R33). -/

namespace Sys2Proof.Machine

/-! ## Records entered under consecutive keys -/

section
variable {α : Type} (base : Nat) (f : α × Nat → Warp)

/-- Warps entered at or above a key leave the warps below it alone. -/
theorem getWarp_enterWarps_below (l : List α) (n : Nat) (s : State) {k : Nat} (h : k < base + n) :
    getWarp ((l.zipIdx n).foldl (fun s e => setWarp s (base + e.2) (f e)) s) k = getWarp s k := by
  induction l generalizing n s with
  | nil => rfl
  | cons a l ih =>
    rw [List.zipIdx_cons, List.foldl_cons, ih (n + 1) _ (by omega), getWarp_setWarp, if_neg (by simp; omega)]

/-- The item at a place of a list is entered under the key of its place. -/
theorem getWarp_enterWarps {l : List α} {i : Nat} {a : α} (n : Nat) (s : State) (h : l[i]? = some a) :
    getWarp ((l.zipIdx n).foldl (fun s e => setWarp s (base + e.2) (f e)) s) (base + (n + i)) = some (f (a, n + i)) := by
  induction l generalizing n s i with
  | nil => cases h
  | cons b l ih =>
    rw [List.zipIdx_cons, List.foldl_cons]
    cases i with
    | zero =>
      cases h
      exact (getWarp_enterWarps_below base f l (n + 1) _ (by omega)).trans ((getWarp_setWarp ..).trans (if_pos rfl))
    | succ i =>
      rw [show n + (i + 1) = n + 1 + i by omega]
      exact ih (n + 1) _ h

theorem enterWarps_groups (l : List α) (n : Nat) (s : State) :
    ((l.zipIdx n).foldl (fun s e => setWarp s (base + e.2) (f e)) s).groups = s.groups := by
  induction l generalizing n s with
  | nil => rfl
  | cons a l ih => exact ih (n + 1) _

end

/-! ## A group's start -/

theorem markRunning_warps (s : State) (p : Nat) (h : Dword) : (markRunning s p h).warps = s.warps := by
  unfold markRunning
  split
  · split <;> rfl
  · rfl

theorem markRunning_groups (s : State) (p : Nat) (h : Dword) : (markRunning s p h).groups = s.groups := by
  unfold markRunning
  split
  · split <;> rfl
  · rfl

/-- What a warp of a card is told of its group's place in a batch (R26, R32). -/
def groupArg (c : Card) : Dword := if c.batch then c.arg + BitVec.ofNat 64 (c.next * c.stride) else c.arg

/-- Each warp of the plan starts under its number in the group. -/
theorem getWarp_startGroup (s : State) (ck n i stage allot : Nat) (c : Card) (x : Ctx) (h : (warpPlan c.shape)[i]? = some (stage, allot)) :
    ∃ entry, getWarp (startGroup s ck c x n) (ck + c.next * 2 ^ 8 + i) =
      some (newWarp c x (identOf (ck + c.next * 2 ^ 8 + i)) stage allot (groupArg c) entry) := by
  refine ⟨(freeEntries s (chipOf (partOf ck)) n).getD i 0, ?_⟩
  unfold getWarp startGroup
  dsimp only
  rw [markRunning_warps]
  have hw (u : State) := getWarp_enterWarps (ck + c.next * 2 ^ 8)
    (fun e => newWarp c x (identOf (ck + c.next * 2 ^ 8 + e.2)) e.1.1 e.1.2 (groupArg c)
      ((freeEntries s (chipOf (partOf ck)) n).getD e.2 0)) 0 u h
  simp only [Nat.zero_add] at hw
  exact hw _

/-- The record of the group itself. -/
theorem kfind_groups_startGroup (s : State) (ck n : Nat) (c : Card) (x : Ctx) :
    ∃ g, kfind (startGroup s ck c x n).groups (ck + c.next * 2 ^ 8) = some g ∧ g.core = some n ∧ g.gsize = c.shape.gmem ∧
      g.gmem = [] ∧ g.bufs = [] ∧ g.bars = [] := by
  unfold startGroup
  dsimp only
  rw [markRunning_groups]
  refine ⟨_, (congrArg (kfind · _) (enterWarps_groups ..)).trans ((kfind_kinsert ..).trans (if_pos rfl)), rfl, rfl, rfl, rfl, rfl⟩

/-- A warp starts with one fragment at the card's entry, which runs (R32). -/
theorem curPc_newWarp (c : Card) (x : Ctx) (ident stage allot : Nat) (arg : Dword) (entry : Nat) :
    curPc (newWarp c x ident stage allot arg entry) = c.entry := rfl

/-- Of its scalar registers only `s1` is set. -/
theorem rdS_newWarp (c : Card) (x : Ctx) (ident stage allot : Nat) (arg : Dword) (entry r : Nat) :
    rdS (newWarp c x ident stage allot arg entry) r = if r = 1 then arg else 0 := by
  have hs : sget 0 (sput 0 [] 1 arg) r = if r = 1 then arg else 0 := sget_sput 1 r arg (swf_nil 0)
  by_cases h0 : r = 0
  · subst h0; rfl
  · exact (if_neg h0).trans hs

theorem wf_newWarp (c : Card) (x : Ctx) (ident stage allot : Nat) (arg : Dword) (entry : Nat) :
    (newWarp c x ident stage allot arg entry).wf = true := by
  have hs : swf 0 (newWarp c x ident stage allot arg entry).s = true := swf_sput 1 arg (swf_nil 0)
  unfold Warp.wf
  rw [hs]
  rfl

/-- Settles O50: the group's record lists nothing (`kfind_groups_startGroup`), and each warp of its plan is a `newWarp`
(`getWarp_startGroup`). -/
theorem groupsStartAsTheRulesSay : Obligations.GroupsStartAsTheRulesSay := by
  intro s ck n i stage allot c x hplan
  constructor
  · obtain ⟨g, hg, hcore, hsize, hmem, hbufs, hbars⟩ := kfind_groups_startGroup s ck n c x
    refine ⟨g, hg, hcore, hsize, fun a => ?_, fun b => ?_, fun b => ?_⟩
    · rw [hmem]; rfl
    · rw [getBuf, hbufs]; rfl
    · rw [getBar, hbars]; rfl
  · obtain ⟨entry, hw⟩ := getWarp_startGroup s ck n i stage allot c x hplan
    refine ⟨_, hw, wf_newWarp .., rfl, rfl, rfl, curPc_newWarp .., fun _ _ => rfl, (rdS_newWarp ..).trans (if_pos rfl),
      fun r hr => (rdS_newWarp ..).trans (if_neg hr), fun _ => rfl, rfl, fun r hr => if_neg hr, fun _ => rfl, rfl, rfl, rfl, rfl, rfl,
      rfl, rfl, rfl, rfl, rfl, rfl, rfl⟩

end Sys2Proof.Machine
end

section
/-! PROOF. O46: what a step runs (R31, R41, R43, R59, R60, R72, R73, R92), and that nothing stops it. -/

namespace Sys2Proof.Machine

/-! ## What a fetch gives -/

/-- A fetch that gives no word faults, or its home refuses it (R41, R43, R346). -/
def FetchFails (r : Fetched) : Prop := (∃ a e, r = .fault a e) ∨ ∃ a key kind, r = .refused a key kind

theorem fetchWord_error {s : State} {z : Site} {m : Option Nat} {sec : Bool} {a : Dword} {r : Fetched}
    (h : fetchWord s z m sec a = .error r) : FetchFails r := by
  unfold fetchWord at h
  split at h
  · cases h; exact .inl ⟨_, _, rfl⟩
  · split at h
    · cases h; exact .inl ⟨_, _, rfl⟩
    · split at h
      · cases h; exact .inl ⟨_, _, rfl⟩
      · split at h <;> cases h
        exact .inr ⟨_, _, _, rfl⟩

theorem fetchWords_error {s : State} {z : Site} {m : Option Nat} {sec : Bool} {n : Nat} {a : Dword} {r : Fetched}
    (h : fetchWords s z m sec n a = .error r) : FetchFails r := by
  induction n generalizing a with
  | zero => cases h
  | succ n ih =>
    unfold fetchWords at h
    split at h
    · cases h; exact fetchWord_error ‹_›
    · split at h <;> cases h
      exact ih ‹_›

section
variable {s : State} {z : Site} {m : Option Nat} {sec : Bool} {a : Dword}

theorem fetchAt_noWord {r : Fetched} (h : fetchWord s z m sec a = .error r) : fetchAt s z m sec a = r := by
  unfold fetchAt; rw [h]

variable {x : Word} (hx : fetchWord s z m sec a = .ok x)
include hx

theorem fetchAt_noWords {r : Fetched} (h : fetchWords s z m sec (wordCount x) a = .error r) : fetchAt s z m sec a = r := by
  unfold fetchAt; simp only [hx, h]

variable {ws : List Word} (hws : fetchWords s z m sec (wordCount x) a = .ok ws)
include hws

theorem fetchAt_illegal {e : DecodeError} (h : decode ws = .error e) : fetchAt s z m sec a = .illegal := by
  unfold fetchAt; simp only [hx, hws, h]

theorem fetchAt_ok {i : Instr} {r : List Word} (h : decode ws = .ok (i, r)) : fetchAt s z m sec a = .ok i (4 * wordCount x) := by
  unfold fetchAt; simp only [hx, hws, h]

end

/-- Bringing an instruction's lines into the cache changes chips and memory alone (R155). -/
theorem fillLine_memOnly (s : State) (z : Site) (m : Option Nat) (a : Nat) : MemOnly s (fillLine s z m a) := by
  unfold fillLine
  split
  · dsimp only
    split
    · exact install_memOnly ..
    · exact (install_memOnly ..).trans ((sliceTouch_memOnly ..).trans (setChip_memOnly ..))
  · rfl

theorem fillFrom_memOnly (s : State) (z : Site) (m : Option Nat) (a : Dword) (len : Nat) : MemOnly s (fillFrom s z m a len) := by
  unfold fillFrom
  dsimp only
  split
  · exact fillLine_memOnly ..
  · exact (fillLine_memOnly ..).trans (fillLine_memOnly ..)

/-! ## What the warp that holds the issue does -/

theorem fetchPc_eq (w : Warp) : fetchPc w = if w.rep.isSome then curPc w + 12 else curPc w := by
  unfold fetchPc; cases w.rep <;> rfl

theorem runWarp_notReady {s : State} {k : Nat} {w : Warp} (h : w.stat ≠ .ready) : runWarp s k w = .next (endRun s k) := by
  unfold runWarp
  split
  · exact absurd ‹_› h
  · rfl

section
variable {s : State} {k : Nat} {w : Warp} (hw : w.stat = .ready)
include hw

/-- What a failed fetch comes to: the page fault of R41, or the end of the card (R346, R377). -/
theorem runWarp_fetchFails {r : Fetched} (hr : FetchFails r) (h : fetchAt s (siteOf s k) (codeMark w) w.sec (fetchPc w) = r) :
    (∃ b e, r = .fault b e ∧ runWarp s k w =
      .next (trapAt (reportSecure (walkTouch s (siteOf s k) b.toNat) (partOf k) { kind := 0, secure := e }) k 5 0 b)) ∨
    ∃ b key kind, r = .refused b key kind ∧ runWarp s k w = .next (fetchRefusal s k w b key kind) := by
  obtain ⟨b, e, rfl⟩ | ⟨b, key, kind, rfl⟩ := hr
  · exact .inl ⟨b, e, rfl, by unfold runWarp; simp only [hw, h]⟩
  · exact .inr ⟨b, key, kind, rfl, by unfold runWarp; simp only [hw, h]⟩

theorem runWarp_illegal (h : fetchAt s (siteOf s k) (codeMark w) w.sec (fetchPc w) = .illegal) :
    runWarp s k w = .next (trapAt s k 1 0 (curPc w)) := by
  unfold runWarp; simp only [hw, h]

variable {i : Instr} {len : Nat} (h : fetchAt s (siteOf s k) (codeMark w) w.sec (fetchPc w) = .ok i len)
include h

theorem runWarp_single (hrep : w.rep = none) :
    runWarp s k w =
      if repWaits w i then .next (endRun (fillFrom s (siteOf s k) (codeMark w) (fetchPc w) len) k)
      else exec i (fillFrom s (siteOf s k) (codeMark w) (fetchPc w) len) := by
  unfold runWarp; simp only [hw, h, hrep]

theorem runWarp_repeated {q : Rep} {o : Op} {f : Long} {n : Nat} (hrep : w.rep = some q) (hi : i.core = some (o, f, n)) :
    runWarp s k w = exec (o.long (stepTarget q.imm f w.repidx)) (fillFrom s (siteOf s k) (codeMark w) (fetchPc w) len) := by
  unfold runWarp; simp only [hw, h, hrep, hi, repInstr]

/-- Within a repeat, words that are no machine instruction are illegal. -/
theorem runWarp_repeated_event {q : Rep} (hrep : w.rep = some q) (hi : i.core = none) :
    runWarp s k w = .next (trapAt (fillFrom s (siteOf s k) (codeMark w) (fetchPc w) len) k 1 0 (curPc w)) := by
  unfold runWarp; simp only [hw, h, hrep, hi]

end

/-! ## What a step does -/

theorem step_agenda {s : State} {i : Instr} {rest : List Instr} (h : s.agenda = i :: rest) : step s = exec i { s with agenda := rest } := by
  unfold step nextStep; rw [h]

theorem step_idle {s : State} (ha : s.agenda = []) (hc : s.cur = none) (hr : s.runs = []) : step s = .next (idleStep s) := by
  unfold step nextStep; simp only [ha, hc, hr, List.head?_nil, Option.or_none]

/-- The warp that a step lets go on: the one that holds the issue, else the first of those that hold a slot (R72; log 1). -/
def Issuer (s : State) (k : Nat) : Prop := s.cur = some k ∨ (s.cur = none ∧ ∃ r, s.runs = k :: r)

theorem Issuer.or_head {s : State} {k : Nat} (h : Issuer s k) : s.cur.or s.runs.head? = some k := by
  obtain hc | ⟨hc, r, hr⟩ := h
  · rw [hc]; rfl
  · rw [hc, hr]; rfl

theorem step_issuer {s : State} {k : Nat} {w : Warp} (ha : s.agenda = []) (hk : Issuer s k) (hw : getWarp s k = some w) :
    step s = runWarp { s with cur := some k } k w := by
  unfold step nextStep; simp only [ha, hk.or_head, hw]

/-- A slot whose warp is gone is freed. -/
theorem step_issuer_gone {s : State} {k : Nat} (ha : s.agenda = []) (hk : Issuer s k) (hw : getWarp s k = none) :
    step s = .next { s with cur := none, runs := s.runs.filter fun j => j != k } := by
  unfold step nextStep; simp only [ha, hk.or_head, hw, freeSlot, reduceCtorEq, if_false]

/-! ## Nothing stops the machine -/

/-- Every event answers a next state. -/
theorem exec_event {i : Instr} (h : i.core = none) (s : State) : ∃ t, exec i s = .next t := by
  cases i <;> first | (cases h; done) | exact ⟨_, rfl⟩

/-- A machine instruction that a warp issues answers a next state. -/
theorem exec_issued {i : Instr} (h : i.core.isSome = true) {s : State} {k : Nat} {w : Warp} (hc : s.cur = some k)
    (hw : getWarp s k = some w) : ∃ t, exec i s = .next t := by
  obtain ⟨⟨o, f, len⟩, hi⟩ := Option.isSome_iff_exists.1 h
  exact ⟨issueAt o f len (bodyOf o f len) s k w, by rw [exec_core hi]; unfold issue; simp only [hc, hw]⟩

/-- A machine instruction that no warp issues is the one stop. -/
theorem exec_unissued {i : Instr} (h : i.core.isSome = true) {s : State} (hc : ∀ k, s.cur = some k → getWarp s k = none) :
    exec i s = .fault .noIssuer := by
  obtain ⟨⟨o, f, len⟩, hi⟩ := Option.isSome_iff_exists.1 h
  rw [exec_core hi]
  unfold issue
  cases hk : s.cur with
  | none => rfl
  | some k => simp only [hc k hk]

/-- Whatever a warp that holds the issue executes answers a next state. -/
theorem exec_next {s : State} {k : Nat} {w : Warp} (hc : s.cur = some k) (hw : getWarp s k = some w) (i : Instr) :
    ∃ t, exec i s = .next t := by
  cases hi : i.core with
  | none => exact exec_event hi s
  | some x => exact exec_issued (hi ▸ rfl) hc hw

theorem runWarp_next {s : State} {k : Nat} {w : Warp} (hc : s.cur = some k) (hw : getWarp s k = some w) : ∃ t, runWarp s k w = .next t := by
  by_cases hst : w.stat = .ready
  · have filled (len : Nat) := fillFrom_memOnly s (siteOf s k) (codeMark w) (fetchPc w) len
    have goesOn (len : Nat) (i : Instr) := exec_next ((filled len).cur.trans hc) (((filled len).getWarp k).trans hw) i
    cases hf : fetchAt s (siteOf s k) (codeMark w) w.sec (fetchPc w) with
    | fault b e =>
      obtain ⟨_, _, -, h⟩ | ⟨_, _, _, -, h⟩ := runWarp_fetchFails hst (.inl ⟨b, e, rfl⟩) hf
      · exact ⟨_, h⟩
      · exact ⟨_, h⟩
    | refused b key kind =>
      obtain ⟨_, _, -, h⟩ | ⟨_, _, _, -, h⟩ := runWarp_fetchFails hst (.inr ⟨b, key, kind, rfl⟩) hf
      · exact ⟨_, h⟩
      · exact ⟨_, h⟩
    | illegal => exact ⟨_, runWarp_illegal hst hf⟩
    | ok i len =>
      cases hrep : w.rep with
      | none =>
        rw [runWarp_single hst hf hrep]
        split
        · exact ⟨_, rfl⟩
        · exact goesOn len i
      | some q =>
        cases hi : i.core with
        | none => exact ⟨_, runWarp_repeated_event hst hf hrep hi⟩
        | some x => rw [runWarp_repeated hst hf hrep hi]; exact goesOn len _
  · exact ⟨_, runWarp_notReady hst⟩

/-- While only events are pending, a step answers a next state. -/
theorem step_next {s : State} (h : ∀ e ∈ s.agenda, e.core = none) : ∃ t, step s = .next t := by
  cases ha : s.agenda with
  | cons i rest => rw [step_agenda ha]; exact exec_event (h i (ha ▸ List.mem_cons_self)) _
  | nil =>
    have issuer (k : Nat) (hk : Issuer s k) : ∃ t, step s = .next t := by
      cases hw : getWarp s k with
      | none => exact ⟨_, step_issuer_gone ha hk hw⟩
      | some w => rw [step_issuer ha hk hw]; exact runWarp_next rfl hw
    cases hc : s.cur with
    | some k => exact issuer k (.inl hc)
    | none =>
      cases hr : s.runs with
      | nil => exact ⟨_, step_idle ha hc hr⟩
      | cons k r => exact issuer k (.inr ⟨hc, r, hr⟩)

/-! ## The statement -/

/-- Settles O46: a step is `runWarp` of the warp that goes on, taken case by case of what its fetch gives; that no step stops is
`step_next`. -/
theorem stepRunsTheDecodedInstruction : Obligations.StepRunsTheDecodedInstruction := by
  refine ⟨fun s => ⟨fun i rest => step_agenda, step_idle, fun k ha (hk : Issuer s k) => ⟨step_issuer_gone ha hk, fun w hw => ?runs⟩⟩,
    fun i s => ⟨fun h => exec_event h s, fun h k w => exec_issued h, fun h => exec_unissued h, step_next⟩⟩
  case runs =>
    rw [step_issuer ha hk hw, ← fetchPc_eq]
    intro u z m a fails
    have failing (r : Fetched) (hst : w.stat = .ready) (hr : FetchFails r) (hf : fetchAt u z m w.sec a = r) : fails r :=
      runWarp_fetchFails hst hr hf
    refine ⟨runWarp_notReady, fun hst r hx => failing r hst (fetchWord_error hx) (fetchAt_noWord hx),
      fun x hst hx => ⟨fun r hws => failing r hst (fetchWords_error hws) (fetchAt_noWords hx hws), fun ws hws =>
        ⟨fun e he => runWarp_illegal hst (fetchAt_illegal hx hws he), fun i r hi => ⟨?single, ?repeated⟩⟩⟩⟩
    case single => exact runWarp_single hst (fetchAt_ok hx hws hi)
    case repeated => exact fun q o f n => runWarp_repeated hst (fetchAt_ok hx hws hi)

end Sys2Proof.Machine
end

section
/-! PROOF. O41: what the creating acts enter, count and send (R304 to R313, R321 to R326). -/

namespace Sys2Proof.Machine

/-- The destination of a creating act: its own chip, the chip that it names, or its first handle. -/
def createDest (o : Op) (f : Long) : Dest :=
  if o = .spawn then .here else if o = .invoke then .chip (f.imm.toNat % 16) else .handle

/-- The creating acts share one body. -/
theorem bodyOf_creating {o : Op} (ho : o = .spawn ∨ o = .invoke ∨ o = .invokeh) (f : Long) (len : Nat) (s : State) (k : Nat) (w : Warp) :
    bodyOf o f len s k w = createBody o f (createDest o f) s k w := by
  obtain rfl | rfl | rfl := ho <;> rfl

/-- Only `INVOKEH` sends its card to a handle (R321). -/
theorem createDest_handle {o : Op} (ho : o = .spawn ∨ o = .invoke ∨ o = .invokeh) (f : Long) : createDest o f = .handle ↔ o = .invokeh := by
  obtain rfl | rfl | rfl := ho <;> simp [createDest]

/-- A handle that a creating act returns is outstanding, and takes no entry of a result queue (R74). -/
theorem handleResult_creating {o : Op} (ho : o = .spawn ∨ o = .invoke ∨ o = .invokeh) (f : Long) (s : State) (k : Nat) (ws : List RegW) :
    handleResult o f s k ws = updWarp s k fun v =>
      addPend v { regs := writeIds o f, writes := ws, fp := 0, lx := 0, remote := none, queue := none } := by
  obtain rfl | rfl | rfl := ho <;> rfl

/-- Settles O41: with its reads made, its handles live and a slot found, the body of a creating act retires with its handle outstanding. -/
theorem creatingActsTakeASlotAndSendACard : Obligations.CreatingActsTakeASlotAndSendACard := by
  intro i s s1 k len o f w h ho p dom t dest mask s2 s3 vals c n hread hcard handles serial hmark hheld hfull hserial hpick
    key gen hd s4 s5 s6 result v hv hst hrun
  have hbody : bodyOf o f len s1 k w = .retire (updWarp s6 k result) .next none id := by
    have hmask : rdS w f.c.toNat ||| (if createDest o f = .handle then 1 else 0) = mask := by simp only [createDest_handle ho, mask]
    have hslot : (if destFull s3 p (createDest o f) handles || serialUsed s3 dom serial then none else pickSlot s3 p serial w.turn t) = some n := by
      refine (if_neg ?_).trans hpick
      rw [hserial, show destFull s3 p (createDest o f) handles = false from hfull]
      exact Bool.false_ne_true
    have hvia : (if createDest o f = .handle then handles.head? else none) = if o = .invokeh then handles.head? else none := by
      simp only [createDest_handle ho]
    rw [bodyOf_creating ho]
    unfold createBody
    extract_lets t' mask'
    rw [show mask' = mask from hmask]
    simp -zeta only [markIdx, hread, hcard]
    extract_lets
    simp -zeta only [hmark, if_neg (Nat.not_le.2 hheld), show t' = t from rfl, hslot, hvia]
    exact congrArg (Act.retire · .next none id) (handleResult_creating ho ..)
  exact retiresAt_run h hbody (by rw [getWarp_updWarp, if_pos rfl, hv]; rfl) hst hrun

end Sys2Proof.Machine
end

section
/-! PROOF. What ends leave alone: warps that are not parked, publications, the warp that holds the issue (R34, R191, R198, R306, R317,
R318). -/

namespace Sys2Proof.Machine

/-! ## States with the same warps -/

/-- `t` has the warps of `s`, and the same warp holds the issue. -/
def SameWarps (s t : State) : Prop := t.warps = s.warps ∧ t.cur = s.cur

theorem SameWarps.refl (s : State) : SameWarps s s := ⟨rfl, rfl⟩

theorem SameWarps.trans {s t u : State} (h : SameWarps s t) (g : SameWarps t u) : SameWarps s u :=
  ⟨g.1.trans h.1, g.2.trans h.2⟩

theorem SameWarps.foldl {α : Type} {g : State → α → State} (hg : ∀ s x, SameWarps s (g s x)) (l : List α) (s : State) :
    SameWarps s (l.foldl g s) := by
  induction l generalizing s with
  | nil => exact .refl s
  | cons x l ih => exact (hg s x).trans (ih _)

theorem MemOnly.sameWarps {s t : State} (h : MemOnly s t) : SameWarps s t := ⟨h.warps, h.cur⟩

theorem updCard_sameWarps (s : State) (k : Nat) (f : Card → Card) : SameWarps s (updCard s k f) := ⟨rfl, rfl⟩

theorem putSlot_sameWarps (s : State) (key : Nat) (x : Slot) : SameWarps s (putSlot s key x) := ⟨rfl, rfl⟩

theorem setMbox_memOnly (s : State) (p b : Nat) (m : Mbox) : MemOnly s (setMbox s p b m) := rfl

theorem noteDealt_memOnly (s : State) (p clk : Nat) : MemOnly s (noteDealt s p clk) := by
  unfold noteDealt
  dsimp only
  split <;> rfl

theorem setClock_memOnly (s : State) (p b t x : Nat) : MemOnly s (setClock s p b t x) := rfl

theorem boxClock_memOnly (s : State) (ck t : Nat) : MemOnly s (boxClock s ck t) := by
  unfold boxClock
  split
  · rfl
  · split <;> rfl

theorem foldHash_memOnly (s : State) (box : Nat × Nat) (digest : Dword) (clk : Nat) : MemOnly s (foldHash s box digest clk) := by
  unfold foldHash
  dsimp only
  split
  · rfl
  · split <;> rfl

/-! ## Publications enter in order (R184) -/

theorem mem_insertPub {l : List Pub} {x y : Pub} : y ∈ insertPub l x ↔ y = x ∨ y ∈ l := by
  induction l with
  | nil => simp [insertPub]
  | cons p l ih =>
    unfold insertPub
    split
    · simp
    · simp only [List.mem_cons, ih]; tauto

theorem publish_pubs (s : State) (x : Pub) (ks : List Nat) : (publish s x ks).pubs = insertPub s.pubs x := (overlayTrim_memOnly (addPub s x) ks).pubs

theorem mem_publish {s : State} {x y : Pub} {ks : List Nat} : y ∈ (publish s x ks).pubs ↔ y = x ∨ y ∈ s.pubs := by
  rw [publish_pubs, mem_insertPub]

theorem publish_sameWarps (s : State) (x : Pub) (ks : List Nat) : SameWarps s (publish s x ks) :=
  (overlayTrim_memOnly (addPub s x) ks).sameWarps

theorem pubBytes_sameWarps (s : State) (d : Nat) (t : Stamp) (ord made : Nat) (b : KMap Byte) : SameWarps s (pubBytes s d t ord made b) := by
  unfold pubBytes
  split
  · exact .refl s
  · exact publish_sameWarps ..

theorem mem_pubBytes {s : State} {d : Nat} {t : Stamp} {ord made : Nat} {b : KMap Byte} {y : Pub} :
    y ∈ (pubBytes s d t ord made b).pubs ↔ (b ≠ [] ∧ y = { dom := d, stamp := t, ord := ord, made := made, body := .bytes b }) ∨ y ∈ s.pubs := by
  unfold pubBytes
  split
  · simp_all
  · rw [mem_publish]; simp_all

/-! ## Ticket words (R223) -/

theorem actWrite_sameWarps (s : State) (p : Nat) (turn : Bool) (t : Stamp) (ord : Nat) (k : Option Nat) (key : Nat) (b : List Byte) :
    SameWarps s (actWrite s p turn t ord k key b) := by
  unfold actWrite
  split
  · exact pubBytes_sameWarps ..
  · split
    · exact (freeWrite_memOnly ..).sameWarps
    · exact (sliceTouches_memOnly { s with mem := wrBytes s.mem key b } ..).sameWarps

theorem tktAdvance_sameWarps (p : Nat) (turn : Bool) (t : Stamp) (ord : Nat) (k : Option Nat) (key : Nat) (n : Nat) (s : State) :
    SameWarps s (tktAdvance s p turn t ord k key n) := by
  induction n generalizing s with
  | zero => exact .refl s
  | succ n ih =>
    unfold tktAdvance
    dsimp only
    split
    · exact (actWrite_sameWarps ..).trans (ih _)
    · exact .refl s

theorem tktRelease_sameWarps (s : State) (ck : Nat) (turn : Bool) (t : Stamp) (hit : Ticket → Bool) :
    SameWarps s (tktRelease s ck turn t hit) := by
  unfold tktRelease
  split
  · exact .refl s
  · refine (updCard_sameWarps ..).trans (SameWarps.foldl (fun s e => ?_) _ _)
    refine SameWarps.trans ?_ (tktAdvance_sameWarps ..)
    split
    · exact actWrite_sameWarps ..
    · exact .refl s

theorem tktGroupEnd_sameWarps (s : State) (ck g : Nat) (turn : Bool) (t : Stamp) : SameWarps s (tktGroupEnd s ck g turn t) :=
  (updCard_sameWarps s ck _).trans (tktRelease_sameWarps ..)

theorem tktCardStop_sameWarps (s : State) (ck : Nat) (turn : Bool) (t : Stamp) : SameWarps s (tktCardStop s ck turn t) :=
  (updCard_sameWarps s ck _).trans (tktRelease_sameWarps ..)

/-! ## Warps that are forgotten or stopped, and none that is new -/

/-- Every warp of `t` is one of `s`, and no other warp than before holds the issue. -/
def NoNewWarps (s t : State) : Prop := (∀ k, getWarp s k = none → getWarp t k = none) ∧ ∀ k, s.cur ≠ some k → t.cur ≠ some k

theorem NoNewWarps.refl (s : State) : NoNewWarps s s := ⟨fun _ => id, fun _ => id⟩

theorem NoNewWarps.trans {s t u : State} (h : NoNewWarps s t) (g : NoNewWarps t u) : NoNewWarps s u :=
  ⟨fun k hk => g.1 k (h.1 k hk), fun k hk => g.2 k (h.2 k hk)⟩

theorem NoNewWarps.foldl {α : Type} {g : State → α → State} (hg : ∀ s x, NoNewWarps s (g s x)) (l : List α) (s : State) :
    NoNewWarps s (l.foldl g s) := by
  induction l generalizing s with
  | nil => exact .refl s
  | cons x l ih => exact (hg s x).trans (ih _)

theorem SameWarps.noNew {s t : State} (h : SameWarps s t) : NoNewWarps s t :=
  ⟨fun k hk => by unfold getWarp; rw [h.1]; exact hk, fun k hk => by rw [h.2]; exact hk⟩

theorem updWarp_noNew (s : State) (k : Nat) (f : Warp → Warp) : NoNewWarps s (updWarp s k f) :=
  ⟨fun j hj => by rw [getWarp_updWarp, hj]; split <;> rfl, fun _ => id⟩

theorem freeSlot_noNew (s : State) (k : Nat) : NoNewWarps s (freeSlot s k) := by
  refine ⟨fun _ => id, fun j hj => ?_⟩
  show (if s.cur = some k then none else s.cur) ≠ some j
  split
  · exact nofun
  · exact hj

/-- Only a parked warp is reinstated (R198). -/
theorem wake_cases (s : State) (k : Nat) (r : Stamp) :
    wake s k r = s ∨ ∃ w x, getWarp s k = some w ∧ isParked w = true ∧ wake s k r = setWarp s k x := by
  unfold wake
  split
  · exact .inl rfl
  · rename_i w hw
    split
    · rename_i what len en hst
      exact .inr ⟨w, _, hw, by simp [isParked, hst], rfl⟩
    · exact .inl rfl

theorem wake_noNew (s : State) (k : Nat) (r : Stamp) : NoNewWarps s (wake s k r) := by
  obtain h | ⟨w, x, hw, -, h⟩ := wake_cases s k r
  · rw [h]; exact .refl s
  · rw [h]
    refine ⟨fun j hj => ?_, fun _ => id⟩
    rw [getWarp_setWarp, if_neg (by rintro rfl; simp [hw] at hj)]
    exact hj

theorem dropLines_memOnly (s : State) (k : Nat) (w : Warp) : MemOnly s (dropLines s k w) := by
  unfold dropLines
  split
  · rfl
  · split
    · rfl
    · split <;> rfl

theorem wakeFwait_noNew (s : State) (p : Nat) (h : Dword) (r : Stamp) : NoNewWarps s (wakeFwait s p h r) :=
  NoNewWarps.foldl (g := fun s (e : Nat × Warp) => wake (dropLines s e.1 e.2) e.1 r)
    (fun s e => (dropLines_memOnly s e.1 e.2).sameWarps.noNew.trans (wake_noNew ..)) _ s

theorem stopWarp_noNew (s : State) (k m : Nat) (t : Stamp) : NoNewWarps s (stopWarp s k m t) :=
  (updCard_sameWarps s k _).noNew.trans ((updWarp_noNew _ k _).trans (freeSlot_noNew ..))

theorem tryFree_sameWarps (s : State) (key : Nat) (t : Stamp) : SameWarps s (tryFree s key t) := by
  unfold tryFree
  dsimp only
  split
  · exact (noteDealt_memOnly ..).sameWarps.trans (putSlot_sameWarps ..)
  · exact .refl s

theorem tryFree_pubs (s : State) (key : Nat) (t : Stamp) : (tryFree s key t).pubs = s.pubs := by
  unfold tryFree
  dsimp only
  split
  · exact (noteDealt_memOnly ..).pubs
  · rfl

theorem taskEnded_sameWarps (s : State) (p : Nat) (h : Dword) (t : Stamp) : SameWarps s (taskEnded s p h t) := by
  unfold taskEnded
  split
  · exact .refl s
  · exact (putSlot_sameWarps ..).trans (tryFree_sameWarps ..)

theorem taskEnded_pubs (s : State) (p : Nat) (h : Dword) (t : Stamp) : (taskEnded s p h t).pubs = s.pubs := by
  unfold taskEnded
  split
  · rfl
  · exact tryFree_pubs ..

/-! ## Groups that end (R34) -/

/-- `t` has lost warps of `s` at most: every other warp, the warp that holds the issue and the publications are as they were. -/
def Loses (s t : State) : Prop := (∀ k, getWarp t k = getWarp s k ∨ getWarp t k = none) ∧ t.cur = s.cur ∧ t.pubs = s.pubs

theorem Loses.refl (s : State) : Loses s s := ⟨fun _ => .inl rfl, rfl, rfl⟩

theorem Loses.trans {s t u : State} (h : Loses s t) (g : Loses t u) : Loses s u := by
  refine ⟨fun k => ?_, g.2.1.trans h.2.1, g.2.2.trans h.2.2⟩
  obtain hg | hg := g.1 k
  · rw [hg]; exact h.1 k
  · exact .inr hg

theorem Loses.foldl {α : Type} {g : State → α → State} (hg : ∀ s x, Loses s (g s x)) (l : List α) (s : State) : Loses s (l.foldl g s) := by
  induction l generalizing s with
  | nil => exact .refl s
  | cons x l ih => exact (hg s x).trans (ih _)

theorem SameWarps.loses {s t : State} (h : SameWarps s t) (hp : t.pubs = s.pubs) : Loses s t :=
  ⟨fun k => .inl (by unfold getWarp; rw [h.1]), h.2, hp⟩

theorem MemOnly.loses {s t : State} (h : MemOnly s t) : Loses s t := h.sameWarps.loses h.pubs

theorem Loses.noNew {s t : State} (h : Loses s t) : NoNewWarps s t := by
  refine ⟨fun k hk => ?_, fun k hk => by rw [h.2.1]; exact hk⟩
  obtain hw | hw := h.1 k
  · rw [hw]; exact hk
  · exact hw

theorem kfind_filter_key {α : Type} (q : Nat → Bool) (m : KMap α) (k : Nat) :
    kfind (m.filter fun e => q e.1) k = if q k then kfind m k else none := by
  induction m with
  | nil => simp [kfind]
  | cons e m ih =>
    obtain ⟨j, x⟩ := e
    by_cases hj : q j <;> by_cases hk : j = k
    all_goals (subst_vars; simp_all [kfind])

/-- A group that is dropped takes its warps with it, and nothing else. -/
theorem getWarp_dropGroup (s : State) (gk k : Nat) : getWarp (dropGroup s gk) k = if groupKey k = gk then none else getWarp s k := by
  have hcore : ∀ u : State, u.warps = s.warps →
      kfind (u.warps.filter fun e => groupKey e.1 != gk) k = if groupKey k = gk then none else getWarp s k := by
    intro u hu
    rw [hu, kfind_filter_key (fun j => groupKey j != gk)]
    by_cases hk : groupKey k = gk <;> simp [hk, getWarp]
  unfold dropGroup
  dsimp only
  refine hcore _ ?_
  split
  · rfl
  · split <;> rfl

theorem dropGroup_cur (s : State) (gk : Nat) : (dropGroup s gk).cur = s.cur := by
  unfold dropGroup
  dsimp only
  split
  · rfl
  · split <;> rfl

theorem dropGroup_pubs (s : State) (gk : Nat) : (dropGroup s gk).pubs = s.pubs := by
  unfold dropGroup
  dsimp only
  split
  · rfl
  · split <;> rfl

theorem dropGroup_loses (s : State) (gk : Nat) : Loses s (dropGroup s gk) := by
  refine ⟨fun k => ?_, dropGroup_cur s gk, dropGroup_pubs s gk⟩
  rw [getWarp_dropGroup]
  split
  · exact .inr rfl
  · exact .inl rfl

theorem afterStop_loses (s : State) (ck : Nat) : Loses s (afterStop s ck) := by
  unfold afterStop
  split
  · exact .refl s
  · split
    · exact .refl s
    · split
      · exact .refl s
      · dsimp only
        exact ((updCard_sameWarps s ck _).loses rfl).trans ((boxClock_memOnly ..).loses.trans
          ((taskEnded_sameWarps ..).loses (taskEnded_pubs ..)))

theorem sweepCard_loses (s : State) (ck : Nat) : Loses s (sweepCard s ck) := by
  unfold sweepCard
  exact (Loses.foldl dropGroup_loses _ s).trans (afterStop_loses ..)

/-! ## Cascades (R317, R318, R325) -/

theorem withdraw_sameWarps (s : State) (d i c : Nat) (u : Stamp) : SameWarps s (withdraw s d i c u) := ⟨rfl, rfl⟩

theorem stopGone_sameWarps (s : State) (ck : Nat) (t : Stamp) (x : Nat × List Stamp × Nat) : SameWarps s (stopGone s ck t x) := by
  unfold stopGone
  split
  · exact (withdraw_sameWarps ..).trans (updCard_sameWarps ..)
  · exact .refl s

/-- What stops a warp of a card leaves it where it was, stops it, or withdraws first what it published. -/
theorem stopBack_noNew (s : State) (t : Stamp) (e : Nat × Warp) : NoNewWarps s (stopBack s t e) := by
  have stops (d i c m : Nat) (u v : Stamp) : NoNewWarps s (stopWarp (withdraw s d i c u) e.1 m v) :=
    (withdraw_sameWarps ..).noNew.trans (stopWarp_noNew ..)
  have ifSaved (m : Nat) (b : Bool) : NoNewWarps s (if b then stopWarp s e.1 m t else s) := by
    split
    · exact stopWarp_noNew ..
    · exact .refl s
  unfold stopBack
  dsimp only
  split
  · exact .refl s
  · exact .refl s
  · exact ((withdraw_sameWarps ..).trans (updCard_sameWarps ..)).noNew
  · exact stops ..
  · exact stopWarp_noNew ..
  · exact stops ..
  · split
    · exact stops ..
    · exact ifSaved ..
  · exact stops ..
  · exact ifSaved ..

theorem stopBehind_noNew (s : State) (ck : Nat) (t : Stamp) (parked : Bool) : NoNewWarps s (stopBehind s ck t parked) := by
  have hcopies : SameWarps s (dropCopies s ck) := ⟨rfl, rfl⟩
  unfold stopBehind
  dsimp only
  split
  · exact hcopies.noNew
  · refine hcopies.noNew.trans (NoNewWarps.trans ?gone (NoNewWarps.foldl (fun s e => stopBack_noNew s t e) _ _))
    case gone => exact (SameWarps.foldl (fun s x => stopGone_sameWarps s ck t x) _ _).noNew

theorem removeCreated_sameWarps (s : State) (h : Dword) : SameWarps s (removeCreated s h).1 := ⟨rfl, rfl⟩

theorem reclaim_noNew (s : State) (key : Nat) (x : Slot) (h : Dword) (t : Stamp) : NoNewWarps s (reclaim s key x h t).1 := by
  unfold reclaim
  dsimp only
  split
  · split
    · split
      · exact (putSlot_sameWarps ..).noNew
      · have hput := putSlot_sameWarps s key { x with st := .reclaimed, count := 0 }
        refine NoNewWarps.trans (SameWarps.noNew (SameWarps.trans ?task ((updCard_sameWarps ..).trans (tktCardStop_sameWarps ..))))
          ((stopBehind_noNew _ _ t false).trans (sweepCard_loses ..).noNew)
        case task =>
          split
          · exact hput.trans (taskEnded_sameWarps ..)
          · exact hput
    · exact (putSlot_sameWarps ..).noNew
  · exact ((putSlot_sameWarps s key _).trans ((removeCreated_sameWarps ..).trans
      ((putSlot_sameWarps ..).trans (tryFree_sameWarps ..)))).noNew

theorem runJobs_noNew (n p : Nat) (t : Stamp) (js : List Job) (s : State) : NoNewWarps s (runJobs n p t js s) := by
  induction n generalizing js s with
  | zero => unfold runJobs; exact .refl s
  | succ n ih =>
    match js with
    | [] => unfold runJobs; exact .refl s
    | .drop h :: js =>
      unfold runJobs
      split
      · exact ih _ _
      · dsimp only
        split
        · exact (putSlot_sameWarps ..).noNew.trans (ih _ _)
        · have hreclaim (key : Nat) (x y z : Slot) : NoNewWarps s (reclaim (wakeFwait (putSlot (putSlot s key x) key y) p h t) key z h t).1 :=
            ((putSlot_sameWarps ..).trans (putSlot_sameWarps ..)).noNew.trans ((wakeFwait_noNew ..).trans (reclaim_noNew ..))
          split
          · exact (hreclaim ..).trans (ih _ _)
          · exact (hreclaim ..).trans (ih _ _)
          · exact ((putSlot_sameWarps ..).trans ((putSlot_sameWarps ..).trans (tryFree_sameWarps ..))).noNew.trans (ih _ _)
    | .brk h cause dead :: js =>
      unfold runJobs
      split
      · exact ih _ _
      · have hbreak (key : Nat) (x : Slot) : NoNewWarps s (tryFree (wakeFwait (putSlot s key x) p h t) key t) :=
          (putSlot_sameWarps ..).noNew.trans ((wakeFwait_noNew ..).trans (tryFree_sameWarps ..).noNew)
        split
        · exact (hbreak ..).trans (ih _ _)
        · exact (hbreak ..).trans (ih _ _)
        · exact ih _ _

theorem cascade_noNew (s : State) (p : Nat) (t : Stamp) (js : List Job) : NoNewWarps s (cascade s p t js) := runJobs_noNew ..

/-! ## A card's end turn (R316) -/

theorem sendCreated_noNew (s : State) (p : Nat) (t : Stamp) (idx : Nat) (c : Created) : NoNewWarps s (sendCreated s p t idx c) := by
  unfold sendCreated
  split
  · dsimp only
    exact SameWarps.noNew (.trans ⟨rfl, rfl⟩ (sendFlits_memOnly ..).sameWarps)
  · exact cascade_noNew ..

theorem resolveSlot_noNew (s : State) (p key : Nat) (x : Slot) (h : Dword) (t : Stamp) (v : List Byte) (place : Option (Nat × Dword)) :
    NoNewWarps s (resolveSlot s p key x h t v place) :=
  ((putSlot_sameWarps ..).noNew.trans (wakeFwait_noNew ..)).trans (NoNewWarps.foldl (fun _ _ => sendCreated_noNew ..) _ _)

theorem cardEndTurn_noNew (s : State) (ck : Nat) : NoNewWarps s (cardEndTurn s ck) := by
  unfold cardEndTurn
  split
  · exact .refl s
  · dsimp only
    refine NoNewWarps.trans ?slot ((foldHash_memOnly ..).sameWarps.noNew.trans ((cascade_noNew ..).trans (taskEnded_sameWarps ..).noNew))
    case slot =>
      have hcard := (updCard_sameWarps s ck fun c => { c with endTurn := true, held := [] }).noNew
      split
      · split
        · exact hcard.trans (resolveSlot_noNew ..)
        · exact hcard.trans (resolveSlot_noNew ..)
        · exact hcard
      · exact hcard

end Sys2Proof.Machine
end

section
/-! PROOF. O14: the `EXIT` of a warp's last fragment (R34, R89, R191). -/

namespace Sys2Proof.Machine

/-! ## Reinstating other warps (R95, R198, R219) -/

/-- `t` has the warp `k` of `s` where it is not parked, the same publications, and the same warp holds the issue. -/
def KeepsUnparked (k : Nat) (s t : State) : Prop :=
  (∀ w, getWarp s k = some w → isParked w = false → getWarp t k = some w) ∧ t.pubs = s.pubs ∧ t.cur = s.cur

theorem KeepsUnparked.refl (k : Nat) (s : State) : KeepsUnparked k s s := ⟨fun _ h _ => h, rfl, rfl⟩

theorem KeepsUnparked.trans {k : Nat} {s t u : State} (h : KeepsUnparked k s t) (g : KeepsUnparked k t u) : KeepsUnparked k s u :=
  ⟨fun w hw hp => g.1 w (h.1 w hw hp) hp, g.2.1.trans h.2.1, g.2.2.trans h.2.2⟩

theorem KeepsUnparked.foldl {α : Type} {k : Nat} {g : State → α → State} (hg : ∀ s x, KeepsUnparked k s (g s x)) (l : List α) (s : State) :
    KeepsUnparked k s (l.foldl g s) := by
  induction l generalizing s with
  | nil => exact .refl k s
  | cons x l ih => exact (hg s x).trans (ih _)

theorem SameWarps.keepsUnparked {s t : State} (h : SameWarps s t) (hp : t.pubs = s.pubs) (k : Nat) : KeepsUnparked k s t :=
  ⟨fun w hw _ => by unfold getWarp; rw [h.1]; exact hw, hp, h.2⟩

theorem wake_keepsUnparked (k : Nat) (s : State) (j : Nat) (r : Stamp) : KeepsUnparked k s (wake s j r) := by
  obtain h | ⟨w, x, hw, hpark, h⟩ := wake_cases s j r
  · rw [h]; exact .refl k s
  · rw [h]
    refine ⟨fun v hv hp => ?_, rfl, rfl⟩
    have hjk : k ≠ j := by
      rintro rfl
      rw [hw] at hv
      cases hv
      exact Bool.noConfusion (hpark.symm.trans hp)
    rw [getWarp_setWarp, if_neg hjk]
    exact hv

theorem setGroup_keepsUnparked (k : Nat) (s : State) (gk : Nat) (g : Group) : KeepsUnparked k s (setGroup s gk g) :=
  SameWarps.keepsUnparked ⟨rfl, rfl⟩ rfl k

theorem grantClaims_keepsUnparked (k gk : Nat) (r : Stamp) (n : Nat) (s : State) : KeepsUnparked k s (grantClaims s gk r n) := by
  induction n generalizing s with
  | zero => exact .refl k s
  | succ n ih =>
    unfold grantClaims
    split
    · exact .refl k s
    · split
      · exact .refl k s
      · have hnext (g : Group) : KeepsUnparked k s (grantClaims (setGroup s gk g) gk r n) := (setGroup_keepsUnparked ..).trans (ih _)
        split
        · split
          · split
            · exact (setGroup_keepsUnparked ..).trans ((wake_keepsUnparked ..).trans (ih _))
            · exact .refl k s
          · exact hnext _
        · exact hnext _

theorem barStep_keepsUnparked (k : Nat) (s : State) (gk : Nat) (r : Stamp) (n : Nat) : KeepsUnparked k s (barStep s gk r n) := by
  unfold barStep
  split
  · exact .refl k s
  · split
    · exact .refl k s
    · refine (setGroup_keepsUnparked ..).trans (KeepsUnparked.foldl (fun s e => ?_) _ _)
      split
      · exact .refl k s
      · split
        · split
          · refine KeepsUnparked.trans ?_ (wake_keepsUnparked ..)
            split
            · exact (l1Clear_memOnly ..).sameWarps.keepsUnparked (l1Clear_memOnly ..).pubs k
            · exact .refl k s
          · exact .refl k s
        · exact .refl k s

/-! ## The end of a group (R34) -/

/-- What follows when a group has left: its ticket words in free mode, and its card's end when it was the last (R223, R316). -/
def groupLeft (s : State) (ck g : Nat) (turn : Bool) (t : Stamp) : State :=
  let u := if turn then s else tktGroupEnd s ck g false t
  match kfind u.cards ck with
  | none => u
  | some c =>
    if allEnded c then
      if turn then boxClock u ck (lastExit c).1 else cardEndTurn (boxClock u ck (lastExit c).1) ck
    else u

/-- The group is dropped and entered among those of its card that have ended. -/
def leaveGroup (s : State) (gk : Nat) (t : Stamp) : State :=
  updCard (dropGroup s gk) (cardKey gk) fun c =>
    { c with ended := kinsert c.ended gk t, quit := c.quit.filter fun n => n != groupNo gk }

/-- A group whose warps have all ended is entered as such, once (R34, R223). -/
def quitGroup (s : State) (gk : Nat) (c : Card) (t : Stamp) : State :=
  if c.quit.contains (groupNo gk) then s
  else updCard s (cardKey gk) fun c => { c with quit := c.quit ++ [groupNo gk], due := c.due ++ [(t, groupNo gk)] }

/-- Some warp of a group is in turn mode. -/
def turnGroup (s : State) (gk : Nat) : Bool := (s.warps.filter fun e => groupKey e.1 == gk).any fun e => e.2.turn

/-- The stamp of a group's last `EXIT`. -/
def lastStamp (s : State) (gk : Nat) : Stamp :=
  (s.warps.filter fun e => groupKey e.1 == gk).foldl
    (fun a e => let x : Stamp := (e.2.clock - 1, identOf e.1); if stampLt a x then x else a) (0, 0)

/-- The end of a group of a running card whose copies have finished. -/
theorem endGroup_leaves {s : State} {gk : Nat} {g : Group} {c : Card} (hg : kfind s.groups gk = some g)
    (hc : kfind s.cards (cardKey gk) = some c) (hdead : groupDead s gk = true) (hstop : c.stop = none) (hb : copiesBusy g = false) :
    endGroup s gk = groupLeft (leaveGroup (quitGroup s gk c (lastStamp s gk)) gk (lastStamp s gk)) (cardKey gk) (groupNo gk)
      (turnGroup s gk) (lastStamp s gk) := by
  unfold endGroup
  simp only [hg, hc, hdead, hstop, hb, Bool.not_true, Bool.false_eq_true, if_false, Option.isSome_none]
  rfl

theorem quitGroup_loses (s : State) (gk : Nat) (c : Card) (t : Stamp) : Loses s (quitGroup s gk c t) := by
  unfold quitGroup
  split
  · exact .refl s
  · exact (updCard_sameWarps ..).loses rfl

theorem leaveGroup_loses (s : State) (gk : Nat) (t : Stamp) : Loses s (leaveGroup s gk t) :=
  (dropGroup_loses s gk).trans ((updCard_sameWarps ..).loses rfl)

theorem groupLeft_loses (s : State) (ck g : Nat) (t : Stamp) : Loses s (groupLeft s ck g true t) := by
  unfold groupLeft
  dsimp only [if_true]
  split
  · exact .refl s
  · split
    · exact (boxClock_memOnly ..).loses
    · exact .refl s

theorem groupLeft_noNew (s : State) (ck g : Nat) (turn : Bool) (t : Stamp) : NoNewWarps s (groupLeft s ck g turn t) := by
  cases turn with
  | true => exact (groupLeft_loses ..).noNew
  | false =>
    have htkt := (tktGroupEnd_sameWarps s ck g false t).noNew
    unfold groupLeft
    dsimp only
    split
    · exact htkt
    · split
      · exact htkt.trans ((boxClock_memOnly ..).sameWarps.noNew.trans (cardEndTurn_noNew ..))
      · exact htkt

/-- A group that does not leave loses warps at most, with its stopped card. -/
theorem endGroup_cases (s : State) (gk : Nat) : Loses s (endGroup s gk) ∨
    ∃ g c, kfind s.groups gk = some g ∧ kfind s.cards (cardKey gk) = some c ∧ groupDead s gk = true ∧ c.stop = none ∧ copiesBusy g = false := by
  cases hg : kfind s.groups gk with
  | none => left; unfold endGroup; simp only [hg]; exact .refl s
  | some g =>
    cases hc : kfind s.cards (cardKey gk) with
    | none => left; unfold endGroup; simp only [hg, hc]; exact .refl s
    | some c =>
      by_cases hdead : groupDead s gk = true
      · cases hstop : c.stop with
        | some x =>
          left
          unfold endGroup
          simp only [hg, hc, hdead, hstop, Bool.not_true, Bool.false_eq_true, if_false, Option.isSome_some, if_true]
          split
          · exact .refl s
          · exact sweepCard_loses ..
        | none =>
          cases hb : copiesBusy g with
          | true =>
            left
            have hquit : endGroup s gk = quitGroup s gk c (lastStamp s gk) := by
              unfold endGroup
              simp only [hg, hc, hdead, hstop, hb, Bool.not_true, Bool.false_eq_true, if_false, Option.isSome_none, if_true]
              rfl
            rw [hquit]
            exact quitGroup_loses ..
          | false => exact .inr ⟨g, c, rfl, rfl, hdead, hstop, hb⟩
      · left
        unfold endGroup
        simp only [hg, hc, hdead, Bool.not_false, if_true]
        exact .refl s

/-- Where a warp of the group is in turn mode, the group's end loses its warps at most. -/
theorem endGroup_turn {s : State} {gk : Nat} (h : turnGroup s gk = true) : Loses s (endGroup s gk) := by
  obtain hl | ⟨g, c, hg, hc, hdead, hstop, hb⟩ := endGroup_cases s gk
  · exact hl
  · rw [endGroup_leaves hg hc hdead hstop hb, h]
    exact (quitGroup_loses ..).trans ((leaveGroup_loses ..).trans (groupLeft_loses ..))

/-- A group's end leaves each of its warps as it is or forgets it, and lets no other warp hold the issue. -/
theorem endGroup_warp (s : State) (k : Nat) :
    (getWarp (endGroup s (groupKey k)) k = getWarp s k ∨ getWarp (endGroup s (groupKey k)) k = none) ∧
    (∀ j, s.cur ≠ some j → (endGroup s (groupKey k)).cur ≠ some j) := by
  obtain hl | ⟨g, c, hg, hc, hdead, hstop, hb⟩ := endGroup_cases s (groupKey k)
  · exact ⟨hl.1 k, hl.noNew.2⟩
  · rw [endGroup_leaves hg hc hdead hstop hb]
    have hleave := groupLeft_noNew (leaveGroup (quitGroup s (groupKey k) c (lastStamp s (groupKey k))) (groupKey k) (lastStamp s (groupKey k)))
      (cardKey (groupKey k)) (groupNo (groupKey k)) (turnGroup s (groupKey k)) (lastStamp s (groupKey k))
    refine ⟨.inr (hleave.1 k ?_), ((quitGroup_loses ..).trans (leaveGroup_loses ..)).noNew.trans hleave |>.2⟩
    exact (getWarp_dropGroup ..).trans (if_pos rfl)

/-! ## The hand that an end publishes (R184, R191) -/

/-- Where no home refuses any of it, the part of a hand that homes accept has all its unpublished bytes. -/
theorem handFresh_handAccepted {s : State} {chip : Nat} {sec : Bool} {h : Hand} (hr : handRefusals s chip sec h true = []) :
    handFresh (handAccepted s chip sec h) = handFresh h := by
  have hsec (x : Sector) (hx : x ∈ h.secs) : (homeRefuses s chip sec x.key).isNone = true ∨ sectorFresh x = [] := by
    by_contra hno
    rw [not_or, Option.isNone_iff_eq_none] at hno
    obtain ⟨kind, hk⟩ := Option.ne_none_iff_exists'.1 hno.1
    have hmem : ({ kind := kind, va := x.va, pc := x.pc, key := x.key } : Denied) ∈ handRefusals s chip sec h true :=
      List.mem_append_left _ (List.mem_filterMap.2 ⟨x, hx, by simp [hno.2, hk]⟩)
    rw [hr] at hmem
    cases hmem
  unfold handFresh handAccepted
  generalize ([] : KMap Byte) = m
  dsimp only
  generalize h.secs = l at hsec
  induction l generalizing m with
  | nil => rfl
  | cons x l ih =>
    have ih := fun m => ih m fun y hy => hsec y (List.mem_cons_of_mem _ hy)
    obtain hx | hx := hsec x List.mem_cons_self
    · rw [List.filter_cons_of_pos (by exact hx), List.foldl_cons, List.foldl_cons, ih]
    · rw [List.filter_cons]
      split
      · rw [List.foldl_cons, List.foldl_cons, ih]
      · rw [List.foldl_cons, hx, List.foldl_nil, ih]

/-- … and all its pot entries. -/
theorem pots_handAccepted {s : State} {chip : Nat} {sec : Bool} {h : Hand} (hr : handRefusals s chip sec h true = []) :
    (handAccepted s chip sec h).pots = h.pots := by
  refine List.filter_eq_self.2 fun x hx => ?_
  by_contra hno
  rw [Option.isNone_iff_eq_none] at hno
  obtain ⟨kind, hk⟩ := Option.ne_none_iff_exists'.1 hno
  have hmem : ({ kind := kind, va := x.va, pc := x.pc, key := x.key } : Denied) ∈ handRefusals s chip sec h true :=
    List.mem_append_right _ (List.mem_filterMap.2 ⟨x, hx, by simp [hk]⟩)
  rw [hr] at hmem
  cases hmem

theorem sendPub_memOnly (s : State) (k : Nat) (t : Stamp) (ks : List Nat) : MemOnly s (sendPub s k t ks) := by
  unfold sendPub
  exact MemOnly.foldl (fun _ _ => sendFlits_memOnly ..) _ s

theorem pubPots_pubs (d : Nat) (t : Stamp) (made : Nat) (l : List PotEnt) (s : State) (y : Pub) :
    y ∈ (l.foldl (fun s x => pubPot s d t made x) s).pubs ↔
      (∃ e ∈ l, y = { dom := d, stamp := t, ord := 2, made := made, body := .pot e.key e.op e.ty e.val }) ∨ y ∈ s.pubs := by
  induction l generalizing s with
  | nil => simp
  | cons e l ih =>
    rw [List.foldl_cons, ih, pubPot, mem_publish]
    simp only [List.mem_cons, exists_eq_or_imp]
    exact or_left_comm.trans or_assoc.symm

/-- A publication of warp `k` for the mark `m`, by an act of clock `made` (R184). -/
def handPub (s : State) (k m made ord : Nat) (b : PubBody) : Pub :=
  { dom := domOf s (partOf k), stamp := (m - 1, identOf k), ord := ord, made := made, body := b }

/-- What a mark publishes of a hand that no home refuses: its unpublished bytes, and then its pot entries. -/
theorem mem_pubMark {s : State} {k : Nat} {w : Warp} {m made : Nat} (hr : handRefusals s (chipOf (partOf k)) w.sec w.hand true = []) {y : Pub} :
    y ∈ (pubMark s k w m made).pubs ↔
      (∃ e ∈ w.hand.pots, y = handPub s k m made 2 (.pot e.key e.op e.ty e.val)) ∨
      (handFresh w.hand ≠ [] ∧ y = handPub s k m made 0 (.bytes (handFresh w.hand))) ∨ y ∈ s.pubs := by
  unfold pubMark
  dsimp only
  rw [updWarp_pubs, pots_handAccepted hr, handFresh_handAccepted hr, pubPots_pubs, mem_pubBytes, (sendPub_memOnly ..).pubs]
  rfl

/-! ## The end of a warp -/

/-- The hand of a turn-mode warp is published for the mark above its clock (R191). -/
def exitPub (s : State) (k : Nat) (w : Warp) : State := if w.turn then pubMark s k w (nextMark w.quantum w.clock) w.clock else s

/-- The warp as its last `EXIT` leaves it, where its part of the end mark is `m` (R34, R191). -/
def exited (m : Nat) (w : Warp) : Warp := { w with stat := .ended, clock := w.clock + 1, endClock := m, frags := [], region := none }

/-- What waits for its registers or at a barrier goes on. -/
def othersGoOn (s : State) (k : Nat) (w : Warp) : State :=
  (List.range 16).foldl (fun s n => barStep s k (stampOf k w) n)
    (grantAll (updGroup s k fun g => { g with poolFree := g.poolFree + w.allot }) k (stampOf k w))

/-- The state in which the warp has ended, and what waited for it has gone on. -/
def exitState (s : State) (k : Nat) (w : Warp) : State :=
  endRun (othersGoOn (updWarp (exitPub s k w) k (exited (nextMark w.quantum w.clock))) k w) k

theorem endWarp_eq {s : State} {k : Nat} {w : Warp} (hr : handRefusals s (chipOf (partOf k)) w.sec w.hand true = []) :
    endWarp s k w = endGroup (exitState s k w) (groupKey k) := by
  unfold endWarp
  dsimp only
  rw [hr, ite_self]
  exact if_pos rfl

theorem othersGoOn_keepsUnparked (s : State) (k : Nat) (w : Warp) : KeepsUnparked k s (othersGoOn s k w) := by
  have hpool : KeepsUnparked k s (updGroup s k fun g => { g with poolFree := g.poolFree + w.allot }) :=
    SameWarps.keepsUnparked ⟨rfl, rfl⟩ rfl k
  unfold othersGoOn grantAll
  exact (hpool.trans (grantClaims_keepsUnparked ..)).trans (KeepsUnparked.foldl (fun _ _ => barStep_keepsUnparked ..) _ _)

theorem getWarp_exitPub {s : State} {k : Nat} {w : Warp} (hw : getWarp s k = some w) :
    ∃ v, getWarp (exitPub s k w) k = some v ∧ v.clock = w.clock ∧ v.turn = w.turn := by
  unfold exitPub
  split
  · exact ⟨_, (getWarp_pubMark ..).trans (congrArg (Option.map _) hw), rfl, rfl⟩
  · exact ⟨w, hw, rfl, rfl⟩

theorem endRun_cur_ne (s : State) (k : Nat) : (endRun s k).cur ≠ some k := by
  show (if s.cur = some k then none else s.cur) ≠ some k
  split
  · exact nofun
  · assumption

theorem getWarp_exitState {s : State} {k : Nat} {w : Warp} (hw : getWarp s k = some w) :
    ∃ x, getWarp (exitState s k w) k = some x ∧ x.stat = .ended ∧ x.frags = [] ∧ x.clock = w.clock + 1 ∧ x.turn = w.turn := by
  obtain ⟨v, hv, hclock, hturn⟩ := getWarp_exitPub hw
  have hended : getWarp (updWarp (exitPub s k w) k (exited (nextMark w.quantum w.clock))) k =
      some (exited (nextMark w.quantum w.clock) v) := by rw [getWarp_updWarp, if_pos rfl, hv]; rfl
  obtain ⟨x, hx, hsame⟩ := endRun_warp ((othersGoOn_keepsUnparked _ k w).1 _ hended rfl)
  exact ⟨x, hx, congrArg Warp.stat hsame, congrArg Warp.frags hsame, (congrArg Warp.clock hsame).trans (congrArg (· + 1) hclock),
    (congrArg Warp.turn hsame).trans hturn⟩

theorem exitState_pubs (s : State) (k : Nat) (w : Warp) : (exitState s k w).pubs = (exitPub s k w).pubs := by
  have hrun (u : State) : (endRun u k).pubs = u.pubs := rfl
  rw [exitState, hrun, (othersGoOn_keepsUnparked _ k w).2.1, updWarp_pubs]

theorem turnGroup_of_warp {s : State} {k : Nat} {w : Warp} (hw : getWarp s k = some w) (ht : w.turn = true) :
    turnGroup s (groupKey k) = true :=
  List.any_eq_true.2 ⟨(k, w), List.mem_filter.2 ⟨mem_of_kfind hw, beq_self_eq_true _⟩, ht⟩

/-- What the end of a warp leaves, where no home refuses its hand: wherever it is still listed it has ended, and in turn mode the
publications are those of its mark. -/
theorem endWarp_spec {s : State} {k : Nat} {w : Warp} (hw : getWarp s k = some w)
    (hr : handRefusals s (chipOf (partOf k)) w.sec w.hand true = []) :
    (∀ x, getWarp (endWarp s k w) k = some x → x.stat = .ended ∧ x.frags = [] ∧ x.clock = w.clock + 1) ∧
    (endWarp s k w).cur ≠ some k ∧
    (w.turn = true → (endWarp s k w).pubs = (pubMark s k w (nextMark w.quantum w.clock) w.clock).pubs) := by
  obtain ⟨x, hx, hstat, hfrags, hclock, hturn⟩ := getWarp_exitState hw
  rw [endWarp_eq hr]
  obtain ⟨hsame, hcurs⟩ := endGroup_warp (exitState s k w) k
  refine ⟨fun y hy => ?_, hcurs k (endRun_cur_ne _ k), fun ht => ?_⟩
  · obtain h | h := hsame
    · rw [h, hx] at hy
      cases hy
      exact ⟨hstat, hfrags, hclock⟩
    · rw [h] at hy; cases hy
  · have hpub : exitPub s k w = pubMark s k w (nextMark w.quantum w.clock) w.clock := if_pos ht
    rw [(endGroup_turn (turnGroup_of_warp hx (hturn.trans ht))).2.2, exitState_pubs, hpub]

/-- An instruction that does not retire leaves what its effect shows, but for the record of a group turn. -/
theorem performs_done {i : Instr} {s s1 s2 : State} {k len : Nat} {o : Op} {f : Long} {w : Warp} (h : Performs i s k o f len s1 w)
    (hb : bodyOf o f len s1 k w = .done s2) :
    exec i s = .next s2 ∨ ∃ r, exec i s = .next (updWarp s2 k fun x => addTurn x r) := by
  obtain ⟨s0, w0, -, -, -, -, hx⟩ := performs_act h
  rw [hx _ hb]
  dsimp only [faultRegion, finish]
  split
  · exact .inr ⟨_, rfl⟩
  · exact .inl rfl

/-- Settles O14: the body of the last `EXIT` is `endWarp`, whose effect is `endWarp_spec`, and its mark publishes the hand
(`mem_pubMark`). -/
theorem lastExitEndsTheWarp : Obligations.LastExitEndsTheWarp := by
  intro i s s1 k len f w h hlast hr pub
  obtain ⟨hended, hcur, hpubs⟩ := endWarp_spec (performs_warp h) hr
  have hpublished (ht : w.turn = true) : (handFresh w.hand ≠ [] → pub 0 (.bytes (handFresh w.hand)) ∈ (endWarp s1 k w).pubs) ∧
      ∀ e ∈ w.hand.pots, pub 2 (.pot e.key e.op e.ty e.val) ∈ (endWarp s1 k w).pubs := by
    rw [hpubs ht]
    exact ⟨fun hne => (mem_pubMark hr).2 (.inr (.inl ⟨hne, rfl⟩)), fun e he => (mem_pubMark hr).2 (.inl ⟨e, he, rfl⟩)⟩
  obtain hx | ⟨r, hx⟩ := performs_done h (show bodyOf .exit f len s1 k w = .done (endWarp s1 k w) from if_pos hlast)
  · exact ⟨_, hx, hcur, hended, hpublished⟩
  · refine ⟨_, hx, hcur, fun x hw => ?_, hpublished⟩
    rw [getWarp_updWarp, if_pos rfl] at hw
    obtain ⟨y, hy, rfl⟩ := Option.map_eq_some_iff.1 hw
    exact hended y hy

end Sys2Proof.Machine
end

section
/-! PROOF. O54: arbitration, halts, gates, turns, merges and the ends of groups and cards (R34, R37, R39, R77, R78, R104, R185, R186,
R193, R195, R298). -/

namespace Sys2Proof.Machine

/-! ## The ready warps of a core and those that have lost (R37, R77, R78) -/

theorem sget_lost (ws : List (Nat × Warp)) (won : Option Nat) (f : Nat → Nat) {m : KMap Nat} (hm : swf 0 m = true) (j : Nat) :
    sget 0 (ws.foldl (fun (m : KMap Nat) e => if won = some e.1 then m else sput 0 m e.1 (f e.1 + 1)) m) j =
      if won ≠ some j ∧ j ∈ ws.map (·.1) then f j + 1 else sget 0 m j := by
  induction ws generalizing m with
  | nil => simp
  | cons e ws ih =>
    rw [List.foldl_cons, List.map_cons]
    by_cases hk : won = some e.1
    · rw [if_pos hk, ih hm]
      refine if_congr (and_congr_right fun hj => (List.mem_cons.trans (or_iff_right ?_)).symm) rfl rfl
      rintro rfl
      exact hj hk
    · rw [if_neg hk, ih (swf_sput _ _ hm), sget_sput _ _ _ hm]
      by_cases hj : j = e.1
      · subst hj
        rw [if_pos rfl, ite_self]
        exact (if_pos ⟨hk, List.mem_cons_self⟩).symm
      · rw [if_neg hj]
        exact if_congr (and_congr_right fun _ => (List.mem_cons.trans (or_iff_right hj)).symm) rfl rfl

/-- What each warp has lost, once a core's ready warps but the one that won have lost once more. -/
def lostMap (s : State) (c n : Nat) (won : Option Nat) : KMap Nat :=
  (readyWarps s c n).foldl (fun (m : KMap Nat) e =>
    if won = some e.1 then m else sput 0 m e.1 (sget 0 (getCore (getChip s c) n).lost e.1 + 1)) []

theorem sget_lostMap (s : State) (c n : Nat) (won : Option Nat) (j : Nat) :
    (won ≠ some j → (∃ v, (j, v) ∈ readyWarps s c n) →
      sget 0 (lostMap s c n won) j = sget 0 (getCore (getChip s c) n).lost j + 1) ∧
    (won = some j ∨ (∀ v, (j, v) ∉ readyWarps s c n) → sget 0 (lostMap s c n won) j = 0) := by
  unfold lostMap
  rw [sget_lost _ _ (fun j => sget 0 (getCore (getChip s c) n).lost j) (swf_nil 0)]
  refine ⟨fun hw ⟨v, hv⟩ => if_pos ⟨hw, List.mem_map.2 ⟨_, hv, rfl⟩⟩, fun h => if_neg ?_⟩
  rintro ⟨hw, hj⟩
  obtain ⟨⟨_, v⟩, hv, rfl⟩ := List.mem_map.1 hj
  exact h.elim hw fun hn => hn v hv

/-- The state in which a core's arbitration decides: each warp that waited has tried its next instruction (R77). -/
def refreshed (s : State) (c n q : Nat) : State := ((s.warps.filter fun e => idleOn s c n e).map (·.1)).foldl (refresh q) s

theorem fillSlot_none {s : State} {c n q : Nat} {more : List Nat} (hq : freeSlots s c n = q :: more)
    (hw : winner (refreshed s c n q) c n = none) :
    fillSlot s c n = setChip (refreshed s c n q) c (setCore (getChip (refreshed s c n q) c) n
      { getCore (getChip (refreshed s c n q) c) n with lost := lostMap (refreshed s c n q) c n none }) := by
  unfold refreshed at hw
  unfold fillSlot
  simp only [hq, hw]
  rfl

theorem fillSlot_some {s : State} {c n q k : Nat} {v : Warp} {more : List Nat} (hq : freeSlots s c n = q :: more)
    (hw : winner (refreshed s c n q) c n = some k) (hv : getWarp (refreshed s c n q) k = some v) :
    fillSlot s c n = updWarp { setChip (refreshed s c n q) c (setCore (getChip (refreshed s c n q) c) n
        { getCore (getChip (refreshed s c n q) c) n with rr := v.entry, lost := lostMap (refreshed s c n q) c n (some k) }) with
        cur := (refreshed s c n q).cur.or (some k), runs := (refreshed s c n q).runs ++ [k] } k
      fun w => { w with slot := some q, runLen := 0 } := by
  unfold refreshed at hw hv
  unfold fillSlot
  simp only [hq, hw, hv]
  rfl

theorem mem_freeSlots (s : State) (c n q : Nat) :
    q ∈ freeSlots s c n ↔ q < 4 ∧ ∀ e ∈ s.warps, e.2.slot = some q → warpCore s e.1 ≠ some (c, n) := by
  simp [freeSlots, or_iff_not_imp_left]

theorem refresh_waiting {s : State} {k q : Nat} {w : Warp} (hw : getWarp s k = some w) (ht : waiting (tried s k w q) k = true) :
    refresh q s k = { tried s k w q with cur := s.cur } := by
  simp only [refresh, hw, ht, if_true]

theorem refresh_ready {s : State} {k q : Nat} {w : Warp} (hw : getWarp s k = some w) (ht : waiting (tried s k w q) k = false)
    (hst : w.stat = .stalled) : refresh q s k = setWarp s k { w with stat := .ready } := by
  simp [refresh, hw, ht, hst]

/-! ## The winner (R37, R77) -/

theorem stampLt_asymm {a b : Stamp} (h : stampLt a b = true) : stampLt b a = false := by
  simp only [stampLt, Bool.or_eq_true, Bool.and_eq_true, decide_eq_true_eq, beq_iff_eq, Bool.or_eq_false_iff, Bool.and_eq_false_iff,
    decide_eq_false_iff_not, beq_eq_false_iff_ne] at h ⊢
  omega

/-- The one of lower stamp, of a warp and the lowest before it. -/
def lowerWarp (a : Option (Nat × Warp)) (e : Nat × Warp) : Option (Nat × Warp) :=
  match a with
  | none => some e
  | some b => if stampLt (stampOf e.1 e.2) (stampOf b.1 b.2) then some e else a

/-- A warp whose stamp is below every other's is the lowest. -/
theorem foldl_lowerWarp {x : Nat × Warp} (l : List (Nat × Warp)) (a : Option (Nat × Warp)) (hx : a = some x ∨ x ∈ l)
    (ha : ∀ e, a = some e → e ≠ x → stampLt (stampOf x.1 x.2) (stampOf e.1 e.2) = true)
    (hl : ∀ e ∈ l, e ≠ x → stampLt (stampOf x.1 x.2) (stampOf e.1 e.2) = true) : l.foldl lowerWarp a = some x := by
  induction l generalizing a with
  | nil => exact hx.resolve_right (by simp)
  | cons e l ih =>
    refine ih _ ?_ ?_ fun y hy => hl y (.tail _ hy)
    · by_cases he : e = x
      · subst he
        left
        cases a with
        | none => rfl
        | some b =>
          by_cases hb : b = e
          · subst hb; simp [lowerWarp]
          · simp [lowerWarp, ha b rfl hb]
      · obtain rfl | hx := hx
        · left
          simp [lowerWarp, stampLt_asymm (hl e (.head _) he)]
        · exact .inr ((List.mem_cons.1 hx).resolve_left (Ne.symm he))
    · intro y hy hne
      cases a with
      | none => cases hy; exact hl e (.head _) hne
      | some b =>
        dsimp only [lowerWarp] at hy
        split at hy
        · cases hy; exact hl e (.head _) hne
        · exact ha y hy hne

/-- A warp's place in the round of the warp table after an entry. -/
def rrPlace (rr : Nat) (e : Nat × Warp) : Nat := (e.2.entry + 47 - rr) % 48

theorem foldl_rrFirst {rr : Nat} {x : Nat × Warp} (l : List (Nat × Warp)) (a : Nat × Warp) (hx : x ∈ a :: l)
    (hl : ∀ e ∈ a :: l, e ≠ x → rrPlace rr x < rrPlace rr e) : l.foldl (rrFirst rr) a = x := by
  induction l generalizing a with
  | nil => exact (List.mem_singleton.1 hx).symm
  | cons e l ih =>
    have hcases : rrFirst rr a e = if rrPlace rr e < rrPlace rr a then e else a := rfl
    rw [List.foldl_cons, hcases]
    refine ih _ ?_ fun y hy => hl y ?_
    · by_cases he : e = x
      · subst he
        by_cases hae : a = e
        · subst hae; simp
        · rw [if_pos (hl a (.head _) hae)]; exact .head _
      · obtain rfl | hx := List.mem_cons.1 hx
        · rw [if_neg (Nat.lt_asymm (hl e (.tail _ (.head _)) he))]; exact .head _
        · exact .tail _ ((List.mem_cons.1 hx).resolve_left (Ne.symm he))
    · obtain rfl | hy := List.mem_cons.1 hy
      · split
        · exact .tail _ (.head _)
        · exact .head _
      · exact .tail _ (.tail _ hy)

theorem rrNext_eq {rr : Nat} {x : Nat × Warp} {l : List (Nat × Warp)} (hx : x ∈ l)
    (hl : ∀ e ∈ l, e ≠ x → rrPlace rr x < rrPlace rr e) : rrNext rr l = some x := by
  cases l with
  | nil => simp at hx
  | cons a l => exact congrArg some (foldl_rrFirst l a hx hl)

theorem winner_turn {s : State} {c n k : Nat} {w : Warp} (hk : (k, w) ∈ readyWarps s c n) (ht : w.turn = true)
    (hl : ∀ e ∈ readyWarps s c n, e.2.turn = true → e ≠ (k, w) → stampLt (stampOf k w) (stampOf e.1 e.2) = true) :
    winner s c n = some k := by
  have hlow : ((readyWarps s c n).filter fun e => e.2.turn).foldl lowerWarp none = some (k, w) :=
    foldl_lowerWarp (x := (k, w)) _ none (.inr (List.mem_filter.2 ⟨hk, ht⟩)) (by simp) fun e he =>
      hl e (List.mem_filter.1 he).1 (List.mem_filter.1 he).2
  unfold winner
  change (match ((readyWarps s c n).filter fun e => e.2.turn).foldl lowerWarp none with | some e => some e.1 | none => _) = _
  rw [hlow]

/-- In free mode the next in the round wins of those that have lost 64 times, else of those that may win. -/
theorem winner_free {s : State} {c n : Nat} (h : ∀ e ∈ readyWarps s c n, e.2.turn = false) :
    winner s c n = ((rrNext (getCore (getChip s c) n).rr (((readyWarps s c n).filter (mayWin s c n)).filter fun e =>
      decide (64 ≤ sget 0 (getCore (getChip s c) n).lost e.1))).or
      (rrNext (getCore (getChip s c) n).rr ((readyWarps s c n).filter (mayWin s c n)))).map (·.1) := by
  have hnone : ((readyWarps s c n).filter fun e => e.2.turn) = [] := List.filter_eq_nil_iff.2 fun e he => by simp [h e he]
  unfold winner
  simp only [hnone, List.foldl_nil]

theorem mayWin_iff {s : State} {c n : Nat} {e : Nat × Warp} : mayWin s c n e = true ↔
    64 ≤ sget 0 (getCore (getChip s c) n).lost e.1 ∨ barred s c n (groupKey e.1) = false ∨
      throttledAhead s (siteOf s e.1) e.2.sec 24 (curPc e.2) = false := by
  simp [mayWin, or_assoc]

theorem winner_lost {s : State} {c n k : Nat} {w : Warp} (hk : (k, w) ∈ readyWarps s c n)
    (hfree : ∀ e ∈ readyWarps s c n, e.2.turn = false) (h64 : 64 ≤ sget 0 (getCore (getChip s c) n).lost k)
    (hl : ∀ e ∈ readyWarps s c n, e ≠ (k, w) → 64 ≤ sget 0 (getCore (getChip s c) n).lost e.1 →
      rrPlace (getCore (getChip s c) n).rr (k, w) < rrPlace (getCore (getChip s c) n).rr e) : winner s c n = some k := by
  rw [winner_free hfree, rrNext_eq (x := (k, w))]
  · rfl
  · simp [List.mem_filter, hk, mayWin_iff, h64]
  · simp only [List.mem_filter, decide_eq_true_eq]
    exact fun e he hne => hl e he.1.1 hne he.2

theorem winner_next {s : State} {c n k : Nat} {w : Warp} (hk : (k, w) ∈ readyWarps s c n)
    (hfree : ∀ e ∈ readyWarps s c n, e.2.turn = false ∧ sget 0 (getCore (getChip s c) n).lost e.1 < 64)
    (hmay : mayWin s c n (k, w) = true)
    (hl : ∀ e ∈ readyWarps s c n, e ≠ (k, w) → mayWin s c n e = true →
      rrPlace (getCore (getChip s c) n).rr (k, w) < rrPlace (getCore (getChip s c) n).rr e) : winner s c n = some k := by
  have hnone : ((readyWarps s c n).filter (mayWin s c n)).filter
      (fun e => decide (64 ≤ sget 0 (getCore (getChip s c) n).lost e.1)) = [] :=
    List.filter_eq_nil_iff.2 fun e he => by
      have := (hfree e (List.mem_filter.1 he).1).2
      simp only [decide_eq_true_eq]
      omega
  rw [winner_free fun e he => (hfree e he).1, hnone, rrNext_eq (x := (k, w)) (List.mem_filter.2 ⟨hk, hmay⟩)]
  · rfl
  · exact fun e he hne => hl e (List.mem_filter.1 he).1 hne (List.mem_filter.1 he).2

/-! ## Scores, halts and gates (R78, R104, R186) -/

theorem sget_filter_nonzero (m : KMap Nat) (h : m.Pairwise fun a b => a.1 < b.1) (g : Nat) :
    sget 0 (m.filter fun e => e.2 != 0) g = sget 0 m g := by
  induction m with
  | nil => rfl
  | cons e m ih =>
    obtain ⟨k, x⟩ := e
    obtain ⟨hk, hm⟩ := List.pairwise_cons.1 h
    have hrest : k = g → kfind m g = none := by
      rintro rfl
      by_contra hn
      obtain ⟨y, hy⟩ := Option.ne_none_iff_exists'.1 hn
      exact absurd (hk _ ((kfind_iff hm k y).1 hy)) (Nat.lt_irrefl k)
    have := ih hm
    unfold sget at *
    by_cases hx : x = 0
    · subst hx
      by_cases hg : k = g
      · simp [kfind, this, hg, hrest hg]
      · simp [kfind, this, hg]
    · by_cases hg : k = g <;> simp [kfind, hx, hg, this]

theorem sget_halved (m : KMap Nat) (h : krising none m = true) (g : Nat) :
    sget 0 ((m.map fun e => (e.1, e.2 / 2)).filter fun e => e.2 != 0) g = sget 0 m g / 2 := by
  have hr : (m.map fun e => (e.1, e.2 / 2)).Pairwise fun a b => a.1 < b.1 :=
    List.pairwise_map.2 ((krising_iff m none).1 h).2
  rw [sget_filter_nonzero _ hr]
  clear hr
  unfold sget
  induction m with
  | nil => simp [kfind]
  | cons e m ih => simp only [List.map_cons, kfind]; split <;> simp_all [krising_iff, List.pairwise_cons]

theorem debugHalt_boundary {s : State} {k : Nat} {w : Warp} (hw : getWarp s k = some w) (hl : isLive w = true) (hh : w.halted = false)
    (hb : atBoundary w = true) :
    debugHalt s k = freeSlot (updWarp s k fun w => { w with halted := true, haltReq := false, slot := none, runLen := 0 }) k := by
  simp [debugHalt, hw, hl, hh, hb]

theorem debugHalt_asked {s : State} {k : Nat} {w : Warp} (hw : getWarp s k = some w) (hl : isLive w = true) (hh : w.halted = false)
    (hb : atBoundary w = false) : debugHalt s k = updWarp s k fun w => { w with haltReq := true } := by
  simp [debugHalt, hw, hl, hh, hb]

theorem mem_kmodify {α : Type} {m : KMap α} {i : Nat} {f : α → α} {e : Nat × α} (h : e ∈ kmodify m i f) :
    e ∈ m ∨ ∃ x, (i, x) ∈ m ∧ e = (i, f x) := by
  induction m with
  | nil => exact .inl h
  | cons a m ih =>
    obtain ⟨k, y⟩ := a
    unfold kmodify at h
    split at h
    · rename_i hk
      subst hk
      obtain rfl | h := List.mem_cons.1 h
      · exact .inr ⟨y, .head _, rfl⟩
      · exact .inl (.tail _ h)
    · obtain rfl | h := List.mem_cons.1 h
      · exact .inl (.head _)
      · obtain h | ⟨x, hx, he⟩ := ih h
        · exact .inl (.tail _ h)
        · exact .inr ⟨x, .tail _ hx, he⟩

/-- With no warp asked to be saved, no group is. -/
theorem honourPre_unasked {s : State} (h : ∀ e ∈ s.warps, e.2.preReq = false) (c : Nat) : honourPre s c = s := by
  have hasked (gk : Nat) : preAsked s gk = false := by
    simp only [preAsked, List.any_eq_false, Bool.and_eq_true, not_and, Bool.not_eq_true]
    exact fun e he _ => h e he
  unfold honourPre
  simp [hasked]

theorem debugResume_unasked {s : State} {k : Nat} {w : Warp} (hw : getWarp s k = some w) (hh : w.halted = true)
    (h : ∀ e ∈ s.warps, e.2.preReq = false) : debugResume s k = updWarp s k fun w => { w with halted := false } := by
  simp only [debugResume, hw, hh, if_true]
  refine honourPre_unasked (fun e he => ?_) _
  obtain he | ⟨x, hx, he⟩ := mem_kmodify he
  · exact h e he
  · rw [he]; exact h (k, x) hx

theorem gateOpen_gate {s : State} {k a m : Nat} {w : Warp} (hw : getWarp s k = some w) (hst : w.stat = .gate a m)
    (hi : mayIssue s k w = true) :
    gateOpen s k = if floorGe s (domOf s (partOf k)) m ∧ copiesStaged s (domOf s (partOf k)) m ∧
        beaconsProve s (chipOf (partOf k)) (domOf s (partOf k)) (m, 0)
      then updWarp s k fun v => { v with stat := .ready } else s := by
  simp only [gateOpen, hw, hst, hi, Bool.and_true, Bool.and_eq_true, and_assoc]


/-! ## Grants of turns (R193, R195) -/

theorem domainGrant_touched {s : State} {p ck key : Nat} {t : Stamp} (h : leastTouched s (domOf s p) = some (ck, t, key)) :
    domainGrant s p = tktTouched s ck t key := by
  simp only [domainGrant, h]

theorem find?_split {α : Type} {q : α → Bool} {l r : List α} {e : α} (hl : ∀ x ∈ l, q x = false) (he : q e = true) :
    (l ++ e :: r).find? q = some e :=
  List.find?_eq_some_iff_append.2 ⟨he, l, r, rfl, fun x hx => by simp [hl x hx]⟩

/-- A card waits for its end turn, which is the least. -/
def leastEnd (s : State) (d : Nat) (e : Nat × Card) : Bool :=
  inDom s d (partOf e.1) && e.2.stop.isNone && allEnded e.2 && !e.2.endTurn &&
    leastInDom s (chipOf (partOf e.1)) d none (endStamp e.2)

theorem domainGrant_end {s : State} {p : Nat} {l r : List (Nat × Card)} {e : Nat × Card} (h : leastTouched s (domOf s p) = none)
    (hs : s.cards = l ++ e :: r) (hl : ∀ x ∈ l, leastEnd s (domOf s p) x = false) (he : leastEnd s (domOf s p) e = true) :
    domainGrant s p = cardEndTurn s e.1 := by
  have hfind : s.cards.find? (leastEnd s (domOf s p)) = some e := by rw [hs]; exact find?_split hl he
  unfold leastEnd at hfind
  simp only [domainGrant, h, hfind]

/-- What the grant of its turn, or its end by a fault, makes of a warp. -/
def grantWarp (s : State) (k : Nat) (w : Warp) : State :=
  match w.stat with
  | .turnWait => updWarp s k fun w => { w with stat := .ready }
  | _ => finishDying s k w

theorem domainGrant_warp {s : State} {p k : Nat} {w : Warp} {l r : List (Nat × Warp)} (h : leastTouched s (domOf s p) = none)
    (hend : ∀ x ∈ s.cards, leastEnd s (domOf s p) x = false) (hdoom : leastDoomed s (domOf s p) = none)
    (hdue : leastDue s (domOf s p) = none) (hs : s.warps = l ++ (k, w) :: r) (hl : ∀ x ∈ l, leastWarp s (domOf s p) x = false)
    (hw : leastWarp s (domOf s p) (k, w) = true) : domainGrant s p = grantWarp s k w := by
  have hnone : s.cards.find? (leastEnd s (domOf s p)) = none := List.find?_eq_none.2 fun x hx => by simp [hend x hx]
  have hfind : s.warps.find? (leastWarp s (domOf s p)) = some (k, w) := by rw [hs]; exact find?_split hl hw
  unfold leastEnd at hnone
  simp only [domainGrant, h, hnone, hdoom, hdue, hfind]
  rfl

/-- A warp whose turn may be granted waits for it, or is about to end its card. -/
theorem leastWarp_stat {s : State} {d : Nat} {e : Nat × Warp} (h : leastWarp s d e = true) :
    e.2.stat = .turnWait ∨ ∃ cause kind c, e.2.stat = .dying cause kind c := by
  unfold leastWarp at h
  cases hst : e.2.stat
  case turnWait => exact .inl rfl
  case dying cause kind c => exact .inr ⟨cause, kind, c, rfl⟩
  all_goals simp [hst] at h

theorem grantWarp_dying {s : State} {k cause kind c : Nat} {w : Warp} (h : w.stat = .dying cause kind c) :
    grantWarp s k w = sweepCard (stopWarp (stopCard s (cardKey k) (c, identOf k) cause kind 2) k
      ((c / w.quantum + 1) * w.quantum) (c, identOf k)) (cardKey k) := by
  simp only [grantWarp, finishDying, h, nextMark]

theorem grantWarp_turnWait {s : State} {k : Nat} {w : Warp} (h : w.stat = .turnWait) :
    grantWarp s k w = updWarp s k fun v => { v with stat := .ready } := by
  simp only [grantWarp, h]

/-- A warp waits for a turn of its group, which is the least. -/
def leastGroupTurn (s : State) (g : Nat) (e : Nat × Warp) : Bool :=
  groupKey e.1 == g && e.2.stat == .turnWait && mayIssue s e.1 e.2 && nextTurn s e.1 e.2 == .group &&
    leastInGroup s e.1 (stampOf e.1 e.2)

theorem groupGrant_first {s : State} {g k : Nat} {w : Warp} {l r : List (Nat × Warp)} (hs : s.warps = l ++ (k, w) :: r)
    (hl : ∀ e ∈ l, leastGroupTurn s g e = false) (hw : leastGroupTurn s g (k, w) = true) :
    groupGrant s g = updWarp s k fun v => { v with stat := .ready } := by
  have hfind : s.warps.find? (leastGroupTurn s g) = some (k, w) := by rw [hs]; exact find?_split hl hw
  unfold leastGroupTurn at hfind
  simp only [groupGrant, hfind]

/-! ## Merges (R185) -/

/-- What one element brings about, whatever came before it, and no element undoes, holds of a fold over a list with that element. -/
theorem foldl_of_mem {α β : Type} {P : β → Prop} {f : β → α → β} {l : List α} {x : α} (hx : x ∈ l) (hf : ∀ b, P (f b x))
    (hkeep : ∀ b y, P b → P (f b y)) (b : β) : P (l.foldl f b) := by
  have hrest (l : List α) (b : β) (hb : P b) : P (l.foldl f b) := by
    induction l generalizing b with
    | nil => exact hb
    | cons y l ih => exact ih _ (hkeep b y hb)
  induction l generalizing b with
  | nil => simp at hx
  | cons y l ih =>
    obtain rfl | hx := List.mem_cons.1 hx
    · exact hrest l _ (hf b)
    · exact ih hx _

/-- There is a bound, and it lies at or below a clock. -/
def BoundedBy (v : Nat) (a : Option Nat) : Prop := ∃ m, a = some m ∧ m ≤ v

theorem copyBound_le {s : State} {d : Nat} {e : Nat × Group} (he : e ∈ s.groups) (hd : inDom s d (partOf e.1) = true)
    {b : Nat × Buf} (hb : b ∈ e.2.bufs) {c : Copy} (hc : b.2.copy = some c) (hmw : c.mw ≠ []) :
    BoundedBy c.stamp.1 (copyBound s d) := by
  have hstep (a : Option Nat) (x : Nat × Buf) (ha : BoundedBy c.stamp.1 a) : BoundedBy c.stamp.1 (match x.2.copy with
      | some c => if c.mw.isEmpty then a else some (min (a.getD c.stamp.1) c.stamp.1)
      | none => a) := by
    obtain ⟨m, rfl, hm⟩ := ha
    split
    · split
      · exact ⟨m, rfl, hm⟩
      · exact ⟨_, rfl, (Nat.min_le_left ..).trans hm⟩
    · exact ⟨m, rfl, hm⟩
  refine foldl_of_mem (P := BoundedBy c.stamp.1) (List.mem_filter.2 ⟨he, hd⟩) (fun a => ?_) (fun a y ha => ?_) none
  · refine foldl_of_mem (P := BoundedBy c.stamp.1) hb (fun a => ?_) hstep a
    simp only [hc, List.isEmpty_eq_false_iff.2 hmw, Bool.false_eq_true, if_false]
    exact ⟨_, rfl, Nat.min_le_right ..⟩
  · exact List.foldlRecOn (motive := BoundedBy c.stamp.1) y.2.bufs _ ha fun a ha x _ => hstep a x ha

theorem mergeBound_le {s : State} {d v : Nat} (h : BoundedBy v (copyBound s d)) : BoundedBy v (mergeBound s d) := by
  obtain ⟨m, hm, hmv⟩ := h
  unfold mergeBound
  dsimp only
  refine foldl_of_mem (P := BoundedBy v) (x := m) (List.mem_append_right _ (by simp [hm])) (fun a => ?_) (fun a y ha => ?_) _
  · cases a with
    | none => exact ⟨m, rfl, hmv⟩
    | some x => exact ⟨_, rfl, (Nat.min_le_right ..).trans hmv⟩
  · obtain ⟨x, rfl, hx⟩ := ha
    exact ⟨_, rfl, (Nat.min_le_left ..).trans hx⟩

/-- A publication of a domain that nothing reads around any more. -/
def mergeable (s : State) (d : Nat) (x : Pub) : Bool :=
  x.dom == d && match mergeBound s d with
    | none => true
    | some m => stampLt x.stamp (m, 0)

theorem mergePubs_eq (s : State) (p : Nat) : mergePubs s p =
    { s with mem := (s.pubs.filter (mergeable s (domOf s p))).foldl applyPub s.mem
             pubs := s.pubs.filter fun x => !mergeable s (domOf s p) x } := rfl

theorem mem_mergePubs {s : State} {p : Nat} {x : Pub} : x ∈ (mergePubs s p).pubs ↔ x ∈ s.pubs ∧
    (x.dom = domOf s p → ∃ m, mergeBound s (domOf s p) = some m ∧ stampLt x.stamp (m, 0) = false) := by
  rw [mergePubs_eq]
  refine List.mem_filter.trans (and_congr_right fun _ => ?_)
  unfold mergeable
  cases mergeBound s (domOf s p) <;> simp [or_iff_not_imp_left]

/-- In a list that no element of a part precedes once one that is not of it has come, the part comes first. -/
theorem filter_eq_append {α : Type} {q r : α → Bool} (hqr : ∀ x, q x = true → r x = true) {l : List α}
    (h : l.Pairwise fun a b => r a = true → q a = false → q b = false) :
    l.filter r = l.filter q ++ (l.filter fun x => !q x).filter r := by
  induction l with
  | nil => rfl
  | cons a l ih =>
    obtain ⟨ha, hl⟩ := List.pairwise_cons.1 h
    cases hq : q a with
    | true => simp [hq, hqr a hq, ih hl]
    | false =>
      cases hr : r a with
      | false => simp [hq, hr, ih hl]
      | true =>
        have hnone : l.filter q = [] := List.filter_eq_nil_iff.2 fun b hb => by simp [ha b hb hr hq]
        simp [hq, hr, ih hl, hnone]

theorem stampLt_iff {a b : Stamp} : stampLt a b = true ↔ a.1 < b.1 ∨ a.1 = b.1 ∧ a.2 < b.2 := by simp [stampLt]

/-- Of three stamps of which the last lies below the first, the middle one lies above the last or below the first. -/
theorem stampLt_or {a b c : Stamp} (h : stampLt a b = true) : stampLt a c = true ∨ stampLt c b = true := by
  simp only [stampLt_iff] at *
  omega

/-- A merge leaves the images at or above its bound as they were. -/
theorem image_mergePubs {s : State} {p m : Nat} {u : Stamp} (hm : mergeBound s (domOf s p) = some m) (hu : stampLt u (m, 0) = false)
    (hs : s.pubs.Pairwise fun a b => pubBefore b a = false) :
    image (mergePubs s p) (domOf s p) u = image s (domOf s p) u := by
  have hbelow (x : Pub) : mergeable s (domOf s p) x = (x.dom == domOf s p && stampLt x.stamp (m, 0)) := by simp only [mergeable, hm]
  unfold image
  rw [filter_eq_append (q := mergeable s (domOf s p)) (l := s.pubs), List.foldl_append]
  · rfl
  · intro x hx
    simp only [hbelow, Bool.and_eq_true] at hx ⊢
    exact ⟨hx.1, (stampLt_or hx.2).resolve_right (by simp [hu])⟩
  · refine hs.imp fun {a b} hab ha hna => Bool.eq_false_iff.2 fun hb => ?_
    simp only [hbelow, Bool.and_eq_true, Bool.and_eq_false_iff] at ha hna hb
    have habove : stampLt a.stamp (m, 0) = false := hna.resolve_left (by simp [ha.1])
    have hlt : stampLt b.stamp a.stamp = true := (stampLt_or hb.2).resolve_right (by simp [habove])
    simp [pubBefore, hlt] at hab

/-! ## Cards that end for want of slots, or all parked (R39, R298) -/

theorem saveExhausted_eq {s : State} {ck : Nat} {c : Card} {x : Ctx} (hc : kfind s.cards ck = some c)
    (hx : (getPart s (partOf ck)).ctx = some x) :
    saveExhausted s ck = if x.turn = true ∧ c.stop = none ∧ c.doomed = none ∧ c.next < c.shape.groups ∧
        c.slots ≤ openGroups s ck ∧ noneCanGo s (domOf s (partOf ck)) = true ∧
        leastInDom s (chipOf (partOf ck)) (domOf s (partOf ck)) none (c.origin, identOf ck + c.next * 2 ^ 8) = true
      then setCard s ck { c with next := c.shape.groups, doomed := some ((c.origin / c.shape.quantum + 1) * c.shape.quantum) }
      else s := by
  simp only [saveExhausted, hc, hx, Bool.and_eq_true, Option.isNone_iff_eq_none, decide_eq_true_eq, and_assoc, nextMark]

/-- The later of a stamp and a warp's. -/
def laterWarp (a : Stamp) (e : Nat × Warp) : Stamp :=
  let t : Stamp := (e.2.clock, identOf e.1)
  if stampLt a t then t else a

theorem laterWarp_cases (a : Stamp) (e : Nat × Warp) :
    laterWarp a e = a ∨ laterWarp a e = (e.2.clock, identOf e.1) := by
  unfold laterWarp
  dsimp only
  split
  · exact .inr rfl
  · exact .inl rfl

/-- The parked warps of a card. -/
def parkedWarps (s : State) (ck : Nat) : List (Nat × Warp) := s.warps.filter fun e => cardKey e.1 == ck && isLive e.2 && isParked e.2

theorem mem_parkedWarps {s : State} {ck k : Nat} {w : Warp} :
    (k, w) ∈ parkedWarps s ck ↔ (k, w) ∈ s.warps ∧ cardKey k = ck ∧ isLive w = true ∧ isParked w = true := by
  simp [parkedWarps, and_assoc]

theorem parkedStamp_eq (s : State) (ck : Nat) : parkedStamp s ck = (parkedWarps s ck).foldl laterWarp (0, 0) := rfl

theorem parkedStamp_le {s : State} {ck j : Nat} {v : Warp} (h : (j, v) ∈ parkedWarps s ck) :
    stampLt (parkedStamp s ck) (v.clock, identOf j) = false := by
  rw [parkedStamp_eq]
  refine foldl_of_mem (P := fun t => stampLt t (v.clock, identOf j) = false) h (fun a => ?_) (fun a y ha => ?_) _
  · unfold laterWarp
    dsimp only
    split
    · simp [stampLt]
    · simp_all
  · unfold laterWarp
    dsimp only
    split
    · rename_i hlt
      by_contra hy
      rw [Bool.not_eq_false] at hy
      obtain h | h := stampLt_or (c := (v.clock, identOf j)) hlt
      · simp [ha] at h
      · simp [stampLt_asymm hy] at h
    · exact ha

theorem parkedStamp_cases (s : State) (ck : Nat) :
    parkedStamp s ck = (0, 0) ∨ ∃ e ∈ parkedWarps s ck, parkedStamp s ck = (e.2.clock, identOf e.1) := by
  rw [parkedStamp_eq]
  refine List.foldlRecOn (motive := fun t => t = (0, 0) ∨ ∃ e ∈ parkedWarps s ck, t = (e.2.clock, identOf e.1)) _ _ (.inl rfl)
    fun t ht e he => ?_
  obtain h | h := laterWarp_cases t e
  · rw [h]; exact ht
  · exact .inr ⟨e, he, h⟩

theorem mem_parkedCards {s : State} {d ck : Nat} {t : Stamp} (h : (t, ck) ∈ parkedCards s d) :
    (∃ c, (ck, c) ∈ s.cards) ∧ inDom s d (partOf ck) = true ∧ (∃ e, e ∈ parkedWarps s ck) ∧ t = parkedStamp s ck := by
  have hsub (l r : List (Stamp × Nat)) (x : Stamp × Nat) (hx : x ∈ l.foldl
      (fun r x => (r.filter fun y => !stampLt x.1 y.1) ++ x :: r.filter fun y => stampLt x.1 y.1) r) : x ∈ r ∨ x ∈ l := by
    induction l generalizing r with
    | nil => exact .inl hx
    | cons y l ih =>
      obtain hx | hx := ih _ hx
      · simp only [List.mem_append, List.mem_filter, List.mem_cons] at hx ⊢
        tauto
      · exact .inr (.tail _ hx)
  obtain ⟨e, he, hx⟩ := List.mem_map.1 ((hsub _ [] _ h).resolve_left (by simp))
  obtain ⟨rfl, rfl⟩ := Prod.ext_iff.1 hx
  simp only [List.mem_filter, Bool.and_eq_true, List.any_eq_true, beq_iff_eq] at he
  obtain ⟨hmem, ⟨hdom, -⟩, w, hw, ⟨hck, hlive⟩, hpark⟩ := he
  exact ⟨⟨e.2, hmem⟩, hdom, ⟨w, mem_parkedWarps.2 ⟨hw, hck, hlive, hpark⟩⟩, rfl⟩


/-! ## The end of a group that leaves its card running (R34) -/

theorem length_kinsert_le {α : Type} (m : KMap α) (i : Nat) (x : α) : (kinsert m i x).length ≤ m.length + 1 := by
  induction m with
  | nil => simp [kinsert]
  | cons e m ih =>
    obtain ⟨k, y⟩ := e
    unfold kinsert
    split
    · simp
    · split <;> simp
      exact ih

theorem cardKey_cardKey (k : Nat) : cardKey (cardKey k) = cardKey k := by
  unfold cardKey
  rw [Nat.mul_div_cancel _ (by decide)]

theorem kfind_updCard (s : State) (k j : Nat) (f : Card → Card) :
    kfind (updCard s k f).cards j = if j = cardKey k then (kfind s.cards j).map f else kfind s.cards j := kfind_kmodify ..

/-- Of its card's groups that have ended, a group that is dropped changes none. -/
theorem dropGroup_cards (s : State) (gk : Nat) : ∃ f : Card → Card, (dropGroup s gk).cards = (updCard s gk f).cards ∧
    ∀ c, (f c).shape = c.shape ∧ (f c).ended = c.ended := by
  unfold dropGroup
  dsimp only
  split
  · exact ⟨_, rfl, fun c => ⟨rfl, rfl⟩⟩
  · split
    · exact ⟨_, rfl, fun c => ⟨rfl, rfl⟩⟩
    · exact ⟨_, rfl, fun c => ⟨rfl, rfl⟩⟩

theorem dropGroup_mem (s : State) (gk : Nat) : (dropGroup s gk).mem = s.mem := by
  unfold dropGroup
  dsimp only
  split
  · rfl
  · split <;> rfl

theorem dropGroup_groups (s : State) (gk : Nat) : (dropGroup s gk).groups = kerase s.groups gk := by
  unfold dropGroup
  dsimp only
  split
  · rfl
  · split <;> rfl

theorem dropGroup_warps (s : State) (gk : Nat) : (dropGroup s gk).warps = s.warps.filter fun e => groupKey e.1 != gk := by
  unfold dropGroup
  dsimp only
  split
  · rfl
  · split <;> rfl

/-- A group that leaves is entered among those of its card that have ended, at most once. -/
theorem leaveGroup_card {s : State} {gk : Nat} {c : Card} (t : Stamp) (hc : kfind s.cards (cardKey gk) = some c) :
    ∃ c', kfind (leaveGroup s gk t).cards (cardKey gk) = some c' ∧ c'.shape = c.shape ∧ c'.ended.length ≤ c.ended.length + 1 := by
  obtain ⟨f, hcards, hf⟩ := dropGroup_cards s gk
  refine ⟨{ f c with ended := kinsert (f c).ended gk t, quit := (f c).quit.filter fun n => n != groupNo gk }, ?_, (hf c).1, ?_⟩
  · unfold leaveGroup
    rw [kfind_updCard, cardKey_cardKey, if_pos rfl, hcards, kfind_updCard, if_pos rfl, hc]
    rfl
  · rw [← (hf c).2]
    exact length_kinsert_le ..

theorem quitGroup_card {s : State} {gk : Nat} {c : Card} (t : Stamp) (hc : kfind s.cards (cardKey gk) = some c) :
    ∃ c', kfind (quitGroup s gk c t).cards (cardKey gk) = some c' ∧ c'.shape = c.shape ∧ c'.ended = c.ended := by
  unfold quitGroup
  split
  · exact ⟨c, hc, rfl, rfl⟩
  · refine ⟨{ c with quit := c.quit ++ [groupNo gk], due := c.due ++ [(t, groupNo gk)] }, ?_, rfl, rfl⟩
    rw [kfind_updCard, cardKey_cardKey, if_pos rfl, hc]
    rfl

theorem quitGroup_keeps (s : State) (gk : Nat) (c : Card) (t : Stamp) :
    (quitGroup s gk c t).groups = s.groups ∧ (quitGroup s gk c t).mem = s.mem ∧ (quitGroup s gk c t).pubs = s.pubs := by
  unfold quitGroup
  split <;> exact ⟨rfl, rfl, rfl⟩

/-- While groups of its card are still to end, the end of a group in turn mode takes the group and its warps, and nothing from memory or
the publications. -/
theorem endGroup_running {s : State} {gk : Nat} {g : Group} {c : Card} (hr : krising none s.groups = true)
    (hg : kfind s.groups gk = some g) (hc : kfind s.cards (cardKey gk) = some c) (hdead : groupDead s gk = true)
    (hb : copiesBusy g = false) (hstop : c.stop = none) (hturn : turnGroup s gk = true) (hlt : c.ended.length + 1 < c.shape.groups) :
    kfind (endGroup s gk).groups gk = none ∧ (∀ e ∈ (endGroup s gk).warps, groupKey e.1 ≠ gk) ∧
      (endGroup s gk).mem = s.mem ∧ (endGroup s gk).pubs = s.pubs := by
  obtain ⟨c₁, hc₁, hshape₁, hended₁⟩ := quitGroup_card (lastStamp s gk) hc
  obtain ⟨c₂, hc₂, hshape₂, hended₂⟩ := leaveGroup_card (lastStamp s gk) hc₁
  have hmore : allEnded c₂ = false := by
    rw [hshape₁] at hshape₂
    rw [hended₁] at hended₂
    simp only [allEnded, hshape₂, beq_eq_false_iff_ne]
    omega
  obtain ⟨hgroups, hmem, hpubs⟩ := quitGroup_keeps s gk c (lastStamp s gk)
  have hleft : endGroup s gk = leaveGroup (quitGroup s gk c (lastStamp s gk)) gk (lastStamp s gk) := by
    rw [endGroup_leaves hg hc hdead hstop hb, hturn]
    simp only [groupLeft, if_true, hc₂, hmore, Bool.false_eq_true, if_false]
  rw [hleft]
  refine ⟨?_, fun e he => ?_, ?_, ?_⟩
  · show kfind (dropGroup _ gk).groups gk = none
    rw [dropGroup_groups, hgroups]
    exact kfind_kerase_eq hr
  · have he' : e ∈ (dropGroup (quitGroup s gk c (lastStamp s gk)) gk).warps := he
    rw [dropGroup_warps] at he'
    simpa using (List.mem_filter.1 he').2
  · exact (dropGroup_mem ..).trans hmem
  · exact (dropGroup_pubs ..).trans hpubs

/-! ## O54 -/

/-- Settles O54, act by act: the folds that choose a winner, a bound or a stamp by what they keep of each element, the choices by the
first element that qualifies, and a merge by the order in which publications stand. -/
theorem slotsTurnsAndEnds : Obligations.SlotsTurnsAndEnds := by
  unfold Obligations.SlotsTurnsAndEnds
  refine ⟨?arbitration, ?fill, mem_freeSlots, ?refresh, ?winner, ?halving, ?debugger, ?domain, ?group, ?groupEnd, ?merge, ?exhausted,
    ?parked, ?cards⟩
  case arbitration =>
    intro s c die core h
    have hnone : (s.warps.filter fun e => boundaryStop s c (die * 24 + core) e) = [] :=
      List.filter_eq_nil_iff.2 fun e he => by simp [h e he]
    show Host.Outcome.next (arbitrate s c (die * 24 + core)) = _
    simp only [arbitrate, hnone, List.foldl_nil]
  case fill =>
    intro s c n
    refine ⟨fun h => by simp only [fillSlot, h], fun q more hq => ?_⟩
    refine ⟨fun hw => ⟨_, fillSlot_none hq hw, sget_lostMap _ c n none⟩, fun k v hw hv => ?_⟩
    exact ⟨_, _, fillSlot_some hq hw hv, sget_lostMap _ c n (some k), rfl, rfl, rfl, rfl, rfl⟩
  case refresh => exact fun s k q w hw => ⟨refresh_waiting hw, refresh_ready hw⟩
  case winner =>
    intro s c n k w ws co turn hk
    refine ⟨winner_turn hk, winner_lost hk, fun hfree hmay hl => ?_⟩
    refine winner_next hk hfree (mayWin_iff.2 (.inr hmay)) fun e he hne hcan => hl e he hne ?_
    exact (mayWin_iff.1 hcan).resolve_left (Nat.not_le.2 (hfree e he).2)
  case halving =>
    intro s c die core n co hr
    exact ⟨_, rfl, sget_halved _ hr⟩
  case debugger =>
    intro s k w hw
    refine ⟨fun hl hh => ?_, fun hh h => congrArg Host.Outcome.next (debugResume_unasked hw hh h),
      fun a m hst hi => congrArg Host.Outcome.next (gateOpen_gate hw hst hi)⟩
    have hb : ((w.slot == none || w.rep.isSome && decide (1 ≤ w.repidx)) && (!w.sys || w.pending)) = atBoundary w := by
      unfold atBoundary
      cases w.slot <;> rfl
    refine ⟨fun h => ?_, fun h => congrArg Host.Outcome.next (debugHalt_asked hw hl hh (hb.symm.trans h))⟩
    exact ⟨_, congrArg Host.Outcome.next (debugHalt_boundary hw hl hh (hb.symm.trans h)), rfl, rfl, rfl, rfl⟩
  case domain =>
    intro s p
    refine ⟨fun ck t key h => congrArg Host.Outcome.next (domainGrant_touched h),
      fun h l e r hs hl he => congrArg Host.Outcome.next (domainGrant_end h hs hl he), fun h hend hdoom hdue l k w r hs hl hw => ?_⟩
    refine (congrArg Host.Outcome.next (domainGrant_warp h hend hdoom hdue hs hl hw)).trans (congrArg Host.Outcome.next ?_)
    obtain hst | ⟨cause, kind, c, hst⟩ := leastWarp_stat hw
    · rw [grantWarp_turnWait hst, show w.stat = _ from hst]
    · rw [grantWarp_dying hst, show w.stat = _ from hst]
  case group => exact fun s g l k w r hs hl hw => congrArg Host.Outcome.next (groupGrant_first hs hl hw)
  case groupEnd =>
    intro s g x c hr hg hc hdead hb hstop ⟨e, he, hkey, hturn⟩ hlt
    have ht : turnGroup s g = true := by
      simp only [turnGroup, List.any_eq_true, List.mem_filter, beq_iff_eq]
      exact ⟨e, ⟨he, hkey⟩, hturn⟩
    exact ⟨_, rfl, endGroup_running hr hg hc hdead hb hstop ht hlt⟩
  case merge =>
    intro s p
    refine ⟨_, rfl, rfl, fun x => mem_mergePubs, fun e he hd b hb c hc hmw => mergeBound_le (copyBound_le he hd hb hc hmw), ?_⟩
    exact fun m u hm hu hs => image_mergePubs hm hu hs
  case exhausted => exact fun s ck c x hc hx => congrArg Host.Outcome.next (saveExhausted_eq hc hx)
  case parked =>
    intro s p x hx hturn
    show Host.Outcome.next (endParked s p) = _
    simp only [endParked, hx, hturn, Bool.true_and]
    rfl
  case cards =>
    intro s d ck t h
    obtain ⟨hcard, hdom, ⟨e, he⟩, rfl⟩ := mem_parkedCards h
    refine ⟨hcard, hdom, ?_⟩
    have hle (j : Nat) (v : Warp) (hj : (j, v) ∈ s.warps) (hc : cardKey j = ck) (hl : isLive v = true) (hp : isParked v = true) :
        stampLt (parkedStamp s ck) (v.clock, identOf j) = false := parkedStamp_le (mem_parkedWarps.2 ⟨hj, hc, hl, hp⟩)
    obtain h0 | ⟨x, hx, hstamp⟩ := parkedStamp_cases s ck
    · obtain ⟨hw, hc, hl, hp⟩ := mem_parkedWarps.1 he
      exact ⟨_, _, hw, hc, hl, hp, .inr h0, hle⟩
    · obtain ⟨hw, hc, hl, hp⟩ := mem_parkedWarps.1 hx
      exact ⟨_, _, hw, hc, hl, hp, .inl hstamp, hle⟩

end Sys2Proof.Machine
end

section
/-! PROOF. O56: groups are placed on cores and saved from them (R103, R204, R295, R299 to R302). -/

namespace Sys2Proof.Machine

/-! ## Placement (R295) -/

/-- No piece of ready work has room. -/
theorem placeNext_none {s : State} {p : Nat} (h : ∀ a ∈ readyWork s p, workCore s p a = none) : placeNext s p = s := by
  have hnone : ((readyWork s p).findSome? fun w => (workCore s p w).map fun n => (w, n)) = none :=
    List.findSome?_eq_none_iff.2 fun a ha => by rw [h a ha]; rfl
  simp only [placeNext, hnone]

/-- The first piece of ready work that has room is placed. -/
theorem placeNext_first {s : State} {p n : Nat} {l r : List Work} {a : Work} (hw : readyWork s p = l ++ a :: r)
    (hl : ∀ y ∈ l, workCore s p y = none) (ha : workCore s p a = some n) : placeNext s p = placeOn s p a n := by
  have hsome : ((readyWork s p).findSome? fun w => (workCore s p w).map fun n => (w, n)) = some (a, n) :=
    List.findSome?_eq_some_iff.2 ⟨l, a, r, hw, by rw [ha]; rfl, fun y hy => by rw [hl y hy]; rfl⟩
  simp only [placeNext, hsome]

/-- In free mode a core that takes a saved group drops its lines. -/
theorem freshL1_eq (s : State) (p c n : Nat) : freshL1 s p c n =
    if (getPart s p).ctx.any (fun x => !x.turn) = true then
      setChip s c (setCore (getChip s c) n { getCore (getChip s c) n with l1 := [] }) else s := by
  unfold freshL1
  cases (getPart s p).ctx with
  | none => rfl
  | some x => cases hx : x.turn <;> simp [hx]

/-! ## Saving a group (R103, R300) -/

/-- A warp for which no result, unconfirmed load or posted store is outstanding. -/
def Quiet (w : Warp) : Prop := w.pend = [] ∧ w.unconf = [] ∧ w.posted = [] ∧ w.hposted = []

/-- A warp of a saved group: it has no slot, and nothing is asked of it or awaited. -/
def stood (w : Warp) : Warp := { w with preReq := false, slot := none, runLen := 0, late := [] }

theorem updWarp_congr {s : State} {k : Nat} {w : Warp} {f f' : Warp → Warp} (hw : getWarp s k = some w) (h : f w = f' w) :
    updWarp s k f = updWarp s k f' := by
  have hmod (m : KMap Warp) (hm : kfind m k = some w) : kmodify m k f = kmodify m k f' := by
    induction m with
    | nil => rfl
    | cons e m ih =>
      obtain ⟨j, y⟩ := e
      unfold kfind at hm
      unfold kmodify
      split at hm
      · obtain rfl := Option.some.inj hm
        simp [*]
      · simp [*]
  exact congrArg (fun m => { s with warps := m }) (hmod _ hw)

theorem readyWarp_quiet {s : State} {k : Nat} {w : Warp} (hw : getWarp s k = some w) (hq : Quiet w) :
    readyWarp s k = freeSlot (updWarp s k stood) k := by
  obtain ⟨hpend, hunconf, hposted, hhposted⟩ := hq
  have hpost : canPost w = false := by simp [canPost, postedOf, hposted, hhposted]
  have hdrain : drainAll s k = s := by simp [drainAll, drainPosted, hw, hpost]
  have hlate : lateTable w = [] := by simp [lateTable, flightPends, hpend, hunconf]
  simp only [readyWarp, hw, hpend, hunconf, List.length_nil, Nat.add_zero, confirmOk, writeAll, hdrain]
  refine congrArg (freeSlot · k) (updWarp_congr hw ?_)
  simp only [stood, hlate]

/-- The state in which the warps of some keys stand for a save. -/
def standAll (s : State) (ks : List Nat) : State := ks.foldl (fun s k => freeSlot (updWarp s k stood) k) s

theorem getWarp_standAll (s : State) (ks : List Nat) (j : Nat) :
    getWarp (standAll s ks) j = if j ∈ ks then (getWarp s j).map stood else getWarp s j := by
  induction ks generalizing s with
  | nil => simp [standAll]
  | cons k ks ih =>
    have hstep : getWarp (freeSlot (updWarp s k stood) k) j = if j = k then (getWarp s j).map stood else getWarp s j :=
      getWarp_updWarp ..
    show getWarp (standAll (freeSlot (updWarp s k stood) k) ks) j = _
    rw [ih, hstep]
    by_cases hj : j = k
    · subst hj
      cases getWarp s j <;> simp [stood]
    · simp [hj]

theorem standAll_runs (s : State) (ks : List Nat) : (standAll s ks).runs = s.runs.filter fun k => !ks.contains k := by
  induction ks generalizing s with
  | nil => simp [standAll]
  | cons k ks ih =>
    refine (ih _).trans ((List.filter_filter ..).trans (List.filter_congr fun j _ => ?_))
    by_cases hj : j = k <;> simp [hj]

theorem standAll_keeps (s : State) (ks : List Nat) : (standAll s ks).groups = s.groups ∧ (standAll s ks).chips = s.chips ∧
    (standAll s ks).cards = s.cards ∧ (standAll s ks).mem = s.mem ∧ (standAll s ks).pubs = s.pubs := by
  induction ks generalizing s with
  | nil => exact ⟨rfl, rfl, rfl, rfl, rfl⟩
  | cons k ks ih => exact ih (freeSlot (updWarp s k stood) k)

/-- Where every warp of some keys is quiet, to make them ready for a save is to let them stand. -/
theorem foldl_readyWarp {s : State} {ks : List Nat} (h : ∀ k ∈ ks, ∃ w, getWarp s k = some w ∧ Quiet w) :
    ks.foldl readyWarp s = standAll s ks := by
  induction ks generalizing s with
  | nil => rfl
  | cons k ks ih =>
    obtain ⟨w, hw, hq⟩ := h k (.head _)
    rw [List.foldl_cons, readyWarp_quiet hw hq]
    refine ih fun j hj => ?_
    obtain ⟨v, hv, hvq⟩ := h j (.tail _ hj)
    have hstep : getWarp (freeSlot (updWarp s k stood) k) j = if j = k then (getWarp s j).map stood else getWarp s j :=
      getWarp_updWarp ..
    rw [hstep, hv]
    split
    · exact ⟨_, rfl, hvq⟩
    · exact ⟨v, rfl, hvq⟩

theorem kfind_of_mem {α : Type} {m : KMap α} (h : m.Pairwise fun a b => a.1 ≠ b.1) {i : Nat} {x : α} (hx : (i, x) ∈ m) :
    kfind m i = some x := by
  induction m with
  | nil => simp at hx
  | cons e m ih =>
    obtain ⟨k, y⟩ := e
    obtain ⟨hk, hm⟩ := List.pairwise_cons.1 h
    obtain he | hx := List.mem_cons.1 hx
    · obtain ⟨rfl, rfl⟩ := Prod.ext_iff.1 he
      simp [kfind]
    · rw [kfind, if_neg (hk _ hx), ih hm hx]

/-- The live warps of a group, by key. -/
def liveKeys (s : State) (g : Nat) : List Nat := (s.warps.filter fun e => groupKey e.1 == g && isLive e.2).map (·.1)

theorem mem_liveKeys {s : State} {g k : Nat} : k ∈ liveKeys s g ↔ ∃ w, (k, w) ∈ s.warps ∧ groupKey k = g ∧ isLive w = true := by
  simp [liveKeys]

theorem not_contains_liveKeys (s : State) (g k : Nat) :
    (!(liveKeys s g).contains k) = (groupKey k != g || s.warps.all fun e => e.1 != k || !isLive e.2) := by
  rw [Bool.eq_iff_iff]
  simp only [Bool.not_eq_true', List.contains_eq_mem, decide_eq_false_iff_not, mem_liveKeys, Bool.or_eq_true, bne_iff_ne,
    List.all_eq_true]
  constructor
  · intro h
    refine or_iff_not_imp_left.2 fun hk e he => or_iff_not_imp_left.2 fun hek => Bool.eq_false_iff.2 fun hl => ?_
    obtain rfl := not_not.1 hek
    exact h ⟨e.2, he, not_not.1 hk, hl⟩
  · rintro h ⟨w, hw, hk, hl⟩
    simpa [hl] using h.resolve_left (by simp [hk]) _ hw

/-- What a save of a group leaves before its slot is written (R300): its warps stand, and the core that held it keeps nothing for it. -/
def savedState (s : State) (g : Nat) (x : Group) (n : Nat) : State :=
  let co := getCore (getChip s x.chip) n
  updGroup (setChip (standAll s (liveKeys s g)) x.chip (setCore (getChip s x.chip) n { co with
    accHolder := if co.accHolder = some g then none else co.accHolder, scores := kerase co.scores g })) g
    fun y => { y with core := none, saved := true, ask := none }

theorem saveGroup_quiet {s : State} {g n : Nat} {x : Group} (hx : getGroup s g = some x) (hcore : x.core = some n)
    (h : ∀ k ∈ liveKeys s g, ∃ w, getWarp s k = some w ∧ Quiet w) : saveGroup s g = writeSlot (savedState s g x n) g x := by
  obtain ⟨-, hchips, -⟩ := standAll_keeps s (liveKeys s g)
  have hchip : getChip (standAll s (liveKeys s g)) x.chip = getChip s x.chip := congrArg (sget Chip.reset · x.chip) hchips
  have hfold : (s.warps.filter fun e => groupKey e.1 == g && isLive e.2).foldl (fun s e => readyWarp s e.1) s =
      standAll s (liveKeys s g) := by
    rw [← foldl_readyWarp h, liveKeys, List.foldl_map]
  simp only [saveGroup, hx, hfold, hcore, hchip]
  rfl

/-! ## The slot of a saved group (R296, R369, R377) -/

theorem sliceTouches_chips (s : State) (w : Bool) (hint : Nat) (keys : List Nat) :
    { sliceTouches s w hint keys with chips := s.chips } = s := by
  have hfold (f : State → Nat → State) (hf : ∀ s k, { f s k with chips := s.chips } = s) (l : List Nat) (s : State) :
      { l.foldl f s with chips := s.chips } = s := by
    induction l generalizing s with
    | nil => rfl
    | cons k l ih => exact (congrArg (fun t : State => { t with chips := s.chips }) (ih (f s k))).trans (hf s k)
  refine hfold _ (fun s k => ?_) _ s
  unfold touchOver updSlice
  dsimp only
  split <;> rfl

/-- The state once a saved group's slot is written: each byte is a free value. -/
def writtenSlot (s : State) (g pa n : Nat) : State :=
  sliceTouches { s with mem := wrSpan s.mem (physKey (chipOf (partOf g)) pa) n (Config.freeSaved s.freeCtr), freeCtr := s.freeCtr + 1 }
    true 0 ((List.range (n / lineSize)).map fun j => physKey (chipOf (partOf g)) pa + lineSize * j)

theorem writeSlot_eq {s : State} {g : Nat} {x : Group} {cx : Ctx} {card : Card} (hcx : (getPart s (partOf g)).ctx = some cx)
    (hcard : getCard s g = some card) : writeSlot s g x =
    if !mayReach s (partOf g) (slotPa cx card x) || !mayReach s (partOf g) (slotPa cx card x + slotBytes card.shape - 1) then s
    else match closedByte s (partOf g) (slotPa cx card x) (slotBytes card.shape) with
      | some a => reportAt s (chipOf (partOf g)) a
      | none => writtenSlot s g (slotPa cx card x) (slotBytes card.shape) := by
  simp only [writeSlot, hcx, hcard]
  rfl

theorem writeSlot_written {s : State} {g : Nat} {x : Group} {cx : Ctx} {card : Card} (hcx : (getPart s (partOf g)).ctx = some cx)
    (hcard : getCard s g = some card) (h₁ : mayReach s (partOf g) (slotPa cx card x) = true)
    (h₂ : mayReach s (partOf g) (slotPa cx card x + slotBytes card.shape - 1) = true)
    (hc : closedByte s (partOf g) (slotPa cx card x) (slotBytes card.shape) = none) :
    writeSlot s g x = writtenSlot s g (slotPa cx card x) (slotBytes card.shape) := by
  simp only [writeSlot_eq hcx hcard, h₁, h₂, hc, Bool.not_true, Bool.or_self, Bool.false_eq_true, if_false]

theorem writeSlot_reported {s : State} {g a : Nat} {x : Group} {cx : Ctx} {card : Card} (hcx : (getPart s (partOf g)).ctx = some cx)
    (hcard : getCard s g = some card) (h₁ : mayReach s (partOf g) (slotPa cx card x) = true)
    (h₂ : mayReach s (partOf g) (slotPa cx card x + slotBytes card.shape - 1) = true)
    (hc : closedByte s (partOf g) (slotPa cx card x) (slotBytes card.shape) = some a) :
    writeSlot s g x = reportAt s (chipOf (partOf g)) a := by
  simp only [writeSlot_eq hcx hcard, h₁, h₂, hc, Bool.not_true, Bool.or_self, Bool.false_eq_true, if_false]

theorem rdByte_writtenSlot {s : State} (hwf : s.mem.wf = true) (g pa n a : Nat) : rdByte (writtenSlot s g pa n).mem a =
    if physKey (chipOf (partOf g)) pa ≤ a ∧ a < physKey (chipOf (partOf g)) pa + n then
      Config.freeSaved s.freeCtr (a - physKey (chipOf (partOf g)) pa) else rdByte s.mem a := by
  unfold writtenSlot
  rw [sliceTouches_mem]
  exact rdByte_wrSpan _ _ _ _ hwf

theorem writtenSlot_freeCtr (s : State) (g pa n : Nat) : (writtenSlot s g pa n).freeCtr = s.freeCtr + 1 :=
  congrArg State.freeCtr (sliceTouches_chips { s with mem := _, freeCtr := s.freeCtr + 1 } true 0 _)

theorem writtenSlot_keeps (s : State) (g pa n : Nat) :
    { writtenSlot s g pa n with mem := s.mem, freeCtr := s.freeCtr, chips := s.chips } = s :=
  congrArg (fun t : State => { t with mem := s.mem, freeCtr := s.freeCtr })
    (sliceTouches_chips { s with mem := _, freeCtr := s.freeCtr + 1 } true 0 _)

/-! ## Cores that are asked to be vacated (R299) -/

/-- A live warp of one of some groups is asked to stop. -/
def askIn (gs : List Nat) (w : Nat × Warp) : Nat × Warp :=
  if groupKey w.1 ∈ gs ∧ isLive w.2 then (w.1, { w.2 with preReq := true }) else w

theorem map_askIn_nil (l : List (Nat × Warp)) : l.map (askIn []) = l := by
  refine (List.map_congr_left fun w _ => ?_).trans (List.map_id l)
  simp [askIn]

theorem askIn_askIn (gs hs : List Nat) (w : Nat × Warp) : askIn hs (askIn gs w) = askIn (gs ++ hs) w := by
  by_cases hl : isLive w.2 = true
  · have hl' : isLive { w.2 with preReq := true } = true := hl
    by_cases hg : groupKey w.1 ∈ gs <;> by_cases hh : groupKey w.1 ∈ hs <;> simp [askIn, hg, hh, hl, hl']
  · simp [askIn, hl]

/-- Asks for one group to be saved. -/
def askGroup (a : Ask) (s : State) (g : Nat) : State :=
  { updGroup s g (fun g => { g with ask := some a }) with
    warps := s.warps.map fun w => if groupKey w.1 = g ∧ isLive w.2 then (w.1, { w.2 with preReq := true }) else w }

/-- Where each group is. -/
def groupPlaces (s : State) : List (Nat × Nat × Option Nat) := s.groups.map fun e => (e.1, e.2.chip, e.2.core)

theorem groupPlaces_askGroup (a : Ask) (s : State) (g : Nat) : groupPlaces (askGroup a s g) = groupPlaces s := by
  have hmod (m : KMap Group) (k : Nat) : (kmodify m k fun g => { g with ask := some a }).map (fun e => (e.1, e.2.chip, e.2.core)) =
      m.map fun e => (e.1, e.2.chip, e.2.core) := by
    induction m with
    | nil => rfl
    | cons e m ih =>
      unfold kmodify
      split <;> simp [ih]
  exact hmod s.groups (groupKey g)

/-- The groups on a core, by key. -/
def coreKeys (s : State) (c n : Nat) : List Nat := (onCore s c n).map (·.1)

theorem coreKeys_eq (s : State) (c n : Nat) :
    coreKeys s c n = ((groupPlaces s).filter fun e => e.2.1 == c && e.2.2 == some n).map (·.1) := by
  simp [coreKeys, onCore, groupPlaces, List.filter_map, Function.comp_def]

theorem mem_coreKeys {s : State} {c n k : Nat} : k ∈ coreKeys s c n ↔ ∃ g, (k, g) ∈ s.groups ∧ g.chip = c ∧ g.core = some n := by
  simp [coreKeys, onCore]

theorem foldl_askGroup (a : Ask) (gs : List Nat) (s : State) :
    groupPlaces (gs.foldl (askGroup a) s) = groupPlaces s ∧ (gs.foldl (askGroup a) s).warps = s.warps.map (askIn gs) := by
  induction gs generalizing s with
  | nil => exact ⟨rfl, (map_askIn_nil _).symm⟩
  | cons g gs ih =>
    obtain ⟨hplaces, hwarps⟩ := ih (askGroup a s g)
    refine ⟨hplaces.trans (groupPlaces_askGroup a s g), hwarps.trans ?_⟩
    have hone : (askGroup a s g).warps = s.warps.map (askIn [g]) := by simp [askGroup, askIn]
    rw [hone, List.map_map]
    exact List.map_congr_left fun w _ => askIn_askIn [g] gs w

theorem askCores_cons (s : State) (c n : Nat) (ns : List Nat) (a : Ask) :
    askCores s c (n :: ns) a = askCores ((coreKeys s c n).foldl (askGroup a) s) c ns a := by
  have hcore : (coreKeys s c n).foldl (askGroup a) s = (onCore s c n).foldl (fun s e => askGroup a s e.1) s := List.foldl_map
  rw [hcore]
  rfl

/-- To vacate cores is to ask the live warps of the groups on them to stop. -/
theorem askCores_warps (s : State) (c : Nat) (ns : List Nat) (a : Ask) :
    (askCores s c ns a).warps = s.warps.map (askIn (ns.flatMap (coreKeys s c))) := by
  induction ns generalizing s with
  | nil => exact (map_askIn_nil _).symm
  | cons n ns ih =>
    obtain ⟨hplaces, hwarps⟩ := foldl_askGroup a (coreKeys s c n) s
    have hkeys : coreKeys ((coreKeys s c n).foldl (askGroup a) s) c = coreKeys s c := by
      funext m
      rw [coreKeys_eq _ c m, hplaces, ← coreKeys_eq]
    rw [askCores_cons, ih, hkeys, hwarps, List.map_map, List.flatMap_cons]
    exact List.map_congr_left fun w _ => askIn_askIn _ _ w

/-- A warp is asked to stop only if it is live and its group is on one of the cores. -/
theorem askCores_only {s : State} {c : Nat} {ns : List Nat} {a : Ask} {e : Nat × Warp} (h : e ∈ (askCores s c ns a).warps) :
    ∃ v, (e.1, v) ∈ s.warps ∧ (e.2 = v ∨ e.2 = { v with preReq := true } ∧ isLive v = true ∧
      ∃ n ∈ ns, ∃ g, (groupKey e.1, g) ∈ s.groups ∧ g.chip = c ∧ g.core = some n) := by
  rw [askCores_warps] at h
  obtain ⟨⟨k, v⟩, hv, rfl⟩ := List.mem_map.1 h
  unfold askIn
  split
  · rename_i hask
    obtain ⟨n, hn, hk⟩ := List.mem_flatMap.1 hask.1
    exact ⟨v, hv, .inr ⟨rfl, hask.2, n, hn, mem_coreKeys.1 hk⟩⟩
  · exact ⟨v, hv, .inl rfl⟩

theorem askCores_asked {s : State} {c k n : Nat} {ns : List Nat} {v : Warp} {g : Group} (a : Ask) (hv : (k, v) ∈ s.warps)
    (hl : isLive v = true) (hn : n ∈ ns) (hg : (groupKey k, g) ∈ s.groups) (hc : g.chip = c) (hcore : g.core = some n) :
    (k, { v with preReq := true }) ∈ (askCores s c ns a).warps := by
  rw [askCores_warps]
  refine List.mem_map.2 ⟨(k, v), hv, if_pos ⟨?_, hl⟩⟩
  exact List.mem_flatMap.2 ⟨n, hn, mem_coreKeys.2 ⟨g, hg, hc, hcore⟩⟩

/-! ## Pre-emption (R204, R299) -/

/-- A pre-emption that a partition of a chip makes now, if it vacates just these cores. -/
def spatialAt (s : State) (c : Nat) (ns : List Nat) (i : Nat) : Option (Nat × Ask × Option Work) :=
  match spatialCores s (c * 8 + i) with
  | some (xs, a, w) => if xs = ns then some (c * 8 + i, a, w) else none
  | none => none

theorem spatialAt_none {s : State} {c i : Nat} {ns : List Nat} (h : ∀ a w, spatialCores s (c * 8 + i) ≠ some (ns, a, w)) :
    spatialAt s c ns i = none := by
  unfold spatialAt
  split
  · rename_i xs a w hs
    refine if_neg ?_
    rintro rfl
    exact h a w hs
  · rfl

theorem spatialAt_some {s : State} {c i : Nat} {ns : List Nat} {a : Ask} {w : Option Work}
    (h : spatialCores s (c * 8 + i) = some (ns, a, w)) : spatialAt s c ns i = some (c * 8 + i, a, w) := by
  simp only [spatialAt, h, if_true]

theorem findSome?_range_first {α : Type} {f : Nat → Option α} {n i : Nat} {x : α} (hi : i < n) (h : ∀ j, j < i → f j = none)
    (hx : f i = some x) : (List.range n).findSome? f = some x := by
  obtain ⟨m, rfl⟩ := Nat.exists_eq_add_of_lt hi
  rw [Nat.add_assoc, List.range_add, List.range_succ_eq_map]
  exact List.findSome?_eq_some_iff.2 ⟨List.range i, i, _, rfl, hx, fun j hj => h j (List.mem_range.1 hj)⟩

/-- What follows once a pre-emption's cores are asked for: a group that holds the floor takes the vacated core at once. -/
def spatialThen (s : State) (c : Nat) (ns : List Nat) (p : Nat) (w : Option Work) : State :=
  match w, ns with
  | some (.fresh ck), [n] =>
    let s := updCard s ck fun x => { x with chunkCore := if x.chunkCore.isSome then some n else none }
    if (onCore s c n).isEmpty then placeOn s p (.fresh ck) n else s
  | some x, [n] => if (onCore s c n).isEmpty then placeOn s p x n else s
  | _, _ => placeMany s p ns

theorem spatial_eq (s : State) (c : Nat) (ns : List Nat) : spatial s c ns =
    match (List.range 8).findSome? (spatialAt s c ns) with
    | none => s
    | some (p, a, w) => spatialThen (vacate s c ns a) c ns p w := rfl

theorem spatial_none {s : State} {c : Nat} {ns : List Nat} (h : ∀ i, i < 8 → spatialAt s c ns i = none) : spatial s c ns = s := by
  have hnone : (List.range 8).findSome? (spatialAt s c ns) = none :=
    List.findSome?_eq_none_iff.2 fun i hi => h i (List.mem_range.1 hi)
  rw [spatial_eq, hnone]

theorem spatial_some {s : State} {c i : Nat} {ns : List Nat} {a : Ask} {w : Option Work} (hi : i < 8)
    (h : ∀ j, j < i → spatialAt s c ns j = none) (hs : spatialAt s c ns i = some (c * 8 + i, a, w)) :
    spatial s c ns = spatialThen (honourPre (askCores s c ns a) c) c ns (c * 8 + i) w := by
  rw [spatial_eq, findSome?_range_first hi h hs]
  rfl

theorem waitExpiry_none {s : State} {ck : Nat} (h : waitCores s ck = []) : waitExpiry s ck = s := by
  simp only [waitExpiry, h]

theorem waitExpiry_some {s : State} {ck : Nat} (h : waitCores s ck ≠ []) : waitExpiry s ck =
    placeMany (vacate s (chipOf (partOf ck)) (waitCores s ck) (.wait ck)) (partOf ck) (waitCores s ck) := by
  unfold waitExpiry
  dsimp only
  split
  · contradiction
  · rfl

/-! ## O56 -/

/-- Settles O56: each act by the rule that says what it does, a save from the standing of the group's warps one after another, and a
request to vacate cores from the warps that each core's groups have. -/
theorem groupsArePlacedAndSaved : Obligations.GroupsArePlacedAndSaved := by
  unfold Obligations.GroupsArePlacedAndSaved
  refine ⟨?placement, ?placed, ?saved, ?slot, fun _ _ => rfl, ?asked, fun _ _ _ => rfl, ?spatial, ?wait⟩
  case placement =>
    intro s p u
    have hnone (h : ∀ a ∈ readyWork u p, workCore u p a = none) : exec (.groupPlacement p) s = .next u :=
      congrArg Host.Outcome.next (placeNext_none h)
    exact ⟨fun h => hnone (by simp [h]), hnone, fun l a r n hw hl ha => congrArg Host.Outcome.next (placeNext_first hw hl ha)⟩
  case placed =>
    intro s p n c cleared fresh entries
    refine ⟨fun g => ?_, fun ck card x hc hx => by simp only [placeOn, hc, hx]⟩
    show replace s g c n = _
    unfold replace
    dsimp only
    rw [freshL1_eq]
    rfl
  case saved =>
    intro s g x n hg hkey hcore hdist hsav hq co
    have hx : getGroup s g = some x := by unfold getGroup; rw [hkey, hg]
    have hquiet : ∀ k ∈ liveKeys s g, ∃ w, getWarp s k = some w ∧ Quiet w := by
      intro k hk
      obtain ⟨w, hw, hkg, -⟩ := mem_liveKeys.1 hk
      exact ⟨w, kfind_of_mem hdist hw, hq _ hw hkg⟩
    obtain ⟨hgroups, hchips, hcards, hmem, hpubs⟩ := standAll_keeps s (liveKeys s g)
    refine ⟨savedState s g x n, saveGroup_quiet hx hcore hquiet, ?_, hmem, hpubs, hcards, ?_, ?_,
      fun k w hw hkg hl => ?_, fun k hk => ?_⟩
    · refine (kfind_kmodify ..).trans ?_
      rw [if_pos hkey.symm]
      show (kfind (standAll s (liveKeys s g)).groups g).map _ = _
      rw [hgroups, hg]
      rfl
    · exact (standAll_runs ..).trans (List.filter_congr fun k _ => not_contains_liveKeys s g k)
    · exact congrArg (fun m => sput Chip.reset m x.chip _) hchips
    · refine mem_of_kfind (m := (standAll s (liveKeys s g)).warps) ?_
      refine (getWarp_standAll ..).trans ?_
      rw [if_pos (mem_liveKeys.2 ⟨w, hw, hkg, hl⟩), show getWarp s k = some w from kfind_of_mem hdist hw]
      rfl
    · refine (getWarp_standAll ..).trans (if_neg fun hmem => ?_)
      obtain ⟨-, -, hkg, -⟩ := mem_liveKeys.1 hmem
      exact hk hkg
  case slot =>
    intro s g x cx card hcx hcard hwf p pa n key t
    refine ⟨fun h₁ h₂ hc => ?_, fun h => ?_, fun h₁ h₂ a hc => writeSlot_reported hcx hcard h₁ h₂ hc⟩
    · have ht : t = writtenSlot s g pa n := writeSlot_written hcx hcard h₁ h₂ hc
      rw [ht]
      exact ⟨rdByte_writtenSlot hwf g pa n, writtenSlot_freeCtr .., writtenSlot_keeps ..⟩
    · refine (writeSlot_eq hcx hcard).trans (if_pos ?_)
      rw [Bool.or_eq_true, Bool.not_eq_true', Bool.not_eq_true']
      exact h
  case asked =>
    exact fun s c ns a => ⟨fun e he => askCores_only he, fun k v n g hv hl hn hg hc hcore => askCores_asked a hv hl hn hg hc hcore⟩
  case spatial =>
    intro s c ns
    refine ⟨fun h => congrArg Host.Outcome.next (spatial_none fun i hi => spatialAt_none (h i hi)), ?_⟩
    intro i a w hi hlow hs p u
    have hthen : exec (.spatialPreemption c ns) s = .next (spatialThen u c ns p w) :=
      congrArg Host.Outcome.next (spatial_some hi (fun j hj => spatialAt_none (hlow j hj)) (spatialAt_some hs))
    rw [hthen]
    refine ⟨?_, ?_, ?_⟩
    · rintro rfl
      rfl
    · rintro g n rfl rfl
      simp only [spatialThen, List.isEmpty_iff]
    · rintro ck n rfl rfl
      simp only [spatialThen, List.isEmpty_iff]
  case wait =>
    exact fun s ck => ⟨fun h => congrArg Host.Outcome.next (waitExpiry_none h), fun h => congrArg Host.Outcome.next (waitExpiry_some h)⟩

end Sys2Proof.Machine
end

section
/-! PROOF. O4: the element-wise floating-point instructions round once and raise their flags (R108 to R111, R133 to R136). -/

namespace Sys2Proof.Machine

/-- The sign bit of a floating-point type is the highest of its element. -/
theorem fmtSign_tyFmt {t : Ty} (h : t ∈ Forms.tyF) : fmtSign (tyFmt t) = 2 ^ (tyBits t - 1) := by
  revert t
  decide

theorem vfabsOp_eq_floatRule {t : Ty} (h : t ∈ Forms.tyF) (mode : Nat) : vfabsOp t = floatRule .vfabs t mode := by
  funext a b c
  simp only [vfabsOp, floatRule, fmtSign_tyFmt h]

theorem vfnegOp_eq_floatRule {t : Ty} (h : t ∈ Forms.tyF) (mode : Nat) : vfnegOp t = floatRule .vfneg t mode := by
  funext a b c
  simp only [vfnegOp, floatRule, fmtSign_tyFmt h]

/-- The body of each of these operations writes the elements of R133 to R136. For all but `VFABS` and `VFNEG`, which speak of the
sign bit by the format and not by the type's width, the model's operation is the rule by definition. -/
theorem bodyOf_float {o : Op} {f : Long}
    (ho : o ∈ [.vfadd, .vfsub, .vfmul, .vffma, .vfmin, .vfmax, .vfabs, .vfneg, .vfclass, .vfrnd]) (ht : f.ty ∈ o.form.tys)
    (len : Nat) (s : State) (k : Nat) (w : Warp) :
    bodyOf o f len s k w = .retire (setWarp s k (elementwise w o f (floatRule o f.ty f.mod.toNat))) .next none id := by
  simp only [List.mem_cons, List.not_mem_nil, or_false] at ho
  rcases ho with rfl | rfl | rfl | rfl | rfl | rfl | rfl | rfl | rfl | rfl
  · rfl
  · rfl
  · rfl
  · rfl
  · rfl
  · rfl
  · rw [← vfabsOp_eq_floatRule ht]; rfl
  · rw [← vfnegOp_eq_floatRule ht]; rfl
  · rfl
  · rfl

/-- Settles O4: an encoding that performs is of a legal type, so its body writes the elements of the rules (`bodyOf_float`), and an
element-wise write retires over its warp's registers alone. -/
theorem floatInstructionsWriteRoundedElements : Obligations.FloatInstructionsWriteRoundedElements := by
  intro i s s1 k len o f w h ho
  exact regOp_law h (bodyOf_float ho (legal_ty (performs_legal h)) len s1 k w) (elementwise_effect ..)

end Sys2Proof.Machine
end

section
/-! PROOF. O2: the element-wise integer instructions write the elements of R129. -/

namespace Sys2Proof.Machine

/-! ## Operations that the model words otherwise than R129 -/

theorem tyLo_le_tyHi (t : Ty) : tyLo t ≤ tyHi t := by
  unfold tyLo tyHi
  have := Nat.two_pow_pos (tyBits t - 1)
  have := Nat.two_pow_pos (tyBits t)
  split <;> omega

/-- Clamping by `max` and `min` is the three cases of R129: below the range, above it, within it. -/
theorem clampOp_eq (t : Ty) (x : Int) : clampOp t x =
    if x < tyLo t then (wrapN (tyBits t) (tyLo t), 32)
    else if tyHi t < x then (wrapN (tyBits t) (tyHi t), 32) else (wrapN (tyBits t) x, 0) := by
  have h := tyLo_le_tyHi t
  unfold clampOp flSAT
  by_cases hl : x < tyLo t
  · have hy : max (tyLo t) (min (tyHi t) x) = tyLo t := by omega
    simp [hy, hl, hl.ne']
  · by_cases hh : tyHi t < x
    · have hy : max (tyLo t) (min (tyHi t) x) = tyHi t := by omega
      simp [hy, hl, hh, hh.ne]
    · have hy : max (tyLo t) (min (tyHi t) x) = x := by omega
      simp [hy, hl, hh]

theorem vaddsOp_eq_intRule (t : Ty) : vaddsOp t = intRule .vadds t := by
  funext a b c
  exact clampOp_eq t _

theorem vsubsOp_eq_intRule (t : Ty) : vsubsOp t = intRule .vsubs t := by
  funext a b c
  exact clampOp_eq t _

theorem vmulhOp_eq_intRule (t : Ty) : vmulhOp t = intRule .vmulh t := by
  funext a b c
  simp only [vmulhOp, wrapOp, intRule, Nat.cast_pow, Nat.cast_ofNat]

theorem vabsOp_eq_intRule (t : Ty) : vabsOp t = intRule .vabs t := by
  funext a b c
  have h (x : Int) : (if x < 0 then -x else x) = (x.natAbs : Int) := by split <;> omega
  simp only [vabsOp, wrapOp, intRule, h]

theorem vsraOp_eq_intRule (t : Ty) : vsraOp t = intRule .vsra t := by
  funext a b c
  simp only [vsraOp, bitOp, sraN, intRule, Nat.cast_pow, Nat.cast_ofNat]

theorem vpopcOp_eq_intRule (t : Ty) : vpopcOp t = intRule .vpopc t := by
  funext a b c
  simp only [vpopcOp, bitOp, bitsOf, intRule, ← List.countP_eq_length_filter, List.countP_map]
  rfl

/-- Reading the bits of `a` from the lowest, each doubling what came before, gives bit `i` the weight of bit `n - 1 - i`. -/
theorem foldl_bitsOf (n a : Nat) : (bitsOf n a).foldl (fun r b => 2 * r + if b then 1 else 0) 0 =
    ((List.range n).map fun i => if a.testBit i then 2 ^ (n - 1 - i) else 0).sum := by
  induction n with
  | zero => rfl
  | succ n ih =>
    have hdouble : ((List.range n).map fun i => if a.testBit i then 2 ^ (n + 1 - 1 - i) else 0).sum =
        2 * ((List.range n).map fun i => if a.testBit i then 2 ^ (n - 1 - i) else 0).sum := by
      rw [← List.sum_map_mul_left]
      refine congrArg List.sum (List.map_congr_left fun i hi => ?_)
      have hexp : n + 1 - 1 - i = (n - 1 - i) + 1 := by have := List.mem_range.1 hi; omega
      rw [hexp, pow_succ]
      split <;> omega
    simp only [bitsOf, List.range_succ, List.map_append, List.foldl_append, List.sum_append, hdouble] at ih ⊢
    simp [ih]

theorem vbrevOp_eq_intRule (t : Ty) : vbrevOp t = intRule .vbrev t := by
  funext a b c
  exact congrArg (·, 0) (foldl_bitsOf (tyBits t) a)

/-! ## O2 -/

/-- The body of each of these operations writes the elements of R129: by definition, or by the lemma on its wording. -/
theorem bodyOf_int {o : Op}
    (ho : o ∈ [.vadd, .vsub, .vadds, .vsubs, .vmul24, .vmad24, .vmul, .vmulh, .vmad, .vmin, .vmax, .vabs, .vand, .vor, .vxor,
      .vnot, .vshl, .vshr, .vsra, .vrot, .vpopc, .vclz, .vbrev]) (f : Long) (len : Nat) (s : State) (k : Nat) (w : Warp) :
    bodyOf o f len s k w = .retire (setWarp s k (elementwise w o f (intRule o f.ty))) .next none id := by
  simp only [List.mem_cons, List.not_mem_nil, or_false] at ho
  rcases ho with rfl | rfl | rfl | rfl | rfl | rfl | rfl | rfl | rfl | rfl | rfl | rfl | rfl | rfl | rfl | rfl | rfl | rfl | rfl |
    rfl | rfl | rfl | rfl
  · rfl
  · rfl
  · rw [← vaddsOp_eq_intRule]; rfl
  · rw [← vsubsOp_eq_intRule]; rfl
  · rfl
  · rfl
  · rfl
  · rw [← vmulhOp_eq_intRule]; rfl
  · rfl
  · rfl
  · rfl
  · rw [← vabsOp_eq_intRule]; rfl
  · rfl
  · rfl
  · rfl
  · rfl
  · rfl
  · rfl
  · rw [← vsraOp_eq_intRule]; rfl
  · rfl
  · rw [← vpopcOp_eq_intRule]; rfl
  · rfl
  · rw [← vbrevOp_eq_intRule]; rfl

/-- Settles O2: the body of an element-wise integer instruction writes the elements of the rule (`bodyOf_int`), which leaves its
warp's course alone. -/
theorem integerInstructionsWriteTheirElements : Obligations.IntegerInstructionsWriteTheirElements := by
  intro i s s1 k len o f w h ho
  exact regOp_law h (bodyOf_int ho f len s1 k w) (elementwise_effect ..)

end Sys2Proof.Machine
end

section
/-! PROOF. O3: bit fields, selection, moves and comparisons of integers write the active lanes (R130, R131). -/

namespace Sys2Proof.Machine

/-- As `regOp_law`, for a warp `u` that the rules word otherwise than the body does. -/
theorem regOp_congr {i : Instr} {s s1 : State} {k len : Nat} {o : Op} {f : Long} {w u v : Warp} (h : Performs i s k o f len s1 w)
    (hb : bodyOf o f len s1 k w = .retire (setWarp s1 k v) .next none id) (hr : RegEffect w v) (hu : v = u) :
    Retires i s k o f len s1 u := by
  subst hu
  exact regOp_law h hb hr

/-- The bodies of `VBFE` and `VBFI` write the field of R130 in each active lane. -/
theorem bodyOf_bitField {o : Op} (ho : o ∈ [.vbfe, .vbfi]) (f : Long) (len : Nat) (s : State) (k : Nat) (w : Warp) :
    bodyOf o f len s k w = .retire (setWarp s k (perLane w (activeL w o f) f.ty f.d.toNat fun l =>
      (fieldRule o f.ty (rdReg w f.ty f.a.toNat l) (rdB1 w f l) (rdReg w f.ty f.c.toNat l), 0))) .next none id := by
  simp only [List.mem_cons, List.not_mem_nil, or_false] at ho
  rcases ho with rfl | rfl
  · rfl
  · rfl

/-- `VCMP` compares by the codes of R126 in each active lane. -/
theorem vcmpOp_eq (f : Long) (w : Warp) : vcmpOp f w = perLaneP w (activeL w .vcmp f) f.d.toNat fun l =>
    (compares f.fn.toNat (tyVal f.ty (rdReg w f.ty f.a.toNat l)) (tyVal f.ty (rdB w f.ty f l)), 0) := by
  simp only [vcmpOp, cmpInt_eq]

/-- Settles O3: each of these bodies writes its result in the active lanes, a register or a predicate bit of each. -/
theorem fieldSelectMoveCompareWriteActiveLanes : Obligations.FieldSelectMoveCompareWriteActiveLanes := by
  intro i s s1 k len o f w h lanes a b
  refine ⟨fun ho => ?field, fun ho => ?sel, fun ho => ?mov, fun ho => ?movBc, fun ho => ?cmp⟩
  case field => exact regOp_law h (bodyOf_bitField ho f len s1 k w) (perLane_effect ..)
  case sel => subst ho; exact regOp_law h rfl (perLane_effect ..)
  case mov => subst ho; exact regOp_law h rfl (perLane_effect ..)
  case movBc => subst ho; exact regOp_law h rfl (perLane_effect ..)
  case cmp => subst ho; exact regOp_congr h rfl (perLaneP_effect ..) (vcmpOp_eq f w)

end Sys2Proof.Machine
end

section
/-! PROOF. O5: float comparison, scaling, dot product, conversion and block floating point (R123, R135 to R139). -/

namespace Sys2Proof.Machine

/-- `VCVT` rounds once per element, whose source type stands in `C`. -/
theorem vcvtOp_eq {f : Long} {src : Ty} (hsrc : Ty.ofCode f.c.toNat = some src) (w : Warp) : vcvtOp f w =
    perLane w (activeL w .vcvt f) f.ty f.d.toNat fun l =>
      let x := rdReg w src f.a.toNat l
      let one (e : Nat) : Nat × Nat := roundTo f.ty f.mod.toNat (valOf src e)
      if tyBits f.ty = 16 then
        if tyBits src = 16 then packTwo (one (elemOf src x 0)) (one (elemOf src x 1))
        else packTwo (one x) (one (rdReg w src f.b.toNat l))
      else if tyBits src = 16 then one (elemOf src x f.fn.toNat)
      else one x := by
  simp only [vcvtOp, hsrc, Option.getD_some, cvt]

theorem vbfpqOp_effect (f : Long) (w : Warp) : RegEffect w (vbfpqOp f w) :=
  .foldl (fun v _ => ((wrRun_effect v ..).trans (wrV_effect ..)).trans (raiseFp_effect ..)) (activeL w .vbfpq f) w

theorem vbfpxOp_effect (f : Long) (w : Warp) : RegEffect w (vbfpxOp f w) :=
  .foldl (fun v _ => (wrRun_effect v ..).trans (raiseFp_effect ..)) (activeL w .vbfpx f) w

/-- Settles O5: each of these bodies reads its sources from the warp as it performs and writes the active lanes. -/
theorem floatCompareScaleConvertWriteActiveLanes : Obligations.FloatCompareScaleConvertWriteActiveLanes := by
  intro i s s1 k len o f w h lanes a mode
  refine ⟨fun ho => ?cmp, fun ho => ?scale, fun ho => ?dot2, fun ho src hsrc => ?cvt, fun ho => ?bfpq, fun ho => ?bfpx⟩ <;>
    subst ho
  case cmp => exact regOp_law h rfl (perLaneP_effect ..)
  case scale => exact regOp_law h rfl (perLane_effect ..)
  case dot2 => exact regOp_law h rfl (perLane_effect ..)
  case cvt => exact regOp_congr h rfl (perLane_effect ..) (vcvtOp_eq hsrc w)
  case bfpq => exact regOp_law h rfl (vbfpqOp_effect f w)
  case bfpx => exact regOp_law h rfl (vbfpxOp_effect f w)

end Sys2Proof.Machine
end

section
/-! PROOF. O6: shuffles, broadcasts, matches, votes and predicate logic (R142, R143, R146, R147). -/

namespace Sys2Proof.Machine

/-! ## Broadcasts and predicate logic (R142, R147) -/

theorem rdSB_eq_scalarB (w : Warp) (f : Long) : rdSB w f = scalarB w f := by
  unfold rdSB scalarB
  cases f.lit <;> rfl

theorem vbcastOp_eq (f : Long) (w : Warp) : vbcastOp f w =
    perLane w (activeL w .vbcast f) f.ty f.d.toNat fun _ => (rdReg w f.ty f.a.toNat ((scalarB w f).toNat % w.width), 0) := by
  rw [vbcastOp, bcastVal, rdSB_eq_scalarB]

theorem vbcastSOp_eq (f : Long) (w : Warp) : vbcastSOp f w =
    wrS w f.d.toNat (BitVec.ofNat 64 (rdReg w f.ty f.a.toNat ((scalarB w f).toNat % w.width))) := by
  rw [vbcastSOp, bcastVal, rdSB_eq_scalarB]

/-- `PLOP` looks its two bits up in the truth table. -/
theorem plopOp_eq (f : Long) (w : Warp) : plopOp f w = perLaneP w (activeL w .plop f) f.d.toNat fun l =>
    (f.imm.getLsbD (2 * ((rdP w f.a.toNat).getLsbD l).toNat + ((rdP w f.b.toNat).getLsbD l).toNat), 0) := by
  simp only [plopOp, Bool.toNat, cond_eq_ite]

/-! ## Votes (R143) -/

/-- Two warps that run the same lanes in the same width. -/
structure SameLanes (w v : Warp) : Prop where
  width : v.width = w.width
  frags : v.frags = w.frags
  run : v.run = w.run

theorem SameLanes.refl (w : Warp) : SameLanes w w := ⟨rfl, rfl, rfl⟩

theorem SameLanes.trans {u v w : Warp} (h : SameLanes u v) (g : SameLanes v w) : SameLanes u w :=
  ⟨g.width.trans h.width, g.frags.trans h.frags, g.run.trans h.run⟩

theorem SameLanes.curLanes {w v : Warp} (h : SameLanes w v) : curLanes v = curLanes w := by
  simp only [Machine.curLanes, curFrag, h.frags, h.run]

theorem wrS_sameLanes (w : Warp) (r : Nat) (x : Dword) : SameLanes w (wrS w r x) := ⟨wrS_width .., wrS_frags .., wrS_run ..⟩

theorem wrPBit_sameLanes (w : Warp) (r l : Nat) (b : Bool) : SameLanes w (wrPBit w r l b) := by
  unfold wrPBit wrP
  split <;> exact ⟨rfl, rfl, rfl⟩

theorem raiseFp_sameLanes (w : Warp) (n : Nat) : SameLanes w (raiseFp w n) := ⟨rfl, rfl, rfl⟩

theorem perLaneP_sameLanes (w : Warp) (ls : List Nat) (d : Nat) (g : Nat → Bool × Nat) : SameLanes w (perLaneP w ls d g) := by
  unfold perLaneP
  induction ls generalizing w with
  | nil => exact .refl w
  | cons l ls ih => exact ((wrPBit_sameLanes w d l _).trans (raiseFp_sameLanes ..)).trans (ih _)

/-- `ABSENT` is set after the result by the lanes that stood before it, since writing the result moves no lane. -/
theorem voteAbsent_eq {w v : Warp} (h : SameLanes w v) :
    voteAbsent v = if curLanes w = fullMask w.width then v else { v with jstat := v.jstat ||| 2 } := by
  rw [voteAbsent, h.curLanes, h.width]

theorem voteAbsent_effect (w : Warp) : RegEffect w (voteAbsent w) := by
  unfold voteAbsent
  split
  · exact .refl w
  · exact ⟨rfl, rfl⟩

/-! ## O6 -/

/-- Settles O6: each of these bodies writes lanes, predicate bits or a scalar register, and a vote `%jstat` after it. -/
theorem crossLaneInstructionsWriteTheirResult : Obligations.CrossLaneInstructionsWriteTheirResult := by
  intro i s s1 k len o f w h lanes a votes absent
  refine ⟨fun ho => ?shfl, fun ho => ?bcast, fun ho => ?bcastS, fun ho => ?same, fun ho => ?plop, fun ho => ?pmovPs,
    fun ho => ?pmovSp, fun ho => ?vote, fun ho => ?ballot⟩ <;> subst ho
  case shfl => exact regOp_law h rfl (perLane_effect ..)
  case bcast => exact regOp_congr h rfl (perLane_effect ..) (vbcastOp_eq f w)
  case bcastS => exact regOp_congr h rfl (wrS_effect ..) (vbcastSOp_eq f w)
  case same => exact regOp_law h rfl (perLaneP_effect ..)
  case plop => exact regOp_congr h rfl (perLaneP_effect ..) (plopOp_eq f w)
  case pmovPs => exact regOp_law h rfl (wrS_effect ..)
  case pmovSp => exact regOp_law h rfl (perLaneP_effect ..)
  case vote =>
    exact regOp_congr h rfl ((perLaneP_effect ..).trans (voteAbsent_effect _)) (voteAbsent_eq (perLaneP_sameLanes ..))
  case ballot => exact regOp_congr h rfl ((wrS_effect ..).trans (voteAbsent_effect _)) (voteAbsent_eq (wrS_sameLanes ..))

end Sys2Proof.Machine
end

section
/-! PROOF. O7: reductions combine in the fixed tree (R144), scans from the lowest active lane upwards (R145). -/

namespace Sys2Proof.Machine

/-! ## One combination -/

/-- An integer read from `n` bits has the residue of the bits. -/
theorem intOf_modEq (sgn : Bool) (n x : Nat) : intOf sgn n x ≡ x [ZMOD (2 ^ n : Nat)] := by
  have hmod : ((x % 2 ^ n : Nat) : Int) ≡ x [ZMOD (2 ^ n : Nat)] := by
    rw [Int.natCast_mod]
    exact Int.mod_modEq _ _
  unfold intOf
  dsimp only
  split
  · exact (Int.modEq_sub_modulus_iff.2 rfl).symm.trans hmod
  · exact hmod

/-- A wrapped sum is the same whether or not its operands are read as signed. -/
theorem wrapN_tyVal_add (t : Ty) (u v : Nat) : wrapN (tyBits t) (tyVal t u + tyVal t v) = wrapN (tyBits t) ((u : Int) + v) :=
  congrArg Int.toNat ((intOf_modEq (tySigned t) (tyBits t) u).add (intOf_modEq (tySigned t) (tyBits t) v))

/-- On the types of `VRDC` and `VSCAN` the model's combination is that of R144. -/
theorem combM_eq_combRule {t : Ty} (ht : t ∈ Forms.tyR) (op mode u v : Nat) : combM op mode t u v = combRule op mode t u v := by
  have hraw : (t == .b32) = false := by revert t; decide
  unfold combM combRule comb
  cases hint : tyInt t
  case false =>
    match op with
    | 0 => rfl
    | 1 => simp [hraw, floatRule]
    | _ + 2 => simp [hraw, floatRule]
  case true =>
    match op with
    | 0 => exact congrArg (·, 0) (wrapN_tyVal_add t u v).symm
    | 1 => rfl
    | 2 => rfl
    | 3 => rfl
    | 4 => rfl
    | _ + 5 => rfl

theorem scanIdent_eq_identityRule {t : Ty} (ht : t ∈ Forms.tyR) (op : Nat) : scanIdent op t = identityRule op t := by
  match op with
  | 0 => rfl
  | 1 => rfl
  | 2 =>
    show (if tyInt t then wrapN (tyBits t) (tyLo t) else fneg true (tyFmt t) (fmtInf (tyFmt t))) =
      if tyInt t then wrapN (tyBits t) (tyLo t) else 2 ^ (tyBits t - 1) + fmtInf (tyFmt t)
    cases hint : tyInt t
    case false =>
      have hfloat : t ∈ Forms.tyF := by revert t; decide
      have hsign : fneg true (tyFmt t) (fmtInf (tyFmt t)) = 2 ^ (tyBits t - 1) + fmtInf (tyFmt t) := by
        rw [← fmtSign_tyFmt hfloat]
        exact Nat.add_comm _ _
      exact hsign
    case true => rfl
  | 3 => rfl
  | _ + 4 => rfl

/-! ## The union of flags -/

theorem orAll_append (l r : List Nat) : orAll (l ++ r) = orAll l ||| orAll r := by
  rw [orAll, List.foldl_append, ← orAll, ← Nat.or_zero (orAll l), List.foldl_assoc, Nat.or_zero]
  rfl

theorem orAll_cons (x : Nat) (l : List Nat) : orAll (x :: l) = x ||| orAll l := by
  rw [← List.singleton_append, orAll_append]
  simp [orAll]

theorem orAll_eq_zero {l : List Nat} (h : ∀ x ∈ l, x = 0) : orAll l = 0 := by
  induction l with
  | nil => rfl
  | cons x l ih =>
    obtain ⟨hx, hl⟩ := List.forall_mem_cons.1 h
    rw [orAll_cons, hx, ih hl, Nat.or_zero]

/-! ## The tree (R144) -/

/-- What positions `2j` and `2j + 1` of a level combine to, with the flags of that combination. -/
def pairUp (op mode : Nat) (t : Ty) (leaf : Nat → Option Nat) (j : Nat) : Option Nat × Nat :=
  combE op mode t (leaf (2 * j)) (leaf (2 * j + 1))

theorem combE_none_right (op mode : Nat) (t : Ty) (x : Option Nat) : combE op mode t x none = (x, 0) := by
  cases x <;> rfl

/-- One more level of the tree of R144, by the model's combination of positions that may be empty. -/
theorem reduceAt_succ {t : Ty} (ht : t ∈ Forms.tyR) (op mode : Nat) (leaf : Nat → Option Nat) (h i : Nat) :
    reduceAt (combRule op mode t) leaf (h + 1) i =
      let x := reduceAt (combRule op mode t) leaf h i
      let y := reduceAt (combRule op mode t) leaf h (i + 2 ^ h)
      let z := combE op mode t x.1 y.1
      (z.1, x.2 ||| y.2 ||| z.2) := by
  simp only [reduceAt]
  generalize reduceAt (combRule op mode t) leaf h i = x
  generalize reduceAt (combRule op mode t) leaf h (i + 2 ^ h) = y
  obtain ⟨_ | u, g⟩ := x <;> obtain ⟨_ | v, g'⟩ := y <;> simp [combE, combM_eq_combRule ht]

/-- The tree over positions is the tree, one level lower, over their pairs; its flags are those and the flags of the pairs. -/
theorem reduceAt_pairUp {t : Ty} (ht : t ∈ Forms.tyR) (op mode : Nat) (leaf : Nat → Option Nat) (h i : Nat) :
    reduceAt (combRule op mode t) leaf (h + 1) (2 * i) =
      let r := reduceAt (combRule op mode t) (fun j => (pairUp op mode t leaf j).1) h i
      (r.1, r.2 ||| orAll ((List.range' i (2 ^ h)).map fun j => (pairUp op mode t leaf j).2)) := by
  induction h generalizing i with
  | zero =>
    rw [reduceAt_succ ht]
    simp [reduceAt, pairUp, orAll]
  | succ h ih =>
    have hmid : 2 * i + 2 ^ (h + 1) = 2 * (i + 2 ^ h) := by ring
    have hcut : List.range' i (2 ^ (h + 1)) = List.range' i (2 ^ h) ++ List.range' (i + 2 ^ h) (2 ^ h) := by
      rw [List.range'_append_1, pow_succ, Nat.mul_two]
    rw [reduceAt_succ ht _ _ leaf, hmid, ih, ih, reduceAt_succ ht _ _ _ h, hcut, List.map_append, orAll_append]
    simp only [Prod.mk.injEq, true_and]
    ac_rfl

theorem getD_treeLevel (op mode : Nat) (t : Ty) (l : List (Option Nat)) (j : Nat) :
    (treeLevel op mode t l).1.getD j none = (pairUp op mode t (l.getD · none) j).1 := by
  match l, j with
  | [], _ => simp [treeLevel, pairUp, combE]
  | [x], 0 => simp [treeLevel, pairUp, combE_none_right]
  | [x], _ + 1 => simp [treeLevel, pairUp, combE_none_right]
  | x :: y :: r, 0 => simp [treeLevel, pairUp]
  | x :: y :: r, j + 1 => simpa [treeLevel, pairUp, Nat.mul_add] using getD_treeLevel op mode t r j

/-- A level raises the flags of its pairs, of which those beyond the values raise none. -/
theorem flags_treeLevel (op mode : Nat) (t : Ty) (l : List (Option Nat)) (m : Nat)
    (hm : ∀ i, 2 * m ≤ i → l.getD i none = none) :
    (treeLevel op mode t l).2 = orAll ((List.range m).map fun j => (pairUp op mode t (l.getD · none) j).2) := by
  match l, m with
  | [], m => exact (orAll_eq_zero (by simp [pairUp, combE])).symm
  | [x], m =>
    refine (orAll_eq_zero ?_).symm
    simp [pairUp, combE_none_right]
  | x :: y :: r, 0 =>
    have hx : x = none := hm 0 (by omega)
    have hy : y = none := hm 1 (by omega)
    have hr : (treeLevel op mode t r).2 = 0 := flags_treeLevel op mode t r 0 fun i _ => hm (i + 2) (by omega)
    simp [treeLevel, hx, hy, hr, combE, orAll]
  | x :: y :: r, m + 1 =>
    have hr := flags_treeLevel op mode t r m fun i hi => hm (i + 2) (by omega)
    rw [treeLevel, List.range_succ_eq_map, List.map_cons, List.map_map, orAll_cons]
    exact congrArg (_ ||| ·) hr

/-- The levels of the list are the levels of the tree of R144: its first position is the tree's, and all that its levels raise
is raised in that tree when no position beyond the tree holds a value. -/
theorem treeRun_eq_reduceAt {t : Ty} (ht : t ∈ Forms.tyR) (op mode n : Nat) (l : List (Option Nat))
    (hl : ∀ i, 2 ^ n ≤ i → l.getD i none = none) :
    ((treeRun op mode t n l).1.getD 0 none, (treeRun op mode t n l).2) =
      reduceAt (combRule op mode t) (l.getD · none) n 0 := by
  induction n generalizing l with
  | zero => rfl
  | succ n ih =>
    have hlevel : ∀ i, 2 ^ n ≤ i → (treeLevel op mode t l).1.getD i none = none := by
      intro i hi
      rw [getD_treeLevel, pairUp, hl _ (by omega), hl _ (by omega)]
      rfl
    have hflags := flags_treeLevel op mode t l (2 ^ n) fun i hi => hl i (by omega)
    have hrun := ih _ hlevel
    have hsplit := reduceAt_pairUp ht op mode (l.getD · none) n 0
    simp only [← getD_treeLevel, ← hrun, ← List.range_eq_range', ← hflags, Nat.mul_zero] at hsplit
    rw [hsplit, treeRun, Nat.lor_comm]

/-- The value of a lane that is active, at its place among the leaves of the tree. -/
def vrdcLeaf (f : Long) (w : Warp) (l : Nat) : Option Nat :=
  if l < w.width ∧ (active w .vrdc f).getLsbD l = true then some (rdReg w f.ty f.a.toNat l) else none

/-- The leaves as `vrdcOp` lists them. -/
def vrdcLeaves (f : Long) (w : Warp) : List (Option Nat) :=
  (List.range w.width).map fun l => if (active w .vrdc f).getLsbD l then some (rdReg w f.ty f.a.toNat l) else none

theorem getD_vrdcLeaves (f : Long) (w : Warp) (l : Nat) : (vrdcLeaves f w).getD l none = vrdcLeaf f w l := by
  unfold vrdcLeaves vrdcLeaf
  by_cases hl : l < w.width <;> simp [List.getD_eq_getElem?_getD, hl]

/-- `VRDC` writes the root of the tree over its lanes, and nothing where no lane is active. -/
theorem vrdcOp_eq {f : Long} (ht : f.ty ∈ Forms.tyR) (w : Warp) : vrdcOp f w =
    let tree := reduceAt (combRule f.fn.toNat f.mod.toNat f.ty) (vrdcLeaf f w) 6 0
    match tree.1 with
    | some x => raiseFp (wrS w f.d.toNat (BitVec.ofInt 64 (intOf (tySigned f.ty) (tyBits f.ty) x))) tree.2
    | none => w := by
  have hbeyond : ∀ i, 2 ^ 6 ≤ i → (vrdcLeaves f w).getD i none = none := by
    intro i hi
    rw [getD_vrdcLeaves, vrdcLeaf, BitVec.getLsbD_of_ge _ i hi]
    simp
  have hrun := treeRun_eq_reduceAt ht f.fn.toNat f.mod.toNat 6 (vrdcLeaves f w) hbeyond
  simp only [getD_vrdcLeaves] at hrun
  rw [← hrun]
  unfold vrdcOp vrdcLeaves
  dsimp only
  generalize treeRun _ _ _ _ _ = r
  obtain ⟨_ | ⟨_ | x, ys⟩, g⟩ := r <;> rfl

theorem vrdcOp_effect (f : Long) (w : Warp) : RegEffect w (vrdcOp f w) := by
  unfold vrdcOp
  dsimp only
  split
  · exact (wrS_effect ..).trans (raiseFp_effect ..)
  · exact .refl w

/-! ## Scans (R145) -/

theorem runOf_concat (c : Nat → Nat → Nat × Nat) (l : List Nat) (x : Nat) :
    runOf c (l ++ [x]) = some (match runOf c l with | some u => (c u x).1 | none => x) := by
  cases l <;> simp [runOf]

/-- What a lane gets of a scan whose running value below it is `run`, and the flags that its combination raises. -/
def scanLane (f : Long) (w : Warp) (run : Option Nat) (l : Nat) : Nat × Nat :=
  let a := rdReg w f.ty f.a.toNat
  let next := match run with | some u => combRule (f.fn.toNat % 8) f.mod.toNat f.ty u (a l) | none => (a l, 0)
  (if 8 ≤ f.fn.toNat then run.getD (identityRule (f.fn.toNat % 8) f.ty) else next.1, next.2)

/-- The running value before a lane: the values of the lanes below it, in order. -/
def scanBefore (f : Long) (w : Warp) (lanes : List Nat) (l : Nat) : Option Nat :=
  runOf (combRule (f.fn.toNat % 8) f.mod.toNat f.ty) ((lanes.filter fun m => decide (m < l)).map (rdReg w f.ty f.a.toNat))

/-- Among rising lanes those below one are those before it. -/
theorem filter_lt_of_pairwise {pre rest : List Nat} {l : Nat} (h : (pre ++ l :: rest).Pairwise (· < ·)) :
    (pre ++ l :: rest).filter (fun m => decide (m < l)) = pre := by
  obtain ⟨-, hrest, hpre⟩ := List.pairwise_append.1 h
  have hbelow : pre.filter (fun m => decide (m < l)) = pre :=
    List.filter_eq_self.2 fun m hm => decide_eq_true (hpre m hm l List.mem_cons_self)
  have habove : (l :: rest).filter (fun m => decide (m < l)) = [] := by
    refine List.filter_eq_nil_iff.2 fun m hm => ?_
    rcases List.mem_cons.1 hm with rfl | hm
    · simp
    · simpa using ((List.pairwise_cons.1 hrest).1 m hm).le
  rw [List.filter_append, hbelow, habove, List.append_nil]

/-- One lane of the serial scan: it gets its value, and the running value takes its element in. -/
theorem scanRun_cons {f : Long} (ht : f.ty ∈ Forms.tyR) (w v : Warp) (pre rest : List Nat) (l : Nat) :
    let run (ls : List Nat) := runOf (combRule (f.fn.toNat % 8) f.mod.toNat f.ty) (ls.map (rdReg w f.ty f.a.toNat))
    let y := scanLane f w (run pre) l
    scanRun w f (f.fn.toNat % 8) (decide (8 ≤ f.fn.toNat)) (l :: rest) (run pre) v =
      scanRun w f (f.fn.toNat % 8) (decide (8 ≤ f.fn.toNat)) rest (run (pre ++ [l]))
        (raiseFp (wrReg v f.ty f.d.toNat l y.1) y.2) := by
  intro run y
  have hnext : run (pre ++ [l]) = some (match run pre with
      | some u => (combRule (f.fn.toNat % 8) f.mod.toNat f.ty u (rdReg w f.ty f.a.toNat l)).1
      | none => rdReg w f.ty f.a.toNat l) := by
    simp only [run, List.map_append, List.map_cons, List.map_nil, runOf_concat]
  rw [hnext, scanRun]
  simp only [y, scanLane]
  cases run pre <;> by_cases hx : 8 ≤ f.fn.toNat <;> simp [combE, combM_eq_combRule ht, scanIdent_eq_identityRule ht, hx]

/-- The serial scan, from any of its lanes on, gives each lane what R145 gives it. -/
theorem scanRun_eq_perLane {f : Long} (ht : f.ty ∈ Forms.tyR) (w v : Warp) (pre rest : List Nat)
    (h : (pre ++ rest).Pairwise (· < ·)) :
    scanRun w f (f.fn.toNat % 8) (decide (8 ≤ f.fn.toNat)) rest
        (runOf (combRule (f.fn.toNat % 8) f.mod.toNat f.ty) (pre.map (rdReg w f.ty f.a.toNat))) v =
      perLane v rest f.ty f.d.toNat fun l => scanLane f w (scanBefore f w (pre ++ rest) l) l := by
  induction rest generalizing pre v with
  | nil => rfl
  | cons l rest ih =>
    have hassoc : pre ++ l :: rest = (pre ++ [l]) ++ rest := by simp
    rw [scanRun_cons ht, ih _ _ (hassoc ▸ h), ← hassoc]
    simp only [perLane, List.foldl_cons]
    rw [scanBefore, filter_lt_of_pairwise h]

theorem vscanOp_eq {f : Long} (ht : f.ty ∈ Forms.tyR) (w : Warp) : vscanOp f w =
    perLane w (activeL w .vscan f) f.ty f.d.toNat fun l => scanLane f w (scanBefore f w (activeL w .vscan f) l) l :=
  scanRun_eq_perLane ht w w [] _ (List.pairwise_lt_range.filter _)

/-! ## O7 -/

/-- Settles O7: both bodies combine by R144 (`combM_eq_combRule`), `VRDC` level by level in its tree (`treeRun_eq_reduceAt`), and
`VSCAN` lane by lane (`scanRun_eq_perLane`). -/
theorem reductionsAndScansCombineActiveLanes : Obligations.ReductionsAndScansCombineActiveLanes := by
  intro i s s1 k len o f w h a mode
  refine ⟨fun ho => ?reduce, fun ho => ?scan⟩ <;> subst ho <;> have ht : f.ty ∈ Forms.tyR := legal_ty (performs_legal h)
  case reduce => exact regOp_congr h rfl (vrdcOp_effect f w) (vrdcOp_eq ht w)
  case scan => exact regOp_congr h rfl (scanRun_effect ..) (vscanOp_eq ht w)

end Sys2Proof.Machine
end

section
/-! PROOF. O29: a store changes its own bytes and no other (R164, R187, R188). -/

namespace Sys2Proof.Machine

/-! ## Bytes written one after another -/

/-- Bytes of group memory are written as those of memory are. -/
theorem foldl_zipIdx_sput (off : Nat) (bs : List Byte) : ∀ (n : Nat) (m : Memory),
    (bs.zipIdx n).foldl (fun m b => sput 0 m (off + b.2) b.1) m = wrBytes m (off + n) bs := by
  induction bs with
  | nil => exact fun _ _ => rfl
  | cons b bs ih => exact fun n m => ih (n + 1) _

theorem wrGroupMem_gmem (g : Group) (off : Nat) (bs : List Byte) : (wrGroupMem g off bs).gmem = wrBytes g.gmem off bs :=
  foldl_zipIdx_sput off bs 0 g.gmem

/-- What a key holds after bytes are entered from `off + n` on. -/
theorem kfind_foldl_kinsert (off j : Nat) (bs : List Byte) : ∀ (n : Nat) (m : KMap Byte),
    kfind ((bs.zipIdx n).foldl (fun m b => kinsert m (off + b.2) b.1) m) j =
      if off + n ≤ j ∧ j < off + n + bs.length then bs[j - (off + n)]? else kfind m j := by
  induction bs with
  | nil => intro n m; rw [if_neg (by simp)]; rfl
  | cons b bs ih =>
    intro n m
    rw [List.zipIdx_cons, List.foldl_cons, ih, kfind_kinsert, List.length_cons]
    by_cases hj : j = off + n
    · subst hj; simp
    · by_cases h : off + n ≤ j ∧ j < off + n + (bs.length + 1)
      · rw [if_pos (by omega), if_pos h, show j - (off + n) = j - (off + (n + 1)) + 1 by omega, List.getElem?_cons_succ]
      · rw [if_neg (by omega), if_neg hj, if_neg h]

/-! ## The hand (R187, R188) -/

/-- The sector once bytes are written into it from a key on. -/
def putSector (key va : Nat) (pc : Dword) (bs : List Byte) (x : Sector) : Sector :=
  bs.zipIdx.foldl (fun x b => { x with
    data := kinsert x.data (key - key / 64 * 64 + b.2) b.1, pub := setLane x.pub (key - key / 64 * 64 + b.2) false })
    { x with pc := pc, va := va }

theorem putSector_key (key va : Nat) (pc : Dword) (bs : List Byte) (x : Sector) : (putSector key va pc bs x).key = x.key := by
  unfold putSector
  induction bs.zipIdx using List.reverseRecOn with
  | nil => rfl
  | append_singleton l b ih => rw [List.foldl_concat]; exact ih

theorem putSector_data (key va : Nat) (pc : Dword) (bs : List Byte) (x : Sector) : (putSector key va pc bs x).data =
    bs.zipIdx.foldl (fun m b => kinsert m (key - key / 64 * 64 + b.2) b.1) x.data := by
  unfold putSector
  induction bs.zipIdx using List.reverseRecOn with
  | nil => rfl
  | append_singleton l b ih => rw [List.foldl_concat, List.foldl_concat, ← ih]

theorem kfind_putSector (key va j : Nat) (pc : Dword) (bs : List Byte) (x : Sector) : kfind (putSector key va pc bs x).data j =
    if key % 64 ≤ j ∧ j < key % 64 + bs.length then bs[j - key % 64]? else kfind x.data j := by
  rw [putSector_data, kfind_foldl_kinsert, Nat.add_zero, show key - key / 64 * 64 = key % 64 by omega]

/-- A store changes the sector that the hand holds of its bytes, or adds one where fewer than 64 are held (R188). -/
theorem handPut_eq (h : Hand) (key va : Nat) (pc : Dword) (bs : List Byte) : handPut h key va pc bs =
    if ∃ x ∈ h.secs, x.key = key / 64 * 64 then
      some { h with secs := h.secs.map fun x => if x.key = key / 64 * 64 then putSector key va pc bs x else x }
    else if 64 ≤ h.secs.length then none
    else some { h with secs := h.secs ++ [putSector key va pc bs { key := key / 64 * 64, data := [], pub := 0, pc := pc, va := va }] } := by
  unfold handPut
  simp only [List.any_eq_true, beq_iff_eq]
  rfl

theorem handPut_eq_none (h : Hand) (key va : Nat) (pc : Dword) (bs : List Byte) : handPut h key va pc bs = none ↔
    64 ≤ h.secs.length ∧ ∀ x ∈ h.secs, x.key ≠ key / 64 * 64 := by
  rw [handPut_eq]
  split
  · rename_i hx; simp only [reduceCtorEq, false_iff, not_and, not_forall]
    obtain ⟨x, hx, he⟩ := hx; exact fun _ => ⟨x, hx, by simpa using he⟩
  · rename_i hx
    split <;> simp_all

/-- What a hand gives for a byte of a sector: what the sector with that key holds. -/
def secByte (l : List Sector) (base j : Nat) : Option Byte := (l.find? fun x => x.key == base).bind fun x => kfind x.data j

theorem handByte_eq (h : Hand) (a : Nat) : handByte h a = secByte h.secs (a / 64 * 64) (a % 64) := by
  unfold handByte secByte
  cases h.secs.find? fun x => x.key == a / 64 * 64 <;> rfl

/-- In the sectors of a hand, those of one key changed by a rule that keeps the key. -/
theorem secByte_map {f : Sector → Sector} (hf : ∀ x, (f x).key = x.key) (l : List Sector) (key base j : Nat) :
    secByte (l.map fun x => if x.key = key then f x else x) base j =
      if base = key then (l.find? fun x => x.key == base).bind fun x => kfind (f x).data j else secByte l base j := by
  induction l with
  | nil => simp [secByte]
  | cons x l ih =>
    have hk : (if x.key = key then f x else x).key = x.key := by split <;> simp [hf]
    unfold secByte at ih ⊢
    rw [List.map_cons, List.find?_cons, List.find?_cons, hk]
    by_cases hb : x.key = base
    · subst hb
      by_cases h : x.key = key <;> simp [h]
    · simp only [beq_eq_false_iff_ne.mpr hb]
      exact ih

/-- The sectors of a hand that took a store (R188). -/
theorem secByte_handPut {h h' : Hand} {key va : Nat} {pc : Dword} {bs : List Byte} (hp : handPut h key va pc bs = some h')
    (base j : Nat) : secByte h'.secs base j =
      if base = key / 64 * 64 ∧ key % 64 ≤ j ∧ j < key % 64 + bs.length then bs[j - key % 64]? else secByte h.secs base j := by
  rw [handPut_eq] at hp
  split at hp
  case isTrue hx =>
    cases hp
    obtain ⟨x, hx, hk⟩ := hx
    rw [secByte_map (putSector_key key va pc bs)]
    by_cases hb : base = key / 64 * 64
    · subst hb
      obtain ⟨y, hy⟩ := Option.isSome_iff_exists.mp
        (List.find?_isSome (p := fun x => x.key == key / 64 * 64).mpr ⟨x, hx, by simpa using hk⟩)
      simp only [secByte, hy, Option.bind_some, kfind_putSector, if_true, true_and]
    · rw [if_neg hb, if_neg fun h => hb h.1]
  case isFalse hx =>
    split at hp
    · cases hp
    · cases hp
      have hnone : h.secs.find? (fun x => x.key == key / 64 * 64) = none :=
        List.find?_eq_none.mpr fun x hm he => hx ⟨x, hm, by simpa using he⟩
      by_cases hb : base = key / 64 * 64
      · subst hb
        simp only [secByte, List.find?_append, hnone, Option.none_or, List.find?_singleton, putSector_key, beq_self_eq_true,
          if_true, Option.bind_some, kfind_putSector, true_and, Option.bind_none, kfind]
      · simp only [secByte, List.find?_append, List.find?_singleton, putSector_key, beq_eq_false_iff_ne.mpr (Ne.symm hb),
          Bool.false_eq_true, if_false, Option.or_none]
        rw [if_neg fun h => hb h.1]

/-- A hand that took a store of bytes that lie in one sector gives them, and every other byte as before (R187). -/
theorem handByte_handPut {h h' : Hand} {key va : Nat} {pc : Dword} {bs : List Byte} (hlen : key % 64 + bs.length ≤ 64)
    (hp : handPut h key va pc bs = some h') (a : Nat) :
    handByte h' a = if key ≤ a ∧ a < key + bs.length then bs[a - key]? else handByte h a := by
  rw [handByte_eq, handByte_eq, secByte_handPut hp]
  by_cases h : key ≤ a ∧ a < key + bs.length
  · rw [if_pos (by omega), if_pos h, show a % 64 - key % 64 = a - key by omega]
  · rw [if_neg (by omega), if_neg h]

/-! ## O29 -/

/-- Settles O29: memory and group memory by what a byte reads as after a write of bytes, the hand by what its sectors hold. -/
theorem storesChangeTheirBytesOnly : Obligations.StoresChangeTheirBytesOnly := by
  refine ⟨fun s k key a hint bs h => ?memory, fun g off a bs h => ?groupMemory, fun h h' key va a pc bs hlen hp => ?hand,
    fun h key va pc bs => handPut_eq_none h key va pc bs⟩
  case memory => rw [freeWrite_mem, rdByte_wrBytes key a bs h]
  case groupMemory => rw [wrGroupMem_gmem]; exact rdByte_wrBytes off a bs h
  case hand => exact handByte_handPut hlen hp a

end Sys2Proof.Machine
end

section
/-! PROOF. O27: what the registers of a load of the chip are written with (R160, R163 to R165, R171, R187, R207, R338). -/

namespace Sys2Proof.Machine

/-! ## The bytes that a load reads -/

/-- The byte of a replicated page that the chip keeps (R338). -/
def keptByte (s : State) (k : Nat) (x : Acc) (a : Nat) : Option Byte :=
  if x.x.any (fun y => y.mode == 2) = true then replicaByte s (chipOf (partOf k)) a else none

/-- The byte below a warp's own writes and the replicas: of `base` in turn mode or past the L1, else the L1's before that of `base`. -/
def storedByte (s : State) (k : Nat) (w : Warp) (base : Memory) (bypass : Bool) (a : Nat) : Byte :=
  if w.turn || bypass then rdByte base a
  else match warpCore s k with
    | some (c, m) => (l1Byte (getCore (getChip s c) m) a).getD (rdByte base a)
    | none => rdByte base a

/-- A load's byte is the warp's own, else a replica's, else the one that is stored. -/
theorem plainByte_eq {x : Acc} {y : Xlat} (hx : x.x = some y) (s : State) (k : Nat) (w : Warp) (base : Memory) (bypass : Bool) (j : Nat) :
    plainByte s k w base bypass y (y.key + j) (x.va + j) =
      (if w.turn then handByte w.hand (accKey x + j) else postedByte s (siteOf s k) w (accKey x + j) (x.va + j)).getD
        ((keptByte s k x (accKey x + j)).getD (storedByte s k w base bypass (accKey x + j))) := by
  have hkey : accKey x = y.key := by rw [accKey, hx]
  have hkept : keptByte s k x (y.key + j) = if y.mode = 2 then replicaByte s (chipOf (partOf k)) (y.key + j) else none := by
    simp only [keptByte, hx, Option.any_some, beq_iff_eq]
  rw [hkey, hkept]
  unfold plainByte storedByte
  dsimp only
  cases w.turn <;> cases (if y.mode = 2 then replicaByte s (chipOf (partOf k)) (y.key + j) else none) <;> rfl

/-! ## The outstanding result -/

/-- The register writes of a load's element whose bytes are given (R160). -/
def loadWrites (o : Op) (f : Long) (x : Acc) (byte : Nat → Byte) : List RegW :=
  elemWrites (loadDest o f x) (leNat ((List.range (elemSize o f)).map byte))

/-- What a load of the chip leaves outstanding: the register writes of its elements, and no request to another chip. -/
theorem loadPend_near {s : State} {k : Nat} {xs : List Acc} (h : ∀ x ∈ xs, farAccess s k x = false) (w : Warp) (o : Op) (f : Long) :
    loadPend s k w o f xs = pendOf o f (xs.flatMap fun x => elemWrites (loadDest o f x) (match x.x with
      | some y => plainNat s k w (plainBase s k w) (f.mod = 3) y x.va (elemSize o f)
      | none => match getGroup s k with | some g => groupNat g x.va (elemSize o f) | none => 0)) 0 0 none := by
  have hnear : xs.filter (fun x => !farAccess s k x) = xs := List.filter_eq_self.mpr fun x hx => by simp [h x hx]
  have hfar : xs.filter (fun x => farAccess s k x) = [] := List.filter_eq_nil_iff.mpr fun x hx => by simp [h x hx]
  simp only [loadPend, hnear, hfar] <;> rfl

/-- The register writes of a load of the chip from global memory. -/
theorem loadPend_global {s : State} {k : Nat} {xs : List Acc} (h : ∀ x ∈ xs, farAccess s k x = false)
    (hx : ∀ x ∈ xs, x.x.isSome = true) (w : Warp) (o : Op) (f : Long) : (loadPend s k w o f xs).writes =
      xs.flatMap fun x => loadWrites o f x fun j =>
        (if w.turn then handByte w.hand (accKey x + j) else postedByte s (siteOf s k) w (accKey x + j) (x.va + j)).getD
          ((keptByte s k x (accKey x + j)).getD (storedByte s k w (plainBase s k w) (f.mod = 3) (accKey x + j))) := by
  rw [loadPend_near h]
  refine List.flatMap_congr fun x hm => ?_
  obtain ⟨y, hy⟩ := Option.isSome_iff_exists.mp (hx x hm)
  simp only [hy, plainNat, loadWrites, plainByte_eq hy]

/-- The register writes of a load from group memory. -/
theorem loadPend_group {s : State} {k : Nat} {xs : List Acc} {g : Group} (h : ∀ x ∈ xs, farAccess s k x = false)
    (hg : getGroup s k = some g) (hx : ∀ x ∈ xs, x.x = none) (w : Warp) (o : Op) (f : Long) :
    (loadPend s k w o f xs).writes = xs.flatMap fun x => loadWrites o f x fun j => sget 0 g.gmem (x.va + j) := by
  rw [loadPend_near h]
  refine List.flatMap_congr fun x hm => ?_
  simp only [hx x hm, hg, groupNat, loadWrites]

/-! ## O27 -/

/-- A load's element is written as R160 says: a scalar extended, 8 bytes to a register pair. -/
theorem loadWrites_eq (o : Op) (f : Long) (x : Acc) (byte : Nat → Byte) : loadWrites o f x byte =
    let v := leNat ((List.range (elemSize o f)).map byte)
    let ext : Int := if signExt f.ty then intOf true (8 * elemSize o f) v else v
    if o = .sld then [.s f.d.toNat (BitVec.ofInt 64 ext)]
    else if elemSize o f = 8 then
      [.v f.d.toNat x.lane (BitVec.ofNat 32 v), .v (f.d.toNat + 1) x.lane (BitVec.ofNat 32 (v / 2 ^ 32))]
    else [.v f.d.toNat x.lane (BitVec.ofInt 32 ext)] := by
  by_cases ho : o = .sld
  · subst ho; rfl
  · have hv : (o != .sld) = true := by simpa using ho
    simp only [loadWrites, elemWrites, loadDest, hv, ho, Bool.not_true, Bool.false_eq_true, if_false, extVal]

/-- Settles O27: each kind of byte by `loadPend_global` and `loadPend_group`, each element by `loadWrites_eq`. -/
theorem loadsReadHandThenImage : Obligations.LoadsReadHandThenImage := by
  intro s k w o f xs hnear n writes pd replica posted
  have hwrites (x : Acc) (byte : Nat → Byte) : loadWrites o f x byte = writes x byte := loadWrites_eq o f x byte
  refine ⟨?_, ?_, ?_, ?_, fun ht hx => ?turn, fun ht hm hx => ?bypass, fun ht hm hx c m hc => ?l1, fun g hg hx => ?group⟩
  case turn =>
    rw [loadPend_global hnear hx]
    simp only [ht, if_true, hwrites, storedByte, plainBase, Bool.true_or]
    rfl
  case bypass =>
    rw [loadPend_global hnear hx]
    simp only [ht, hm, hwrites, storedByte, plainBase]
    rfl
  case l1 =>
    rw [loadPend_global hnear hx]
    simp only [ht, hm, hc, hwrites, storedByte, plainBase]
    rfl
  case group =>
    rw [loadPend_group hnear hg hx]
    simp only [hwrites]
  all_goals rw [show pd = _ from loadPend_near hnear w o f]; rfl

end Sys2Proof.Machine
end

section
/-! PROOF. What a warp that is being issued keeps while requests of its core are served at their homes: its mode, its privilege, and
that it waits neither in place nor for a turn (R173, R198, R318, R336, R346). -/

namespace Sys2Proof.Machine

/-! ## The relation -/

/-- The warp waits neither in place nor for its turn. -/
def Goes (w : Warp) : Prop := w.stat ≠ .stalled ∧ w.stat ≠ .turnWait

/-- `v` has the mode and the privilege of `w`, and goes if `w` does. -/
def SameCourse (w v : Warp) : Prop := v.turn = w.turn ∧ v.sys = w.sys ∧ (Goes w → Goes v)

theorem SameCourse.refl (w : Warp) : SameCourse w w := ⟨rfl, rfl, id⟩

theorem SameCourse.trans {u v w : Warp} (h : SameCourse u v) (g : SameCourse v w) : SameCourse u w :=
  ⟨g.1.trans h.1, g.2.1.trans h.2.1, fun hu => g.2.2 (h.2.2 hu)⟩

/-- Every warp of `t` is one of `s`, of the same course. -/
structure KeepsCourse (s t : State) : Prop where
  warp : ∀ k v, getWarp t k = some v → ∃ w, getWarp s k = some w ∧ SameCourse w v

theorem KeepsCourse.refl (s : State) : KeepsCourse s s := ⟨fun _ v h => ⟨v, h, .refl v⟩⟩

theorem KeepsCourse.trans {s t u : State} (h : KeepsCourse s t) (g : KeepsCourse t u) : KeepsCourse s u := by
  refine ⟨fun k v hv => ?_⟩
  obtain ⟨x, hx, hxv⟩ := g.warp k v hv
  obtain ⟨w, hw, hwx⟩ := h.warp k x hx
  exact ⟨w, hw, hwx.trans hxv⟩

theorem KeepsCourse.foldl {α : Type} {g : State → α → State} (hg : ∀ s x, KeepsCourse s (g s x)) (l : List α) (s : State) :
    KeepsCourse s (l.foldl g s) := by
  induction l generalizing s with
  | nil => exact .refl s
  | cons x l ih => exact (hg s x).trans (ih _)

theorem SameWarps.keepsCourse {s t : State} (h : SameWarps s t) : KeepsCourse s t := by
  refine ⟨fun k v hv => ⟨v, ?_, .refl v⟩⟩
  unfold getWarp at hv ⊢
  rw [← h.1]; exact hv

theorem Loses.keepsCourse {s t : State} (h : Loses s t) : KeepsCourse s t := by
  refine ⟨fun k v hv => ?_⟩
  obtain hk | hk := h.1 k
  · exact ⟨v, hk ▸ hv, .refl v⟩
  · rw [hk] at hv; cases hv

theorem updWarp_keepsCourse (s : State) (k : Nat) {f : Warp → Warp} (hf : ∀ w, SameCourse w (f w)) : KeepsCourse s (updWarp s k f) := by
  refine ⟨fun j v hv => ?_⟩
  rw [getWarp_updWarp] at hv
  split at hv
  · obtain ⟨w, hw, rfl⟩ := Option.map_eq_some_iff.mp hv
    exact ⟨w, hw, hf w⟩
  · exact ⟨v, hv, .refl v⟩

theorem setWarp_keepsCourse {s : State} {k : Nat} {w v : Warp} (hw : getWarp s k = some w) (h : SameCourse w v) :
    KeepsCourse s (setWarp s k v) := by
  refine ⟨fun j x hx => ?_⟩
  rw [getWarp_setWarp] at hx
  split at hx
  · rename_i hj
    cases hx
    exact ⟨w, hj ▸ hw, h⟩
  · exact ⟨x, hx, .refl x⟩

theorem freeSlot_keepsCourse (s : State) (k : Nat) : KeepsCourse s (freeSlot s k) :=
  ⟨fun _ v h => ⟨v, h, .refl v⟩⟩

/-! ## Stopping and waking (R198, R318) -/

theorem stopWarp_keepsCourse (s : State) (k m : Nat) (t : Stamp) : KeepsCourse s (stopWarp s k m t) := by
  refine .trans (.trans (updCard_sameWarps s k _).keepsCourse (updWarp_keepsCourse _ k fun w => ?_)) (freeSlot_keepsCourse _ k)
  exact ⟨rfl, rfl, fun _ => ⟨nofun, nofun⟩⟩

theorem wrGroup_course (w : Warp) (d : Nat) (xs : List Dword) : (wrGroup w d xs).turn = w.turn ∧ (wrGroup w d xs).sys = w.sys := by
  induction xs generalizing w d with
  | nil => exact ⟨rfl, rfl⟩
  | cons x xs ih => exact ⟨(ih ..).1.trans (wrS_turn ..), (ih ..).2.trans (wrS_sys ..)⟩

theorem wakeEffect_course (s : State) (p : Nat) (w : Warp) (what : ParkWhat) :
    (wakeEffect s p w what).turn = w.turn ∧ (wakeEffect s p w what).sys = w.sys := by
  unfold wakeEffect
  split
  · exact ⟨rfl, rfl⟩
  · exact wrGroup_course ..
  · exact ⟨rfl, rfl⟩

theorem wake_keepsCourse (s : State) (k : Nat) (r : Stamp) : KeepsCourse s (wake s k r) := by
  unfold wake
  split
  · exact .refl s
  · rename_i w hw
    split
    · rename_i what len en hst
      obtain ⟨ht, hs⟩ := wakeEffect_course s (partOf k) w what
      refine setWarp_keepsCourse hw ⟨ht, hs, fun _ => ?_⟩
      dsimp only [Goes]
      split_ifs <;> simp
    · exact .refl s

theorem wakeFwait_keepsCourse (s : State) (p : Nat) (h : Dword) (r : Stamp) : KeepsCourse s (wakeFwait s p h r) :=
  KeepsCourse.foldl (g := fun s (e : Nat × Warp) => wake (dropLines s e.1 e.2) e.1 r)
    (fun s e => (dropLines_memOnly s e.1 e.2).sameWarps.keepsCourse.trans (wake_keepsCourse ..)) _ s

theorem stopBack_keepsCourse (s : State) (t : Stamp) (e : Nat × Warp) : KeepsCourse s (stopBack s t e) := by
  have stops (d i c m : Nat) (u v : Stamp) : KeepsCourse s (stopWarp (withdraw s d i c u) e.1 m v) :=
    (withdraw_sameWarps ..).keepsCourse.trans (stopWarp_keepsCourse ..)
  have ifSaved (m : Nat) (b : Bool) : KeepsCourse s (if b then stopWarp s e.1 m t else s) := by
    split
    · exact stopWarp_keepsCourse ..
    · exact .refl s
  unfold stopBack
  dsimp only
  split
  · exact .refl s
  · exact .refl s
  · exact ((withdraw_sameWarps ..).trans (updCard_sameWarps ..)).keepsCourse
  · exact stops ..
  · exact stopWarp_keepsCourse ..
  · exact stops ..
  · split
    · exact stops ..
    · exact ifSaved ..
  · exact stops ..
  · exact ifSaved ..

theorem stopBehind_keepsCourse (s : State) (ck : Nat) (t : Stamp) (parked : Bool) : KeepsCourse s (stopBehind s ck t parked) := by
  have hcopies : SameWarps s (dropCopies s ck) := ⟨rfl, rfl⟩
  unfold stopBehind
  dsimp only
  split
  · exact hcopies.keepsCourse
  · refine hcopies.keepsCourse.trans (KeepsCourse.trans ?gone (KeepsCourse.foldl (fun s e => stopBack_keepsCourse s t e) _ _))
    case gone => exact (SameWarps.foldl (fun s x => stopGone_sameWarps s ck t x) _ _).keepsCourse

/-! ## Cascades (R317, R325) -/

theorem reclaim_keepsCourse (s : State) (key : Nat) (x : Slot) (h : Dword) (t : Stamp) : KeepsCourse s (reclaim s key x h t).1 := by
  unfold reclaim
  dsimp only
  split
  · split
    · split
      · exact (putSlot_sameWarps ..).keepsCourse
      · have hput := putSlot_sameWarps s key { x with st := .reclaimed, count := 0 }
        refine KeepsCourse.trans (SameWarps.keepsCourse (SameWarps.trans ?task ((updCard_sameWarps ..).trans (tktCardStop_sameWarps ..))))
          ((stopBehind_keepsCourse _ _ t false).trans (sweepCard_loses ..).keepsCourse)
        case task =>
          split
          · exact hput.trans (taskEnded_sameWarps ..)
          · exact hput
    · exact (putSlot_sameWarps ..).keepsCourse
  · exact ((putSlot_sameWarps s key _).trans ((removeCreated_sameWarps ..).trans
      ((putSlot_sameWarps ..).trans (tryFree_sameWarps ..)))).keepsCourse

theorem runJobs_keepsCourse (n p : Nat) (t : Stamp) (js : List Job) (s : State) : KeepsCourse s (runJobs n p t js s) := by
  induction n generalizing js s with
  | zero => unfold runJobs; exact .refl s
  | succ n ih =>
    match js with
    | [] => unfold runJobs; exact .refl s
    | .drop h :: js =>
      unfold runJobs
      split
      · exact ih _ _
      · dsimp only
        split
        · exact (putSlot_sameWarps ..).keepsCourse.trans (ih _ _)
        · have hreclaim (key : Nat) (x y z : Slot) : KeepsCourse s (reclaim (wakeFwait (putSlot (putSlot s key x) key y) p h t) key z h t).1 :=
            ((putSlot_sameWarps ..).trans (putSlot_sameWarps ..)).keepsCourse.trans
              ((wakeFwait_keepsCourse ..).trans (reclaim_keepsCourse ..))
          split
          · exact (hreclaim ..).trans (ih _ _)
          · exact (hreclaim ..).trans (ih _ _)
          · exact ((putSlot_sameWarps ..).trans ((putSlot_sameWarps ..).trans (tryFree_sameWarps ..))).keepsCourse.trans (ih _ _)
    | .brk h cause dead :: js =>
      unfold runJobs
      split
      · exact ih _ _
      · have hbreak (key : Nat) (x : Slot) : KeepsCourse s (tryFree (wakeFwait (putSlot s key x) p h t) key t) :=
          (putSlot_sameWarps ..).keepsCourse.trans ((wakeFwait_keepsCourse ..).trans (tryFree_sameWarps ..).keepsCourse)
        split
        · exact (hbreak ..).trans (ih _ _)
        · exact (hbreak ..).trans (ih _ _)
        · exact ih _ _

theorem finishStop_keepsCourse (s : State) (ck : Nat) : KeepsCourse s (finishStop s ck) := by
  unfold finishStop
  split
  · exact .refl s
  · split
    · exact .refl s
    · exact (SameWarps.trans (updCard_sameWarps s ck _) (tktCardStop_sameWarps ..)).keepsCourse.trans
        ((runJobs_keepsCourse ..).trans ((foldHash_memOnly ..).sameWarps.keepsCourse.trans
          ((stopBehind_keepsCourse ..).trans (sweepCard_loses ..).keepsCourse)))

theorem stopCard_keepsCourse (s : State) (ck : Nat) (t : Stamp) (cause kind status : Nat) :
    KeepsCourse s (stopCard s ck t cause kind status) := by
  unfold stopCard
  split
  · exact (updCard_sameWarps s ck _).keepsCourse.trans (finishStop_keepsCourse ..)
  · exact .refl s

/-! ## Refusals and requests that are served (R336, R346) -/

theorem endRun_keepsCourse (s : State) (k : Nat) : KeepsCourse s (endRun s k) := by
  refine KeepsCourse.trans (updWarp_keepsCourse s k fun w => ?_) (freeSlot_keepsCourse ..)
  dsimp only
  split <;> exact .refl w

theorem refuseAll_keepsCourse (s : State) (k : Nat) (xs : List Denied) (load : Bool) (clk : Nat) :
    KeepsCourse s (refuseAll s k xs load clk) := by
  have hnotes (l : List Denied) : KeepsCourse s (l.foldl (fun s x => noteRefusal s k load x) s) :=
    .foldl (fun s x => ⟨fun j v hv => ⟨v, getWarp_noteRefusal s k load x j ▸ hv, .refl v⟩⟩) l s
  unfold refuseAll
  split
  · dsimp only
    split
    · refine .trans (.trans (hnotes _) (updWarp_keepsCourse _ k fun w => ?_)) (endRun_keepsCourse _ k)
      exact ⟨rfl, rfl, fun _ => ⟨nofun, nofun⟩⟩
    · exact (hnotes _).trans (stopCard_keepsCourse ..)
  · exact .refl s

theorem servePend_keepsCourse (s : State) (k : Nat) (hit : Remote → Bool) : KeepsCourse s (servePend s k hit) := by
  unfold servePend
  split
  · exact .refl s
  · dsimp only
    split
    · exact .refl s
    · split
      · exact .refl s
      · refine .trans (.trans ?_ (updWarp_keepsCourse _ k fun w => ?_)) (refuseAll_keepsCourse ..)
        · exact ((sliceTouches_memOnly ..).trans (sendFlits_memOnly ..)).sameWarps.keepsCourse
        · exact .refl w

theorem serveLines_keepsCourse (core : Option (Nat × Nat)) (keys : List Nat) (n : Nat) (s : State) :
    KeepsCourse s (serveLines s core keys n) := by
  induction n generalizing s with
  | zero => exact .refl s
  | succ n ih =>
    unfold serveLines
    split
    · exact .refl s
    · exact (servePend_keepsCourse ..).trans (ih _)

theorem serveCore_keepsCourse (s : State) (k : Nat) (keys : List Nat) : KeepsCourse s (serveCore s k keys) := serveLines_keepsCourse ..

end Sys2Proof.Machine
end

section
/-! PROOF. An instruction that retires a warp which a round gate holds, which a home's refusal has stopped, or whose hand was published
on the way (R178, R180, R186, R189). -/

namespace Sys2Proof.Machine

/-! ## A warp that the state lists where it belongs -/

/-- The state lists the warp `w` at the key `k`, and in its place: entering it again changes nothing. -/
def Lists (s : State) (k : Nat) (w : Warp) : Prop := setWarp s k w = s

theorem Lists.warp {s : State} {k : Nat} {w : Warp} (h : Lists s k w) : getWarp s k = some w := by
  unfold Lists at h
  rw [← h]; simp

theorem lists_setWarp (s : State) (k : Nat) (w : Warp) : Lists (setWarp s k w) k w := setWarp_setWarp ..

theorem performs_lists {i : Instr} {s s1 : State} {k len : Nat} {o : Op} {f : Long} {w : Warp} (h : Performs i s k o f len s1 w) :
    Lists s1 k w := performs_set h

theorem lists_iff {s : State} {k : Nat} {w : Warp} : Lists s k w ↔ kinsert s.warps k w = s.warps := by
  constructor
  · intro h; exact congrArg State.warps h
  · intro h; unfold Lists setWarp; rw [h]

theorem Lists.sameWarps {s t : State} {k : Nat} {w : Warp} (h : Lists s k w) (hs : SameWarps s t) : Lists t k w := by
  rw [lists_iff] at h ⊢
  rw [hs.1]; exact h

theorem Lists.updWarp {s : State} {k : Nat} {w : Warp} (h : Lists s k w) (g : Warp → Warp) : updWarp s k g = setWarp s k (g w) := by
  conv_lhs => rw [← show setWarp s k w = s from h]
  unfold Machine.updWarp setWarp
  simp only [kmodify_kinsert]

/-! ## The clock (R178, R186) -/

/-- The card of the warp is not stopped. -/
def Running (s : State) (k : Nat) : Prop := ((getCard s k).all fun c => c.stop.isNone) = true

theorem performs_runs {i : Instr} {s s1 : State} {k len : Nat} {o : Op} {f : Long} {w : Warp} (h : Performs i s k o f len s1 w) :
    Running s1 k := performs_running h

/-- `t` has the warps of `s`, and its cards are stopped where those of `s` are. -/
structure KeepsStops (s t : State) : Prop where
  warps : SameWarps s t
  stops : ∀ j, (getCard t j).map (·.stop) = (getCard s j).map (·.stop)

theorem KeepsStops.refl (s : State) : KeepsStops s s := ⟨.refl s, fun _ => rfl⟩

theorem KeepsStops.trans {s t u : State} (h : KeepsStops s t) (g : KeepsStops t u) : KeepsStops s u :=
  ⟨h.warps.trans g.warps, fun j => (g.stops j).trans (h.stops j)⟩

theorem KeepsStops.foldl {α : Type} {g : State → α → State} (hg : ∀ s x, KeepsStops s (g s x)) (l : List α) (s : State) :
    KeepsStops s (l.foldl g s) := by
  induction l generalizing s with
  | nil => exact .refl s
  | cons x l ih => exact (hg s x).trans (ih _)

theorem MemOnly.keepsStops {s t : State} (h : MemOnly s t) : KeepsStops s t := ⟨h.sameWarps, fun j => by rw [h.getCard]⟩

theorem running_iff {s : State} {k : Nat} : Running s k ↔ ((getCard s k).map (·.stop)).all Option.isNone = true := by
  unfold Running; cases getCard s k <;> rfl

theorem KeepsStops.running {s t : State} {k : Nat} (h : KeepsStops s t) (hr : Running s k) : Running t k := by
  rw [running_iff] at hr ⊢
  rw [h.stops]; exact hr

/-- Crossing a mark publishes the hand for it, closes the region and leaves the warp at the round gate. -/
theorem moveClock_crosses {s : State} {k c : Nat} {v : Warp} (hv : getWarp s k = some v) (ht : v.turn = true)
    (hc : v.clock / v.quantum < c / v.quantum) (hr : Running s k) : moveClock s k c =
      let m := nextMark v.quantum v.clock
      refuseAll (updWarp (pubMark s k v m m) k fun w => { w with clock := c, region := none, stat := .gate m (c / w.quantum * w.quantum) })
        k (handRefusals s (chipOf (partOf k)) v.sec v.hand true) false (m - 1) := by
  unfold moveClock
  rw [hv]
  dsimp only
  rw [if_neg (by simpa [ht] using hc), if_neg (by
    unfold Running at hr
    cases hk : getCard s k with
    | none => simp
    | some y => rw [hk] at hr; cases hy : y.stop <;> simp_all)]

/-- A clock that moves leaves a warp that goes going, or dying of a refused publication. -/
theorem moveClock_goes {s : State} {k : Nat} {v : Warp} (hv : getWarp s k = some v) (hg : Goes v) (c : Nat)
    (hr : v.turn = true → Running s k) : ∃ x, getWarp (moveClock s k c) k = some x ∧ Goes x := by
  by_cases hin : v.turn = true → c / v.quantum ≤ v.clock / v.quantum
  · rw [moveClock_inRound hv hin, getWarp_updWarp, if_pos rfl, hv]
    exact ⟨_, rfl, hg⟩
  · obtain ⟨ht, hc⟩ : v.turn = true ∧ v.clock / v.quantum < c / v.quantum := by simpa using hin
    rw [moveClock_crosses hv ht hc (hr ht)]
    have hm := (getWarp_pubMark s k v (nextMark v.quantum v.clock) (nextMark v.quantum v.clock)).trans (congrArg (Option.map _) hv)
    obtain ⟨x, hx, hxs⟩ := refuseAll_stat
      (s := updWarp (pubMark s k v (nextMark v.quantum v.clock) (nextMark v.quantum v.clock)) k fun w =>
        { w with clock := c, region := none, stat := .gate (nextMark v.quantum v.clock) (c / w.quantum * w.quantum) })
      (k := k) ((getWarp_updWarp ..).trans ((if_pos rfl).trans (congrArg (Option.map _) hm))) ht
      (handRefusals s (chipOf (partOf k)) v.sec v.hand true) false (nextMark v.quantum v.clock - 1)
    refine ⟨x, hx, ?_⟩
    obtain ⟨-, rfl⟩ | ⟨kind, hk⟩ := hxs
    · exact ⟨nofun, nofun⟩
    · simp [Goes, hk]

/-! ## Retirement (R180) -/

theorem advance_stat (v : Warp) (pc : Pc) (len : Nat) : (advance v pc len).stat = v.stat := by
  unfold advance
  dsimp only
  split
  · split <;> rfl
  · cases pc <;> rfl

theorem advance_turn (v : Warp) (pc : Pc) (len : Nat) : (advance v pc len).turn = v.turn := by
  unfold advance
  dsimp only
  split
  · split <;> rfl
  · cases pc <;> rfl

/-- A machine instruction whose own effect retires a warp that goes. -/
theorem retiresAt_goes {i : Instr} {s s1 s2 : State} {k len : Nat} {o : Op} {f : Long} {w v : Warp} {pc : Pc} {clk : Option Nat}
    (h : Performs i s k o f len s1 w) (hb : bodyOf o f len s1 k w = .retire s2 pc clk id) (hv : getWarp s2 k = some v)
    (hg : Goes v) (hr : v.turn = true → Running s2 k) : RetiresAt i s k len s2 v pc (clk.getD (v.clock + weightOf w o f)) := by
  obtain ⟨s0, w0, -, -, -, -, hx⟩ := performs_act h
  have hadv : getWarp (setWarp s2 k (advance v pc len)) k = some (advance v pc len) := (lists_setWarp ..).warp
  obtain ⟨x, hxx, h1, h2⟩ := moveClock_goes hadv (by unfold Goes; rw [advance_stat]; exact hg)
    (clk.getD (v.clock + weightOf w o f)) (by rw [advance_turn]; exact hr)
  have hu := retire_upTo (en := f.fl.en) (after := id) hv (by rw [updWarp_id hxx rfl]; exact hxx) h1 h2
  rw [updWarp_id hxx rfl] at hu
  refine ⟨_, hx _ hb, ?_⟩
  dsimp only [faultRegion, finish, takesTurn]
  cases decide (turnKind w0 o f = .group) with
  | false => exact hu
  | true => exact upToRun_addTurn hu

/-- The state that an effect made may be named before its last change of the warp that retires. -/
theorem RetiresAt.of_setWarp {i : Instr} {s s2 : State} {k len c : Nat} {u v : Warp} {pc : Pc}
    (h : RetiresAt i s k len (setWarp s2 k u) v pc c) : RetiresAt i s k len s2 v pc c := by
  unfold RetiresAt at *
  rw [setWarp_setWarp] at h
  exact h

/-- In free mode the same holds of a change where the warp stands. -/
theorem RetiresAt.of_updWarp {i : Instr} {s s2 : State} {k len c : Nat} {v : Warp} {pc : Pc} {g : Warp → Warp}
    (h : RetiresAt i s k len (updWarp s2 k g) v pc c) (ht : v.turn = false) : RetiresAt i s k len s2 v pc c := by
  obtain ⟨t, hx, hu⟩ := h
  have hclock (u : State) : moveClock (setWarp u k (advance v pc len)) k c =
      Machine.updWarp (setWarp u k (advance v pc len)) k fun w => { w with clock := c } :=
    moveClock_inRound (lists_setWarp ..).warp (by rw [advance_turn, ht]; nofun)
  rw [hclock] at hu
  refine ⟨t, hx, ?_⟩
  rw [hclock]
  refine hu.of_alike (fun j => ?_) rfl
  simp only [getWarp_updWarp, getWarp_setWarp]
  split <;> rfl

end Sys2Proof.Machine
end

section
/-! PROOF. What publications leave alone: the warps, and where cards are stopped (R184, R186, R190, R223, R330). -/

namespace Sys2Proof.Machine

/-! ## Cards stay stopped where they were -/

theorem kfind_map {α β : Type} (m : KMap α) (f : Nat × α → β) (j : Nat) :
    kfind (m.map fun e => (e.1, f e)) j = (kfind m j).map fun x => f (j, x) := by
  induction m with
  | nil => rfl
  | cons e m ih =>
    simp only [List.map_cons, kfind]
    split
    · subst_vars; rfl
    · exact ih

theorem touchWords_keepsStops (s : State) (d : Nat) (t : Stamp) (ks : List Nat) : KeepsStops s (touchWords s d t ks) := by
  refine ⟨⟨rfl, rfl⟩, fun j => ?_⟩
  unfold getCard touchWords
  dsimp only
  rw [kfind_map, Option.map_map]
  refine congrArg (Option.map · _) (funext fun c => ?_)
  simp only [Function.comp_apply]
  split <;> rfl

theorem publish_keepsStops (s : State) (x : Pub) (ks : List Nat) : KeepsStops s (publish s x ks) := by
  have hadd : KeepsStops s (addPub s x) := ⟨⟨rfl, rfl⟩, fun _ => rfl⟩
  exact (hadd.trans (overlayTrim_memOnly ..).keepsStops).trans (touchWords_keepsStops ..)

theorem pubBytes_keepsStops (s : State) (d : Nat) (t : Stamp) (ord made : Nat) (b : KMap Byte) :
    KeepsStops s (pubBytes s d t ord made b) := by
  unfold pubBytes
  split
  · exact .refl s
  · exact publish_keepsStops ..

/-! ## What a mark publishes (R186) -/

/-- The publications of a mark, the hand still as it was. -/
def markPubs (s : State) (k : Nat) (sec : Bool) (hand : Hand) (m made : Nat) : State :=
  let h := handAccepted s (chipOf (partOf k)) sec hand
  h.pots.foldl (fun u x => pubPot u (domOf s (partOf k)) (m - 1, identOf k) made x)
    (pubBytes (sendPub s k (m - 1, identOf k) ((handFresh h).map (·.1) ++ h.pots.map (·.key)))
      (domOf s (partOf k)) (m - 1, identOf k) 0 made (handFresh h))

theorem pubMark_eq (s : State) (k : Nat) (w : Warp) (m made : Nat) :
    pubMark s k w m made = updWarp (markPubs s k w.sec w.hand m made) k fun w => { w with hand := Hand.empty } := rfl

theorem markPubs_keepsStops (s : State) (k : Nat) (sec : Bool) (hand : Hand) (m made : Nat) :
    KeepsStops s (markPubs s k sec hand m made) :=
  ((sendPub_memOnly ..).keepsStops.trans (pubBytes_keepsStops ..)).trans (.foldl (fun _ _ => publish_keepsStops ..) _ _)

/-! ## Publications do not read the warps -/

/-- The state with other warps. -/
def withWarps (s : State) (ws : KMap Warp) : State := { s with warps := ws }

theorem foldl_withWarps {α : Type} {g : State → α → State} {ws : KMap Warp} (hg : ∀ s x, g (withWarps s ws) x = withWarps (g s x) ws)
    (l : List α) (s : State) : l.foldl g (withWarps s ws) = withWarps (l.foldl g s) ws := by
  induction l generalizing s with
  | nil => rfl
  | cons x l ih => rw [List.foldl_cons, hg, ih]; rfl

theorem sendFlit_withWarps (s : State) (c dest : Nat) (x : FlitPayload) (ws : KMap Warp) :
    sendFlit (withWarps s ws) c dest x = withWarps (sendFlit s c dest x) ws := by
  have hport (u : State) : portTo (withWarps u ws) c dest = portTo u c dest := rfl
  have hput (u : State) (q : Nat) (p : Packet) : putFlit (withWarps u ws) c q p = withWarps (putFlit u c q p) ws := rfl
  have hchip (u : State) (y : Chip) : setChip (withWarps u ws) c y = withWarps (setChip u c y) ws := rfl
  unfold sendFlit
  dsimp only
  rw [hchip, hport, hput]
  rfl

theorem sendFlits_withWarps (s : State) (c dest n : Nat) (x : Nat → FlitPayload) (ws : KMap Warp) :
    sendFlits (withWarps s ws) c dest n x = withWarps (sendFlits s c dest n x) ws := by
  unfold sendFlits
  rw [show chipOfIndex (withWarps s ws) dest = chipOfIndex s dest from rfl]
  cases chipOfIndex s dest with
  | none => rfl
  | some d =>
    dsimp only
    rw [show unreachable (withWarps s ws) c dest = unreachable s c dest from rfl]
    split
    · rfl
    · exact foldl_withWarps (fun _ _ => sendFlit_withWarps ..) _ s

theorem sendPub_withWarps (s : State) (k : Nat) (t : Stamp) (ks : List Nat) (ws : KMap Warp) :
    sendPub (withWarps s ws) k t ks = withWarps (sendPub s k t ks) ws :=
  foldl_withWarps (fun _ _ => sendFlits_withWarps ..) _ s

theorem updSlice_withWarps (s : State) (ov : List Nat) (key : Nat) (f : Nat → List SLine → List SLine) (ws : KMap Warp) :
    updSlice (withWarps s ws) ov key f = withWarps (updSlice s ov key f) ws := by
  unfold updSlice
  dsimp only
  split <;> rfl

theorem publish_withWarps (s : State) (x : Pub) (ks : List Nat) (ws : KMap Warp) :
    publish (withWarps s ws) x ks = withWarps (publish s x ks) ws := by
  have htrim : overlayTrim (withWarps (addPub s x) ws) ks = withWarps (overlayTrim (addPub s x) ks) ws :=
    foldl_withWarps (fun _ _ => updSlice_withWarps ..) _ (addPub s x)
  show touchWords (overlayTrim (withWarps (addPub s x) ws) ks) x.dom x.stamp ks = _
  rw [htrim]
  rfl

theorem pubBytes_withWarps (s : State) (d : Nat) (t : Stamp) (ord made : Nat) (b : KMap Byte) (ws : KMap Warp) :
    pubBytes (withWarps s ws) d t ord made b = withWarps (pubBytes s d t ord made b) ws := by
  unfold pubBytes
  split
  · rfl
  · exact publish_withWarps ..

theorem markPubs_withWarps (s : State) (k : Nat) (sec : Bool) (hand : Hand) (m made : Nat) (ws : KMap Warp) :
    markPubs (withWarps s ws) k sec hand m made = withWarps (markPubs s k sec hand m made) ws := by
  unfold markPubs
  rw [show handAccepted (withWarps s ws) = handAccepted s from rfl, show domOf (withWarps s ws) = domOf s from rfl]
  dsimp only
  rw [sendPub_withWarps, pubBytes_withWarps]
  exact foldl_withWarps (fun _ _ => publish_withWarps ..) _ _

/-- Two warps with one hand leave the same publications, whichever of them the state holds. -/
theorem setWarp_pubMark (s : State) (k m made : Nat) (x : Warp) {a b : Warp} (hsec : a.sec = b.sec) (hhand : a.hand = b.hand) :
    setWarp (pubMark (setWarp s k a) k a m made) k x = setWarp (pubMark (setWarp s k b) k b m made) k x := by
  have hset (a : Warp) : setWarp (pubMark (setWarp s k a) k a m made) k x =
      withWarps (markPubs s k a.sec a.hand m made) (kinsert s.warps k x) := by
    rw [pubMark_eq, show setWarp s k a = withWarps s (kinsert s.warps k a) from rfl, markPubs_withWarps]
    simp only [withWarps, setWarp, updWarp, kmodify_kinsert, kinsert_kinsert]
  rw [hset, hset, hsec, hhand]

end Sys2Proof.Machine
end

section
/-! PROOF. Lanes that fill a hand one after another, and the hand-full pass between them (R188, R189, R200). -/

namespace Sys2Proof.Machine

/-! ## What the lanes make of a hand -/

/-- The hand that the lanes `xs` make of one, each by `put`, and the flags that they raise; `none` when one of them finds no room. -/
def fillHand (put : Hand → Acc → Option (Hand × Nat)) : Hand × Nat → List Acc → Option (Hand × Nat)
  | r, [] => some r
  | r, x :: xs => (put r.1 x).bind fun q => fillHand put (q.1, r.2 ||| q.2) xs

theorem fillHand_eq_foldl (put : Hand → Acc → Option (Hand × Nat)) (xs : List Acc) (r : Hand × Nat) :
    xs.foldl (fun a x => a.bind fun a => (put a.1 x).map fun q => (q.1, a.2 ||| q.2)) (some r) = fillHand put r xs := by
  have hnone (xs : List Acc) : xs.foldl (fun (a : Option (Hand × Nat)) x =>
      a.bind fun a => (put a.1 x).map fun q => (q.1, a.2 ||| q.2)) none = none := by
    induction xs with
    | nil => rfl
    | cons x xs ih => exact ih
  induction xs generalizing r with
  | nil => rfl
  | cons x xs ih =>
    rw [List.foldl_cons, fillHand, Option.bind_some]
    cases put r.1 x with
    | none => exact hnone xs
    | some q => exact ih _

/-- The flags raised before only join those of the lanes. -/
theorem fillHand_flags (put : Hand → Acc → Option (Hand × Nat)) (xs : List Acc) (h : Hand) (g n : Nat) :
    fillHand put (h, g ||| n) xs = (fillHand put (h, n) xs).map fun r => (r.1, g ||| r.2) := by
  induction xs generalizing h n with
  | nil => rfl
  | cons x xs ih =>
    simp only [fillHand]
    cases put h x with
    | none => rfl
    | some q => simp only [Option.bind_some, Nat.or_assoc, ih]

/-! ## The lanes of an instruction -/

/-- `v` has the fragments and the vector registers of `w`. -/
structure SameSource (w v : Warp) : Prop where
  frags : v.frags = w.frags
  run : v.run = w.run
  v : v.v = w.v

theorem SameSource.curPc {w v : Warp} (h : SameSource w v) : curPc v = curPc w := by
  unfold Machine.curPc curFrag
  rw [h.frags, h.run]

/-- `step` enters a lane of an instruction of `w` into the hand of warp `k` by `put`, after the hand-full pass where it finds no room
(R189); in an empty hand it finds room, and raises no flag. -/
structure HandStep (step : State → Acc → State) (put : Hand → Acc → Option (Hand × Nat)) (k : Nat) (w : Warp) : Prop where
  enters : ∀ s v x q, getWarp s k = some v → SameSource w v → put v.hand x = some q →
    step s x = setWarp s k (raiseFp { v with hand := q.1 } q.2)
  passes : ∀ s v x u q, getWarp s k = some v → SameSource w v → put v.hand x = none → Lists (handPass s k) k u → SameSource w u →
    goesOn (handPass s k) k = true → put u.hand x = some q → step s x = setWarp (handPass s k) k { u with hand := q.1 }
  empty : ∀ x q, put Hand.empty x = some q → q.2 = 0

/-- A warp that is ready or at a round gate goes on. -/
theorem goesOn_lists {s : State} {k : Nat} {v : Warp} (h : Lists s k v) (hst : v.stat = .ready ∨ ∃ a m, v.stat = .gate a m) :
    goesOn s k = true := by
  unfold goesOn
  rw [h.warp]
  obtain hst | ⟨a, m, hst⟩ := hst <;> simp [hst]

section

variable {step : State → Acc → State} {put : Hand → Acc → Option (Hand × Nat)} {k : Nat} {w : Warp}

/-- The lanes of an instruction, as long as its warp goes on. -/
def lanesInto (step : State → Acc → State) (k : Nat) (s : State) (xs : List Acc) : State :=
  xs.foldl (fun s x => if goesOn s k then step s x else s) s

/-- Lanes that all find room leave the hand that they make. -/
theorem lanesInto_fits (hs : HandStep step put k w) {u : Warp} (hsrc : SameSource w u)
    (hst : u.stat = .ready ∨ ∃ a m, u.stat = .gate a m) (s : State) (xs : List Acc) : ∀ {h h' : Hand} {g g' : Nat},
    fillHand put (h, g) xs = some (h', g') →
      lanesInto step k (setWarp s k (raiseFp { u with hand := h } g)) xs = setWarp s k (raiseFp { u with hand := h' } g') := by
  induction xs with
  | nil => intro h h' g g' hf; cases hf; rfl
  | cons x xs ih =>
    intro h h' g g' hf
    obtain ⟨q, hq, hf⟩ := Option.bind_eq_some_iff.mp hf
    have hlist := lists_setWarp s k (raiseFp { u with hand := h } g)
    have hstep : step (setWarp s k (raiseFp { u with hand := h } g)) x =
        setWarp s k (raiseFp { u with hand := q.1 } (g ||| q.2)) := by
      rw [hs.enters _ _ x q hlist.warp ⟨hsrc.frags, hsrc.run, hsrc.v⟩ hq, setWarp_setWarp]
      simp only [raiseFp, BitVec.ofNat_or, BitVec.or_assoc]
    rw [lanesInto, List.foldl_cons, if_pos (goesOn_lists hlist hst), hstep]
    exact ih hf

/-- The warp after a hand-full pass to the mark `m`. -/
def passed (m : Nat) (w : Warp) : Warp := { w with hand := Hand.empty, clock := m, region := none, stat := .gate m m }

/-- A hand-full pass whose publications no home refuses (R189). -/
theorem handPass_eq {s : State} {v : Warp} (hl : Lists s k v) (ht : v.turn = true) (hq : 0 < v.quantum) (hr : Running s k)
    (ha : handRefusals s (chipOf (partOf k)) v.sec v.hand true = []) : handPass s k =
      let m := nextMark v.quantum v.clock
      setWarp (pubMark s k v m m) k (passed m v) := by
  have hdiv : nextMark v.quantum v.clock / v.quantum = v.clock / v.quantum + 1 := Nat.mul_div_cancel _ hq
  have hmark : nextMark v.quantum v.clock / v.quantum * v.quantum = nextMark v.quantum v.clock := by rw [hdiv]; rfl
  unfold handPass
  rw [hl.warp]
  dsimp only
  rw [moveClock_crosses hl.warp ht (by omega) hr, ha]
  dsimp only [refuseAll]
  rw [pubMark_eq, (hl.sameWarps (markPubs_keepsStops ..).warps).updWarp, (lists_setWarp ..).updWarp, setWarp_setWarp, setWarp_setWarp]
  simp only [passed, hmark]

/-- Lanes of which one finds no room: the hand that the lanes before it made is published for the next mark, to which the clock moves,
and the lanes from it on fill the empty hand. -/
theorem lanesInto_full (hs : HandStep step put k w) {s : State} (hl : Lists s k w) (hst : w.stat = .ready) (ht : w.turn = true)
    (hq : 0 < w.quantum) (hr : Running s k) {pre post : List Acc} {x : Acc} {h h' : Hand} {g g' : Nat}
    (hpre : fillHand put (w.hand, 0) pre = some (h, g)) (hx : put h x = none)
    (hpost : fillHand put (Hand.empty, 0) (x :: post) = some (h', g'))
    (ha : handRefusals s (chipOf (partOf k)) w.sec h true = []) :
    let m := nextMark w.quantum w.clock
    let full := { w with hand := h }
    lanesInto step k s (pre ++ x :: post) =
      setWarp (pubMark (setWarp s k full) k full m m) k (raiseFp { passed m w with hand := h' } (g ||| g')) := by
  intro m full
  have hself : setWarp s k (raiseFp { w with hand := w.hand } 0) = s := by
    have : raiseFp { w with hand := w.hand } 0 = w := by simp [raiseFp]
    rw [this]; exact hl
  obtain ⟨q, hq0, hrest⟩ := Option.bind_eq_some_iff.mp hpost
  have hq2 : q.2 = 0 := hs.empty x q hq0
  let t := setWarp s k (raiseFp full g)
  have hlt : Lists t k (raiseFp full g) := lists_setWarp ..
  have hpass : handPass t k = setWarp (pubMark t k (raiseFp full g) m m) k (passed m (raiseFp full g)) :=
    handPass_eq hlt ht hq hr ha
  have hstep : step t x = setWarp (pubMark (setWarp s k full) k full m m) k (raiseFp { passed m w with hand := q.1 } g) := by
    have hlp : Lists (handPass t k) k (passed m (raiseFp full g)) := by rw [hpass]; exact lists_setWarp ..
    rw [hs.passes t _ x _ q hlt.warp ⟨rfl, rfl, rfl⟩ hx hlp ⟨rfl, rfl, rfl⟩ (goesOn_lists hlp (.inr ⟨m, m, rfl⟩)) hq0, hpass, setWarp_setWarp]
    exact setWarp_pubMark s k m m _ rfl rfl
  have hfit : fillHand put (q.1, g) post = some (h', g ||| g') := by
    have hflags := fillHand_flags put post q.1 g 0
    rw [hq2, Nat.or_zero] at hrest
    rw [Nat.or_zero, hrest] at hflags
    exact hflags
  calc lanesInto step k s (pre ++ x :: post)
      = lanesInto step k (lanesInto step k s pre) (x :: post) := List.foldl_append ..
    _ = lanesInto step k t (x :: post) := by
        conv_lhs => rw [← hself]
        rw [lanesInto_fits hs ⟨rfl, rfl, rfl⟩ (.inl hst) s pre hpre]
    _ = lanesInto step k (step t x) post := by rw [lanesInto, List.foldl_cons, if_pos (goesOn_lists hlt (.inl hst))]; rfl
    _ = _ := by
        rw [hstep]
        exact lanesInto_fits hs (u := passed m w) ⟨rfl, rfl, rfl⟩ (.inr ⟨m, m, rfl⟩) _ post hfit

end

end Sys2Proof.Machine
end

section
/-! PROOF. O28: a store reaches group memory, the hand or the queue of posted stores (R164 to R166, R186, R188, R189). -/

namespace Sys2Proof.Machine

/-! ## Stores into the hand (R188, R189) -/

/-- A lane of a store of `w` in a hand. -/
def storePut (w : Warp) (o : Op) (f : Long) (h : Hand) (x : Acc) : Option Hand :=
  handPut h (accKey x) x.va (curPc w) (storeBytes w o f x.lane)

/-- The hand that the lanes of a store make of one. -/
def storeAll (w : Warp) (o : Op) (f : Long) (h : Hand) (xs : List Acc) : Option Hand :=
  xs.foldl (fun a x => a.bind fun h => storePut w o f h x) (some h)

theorem storeAll_cons (w : Warp) (o : Op) (f : Long) (h : Hand) (x : Acc) (xs : List Acc) :
    storeAll w o f h (x :: xs) = (storePut w o f h x).bind fun h => storeAll w o f h xs := by
  have hnone (xs : List Acc) : xs.foldl (fun (a : Option Hand) x => a.bind fun h => storePut w o f h x) none = none := by
    induction xs with
    | nil => rfl
    | cons x xs ih => exact ih
  rw [storeAll, List.foldl_cons, Option.bind_some]
  cases storePut w o f h x with
  | none => exact hnone xs
  | some h' => rfl

/-- A store raises no flag. -/
def storeStep (w : Warp) (o : Op) (f : Long) (h : Hand) (x : Acc) : Option (Hand × Nat) := (storePut w o f h x).map fun h => (h, 0)

theorem fillHand_storeStep (w : Warp) (o : Op) (f : Long) (xs : List Acc) (h : Hand) :
    fillHand (storeStep w o f) (h, 0) xs = (storeAll w o f h xs).map fun h => (h, 0) := by
  induction xs generalizing h with
  | nil => rfl
  | cons x xs ih =>
    rw [storeAll_cons, fillHand, storeStep]
    cases storePut w o f h x with
    | none => rfl
    | some h' => simpa using ih h'

theorem handStep_store (k : Nat) (w : Warp) (o : Op) (f : Long) :
    HandStep (fun s x => handStore s k (accKey x) x.va (storeBytes w o f x.lane)) (storeStep w o f) k w where
  enters s v x q hv hsrc hq := by
    obtain ⟨h, hput, rfl⟩ := Option.map_eq_some_iff.mp hq
    unfold storePut at hput
    unfold handStore
    simp only [hv, hsrc.curPc, hput]
    simp [raiseFp]
  passes s v x u q hv hsrc hnone hl hu hgo hq := by
    obtain ⟨h, hput, rfl⟩ := Option.map_eq_some_iff.mp hq
    have hno := Option.map_eq_none_iff.mp hnone
    unfold storePut at hput hno
    unfold handStore
    simp only [hv, hsrc.curPc, hno, hgo, hl.updWarp, hu.curPc, hput]
    simp
  empty x q hq := by
    obtain ⟨h, -, rfl⟩ := Option.map_eq_some_iff.mp hq
    rfl

/-- Lanes that find room are passed over in the search for the first that does not. -/
theorem handOver_append {w : Warp} {o : Op} {f : Long} {pre : List Acc} {h h' : Hand} (hp : storeAll w o f h pre = some h')
    (post : List Acc) : handOver w o f h (pre ++ post) = handOver w o f h' post := by
  induction pre generalizing h with
  | nil => cases hp; rfl
  | cons x pre ih =>
    rw [storeAll_cons] at hp
    obtain ⟨h1, hput, hp⟩ := Option.bind_eq_some_iff.mp hp
    unfold storePut at hput
    rw [List.cons_append, handOver, hput]
    exact ih hp

theorem handOver_fits {w : Warp} {o : Op} {f : Long} {xs : List Acc} {h h' : Hand} (hp : storeAll w o f h xs = some h') :
    handOver w o f h xs = none := by
  simpa [handOver] using handOver_append hp []

theorem handOver_full {w : Warp} {o : Op} {f : Long} {pre : List Acc} {h h' : Hand} {x : Acc} (hp : storeAll w o f h pre = some h')
    (hx : storePut w o f h' x = none) (post : List Acc) : handOver w o f h (pre ++ x :: post) = some x := by
  unfold storePut at hx
  rw [handOver_append hp, handOver, hx]

/-! ## The body of a store -/

theorem bodyOf_store {o : Op} (ho : o ∈ [.vst, .vsts, .sst]) (f : Long) (len : Nat) : bodyOf o f len = storeBody o f := by
  simp only [List.mem_cons, List.not_mem_nil, or_false] at ho
  obtain rfl | rfl | rfl := ho <;> rfl

/-- A store to global memory whose elements pass their checks goes to the hand, or is posted. -/
theorem storeBody_global {o : Op} {f : Long} {s : State} {k : Nat} {w : Warp} {xs : List Acc} (hwin : inWindow w o f = false)
    (hck : checkAll s k w o f (if w.turn then some .store else none) true = (xs, none)) :
    storeBody o f s k w = if w.turn then turnStore o f s k w xs else postStore o f s k w xs := by
  unfold storeBody
  simp only [hck, hwin, Bool.false_eq_true, if_false]

/-- The state after a turn-mode store's translations, before its lanes. -/
def storeTouched (s : State) (k : Nat) (xs : List Acc) : State :=
  countPages (dirtyAll s (siteOf s k) xs) (siteOf s k) (accPages xs)

theorem storeTouched_memOnly (s : State) (k : Nat) (xs : List Acc) : MemOnly s (storeTouched s k xs) :=
  (dirtyAll_memOnly ..).trans (countPages_memOnly ..)

theorem turnStore_lanes {o : Op} {f : Long} {s : State} {k : Nat} {w : Warp} {xs : List Acc}
    (hroom : w.sys = true → handOver w o f w.hand xs = none) : turnStore o f s k w xs =
      let t := lanesInto (fun s x => handStore s k (accKey x) x.va (storeBytes w o f x.lane)) k (storeTouched s k xs) xs
      if goesOn t k then .retire t .next none id else .done t := by
  have hnone : (if w.sys then handOver w o f w.hand xs else none) = none := by
    split
    · exact hroom ‹_›
    · rfl
  unfold turnStore
  rw [hnone]
  rfl

/-- A store whose lanes all find room in the hand. -/
theorem turnStore_fits {o : Op} {f : Long} {s : State} {k : Nat} {w : Warp} {xs : List Acc} {h : Hand} (hl : Lists s k w)
    (hst : w.stat = .ready) (hp : storeAll w o f w.hand xs = some h) :
    turnStore o f s k w xs = .retire (setWarp (storeTouched s k xs) k { w with hand := h }) .next none id := by
  have hlt : Lists (storeTouched s k xs) k w := hl.sameWarps (storeTouched_memOnly ..).sameWarps
  have hfill : fillHand (storeStep w o f) (w.hand, 0) xs = some (h, 0) := by rw [fillHand_storeStep, hp]; rfl
  have hlanes := lanesInto_fits (handStep_store k w o f) (u := w) ⟨rfl, rfl, rfl⟩ (.inl hst) (storeTouched s k xs) xs hfill
  have hzero (h : Hand) : raiseFp { w with hand := h } 0 = { w with hand := h } := by simp [raiseFp]
  have hself : setWarp (storeTouched s k xs) k { w with hand := w.hand } = storeTouched s k xs := hlt
  rw [hzero, hzero, hself] at hlanes
  rw [turnStore_lanes fun _ => handOver_fits hp]
  have hgo : goesOn (setWarp (storeTouched s k xs) k { w with hand := h }) k = true := goesOn_lists (lists_setWarp ..) (.inl hst)
  dsimp only
  rw [hlanes, if_pos hgo]

/-- A user program's store of which one lane finds no room (R189). -/
theorem turnStore_full {o : Op} {f : Long} {s : State} {k : Nat} {w : Warp} {pre post : List Acc} {x : Acc} {h h' : Hand}
    (hl : Lists s k w) (hst : w.stat = .ready) (ht : w.turn = true) (hsys : w.sys = false) (hq : 0 < w.quantum) (hr : Running s k)
    (hpre : storeAll w o f w.hand pre = some h) (hx : storePut w o f h x = none)
    (hpost : storeAll w o f Hand.empty (x :: post) = some h')
    (ha : handRefusals (storeTouched s k (pre ++ x :: post)) (chipOf (partOf k)) w.sec h true = []) :
    let m := nextMark w.quantum w.clock
    let full := { w with hand := h }
    turnStore o f s k w (pre ++ x :: post) =
      .retire (setWarp (pubMark (setWarp (storeTouched s k (pre ++ x :: post)) k full) k full m m) k { passed m w with hand := h' })
        .next none id := by
  intro m full
  have hmem := storeTouched_memOnly s k (pre ++ x :: post)
  have hlanes := lanesInto_full (handStep_store k w o f) (hl.sameWarps hmem.sameWarps) hst ht hq (hmem.keepsStops.running hr)
    (by rw [fillHand_storeStep, hpre]; rfl) (by rw [storeStep, hx]; rfl) (by rw [fillHand_storeStep, hpost]; rfl) ha
  have hzero : raiseFp { passed m w with hand := h' } (0 ||| 0) = { passed m w with hand := h' } := by simp [raiseFp]
  dsimp only at hlanes
  rw [hzero] at hlanes
  rw [turnStore_lanes fun h => by rw [hsys] at h; cases h]
  dsimp only
  rw [hlanes, if_pos (goesOn_lists (lists_setWarp ..) (.inr ⟨m, m, rfl⟩))]

/-! ## O28 -/

/-- A publication for a mark leaves the warp's card running. -/
theorem pubMark_runs {s : State} {k : Nat} (hr : Running s k) (w : Warp) (m made : Nat) : Running (pubMark s k w m made) k := by
  rw [pubMark_eq]
  exact (markPubs_keepsStops ..).running hr

/-- An instruction whose lanes made a hand-full pass retires from the mark at whose gate its warp then stands. -/
theorem retiresAt_passed {i : Instr} {s s1 s2 : State} {k len m made : Nat} {o : Op} {f : Long} {w u v : Warp} (h : Performs i s k o f len s1 w)
    (hs : KeepsStops s1 s2)
    (hb : bodyOf o f len s1 k w = .retire (setWarp (pubMark (setWarp s2 k u) k u m made) k v) .next none id) (hst : v.stat = .gate m m) :
    RetiresAt i s k len (pubMark (setWarp s2 k u) k u m made) v .next (v.clock + weightOf w o f) := by
  have hrun : Running (setWarp s2 k u) k := hs.running (performs_runs h)
  exact (retiresAt_goes h hb (lists_setWarp ..).warp (by simp [Goes, hst]) fun _ => pubMark_runs hrun u m made).of_setWarp

/-- Settles O28: group memory and the queue by the body of a store, the hand by `turnStore_fits` and `turnStore_full`. -/
theorem storesReachGroupMemoryHandOrQueue : Obligations.StoresReachGroupMemoryHandOrQueue := by
  intro i s s1 k len o f w h ho z bytes put puts
  have hready := performs_ready h
  have hlist := performs_lists h
  have hbody {a : Act} (ha : storeBody o f s1 k w = a) : bodyOf o f len s1 k w = a := by rw [bodyOf_store ho]; exact ha
  refine ⟨fun hwin xs g hck hg hstall => ?group, fun hwin ht xs hck => ⟨fun h' hputs => ?fits, fun pre x post hh hxs hpre hx =>
    ⟨fun hsys => ?faults, fun hsys hq ha h' hpost => ?full⟩⟩, fun hwin ht xs hck => ?posted⟩
  case group =>
    have hno : xs.any (fun x => rangeStall w g true x.va (elemSize o f)) = false := by simpa using hstall
    refine retires_law h (hbody ?_) hlist.warp hready rfl rfl
    unfold storeBody
    simp only [hck, hwin, hg, hno, if_true, Bool.false_eq_true, if_false]
    rfl
  case fits =>
    have hb := (storeBody_global (o := o) (f := f) hwin (by rw [ht]; exact hck)).trans (if_pos ht)
    exact memOp_law h (hbody (hb.trans (turnStore_fits hlist hready hputs))) (storeTouched_memOnly s1 k xs) ⟨rfl, rfl⟩
  case faults =>
    subst hxs
    refine hbody (((storeBody_global (o := o) (f := f) hwin (by rw [ht]; exact hck)).trans (if_pos ht)).trans ?_)
    unfold turnStore
    simp only [hsys, if_true, handOver_full hpre hx]
    rfl
  case full =>
    subst hxs
    have hb := (storeBody_global (o := o) (f := f) hwin (by rw [ht]; exact hck)).trans (if_pos ht)
    exact retiresAt_passed h (storeTouched_memOnly s1 k _).keepsStops
      (hbody (hb.trans (turnStore_full hlist hready ht hsys hq (performs_runs h) hpre hx hpost ha))) rfl
  case posted =>
    refine regOp_law h (hbody (((storeBody_global hwin (by rw [ht]; exact hck)).trans (if_neg (by simp [ht]))).trans ?_))
      (by split <;> exact ⟨rfl, rfl⟩)
    cases xs with
    | nil =>
      show Act.retire (setWarp s1 k w) .next none id = _
      rw [if_pos rfl, List.append_nil, List.append_nil]
      split <;> rfl
    | cons x xs =>
      show Act.retire (setWarp s1 k (setPosted w _)) .next none id = _
      rw [if_neg (List.cons_ne_nil x xs)]
      unfold setPosted postedOf
      split <;> rfl

end Sys2Proof.Machine
end

section
/-! PROOF. Where a synchronising operation performs (R190, R193, R330, R336, R339): the state in which its effect begins. -/

namespace Sys2Proof.Machine

/-! ## What comes before an instruction leaves its warp's course (R75, R97, R166) -/

theorem applyW_course (w : Warp) (x : RegW) : (applyW w x).turn = w.turn ∧ (applyW w x).sys = w.sys ∧ (applyW w x).stat = w.stat := by
  cases x <;> exact ⟨by simp [applyW], by simp [applyW], by simp [applyW]⟩

theorem SameCourse.of_fields {w v : Warp} (h : v.turn = w.turn ∧ v.sys = w.sys ∧ v.stat = w.stat) : SameCourse w v :=
  ⟨h.1, h.2.1, by unfold Goes; rw [h.2.2]; exact id⟩

theorem foldl_course {α : Type} {g : Warp → α → Warp} (hg : ∀ w x, (g w x).turn = w.turn ∧ (g w x).sys = w.sys ∧ (g w x).stat = w.stat)
    (l : List α) (w : Warp) : (l.foldl g w).turn = w.turn ∧ (l.foldl g w).sys = w.sys ∧ (l.foldl g w).stat = w.stat := by
  induction l generalizing w with
  | nil => exact ⟨rfl, rfl, rfl⟩
  | cons x l ih =>
    obtain ⟨ht, hs, hst⟩ := ih (g w x)
    obtain ⟨gt, gs, gst⟩ := hg w x
    exact ⟨ht.trans gt, hs.trans gs, hst.trans gst⟩

theorem applyPend_course (w : Warp) (x : Pend) :
    (applyPend w x).turn = w.turn ∧ (applyPend w x).sys = w.sys ∧ (applyPend w x).stat = w.stat :=
  foldl_course applyW_course x.writes w

theorem confirmAll_sameWarps (k : Nat) (us : List Unconf) (s : State) (acc : List Pend) : SameWarps s (confirmAll s k us acc).1 := by
  induction us generalizing s acc with
  | nil => exact .refl s
  | cons u us ih =>
    unfold confirmAll
    split
    · exact .refl s
    · exact (SameWarps.foldl (fun t va => (install_memOnly t _ va).sameWarps) _ s).trans (ih ..)

theorem settle_keepsCourse {s t : State} {k : Nat} (h : settle s k = .ok t) : KeepsCourse s t := by
  unfold settle at h
  split at h
  · cases h
  split at h
  · cases h
  dsimp only at h
  split at h
  · cases h
  · cases h
    refine (confirmAll_sameWarps ..).keepsCourse.trans (updWarp_keepsCourse _ k fun w => .of_fields ?_)
    exact foldl_course applyPend_course _ w

theorem confirm_keepsCourse {s t : State} {k : Nat} (h : confirm s k = .ok t) : KeepsCourse s t := by
  unfold confirm at h
  split at h
  · cases h
  dsimp only at h
  split at h
  · cases h
  · cases h
    exact (confirmAll_sameWarps ..).keepsCourse.trans (updWarp_keepsCourse _ k fun w => .of_fields ⟨rfl, rfl, rfl⟩)

theorem setPosted_course (w : Warp) (xs : List Posted) :
    (setPosted w xs).turn = w.turn ∧ (setPosted w xs).sys = w.sys ∧ (setPosted w xs).stat = w.stat := by
  unfold setPosted; split <;> exact ⟨rfl, rfl, rfl⟩

theorem setHeld_course (w : Warp) (x : Option (Nat × Nat)) :
    (setHeld w x).turn = w.turn ∧ (setHeld w x).sys = w.sys ∧ (setHeld w x).stat = w.stat := by
  unfold setHeld; split <;> exact ⟨rfl, rfl, rfl⟩

theorem performPosted_keepsCourse (s : State) (k : Nat) : KeepsCourse s (performPosted s k) := by
  unfold performPosted
  split
  next => exact .refl s
  next w _ =>
  dsimp only
  split
  next => exact .refl s
  next x rest _ =>
  split
  · exact ((walkTouch_memOnly ..).trans (reportSecure_memOnly ..)).sameWarps.keepsCourse.trans
      (updWarp_keepsCourse _ k fun w => .of_fields (setHeld_course ..))
  generalize (postedLanes s (siteOf s k) w.sec x).map (fun y => y.2.1.key) = keys
  refine (serveCore_keepsCourse s k keys).trans ?_
  split
  · exact .refl _
  split
  · exact .refl _
  refine .trans (.trans ?_ (.foldl (fun u y => ?_) _ _)) (refuseAll_keepsCourse ..)
  · refine .trans ?_ (.foldl (fun u _ => (sendFlits_memOnly u ..).sameWarps.keepsCourse) _ _)
    refine .trans (.trans ?_ (updWarp_keepsCourse _ k fun w => .of_fields (setPosted_course w rest)))
      (countPages_memOnly ..).sameWarps.keepsCourse
    exact .foldl (fun u l => ((install_memOnly u ..).trans (setDirty_memOnly ..)).sameWarps.keepsCourse) _ _
  · split
    · exact (freeWrite_memOnly ..).sameWarps.keepsCourse
    · exact .refl u

theorem drainPosted_keepsCourse (k n : Nat) (s : State) : KeepsCourse s (drainPosted s k n) := by
  induction n generalizing s with
  | zero => exact .refl s
  | succ n ih =>
    unfold drainPosted
    split
    · exact .refl s
    split
    · exact (performPosted_keepsCourse s k).trans (ih _)
    · exact .refl s

theorem prepared_keepsCourse {s t : State} {k : Nat} {w : Warp} {o : Op} {f : Long} (h : prepared s k w o f = some t) : KeepsCourse s t := by
  unfold prepared at h
  split at h
  next u hu =>
    have hsu : KeepsCourse s u := by
      split at hu
      · exact settle_keepsCourse hu
      · split at hu
        · exact confirm_keepsCourse hu
        · cases hu; exact .refl s
    obtain ⟨v, -, hv⟩ := Option.bind_eq_some_iff.mp h
    split at hv
    · cases hv
    split at hv
    · split at hv
      · cases hv
      · cases hv; exact hsu.trans (drainPosted_keepsCourse k 8 u)
    · cases hv; exact hsu
  next => cases h

/-- No handler performs an operation that R101 makes illegal at system privilege. -/
theorem performs_user {i : Instr} {s s1 : State} {k len : Nat} {o : Op} {f : Long} {w : Warp} (h : Performs i s k o f len s1 w)
    (ho : sysIllegal o = true) : w.sys = false := by
  obtain ⟨-, v, s0, w0, c, rfl, -⟩ := h
  obtain ⟨v', hv', -, hsys, -⟩ := (prepared_keepsCourse c.prep).warp k w0 c.warp0
  cases c.warp.symm.trans hv'
  show w0.sys = false
  rw [hsys]
  have hpre := c.checks
  unfold preCheck at hpre
  by_contra hv
  have hv : v.sys = true := by simpa using hv
  simp only [hv, ho, Bool.and_self, Bool.or_true, Bool.true_or, if_true] at hpre
  split at hpre
  · cases hpre
  · split at hpre <;> cases hpre

/-! ## The way to a home -/

theorem sendAccess_memOnly (s : State) (k : Nat) (w : Warp) (n : Nat) (xs : List Acc) : MemOnly s (sendAccess s k w n xs) :=
  .foldl (fun _ _ => sendFlits_memOnly ..) _ s

/-- The publications of a turn, the hand still as it was. -/
def turnPubs (s : State) (k : Nat) (w : Warp) (t : Stamp) : State :=
  let h := handFresh (handAccepted s (chipOf (partOf k)) w.sec w.hand)
  pubBytes (sendPub s k t (h.map (·.1))) (domOf s (partOf k)) t 0 t.1 h

theorem turnPubs_keepsStops (s : State) (k : Nat) (w : Warp) (t : Stamp) : KeepsStops s (turnPubs s k w t) :=
  (sendPub_memOnly ..).keepsStops.trans (pubBytes_keepsStops ..)

/-- A turn that publishes its warp's hand leaves it listed with that hand published. -/
theorem pubHand_lists {s : State} {k : Nat} {w : Warp} (h : Lists s k w) (t : Stamp) :
    pubHand s k w t = setWarp (turnPubs s k w t) k { w with hand := handPublished w.hand } :=
  (h.sameWarps (turnPubs_keepsStops ..).warps).updWarp _

theorem turnPub_turn {s : State} {k : Nat} {w : Warp} (hw : getWarp s k = some w) (ht : w.turn = true) :
    turnPub s k = pubHand s k w (stampOf k w) := by
  unfold turnPub; rw [hw]; exact if_pos ht

theorem turnPub_free {s : State} {k : Nat} {w : Warp} (hw : getWarp s k = some w) (ht : w.turn = false) : turnPub s k = s := by
  unfold turnPub; rw [hw]; exact if_neg (by simp [ht])

/-- What a synchronising operation does before its turn's publication. -/
def syncSent (o : Op) (f : Long) (use : Use) (s : State) (k : Nat) (w : Warp) (xs : List Acc) : State :=
  let z := siteOf s k
  let s := if use = .load then installAll s z xs else dirtyAll s z xs
  let s := if w.passed && o == .tktWait then s else countPages s z (accPages xs)
  sliceTouches (sendAccess s k w (elemSize o f) xs) (use != .load) 0 (xs.map accKey)

theorem syncTouch_eq (o : Op) (f : Long) (use : Use) (s : State) (k : Nat) (w : Warp) (xs : List Acc) :
    syncTouch o f use s k w xs = turnPub (syncSent o f use s k w xs) k := rfl

theorem syncSent_memOnly (o : Op) (f : Long) (use : Use) (s : State) (k : Nat) (w : Warp) (xs : List Acc) :
    MemOnly s (syncSent o f use s k w xs) := by
  have htlb : MemOnly s (if use = .load then installAll s (siteOf s k) xs else dirtyAll s (siteOf s k) xs) := by
    split
    · exact installAll_memOnly ..
    · exact dirtyAll_memOnly ..
  have hcount (t : State) : MemOnly t (if w.passed && o == .tktWait then t else countPages t (siteOf s k) (accPages xs)) := by
    split
    · exact .refl t
    · exact countPages_memOnly ..
  exact ((htlb.trans (hcount _)).trans (sendAccess_memOnly ..)).trans (sliceTouches_memOnly ..)

/-! ## The state in which it performs -/

/-- The warp `v` stands in `s` at the home `h` of a synchronising operation that `w` issued. -/
structure AtHome (w : Warp) (s : State) (k : Nat) (v : Warp) (h : Home) : Prop where
  warp : getWarp s k = some v
  goes : Goes v
  turn : v.turn = w.turn
  sys : v.sys = w.sys
  lists : v.turn = true → Lists s k v
  runs : v.turn = true → Running s k
  home : h ≠ .group → h = if v.turn then .turn else .free

theorem AtHome.keepsStops {w v : Warp} {s t : State} {k : Nat} {h : Home} (a : AtHome w s k v h) (hs : KeepsStops s t) : AtHome w t k v h where
  warp := (congrArg (kfind · k) hs.warps.1).trans a.warp
  goes := a.goes
  turn := a.turn
  sys := a.sys
  lists ht := (a.lists ht).sameWarps hs.warps
  runs ht := hs.running (a.runs ht)
  home := a.home

/-- A turn that publishes its warp's hand stands at the slices. -/
theorem atHome_turn {s t : State} {k : Nat} {w v : Warp} (hl : Lists s k w) (hg : Goes w) (ht : w.turn = true) (hr : Running s k)
    (hs : MemOnly s t) (hv : getWarp (turnPub t k) k = some v) : AtHome w (turnPub t k) k v (if v.turn then .turn else .free) := by
  have hlt := hl.sameWarps hs.sameWarps
  rw [turnPub_turn hlt.warp ht, pubHand_lists hlt] at hv ⊢
  obtain rfl : _ = v := by simpa using hv
  exact { warp := hv, goes := hg, turn := rfl, sys := rfl, lists := fun _ => lists_setWarp ..
          runs := fun _ => (hs.keepsStops.trans (turnPubs_keepsStops ..)).running hr, home := fun _ => rfl }

/-- A free-mode operation stands at the slices of its lines, which the core's earlier accesses have passed (R173). -/
theorem atHome_free {s u t : State} {k : Nat} {w v : Warp} (hw : getWarp s k = some w) (hg : Goes w) (ht : w.turn = false)
    (hs : KeepsCourse s u) (hm : MemOnly u t) (hv : getWarp (turnPub t k) k = some v) :
    AtHome w (turnPub t k) k v (if v.turn then .turn else .free) := by
  have hcourse {x : Warp} (hx : getWarp t k = some x) : SameCourse w x := by
    rw [hm.getWarp] at hx
    obtain ⟨y, hy, hyx⟩ := hs.warp k x hx
    cases hw.symm.trans hy
    exact hyx
  cases hx : getWarp t k with
  | none => simp [turnPub, hx] at hv
  | some x =>
    obtain ⟨hturn, hsys, hgo⟩ := hcourse hx
    rw [turnPub_free hx (hturn.trans ht)] at hv ⊢
    cases hx.symm.trans hv
    exact { warp := hx, goes := hgo hg, turn := hturn, sys := hsys, lists := fun h => absurd (hturn.symm.trans h) (by simp [ht])
            runs := fun h => absurd (hturn.symm.trans h) (by simp [ht]), home := fun _ => rfl }

/-- What a synchronising operation that reaches its home does is its effect there. -/
theorem syncBody_reachesHome {i : Instr} {s s1 s2 : State} {k len : Nat} {o : Op} {f : Long} {w v : Warp} {use : Use} {window load : Bool}
    {h : Home} {xs : List Acc} (hp : Performs i s k o f len s1 w) (hr : reachesHome s1 k w o f use window load = some (s2, v, h, xs)) :
    AtHome w s2 k v h ∧ checkAll s1 k w o f (some use) window = (xs, none) ∧
      ∀ eff, syncBody o f use window load eff s1 k w = eff s2 k v h xs := by
  have hw := performs_warp hp
  have hgo : Goes w := by simp [Goes, performs_ready hp]
  unfold reachesHome at hr
  unfold syncBody
  rcases hck : checkAll s1 k w o f (some use) window with ⟨ys, _ | e⟩
  case some => rw [hck] at hr; cases hr
  rw [hck] at hr
  dsimp only at hr ⊢
  by_cases hwin : (window && inWindow w o f) = true
  · rw [if_pos hwin] at hr
    simp only [if_pos hwin]
    cases hg : getGroup s1 k with
    | none => rw [hg] at hr; cases hr
    | some g =>
      rw [hg] at hr
      dsimp only at hr ⊢
      split at hr
      · cases hr
      next hstall =>
        cases hr
        exact ⟨⟨hw, hgo, rfl, rfl, fun _ => performs_lists hp, fun _ => performs_runs hp, fun h => absurd rfl h⟩, rfl, fun _ => if_neg hstall⟩
  · rw [if_neg hwin] at hr
    simp only [if_neg hwin]
    generalize hu : (if w.turn then s1 else serveCore s1 k (ys.map accKey)) = u at hr ⊢
    split at hr
    · cases hr
    next hpass =>
      obtain ⟨hwait, hbad⟩ : _ ∧ _ := by simpa only [Bool.or_eq_true, not_or] using hpass
      obtain ⟨v', hv', he⟩ := Option.map_eq_some_iff.mp hr
      cases he
      refine ⟨?_, rfl, fun eff => by rw [if_neg hwait, if_neg hbad, hv']⟩
      rw [syncTouch_eq] at hv' ⊢
      by_cases ht : w.turn = true
      · rw [if_pos ht] at hu
        cases hu
        exact atHome_turn (performs_lists hp) hgo ht (performs_runs hp) (syncSent_memOnly ..) hv'
      · rw [if_neg ht] at hu
        cases hu
        exact atHome_free hw hgo (by simpa using ht) (serveCore_keepsCourse ..) (syncSent_memOnly ..) hv'

end Sys2Proof.Machine
end

section
/-! PROOF. Atomics and pots combine their elements in lane order (R200, R215, R216). -/

namespace Sys2Proof.Machine

open Sys2Proof.Forms

/-! ## What an effect at a home leaves -/

theorem homeWrite_keepsStops (s : State) (k : Nat) (w : Warp) (h : Home) (ov : KMap Byte) : KeepsStops s (homeWrite s k w h ov) := by
  cases h with
  | group => exact ⟨⟨rfl, rfl⟩, fun _ => rfl⟩
  | turn => exact pubBytes_keepsStops ..
  | free => exact .foldl (fun _ _ => (freeWrite_memOnly ..).keepsStops) ov s

/-- In free mode an acquire of scope die or wider drops the L1's lines, whatever its home (log 16). -/
theorem AtHome.freeAcquire_eq {w v : Warp} {s : State} {k : Nat} {h : Home} (a : AtHome w s k v h) (f : Long) (acq : Bool) :
    freeAcquire s k f acq h = if acq = true ∧ v.turn = false ∧ 3 ≤ f.mod.toNat then l1Clear s k else s := by
  have hturn : v.turn = false → h ≠ .turn := fun hv hh => by
    have := a.home (by simp [hh])
    simp [hh, hv] at this
  unfold freeAcquire
  rw [a.warp]
  cases hv : v.turn with
  | true => simp [hv]
  | false => simp [hv, hturn hv]

theorem freeAcquire_keepsStops (s : State) (k : Nat) (f : Long) (acq : Bool) (h : Home) : KeepsStops s (freeAcquire s k f acq h) := by
  unfold freeAcquire
  split
  · exact (l1Clear_memOnly ..).keepsStops
  · exact .refl s

theorem jumpClock_getD (v : Warp) (acq : Bool) (h : Home) (c : Nat) :
    (jumpClock v acq h).getD c = if acq = true ∧ h = .turn then ceilMark v.quantum (v.clock + 1) else c := by
  unfold jumpClock acquireClock
  by_cases hj : acq = true ∧ h = .turn
  · rw [if_pos hj, if_pos (by simpa using hj)]; rfl
  · rw [if_neg hj, if_neg (by simpa using hj)]; rfl

/-- An operation of the turn unit of weight 1 retires from its home with what it does to its warp. -/
theorem AtHome.retires {i : Instr} {s s1 t : State} {k len : Nat} {o : Op} {f : Long} {w v : Warp} {h : Home} {g : Warp → Warp}
    {clk : Option Nat} (a : AtHome w t k v h) (hp : Performs i s k o f len s1 w) (ho : sysIllegal o = true) (hwt : weight o f = 1)
    (hb : bodyOf o f len s1 k w = .retire (updWarp t k g) .next clk id) (hg : SameCourse v (g v)) :
    RetiresAt i s k len t (g v) .next (clk.getD ((g v).clock + 1)) := by
  obtain ⟨hturn, -, hgo⟩ := hg
  have hwarp : getWarp (updWarp t k g) k = some (g v) := by rw [getWarp_updWarp, if_pos rfl, a.warp]; rfl
  have hret := retiresAt_goes hp hb hwarp (hgo a.goes) fun ht => a.runs (hturn ▸ ht)
  rw [show weightOf w o f = 1 by simp [weightOf, performs_user hp ho, hwt]] at hret
  cases ht : v.turn with
  | true => rw [(a.lists ht).updWarp] at hret; exact hret.of_setWarp
  | false => exact hret.of_updWarp (hturn.trans ht)

theorem RetiresAt.weighs {i : Instr} {s s1 s2 t : State} {k len : Nat} {o : Op} {f : Long} {w v u : Warp} {h : Home}
    (hr : RetiresAt i s k len t u .next (u.clock + 1)) (hp : Performs i s k o f len s1 w) (ho : sysIllegal o = true) (hwt : weight o f = 1)
    (hu : SameCourse v u) (a : AtHome w s2 k v h) : Retires i s k o f len t u := by
  unfold Retires
  rw [show weightOf u o f = 1 by simp [weightOf, hu.2.1, a.sys, performs_user hp ho, hwt]]
  exact hr

/-! ## Elements that go to another chip (R336) -/

/-- Only a load uses a replica (R338). -/
theorem translate_mode {s : State} {z : Site} {sec : Bool} {use : Use} {va n : Nat} {y : Xlat} (hu : use ≠ .load)
    (h : translate s z sec use va n = .ok y) : y.mode ≠ 2 := by
  unfold translate at h
  split at h
  · cases h
  dsimp only at h
  split at h; · cases h
  split at h; · cases h
  split at h; · cases h
  split at h; · cases h
  next hmode =>
    split at h; · cases h
    split at h; · cases h
    cases h
    simpa [hu] using hmode

theorem checkElem_mode {s : State} {z : Site} {sec : Bool} {q : AccKind} {sp : Space} {l : Nat} {a : Int} {x : Acc} {y : Xlat}
    (hu : q.use ≠ some .load) (h : checkElem s z sec q sp l a = .ok x) (hy : x.x = some y) : y.mode ≠ 2 := by
  unfold checkElem at h
  dsimp only at h
  split at h; · cases h
  split at h; · cases h
  split at h; · cases h
  split at h
  · cases h; cases hy
  split at h
  · cases h; cases hy
  next u hq =>
    split at h
    next ht => cases h; cases hy; exact translate_mode (fun hu' => hu (hu' ▸ hq)) ht
    next => cases h

theorem checkElems_mode {s : State} {z : Site} {sec : Bool} {q : AccKind} {sp : Space} (hu : q.use ≠ some .load) (es : List (Nat × Int)) :
    ∀ x ∈ (checkElems s z sec q sp es).1, ∀ y, x.x = some y → y.mode ≠ 2 := by
  induction es with
  | nil => exact nofun
  | cons e es ih =>
    unfold checkElems
    split
    · exact nofun
    next x hx =>
      intro z hz y hy
      obtain rfl | hz := List.mem_cons.mp hz
      · exact checkElem_mode hu hx hy
      · exact ih z hz y hy

theorem checkAll_mode {s : State} {k : Nat} {w : Warp} {o : Op} {f : Long} {u : Use} {window : Bool} {xs : List Acc} {e : Option MErr}
    (hu : u ≠ .load) (h : checkAll s k w o f (some u) window = (xs, e)) : ∀ x ∈ xs, ∀ y, x.x = some y → y.mode ≠ 2 := by
  rw [show xs = (checkAll s k w o f (some u) window).1 by rw [h]]
  exact checkElems_mode (by simpa [accKind] using hu) _

/-- Where the elements go does not depend on the replicas. -/
theorem farReply_congr {s t : State} {k : Nat} {xs : List Acc} (h : ∀ x ∈ xs, ∀ y, x.x = some y → y.mode ≠ 2) (w : Warp) :
    farReply s k w xs = farReply t k w xs := by
  have hfar : ∀ x ∈ xs, farAccess s k x = farAccess t k x := fun x hx => by
    unfold farAccess
    cases hy : x.x with
    | none => rfl
    | some y =>
      have hmode : (y.mode == 2) = false := by simpa using h x hx y hy
      simp only [hmode, Bool.false_and]
  unfold farReply
  rw [List.find?_congr hfar]

/-! ## `ATOM` (R215) -/

/-- A lane's new value and its flags. -/
def atomValue (f : Long) (v : Warp) (old l : Nat) : Nat × Nat :=
  let b := rdB v f.ty f l
  if atomOp f = 6 then (b, 0)
  else if atomOp f = 7 then (if old = rdReg v f.ty f.d.toNat l then b else old, 0)
  else comb (atomOp f) f.ty old b

theorem atomNew_eq (f : Long) (v : Warp) (old l : Nat) :
    atomNew (atomOp f) f.ty old (rdB v f.ty f l) (rdReg v f.ty f.d.toNat l) = atomValue f v old l := by
  unfold atomNew atomValue
  dsimp only
  by_cases h6 : atomOp f = 6
  · rw [if_pos h6, h6]; rfl
  by_cases h7 : atomOp f = 7
  · rw [if_neg h6, if_pos h7, h7]; rfl
  rw [if_neg h6, if_neg h7]
  split
  next h => exact absurd h h6
  next h => exact absurd h h7
  next => rfl

/-- The register writes of a lane's old value. -/
def atomWrites (f : Long) (n l old : Nat) : List RegW :=
  elemWrites { vec := true, reg := f.d.toNat, lane := l, key := 0, size := n, va := 0, sx := false, val := none } old

/-- One lane: the bytes written so far, the register writes, the flags. -/
def atomStep (f : Long) (v : Warp) (m : Memory) (n : Nat) (a : KMap Byte × List RegW × Nat) (x : Acc) : KMap Byte × List RegW × Nat :=
  let old := ovNat m a.1 (homeKey x) n
  let new := atomValue f v old x.lane
  (ovWrite a.1 (homeKey x) (leBytes n new.1), a.2.1 ++ atomWrites f n x.lane old, a.2.2 ||| new.2)

theorem foldl_atomStep (f : Long) (v : Warp) (m : Memory) (n : Nat) (xs : List Acc) (ov : KMap Byte) (ws : List RegW) (g : Nat) :
    xs.foldl (atomStep f v m n) (ov, ws, g) =
      let r := atomLanes f v m n xs ov
      (r.1, ws ++ r.2.1.flatMap fun e => atomWrites f n e.1 e.2, g ||| r.2.2) := by
  induction xs generalizing ov ws g with
  | nil => simp [atomLanes]
  | cons x xs ih =>
    rw [List.foldl_cons, atomStep, ih, atomLanes]
    simp only [atomNew_eq, List.flatMap_cons, List.append_assoc, Nat.or_assoc]

/-- The warp at the end of an atomic: its flags are raised, and its old values outstanding. -/
def atomEnds (f : Long) (s : State) (k : Nat) (ws : List RegW) (g : Nat) (xs : List Acc) (w : Warp) : Warp :=
  let w := raiseFp w g
  if atomNr f then w else addPend w (pendOf .atom f ws 0 0 (farReply s k w xs))

theorem atomEnds_course (f : Long) (s : State) (k : Nat) (ws : List RegW) (g : Nat) (xs : List Acc) (w : Warp) :
    SameCourse w (atomEnds f s k ws g xs w) := by
  unfold atomEnds
  dsimp only
  split <;> exact .of_fields ⟨rfl, rfl, rfl⟩

/-! ## `POT` (R200, R216) -/

/-- One lane of a pot that performs at once. -/
def potStep (f : Long) (v : Warp) (m : Memory) (n : Nat) (a : KMap Byte × Nat) (x : Acc) : KMap Byte × Nat :=
  let new := comb f.fn.toNat f.ty (ovNat m a.1 (homeKey x) n) (rdB v f.ty f x.lane % 2 ^ tyBits f.ty)
  (ovWrite a.1 (homeKey x) (leBytes n new.1), a.2 ||| new.2)

theorem foldl_potStep (f : Long) (v : Warp) (m : Memory) (xs : List Acc) (ov : KMap Byte) (g : Nat) :
    xs.foldl (potStep f v m (elemSize .pot f)) (ov, g) = ((potNow f v m xs ov).1, g ||| (potNow f v m xs ov).2) := by
  induction xs generalizing ov g with
  | nil => simp [potNow]
  | cons x xs ih =>
    rw [List.foldl_cons, potStep, ih, potNow]
    simp only [potVal, Nat.or_assoc]

/-- Enters a lane of a pot of `w` into a hand. -/
def potEnter (w : Warp) (f : Long) (h : Hand) (x : Acc) : Option (Hand × Nat) :=
  potPut h { key := accKey x, op := f.fn.toNat, ty := f.ty, val := BitVec.ofNat 64 (potVal f w x.lane), pc := curPc w, va := x.va }

theorem SameSource.potEnter {w v : Warp} (h : SameSource w v) (f : Long) : potEnter v f = potEnter w f := by
  have hval (l : Nat) : potVal f v l = potVal f w l := by
    unfold potVal rdB rdReg rdVV rdV
    rw [h.v]
  funext a x
  unfold Machine.potEnter
  rw [hval, h.curPc]

theorem handStep_pot (f : Long) (k : Nat) (w : Warp) : HandStep (fun s x => potLane f s k x) (potEnter w f) k w where
  enters s v x q hv hsrc hq := by
    rw [← hsrc.potEnter, potEnter] at hq
    unfold potLane
    simp only [hv, hq]
  passes s v x u q hv hsrc hnone hl hu hgo hq := by
    rw [← hsrc.potEnter, potEnter] at hnone hq
    unfold potLane
    simp only [hv, hnone, hgo, hl.updWarp, hq, Option.getD_some, if_true]
  empty x q hq := by
    cases hq
    rfl

/-- A turn-mode pot into the hand, whose lanes leave `t`, in which its warp goes on. -/
theorem potBody_hand {f : Long} {s t : State} {k : Nat} {w : Warp} {xs : List Acc} (hwin : inWindow w .pot f = false) (ht : w.turn = true)
    (hck : checkAll s k w .pot f (some .store) true = (xs, none))
    (hl : lanesInto (fun s x => potLane f s k x) k (storeTouched s k xs) xs = t) (hgo : goesOn t k = true) :
    potBody f s k w = .retire t .next none id := by
  unfold potBody
  rw [hwin, ht, if_neg (by simp), hck]
  show (if goesOn (lanesInto _ k (storeTouched s k xs) xs) k then Act.retire (lanesInto _ k (storeTouched s k xs) xs) .next none id else _) = _
  rw [hl, if_pos hgo]

/-! ## O33 -/

/-- Settles O33: `ATOM` and the pots that perform at once by what reaches their home, the pots of the hand by `lanesInto_fits` and
`lanesInto_full`. -/
theorem atomicsAndPotsCombineInLaneOrder : Obligations.AtomicsAndPotsCombineInLaneOrder := by
  intro i s s1 k len o f w hp p n
  refine ⟨?atom, ?potHome, ?potHand⟩
  case atom =>
    rintro rfl s2 v h xs hr
    obtain ⟨hat, hck, hbody⟩ := syncBody_reachesHome hp hr
    intro m acquires value r v'
    have hfold : r = let q := atomLanes f v m n xs []; (q.1, q.2.1.flatMap fun e => atomWrites f n e.1 e.2, q.2.2) :=
      (foldl_atomStep f v m n xs [] [] 0).trans (by simp)
    have ht : AtHome w (freeAcquire (homeWrite s2 k v h r.1) k f acquires h) k v h :=
      hat.keepsStops ((homeWrite_keepsStops ..).trans (freeAcquire_keepsStops ..))
    have hfar := farReply_congr (s := s2) (t := freeAcquire (homeWrite s2 k v h r.1) k f acquires h) (k := k)
      (checkAll_mode (by decide) hck) v'
    have hret := ht.retires (g := atomEnds f (freeAcquire (homeWrite s2 k v h r.1) k f acquires h) k r.2.1 r.2.2 xs) (clk := jumpClock v acquires h)
      hp rfl rfl (by rw [hfold]; exact hbody (atomEff f)) (atomEnds_course ..)
    rw [show atomEnds f _ k r.2.1 r.2.2 xs v = if atomNr f then v' else addPend v'
        { regs := writeIds .atom f, writes := r.2.1, fp := 0, lx := 0, remote := farReply s2 k v' xs, queue := none } by
      rw [hfar]; rfl, (hat.keepsStops (homeWrite_keepsStops ..)).freeAcquire_eq, jumpClock_getD] at hret
    have hclock : (if atomNr f then v' else addPend v'
        { regs := writeIds .atom f, writes := r.2.1, fp := 0, lx := 0, remote := farReply s2 k v' xs, queue := none }).clock = v'.clock := by
      split <;> rfl
    rw [hclock] at hret
    exact hret
  case potHome =>
    rintro rfl hhome s2 v h xs hr
    obtain ⟨hat, hck, hbody⟩ := syncBody_reachesHome hp hr
    have hnow : potBody f s1 k w = potEff f s2 k v h xs := by
      rw [← hbody (potEff f)]
      unfold potBody
      exact if_pos (by simpa using hhome)
    intro m r
    have hfold : r = potNow f v m xs [] := (foldl_potStep f v m xs [] 0).trans (by rw [Nat.zero_or])
    have hcourse (g : Nat) : SameCourse v (if v.turn then raiseFp v g else v) := by split <;> exact .of_fields ⟨rfl, rfl, rfl⟩
    rw [hfold]
    exact ((hat.keepsStops (homeWrite_keepsStops ..)).retires hp rfl rfl hnow (hcourse _)).weighs hp rfl rfl (hcourse _) hat
  case potHand =>
    rintro rfl hwin ht xs hck z s2 put puts
    have hready := performs_ready hp
    have hmem : MemOnly s1 s2 := storeTouched_memOnly s1 k xs
    have hlist : Lists s2 k w := (performs_lists hp).sameWarps hmem.sameWarps
    have hputs (h : Hand) (xs : List Acc) : puts h xs = fillHand (potEnter w f) (h, 0) xs := fillHand_eq_foldl (potEnter w f) xs (h, 0)
    have hself : setWarp s2 k (raiseFp { w with hand := w.hand } 0) = s2 := by
      have : raiseFp { w with hand := w.hand } 0 = w := by simp [raiseFp]
      rw [this]; exact hlist
    refine ⟨fun h g hfits => ?fits, fun pre x post h g h' g' hxs hpre hx hpost hsys hq ha => ?full⟩
    case fits =>
      have hlanes := lanesInto_fits (handStep_pot f k w) (u := w) ⟨rfl, rfl, rfl⟩ (.inl hready) s2 xs ((hputs ..).symm.trans hfits)
      rw [hself] at hlanes
      exact memOp_law hp (potBody_hand hwin ht hck hlanes (goesOn_lists (lists_setWarp ..) (.inl hready))) hmem ⟨rfl, rfl⟩
    case full =>
      subst hxs
      have hlanes := lanesInto_full (handStep_pot f k w) hlist hready ht hq (hmem.keepsStops.running (performs_runs hp))
        ((hputs ..).symm.trans hpre) hx ((hputs ..).symm.trans hpost) ha
      exact retiresAt_passed hp hmem.keepsStops
        (potBody_hand hwin ht hck hlanes (goesOn_lists (lists_setWarp ..) (.inr ⟨_, _, rfl⟩))) rfl

end Sys2Proof.Machine
end

section
/-! PROOF. `ACQ`, `TURN`, `REL` and `FENCE` (R190, R196, R217, R218). -/

namespace Sys2Proof.Machine

/-! ## Changes of the warp and of the L1 -/

theorem updCore_updWarp (s : State) (k : Nat) (c : Core → Core) (g : Warp → Warp) :
    updCore (updWarp s k g) k c = updWarp (updCore s k c) k g := by
  unfold updCore
  rw [show warpCore (updWarp s k g) k = warpCore s k from rfl]
  cases warpCore s k <;> rfl

theorem freeAcquire_updWarp (s : State) (k : Nat) (f : Long) (acq : Bool) (h : Home) {g : Warp → Warp} (hg : ∀ w, (g w).turn = w.turn) :
    freeAcquire (updWarp s k g) k f acq h = updWarp (freeAcquire s k f acq h) k g := by
  have hany : (getWarp (updWarp s k g) k).any (fun w => !w.turn) = (getWarp s k).any fun w => !w.turn := by
    rw [getWarp_updWarp, if_pos rfl, Option.any_map]
    simp only [hg]
  unfold freeAcquire
  rw [hany]
  split
  · exact updCore_updWarp ..
  · rfl

/-- An operation of the turn unit of weight 1 that leaves its warp as it is retires from its home. -/
theorem AtHome.retires_same {i : Instr} {s s1 t : State} {k len : Nat} {o : Op} {f : Long} {w v : Warp} {h : Home}
    (a : AtHome w t k v h) (hp : Performs i s k o f len s1 w) (ho : sysIllegal o = true) (hwt : weight o f = 1)
    (hb : bodyOf o f len s1 k w = .retire t .next none id) : Retires i s k o f len t v := by
  have hret := retiresAt_goes hp hb a.warp a.goes a.runs
  exact RetiresAt.weighs (by rwa [show weightOf w o f = 1 by simp [weightOf, performs_user hp ho, hwt]] at hret) hp ho hwt (.refl v) a

/-! ## One element -/

/-- The value that `ACQ` and `TURN` read. -/
def readValue (o : Op) (f : Long) (m : Memory) (x : Acc) : Dword :=
  let r := homeNat m x (elemSize o f)
  BitVec.ofInt 64 (if signExt f.ty then intOf true (8 * elemSize o f) r else r)

/-- An `ACQ` or a `TURN` whose one element has reached its home. -/
theorem AtHome.reads {i : Instr} {s s1 s2 : State} {k len : Nat} {o : Op} {f : Long} {w v : Warp} {h : Home} {x : Acc} {acq : Bool}
    (a : AtHome w s2 k v h) (hp : Performs i s k o f len s1 w) (ho : sysIllegal o = true) (hwt : weight o f = 1)
    (hb : bodyOf o f len s1 k w = readEff o f acq s2 k v h [x]) :
    let v' := wrS v f.d.toNat (readValue o f (homeMem s2 k v h) x)
    RetiresAt i s k len (if acq = true ∧ v.turn = false ∧ 3 ≤ f.mod.toNat then l1Clear s2 k else s2) v' .next
      (if acq = true ∧ h = .turn then ceilMark v'.quantum (v'.clock + 1) else v'.clock + 1) := by
  intro v'
  have hturn (w : Warp) : (wrS w f.d.toNat (readValue o f (homeMem s2 k v h) x)).turn = w.turn := wrS_turn ..
  have hret := (a.keepsStops (freeAcquire_keepsStops s2 k f acq h)).retires hp ho hwt (clk := jumpClock v acq h)
    (hb.trans (by rw [← freeAcquire_updWarp s2 k f acq h hturn]; rfl)) (.of_fields ⟨wrS_turn .., wrS_sys .., (wrS_effect ..).stat⟩)
  rw [a.freeAcquire_eq, jumpClock_getD] at hret
  have hq : v'.quantum = v.quantum := wrS_quantum ..
  have hc : v'.clock = v.clock := wrS_clock ..
  rw [hq, hc]
  rwa [show (wrS v f.d.toNat (readValue o f (homeMem s2 k v h) x)).clock = v.clock from hc] at hret

/-! ## O34 -/

/-- Settles O34: reads, writes and acquires by what reaches their home, `FENCE` by the publication of the hand. -/
theorem acquireReleaseTurnAndFence : Obligations.AcquireReleaseTurnAndFence := by
  intro i s s1 k len o f w hp n wide
  refine ⟨fun ho s2 v h x hr => ?reads, fun ho s2 v h x hr => ?writes, fun ho => ⟨fun ht => ?turn, fun ht => ?free⟩⟩
  case reads =>
    obtain ⟨hat, -, hbody⟩ := syncBody_reachesHome hp hr
    have hvturn (x : Dword) : (wrS v f.d.toNat x).turn = v.turn := wrS_turn ..
    intro r v'
    rw [show v'.turn = v.turn from hvturn _]
    obtain rfl | rfl : o = .acq ∨ o = .turn := by simpa using ho
    · have hread := hat.reads hp rfl rfl (hbody (readEff .acq f true))
      simp only [true_and] at hread ⊢
      exact hread
    · have hread := hat.reads hp rfl rfl (hbody (readEff .turn f false))
      simp only [reduceCtorEq, Bool.false_eq_true, false_and, if_false] at hread ⊢
      exact hread
  case writes =>
    subst ho
    obtain ⟨hat, -, hbody⟩ := syncBody_reachesHome hp hr
    exact (hat.keepsStops (homeWrite_keepsStops ..)).retires_same hp rfl rfl (by rw [← rdSB_eq_scalarB]; exact hbody (relEff f))
  case turn =>
    have hlist := performs_lists hp
    have hb : bodyOf o f len s1 k w = .retire (pubHand s1 k w (stampOf k w)) .next none id := by
      have hfence (sc : Bool) : fenceBody f sc s1 k w = .retire (pubHand s1 k w (stampOf k w)) .next none id := by
        unfold fenceBody
        rw [if_pos ht, turnPub_turn hlist.warp ht]
      obtain rfl | rfl := ho
      · exact hfence false
      · exact hfence true
    refine retiresAt_goes hp hb ?_ (by simp [Goes, performs_ready hp]) fun _ => ?_
    · rw [pubHand_lists hlist]; exact (lists_setWarp ..).warp
    · exact (turnPubs_keepsStops ..).running (performs_runs hp)
  case free =>
    have hfence (sc : Bool) : fenceBody f sc s1 k w =
        .retire (if sc = true ∧ wide then updCore s1 k fun co => { co with l1 := [] } else s1) .next none id := by
      unfold fenceBody
      rw [if_neg (by simp [ht])]
      simp [wide, l1Clear]
    have hmem (b : Prop) [Decidable b] : MemOnly s1 (if b then updCore s1 k fun co => { co with l1 := [] } else s1) := by
      split
      · exact updCore_memOnly ..
      · exact .refl s1
    obtain rfl | rfl := ho
    · exact memKeep_law hp ((hfence false).trans (by simp)) (hmem _)
    · exact memKeep_law hp ((hfence true).trans (by simp)) (hmem _)

end Sys2Proof.Machine
end

section
/-! PROOF. The matrix engine and the accumulator store (R245, R255, R258 to R263). -/

namespace Sys2Proof.Machine

open Sys2Proof.Forms

/-! ## What holds the instructions back -/

/-- No started copy has still to write one of the entries. -/
theorem accBusy_eq_false {g : Group} {rows cols : List Nat}
    (h : ∀ b ∈ g.bufs, ∀ c, b.2.copy = some c → ∀ e ∈ c.aw, e.1 / 256 ∈ rows → e.1 % 256 ∉ cols) : accBusy g rows cols = false := by
  unfold accBusy
  rw [List.any_eq_false]
  intro b hb
  split
  next c hc => simpa using h b hb c hc
  next => simp

/-- The operand whose rows begin at `starts` stalls at no filling range of group memory. -/
theorem stall_eq_false {w : Warp} {g : Group} {starts : List Int} {n : Nat}
    (h : ∀ a ∈ starts, spaceOf a = .window → rangeStall w g false (a - windowBase).toNat n = false) :
    (starts.any fun a => spaceOf a == .window && rangeStall w g false (a - windowBase).toNat n) = false := by
  rw [List.any_eq_false]
  intro a ha
  by_cases hs : spaceOf a = .window
  · simp [hs, h a ha hs]
  · simp [hs]

/-! ## The holder of the store (R245) -/

theorem holdAcc_memOnly (s : State) (k : Nat) : MemOnly s (holdAcc s k) := updCore_memOnly ..

theorem holdAcc_updWarp (s : State) (k : Nat) (g : Warp → Warp) : holdAcc (updWarp s k g) k = updWarp (holdAcc s k) k g := updCore_updWarp ..

theorem holdAcc_lists {s : State} {k : Nat} {w : Warp} (h : Lists s k w) : Lists (holdAcc s k) k w := h.sameWarps (holdAcc_memOnly s k).sameWarps

theorem getGroup_holdAcc (s : State) (k : Nat) : getGroup (holdAcc s k) k = getGroup s k := by
  unfold holdAcc updCore
  split <;> rfl

/-! ## `ACCRD` and `ACCZ` -/

/-- The register writes of a lane's entries. -/
theorem accrd_writes (f : Long) (ls : List Nat) (n : Nat) (value : Nat → Nat → Nat × Nat) (pairs : Bool) :
    ((ls.flatMap fun l => (List.range n).map fun q => (l, q, value l q)).flatMap fun e =>
        if pairs then [RegW.v (f.d.toNat + 2 * e.2.1) e.1 (BitVec.ofNat 32 e.2.2.1),
          .v (f.d.toNat + 2 * e.2.1 + 1) e.1 (BitVec.ofNat 32 (e.2.2.1 / 2 ^ 32))]
        else [RegW.v (f.d.toNat + e.2.1) e.1 (BitVec.ofNat 32 e.2.2.1)]) =
      ls.flatMap fun l => (List.range n).flatMap fun q =>
        .v (f.d.toNat + (if pairs then 2 * q else q)) l (BitVec.ofNat 32 (value l q).1) ::
          (if pairs then [.v (f.d.toNat + (if pairs then 2 * q else q) + 1) l (BitVec.ofNat 32 ((value l q).1 / 2 ^ 32))] else []) := by
  simp only [List.flatMap_assoc, List.flatMap_map]
  cases pairs <;> rfl

/-- Zeroing row by row is zeroing every entry of the rectangle. -/
theorem accz_eq (g : Group) (rows cols : List Nat) :
    rows.foldl (fun g r => cols.foldl (fun g c => wrAcc g r c 0) g) g =
      { g with acc := (rows.flatMap fun r => cols.map fun c => r * 256 + c).foldl (fun m a => sput 0 m a 0) g.acc } := by
  have hrow (r : Nat) (cols : List Nat) (g : Group) : cols.foldl (fun g c => wrAcc g r c 0) g =
      { g with acc := (cols.map fun c => r * 256 + c).foldl (fun m a => sput 0 m a 0) g.acc } := by
    induction cols generalizing g with
    | nil => rfl
    | cons c cols ih => rw [List.foldl_cons, ih]; rfl
  induction rows generalizing g with
  | nil => rfl
  | cons r rows ih => rw [List.foldl_cons, ih, hrow, List.flatMap_cons, List.foldl_append]

/-! ## `MMA` -/

/-- A warp that begins to wait once it has changed. -/
theorem waitIn_updWarp_upTo {s : State} {k : Nat} {y : Warp} (h : getWarp s k = some y) (g : Warp → Warp) (st : WStat) :
    UpToRun (setWarp s k { g y with stat := st }) (waitIn (updWarp s k g) k st) k := by
  have hwarp : getWarp (updWarp (updWarp s k g) k fun w => { w with stat := st }) k = some { g y with stat := st } := by
    rw [getWarp_updWarp, if_pos rfl, getWarp_updWarp, if_pos rfl, h]; rfl
  refine (endRun_upTo hwarp).of_alike (fun j => ?_) rfl
  by_cases hj : j = k
  · subst hj; rw [hwarp, getWarp_setWarp, if_pos rfl]
  · rw [getWarp_updWarp, if_neg hj, getWarp_updWarp, if_neg hj, getWarp_setWarp, if_neg hj]


/-- The warp in the region that its `MMA` opens. -/
def mmaOpen (f : Long) (w : Warp) : Warp := { w with region := some (keepResumes (mmaRegion w f) w) }

theorem mmaBody_empty {f : Long} {len : Nat} {s : State} {k : Nat} {w : Warp} (hl : Lists s k w) (hr : mmaRows w f = []) :
    mmaBody f len s k w = .retire (setWarp (holdAcc s k) k { mmaOpen f w with mstep := 0, mpc := none }) .next none id := by
  unfold mmaBody
  dsimp only
  rw [hr, if_pos (show List.isEmpty [] = true from rfl)]
  show Act.retire (updWarp (holdAcc (updWarp s k (mmaOpen f)) k) k _) .next none id = _
  rw [holdAcc_updWarp, (holdAcc_lists hl).updWarp, (lists_setWarp ..).updWarp, setWarp_setWarp]

/-- The warp once its steps have performed. -/
def mmaEnds (flags : Nat) (y : Warp) : Warp := { y with mstat := y.mstat ||| BitVec.ofNat 64 flags, mstep := 0, mpc := none }

/-! ## O38 -/

/-- Settles O38: each instruction's body, once nothing holds it back, and what its warp then is. -/
theorem matrixInstructionsUseTheStore : Obligations.MatrixInstructionsUseTheStore := by
  intro i s s1 k len o f w hp g hg lanes row holds pairs free reads
  have hlist := performs_lists hp
  refine ⟨fun ho hrows => ?empty, fun ho hrows => ?mma, fun x y wt n en hy hst => ?retires, ?_⟩
  case empty =>
    subst ho
    exact memOp_law hp (mmaBody_empty hlist hrows) (holdAcc_memOnly ..) ⟨rfl, rfl⟩
  case mma =>
    subst ho
    intro v s2 hA hB hfree hreadA hreadB keys s3 hkeys y g' flags xs hy hrun z s4 s5 ends
    have hopen : holdAcc (updWarp s1 k fun w => { w with region := some (keepResumes (mmaRegion w f) w) }) k = s2 :=
      congrArg (holdAcc · k) (hlist.updWarp (mmaOpen f))
    have hg2 : getGroup s2 k = some g := (getGroup_holdAcc ..).trans hg
    have hsize : groupSize s2 k = g.gsize := by unfold groupSize; rw [hg2]
    have hwait : (!keys.isEmpty && (linesWait s3 k keys || keys.any (keyHeld s3 (chipOf (partOf k))))) = false := by
      obtain hnone | ⟨hlines, hheld⟩ := hkeys
      · simp [hnone]
      · have hany : keys.any (keyHeld s3 (chipOf (partOf k))) = false := List.any_eq_false.mpr fun a ha => by simp [hheld a ha]
        rw [hlines, hany, Bool.or_false, Bool.and_false]
    have hb : mmaBody f len s1 k w = .done (waitIn (updWarp s5 k (mmaEnds flags)) k (.mma (weightOf w .mma f) len f.fl.en)) := by
      unfold mmaBody
      dsimp only
      rw [hopen, if_neg (by simpa using hrows), hsize, hA, hB, Option.or_none]
      dsimp only
      rw [hg2]
      dsimp only
      rw [if_neg (ne_true_of_eq_false (Bool.or_eq_false_iff.mpr ⟨Bool.or_eq_false_iff.mpr
          ⟨accBusy_eq_false hfree, stall_eq_false hreadA⟩, stall_eq_false hreadB⟩)),
        if_neg (ne_true_of_eq_false hwait), hrun]
      rfl
    have hmem : MemOnly (setGroup s3 k (mmaFillIn w f (mmaRows w f) g')) s5 :=
      (((installAll_memOnly ..).trans (countPages_memOnly ..)).trans (sendAccess_memOnly ..)).trans (bringLines_memOnly ..)
    have hwarp : getWarp s5 k = some y := (hmem.getWarp k).trans hy
    exact becomes_law hp hb (waitIn_updWarp_upTo hwarp (mmaEnds flags) _)
  case retires =>
    show execMmaRetirement k x = _
    unfold execMmaRetirement mmaRetire
    rw [hy]
    dsimp only
    rw [hst]
  intro rows cols
  have hstore {g' : Group} (hb : bodyOf o f len s1 k w = .retire (holdAcc (setGroup s1 k g') k) .next none id) :
      Retires i s k o f len (holds (setGroup s1 k g')) w :=
    retires_law hp hb (((holdAcc_memOnly ..).getWarp k).trans hlist.warp) (performs_ready hp) rfl (holdAcc_memOnly ..).cards
  refine ⟨fun ho hfree => ?accrd, fun ho hfree => ?accwr, fun ho hfree => ?accz⟩
  case accrd =>
    intro value d
    subst ho
    have hbusy : accBusy g (lanes.map (accLaneRow f)) (accCols f) = false := accBusy_eq_false hfree
    refine memOp_law (v := addPend w _) hp ?_ (holdAcc_memOnly s1 k) ⟨rfl, rfl⟩
    show accrdBody f s1 k w = _
    unfold accrdBody
    rw [hg]
    dsimp only
    rw [if_neg (ne_true_of_eq_false hbusy), (holdAcc_lists hlist).updWarp, accrd_writes]
    simp only [List.map_flatMap, List.map_map]
    rfl
  case accwr =>
    subst ho
    have hbusy : accBusy g (lanes.map (accLaneRow f)) (accCols f) = false := accBusy_eq_false hfree
    refine hstore ?_
    show accwrBody f s1 k w = _
    unfold accwrBody
    rw [hg]
    exact if_neg (ne_true_of_eq_false hbusy)
  case accz =>
    intro cells
    subst ho
    refine hstore ?_
    show acczBody f s1 k w = _
    unfold acczBody
    rw [hg]
    dsimp only
    rw [if_neg (ne_true_of_eq_false (accBusy_eq_false hfree)), accz_eq]
    simp only [List.flatMap_map, List.map_map]
    rfl

end Sys2Proof.Machine
end

section
/-! PROOF. Reliability and power (R174 to R177, R374 to R376). -/

namespace Sys2Proof.Machine

/-! ## Sparse maps whose keys rise -/

theorem krising_sput {α : Type} [DecidableEq α] {d : α} {m : KMap α} (i : Nat) (x : α) (h : krising none m = true) :
    krising none (sput d m i x) = true := by
  unfold sput
  split
  · exact krising_kerase _ _ _ h
  · exact krising_kinsert _ _ _ _ h nofun

theorem sget_sput_same {α : Type} [DecidableEq α] {d : α} {m : KMap α} (i : Nat) (x : α) (h : krising none m = true) :
    sget d (sput d m i x) i = x := by
  unfold sget sput
  split
  next hx => rw [kfind_kerase_eq h, hx]; rfl
  next => rw [kfind_kinsert, if_pos rfl]; rfl

theorem getChip_setChip_same {s : State} (c : Nat) (x : Chip) (h : krising none s.chips = true) : getChip (setChip s c x) c = x :=
  sget_sput_same c x h

/-! ## Machine checks (R376) -/

/-- A machine check ends the cards with a group on the affected core, or those resident in the affected die's partition. -/
theorem affected_eq (s : State) (c : Nat) (e : ErrSite) : affected s c e =
    (s.cards.filter fun y =>
      (decide (e.core = true ∨ e.elem = 2) || diePart s c e.die == some (partOf y.1)) &&
        s.groups.any fun g => cardKey g.1 == y.1 &&
          if e.core = true ∨ e.elem = 2 then g.2.chip == c && g.2.core == some (e.die * 24 + e.unit) else g.2.core.isSome).map fun y => y.1 := by
  unfold affected
  by_cases hcore : e.core = true ∨ e.elem = 2
  · simp [hcore, Bool.and_assoc]
  · have hoff : (e.core || e.elem == 2) = false := by simpa using hcore
    rw [hoff, if_neg Bool.false_ne_true]
    cases hpart : diePart s c e.die with
    | none => simp [hcore]
    | some p => simp [hcore, residentCards, BEq.comm (a := p)]

/-! ## Counted errors (R177) -/

theorem count_saturated (x : BitVec 16) : min (x.toNat + 1) 65535 = x.toNat ↔ x.toNat = 65535 := by
  have := x.isLt
  omega

/-! ## The ring of slices (R175) -/

/-- The successor of a slice is the next one of the ring that is not retired. -/
theorem successor_spec (ch : Chip) (die n : Nat) {m : Nat} (hn : n < 24) (hm : m < 24) (hne : m ≠ n) (hret : (getSlice ch die m).ret = false) :
    (getSlice ch die (successor ch die n)).ret = false ∧
      ∀ k, k < 23 → (getSlice ch die ((n + 1 + k) % 24)).ret = false → (successor ch die n + 24 - n) % 24 ≤ k + 1 := by
  have hfound : ∃ i, (List.range 23).find? (fun i => !(getSlice ch die ((n + 1 + i) % 24)).ret) = some i := by
    refine Option.isSome_iff_exists.mp (List.find?_isSome.mpr ⟨(m + 23 - n) % 24, ?_, ?_⟩)
    · rw [List.mem_range]; omega
    · rw [show (n + 1 + (m + 23 - n) % 24) % 24 = m by omega, hret]; rfl
  obtain ⟨i, hi⟩ := hfound
  have hsucc : successor ch die n = (n + 1 + i) % 24 := by unfold successor; rw [hi]
  obtain ⟨hfree, hrange, hfirst⟩ := List.find?_range_eq_some.mp hi
  rw [List.mem_range] at hrange
  rw [hsucc]
  refine ⟨by simpa using hfree, fun k hk hkret => ?_⟩
  have hik : i ≤ k := by
    by_contra hlt
    have := hfirst k (by omega)
    simp [hkret] at this
  omega

/-! ## Retirement (R175, R177) -/

/-- The bucket table with the buckets of slice `n` moved to `tgt`. -/
def movedBuckets (ch : Chip) (die n tgt : Nat) (bs : List Nat) : KMap Nat :=
  bs.foldl (fun m b => if bucketSlice ch die b = n then kinsert m (die * 1024 + b) tgt else m) ch.buckets

theorem kfind_movedBuckets (ch : Chip) (die n tgt : Nat) (bs : List Nat) (j : Nat) : kfind (movedBuckets ch die n tgt bs) j =
    if ∃ b ∈ bs, j = die * 1024 + b ∧ bucketSlice ch die b = n then some tgt else kfind ch.buckets j := by
  unfold movedBuckets
  generalize ch.buckets = m
  induction bs generalizing m with
  | nil => simp
  | cons b bs ih =>
    rw [List.foldl_cons, ih]
    by_cases hrest : ∃ b ∈ bs, j = die * 1024 + b ∧ bucketSlice ch die b = n
    · rw [if_pos hrest, if_pos (by obtain ⟨b', hb', h⟩ := hrest; exact ⟨b', List.mem_cons_of_mem _ hb', h⟩)]
    · rw [if_neg hrest]
      by_cases hb : bucketSlice ch die b = n
      · rw [if_pos hb, kfind_kinsert]
        simp [hrest, hb]
      · rw [if_neg hb]
        simp [hrest, hb]

/-- The slice `i` of die `d` of chip `c` is the empty `x`, and the chip's bucket table `bk`; the chips' and the slices' keys rise. -/
structure Emptied (c i : Nat) (x : Slice) (bk : KMap Nat) (s : State) : Prop where
  chips : krising none s.chips = true
  slices : krising none (getChip s c).slices = true
  slice : sget Slice.reset (getChip s c).slices i = x
  buckets : (getChip s c).buckets = bk

theorem slTrim_nil (set ways n : Nat) : slTrim set ways n [] = [] := by
  cases n with
  | zero => rfl
  | succ n => exact if_pos (Nat.zero_le _)

theorem Emptied.updSlice {c i : Nat} {x : Slice} {bk : KMap Nat} {s : State} (h : Emptied c i x bk s) (hx : x.lines = []) (ov : List Nat) (key : Nat)
    {f : Nat → List SLine → List SLine} (hf : ∀ n, f n [] = []) : Emptied c i x bk (updSlice s ov key f) := by
  unfold Machine.updSlice
  dsimp only
  split
  · exact h
  by_cases hc : key / keyBase = c
  · rw [hc]
    refine ⟨krising_sput _ _ h.chips, ?_, ?_, ?_⟩ <;> rw [getChip_setChip_same _ _ h.chips]
    · exact krising_sput _ _ h.slices
    · by_cases hi : i = (sliceOf (getChip s c) (key % keyBase)).1 * 24 + (sliceOf (getChip s c) (key % keyBase)).2
      · have hslice : getSlice (getChip s c) (sliceOf (getChip s c) (key % keyBase)).1 (sliceOf (getChip s c) (key % keyBase)).2 = x := by
          unfold getSlice; rw [← hi]; exact h.slice
        unfold setSlice
        rw [hslice, ← hi, hx, hf]
        refine (sget_sput_same i _ h.slices).trans ?_
        rw [← hx]
      · exact (sget_sput_ne _ hi).trans h.slice
    · exact h.buckets
  · have hchip (y : Chip) : getChip (setChip s (key / keyBase) y) c = getChip s c := getChip_setChip_ne s y (Ne.symm hc)
    refine ⟨krising_sput _ _ h.chips, ?_, ?_, ?_⟩ <;> rw [hchip]
    · exact h.slices
    · exact h.slice
    · exact h.buckets

theorem Emptied.overlayTrim {c i : Nat} {x : Slice} {bk : KMap Nat} {s : State} (h : Emptied c i x bk s) (hx : x.lines = []) (keys : List Nat) :
    Emptied c i x bk (overlayTrim s keys) := by
  unfold Machine.overlayTrim
  dsimp only
  generalize (sparse (keys.map lineOf)).eraseDups = ks
  generalize overlayLines s = ov
  induction ks generalizing s with
  | nil => exact h
  | cons k ks ih => exact ih (h.updSlice hx ov k fun n => slTrim_nil ..)

theorem setSlice_slices (ch : Chip) (die n : Nat) (x : Slice) :
    (setSlice ch die n x).slices = sput Slice.reset ch.slices (die * 24 + n) x := rfl

theorem setSlice_buckets (ch : Chip) (die n : Nat) (x : Slice) : (setSlice ch die n x).buckets = ch.buckets := rfl

/-- A slice that retires is empty, and its buckets are its successor's. -/
theorem retireSlice_emptied {s : State} {c die n : Nat} (hret : (getSlice (getChip s c) die n).retiring = true)
    (hchips : krising none s.chips = true) (hslices : krising none (getChip s c).slices = true) :
    Emptied c (die * 24 + n) { getSlice (getChip s c) die n with ret := true, retiring := false, lines := [] }
      (movedBuckets (getChip s c) die n (successor (getChip s c) die n) (List.range 1024)) (retireSlice s c die n) := by
  unfold retireSlice movedBuckets
  dsimp only
  generalize List.range 1024 = bs
  rw [hret, if_neg (by simp)]
  refine Emptied.overlayTrim ⟨krising_sput _ _ hchips, ?_, ?_, ?_⟩ rfl _ <;> rw [getChip_setChip_same _ _ hchips]
  · rw [setSlice_slices]; exact krising_sput _ _ hslices
  · rw [setSlice_slices]; exact sget_sput_same _ _ hslices
  · rw [setSlice_buckets]

theorem retireSlice_memOnly {s : State} {c die n : Nat} : MemOnly s (retireSlice s c die n) := by
  unfold retireSlice
  dsimp only
  split
  · exact .refl s
  · exact (setChip_memOnly ..).trans (overlayTrim_memOnly ..)

theorem overlayTrim_mem (s : State) (keys : List Nat) : (overlayTrim s keys).mem = s.mem := by
  unfold overlayTrim
  dsimp only
  generalize (sparse (keys.map lineOf)).eraseDups = ks
  generalize overlayLines s = ov
  induction ks generalizing s with
  | nil => rfl
  | cons k ks ih => exact (ih _).trans (updSlice_mem ..)

theorem retireSlice_mem (s : State) (c die n : Nat) : (retireSlice s c die n).mem = s.mem := by
  unfold retireSlice
  dsimp only
  split
  · rfl
  · exact overlayTrim_mem ..

/-- The slice of a bucket once a slice's buckets have moved. -/
theorem bucketSlice_moved {ch ch' : Chip} {die n tgt : Nat} (h : ch'.buckets = movedBuckets ch die n tgt (List.range 1024)) {d b : Nat} (hb : b < 1024) :
    bucketSlice ch' d b = if d = die ∧ bucketSlice ch d b = n then tgt else bucketSlice ch d b := by
  have hiff : (∃ b' ∈ List.range 1024, d * 1024 + b = die * 1024 + b' ∧ bucketSlice ch die b' = n) ↔ d = die ∧ bucketSlice ch d b = n := by
    constructor
    · rintro ⟨b', hb', heq, hn⟩
      rw [List.mem_range] at hb'
      obtain rfl : d = die := by omega
      obtain rfl : b = b' := by omega
      exact ⟨rfl, hn⟩
    · rintro ⟨rfl, hn⟩
      exact ⟨b, List.mem_range.mpr hb, rfl, hn⟩
  rw [bucketSlice, h, kfind_movedBuckets]
  by_cases hmoved : d = die ∧ bucketSlice ch d b = n
  · rw [if_pos (hiff.mpr hmoved), if_pos hmoved]; rfl
  · rw [if_neg (fun hex => hmoved (hiff.mp hex)), if_neg hmoved]; rfl

/-! ## O58 -/

/-- Settles O58: the counts and machine checks by what each event runs, retirement by `retireSlice_emptied`. -/
theorem reliabilityActs : Obligations.ReliabilityActs := by
  intro s c die n time ch x count counted after check
  have hcount : countError s c die n time = after := by
    show (if count = x.ceCount.toNat then counted else checkRetire counted c die n (some time)) = _
    exact if_congr (count_saturated x.ceCount) rfl rfl
  have hcheck (u : State) (e : ErrSite) : machineCheck u c e time = check u e := by
    unfold machineCheck
    rw [affected_eq]
    rfl
  have hruns {a : Instr} {u : State} {e : ErrSite} (ha : exec a s = .next (machineCheck u c e time)) : exec a s = .next (check u e) := by
    rw [ha, hcheck]
  refine ⟨by rw [← hcount]; rfl, by rw [← hcount]; rfl, rfl, rfl, fun a y => hruns rfl, fun a y => hruns rfl, fun e => hruns rfl,
    fun fixed => rfl, rfl, hruns rfl, fun hret => ?still, fun hret hchips hslices _ _ => ?retires,
    fun m hn hm hne hfree => successor_spec ch die n hn hm hne hfree, ?droop, rfl, rfl, rfl⟩
  case still =>
    have hkeep : retireSlice s c die n = s := by
      unfold retireSlice
      exact if_pos (by rw [show (getSlice (getChip s c) die n).retiring = false from hret]; rfl)
    exact congrArg _ hkeep
  case retires =>
    have hempty := retireSlice_emptied hret hchips hslices
    exact ⟨retireSlice s c die n, rfl, hempty.slice, fun d b hb => bucketSlice_moved hempty.buckets hb, retireSlice_mem .., retireSlice_memOnly.pubs⟩
  case droop =>
    have hdroop : droop s c die = setChip s c { ch with
        stretched := if die ∈ ch.stretched then ch.stretched else ch.stretched ++ [die] } := by
      unfold droop
      simp only [List.contains_iff_mem]
      rfl
    exact congrArg _ hdroop

end Sys2Proof.Machine
end

section
/-! PROOF. What a synchronising operation writes at its home (R184, R185, R193, R208). -/

namespace Sys2Proof.Machine

/-! ## Many bytes written at once -/

/-- A key after the writes of a list with rising keys: what is listed there, or what it was. -/
theorem sget_foldl_sput {α : Type} [DecidableEq α] {d : α} {l m : KMap α} (hl : krising none l = true) (hm : swf d m = true) (a : Nat) :
    sget d (l.foldl (fun m e => sput d m e.1 e.2) m) a = (kfind l a).getD (sget d m a) := by
  induction l generalizing m with
  | nil => rfl
  | cons e l ih =>
    have habove : krising (some e.1) l = true := by simpa [krising] using hl
    rw [List.foldl_cons, ih (krising_none habove) (swf_sput e.1 e.2 hm), sget_sput e.1 a e.2 hm, kfind]
    by_cases ha : e.1 = a
    · rw [if_pos ha, if_pos ha.symm, kfind_below habove (by omega)]; rfl
    · rw [if_neg ha, if_neg (Ne.symm ha)]

theorem foldl_freeWrite_mem (k : Nat) (l : KMap Byte) (s : State) :
    (l.foldl (fun s e => freeWrite s k e.1 [e.2]) s).mem = wrPairs s.mem l := by
  induction l generalizing s with
  | nil => rfl
  | cons e l ih => rw [List.foldl_cons, ih, freeWrite_mem]; rfl

/-! ## Where a publication enters (R184) -/

/-- Of two publications in order, the first precedes any third that does not precede the second. -/
theorem pubBefore_or {a b c : Pub} (h : pubBefore a b = true) : pubBefore a c = true ∨ pubBefore c b = true := by
  simp only [pubBefore, stampLt, Bool.or_eq_true, Bool.and_eq_true, decide_eq_true_eq, beq_iff_eq, Prod.ext_iff] at h ⊢
  omega

/-- A publication that a test leaves out does not show through it. -/
theorem filter_insertPub_out {q : Pub → Bool} {x : Pub} (hx : q x = false) (l : List Pub) : (insertPub l x).filter q = l.filter q := by
  induction l with
  | nil => simp [insertPub, hx]
  | cons p l ih =>
    unfold insertPub
    split
    · simp [hx]
    · rw [List.filter_cons, List.filter_cons, ih]

/-- Among the publications of a list in order that a test selects, one that precedes none of them enters last. -/
theorem filter_insertPub_last {q : Pub → Bool} {x : Pub} {l : List Pub} (hx : q x = true) (hl : l.Pairwise fun a b => pubBefore b a = false)
    (hlast : ∀ p ∈ l, q p = true → pubBefore x p = false) : (insertPub l x).filter q = l.filter q ++ [x] := by
  induction l with
  | nil => simp [insertPub, hx]
  | cons p l ih =>
    obtain ⟨hp, hl⟩ := List.pairwise_cons.mp hl
    unfold insertPub
    split
    next hbefore =>
      have hnone : (p :: l).filter q = [] := by
        refine List.filter_eq_nil_iff.mpr fun y hy hq => ?_
        have hxy := hlast y hy hq
        obtain rfl | hy := List.mem_cons.mp hy
        · simp [hxy] at hbefore
        · obtain h | h := pubBefore_or (c := y) hbefore
          · simp [hxy] at h
          · simp [hp y hy] at h
      rw [List.filter_cons_of_pos hx, hnone]; rfl
    next =>
      rw [List.filter_cons, List.filter_cons, ih hl fun y hy => hlast y (List.mem_cons_of_mem p hy)]
      split <;> rfl

/-! ## Images of a publication (R185) -/

theorem pubBytes_mem (s : State) (d : Nat) (t : Stamp) (ord made : Nat) (b : KMap Byte) : (pubBytes s d t ord made b).mem = s.mem := by
  unfold pubBytes
  split
  · rfl
  · exact overlayTrim_mem ..

/-- The image above a stamp holds the bytes published there last, one at or below it does not. -/
theorem image_pubBytes {s : State} {d made ord : Nat} {t : Stamp} {b : KMap Byte} (hs : s.pubs.Pairwise fun a b => pubBefore b a = false)
    (hlast : ∀ x ∈ s.pubs, x.dom = d → stampLt x.stamp t = true ∨ (x.stamp = t ∧ x.ord ≤ ord)) (u : Stamp) :
    image (pubBytes s d t ord made b) d u = if stampLt t u then wrPairs (image s d u) b else image s d u := by
  cases b with
  | nil => unfold pubBytes; simp [wrPairs]
  | cons e b =>
    have hpubs : (pubBytes s d t ord made (e :: b)).pubs =
        insertPub s.pubs { dom := d, stamp := t, ord := ord, made := made, body := .bytes (e :: b) } := publish_pubs ..
    unfold image
    rw [hpubs, pubBytes_mem]
    split
    next hu =>
      rw [filter_insertPub_last (by simpa using hu) hs, List.foldl_append]
      · rfl
      · intro p hp hq
        have hdom : p.dom = d := by simpa using (Bool.and_eq_true_iff.mp hq).1
        obtain hlt | ⟨heq, hord⟩ := hlast p hp hdom
        · have hasymm := stampLt_asymm hlt
          have hne : (t == p.stamp) = false := by
            rw [stampLt_iff] at hlt
            simp only [beq_eq_false_iff_ne, ne_eq, Prod.ext_iff]
            omega
          simp [pubBefore, hasymm, hne]
        · have hself : stampLt t t = false := by simp [stampLt]
          simp [pubBefore, heq, hself, hord]
    next hu => rw [filter_insertPub_out (by simpa using hu)]

/-! ## O35 -/

/-- Settles O35: group memory and memory take the bytes as they are listed, a publication as the last of its stamp. -/
theorem homesTakeWritesAtTheirStamp : Obligations.HomesTakeWritesAtTheirStamp := by
  intro s k w ov hov hmem d t
  refine ⟨fun g hg hgm => ?group, fun a => ?free, fun hs hlast u a => ?turn⟩
  case group =>
    exact ⟨{ g with gmem := ov.foldl (fun m e => sput 0 m e.1 e.2) g.gmem },
      ((kfind_kmodify ..).trans (if_pos rfl)).trans (congrArg (Option.map _) hg), sget_foldl_sput hov hgm⟩
  case free =>
    show rdByte (List.foldl _ s ov).mem a = _
    rw [foldl_freeWrite_mem]
    exact sget_foldl_sput hov hmem a
  case turn =>
    show rdByte (image (pubBytes s d t 1 w.clock ov) d u) a = _
    rw [image_pubBytes hs hlast u]
    split
    · exact sget_foldl_sput hov (wf_image d u hmem) a
    · rfl

end Sys2Proof.Machine
end

section
/-! PROOF. What a mark that the clock crosses publishes and leaves (R178, R184, R186, R223, R330). -/

namespace Sys2Proof.Machine

/-! ## What publications leave alone -/

/-- A listed card without the note that its ticket words were reached. -/
def untouched (e : Nat × Card) : Nat × Card := (e.1, { e.2 with touched := [] })

/-- `t` differs from `s` in its publications, in chips, and in what its cards note of their ticket words (R223) at most. -/
structure PubOnly (s t : State) : Prop where
  cards : t.cards.map untouched = s.cards.map untouched
  rest : { t with pubs := s.pubs, chips := s.chips, cards := s.cards } = s

theorem PubOnly.refl (s : State) : PubOnly s s := ⟨rfl, rfl⟩

theorem PubOnly.warps {s t : State} (h : PubOnly s t) : t.warps = s.warps := by
  conv_rhs => rw [← h.rest]

theorem PubOnly.trans {s t u : State} (h : PubOnly s t) (g : PubOnly t u) : PubOnly s u := by
  refine ⟨g.cards.trans h.cards, ?_⟩
  calc { u with pubs := s.pubs, chips := s.chips, cards := s.cards }
      = { ({ u with pubs := t.pubs, chips := t.chips, cards := t.cards } : State) with pubs := s.pubs, chips := s.chips, cards := s.cards } := rfl
    _ = s := by rw [g.rest, h.rest]

theorem PubOnly.foldl {α : Type} {g : State → α → State} (hg : ∀ s x, PubOnly s (g s x)) (l : List α) (s : State) : PubOnly s (l.foldl g s) := by
  induction l generalizing s with
  | nil => exact .refl s
  | cons x l ih => exact (hg s x).trans (ih _)

theorem sendFlit_pubOnly (s : State) (c dest : Nat) (x : FlitPayload) : PubOnly s (sendFlit s c dest x) := ⟨rfl, rfl⟩

theorem sendPub_pubOnly (s : State) (k : Nat) (t : Stamp) (ks : List Nat) : PubOnly s (sendPub s k t ks) := by
  refine .foldl (fun s h => ?_) _ s
  unfold sendFlits
  split
  · exact .refl s
  · split
    · exact .refl s
    · exact .foldl (fun _ _ => sendFlit_pubOnly ..) _ s

theorem overlayTrim_pubOnly (s : State) (keys : List Nat) : PubOnly s (overlayTrim s keys) := by
  refine .foldl (fun s k => ?_) _ s
  unfold updSlice
  dsimp only
  split
  · exact .refl s
  · exact ⟨rfl, rfl⟩

theorem touchWords_pubOnly (s : State) (d : Nat) (t : Stamp) (ks : List Nat) : PubOnly s (touchWords s d t ks) := by
  refine ⟨?_, rfl⟩
  unfold touchWords
  dsimp only
  rw [List.map_map]
  refine List.map_congr_left fun e _ => ?_
  dsimp only [Function.comp_apply, untouched]
  split <;> rfl

theorem publish_pubOnly (s : State) (x : Pub) (ks : List Nat) : PubOnly s (publish s x ks) :=
  have hadd : PubOnly s (addPub s x) := ⟨rfl, rfl⟩
  (hadd.trans (overlayTrim_pubOnly ..)).trans (touchWords_pubOnly ..)

theorem pubBytes_pubOnly (s : State) (d : Nat) (t : Stamp) (ord made : Nat) (b : KMap Byte) : PubOnly s (pubBytes s d t ord made b) := by
  unfold pubBytes
  split
  · exact .refl _
  · exact publish_pubOnly ..

theorem markPubs_pubOnly (s : State) (k : Nat) (sec : Bool) (hand : Hand) (m made : Nat) : PubOnly s (markPubs s k sec hand m made) :=
  ((sendPub_pubOnly ..).trans (pubBytes_pubOnly ..)).trans (.foldl (fun _ _ => publish_pubOnly ..) _ _)

/-! ## What a mark publishes -/

/-- The unpublished bytes of a hand and then its pot entries, as warp `k` publishes them for the mark `m`. -/
def handPubs (s : State) (k m made : Nat) (hand : Hand) : List Pub :=
  (if (handFresh hand).isEmpty then [] else [handPub s k m made 0 (.bytes (handFresh hand))]) ++
    hand.pots.map fun e => handPub s k m made 2 (.pot e.key e.op e.ty e.val)

theorem pubBytes_pubs (s : State) (d : Nat) (t : Stamp) (ord made : Nat) (b : KMap Byte) : (pubBytes s d t ord made b).pubs =
    (if b.isEmpty then [] else [{ dom := d, stamp := t, ord := ord, made := made, body := .bytes b }]).foldl insertPub s.pubs := by
  unfold pubBytes
  split
  · rfl
  · exact publish_pubs ..

theorem foldl_pubPot_pubs (d : Nat) (t : Stamp) (made : Nat) (l : List PotEnt) (s : State) :
    (l.foldl (fun s x => pubPot s d t made x) s).pubs =
      (l.map fun e => ({ dom := d, stamp := t, ord := 2, made := made, body := .pot e.key e.op e.ty e.val } : Pub)).foldl insertPub s.pubs := by
  induction l generalizing s with
  | nil => rfl
  | cons e l ih => rw [List.foldl_cons, ih, pubPot, publish_pubs]; rfl

theorem markPubs_pubs {s : State} {k m made : Nat} {sec : Bool} {hand : Hand} (hr : handRefusals s (chipOf (partOf k)) sec hand true = []) :
    (markPubs s k sec hand m made).pubs = (handPubs s k m made hand).foldl insertPub s.pubs := by
  unfold markPubs
  dsimp only
  rw [foldl_pubPot_pubs, pubBytes_pubs, (sendPub_memOnly ..).pubs, handFresh_handAccepted hr, pots_handAccepted hr, handPubs, List.foldl_append]
  rfl

/-- A clock that crosses a mark of a hand that no home refuses. -/
theorem moveClock_publishes {s : State} {k c : Nat} {w : Warp} (hw : getWarp s k = some w) (ht : w.turn = true)
    (hc : w.clock / w.quantum < c / w.quantum) (hr : Running s k) (ha : handRefusals s (chipOf (partOf k)) w.sec w.hand true = []) :
    let m := nextMark w.quantum w.clock
    moveClock s k c = updWarp (updWarp (markPubs s k w.sec w.hand m m) k fun x => { x with hand := Hand.empty }) k
      fun x => { x with clock := c, region := none, stat := .gate m (c / x.quantum * x.quantum) } := by
  intro m
  rw [moveClock_crosses hw ht hc hr, ha]
  dsimp only
  rw [pubMark_eq]
  rfl

/-! ## O51 -/

/-- Settles O51: within a round by `moveClock_inRound`, across a mark by what `markPubs` publishes and leaves. -/
theorem clockMovesAndMarksPublish : Obligations.ClockMovesAndMarksPublish := by
  intro s k c w hw t
  refine ⟨fun hin => moveClock_inRound hw fun ht => hin.resolve_left (by simp [ht]), fun ht hc hr ha => ?crosses,
    fun a m hst hfloor => ?gate⟩
  case crosses =>
    intro m pub
    have hmark : t = updWarp (updWarp (markPubs s k w.sec w.hand m m) k fun x => { x with hand := Hand.empty }) k
        fun x => { x with clock := c, region := none, stat := .gate m (c / x.quantum * x.quantum) } := moveClock_publishes hw ht hc hr ha
    have honly := markPubs_pubOnly s k w.sec w.hand m m
    have hwarps : (markPubs s k w.sec w.hand m m).warps = s.warps := honly.warps
    have hat (j : Nat) : getWarp (markPubs s k w.sec w.hand m m) j = getWarp s j := congrArg (kfind · j) hwarps
    rw [hmark]
    refine ⟨markPubs_pubs ha, ?_, fun j hj => ?_, honly.cards, ?_⟩
    · rw [getWarp_updWarp, if_pos rfl, getWarp_updWarp, if_pos rfl, hat, hw]; rfl
    · rw [getWarp_updWarp, if_neg hj, getWarp_updWarp, if_neg hj, hat]
    · calc _ = { ({ markPubs s k w.sec w.hand m m with pubs := s.pubs, chips := s.chips, cards := s.cards } : State) with warps := s.warps } := rfl
        _ = s := by rw [honly.rest]
  case gate =>
    have hstay : gateOpen s k = s := by
      unfold gateOpen
      simp [hw, hst, hfloor]
    exact congrArg _ hstay

end Sys2Proof.Machine
end

section
/-! PROOF. Barriers: arrivals, waits and the phases they complete (R186, R196, R198, R219, R220). -/

namespace Sys2Proof.Machine

/-! ## Groups and their barriers -/

theorem kmodify_congr {α : Type} {m : KMap α} {i : Nat} {x : α} {f g : α → α} (h : kfind m i = some x) (he : f x = g x) :
    kmodify m i f = kmodify m i g := by
  induction m with
  | nil => rfl
  | cons e m ih =>
    obtain ⟨j, y⟩ := e
    unfold kfind at h
    unfold kmodify
    by_cases hj : j = i
    · rw [if_pos hj] at h
      cases h
      rw [if_pos hj, if_pos hj, he]
    · rw [if_neg hj] at h
      rw [if_neg hj, if_neg hj, ih h]

theorem updGroup_congr {s : State} {k : Nat} {g : Group} {f f' : Group → Group} (h : getGroup s k = some g) (he : f g = f' g) :
    updGroup s k f = updGroup s k f' := by
  unfold updGroup
  rw [kmodify_congr h he]

theorem getGroup_updGroup (s : State) (k : Nat) (f : Group → Group) : getGroup (updGroup s k f) k = (getGroup s k).map f :=
  (kfind_kmodify ..).trans (if_pos rfl)

theorem getBar_setBar {g : Group} (h : krising none g.bars = true) (n : Nat) (x : Bar) : getBar (setBar g n x) n = x :=
  sget_sput_same n x h

theorem phaseOf_eq {s : State} {k n : Nat} {g : Group} (h : getGroup s k = some g) : phaseOf s k n = (getBar g n).phase := by
  unfold phaseOf
  rw [h]

/-! ## Reinstatement (R186, R198) -/

/-- The warp that was parked, once a turn of stamp `r` has reinstated it. -/
def reinstated (s : State) (k : Nat) (r : Stamp) (y : Warp) (what : ParkWhat) (len : Nat) : Warp :=
  let c := max y.clock r.1
  let c' := if !y.turn then y.clock + 1 else if parkG what then nextMark y.quantum c else c + 1
  { addTurn (setPc (wakeEffect s (partOf k) y what) (curPc y + BitVec.ofNat 64 len)) r with
    clock := c', runLen := 0
    stat := if y.turn && decide (y.clock / y.quantum < c' / y.quantum) then .gate (nextMark y.quantum y.clock) (c' / y.quantum * y.quantum)
      else .ready }

theorem wakeEffect_fwait (s : State) (p : Nat) (y : Warp) (h : Dword) (d : Nat) (g : Bool) : wakeEffect s p y (.fwait h d g) =
    wrGroup y d ((findSlot s p h).elim [0, 0, 0, 0, 0, 0, 0, 0, 0] fun x => resultGroup x.2) := by
  unfold wakeEffect
  dsimp only
  cases findSlot s p h <;> rfl

/-- The clock that the reinstated warp goes on at, after a turn of clock `cr`. -/
def wakeClock (y : Warp) (g : Bool) (cr : Nat) : Nat :=
  if y.turn = false then y.clock + 1 else if g = true then nextMark y.quantum (max y.clock cr) else max y.clock cr + 1

theorem reinstated_run (s : State) (k : Nat) (r : Stamp) (y : Warp) (what : ParkWhat) (len : Nat) :
    let c := wakeClock y (parkG what) r.1
    let v := setPc (wakeEffect s (partOf k) y what) (curPc y + BitVec.ofNat 64 len)
    let crossed : Prop := y.turn = true ∧ y.clock / y.quantum < c / y.quantum
    (crossed → SameRun (reinstated s k r y what len)
      { v with clock := c, stat := .gate (nextMark y.quantum y.clock) (c / y.quantum * y.quantum) }) ∧
    (¬crossed → SameRun (reinstated s k r y what len) { v with clock := c, stat := .ready }) := by
  have hc : (if !y.turn then y.clock + 1 else if parkG what then nextMark y.quantum (max y.clock r.1) else max y.clock r.1 + 1) =
      wakeClock y (parkG what) r.1 := by
    unfold wakeClock
    cases y.turn <;> rfl
  unfold SameRun reinstated
  dsimp only
  rw [hc]
  constructor
  · rintro ⟨ht, hcross⟩
    rw [ht, decide_eq_true hcross]
    rfl
  · intro hnot
    rw [if_neg (by simpa using hnot)]
    rfl

theorem wake_parked {s : State} {k len : Nat} {y : Warp} {what : ParkWhat} {en : Bool} (hy : getWarp s k = some y)
    (hst : y.stat = .parked what len en) (r : Stamp) : wake s k r = setWarp s k (reinstated s k r y what len) := by
  unfold wake
  rw [hy]
  dsimp only
  rw [hst]
  rfl

theorem wake_other (s : State) (r : Stamp) {j k : Nat} (hj : j ≠ k) : getWarp (wake s k r) j = getWarp s j := by
  obtain h | ⟨-, x, -, -, h⟩ := wake_cases s k r
  · rw [h]
  · rw [h, getWarp_setWarp, if_neg hj]

theorem wake_groups (s : State) (k : Nat) (r : Stamp) : (wake s k r).groups = s.groups := by
  obtain h | ⟨-, x, -, -, h⟩ := wake_cases s k r <;> rw [h]
  rfl

theorem wake_cards (s : State) (k : Nat) (r : Stamp) : (wake s k r).cards = s.cards := by
  obtain h | ⟨-, x, -, -, h⟩ := wake_cases s k r <;> rw [h]
  rfl

/-! ## Parking (R190, R197) -/

theorem SameRun.turn {x v : Warp} (h : SameRun x v) : x.turn = v.turn := by
  unfold SameRun at h
  rw [← h]

theorem parkWarp_listed {s : State} {k : Nat} {w x : Warp} (h : getWarp s k = some x) (ht : x.turn = w.turn) (what : ParkWhat) (len : Nat)
    (en : Bool) : ∃ y, getWarp (parkWarp s k w what len en) k = some y := by
  have hwait (t : State) (z : Warp) (hz : getWarp t k = some z) :
      ∃ y, getWarp (waitIn t k (.parked what len en)) k = some y ∧ y.turn = z.turn := by
    obtain ⟨y, hy, hrun⟩ := endRun_warp (s := updWarp t k fun w => { w with stat := .parked what len en }) (k := k)
      (w := { z with stat := .parked what len en }) ((getWarp_updWarp ..).trans ((if_pos rfl).trans (congrArg _ hz)))
    exact ⟨y, hy, hrun.turn⟩
  unfold parkWarp
  dsimp only
  cases hw : w.turn
  · exact (hwait s x h).imp fun _ hy => hy.1
  · obtain ⟨y, hy, hyt⟩ := hwait _ _ ((getWarp_pubMark s k w (nextMark w.quantum w.clock) w.clock).trans (congrArg _ h))
    exact (refuseAll_stat hy (hyt.trans (ht.trans hw)) ..).imp fun _ hz => hz.1

/-- An instruction whose own effect parks its warp. -/
theorem parks_law {i : Instr} {s s1 t : State} {k len : Nat} {o : Op} {f : Long} {w v x : Warp} {what : ParkWhat}
    (hp : Performs i s k o f len s1 w) (hb : bodyOf o f len s1 k w = .done (parkWarp t k v what len f.fl.en)) (hx : getWarp t k = some x)
    (ht : x.turn = v.turn) : Becomes i s k (parkWarp t k v what len f.fl.en) := by
  obtain ⟨y, hy⟩ := parkWarp_listed hx ht what len f.fl.en
  exact becomes_law hp hb (upToRun_refl hy)

/-! ## A phase that completes (R219) -/

/-- The barrier once warp `k` has arrived with an expected count. -/
def barAfter (k cnt : Nat) (b : Bar) : Bar :=
  { b with
    count := b.count + 1, expect := if b.count = 0 then cnt else b.expect
    arrived := if b.arrived.contains k then b.arrived else b.arrived ++ [k] }

/-- The state once warp `k` has arrived at barrier `n` of its group `g`. -/
def barArrived (s : State) (k n cnt : Nat) (g : Group) : State := updGroup s k fun x => setBar x n (barAfter k cnt (getBar g n))

theorem barArrive_eq {s : State} {k : Nat} {g : Group} (hg : getGroup s k = some g) (n cnt : Nat) (r : Stamp) :
    barArrive s k n cnt r = barStep (barArrived s k n cnt g) k r n := by
  unfold barArrive barArrived
  dsimp only
  rw [updGroup_congr hg (f' := fun x => setBar x n (barAfter k cnt (getBar g n))) rfl]

theorem getGroup_barArrived {s : State} {k : Nat} {g : Group} (hg : getGroup s k = some g) (n cnt : Nat) :
    getGroup (barArrived s k n cnt g) k = some (setBar g n (barAfter k cnt (getBar g n))) :=
  (getGroup_updGroup ..).trans (congrArg _ hg)

/-- What the completed phase does to one warp of the table. -/
def barWake (gk n ph : Nat) (r : Stamp) (s : State) (e : Nat × Warp) : State :=
  if groupKey e.1 != groupKey gk then s
  else match e.2.stat with
    | .parked (.bar m p sc g) _ _ =>
      if m = n ∧ p ≠ ph then wake (if g && !e.2.turn && decide (3 ≤ sc) then l1Clear s e.1 else s) e.1 r else s
    | _ => s

/-- A completed barrier of the phase that follows. -/
def barDone (b : Bar) : Bar := { phase := (b.phase + 1) % 2 ^ 16, count := 0, expect := 0, arrived := [] }

theorem barStep_complete {s : State} {gk n : Nat} {g : Group} (hc : barComplete s gk n = true) (hg : getGroup s gk = some g) (r : Stamp) :
    barStep s gk r n = s.warps.foldl (barWake gk n ((getBar g n).phase.succ % 2 ^ 16) r) (setGroup s gk (setBar g n (barDone (getBar g n)))) := by
  unfold barStep
  rw [hc, hg]
  rfl

theorem barStep_incomplete {s : State} {gk n : Nat} (hc : barComplete s gk n = false) (r : Stamp) : barStep s gk r n = s := by
  unfold barStep
  rw [hc]
  rfl

/-- A warp parked on the barrier with another phase is the one that a completed phase reinstates. -/
theorem barWake_woken {gk n ph p sc len j : Nat} {form en : Bool} {y : Warp} (r : Stamp) (s : State) (hj : groupKey j = groupKey gk)
    (hst : y.stat = .parked (.bar n p sc form) len en) (hp : p ≠ ph) : ∃ t, MemOnly s t ∧ barWake gk n ph r s (j, y) = wake t j r := by
  refine ⟨if form && !y.turn && decide (3 ≤ sc) then l1Clear s j else s, ?_, ?_⟩
  · split
    · exact l1Clear_memOnly ..
    · rfl
  · unfold barWake
    simp [hj, hst, hp]

theorem barWake_asleep {gk n ph : Nat} {j : Nat} {y : Warp} (r : Stamp) (s : State)
    (h : ∀ p sc form len en, y.stat = .parked (.bar n p sc form) len en → groupKey j = groupKey gk → p = ph) :
    barWake gk n ph r s (j, y) = s := by
  unfold barWake
  split
  next => rfl
  next hj =>
    have hj : groupKey j = groupKey gk := by simpa using hj
    split
    next m p sc form len en hst =>
      refine if_neg fun hmp => hmp.2 ?_
      obtain ⟨rfl, -⟩ := hmp
      exact h p sc form len en hst hj
    next => rfl

theorem barWake_cases (gk n ph : Nat) (r : Stamp) (s : State) (e : Nat × Warp) :
    barWake gk n ph r s e = s ∨ ∃ t, MemOnly s t ∧ barWake gk n ph r s e = wake t e.1 r := by
  by_cases h : ∀ p sc form len en, e.2.stat = .parked (.bar n p sc form) len en → groupKey e.1 = groupKey gk → p = ph
  · exact .inl (barWake_asleep r s h)
  · push Not at h
    obtain ⟨p, sc, form, len, en, hst, hj, hp⟩ := h
    exact .inr (barWake_woken r s hj hst hp)

theorem barWake_other (gk n ph : Nat) (r : Stamp) (s : State) {e : Nat × Warp} {j : Nat} (hj : j ≠ e.1) :
    getWarp (barWake gk n ph r s e) j = getWarp s j := by
  obtain h | ⟨t, ht, h⟩ := barWake_cases gk n ph r s e
  · rw [h]
  · rw [h, wake_other t r hj, ht.getWarp]

theorem barWake_groups (gk n ph : Nat) (r : Stamp) (s : State) (e : Nat × Warp) : (barWake gk n ph r s e).groups = s.groups := by
  obtain h | ⟨t, ht, h⟩ := barWake_cases gk n ph r s e
  · rw [h]
  · rw [h, wake_groups, ht.groups]

theorem barWake_cards (gk n ph : Nat) (r : Stamp) (s : State) (e : Nat × Warp) : (barWake gk n ph r s e).cards = s.cards := by
  obtain h | ⟨t, ht, h⟩ := barWake_cases gk n ph r s e
  · rw [h]
  · rw [h, wake_cards, ht.cards]

/-- Whatever a step leaves alone, its repetition leaves alone. -/
theorem foldl_keeps {σ α β : Type} (p : σ → β) {g : σ → α → σ} (hg : ∀ s x, p (g s x) = p s) (l : List α) (s : σ) : p (l.foldl g s) = p s := by
  induction l generalizing s with
  | nil => rfl
  | cons x l ih => exact (ih _).trans (hg ..)

/-- A pass over other warps. -/
theorem getWarp_foldl_others {g : State → Nat × Warp → State} (hother : ∀ s e j, j ≠ e.1 → getWarp (g s e) j = getWarp s j) {j : Nat}
    {l : List (Nat × Warp)} (hl : ∀ e ∈ l, j ≠ e.1) (s : State) : getWarp (l.foldl g s) j = getWarp s j := by
  induction l generalizing s with
  | nil => rfl
  | cons e l ih => exact (ih (fun x hx => hl x (List.mem_cons_of_mem _ hx)) _).trans (hother _ _ _ (hl e List.mem_cons_self))

/-- A pass over the warps whose steps each concern one warp leaves of a warp what its own step does. -/
theorem getWarp_foldl_own {g : State → Nat × Warp → State} (hother : ∀ s e j, j ≠ e.1 → getWarp (g s e) j = getWarp s j) {j : Nat} {y z : Warp}
    (hown : ∀ s, getWarp s j = some y → getWarp (g s (j, y)) j = some z) {l : List (Nat × Warp)} (hl : l.Pairwise fun a b => a.1 < b.1)
    (hm : (j, y) ∈ l) {s : State} (hs : getWarp s j = some y) : getWarp (l.foldl g s) j = some z := by
  induction l generalizing s with
  | nil => cases hm
  | cons e l ih =>
    obtain ⟨hlt, hl⟩ := List.pairwise_cons.mp hl
    obtain rfl | hm := List.mem_cons.mp hm
    · exact (getWarp_foldl_others hother (fun e he => Nat.ne_of_lt (hlt e he)) _).trans (hown s hs)
    · exact ih hl hm ((hother _ _ _ (Nat.ne_of_gt (hlt _ hm))).trans hs)

theorem getGroup_barStep {s : State} {gk n : Nat} {g : Group} (hc : barComplete s gk n = true) (hg : getGroup s gk = some g) (r : Stamp) :
    getGroup (barStep s gk r n) gk = some (setBar g n (barDone (getBar g n))) := by
  rw [barStep_complete hc hg]
  unfold getGroup
  rw [foldl_keeps State.groups (fun _ _ => barWake_groups ..)]
  exact (getGroup_setGroup ..).trans (if_pos rfl)

theorem barStep_cards (s : State) (gk n : Nat) (r : Stamp) : (barStep s gk r n).cards = s.cards := by
  unfold barStep
  split
  · rfl
  · split
    · rfl
    · exact foldl_keeps State.cards (fun _ _ => barWake_cards ..) _ _

theorem getWarp_barStep {s : State} {gk n j : Nat} {g : Group} {y z : Warp} (hc : barComplete s gk n = true) (hg : getGroup s gk = some g)
    (hrise : krising none s.warps = true) (hy : getWarp s j = some y) (r : Stamp)
    (hown : ∀ t, getWarp t j = some y → getWarp (barWake gk n ((getBar g n).phase.succ % 2 ^ 16) r t (j, y)) j = some z) :
    getWarp (barStep s gk r n) j = some z := by
  rw [barStep_complete hc hg]
  exact getWarp_foldl_own (fun _ _ _ hj => barWake_other _ _ _ _ _ hj) hown ((krising_iff _ none).mp hrise).2 (mem_of_kfind hy) hy

/-- A wait that passes, with the acquire of its `g` form (R196, R220). -/
theorem barPassed_retires {i : Instr} {s s1 t : State} {k len : Nat} {o : Op} {f : Long} {w : Warp} (hp : Performs i s k o f len s1 w)
    (ho : sysIllegal o = true) (hwt : weight o f = 1) (hb : bodyOf o f len s1 k w = barPassed f t k w) (ht : getWarp t k = some w)
    (hc : t.cards = s1.cards) : RetiresAt i s k len
      (if f.imm.getLsbD 16 = true ∧ w.turn = false ∧ 3 ≤ f.mod.toNat then l1Clear t k else t) w .next
      (if f.imm.getLsbD 16 = true ∧ w.turn = true then ceilMark w.quantum (w.clock + 1) else w.clock + 1) := by
  have hmem : MemOnly t (if barG f && !w.turn && decide (3 ≤ f.mod.toNat) then l1Clear t k else t) := by
    split
    · exact l1Clear_memOnly ..
    · rfl
  have hr := retiresAt_law hp hb ((hmem.getWarp k).trans ht) (performs_ready hp) (hmem.cards.trans hc)
  have hweight : weightOf w o f = 1 := (if_neg (by simp [performs_user hp ho])).trans hwt
  have hclock : (if barG f && w.turn then some (acquireClock w 1) else none).getD (w.clock + weightOf w o f) =
      if f.imm.getLsbD 16 = true ∧ w.turn = true then ceilMark w.quantum (w.clock + 1) else w.clock + 1 := by
    rw [hweight, apply_ite (Option.getD · (w.clock + 1))]
    exact if_congr (by simp [barG]) rfl rfl
  rw [hclock, if_congr (show _ ↔ f.imm.getLsbD 16 = true ∧ w.turn = false ∧ 3 ≤ f.mod.toNat by simp [barG, and_assoc]) rfl rfl] at hr
  exact hr

/-! ## O36 -/

/-- Settles O36: an arrival by what it leaves of the barrier, a completed phase warp by warp. -/
theorem barriersArriveWaitAndTest : Obligations.BarriersArriveWaitAndTest := by
  intro i s s1 k len o f w hp g hg hbars n acquires b ph v arrived turned parks goesOn passes
  have hrise : krising none g.bars = true := by
    unfold swf at hbars
    exact (Bool.and_eq_true_iff.mp hbars).1
  have hga : getGroup arrived k = some (setBar g n (barAfter k (barCnt f) b)) :=
    getGroup_barArrived (s := setWarp s1 k v) hg n (barCnt f)
  have hba : getBar (setBar g n (barAfter k (barCnt f) b)) n = barAfter k (barCnt f) b := getBar_setBar hrise ..
  have hgt (hc : barComplete arrived k n = true) : ∃ g', getGroup turned k = some g' ∧
      getBar g' n = { phase := (ph + 1) % 2 ^ 16, count := 0, expect := 0, arrived := [] } := by
    refine ⟨_, getGroup_barStep hc hga _, ?_⟩
    rw [hba]
    exact getBar_setBar (krising_sput n _ hrise) ..
  have hva : getWarp arrived k = some v := (lists_setWarp s1 k v).warp
  have hready : v.stat = .ready := by
    have := performs_ready hp
    dsimp only [v]
    split
    · exact (wrS_stat ..).trans this
    · exact this
  have hvt : getWarp turned k = some v :=
    (barStep_keepsUnparked ..).1 v hva (by unfold isParked; rw [hready])
  have hcards : turned.cards = s1.cards := barStep_cards ..
  have hpass {t : State} (ho : sysIllegal o = true) (hwt : weight o f = 1) (hb : bodyOf o f len s1 k w = barPassed f t k w)
      (ht : getWarp t k = some w) (hc : t.cards = s1.cards) : passes t := barPassed_retires hp ho hwt hb ht hc
  have hpark {t : State} {p : Nat} (hb : bodyOf o f len s1 k w = .done (parkWarp t k w (.bar n p f.mod.toNat acquires) len f.fl.en))
      (ht : getWarp t k = some w) : parks t p := parks_law hp hb ht rfl
  have hph : phaseOf s1 k n = ph := phaseOf_eq hg
  have hturned : barArrive (setWarp s1 k v) k n (barCnt f) (stampOf k w) = turned := barArrive_eq (s := setWarp s1 k v) hg ..
  have hgoes {t u : State} {j l : Nat} {r : Stamp} {y : Warp} {what : ParkWhat} (hu : getWarp u j = some (reinstated t j r y what l)) :
      goesOn t u j r.1 y what l := by
    have hrun := reinstated_run t j r y what l
    cases what with
    | bar => exact ⟨_, hu, hrun⟩
    | claim => exact ⟨_, hu, hrun⟩
    | fwait h d form =>
      rw [wakeEffect_fwait] at hrun
      exact ⟨_, hu, hrun⟩
  refine ⟨hgt, ?arr, ?sync, ?wait, ?test, ?wakes, ?phase⟩
  case arr =>
    rintro rfl
    have hset : updWarp s1 k (fun x => wrS x f.d.toNat (BitVec.ofNat 64 (phaseOf s1 k n))) = setWarp s1 k v := by
      rw [(performs_lists hp).updWarp, hph]
      rfl
    have hb : bodyOf .barArr f len s1 k w = .retire turned .next none id := by
      show barArrBody f s1 k w = _
      unfold barArrBody
      dsimp only [barNo]
      rw [hset, hturned]
    have hstate : (if barComplete arrived k n then turned else arrived) = turned := by
      cases hc : barComplete arrived k n
      · exact (barStep_incomplete hc _).symm
      · rfl
    rw [hstate]
    exact retires_law hp hb hvt hready (wrS_sys ..) hcards
  case sync =>
    rintro rfl
    have hset : setWarp s1 k v = s1 := performs_set hp
    rw [hset] at hturned
    have hb : bodyOf .barSync f len s1 k w = if phaseOf turned k n = ph then .done (parkWarp turned k w (.bar n ph f.mod.toNat acquires) len f.fl.en)
        else barPassed f turned k w := by
      show barSyncBody f len s1 k w = _
      unfold barSyncBody
      dsimp only [barNo]
      rw [hturned, hph]
      rfl
    constructor
    · intro hc
      obtain ⟨g', hg', hbar⟩ := hgt hc
      rw [phaseOf_eq hg', hbar, if_neg (by dsimp only; omega)] at hb
      exact hpass rfl rfl hb hvt hcards
    · intro hc
      have hsame : turned = arrived := barStep_incomplete hc _
      rw [hsame, phaseOf_eq hga, hba, if_pos (show (barAfter k (barCnt f) b).phase = ph from rfl)] at hb
      exact hpark hb hva
  case wait =>
    rintro rfl want
    have hb : bodyOf .barWait f len s1 k w = if ph = want then .done (parkWarp s1 k w (.bar n want f.mod.toNat acquires) len f.fl.en)
        else barPassed f s1 k w := by
      show barWaitBody f len s1 k w = _
      unfold barWaitBody
      dsimp only [barNo]
      rw [hph]
      rfl
    constructor
    · intro hne
      exact hpass rfl rfl (hb.trans (if_neg hne)) (performs_warp hp) rfl
    · intro he
      exact hpark (hb.trans (if_pos he)) (performs_warp hp)
  case test =>
    rintro rfl
    have hb : bodyOf .barTest f len s1 k w = .retire (setWarp s1 k
        (perLaneP w (lanesOf (curLanes w)) f.d.toNat fun _ => ((ph + (rdS w f.a.toNat).toNat) % 2 == 1, 0))) .next none id := by
      show barTestBody f s1 k w = _
      unfold barTestBody
      dsimp only [barNo]
      rw [hph]
    exact regOp_law hp hb (perLaneP_effect ..)
  case wakes =>
    intro t j r y what l en hy hst
    refine ⟨hgoes ?_, fun m hm => wake_other t r hm⟩
    rw [wake_parked hy hst]
    exact (lists_setWarp ..).warp
  case phase =>
    intro hc hrising j y hy woken
    have hwarps : krising none arrived.warps = true := krising_kinsert _ _ _ _ hrising nofun
    have hnext : (getBar (setBar g n (barAfter k (barCnt f) b)) n).phase.succ % 2 ^ 16 = (ph + 1) % 2 ^ 16 := by rw [hba]; rfl
    constructor
    · intro what l en hst hwoken
      obtain ⟨hj, p, sc, form, rfl, hp⟩ := hwoken
      have hown : getWarp turned j = some (reinstated arrived j (w.clock, identOf k) y (.bar n p sc form) l) := by
        refine getWarp_barStep hc hga hwarps hy _ fun t ht => ?_
        rw [hnext]
        obtain ⟨u, hu, h⟩ := barWake_woken (w.clock, identOf k) t hj hst hp
        rw [h, wake_parked ((hu.getWarp j).trans ht) hst]
        exact (lists_setWarp ..).warp
      exact hgoes hown
    · intro hwoken
      refine getWarp_barStep hc hga hwarps hy _ fun t ht => ?_
      rw [barWake_asleep _ _ fun p sc form l en hst hj => ?_]
      · exact ht
      · rw [hnext]
        by_contra hp
        exact hwoken _ l en hst ⟨hj, p, sc, form, rfl, hp⟩

end Sys2Proof.Machine
end

section
/-! PROOF. The instructions on a handle that may be named (R196, R308 to R310, R314, R315, R317, R328, R378). -/

namespace Sys2Proof.Machine

/-! ## Slots that are due are taken without a warp (R378) -/

theorem dealerWrite_sameWarps (s : State) (p clk pa : Nat) (bs : List Byte) : SameWarps s (dealerWrite s p clk pa bs) := by
  unfold dealerWrite
  split
  · exact .refl s
  · split
    · exact ⟨rfl, rfl⟩
    · exact actWrite_sameWarps ..

theorem recordOrigin_sameWarps (s : State) (p at_ origin : Nat) : SameWarps s (recordOrigin s p at_ origin) := by
  unfold recordOrigin
  split
  · exact .refl s
  · exact dealerWrite_sameWarps ..

theorem replayCheck_sameWarps (s : State) (p at_ o : Nat) (b : List Byte) : SameWarps s (replayCheck s p at_ o b) := by
  unfold replayCheck
  dsimp only
  split
  · exact .refl s
  · split <;> exact ⟨rfl, rfl⟩

theorem moveOrigins_sameWarps (s : State) (d : Nat) (e : Nat × Card) : SameWarps s (moveOrigins s d e) := by
  unfold moveOrigins
  split
  · refine .foldl (fun s e => ?_) _ s
    unfold moveOrigin
    split
    · split
      · exact .refl s
      · exact (updCard_sameWarps ..).trans (recordOrigin_sameWarps ..)
    · exact .refl s
  · exact .refl s

theorem settleCard_sameWarps (s : State) (e : Nat × Card) : SameWarps s (settleCard s e) := by
  unfold settleCard
  dsimp only
  split
  · exact ((putSlot_sameWarps ..).trans (updCard_sameWarps ..)).trans (replayCheck_sameWarps ..)
  · exact updCard_sameWarps ..

theorem settleHandles_sameWarps (s : State) (d : Nat) : SameWarps s (settleHandles s d) := by
  refine .foldl (fun s e => ?_) _ s
  split
  · exact .refl s
  · split
    · exact .refl s
    · split
      · exact (moveOrigins_sameWarps ..).trans (settleCard_sameWarps ..)
      · exact .refl s

/-- A handle turn leaves its warp's mode, quantum and clock. -/
theorem handleTurn_warp {s : State} {k : Nat} {w v : Warp} (h : Lists s k w) (hv : getWarp (handleTurn s k w) k = some v) :
    v.turn = w.turn ∧ v.quantum = w.quantum ∧ v.clock = w.clock := by
  unfold handleTurn at hv
  cases ht : w.turn
  · rw [ht, if_neg Bool.false_ne_true, turnPub_free h.warp ht, h.warp] at hv
    cases hv
    exact ⟨ht, rfl, rfl⟩
  · have hlist := h.sameWarps (settleHandles_sameWarps s (domOf s (partOf k)))
    rw [ht, if_pos rfl, turnPub_turn hlist.warp ht, pubHand_lists hlist, (lists_setWarp ..).warp] at hv
    cases hv
    exact ⟨ht, rfl, rfl⟩

/-! ## How the bodies of a live handle end -/

section
variable {f : Long} {s : State} {k : Nat} {w : Warp} {key : Nat} {x : Slot} (h : liveSlot s (partOf k) (rdS w f.a.toNat) = some (key, x))
include h

theorem fwaitBody_live {v : Warp} (len : Nat) (hv : getWarp (handleTurn s k w) k = some v) : fwaitBody f len s k w =
    if unresolved x then .done (parkWarp (handleTurn s k w) k v (.fwait (rdS w f.a.toNat) f.d.toNat (f.imm.getLsbD 0)) len f.fl.en)
    else
      let s := setWarp (handleTurn s k w) k (wrGroup v f.d.toNat (resultGroup x))
      .retire (if v.turn then s else l1Clear s k) .next (if f.imm.getLsbD 0 && v.turn then some (acquireClock v 1) else none) id := by
  unfold fwaitBody
  dsimp only
  rw [h]
  dsimp only
  rw [hv]

theorem fpollBody_live : fpollBody f s k w =
    .retire (handleResult .fpoll f (if w.turn || unresolved x then handleTurn s k w else l1Clear (handleTurn s k w) k) k
      ((resultGroup x).zipIdx.map fun e => RegW.s (f.d.toNat + e.2) e.1)) .next none id := by
  unfold fpollBody
  dsimp only
  rw [h]

theorem frefBody_live {c : Card} (hc : getCard s k = some c) (hx : x.count ≠ 65535)
    (hheld : heldCount c (rdS w f.a.toNat) ≠ 0 ∨ heldDistinct c < 256) : frefBody f s k w =
    .retire (updCard (putSlot (handleTurn s k w) key { x with count := x.count + 1 }) k fun c => addHeld c (rdS w f.a.toNat)) .next none id := by
  unfold frefBody
  dsimp only
  rw [h, hc]
  exact if_neg (by omega)

theorem fdropBody_held {c : Card} (hc : getCard s k = some c) (hpin : f.imm.getLsbD 0 = false) (hheld : heldCount c (rdS w f.a.toNat) ≠ 0) :
    fdropBody f s k w = .retire (cascade (updCard (handleTurn s k w) k fun c => dropHeld c (rdS w f.a.toNat)) (partOf k) (stampOf k w)
      [.drop (rdS w f.a.toNat)]) .next none id := by
  unfold fdropBody
  dsimp only
  rw [h, hc, hpin]
  exact if_neg hheld

theorem fdropBody_pinned {c : Card} (hc : getCard s k = some c) (hpin : f.imm.getLsbD 0 = true)
    (hheld : pinCount s (partOf k) (rdS w f.a.toNat) ≠ 0) : fdropBody f s k w =
    let u := handleTurn s k w
    let p := partOf k
    let a := rdS w f.a.toNat
    .retire (cascade (setPart u p { getPart u p with
      pins := if pinCount u p a ≤ 1 then kerase (getPart u p).pins a.toNat else kinsert (getPart u p).pins a.toNat (pinCount u p a - 1) }) p (stampOf k w)
      [.drop a]) .next none id := by
  unfold fdropBody
  dsimp only
  rw [h, hc, hpin]
  exact if_neg hheld

theorem fpinBody_live (hx : x.count ≠ 65535) : fpinBody f s k w =
    let u := putSlot (handleTurn s k w) key { x with count := x.count + 1 }
    .retire (setPart u (partOf k) { getPart u (partOf k) with
      pins := kinsert (getPart u (partOf k)).pins (rdS w f.a.toNat).toNat (pinCount u (partOf k) (rdS w f.a.toNat) + 1) }) .next none id := by
  unfold fpinBody
  dsimp only
  rw [h]
  exact if_neg hx

end

section
variable {f : Long} {s : State} {k : Nat} {w : Warp} {c : Card} {key : Nat} {x : Slot} (hc : getCard s k = some c)
  (hx : findSlot s (partOf k) c.handle = some (key, x))
include hc hx

theorem ownSlot_unresolved (act : State → Nat → Slot → Dword → State) (hu : unresolved x = true) :
    ownSlot f s k w act = .retire (updWarp (act s key x c.handle) k fun w => wrS w f.d.toNat 0) .next none id := by
  unfold ownSlot
  rw [hc]
  dsimp only
  rw [hx]
  dsimp only
  unfold unresolved at hu
  cases hst : x.st <;> simp [hst] at hu <;> rfl

theorem ownSlot_settled (act : State → Nat → Slot → Dword → State) (hs : x.st = .resolved ∨ x.st = .broken) :
    ownSlot f s k w act = .retire (updWarp s k fun w => wrS w f.d.toNat 1) .next none id := by
  unfold ownSlot
  rw [hc]
  dsimp only
  rw [hx]
  dsimp only
  obtain hst | hst := hs <;> rw [hst]

end

/-! ## How an instruction on a handle ends -/

section
variable {i : Instr} {s s1 t : State} {k len : Nat} {o : Op} {f : Long} {w v : Warp} (hp : Performs i s k o f len s1 w)
  (hv : getWarp t k = some v) (hst : v.stat = .ready) (hc : Running t k)
include hp hv hst hc

/-- Its own effect retires it, with a change of the warp that leaves its course. -/
theorem retires_updWarp {g : Warp → Warp} {clk : Option Nat} (hb : bodyOf o f len s1 k w = .retire (updWarp t k g) .next clk id)
    (hgs : (g v).stat = v.stat) (hgc : (g v).clock = v.clock) :
    RetiresAt i s k len (updWarp t k g) (g v) .next (clk.getD (v.clock + weightOf w o f)) := by
  have := retiresAt_run hp hb (by rw [getWarp_updWarp, if_pos rfl, hv]; rfl) (hgs.trans hst) hc
  rwa [hgc] at this

theorem retires_unchanged {clk : Option Nat} (hb : bodyOf o f len s1 k w = .retire t .next clk id) :
    RetiresAt i s k len (updWarp t k id) v .next (clk.getD (v.clock + weightOf w o f)) := by
  rw [updWarp_id hv rfl]
  exact retiresAt_run hp hb hv hst hc

end

/-! ## O42 -/

/-- Settles O42: each instruction by how its body ends for a live handle, or for its card's own. -/
theorem handleInstructionsReadHoldAndSettle : Obligations.HandleInstructionsReadHoldAndSettle := by
  intro i s s1 k len o f w hp p h t s2 ends dropsLines
  constructor
  · intro key x hlive pending
    refine ⟨?wait, ?poll, fun c hc => ⟨?ref, ?drop, ?unpin⟩, ?pin⟩
    case wait =>
      rintro rfl v hv after
      obtain ⟨hturn, hquantum, hclock⟩ := handleTurn_warp (performs_lists hp) hv
      have hb : bodyOf .fwait f len s1 k w = _ := fwaitBody_live hlive len hv
      refine ⟨fun hpend u hu hst hc => retires_unchanged hp hu hst hc (hb.trans ?_), fun hpend => ?_⟩
      · rw [if_neg (by rw [show unresolved x = false from hpend]; nofun), hturn]
        unfold acquireClock
        rw [hquantum, hclock]
        refine congrArg (Act.retire _ .next · id) (if_congr ?_ rfl rfl)
        exact Bool.and_eq_true_iff
      · exact parks_law hp (hb.trans (if_pos hpend)) hv rfl
    case poll =>
      rintro rfl v hv hst hc
      have hstate : (if w.turn || unresolved x then handleTurn s1 k w else l1Clear (handleTurn s1 k w) k) =
          if pending then s2 else dropsLines s2 := by
        by_cases hpend : unresolved x = true
        · rw [if_pos (by simp [hpend]), if_pos hpend]
        · rw [if_neg hpend, Bool.not_eq_true _ |>.mp hpend, Bool.or_false]
          rfl
      have hb : bodyOf .fpoll f len s1 k w = _ := fpollBody_live hlive
      rw [hstate] at hb
      exact retires_updWarp hp hv hst hc hb rfl rfl
    case ref =>
      rintro rfl hx hheld v hv hst hrun
      exact retires_unchanged hp hv hst hrun (frefBody_live hlive hc hx hheld)
    case drop =>
      rintro rfl hpin hheld v hv hst hrun
      exact retires_unchanged hp hv hst hrun (fdropBody_held hlive hc hpin hheld)
    case unpin =>
      rintro rfl hpin hheld m v hv hst hrun
      exact retires_unchanged hp hv hst hrun (fdropBody_pinned hlive hc hpin hheld)
    case pin =>
      rintro rfl hx s3 v hv hst hrun
      exact retires_unchanged hp hv hst hrun (fpinBody_live hlive hx)
  · intro settles
    have hsettles (u : State) (act : State → Nat → Slot → Dword → State) (hb : bodyOf o f len s1 k w = ownSlot f u k w act) : settles u act := by
      intro c key x hc hx
      refine ⟨fun hu v hv hst hrun => ?_, fun hs v hv hst hrun => ?_⟩
      · exact retires_updWarp hp hv hst hrun (hb.trans (ownSlot_unresolved hc hx act hu)) (wrS_stat ..) (wrS_clock ..)
      · exact retires_updWarp hp hv hst hrun (hb.trans (ownSlot_settled hc hx act hs)) (wrS_stat ..) (wrS_clock ..)
    refine ⟨?val, ?place, ?brk⟩
    case val =>
      rintro rfl u vals hread
      refine hsettles u (fun u key x h => resolveSlot u p key x h t (vals.map (BitVec.ofNat 8)) none) ?_
      show fresValBody f s1 k w = _
      unfold fresValBody
      dsimp only
      rw [hread]
      rfl
    case place =>
      rintro rfl
      exact hsettles s2 (fun u key x own => resolveSlot u p key x own t [] (some ((rdS w f.b.toNat).toNat % 16, h))) rfl
    case brk =>
      rintro rfl
      exact hsettles s2 (fun u _ _ own => cascade u p t [.brk own (BitVec.ofNat 64 ((rdS w f.b.toNat).toNat % 2 ^ 48)) false]) rfl

end Sys2Proof.Machine
end

section
/-! PROOF. How copy and buffer instructions move their entries on (R203, R229 to R240, R263). -/

namespace Sys2Proof.Machine

/-! ## What the copy engine's acts leave of warps and cards -/

theorem updBuf_keepsStops (s : State) (k b : Nat) (g : Buf → Buf) : KeepsStops s (updBuf s k b g) := ⟨⟨rfl, rfl⟩, fun _ => rfl⟩

theorem refuseBuf_keepsStops (s : State) (k b : Nat) : KeepsStops s (refuseBuf s k b) := updBuf_keepsStops ..

theorem failBuf_keepsStops (s : State) (k b err : Nat) : KeepsStops s (failBuf s k b err) := updBuf_keepsStops ..

theorem copyTouch_memOnly (s : State) (q : Tabs) (vs : List View) : MemOnly s (copyTouch s q vs) := by
  refine MemOnly.foldl (fun s v => ?_) vs s
  split
  · exact sliceTouches_memOnly ..
  · rfl

theorem reportCopy_memOnly (s : State) (p : Nat) (bad : Option Nat) (err : Nat) : MemOnly s (reportCopy s p bad err) := by
  unfold reportCopy
  split
  · exact reportSecure_memOnly ..
  · rfl

/-- A copy that fails leaves its report and its entry. -/
theorem failed_keepsStops (s : State) (p k b err e : Nat) (bad : Option Nat) : KeepsStops s (failBuf (reportCopy s p bad e) k b err) :=
  (reportCopy_memOnly ..).keepsStops.trans (failBuf_keepsStops ..)

/-- A copy that starts has touched its home slices and changes its entry. -/
theorem started_keepsStops (s : State) (q : Tabs) (vs : List View) (k b : Nat) (g : Buf → Buf) :
    KeepsStops s (updBuf (copyTouch s q vs) k b g) := (copyTouch_memOnly ..).keepsStops.trans (updBuf_keepsStops ..)

theorem startCopy_keepsStops (s : State) (k : Nat) (w : Warp) (b : Nat) (c : Coll) (kind : CopyKind) :
    KeepsStops s (startCopy s k w b c kind) := by
  unfold startCopy
  split
  · exact .refl s
  · dsimp only
    split
    iterate 3
      split
      · exact failBuf_keepsStops ..
      · split
        · exact started_keepsStops ..
        · exact failed_keepsStops ..
    split
    · exact failBuf_keepsStops ..
    · split
      · split <;> exact started_keepsStops ..
      · exact failed_keepsStops ..

theorem startIter_keepsStops (s : State) (k : Nat) (w : Warp) (cmd : CopyCmd) (first i : Nat) :
    KeepsStops s (startIter s k w cmd first i) := by
  unfold startIter
  split
  · exact .refl s
  · dsimp only
    split
    · exact failed_keepsStops ..
    · exact failed_keepsStops ..
    · exact started_keepsStops ..

theorem startLoop_keepsStops (s : State) (k : Nat) (w : Warp) (b : Nat) (cmd : CopyCmd) : KeepsStops s (startLoop s k w b cmd) := by
  have hopen : KeepsStops s (updBuf s k b fun x => openBuf x { cmd with role := 0 }) := updBuf_keepsStops ..
  unfold startLoop
  split
  · exact .refl s
  · dsimp only
    split
    · exact refuseBuf_keepsStops ..
    · split
      · exact hopen.trans (failBuf_keepsStops ..)
      · split
        · exact refuseBuf_keepsStops ..
        · split
          · exact hopen.trans (failBuf_keepsStops ..)
          · split
            · exact (KeepsStops.foldl (fun _ _ => updBuf_keepsStops ..) _ s).trans (.foldl (fun _ _ => startIter_keepsStops ..) _ _)
            · exact hopen.trans (failed_keepsStops ..)

theorem copyAcquire_memOnly (s : State) (k : Nat) (f : Long) (w : Warp) : MemOnly s (copyAcquire s k f w) := by
  unfold copyAcquire
  split
  · exact l1Clear_memOnly ..
  · rfl

theorem copyAcquire_eq (s : State) (k : Nat) (f : Long) (w : Warp) : copyAcquire s k f w =
    if w.turn = false ∧ f.fn.getLsbD 0 = true ∧ 3 ≤ f.mod.toNat then l1Clear s k else s :=
  if_congr (by simp [and_assoc]) rfl rfl

/-! ## How a copy instruction ends -/

theorem KeepsStops.getWarp {s t : State} (h : KeepsStops s t) (k : Nat) : getWarp t k = getWarp s k := by
  unfold Machine.getWarp
  rw [h.warps.1]

/-- An instruction whose own effect leaves its warp as it is retires. -/
theorem retires_keepsStops {i : Instr} {s s1 t : State} {k len : Nat} {o : Op} {f : Long} {w : Warp} (hp : Performs i s k o f len s1 w)
    (hb : bodyOf o f len s1 k w = .retire t .next none id) (ht : KeepsStops s1 t) : Retires i s k o f len t w :=
  retiresAt_run hp hb ((ht.getWarp k).trans (performs_warp hp)) (performs_ready hp) (ht.running (performs_runs hp))

/-- A group turn that finds its group memory filling waits in place, its region closed (R96, R203). -/
theorem groupTurn_stalls {i : Instr} {s s1 : State} {k len : Nat} {o : Op} {f : Long} {w : Warp} (hp : Performs i s k o f len s1 w)
    (hb : bodyOf o f len s1 k w = .wait) (ho : ∀ v, turnClass v o f = .group) (ht : w.turn = true) :
    Becomes i s k (setWarp s1 k { w with stat := .stalled }) := by
  obtain ⟨s0, w0, -, hw, hs, -, hx⟩ := performs_act hp
  have hat : atTurn s0 k w0 o f = setWarp s0 k { w0 with region := regionAt s0 k w0 o f } := by
    have ht0 : w0.turn = true := by rw [hw] at ht; exact ht
    have hkind : turnKind w0 o f = .group := (if_pos ht0).trans (ho w0)
    exact if_neg (by rw [hkind]; nofun)
  have hwait : updWarp (atTurn s0 k w0 o f) k (fun v => { v with stat := .stalled }) = setWarp s1 k { w with stat := .stalled } := by
    rw [hat, (lists_setWarp ..).updWarp, setWarp_setWarp, hs, setWarp_setWarp, hw]
    rfl
  refine ⟨_, hx _ hb, ?_⟩
  simp only [faultRegion, finish, takesTurn, Bool.and_false, Bool.false_eq_true, if_false]
  unfold waitIn
  rw [hwait]
  exact endRun_upTo (lists_setWarp ..).warp

theorem copyWaits_iff (w : Warp) (g : Group) : copyWaits w g = true ↔ w.turn = true ∧ ∃ e ∈ g.bufs, e.2.copy ≠ none := by
  simp [copyWaits, Option.isSome_iff_ne_none]

/-! ## `CPSLICE` (R229, R230) -/

/-- The operands that a slice checks: its command, and in box form its record. -/
def sliceAligns (f : Long) (w : Warp) : List (Int × Nat) := (addrOf w f.a.toNat, 64) :: if f.fn.getLsbD 2 then [(addrOf w f.b.toNat, 8)] else []
def sliceSpans (f : Long) (w : Warp) : List (Int × Nat) :=
  cmdSpans (addrOf w f.a.toNat) .slice ++ if f.fn.getLsbD 2 then [(addrOf w f.b.toNat, 112)] else []

/-- The group memory of a slice's record. -/
def sliceRecord (f : Long) (w : Warp) : List (Int × Int) := if f.fn.getLsbD 2 then inGroup [(addrOf w f.b.toNat, 112)] else []

theorem sliceRecord_eq (f : Long) (w : Warp) : sliceRecord f w = inGroup (if f.fn.getLsbD 2 then [(addrOf w f.b.toNat, 112)] else []) := by
  unfold sliceRecord
  split <;> rfl

/-- The share that a slice adds. -/
def sliceShare (f : Long) (g : Group) (w : Warp) (d : Desc) : Share :=
  if f.fn.getLsbD 2 then boxShare g d (windowOff (addrOf w f.b.toNat)) else rangeShare d (rdS w f.b.toNat)

/-- The collection has every share that its command asks for, or can have none. -/
@[reducible] def collFull (col : Coll) : Prop := col.cmd.nslice = 0 ∨ 48 < col.cmd.nslice ∨ col.cmd.nslice ≤ col.shares.length

/-- The entry takes the collection as it now stands. -/
def slicePut (f : Long) (s : State) (k : Nat) (w : Warp) (col : Coll) : State :=
  if decide (collFull col) then startCopy (copyAcquire s k f w) k w f.d.toNat col .slice else updBuf s k f.d.toNat fun x => { x with coll := some col }

/-- The command that a slice names, and the collection that it opens or joins. -/
def sliceCommand (f : Long) (g : Group) (w : Warp) : CopyCmd := readCmd g .slice (windowOff (addrOf w f.a.toNat))
def sliceOpened (f : Long) (g : Group) (w : Warp) : Coll :=
  { addr := rdS w f.a.toNat, cmd := sliceCommand f g w, shares := [sliceShare f g w (sliceCommand f g w).src] }
def sliceJoined (f : Long) (g : Group) (w : Warp) (col : Coll) : Coll := { col with shares := col.shares ++ [sliceShare f g w col.cmd.src] }

/-- A slice that has passed check 5, its entry's collection `coll`: the collection it gives, whether the entry takes it, and the entry
as it is then. -/
def sliceEnd (f : Long) (s : State) (k : Nat) (w : Warp) (g : Group) (takes : Bool) (next : Coll)
    (command : List (Int × Int)) (opened : State) : Act :=
  if copyWaits w g || readsFilling w g [] (sliceRecord f w ++ command) ||
      readsFilling w g [f.d.toNat] (if takes && decide (collFull next) then stallSpans next.cmd .slice next.shares else []) then .wait
  else .retire (if takes then slicePut f opened k w next else refuseBuf s k f.d.toNat) .next none id

section
variable {f : Long} {s : State} {k : Nat} {w : Warp} {g : Group} (hg : getGroup s k = some g)
  (hfault : copyFault g.gsize (sliceAligns f w) (sliceSpans f w) = none)
include hg hfault

theorem cpsliceBody_joins {col : Coll} (hcol : (getBuf g f.d.toNat).coll = some col) : cpsliceBody f s k w =
    sliceEnd f s k w g (col.addr == rdS w f.a.toNat) (sliceJoined f g w col) [] s := by
  unfold sliceAligns sliceSpans at hfault
  unfold cpsliceBody
  rw [hg]
  dsimp only
  rw [hfault]
  dsimp only
  rw [hcol]
  rfl

theorem cpsliceBody_opens (hcol : (getBuf g f.d.toNat).coll = none) : cpsliceBody f s k w =
    sliceEnd f s k w g (opens (getBuf g f.d.toNat) (sliceCommand f g w).role) (sliceOpened f g w) (inGroup (cmdSpans (addrOf w f.a.toNat) .slice))
      (updBuf s k f.d.toNat fun x => openBuf x (sliceCommand f g w)) := by
  unfold sliceAligns sliceSpans at hfault
  unfold cpsliceBody
  rw [hg]
  dsimp only
  rw [hfault]
  dsimp only
  rw [hcol]
  rfl

end

section
variable {f : Long} {s opened : State} {k : Nat} {w : Warp} {g : Group} {takes : Bool} {next : Coll} {command : List (Int × Int)}

theorem sliceEnd_waits (h : copyWaits w g = true) : sliceEnd f s k w g takes next command opened = .wait :=
  if_pos (by rw [h]; rfl)

theorem sliceEnd_takes (h : copyWaits w g = false) (hread : readsFilling w g [] (sliceRecord f w ++ command) = false) (ht : takes = true)
    (hsource : collFull next → readsFilling w g [f.d.toNat] (stallSpans next.cmd .slice next.shares) = false) :
    sliceEnd f s k w g takes next command opened = .retire (slicePut f opened k w next) .next none id := by
  have hnone : readsFilling w g [f.d.toNat] (if takes && decide (collFull next) then stallSpans next.cmd .slice next.shares else []) = false := by
    split
    next h => exact hsource (by simpa using (Bool.and_eq_true_iff.mp h).2)
    next => simp [readsFilling]
  unfold sliceEnd
  rw [if_neg (by rw [h, hread, hnone]; nofun), if_pos ht]

theorem sliceEnd_refuses (h : copyWaits w g = false) (hread : readsFilling w g [] (sliceRecord f w ++ command) = false) (ht : takes = false) :
    sliceEnd f s k w g takes next command opened = .retire (refuseBuf s k f.d.toNat) .next none id := by
  unfold sliceEnd
  rw [h, hread, ht]
  simp [readsFilling]

end

theorem slicePut_keepsStops (f : Long) (s : State) (k : Nat) (w : Warp) (col : Coll) : KeepsStops s (slicePut f s k w col) := by
  unfold slicePut
  split
  · exact (copyAcquire_memOnly ..).keepsStops.trans (startCopy_keepsStops ..)
  · exact updBuf_keepsStops ..

/-! ## `CPLOOP`, `CPCHAIN` and `CPACC` (R235, R236, R238) -/

/-- The kind of the copy that one instruction starts. -/
def copyKind (o : Op) (f : Long) (w : Warp) : CopyKind :=
  if o = .cploop then .loop else if o = .cpchain then .chain (f.lit.getD 0) ((List.range 7).map fun i => rdS w (f.c.toNat + i))
  else .acc f.imm.toNat

section
variable {f : Long} {s : State} {k : Nat} {w : Warp} {g : Group} {kind : CopyKind} (hg : getGroup s k = some g)
  (hfault : copyFault g.gsize [(addrOf w f.a.toNat, 64)] (cmdSpans (addrOf w f.a.toNat) kind) = none)
include hg hfault

theorem copyOneBody_waits (h : copyWaits w g = true) : copyOneBody kind f s k w = .wait := by
  unfold copyOneBody
  rw [hg]
  dsimp only
  rw [hfault]
  dsimp only
  exact if_pos (by rw [h]; rfl)

theorem copyOneBody_retires (h : copyWaits w g = false)
    (hread : readsFilling w g [] (inGroup (cmdSpans (addrOf w f.a.toNat) kind)) = false) {cmd : CopyCmd} {takes : Bool}
    (hcmd : readCmd g kind (windowOff (addrOf w f.a.toNat)) = cmd)
    (htakes : (if kind = .loop then loopFree g f.d.toNat cmd else opens (getBuf g f.d.toNat) cmd.role) = takes)
    (hsource : takes = true → readsFilling w g [f.d.toNat] (stallSpans cmd kind []) = false) :
    copyOneBody kind f s k w =
      let s := if takes then copyAcquire s k f w else s
      .retire (if kind = .loop then startLoop s k w f.d.toNat cmd
        else if takes then
          startCopy (updBuf s k f.d.toNat fun x => openBuf x cmd) k w f.d.toNat { addr := rdS w f.a.toNat, cmd := cmd, shares := [] } kind
        else refuseBuf s k f.d.toNat) .next none id := by
  unfold copyOneBody
  rw [hg]
  dsimp only
  rw [hfault]
  dsimp only
  rw [hcmd, htakes]
  refine if_neg ?_
  cases takes
  · simp [h, hread]
  · simp [h, hread, hsource rfl]

end

/-- The instructions that start one copy; a `CPACC` takes the store and waits for one that has still to write its rectangle (R263). -/
theorem bodyOf_copyOne {o : Op} {f : Long} {len : Nat} {s : State} {k : Nat} {w : Warp} {g : Group} (hg : getGroup s k = some g)
    (ho : o = .cploop ∨ o = .cpchain ∨ o = .cpacc) : bodyOf o f len s k w =
      let kind := copyKind o f w
      let cmd := readCmd g kind (windowOff (addrOf w f.a.toNat))
      if o = .cpacc ∧ (if o = .cploop then loopFree g f.d.toNat cmd else opens (getBuf g f.d.toNat) cmd.role) = true ∧
        (accCommand cmd f.imm.toNat && accBusy g ((List.range (cmd.src.ext.getD 1 0)).map (accRow0 f.imm.toNat + ·))
          ((List.range (cmd.src.ext.getD 0 0 * (if cmd.src.ty = 9 then 2 else 1))).map (accCol0 f.imm.toNat + ·))) = true then .wait
      else copyOneBody kind f (if o = .cpacc then holdAcc s k else s) k w := by
  obtain rfl | rfl | rfl := ho
  · rfl
  · rfl
  · show cpaccBody f s k w = _
    unfold cpaccBody
    rw [hg]
    exact if_congr (by simp [copyKind, and_assoc]) rfl rfl

/-! ## `BFREL` (R232, R235) -/

/-- What a `BFREL` that refills no stage leaves of its entry, in the entry's state. -/
def released (s : State) (k n : Nat) : Nat → State
  | 0 => s
  | 1 | 3 => refuseBuf s k n
  | _ => updBuf s k n fun x => { x with state := 0, iter := 0, loop := none }

theorem released_keepsStops (s : State) (k n state : Nat) : KeepsStops s (released s k n state) := by
  unfold released
  split
  · exact .refl s
  · exact refuseBuf_keepsStops ..
  · exact refuseBuf_keepsStops ..
  · exact updBuf_keepsStops ..

section
variable {f : Long} {s : State} {k : Nat} {w : Warp} {g : Group} (hg : getGroup s k = some g)
include hg

theorem bfrelBody_waits (h : copyWaits w g = true) : bfrelBody f s k w = .wait := by
  unfold bfrelBody
  rw [hg]
  dsimp only
  split
  · exact if_pos (by rw [h]; rfl)
  · exact if_pos h

theorem bfrelBody_refills (h : copyWaits w g = false) {l : Loop} (hl : refillOf (getBuf g f.a.toNat) = some l)
    (hread : readsFilling w g [f.a.toNat] (if l.cmd.src.group then viewSpans (iterView l.cmd (l.iter + l.cmd.stages)) else []) = false) :
    bfrelBody f s k w = .retire (startIter s k w l.cmd l.first (l.iter + l.cmd.stages)) .next none id := by
  unfold bfrelBody
  rw [hg]
  dsimp only
  rw [hl]
  exact if_neg (by rw [h, hread]; nofun)

theorem bfrelBody_releases (h : copyWaits w g = false) (hl : refillOf (getBuf g f.a.toNat) = none) : bfrelBody f s k w =
    .retire (released s k f.a.toNat (getBuf g f.a.toNat).state) .next none id := by
  unfold bfrelBody
  rw [hg]
  dsimp only
  rw [hl]
  exact if_neg (by rw [h]; nofun)

end

/-! ## O39 -/

/-- Settles O39: each instruction by how its body ends, which leaves every warp and card as it is. -/
theorem copyInstructionsMoveTheirEntries : Obligations.CopyInstructionsMoveTheirEntries := by
  intro i s s1 k len o f w hp g hg ends writing waits a b x acquired
  have hends {t : State} (hb : bodyOf o f len s1 k w = .retire t .next none id) (ht : KeepsStops s1 t) : ends t := retires_keepsStops hp hb ht
  have hacquired (t : State) : copyAcquire t k f w = acquired t := copyAcquire_eq ..
  have hidle (h : ¬writing) : copyWaits w g = false := by rw [← Bool.not_eq_true, copyWaits_iff]; exact h
  have hwaits (ho : ∀ v, turnClass v o f = .group) (h : writing) (hb : bodyOf o f len s1 k w = .wait) : waits := groupTurn_stalls hp hb ho h.1
  refine ⟨?slice, ?one, ?wait, ?release⟩
  case slice =>
    rintro rfl c isBox hfault
    have hbody {act : Act} (h : cpsliceBody f s1 k w = act) : bodyOf .cpslice f len s1 k w = act := h
    constructor
    · intro hw
      have hcopy := (copyWaits_iff w g).mpr hw
      refine hwaits (fun _ => rfl) hw (hbody ?_)
      cases hcol : x.coll with
      | some col => exact (cpsliceBody_joins hg hfault hcol).trans (sliceEnd_waits hcopy)
      | none => exact (cpsliceBody_opens hg hfault hcol).trans (sliceEnd_waits hcopy)
    · intro hw share put cmd record readable
      have hcopy := hidle hw
      have hrecord : record = sliceRecord f w := (sliceRecord_eq f w).symm
      have hput (t : State) (col : Coll) : slicePut f t k w col = put t col := by
        unfold slicePut
        rw [hacquired]
        exact if_congr decide_eq_true_iff rfl rfl
      constructor
      · intro col hcol hread next
        have hb := hbody (cpsliceBody_joins hg hfault hcol)
        rw [hrecord, ← List.append_nil (sliceRecord f w)] at hread
        constructor
        · intro haddr hsource
          rw [← hput]
          exact hends (hb.trans (sliceEnd_takes hcopy hread (beq_iff_eq.mpr haddr) hsource)) (slicePut_keepsStops ..)
        · intro haddr
          exact hends (hb.trans (sliceEnd_refuses hcopy hread (beq_eq_false_iff_ne.mpr haddr))) (refuseBuf_keepsStops ..)
      · intro hcol hread next
        have hb := hbody (cpsliceBody_opens hg hfault hcol)
        rw [hrecord] at hread
        constructor
        · intro hopens hsource
          rw [← hput]
          exact hends (hb.trans (sliceEnd_takes hcopy hread hopens hsource)) ((updBuf_keepsStops ..).trans (slicePut_keepsStops ..))
        · intro hopens
          exact hends (hb.trans (sliceEnd_refuses hcopy hread hopens)) (refuseBuf_keepsStops ..)
  case one =>
    intro ho kind cmd n takes hfault
    simp only [List.mem_cons, List.not_mem_nil, or_false] at ho
    let held : State := if o = .cpacc then holdAcc s1 k else s1
    let busy : Bool := accCommand cmd f.imm.toNat && accBusy g ((List.range (cmd.src.ext.getD 1 0)).map (accRow0 f.imm.toNat + ·))
      ((List.range n).map (accCol0 f.imm.toNat + ·))
    have hbody : bodyOf o f len s1 k w = if o = .cpacc ∧ takes = true ∧ busy = true then .wait else copyOneBody kind f held k w :=
      bodyOf_copyOne hg ho
    have hheld : MemOnly s1 held := by
      dsimp only [held]
      split
      · exact holdAcc_memOnly ..
      · rfl
    have hgroup : getGroup held k = some g := (hheld.getGroup k).trans hg
    have hclass (v : Warp) : turnClass v o f = .group := by obtain rfl | rfl | rfl := ho <;> rfl
    have hloop : kind = .loop ↔ o = .cploop := by obtain rfl | rfl | rfl := ho <;> simp [kind]
    constructor
    · intro hw
      have hone : copyOneBody kind f held k w = .wait := copyOneBody_waits hgroup hfault ((copyWaits_iff w g).mpr hw)
      exact hwaits hclass hw (hbody.trans (by rw [hone, ite_self]))
    · intro hw hread hsource hacc s2 s3
      have hidles : ¬(o = .cpacc ∧ takes = true ∧ busy = true) := fun h => Bool.false_ne_true ((hacc h.1 h.2.1).symm.trans h.2.2)
      have hb := (hbody.trans (if_neg hidles)).trans 
        (copyOneBody_retires hgroup hfault (hidle hw) hread (cmd := cmd) (takes := takes) rfl (if_congr hloop rfl rfl) hsource)
      have hs3 : (if takes then copyAcquire held k f w else held) = s3 := by
        rw [hacquired]
      have hkeeps : KeepsStops s1 s3 := by
        rw [← hs3]
        split
        · exact hheld.keepsStops.trans (copyAcquire_memOnly ..).keepsStops
        · exact hheld.keepsStops
      dsimp only at hb
      rw [hs3] at hb
      refine ⟨fun h => ?_, fun h ht => ?_, fun h ht => ?_⟩
      · rw [if_pos (hloop.mpr h)] at hb
        exact hends hb (hkeeps.trans (startLoop_keepsStops ..))
      · rw [if_neg (mt hloop.mp h), if_pos ht] at hb
        exact hends hb ((hkeeps.trans (updBuf_keepsStops ..)).trans (startCopy_keepsStops ..))
      · rw [if_neg (mt hloop.mp h), if_neg (show ¬takes = true by rw [ht]; nofun)] at hb
        exact hends hb (hkeeps.trans (refuseBuf_keepsStops ..))
  case wait =>
    rintro rfl y want
    have hb : bodyOf .bfwait f len s1 k w = if y.state = want ∨ y.state = 4 then .retire (setWarp s1 k (wrS w f.d.toNat (bufWord y))) .next none id
        else if !w.turn || (y.copy.isSome && y.state == (if f.fn = 0 then 3 else 1)) then .wait
        else .done (endRun (moveClock s1 k (nextMark w.quantum w.clock)) k) := by
      show bfwaitBody f s1 k w = _
      unfold bfwaitBody
      rw [hg]
      dsimp only
      rw [(performs_lists hp).updWarp]
    refine ⟨fun hst => regOp_law hp (hb.trans (if_pos hst)) (wrS_effect ..), fun hne h4 ht hcopy => ?_⟩
    have hpasses : (!w.turn || (y.copy.isSome && y.state == (if f.fn = 0 then 3 else 1))) = false := by
      obtain hnone | hother := hcopy
      · simp [ht, hnone]
      · rw [beq_eq_false_iff_ne.mpr hother, Bool.and_false, ht]
        rfl
    rw [if_neg (not_or.mpr ⟨hne, h4⟩), hpasses, if_neg Bool.false_ne_true] at hb
    have hgoes : Goes w := by unfold Goes; rw [performs_ready hp]; exact ⟨nofun, nofun⟩
    obtain ⟨v, hv, -⟩ := moveClock_goes (performs_warp hp) hgoes (nextMark w.quantum w.clock) fun _ => performs_runs hp
    exact becomes_law hp hb (endRun_upTo hv)
  case release =>
    rintro rfl n y freed
    have hwaiting (h : writing) : waits := hwaits (fun _ => rfl) h (bfrelBody_waits hg ((copyWaits_iff w g).mpr h))
    refine ⟨hwaiting, fun hw => ?_⟩
    have hcopy := hidle hw
    have hreleases {st : Nat} (hst : y.state = st) (hl : refillOf y = none) : ends (released s1 k n st) :=
      hends ((bfrelBody_releases hg hcopy hl).trans (by rw [show (getBuf g f.a.toNat).state = st from hst])) (released_keepsStops ..)
    have hother (h : y.state ≠ 2) : refillOf y = none := by
      unfold refillOf
      cases y.loop <;> simp [h]
    refine ⟨fun h0 => hreleases h0 (hother (by simp [h0])), ?refused, ?refill, ?last, ?free⟩
    case refused =>
      rintro (h1 | h3)
      · exact hreleases h1 (hother (by simp [h1]))
      · exact hreleases h3 (hother (by simp [h3]))
    case refill =>
      intro h2 l hl hleft hread
      have hrefill : refillOf y = some l := by
        unfold refillOf
        rw [hl]
        exact if_pos ⟨h2, hleft⟩
      exact hends (bfrelBody_refills hg hcopy hrefill hread) (startIter_keepsStops ..)
    case last =>
      intro h2 l hl hlast
      refine hreleases h2 ?_
      unfold refillOf
      rw [hl]
      exact if_neg fun h => Nat.not_lt.mpr hlast h.2
    case free =>
      rintro (h4 | ⟨h2, hl⟩)
      · exact hreleases h4 (hother (by simp [h4]))
      · exact hreleases h2 (by unfold refillOf; rw [hl]; rfl)

end Sys2Proof.Machine
end

section
/-! PROOF. What serving the earlier requests of a core at their homes keeps of a warp that is not parked: its scalar registers (R173, R198,
R318, R336, R346). -/

namespace Sys2Proof.Machine

/-! ## What the service of a request does to warps -/

/-- A relation of states that holds of whatever the service of a request does to warps: it loses them, stops them, reinstates the parked,
ends one for a refusal, and notes that a load has been served. -/
structure ServeClosed (K : State → State → Prop) : Prop where
  trans : ∀ {s t u}, K s t → K t u → K s u
  loses : ∀ {s t}, (∀ j, getWarp t j = getWarp s j ∨ getWarp t j = none) → K s t
  stops : ∀ s k m t, K s (stopWarp s k m t)
  wakes : ∀ s k r, K s (wake s k r)
  dies : ∀ s k cause kind c, K s (waitIn s k (.dying cause kind c))
  serves : ∀ s k (p : Warp → List Pend) (u : Warp → List Unconf), K s (updWarp s k fun w => { w with pend := p w, unconf := u w })

section
variable {K : State → State → Prop} (hK : ServeClosed K)
include hK

theorem ServeClosed.refl (s : State) : K s s := hK.loses fun _ => .inl rfl

theorem ServeClosed.sameWarps {s t : State} (h : SameWarps s t) : K s t := hK.loses fun j => .inl (congrArg (kfind · j) h.1)

theorem ServeClosed.foldl {α : Type} {g : State → α → State} (hg : ∀ s x, K s (g s x)) (l : List α) (s : State) : K s (l.foldl g s) := by
  induction l generalizing s with
  | nil => exact hK.refl s
  | cons x l ih => exact hK.trans (hg s x) (ih _)

theorem ServeClosed.wakeFwait (s : State) (p : Nat) (h : Dword) (r : Stamp) : K s (wakeFwait s p h r) :=
  hK.foldl (g := fun s (e : Nat × Warp) => wake (dropLines s e.1 e.2) e.1 r)
    (fun _ _ => hK.trans (hK.sameWarps (dropLines_memOnly ..).sameWarps) (hK.wakes ..)) _ s

theorem ServeClosed.stopBack (s : State) (t : Stamp) (e : Nat × Warp) : K s (stopBack s t e) := by
  have withdraws (d i c m : Nat) (u v : Stamp) : K s (stopWarp (withdraw s d i c u) e.1 m v) :=
    hK.trans (hK.sameWarps (withdraw_sameWarps ..)) (hK.stops ..)
  have ifSaved (m : Nat) (b : Bool) : K s (if b then stopWarp s e.1 m t else s) := by
    cases b
    · exact hK.refl s
    · exact hK.stops ..
  unfold Machine.stopBack
  dsimp only
  split
  · exact hK.refl s
  · exact hK.refl s
  · exact hK.sameWarps ((withdraw_sameWarps ..).trans (updCard_sameWarps ..))
  · exact withdraws ..
  · exact hK.stops ..
  · exact withdraws ..
  · split
    · exact withdraws ..
    · exact ifSaved ..
  · exact withdraws ..
  · exact ifSaved ..

theorem ServeClosed.stopBehind (s : State) (ck : Nat) (t : Stamp) (parked : Bool) : K s (stopBehind s ck t parked) := by
  have hcopies : K s (dropCopies s ck) := hK.sameWarps ⟨rfl, rfl⟩
  unfold Machine.stopBehind
  dsimp only
  split
  · exact hcopies
  · exact hK.trans hcopies (hK.trans (hK.foldl (fun _ _ => hK.sameWarps (stopGone_sameWarps ..)) _ _) (hK.foldl (fun _ _ => hK.stopBack ..) _ _))

theorem ServeClosed.reclaim (s : State) (key : Nat) (x : Slot) (h : Dword) (t : Stamp) : K s (reclaim s key x h t).1 := by
  have hput := putSlot_sameWarps s key { x with st := .reclaimed, count := 0 }
  unfold Machine.reclaim
  dsimp only
  split
  · split
    · split
      · exact hK.sameWarps hput
      · refine hK.trans (hK.sameWarps (SameWarps.trans ?task ((updCard_sameWarps ..).trans (tktCardStop_sameWarps ..))))
          (hK.trans (hK.stopBehind ..) (hK.loses (sweepCard_loses ..).1))
        case task =>
          split
          · exact hput.trans (taskEnded_sameWarps ..)
          · exact hput
    · exact hK.sameWarps hput
  · exact hK.sameWarps (hput.trans ((removeCreated_sameWarps ..).trans ((putSlot_sameWarps ..).trans (tryFree_sameWarps ..))))

theorem ServeClosed.runJobs (n p : Nat) (t : Stamp) (js : List Job) (s : State) : K s (runJobs n p t js s) := by
  induction n generalizing js s with
  | zero => unfold Machine.runJobs; exact hK.refl s
  | succ n ih =>
    match js with
    | [] => unfold Machine.runJobs; exact hK.refl s
    | .drop h :: js =>
      have hreclaim (key : Nat) (x y z : Slot) : K s (Machine.reclaim (Machine.wakeFwait (putSlot (putSlot s key x) key y) p h t) key z h t).1 :=
        hK.trans (hK.sameWarps ((putSlot_sameWarps ..).trans (putSlot_sameWarps ..))) (hK.trans (hK.wakeFwait ..) (hK.reclaim ..))
      unfold Machine.runJobs
      split
      · exact ih _ _
      · dsimp only
        split
        · exact hK.trans (hK.sameWarps (putSlot_sameWarps ..)) (ih _ _)
        · split
          · exact hK.trans (hreclaim ..) (ih _ _)
          · exact hK.trans (hreclaim ..) (ih _ _)
          · exact hK.trans (hK.sameWarps ((putSlot_sameWarps ..).trans ((putSlot_sameWarps ..).trans (tryFree_sameWarps ..)))) (ih _ _)
    | .brk h cause dead :: js =>
      have hbreak (key : Nat) (x : Slot) : K s (tryFree (Machine.wakeFwait (putSlot s key x) p h t) key t) :=
        hK.trans (hK.sameWarps (putSlot_sameWarps ..)) (hK.trans (hK.wakeFwait ..) (hK.sameWarps (tryFree_sameWarps ..)))
      unfold Machine.runJobs
      split
      · exact ih _ _
      · split
        · exact hK.trans (hbreak ..) (ih _ _)
        · exact hK.trans (hbreak ..) (ih _ _)
        · exact ih _ _

theorem ServeClosed.finishStop (s : State) (ck : Nat) : K s (finishStop s ck) := by
  unfold Machine.finishStop
  split
  · exact hK.refl s
  · split
    · exact hK.refl s
    · exact hK.trans (hK.sameWarps (SameWarps.trans (updCard_sameWarps s ck _) (tktCardStop_sameWarps ..)))
        (hK.trans (hK.runJobs ..) (hK.trans (hK.sameWarps (foldHash_memOnly ..).sameWarps)
          (hK.trans (hK.stopBehind ..) (hK.loses (sweepCard_loses ..).1))))

theorem ServeClosed.stopCard (s : State) (ck : Nat) (t : Stamp) (cause kind status : Nat) : K s (stopCard s ck t cause kind status) := by
  unfold Machine.stopCard
  split
  · exact hK.trans (hK.sameWarps (updCard_sameWarps ..)) (hK.finishStop ..)
  · exact hK.refl s

theorem ServeClosed.refuseAll (s : State) (k : Nat) (xs : List Denied) (load : Bool) (clk : Nat) : K s (refuseAll s k xs load clk) := by
  have hnotes (l : List Denied) : K s (l.foldl (fun s x => noteRefusal s k load x) s) :=
    hK.foldl (fun s x => hK.loses fun j => .inl (getWarp_noteRefusal s k load x j)) l s
  unfold Machine.refuseAll
  split
  · dsimp only
    split
    · exact hK.trans (hnotes _) (hK.dies ..)
    · exact hK.trans (hnotes _) (hK.stopCard ..)
  · exact hK.refl s

theorem ServeClosed.servePend (s : State) (k : Nat) (hit : Remote → Bool) : K s (servePend s k hit) := by
  unfold Machine.servePend
  split
  · exact hK.refl s
  · dsimp only
    split
    · exact hK.refl s
    · split
      · exact hK.refl s
      · refine hK.trans (hK.trans (hK.sameWarps ?sent) (hK.serves ..)) (hK.refuseAll ..)
        case sent => exact ((sliceTouches_memOnly ..).trans (sendFlits_memOnly ..)).sameWarps

theorem ServeClosed.serveCore (s : State) (k : Nat) (keys : List Nat) : K s (serveCore s k keys) := by
  have hlines (core : Option (Nat × Nat)) (n : Nat) (s : State) : K s (serveLines s core keys n) := by
    induction n generalizing s with
    | zero => exact hK.refl s
    | succ n ih =>
      unfold serveLines
      split
      · exact hK.refl s
      · exact hK.trans (hK.servePend ..) (ih _)
  exact hlines ..

end

/-! ## The scalar registers -/

/-- A warp that is not parked is none in `v` either, and `v` has its scalar registers. -/
def SameScalars (w v : Warp) : Prop := isParked w = false → isParked v = false ∧ v.s = w.s ∧ v.shadow = w.shadow

theorem SameScalars.refl (w : Warp) : SameScalars w w := fun h => ⟨h, rfl, rfl⟩

theorem SameScalars.trans {u v w : Warp} (h : SameScalars u v) (g : SameScalars v w) : SameScalars u w := fun hu => by
  obtain ⟨hv, hs, hsh⟩ := h hu
  obtain ⟨hw, gs, gsh⟩ := g hv
  exact ⟨hw, gs.trans hs, gsh.trans hsh⟩

/-- Every warp of `t` is one of `s`, whose scalar registers it keeps. -/
def KeepsScalars (s t : State) : Prop := ∀ k v, getWarp t k = some v → ∃ w, getWarp s k = some w ∧ SameScalars w v

theorem KeepsScalars.trans {s t u : State} (h : KeepsScalars s t) (g : KeepsScalars t u) : KeepsScalars s u := by
  intro k v hv
  obtain ⟨x, hx, hxv⟩ := g k v hv
  obtain ⟨w, hw, hwx⟩ := h k x hx
  exact ⟨w, hw, hwx.trans hxv⟩

theorem keepsScalars_of_loses {s t : State} (h : ∀ j, getWarp t j = getWarp s j ∨ getWarp t j = none) : KeepsScalars s t := by
  intro k v hv
  obtain hk | hk := h k
  · exact ⟨v, hk ▸ hv, .refl v⟩
  · rw [hk] at hv; cases hv

theorem updWarp_keepsScalars (s : State) (k : Nat) {f : Warp → Warp} (hf : ∀ w, SameScalars w (f w)) : KeepsScalars s (updWarp s k f) := by
  intro j v hv
  rw [getWarp_updWarp] at hv
  split at hv
  · obtain ⟨w, hw, rfl⟩ := Option.map_eq_some_iff.mp hv
    exact ⟨w, hw, hf w⟩
  · exact ⟨v, hv, .refl v⟩

/-- Only a parked warp is reinstated, whose registers are not those of an issuing one. -/
theorem wake_keepsScalars (s : State) (k : Nat) (r : Stamp) : KeepsScalars s (wake s k r) := by
  obtain h | ⟨w, x, hw, hpark, h⟩ := wake_cases s k r
  · rw [h]
    exact keepsScalars_of_loses fun _ => .inl rfl
  · rw [h]
    intro j v hv
    rw [getWarp_setWarp] at hv
    split at hv
    next hj => exact ⟨w, hj ▸ hw, fun hfree => Bool.noConfusion (hpark.symm.trans hfree)⟩
    next => exact ⟨v, hv, .refl v⟩

theorem stopWarp_keepsScalars (s : State) (k m : Nat) (t : Stamp) : KeepsScalars s (stopWarp s k m t) := by
  unfold stopWarp
  refine KeepsScalars.trans (KeepsScalars.trans (keepsScalars_of_loses fun _ => .inl rfl) (updWarp_keepsScalars (updCard s k _) k fun w => ?_))
    (keepsScalars_of_loses fun _ => .inl rfl)
  exact fun _ => ⟨rfl, rfl, rfl⟩

theorem waitIn_keepsScalars (s : State) (k cause kind c : Nat) : KeepsScalars s (waitIn s k (.dying cause kind c)) := by
  have hend (t : State) : KeepsScalars t (endRun t k) := by
    refine KeepsScalars.trans (updWarp_keepsScalars t k fun w => ?_) (keepsScalars_of_loses fun _ => .inl rfl)
    dsimp only
    split <;> exact .refl w
  unfold waitIn
  refine KeepsScalars.trans (updWarp_keepsScalars s k fun w => ?_) (hend _)
  exact fun _ => ⟨rfl, rfl, rfl⟩

theorem serveClosed_keepsScalars : ServeClosed KeepsScalars where
  trans := KeepsScalars.trans
  loses := keepsScalars_of_loses
  stops := stopWarp_keepsScalars
  wakes := wake_keepsScalars
  dies := waitIn_keepsScalars
  serves s k _ _ := updWarp_keepsScalars s k fun _ h => ⟨h, rfl, rfl⟩

theorem rdS_congr {v w : Warp} (hs : v.s = w.s) (hsh : v.shadow = w.shadow) (hsys : v.sys = w.sys) (r : Nat) : rdS v r = rdS w r := by
  unfold rdS
  rw [hs, hsh, hsys]

theorem scalars_turnPub {s t : State} {k : Nat} {w v : Warp} (hl : Lists s k w) (ht : w.turn = true) (hs : MemOnly s t)
    (hv : getWarp (turnPub t k) k = some v) : v.s = w.s ∧ v.shadow = w.shadow := by
  have hlt := hl.sameWarps hs.sameWarps
  rw [turnPub_turn hlt.warp ht, pubHand_lists hlt, (lists_setWarp ..).warp] at hv
  cases hv
  exact ⟨rfl, rfl⟩

theorem scalars_served {s t : State} {k : Nat} {keys : List Nat} {w v : Warp} (hw : getWarp s k = some w) (hp : isParked w = false)
    (ht : w.turn = false) (hm : MemOnly (serveCore s k keys) t) (hv : getWarp (turnPub t k) k = some v) : v.s = w.s ∧ v.shadow = w.shadow := by
  cases hx : getWarp t k with
  | none => simp [turnPub, hx] at hv
  | some x =>
    rw [hm.getWarp] at hx
    obtain ⟨y, hy, hturn, -⟩ := (serveCore_keepsCourse s k keys).warp k x hx
    cases hw.symm.trans hy
    obtain ⟨z, hz, hscalars⟩ := serveClosed_keepsScalars.serveCore s k keys k x hx
    cases hw.symm.trans hz
    rw [← hm.getWarp] at hx
    rw [turnPub_free hx (hturn.trans ht), hx] at hv
    cases hv
    exact (hscalars hp).2

/-- At its home a synchronising operation reads the scalar registers with which it was issued. -/
theorem reachesHome_rdS {i : Instr} {s s1 s2 : State} {k len : Nat} {o : Op} {f : Long} {w v : Warp} {use : Use} {window load : Bool}
    {h : Home} {xs : List Acc} (hp : Performs i s k o f len s1 w) (hr : reachesHome s1 k w o f use window load = some (s2, v, h, xs)) (r : Nat) :
    rdS v r = rdS w r := by
  have hsys := (syncBody_reachesHome hp hr).1.sys
  have hready : isParked w = false := by unfold isParked; rw [performs_ready hp]
  obtain ⟨hs, hsh⟩ : v.s = w.s ∧ v.shadow = w.shadow := by
    unfold reachesHome at hr
    rcases hck : checkAll s1 k w o f (some use) window with ⟨ys, _ | e⟩
    case some => rw [hck] at hr; cases hr
    rw [hck] at hr
    dsimp only at hr
    by_cases hwin : (window && inWindow w o f) = true
    · rw [if_pos hwin] at hr
      cases hg : getGroup s1 k with
      | none => rw [hg] at hr; cases hr
      | some g =>
        rw [hg] at hr
        dsimp only at hr
        split at hr
        · cases hr
        · cases hr
          exact ⟨rfl, rfl⟩
    · rw [if_neg hwin] at hr
      generalize hu : (if w.turn then s1 else serveCore s1 k (ys.map accKey)) = u at hr
      split at hr
      · cases hr
      · obtain ⟨v', hv', he⟩ := Option.map_eq_some_iff.mp hr
        cases he
        rw [syncTouch_eq] at hv'
        by_cases ht : w.turn = true
        · rw [if_pos ht] at hu
          cases hu
          exact scalars_turnPub (performs_lists hp) ht (syncSent_memOnly ..) hv'
        · rw [if_neg ht] at hu
          cases hu
          exact scalars_served (performs_warp hp) hready (by simpa using ht) (syncSent_memOnly ..) hv'
  exact rdS_congr hs hsh hsys r

end Sys2Proof.Machine
end

section
/-! PROOF. Tickets are entered, held, refused and passed on, and passing moves the clock (R221 to R224). -/

namespace Sys2Proof.Machine

/-! ## What a ticket word's acts leave of warps and cards -/

theorem updCard_keepsStops (s : State) (k : Nat) {g : Card → Card} (hg : ∀ c, (g c).stop = c.stop) : KeepsStops s (updCard s k g) := by
  refine ⟨updCard_sameWarps .., fun j => ?_⟩
  unfold updCard getCard
  dsimp only
  rw [kfind_kmodify]
  split
  · rw [Option.map_map]
    exact congrArg (Option.map · _) (funext hg)
  · rfl

theorem actWrite_keepsStops (s : State) (p : Nat) (turn : Bool) (t : Stamp) (ord : Nat) (k : Option Nat) (key : Nat) (b : List Byte) :
    KeepsStops s (actWrite s p turn t ord k key b) := by
  unfold actWrite
  split
  · exact pubBytes_keepsStops ..
  · split
    · exact (freeWrite_memOnly ..).keepsStops
    · have hmem : MemOnly s { s with mem := wrBytes s.mem key b } := rfl
      exact (hmem.trans (sliceTouches_memOnly ..)).keepsStops

theorem tktAdvance_keepsStops (p : Nat) (turn : Bool) (t : Stamp) (ord : Nat) (k : Option Nat) (key n : Nat) (s : State) :
    KeepsStops s (tktAdvance s p turn t ord k key n) := by
  induction n generalizing s with
  | zero => exact .refl s
  | succ n ih =>
    unfold tktAdvance
    dsimp only
    split
    · exact (actWrite_keepsStops ..).trans (ih _)
    · exact .refl s

theorem tktSettle_keepsStops (s : State) (p : Nat) (turn : Bool) (t : Stamp) (ord : Nat) (k : Option Nat) (key : Nat) :
    KeepsStops s (tktSettle s p turn t ord k key) := tktAdvance_keepsStops ..

theorem tktEnter_keepsStops (s : State) (k : Nat) (w : Warp) (key base : Nat) : KeepsStops s (tktEnter s k w key base) := by
  unfold tktEnter
  dsimp only
  split
  · exact .refl s
  · split
    · exact tktSettle_keepsStops ..
    · split
      · split
        · exact tktSettle_keepsStops ..
        · exact .refl s
      · refine .trans (updCard_keepsStops s k fun c => ?_) (tktSettle_keepsStops ..)
        rfl

/-! ## The table (R221, R222) -/

/-- The word settles within the act of warp `v`. -/
def tktSettled (s : State) (k : Nat) (v : Warp) (key : Nat) : State :=
  tktSettle s (partOf k) v.turn (stampOf k v) 1 (if v.turn then none else some k) key

theorem tktEnter_eq {s : State} {k : Nat} {v : Warp} {c : Card} (hc : getCard s k = some c) (key base : Nat) : tktEnter s k v key base =
    if c.tickets.any (tktHits s key base) = true then tktSettled s k v key
    else if 4 ≤ c.tickets.length then (if c.tickets.any (tktIs s key) = true then tktSettled s k v key else s)
    else tktSettled (updCard s k fun c => { c with
      tickets := c.tickets ++ [{ key := key, base := base, holder := none, had := [] }]
      touched := if v.turn then (c.touched ++ laterPubs s (domOf s (partOf k)) (stampOf k v) key).eraseDups else c.touched }) k v key := by
  unfold tktEnter
  rw [hc]
  dsimp only
  by_cases hhit : c.tickets.any (tktHits s key base) = true
  · rw [if_pos hhit, if_pos hhit]
    rfl
  · rw [if_neg hhit, if_neg hhit]
    refine if_congr ?_ rfl rfl
    simp [tktFull, hhit]

theorem tktFull_iff (s : State) (c : Card) (key base : Nat) :
    tktFull s c key base = true ↔ c.tickets.any (tktHits s key base) = false ∧ 4 ≤ c.tickets.length := by
  unfold tktFull
  simp only [Bool.and_eq_true, Bool.not_eq_true', decide_eq_true_iff]

theorem tktFar_iff (want i : Nat) : tktFar want i = true ↔ 2 ^ 31 ≤ (want + 2 ^ 32 - i) % 2 ^ 32 := by
  unfold tktFar
  dsimp only
  rw [Bool.and_eq_true, Nat.ble_eq, Bool.not_eq_true']
  constructor
  · exact fun h => h.1
  · intro h
    refine ⟨h, ?_⟩
    rw [← Bool.not_eq_true, Nat.beq_eq]
    rintro rfl
    omega

/-! ## `TKT.wait` and `TKT.done` at the word's home (R222) -/

/-- A ticket instruction's result is outstanding. -/
def ticketResult (o : Op) (f : Long) (xs : List Acc) (s : State) (k x : Nat) (w : Warp) : Warp :=
  addPend w (pendOf o f [.s f.d.toNat (BitVec.ofNat 64 x)] 0 0 (farReply s k w xs))

theorem ticketResult_course (o : Op) (f : Long) (xs : List Acc) (s : State) (k x : Nat) (w : Warp) : SameCourse w (ticketResult o f xs s k x w) :=
  .of_fields ⟨rfl, rfl, rfl⟩

/-- The warp's group takes the ticket of a word. -/
def takeTicket (g : Nat) (tk : Ticket) : Ticket := { tk with holder := some g, had := if tk.had.contains g then tk.had else tk.had ++ [g] }

/-- What a warp reads of a word once it has entered it. -/
def tktRead (s : State) (k : Nat) (v : Warp) (key base : Nat) : Nat :=
  rdNat (actMem (tktEnter s k v key base) (partOf k) v.turn (stampOf k v) 1) key 8

section
variable {f : Long} {s : State} {k : Nat} {v : Warp} {h : Home} {x : Acc} {c : Card} (hc : getCard s k = some c) {base want : Nat}
  (hbase : tktBase v f = base) (hwant : tktWant v f k = want)
include hc hbase hwant

theorem tktWaitEff_eq : tktWaitEff f s k v h [x] =
    let key := accKey x
    let s3 := tktEnter s k v key base
    let word := tktRead s k v key base
    if tktFull s c key base || tktFar want (word % 2 ^ 32) then
      .retire (updWarp s3 k (ticketResult .tktWait f [x] s3 k (tktRefused (word % 2 ^ 32)))) .next none id
    else if word % 2 ^ 32 = want then
      let s4 := updCard s3 k fun c => { c with
        tickets := c.tickets.map fun tk => if tktHits s key base tk then takeTicket (groupNo k) tk else tk }
      .retire (freeAcquire (updWarp s4 k (ticketResult .tktWait f [x] s4 k word)) k f true (if v.turn then .turn else .free)) .next
        (jumpClock v true (if v.turn then .turn else .free)) id
    else if v.turn then .done (endRun (moveClock (updWarp s3 k fun w => { w with passed := true }) k (nextMark v.quantum v.clock)) k)
    else .wait := by
  unfold tktWaitEff
  rw [hc, hbase, hwant]
  rfl

end

/-- A ticket that has come retires with the acquire of its warp's mode (R196, R222). -/
theorem AtHome.takesTicket {i : Instr} {s s1 t : State} {k len value : Nat} {f : Long} {w v : Warp} {xs : List Acc}
    (a : AtHome w t k v (if v.turn then .turn else .free)) (hp : Performs i s k .tktWait f len s1 w)
    (hb : bodyOf .tktWait f len s1 k w =
      .retire (freeAcquire (updWarp t k (ticketResult .tktWait f xs t k value)) k f true (if v.turn then .turn else .free)) .next
        (jumpClock v true (if v.turn then .turn else .free)) id) :
    RetiresAt i s k len (if v.turn = false ∧ 3 ≤ f.mod.toNat then l1Clear t k else t) (ticketResult .tktWait f xs t k value v) .next
      (if v.turn then ceilMark v.quantum (v.clock + 1) else v.clock + 1) := by
  rw [freeAcquire_updWarp t k f true _ (g := ticketResult .tktWait f xs t k value) fun _ => rfl] at hb
  have hret := (a.keepsStops (freeAcquire_keepsStops t k f true _)).retires hp rfl rfl hb (ticketResult_course ..)
  rw [a.freeAcquire_eq, jumpClock_getD] at hret
  simp only [true_and] at hret
  cases ht : v.turn <;> rw [ht] at hret <;> exact hret

theorem tktDoneEff_eq {f : Long} {s : State} {k : Nat} {v : Warp} {h : Home} {x : Acc} {c : Card} (hc : getCard s k = some c) :
    tktDoneEff f s k v h [x] =
    let key := accKey x
    let g := groupNo k
    if c.tickets.any (fun tk => tktIs s key tk && tk.holder == some g) = true then
      let written := actWrite s (partOf k) v.turn (stampOf k v) 1 (if v.turn then none else some k) key
        (leBytes 8 (tktWord (rdNat (actMem s (partOf k) v.turn (stampOf k v) 1) key 8 % 2 ^ 32 + 1) 0))
      let s3 := tktSettled (updCard written k fun c => { c with tickets := c.tickets.map fun tk => if tktIs s key tk then freeHolder tk g else tk })
        k v key
      .retire (updWarp s3 k (ticketResult .tktDone f [x] s3 k 0)) .next none id
    else .retire (updWarp s k (ticketResult .tktDone f [x] s k (tktRefused 0))) .next none id := by
  unfold tktDoneEff
  rw [hc]
  rfl

theorem tktStall_some {f : Long} {s : State} {k : Nat} {w : Warp} {x : Acc} {xs : List Acc} {c : Card} (ht : w.turn = false)
    (hck : checkAll s k w .tktWait f (some .store) false = (x :: xs, none)) (hc : getCard s k = some c) {base want : Nat}
    (hbase : tktBase w f = base) (hwant : tktWant w f k = want)
    (hpass : (tktFull s c (accKey x) base || tktFar want (tktRead s k w (accKey x) base % 2 ^ 32) ||
      tktRead s k w (accKey x) base % 2 ^ 32 == want ||
      (homeRefuses (tktEnter s k w (accKey x) base) (chipOf (partOf k)) w.sec (accKey x)).isSome) = false) :
    tktStall f s k w = some (tktEnter s k w (accKey x) base) := by
  unfold tktRead actMem at hpass
  rw [ht, if_neg Bool.false_ne_true] at hpass
  unfold tktStall
  rw [if_neg (by rw [ht]; nofun), hck, hc, hbase, hwant]
  exact if_neg (by rw [← Bool.not_eq_true] at hpass; exact hpass)

/-! ## O37 -/

/-- Settles O37: ticket by ticket with what its act leaves of the warp and its card, and `PASS` by the clock. -/
theorem ticketsAndPassing : Obligations.TicketsAndPassing := by
  intro i s s1 k len o f w hp p g base want names hits full settled entered wordOf far
  refine ⟨?word, ?stall, ?next, ?settle, ?free, ?pass, ?passTo⟩
  case word =>
    intro s2 v h x c hr hc key outstanding
    obtain ⟨hat, -, hbody⟩ := syncBody_reachesHome hp hr
    have hbase : tktBase v f = base := by
      unfold tktBase
      rw [rdSB_eq_scalarB, scalarB, reachesHome_rdS hp hr]
      rfl
    have hwant : tktWant v f k = want := by
      unfold tktWant
      rw [hbase]
    constructor
    · rintro rfl hstall s3 word index
      have hstall : tktStall f s1 k w = none := hstall.elim (fun ht => if_pos (hat.turn ▸ ht)) id
      have hs3 : tktEnter s2 k v key base = s3 := tktEnter_eq hc ..
      have hword : tktRead s2 k v key base = word := by unfold tktRead; rw [hs3]
      have hkeeps : KeepsStops s2 s3 := hs3 ▸ tktEnter_keepsStops ..
      have hb : bodyOf .tktWait f len s1 k w = tktWaitEff f s2 k v h [x] := by
        show tktWaitBody f s1 k w = _
        unfold tktWaitBody
        rw [hstall]
        exact hbody _
      rw [tktWaitEff_eq hc hbase hwant] at hb
      dsimp only at hb
      rw [hword, hs3] at hb
      have hpasses (hfull : ¬full s2 c key) (hfar : ¬far index) : (tktFull s2 c key base || tktFar want index) = false := by
        rw [← Bool.not_eq_true, Bool.or_eq_true, tktFull_iff, tktFar_iff]
        exact not_or.mpr ⟨hfull, hfar⟩
      refine ⟨?refused, ?taken, ?passing⟩
      case refused =>
        intro hrefused
        have hcond : (tktFull s2 c key base || tktFar want index) = true := by
          rw [Bool.or_eq_true, tktFull_iff, tktFar_iff]
          exact hrefused
        have hret := (hat.keepsStops hkeeps).retires hp rfl rfl (hb.trans (if_pos hcond)) (ticketResult_course ..)
        have hvalue : tktRefused (word % 2 ^ 32) = 3 * 2 ^ 32 + index := by
          unfold tktRefused tktWord
          rw [Nat.mod_mod]
        rw [hvalue] at hret
        exact hret.weighs hp rfl rfl (ticketResult_course ..) hat
      case taken =>
        intro hfull htaken take s4
        have hnear : ¬far index := by
          rw [htaken]
          dsimp only [far]
          omega
        have hb := hb.trans ((if_neg (by rw [hpasses hfull hnear]; nofun)).trans (if_pos htaken))
        have htake : KeepsStops s3 s4 := by
          refine updCard_keepsStops s3 k fun c => ?_
          rfl
        have hat4 : AtHome w s4 k v (if v.turn then .turn else .free) := { hat.keepsStops (hkeeps.trans htake) with home := fun _ => rfl }
        exact hat4.takesTicket hp hb
      case passing =>
        intro hfull hfar hne hturn
        have hb := hb.trans ((if_neg (by rw [hpasses hfull hfar]; nofun)).trans ((if_neg hne).trans (if_pos hturn)))
        have hat3 := hat.keepsStops hkeeps
        have hpassed : getWarp (updWarp s3 k fun x => { x with passed := true }) k = some { v with passed := true } := by
          rw [getWarp_updWarp, if_pos rfl, hat3.warp]
          rfl
        obtain ⟨y, hy, -⟩ := moveClock_goes hpassed hat.goes (nextMark v.quantum v.clock) fun ht => hat3.runs ht
        exact becomes_law hp hb (endRun_upTo hy)
    · rintro rfl held
      have hb : bodyOf .tktDone f len s1 k w = tktDoneEff f s2 k v h [x] := hbody _
      rw [tktDoneEff_eq hc] at hb
      dsimp only at hb
      constructor
      · intro hheld
        have hret := hat.retires hp rfl rfl (hb.trans (if_neg (by rw [← Bool.not_eq_true] at hheld; exact hheld))) (ticketResult_course ..)
        exact hret.weighs hp rfl rfl (ticketResult_course ..) hat
      · intro hheld index s3
        have hb := hb.trans (if_pos hheld)
        have hkeeps : KeepsStops s2 s3 := by
          refine .trans (.trans (actWrite_keepsStops ..) (updCard_keepsStops _ k fun c => ?_)) (tktSettle_keepsStops ..)
          rfl
        have hvalue : tktWord (index + 1) 0 = (index + 1) % 2 ^ 32 := by simp [tktWord]
        rw [show tktWord (rdNat (actMem s2 (partOf k) v.turn (stampOf k v) 1) (accKey x) 8 % 2 ^ 32 + 1) 0 = _ from hvalue] at hb
        have hret := (hat.keepsStops hkeeps).retires hp rfl rfl hb (ticketResult_course ..)
        exact hret.weighs hp rfl rfl (ticketResult_course ..) hat
  case stall =>
    rintro rfl ht x xs c hck hc s3 index hfull hfar hne hrefuses
    have hs3 : tktEnter s1 k w (accKey x) base = s3 := tktEnter_eq hc ..
    have hbase : tktBase w f = base := congrArg (fun y : Dword => y.toNat % 2 ^ 32) (rdSB_eq_scalarB w f)
    have hwant : tktWant w f k = want := by unfold tktWant; rw [hbase]
    have hindex : tktRead s1 k w (accKey x) base % 2 ^ 32 = index := by unfold tktRead; rw [hs3]
    have hstall : tktStall f s1 k w = some s3 := by
      rw [← hs3]
      refine tktStall_some ht hck hc hbase hwant ?_
      rw [hindex, hs3, hrefuses, beq_eq_false_iff_ne.mpr hne, ← Bool.not_eq_true, Option.isSome_none, Bool.or_false, Bool.or_false,
        Bool.or_eq_true, tktFull_iff, tktFar_iff]
      exact not_or.mpr ⟨hfull, hfar⟩
    have hb : bodyOf .tktWait f len s1 k w = .done (waitIn s3 k .stalled) := by
      show tktWaitBody f s1 k w = _
      unfold tktWaitBody
      rw [hstall]
    have hw : getWarp s3 k = some w := by rw [← hs3, (tktEnter_keepsStops ..).getWarp, performs_warp hp]
    refine ⟨hstall, becomes_law hp hb (endRun_upTo (w := { w with stat := .stalled }) ?_)⟩
    rw [getWarp_updWarp, if_pos rfl, hw]
    rfl
  case next =>
    intro c tk index hindex htk n ended
    have hended : (endedGroups c).contains n = true ↔ ended := by
      simp only [endedGroups, List.contains_iff_mem, List.mem_filter, List.mem_append, List.mem_map, List.all_eq_true, bne_iff_ne, ended]
    unfold tktNext
    rw [Nat.mod_eq_of_lt htk]
    refine if_congr List.contains_iff_mem rfl (if_congr hended rfl (if_congr ?_ rfl rfl))
    rw [Bool.and_eq_true, decide_eq_true_iff]
  case settle =>
    intro s v key st hfuel hst
    obtain ⟨n, hn⟩ := Nat.exists_eq_succ_of_ne_zero hfuel.ne'
    show tktSettle s p v.turn (stampOf k v) 1 (if v.turn then none else some k) key = _
    unfold tktSettle
    rw [hn]
    conv_lhs => unfold tktAdvance
    have hstatus : tktStatus s p key (tktIndex (rdNat (actMem s p v.turn (stampOf k v) 1) key 8)) = some st := hst
    dsimp only
    rw [hstatus]
    rfl
  case free =>
    intro ho ht
    have hb : bodyOf o f len s1 k w = .retire s1 .next none endAfter := by
      obtain rfl | rfl := ho
      · exact if_neg (by rw [ht]; nofun)
      · exact if_neg (by rw [ht]; nofun)
    have hret := retiresThen_law hp hb (performs_warp hp) (performs_ready hp) (fun _ => rfl) rfl
    have hweight : weightOf w o f = 1 := by
      obtain rfl | rfl := ho
      · exact if_neg (by rw [performs_user hp rfl]; nofun)
      · exact if_neg (by rw [performs_user hp rfl]; nofun)
    rw [hweight] at hret
    exact hret
  case pass =>
    rintro rfl ht
    exact retiresAt_law hp (clk := some (nextMark w.quantum w.clock)) (if_pos ht) (performs_warp hp) (performs_ready hp) rfl
  case passTo =>
    rintro rfl ht
    rw [← rdSB_eq_scalarB]
    exact retiresAt_law hp (clk := some (max (w.clock + 1) (min (rdSB w f).toNat (w.clock + 2 ^ 32)))) (if_pos ht) (performs_warp hp)
      (performs_ready hp) rfl

end Sys2Proof.Machine
end

section
/-! PROOF. O9: the level-index unit's results, predicates and flags are outstanding (R272 to R277). -/

namespace Sys2Proof.Machine

/-! ## Results of the special-function and level-index unit (R74, R279) -/

/-- The warp once the register writes `ws` of an instruction of the unit are outstanding with the flags that they raise, in an entry
of its slot's queue for each pass. -/
def withUnitResult (w : Warp) (o : Op) (f : Long) (ws : List RegW) (fp lx : Nat) : Warp :=
  { w with
    pend := w.pend ++ [{ regs := writeIds o f, writes := ws, fp := BitVec.ofNat 64 fp, lx := BitVec.ofNat 64 lx, remote := none
                         queue := some (w.slot.getD 0, w.width / 16) }]
    outst := (w.outst ++ writeIds o f).eraseDups }

/-- What the unit's bodies append is a result in its queue (R279). -/
theorem addPend_unit {o : Op} (hunit : (isSpecial o || isLevel o || o == .lxcvt) = true) (w : Warp) (f : Long) (ws : List RegW)
    (fp lx : Nat) : addPend w (pendOf o f ws fp lx none) = withUnitResult w o f ws fp lx := by
  simp only [addPend, pendOf, if_pos hunit, Option.map_some, outIds, withUnitResult]

/-- An instruction of the unit whose body leaves one outstanding result retires over the warp that holds it. -/
theorem unitResult_law {i : Instr} {s s1 : State} {k len : Nat} {o : Op} {f : Long} {w : Warp} {ws : List RegW} {fp lx : Nat}
    (h : Performs i s k o f len s1 w) (hunit : (isSpecial o || isLevel o || o == .lxcvt) = true)
    (hb : bodyOf o f len s1 k w = .retire (setWarp s1 k (addPend w (pendOf o f ws fp lx none))) .next none id) :
    Retires i s k o f len s1 (withUnitResult w o f ws fp lx) :=
  regOp_congr h hb ⟨rfl, rfl⟩ (addPend_unit hunit ..)

/-! ## Arithmetic (R272, R274) -/

theorem legal_fn {o : Op} {f : Long} (h : o.legal f = true) : o.form.fn f.fn.toNat = true := by
  by_contra hfn
  simp [Op.legal, hfn] at h

/-- R274 by operation, where `lxFn` goes by `FN`. -/
def lxRule (o : Op) (x y : Nat) : SliRes :=
  match o with
  | .lxadd => lxAdd x y
  | .lxsub => lxSub x y
  | .lxmul => lxMul x y
  | .lxdiv => lxDiv x y
  | .lxexp => lxExp x
  | _ => lxLog x

/-- The larger operand level M of R272, which for a unary operation is its one operand's. -/
def lxTop (o : Op) (x y : Nat) : Nat := if o = .lxexp ∨ o = .lxlog then sliLevel x else max (sliLevel x) (sliLevel y)

theorem max_sliLevel_eq_lxTop (o : Op) (x y : Nat) :
    max (sliLevel x) (if lxUnary o then 0 else sliLevel (if lxUnary o then 0x40000000 else y)) = lxTop o x y := by
  have hunary : lxUnary o = true ↔ o = .lxexp ∨ o = .lxlog := by simp [lxUnary]
  unfold lxTop
  by_cases hu : lxUnary o = true
  · rw [if_pos hu, if_pos (hunary.mp hu), Nat.max_zero]
  · rw [if_neg hu, if_neg hu, if_neg (mt hunary.mpr hu)]

section
variable {o : Op} (ho : o ∈ [.lxadd, .lxsub, .lxmul, .lxdiv, .lxexp, .lxlog])
include ho

theorem isUnit_of_lxArith : (isSpecial o || isLevel o || o == .lxcvt) = true := by
  revert o
  decide

/-- A legal `FN` selects the operation's own function, and the unary ones read no second operand. -/
theorem lxFn_eq_lxRule {n : Nat} (hn : o.form.fn n = true) (x y : Nat) :
    lxFn n x (if lxUnary o then 0x40000000 else y) = lxRule o x y := by
  simp only [List.mem_cons, List.not_mem_nil, or_false] at ho
  rcases ho with rfl | rfl | rfl | rfl | rfl | rfl <;> obtain rfl : n = _ := eq_of_beq hn <;> rfl

theorem lxLane_eq {f : Long} (hf : o.legal f = true) (w : Warp) (l : Nat) : lxLane o f w l =
    let x := (rdV w f.a.toNat l).toNat
    let y := rdB w .sli f l
    let r := lxRule o x y
    (r.1, r.2 ||| crossing (sliLevel r.1) (lxTop o x y), sliLevel r.1 != lxTop o x y) := by
  simp only [lxLane, lxFn_eq_lxRule ho (legal_fn hf), max_sliLevel_eq_lxTop]

/-- The six operations share one body. -/
theorem bodyOf_lxArith {f : Long} (hf : o.legal f = true) (len : Nat) (s : State) (k : Nat) (w : Warp) : bodyOf o f len s k w =
      let x (l : Nat) : Nat := (rdV w f.a.toNat l).toNat
      let y (l : Nat) : Nat := rdB w .sli f l
      let r (l : Nat) : SliRes := lxRule o (x l) (y l)
      let top (l : Nat) : Nat := lxTop o (x l) (y l)
      .retire (setWarp s k (addPend w (pendOf o f
        ((activeL w o f).flatMap fun l => .v f.d.toNat l (BitVec.ofNat 32 (r l).1) ::
          (if f.imm.getLsbD 3 then [.p (f.imm.toNat % 8) l (sliLevel (r l).1 != top l)] else []))
        0 (orAll ((activeL w o f).map fun l => (r l).2 ||| crossing (sliLevel (r l).1) (top l))) none))) .next none id := by
  have hbody : bodyOf o f len s k w = lxArithBody o f s k w := by
    simp only [List.mem_cons, List.not_mem_nil, or_false] at ho
    rcases ho with rfl | rfl | rfl | rfl | rfl | rfl <;> rfl
  rw [hbody]
  simp only [lxArithBody, lxLane_eq ho hf, List.flatMap_map, List.map_map, Function.comp_def]

end

/-! ## Conversion (R277) -/

theorem lt_of_ofCode {n : Nat} {t : Ty} (h : Ty.ofCode n = some t) : n < 32 := by
  by_contra hn
  obtain ⟨m, rfl⟩ := Nat.exists_eq_add_of_le' (Nat.not_lt.mp hn)
  cases h

/-- Of the types to which `LXCVT` converts, only f64 takes a pair of registers (R273). -/
theorem regWrites_lxcvt {t : Ty} (ht : t ∈ Op.lxcvt.form.tys) (d l x : Nat) : regWrites t d l x =
    if t = .f64 then [.v d l (BitVec.ofNat 32 x), .v (d + 1) l (BitVec.ofNat 32 (x / 2 ^ 32))] else [.v d l (BitVec.ofNat 32 x)] := by
  have hpair : Forms.pair t = true ↔ t = .f64 := by revert t; decide
  exact if_congr hpair rfl rfl

/-- A lane's result of `LXCVT`: the word, its `%lxstat` flags and its `%fpstat` flags. -/
def lxCvtRule (src dst : Ty) (mode x : Nat) : Nat × Nat × Nat :=
  if dst = .sli then sliOfVal x (fdec (tyFmt src) x) else ((valOfSli (tyFmt dst) mode x).1, 0, (valOfSli (tyFmt dst) mode x).2)

theorem bodyOf_lxcvt {f : Long} (hf : Op.lxcvt.legal f = true) {src : Ty} (hsrc : Ty.ofCode f.fn.toNat = some src)
    (len : Nat) (s : State) (k : Nat) (w : Warp) : bodyOf .lxcvt f len s k w =
      let lanes := activeL w .lxcvt f
      let r (l : Nat) : Nat × Nat × Nat := lxCvtRule src f.ty f.mod.toNat (rdReg w src f.a.toNat l)
      .retire (setWarp s k (addPend w (pendOf .lxcvt f
        (lanes.flatMap fun l => if f.ty = .f64 then
            [.v f.d.toNat l (BitVec.ofNat 32 (r l).1), .v (f.d.toNat + 1) l (BitVec.ofNat 32 ((r l).1 / 2 ^ 32))]
          else [.v f.d.toNat l (BitVec.ofNat 32 (r l).1)])
        (orAll (lanes.map fun l => (r l).2.2)) (orAll (lanes.map fun l => (r l).2.1)) none))) .next none id := by
  show lxCvtBody f s k w = _
  simp only [lxCvtBody, Nat.mod_eq_of_lt (lt_of_ofCode hsrc), hsrc, Option.getD_some, regWrites_lxcvt (legal_ty hf), List.flatMap_map,
    List.map_map, Function.comp_def, lxCvtRule]

/-! ## O9 -/

/-- Settles O9: each of these bodies leaves one outstanding result of the unit. The arithmetic goes by `FN`, which in a legal
encoding is the operation's own (`bodyOf_lxArith`), and a conversion's source type is the one that `FN` names (`bodyOf_lxcvt`). -/
theorem levelIndexResultsAreOutstanding : Obligations.LevelIndexResultsAreOutstanding := by
  intro i s s1 k len o f w h a b lanes outstanding
  refine ⟨fun ho => ?arith, fun ho => ?cmp, fun ho => ?lvl, fun ho src hsrc => ?cvt⟩
  case arith => exact unitResult_law h (isUnit_of_lxArith ho) (bodyOf_lxArith ho (performs_legal h) len s1 k w)
  case cmp => subst ho; exact unitResult_law h rfl rfl
  case lvl => subst ho; exact unitResult_law h rfl rfl
  case cvt => subst ho; exact unitResult_law h rfl (bodyOf_lxcvt (performs_legal h) hsrc len s1 k w)

end Sys2Proof.Machine
end

section
/-! PROOF. Links deliver in sequence once and fail over; beacons and silent peers (R287, R330 to R334, R344, R345). -/

namespace Sys2Proof.Machine

/-! ## Where flits go (R332 to R334) -/

theorem directDown_iff {s : State} {c i : Nat} : directDown s c i = true ↔
    (directPort s c i).up = false ∧ ((directPort s c i).trained = true ∨ (directPort s c i).timedOut = true) := by
  simp [directDown]

theorem detours_iff {s : State} {c i : Nat} : detours s c i = true ↔
    (getChip s c).fxEn = true ∧ i ≠ (getChip s c).index.toNat ∧ i ≤ (getChip s c).isize.toNat ∧ directDown s c i = true ∧
      (getPeer (getChip s c) i).rv = true ∧ directUp s c (getPeer (getChip s c) i).relay.toNat = true ∧
      ∃ d, chipOfIndex s (getPeer (getChip s c) i).relay.toNat = some d ∧ directUp s d i = true := by
  unfold detours
  dsimp only
  cases chipOfIndex s (getPeer (getChip s c) i).relay.toNat <;> simp [and_assoc]

theorem relayDown_iff {s : State} {c i : Nat} : relayDown s c i = true ↔
    (getPeer (getChip s c) i).rv = false ∨ directDown s c (getPeer (getChip s c) i).relay.toNat = true ∨
      ∀ d, chipOfIndex s (getPeer (getChip s c) i).relay.toNat = some d → directDown s d i = true := by
  unfold relayDown
  dsimp only
  cases chipOfIndex s (getPeer (getChip s c) i).relay.toNat <;> simp [or_assoc]

theorem unreachable_iff {s : State} {c i : Nat} : unreachable s c i = true ↔
    (getChip s c).fxEn = false ∨ directDown s c i = true ∧ relayDown s c i = true := by
  simp [unreachable]

theorem linked_iff {s : State} {c q : Nat} : linked s c q = true ↔
    q < 15 ∧ ∃ d r, otherEnd s c q = some (d, r) ∧ otherEnd s d r = some (c, q) := by
  unfold linked
  rcases otherEnd s c q with - | ⟨d, r⟩ <;> simp

/-! ## Flits that change their port (R332) -/

/-- The flits that a test selects leave a port by the paths that now lead to their destinations. Those that stay keep their order,
and of them those that the other end has not received are numbered on from the last that it has. -/
def shiftFlits (s : State) (c r : Nat) (hit : Flit → Bool) : State :=
  let y := getPort (getChip s c) r
  let first := rxNext s c r
  let stay := y.buffer.filter fun f => !hit f
  let new := stay.filter fun f => decide (first ≤ f.seq)
  let rest := (stay.filter fun f => decide (f.seq < first)) ++ new.zipIdx.map fun e => { e.1 with seq := first + e.2 }
  resend (updPort s c r fun y =>
    { y with txSeq := first + new.length, buffer := rest, wire := if y.up then rest.take 512 else [], replays := [] }) c
    (y.buffer.filter hit)

theorem resend_takeFlits (s : State) (c r : Nat) (hit : Flit → Bool) :
    resend (takeFlits s c r hit).1 c (takeFlits s c r hit).2 = shiftFlits s c r hit := by
  have hnew : (fun f : Flit => decide (rxNext s c r ≤ f.seq)) = not ∘ fun f : Flit => decide (f.seq < rxNext s c r) := by
    funext f; simp [← decide_not]
  unfold takeFlits shiftFlits
  simp only [List.partition_eq_filter_filter, hnew]

theorem failover_eq (s : State) (c q : Nat) : failover s c q =
    if (getPort (getChip s c) q).up = true then s
    else shiftFlits s c q fun f => f.src == (getChip s c).index.toNat && detours s c f.dest := by
  rw [← resend_takeFlits]
  rfl

/-- What a port that comes up makes of the island. -/
theorem raisePort_eq (s : State) (c q : Nat) : raisePort s c q =
    if (getChip s c).fxEn = false ∨ (getPort (getChip s c) q).up = true then s
    else
      let u := updPort s c q fun x => { x with up := true, trained := true, timedOut := false, replays := [], wire := x.buffer.take 512 }
      failoverAll (match portPeer (getChip s c) q with
        | none => u
        | some i => (getChip s c).ports.foldl (fun s' e => if e.1 = q then s'
            else shiftFlits s' c e.1 fun f => f.src == (getChip s c).index.toNat && f.dest == i) u) := by
  simp only [← resend_takeFlits]
  unfold raisePort
  exact if_congr (by simp) rfl rfl

/-! ## Receiving (R331) -/

/-- The state in which a flit has left the wire of the port at the other end. -/
def offWire (s : State) (c q : Nat) (f : Flit) : State :=
  match otherEnd s c q with
  | some (d, r) => updPort s d r fun x => { x with wire := x.wire.erase f }
  | none => s

theorem flitReceive_eq (s : State) (c q : Nat) (crcOk : Bool) (f : Flit) : flitReceive s c q crcOk f =
    let t := offWire s c q f
    if crcOk = false ∨ (getPort (getChip t c) q).rxSeq < f.seq then updPort t c q fun x => { x with replayFrom := some x.rxSeq }
    else if f.seq < (getPort (getChip t c) q).rxSeq then t
    else deliver (updPort t c q fun x => { x with rxSeq := f.seq + 1, replayFrom := none }) c q f := by
  show (if (!crcOk || decide ((getPort (getChip (offWire s c q f) c) q).rxSeq < f.seq)) = true then _ else _) = _
  exact if_congr (by simp) rfl rfl

section
variable {s : State} {c q : Nat} {f : Flit}

theorem flitReceive_duplicate (h : f.seq < (getPort (getChip (offWire s c q f) c) q).rxSeq) :
    flitReceive s c q true f = offWire s c q f :=
  (flitReceive_eq ..).trans ((if_neg (by simpa using h.le)).trans (if_pos h))

theorem flitReceive_inSequence (h : f.seq = (getPort (getChip (offWire s c q f) c) q).rxSeq) : flitReceive s c q true f =
    deliver (updPort (offWire s c q f) c q fun x => { x with rxSeq := f.seq + 1, replayFrom := none }) c q f :=
  (flitReceive_eq ..).trans ((if_neg (by simpa using h.le)).trans (if_neg h.not_lt))

theorem deliver_beacon {b : Beacon} (hd : f.dest = (getChip s c).index.toNat) (hb : f.payload = .beacon b) :
    deliver s c q f = beaconReceive s c b := by
  unfold deliver
  dsimp only
  rw [if_pos hd, hb]

theorem deliver_message (hd : f.dest = (getChip s c).index.toNat) (hb : ∀ b, f.payload ≠ .beacon b) : deliver s c q f =
    if ((getChip s c).ports.any fun e => e.2.got.any fun g => g.src == f.src && g.tag == f.tag) = true then s
    else updPort s c q fun x => { x with got := x.got ++ [f] } := by
  unfold deliver
  dsimp only
  rw [if_pos hd]
  split
  next b h => exact absurd h (hb b)
  next => rfl

theorem deliver_relayed (hd : f.dest ≠ (getChip s c).index.toNat) :
    deliver s c q f = putFlit s c (getPeer (getChip s c) f.dest).port.toNat f.toPacket :=
  if_neg hd

end

/-! ## O57 -/

/-- Settles O57, event by event: a flit by `flitReceive_eq` and what `deliver` makes of it, what a port's fall or rise moves by
`failover_eq` and `raisePort_eq`, and which paths there are by what each test of them asks. -/
theorem linksDeliverAndFailOver : Obligations.LinksDeliverAndFailOver := by
  intro s c q ch x me portAt port shiftAt shift down back joined
  have hfail (u : State) (d r : Nat) : failover u d r =
      if (getPort (getChip u d) r).up = true then u
      else shiftAt u d r fun f => f.src == (getChip u d).index.toNat && detours u d f.dest := failover_eq u d r
  have hdown : portDown s c q = down := hfail _ c q
  have hraise : raisePort s c q = back := by
    rw [raisePort_eq]
    unfold failoverAll
    simp only [failover_eq]
    rfl
  have hlinked : linked s c q = true ↔ joined := linked_iff
  have runs {i : Instr} {t u v : State} (hi : exec i t = .next u) (h : u = v) : exec i t = .next v := h ▸ hi
  refine ⟨?receive, fun r pk => ?put, fun dest pl => rfl, fun i => ?paths, fun b => rfl, fun seq => rfl, fun seq => runs rfl ?replay,
    runs rfl ?limit, runs rfl hdown, fun hj ht => runs rfl ?up, fun hj => runs rfl ?trained, ?apart, fun ht => runs rfl ?untrained,
    runs rfl ?timeout, runs rfl ?beacon, fun i => runs rfl ?silent⟩
  case receive =>
    intro f crcOk s1 y s2
    refine ⟨fun h => runs rfl ((flitReceive_eq ..).trans (if_pos h)), ?duplicate, ?inSequence⟩
    case duplicate =>
      rintro rfl h
      exact runs rfl (flitReceive_duplicate h)
    case inSequence =>
      rintro rfl h
      have hseq : exec (.flitReceive c q f.seq true f.toPacket) s = .next (deliver s2 c q f) := runs rfl (flitReceive_inSequence h)
      exact ⟨fun b hd hb => runs hseq (deliver_beacon hd hb), fun hb hd => runs hseq (deliver_message hd hb),
        fun hd => runs hseq (deliver_relayed hd)⟩
  case put =>
    unfold putFlit
    simp only [Bool.and_eq_true, decide_eq_true_eq]
    rfl
  case paths =>
    refine ⟨by rw [directUp, Bool.and_eq_true]; rfl, by rw [reaches, Bool.or_eq_true], ?_, ?_, rfl⟩
    · rw [detours_iff, directDown_iff]
      rfl
    · rw [unreachable_iff, relayDown_iff]
      simp only [directDown_iff]
      rfl
  case replay =>
    unfold flitReplay
    simp only [List.any_eq_true, beq_iff_eq]
    rfl
  case limit =>
    unfold replayLimit replayedOut
    simp only [List.any_eq_true, decide_eq_true_eq, hdown]
    rfl
  case up => exact (if_pos (by rw [Bool.and_eq_true]; exact ⟨ht, hlinked.mpr hj⟩)).trans hraise
  case trained => exact (if_pos (hlinked.mpr hj)).trans hraise
  case apart =>
    intro hj
    have hl : ¬linked s c q = true := fun h => hj (hlinked.mp h)
    exact ⟨runs rfl (if_neg fun h => hl (Bool.and_eq_true_iff.mp h).2), runs rfl (if_neg hl)⟩
  case untrained => exact if_neg (by rw [ht]; exact Bool.false_ne_true)
  case timeout =>
    unfold trainingTimeout
    simp only [Bool.and_eq_true, Bool.not_eq_true', hfail]
    rfl
  case beacon =>
    unfold beaconSend
    simp only [Bool.not_eq_true']
    rfl
  case silent =>
    unfold peerSilent silentParts
    simp only [Bool.and_eq_true, decide_eq_true_eq, bne_iff_ne, List.isEmpty_iff, and_assoc]
    rfl

end Sys2Proof.Machine
end

section
/-! PROOF. O55: what the dealer's read of a header leaves of the names of chips (R303, R334, R377), and why the statement needs chips
that are listed in order. -/

namespace Sys2Proof.Machine

/-! ## Chips by index (R334) -/

theorem mem_islandChips {s : State} (h : krising none s.chips = true) {c : Nat} : c ∈ islandChips s ↔ (getChip s c).fxEn = true := by
  have hfind := kfind_iff ((krising_iff s.chips none).mp h).2 c
  simp only [islandChips, List.mem_map, List.mem_filter, Prod.exists, exists_and_right, exists_eq_right, ← hfind, getChip, sget]
  cases kfind s.chips c with
  | none => simp [Chip.reset]
  | some x => simp

/-- `t` has its chips in order where `s` has, and then each belongs to the island, and by the same index, as it does in `s`. -/
structure SameIsland (s t : State) : Prop where
  rising : krising none s.chips = true → krising none t.chips = true
  fxEn : krising none s.chips = true → ∀ c, (getChip t c).fxEn = (getChip s c).fxEn
  index : krising none s.chips = true → ∀ c, (getChip t c).index = (getChip s c).index

namespace SameIsland

theorem refl (s : State) : SameIsland s s := ⟨id, fun _ _ => rfl, fun _ _ => rfl⟩

theorem trans {s t u : State} (h : SameIsland s t) (g : SameIsland t u) : SameIsland s u where
  rising hs := g.rising (h.rising hs)
  fxEn hs c := (g.fxEn (h.rising hs) c).trans (h.fxEn hs c)
  index hs c := (g.index (h.rising hs) c).trans (h.index hs c)

theorem foldl {α : Type} {g : State → α → State} (hg : ∀ s x, SameIsland s (g s x)) (l : List α) (s : State) :
    SameIsland s (l.foldl g s) := by
  induction l generalizing s with
  | nil => exact refl s
  | cons x l ih => exact (hg s x).trans (ih _)

theorem setChip {s : State} {c : Nat} {x : Chip} (hen : x.fxEn = (getChip s c).fxEn) (hidx : x.index = (getChip s c).index) :
    SameIsland s (setChip s c x) := by
  have hget (h : krising none s.chips = true) (d : Nat) : getChip (Machine.setChip s c x) d = if d = c then x else getChip s d := by
    split
    next hd => rw [hd, getChip_setChip_same c x h]
    next hd => exact getChip_setChip_ne s x hd
  refine ⟨fun h => krising_sput c x h, fun h d => ?_, fun h d => ?_⟩
  all_goals
    rw [hget h d]
    split
    next hd => rw [hd]; assumption
    next => rfl

theorem islandChips_eq {s t : State} (h : SameIsland s t) (hs : krising none s.chips = true) : islandChips t = islandChips s := by
  have hsorted {u : State} (hu : krising none u.chips = true) : (islandChips u).Pairwise (· < ·) :=
    List.pairwise_map.mpr (((krising_iff u.chips none).mp hu).2.filter _)
  refine (hsorted (h.rising hs)).eq_of_mem_iff (hsorted hs) fun c => ?_
  rw [mem_islandChips hs, mem_islandChips (h.rising hs), h.fxEn hs]

/-- A handle names the same slot. -/
theorem findSlot_eq {s t : State} (h : SameIsland s t) (hs : krising none s.chips = true) (hslots : t.slots = s.slots) (p : Nat)
    (a : Dword) : findSlot t p a = findSlot s p a := by
  have hchip : domChip t (chipOf p) (hChip a) = domChip s (chipOf p) (hChip a) := by
    simp only [domChip, chipOfIndex, h.fxEn hs, h.index hs, h.islandChips_eq hs]
  unfold findSlot getSlot
  rw [hchip, hslots]

end SameIsland

/-! ## The dealer's read of a header -/

theorem updSlice_sameIsland (s : State) (ov : List Nat) (key : Nat) (f : Nat → List SLine → List SLine) :
    SameIsland s (updSlice s ov key f) := by
  unfold updSlice
  dsimp only
  split
  · exact .refl s
  · exact .setChip rfl rfl

theorem sliceTouch_sameIsland (s : State) (w : Bool) (hint key : Nat) : SameIsland s (sliceTouch s w hint key) := by
  unfold sliceTouch touchOver
  exact updSlice_sameIsland ..

theorem walkTouch_sameIsland (s : State) (z : Site) (va : Nat) : SameIsland s (walkTouch s z va) := by
  unfold walkTouch
  split
  · exact .refl s
  · exact .foldl (fun _ _ => updSlice_sameIsland ..) _ s

theorem reportSecure_sameIsland (s : State) (p : Nat) (e : XErr) : SameIsland s (reportSecure s p e) := by
  unfold reportSecure
  split
  · exact .refl s
  · exact .setChip rfl rfl

theorem headerSeen_sameIsland (s : State) (p : Nat) (va : Dword) : SameIsland s (headerSeen s p va) := by
  unfold headerSeen
  dsimp only
  split
  · exact .refl s
  · refine (walkTouch_sameIsland s (partSite p) va.toNat).trans ?_
    split
    · exact reportSecure_sameIsland ..
    · split
      · exact sliceTouch_sameIsland ..
      · split
        · exact .setChip rfl rfl
        · exact .refl _

theorem headerSeen_memOnly (s : State) (p : Nat) (va : Dword) : MemOnly s (headerSeen s p va) := by
  unfold headerSeen
  dsimp only
  split
  · exact .refl s
  · refine (walkTouch_memOnly s (partSite p) va.toNat).trans ?_
    split
    · exact reportSecure_memOnly ..
    · split
      · exact sliceTouch_memOnly ..
      · split
        · exact setChip_memOnly ..
        · exact .refl _

/-- Where the chips are listed in order, a handle names the same slot before and after a header is read. -/
theorem findSlot_headerSeen {s : State} (h : krising none s.chips = true) (p q : Nat) (va a : Dword) :
    findSlot (headerSeen s p va) q a = findSlot s q a :=
  (headerSeen_sameIsland s p va).findSlot_eq h (headerSeen_memOnly s p va).slots q a

/-! ## Chips that are listed out of order -/

/-- A header of a card of one group of one warp of 16 lanes with 8 registers, whose 4 bytes of code follow it (R69). -/
def plainHeader : List Byte :=
  leBytes 4 0x4843565A ++ leBytes 4 1 ++ leBytes 8 0x40 ++ leBytes 4 1 ++ leBytes 4 16 ++ leBytes 4 1 ++ leBytes 4 1 ++ leBytes 16 0 ++
    leBytes 4 4 ++ leBytes 12 0

/-- A created card with that header at address 0, whose handle is generation 1 of slot 0 of the first die of the chip of index 0. -/
def arriving : Created :=
  { home := 0, target := 0, image := 0, arg := 0, ident := 0, handle := 1, origin := 0, prio := 0, mbox := 0, held := [], stamp := (0, 0)
    via := none, maker := (0, 0) }

/-- A context in free mode whose pool has room for the card's save area. -/
def roomyCtx : Ctx := { strayCtx with poollen := 128 }

/-- Two chips of an island with index 0, the second listed before the first, to whose partition 0 the card has come. The page at address
0 is device memory from 0 on, as the die's TLB holds it, and the slot that the handle names on chip 0 is pending. -/
def outOfOrder : State := { State.reset with
  mem := wrBytes [] 0 plainHeader
  chips := [(1, { Chip.reset with fxEn := true }),
    (0, { Chip.reset with
      fxEn := true, pmap := 0x80
      dieTlb := [(0, [{ ctx := 0, base := 0, size := 0x1000, entry := 0x2000, leaf := 0x43 }])] })]
  parts := [(0, { Part.reset with ctx := some roomyCtx })]
  slots := [(0, { Slot.fresh with st := .pending, count := 1 })]
  created := [arriving] }

/-- The shape that the header gives. -/
def plainShape : Shape :=
  { width := 16, groups := 1, warps := [1], allots := [8], gmem := 0, canon := 128, split := 8, quantum := 1024, save := 0 }

theorem nextArrival_outOfOrder : nextArrival outOfOrder 0 roomyCtx = some arriving := by decide

theorem checkCard_outOfOrder : checkCard outOfOrder 0 arriving.origin arriving.image [] false = .ok (plainShape, 0x40) := by decide

/-- Index 0 names the chip that is listed first, chip 1, of which no slot has been taken. -/
theorem findSlot_outOfOrder : findSlot outOfOrder 0 arriving.handle = none := by decide

/-- The line of the header enters a slice of chip 0, which is then listed before chip 1, so that the card takes the slot of chip 0. -/
theorem card_slot_outOfOrder : (getSlot (invocationArrival outOfOrder 0) 0).card = some 0 := by decide

/-- Refutes O55: its clause on a created card whose handle names no slot says of every state that the card's arrival leaves the slots as
they were, and it fails in `outOfOrder`, where the handle's index names chip 1 before the header is read and chip 0 after it. The
statement supposes nothing of the chips; where they are listed in order, `findSlot_headerSeen` excludes this. -/
theorem not_dealerAdmitsAndCompletes : ¬ Obligations.DealerAdmitsAndCompletes := by
  intro h
  obtain ⟨-, -, -, -, -, arrives⟩ := h outOfOrder 0 0 roomyCtx rfl (by decide)
  obtain ⟨-, -, unnamed, -⟩ := arrives arriving nextArrival_outOfOrder
  have hstate := Host.Outcome.next.inj (unnamed plainShape 0x40 checkCard_outOfOrder findSlot_outOfOrder)
  have hslots := (congrArg State.slots hstate).trans (headerSeen_memOnly _ 0 arriving.image).slots
  have hcard := card_slot_outOfOrder
  rw [getSlot, hslots] at hcard
  exact absurd hcard (by decide)

end Sys2Proof.Machine
end

section
/-! PROOF. `SAVEPT`, `DIGEST` and `SEED` (R352, R353, R361, R364 to R366). -/

namespace Sys2Proof.Machine

/-! ## The turn that publishes the hand (R190) -/

theorem turnPubs_pubOnly (s : State) (k : Nat) (w : Warp) (t : Stamp) : PubOnly s (turnPubs s k w t) :=
  (sendPub_pubOnly ..).trans (pubBytes_pubOnly ..)

theorem PubOnly.parts {s t : State} (h : PubOnly s t) : t.parts = s.parts := by
  conv_rhs => rw [← h.rest]

theorem turnPub_parts {s : State} {k : Nat} {w : Warp} (hl : Lists s k w) : (turnPub s k).parts = s.parts := by
  by_cases ht : w.turn = true
  · rw [turnPub_turn hl.warp ht, pubHand_lists hl]
    exact (turnPubs_pubOnly ..).parts
  · rw [turnPub_free hl.warp (by simpa using ht)]

/-- The warp whose hand a turn publishes stands where it stood, and its card is stopped where it was. -/
theorem turnPub_lists {s : State} {k : Nat} {w v : Warp} (hl : Lists s k w) (hr : Running s k) (hv : getWarp (turnPub s k) k = some v) :
    Lists (turnPub s k) k v ∧ Running (turnPub s k) k ∧ v.stat = w.stat ∧ v.sys = w.sys := by
  by_cases ht : w.turn = true
  · rw [turnPub_turn hl.warp ht, pubHand_lists hl] at hv ⊢
    obtain rfl := Option.some.inj ((lists_setWarp ..).warp.symm.trans hv)
    exact ⟨lists_setWarp .., (turnPubs_keepsStops ..).running hr, rfl, rfl⟩
  · rw [turnPub_free hl.warp (by simpa using ht)] at hv ⊢
    obtain rfl := Option.some.inj (hl.warp.symm.trans hv)
    exact ⟨hl, hr, rfl, rfl⟩

/-- An instruction whose own effect leaves the warp `v`, of the privilege at which it was issued, as the state shows it. -/
theorem retires_listed {i : Instr} {s s1 s2 : State} {k len : Nat} {o : Op} {f : Long} {w v : Warp} (h : Performs i s k o f len s1 w)
    (hb : bodyOf o f len s1 k w = .retire s2 .next none id) (hl : Lists s2 k v) (hr : Running s2 k) (hst : v.stat = .ready)
    (hsys : v.sys = w.sys) : Retires i s k o f len s2 v := by
  have hret := retiresAt_run h hb hl.warp hst hr
  rwa [← weightOf_sys hsys] at hret

/-! ## The bodies -/

/-- A request for a save point changes partitions alone (R353). -/
theorem requestSave_memOnly (s : State) (p : Nat) (turn : Bool) (mark : Nat) (bySavept : Bool) (mbox : Option (Nat × Nat)) :
    MemOnly s (requestSave s p turn mark bySavept mbox) := by
  refine .foldl (fun s q => ?_) _ s
  dsimp only
  split
  · exact setPart_memOnly ..
  · exact .refl s

theorem chainOn_turnPub {s : State} {k : Nat} {w : Warp} (hl : Lists s k w) (p : Nat) : chainOn (turnPub s k) p = chainOn s p := by
  unfold chainOn getPart
  rw [turnPub_parts hl]

theorem bodyOf_seed {s : State} {k : Nat} {c : Card} (hc : getCard s k = some c) (f : Long) (len : Nat) (w : Warp) :
    bodyOf .seed f len s k w = .retire (setWarp s k (addPend w
      { regs := writeIds .seed f, fp := 0, lx := 0, remote := none, queue := none
        writes := [.s f.d.toNat (mix (mix (mix c.seed ^^^ BitVec.ofNat 64 (identOf k)) ^^^ scalarB w f))] })) .next none id := by
  show seedBody f s k w = _
  unfold seedBody
  rw [hc, rdSB_eq_scalarB]
  rfl

/-! ## O43 -/

/-- Settles O43: `SAVEPT` and `DIGEST` from the state that the turn's publication leaves (`turnPub_lists`), `SEED` by its one outstanding
result. -/
theorem savePointDigestAndSeed : Obligations.SavePointDigestAndSeed := by
  intro i s s1 k len o f w hp p x
  have hl := performs_lists hp
  refine ⟨fun v hv => ?turn, fun ho c hc => ?seed⟩
  case turn =>
    obtain ⟨hlist, hrun, hstat, hsys⟩ := turnPub_lists hl (performs_runs hp) hv
    have hready : v.stat = .ready := hstat.trans (performs_ready hp)
    refine ⟨fun ho => ?savept, fun ho => ?digest⟩
    case savept =>
      subst ho
      intro s2 sv
      have hkeep : KeepsStops (turnPub s1 k) s2 := (requestSave_memOnly ..).keepsStops
      have hlist2 : Lists s2 k v := hlist.sameWarps hkeep.warps
      generalize hx : BitVec.ofNat 64 (if w.turn then w.clock + 1 else sv.next + sv.reqs.length - 1) = x
      have hb : bodyOf .savept f len s1 k w = .retire (setWarp s2 k (wrS v f.d.toNat x)) .next none id := by
        rw [← hlist2.updWarp fun v => wrS v f.d.toNat x, ← hx]
        rfl
      exact (retires_listed hp hb (lists_setWarp ..) (hkeep.running hrun) ((wrS_effect ..).stat.trans hready)
        ((wrS_sys ..).trans hsys)).of_setWarp
    case digest =>
      subst ho
      have hb : bodyOf .digest f len s1 k w = .retire (if chainOn s1 p then updCard (turnPub s1 k) k fun c =>
          { c with digest := mix (c.digest ^^^ x) } else turnPub s1 k) .next none id := by
        rw [← chainOn_turnPub hl]
        rfl
      have hkeep : KeepsStops (turnPub s1 k) (if chainOn s1 p then updCard (turnPub s1 k) k fun c =>
          { c with digest := mix (c.digest ^^^ x) } else turnPub s1 k) := by
        split
        · exact updCard_keepsStops _ k fun _ => rfl
        · exact .refl _
      exact retires_listed hp hb (hlist.sameWarps hkeep.warps) (hkeep.running hrun) hready hsys
  case seed =>
    subst ho
    exact regOp_law hp (bodyOf_seed hc f len w) ⟨rfl, rfl⟩

end Sys2Proof.Machine
end

section
/-! PROOF. Instruction words that the spec writes out (R40, R41, R44, R47, R57, R81, R139). -/

namespace Sys2Proof.Machine

/-- Settles O45: each word's fields and the checks of R46 and R60 on them, evaluated. -/
theorem wordsOfTheSpecDecode : Obligations.WordsOfTheSpecDecode := by
  unfold Obligations.WordsOfTheSpecDecode
  dsimp only
  refine ⟨?_, ?_, ?_, ?_, ?_, ?_, ?_, ?_, ?_, ?_, ?_, ?_, ?_, ?_, ?_⟩ <;> decide +kernel

end Sys2Proof.Machine
end

section
/-! PROOF. Every step keeps memory in its canonical form (log 4): what the operations on the state's records, flits, slices,
publications, tickets, handles and cards keep. -/

namespace Sys2Proof.Machine

/-- Device memory and host memory have their canonical form. -/
abbrev Canon (s : State) : Prop := s.mem.wf = true ∧ s.hostMem.wf = true

theorem canon_iff {s : State} : Canon s ↔ s.memWf = true := Bool.and_eq_true_iff.symm

section
variable {s : State}

theorem canon_foldl {α : Type} {g : State → α → State} {l : List α} (h : Canon s)
    (hg : ∀ s x, Canon s → Canon (g s x)) : Canon (l.foldl g s) := by
  induction l generalizing s with
  | nil => exact h
  | cons x l ih => exact ih (hg s x h)

end

theorem canon_ite {c : Prop} [Decidable c] {s t : State} (hs : Canon s) (ht : Canon t) : Canon (if c then s else t) := by
  split <;> assumption

/-! ## Records -/

section
variable {s : State}

theorem canon_setChip {c : Nat} {x : Chip} (h : Canon s) : Canon (setChip s c x) := h
theorem canon_setPart {p : Nat} {x : Part} (h : Canon s) : Canon (setPart s p x) := h
theorem canon_setWarp {k : Nat} {w : Warp} (h : Canon s) : Canon (setWarp s k w) := h
theorem canon_updWarp {k : Nat} {g : Warp → Warp} (h : Canon s) : Canon (updWarp s k g) := h
theorem canon_updGroup {k : Nat} {g : Group → Group} (h : Canon s) : Canon (updGroup s k g) := h
theorem canon_setGroup {k : Nat} {g : Group} (h : Canon s) : Canon (setGroup s k g) := h
theorem canon_updCard {k : Nat} {g : Card → Card} (h : Canon s) : Canon (updCard s k g) := h
theorem canon_setMbox {p b : Nat} {m : Mbox} (h : Canon s) : Canon (setMbox s p b m) := h
theorem canon_putSlot {key : Nat} {x : Slot} (h : Canon s) : Canon (putSlot s key x) := h
theorem canon_updPort {c q : Nat} {g : Port → Port} (h : Canon s) : Canon (updPort s c q g) := h
theorem canon_reportAt {c a : Nat} (h : Canon s) : Canon (reportAt s c a) := h
theorem canon_freeSlot {k : Nat} (h : Canon s) : Canon (freeSlot s k) := h
theorem canon_stopWarp {k m : Nat} {t : Stamp} (h : Canon s) : Canon (stopWarp s k m t) := h
theorem canon_setClock {p b t x : Nat} (h : Canon s) : Canon (setClock s p b t x) := h

theorem canon_updCore {k : Nat} {g : Core → Core} (h : Canon s) : Canon (updCore s k g) := by
  unfold updCore
  split
  · exact h
  · exact canon_setChip h

/-! ## Slices (R174, R175) -/

theorem canon_updSlice {ov : List Nat} {key : Nat} {g : Nat → List SLine → List SLine} (h : Canon s) : Canon (updSlice s ov key g) := by
  unfold updSlice
  exact canon_ite h (canon_setChip h)

theorem canon_sliceTouch {w : Bool} {hint key : Nat} (h : Canon s) : Canon (sliceTouch s w hint key) := canon_updSlice h

theorem canon_sliceTouches {w : Bool} {hint : Nat} {keys : List Nat} (h : Canon s) : Canon (sliceTouches s w hint keys) :=
  canon_foldl h (fun _ _ h => canon_updSlice h)

theorem canon_overlayTrim {keys : List Nat} (h : Canon s) : Canon (overlayTrim s keys) := canon_foldl h (fun _ _ h => canon_updSlice h)

theorem canon_sliceDrop {c : Nat} {hit : Nat → Bool} (h : Canon s) : Canon (sliceDrop s c hit) := h

/-! ## Flits (R330 to R332) -/

theorem canon_putFlit {c q : Nat} {x : Packet} (h : Canon s) : Canon (putFlit s c q x) := h

theorem canon_sendFlit {c dest : Nat} {x : FlitPayload} (h : Canon s) : Canon (sendFlit s c dest x) := h

theorem canon_sendFlits {c dest n : Nat} {x : Nat → FlitPayload} (h : Canon s) : Canon (sendFlits s c dest n x) := by
  unfold sendFlits
  split
  · exact h
  · exact canon_ite h (canon_foldl h (fun _ _ h => canon_sendFlit h))

theorem canon_takeFlits {c q : Nat} {hit : Flit → Bool} (h : Canon s) : Canon (takeFlits s c q hit).1 := h

theorem canon_resend {c : Nat} {fs : List Flit} (h : Canon s) : Canon (resend s c fs) := canon_foldl h (fun _ _ h => canon_putFlit h)

theorem canon_failover {c q : Nat} (h : Canon s) : Canon (failover s c q) := canon_ite h (canon_resend (canon_takeFlits h))

/-! ## Publications (R184, R186, R190) -/

theorem canon_touchWords {d : Nat} {t : Stamp} {ks : List Nat} (h : Canon s) : Canon (touchWords s d t ks) := h

theorem canon_publish {x : Pub} {ks : List Nat} (h : Canon s) : Canon (publish s x ks) :=
  canon_touchWords (canon_overlayTrim (s := addPub s x) h)

theorem canon_pubBytes {d : Nat} {t : Stamp} {ord made : Nat} {b : KMap Byte} (h : Canon s) : Canon (pubBytes s d t ord made b) :=
  canon_ite h (canon_publish h)

theorem canon_sendPub {k : Nat} {t : Stamp} {ks : List Nat} (h : Canon s) : Canon (sendPub s k t ks) :=
  canon_foldl h (fun _ _ h => canon_sendFlits h)

theorem canon_pubHand {k : Nat} {w : Warp} {t : Stamp} (h : Canon s) : Canon (pubHand s k w t) :=
  canon_updWarp (canon_pubBytes (canon_sendPub h))

theorem canon_pubMark {k : Nat} {w : Warp} {m made : Nat} (h : Canon s) : Canon (pubMark s k w m made) :=
  canon_updWarp (canon_foldl (canon_pubBytes (canon_sendPub h)) (fun _ _ h => canon_publish h))

/-! ## Free-mode writes and the words of tickets (R166, R171, R223) -/

theorem canon_l1Clear {k : Nat} (h : Canon s) : Canon (l1Clear s k) := canon_updCore h

theorem canon_freeWrite {k key : Nat} {bs : List Byte} {hint : Nat} (h : Canon s) : Canon (freeWrite s k key bs hint) :=
  canon_sliceTouches (canon_updCore ⟨wf_wrBytes _ _ h.1, h.2⟩)

theorem canon_actWrite {p : Nat} {turn : Bool} {t : Stamp} {ord : Nat} {k : Option Nat} {key : Nat} {b : List Byte} (h : Canon s) :
    Canon (actWrite s p turn t ord k key b) := by
  unfold actWrite
  split
  · exact canon_pubBytes h
  · split
    · exact canon_freeWrite h
    · exact canon_sliceTouches ⟨wf_wrBytes _ _ h.1, h.2⟩

theorem canon_tktAdvance {p : Nat} {turn : Bool} {t : Stamp} {ord : Nat} {k : Option Nat} {key n : Nat} (h : Canon s) :
    Canon (tktAdvance s p turn t ord k key n) := by
  induction n generalizing s with
  | zero => exact h
  | succ n ih =>
    unfold tktAdvance
    dsimp only
    split
    · exact ih (canon_actWrite h)
    · exact h

theorem canon_tktSettle {p : Nat} {turn : Bool} {t : Stamp} {ord : Nat} {k : Option Nat} {key : Nat} (h : Canon s) :
    Canon (tktSettle s p turn t ord k key) := canon_tktAdvance h

theorem canon_tktBreak {p : Nat} {turn : Bool} {t : Stamp} {tk : Ticket} (h : Canon s) : Canon (tktBreak s p turn t tk) := canon_actWrite h

theorem canon_tktRelease {ck : Nat} {turn : Bool} {t : Stamp} {hit : Ticket → Bool} (h : Canon s) : Canon (tktRelease s ck turn t hit) := by
  unfold tktRelease
  split
  · exact h
  · exact canon_foldl h (fun _ _ h => canon_tktSettle (canon_ite (canon_tktBreak h) h))

theorem canon_tktGroupEnd {ck g : Nat} {turn : Bool} {t : Stamp} (h : Canon s) : Canon (tktGroupEnd s ck g turn t) := canon_tktRelease h

theorem canon_tktCardStop {ck : Nat} {turn : Bool} {t : Stamp} (h : Canon s) : Canon (tktCardStop s ck turn t) := canon_tktRelease h

theorem canon_tktTouched {ck : Nat} {t : Stamp} {key : Nat} (h : Canon s) : Canon (tktTouched s ck t key) := canon_tktSettle h

theorem canon_tktIdle {p : Nat} (h : Canon s) : Canon (tktIdle s p) := by
  unfold tktIdle
  dsimp only
  split
  · exact canon_tktSettle h
  · exact h

/-! ## Faults posted and the dealer's writes (R340, R369, R372) -/

theorem canon_signal {c vec : Nat} (h : Canon s) : Canon (signal s c vec) := h

theorem canon_postFault {p : Nat} {e : List Byte} (h : Canon s) : Canon (postFault s p e) :=
  canon_ite h ⟨h.1, wf_wrBytes _ _ h.2⟩

theorem canon_noteDealt {p clk : Nat} (h : Canon s) : Canon (noteDealt s p clk) := canon_ite h h

theorem canon_dealerWrite {p clk pa : Nat} {bs : List Byte} (h : Canon s) : Canon (dealerWrite s p clk pa bs) := by
  unfold dealerWrite
  split
  · exact h
  · split
    · exact canon_reportAt h
    · exact canon_actWrite h

theorem canon_recordOrigin {p at_ origin : Nat} (h : Canon s) : Canon (recordOrigin s p at_ origin) := by
  unfold recordOrigin
  split
  · exact h
  · exact canon_dealerWrite h

theorem canon_replayCheck {p at_ o : Nat} {b : List Byte} (h : Canon s) : Canon (replayCheck s p at_ o b) := by
  unfold replayCheck
  dsimp only
  split
  · exact h
  · exact canon_ite h h

/-! ## Warps that wake or stop (R198, R318) -/

theorem canon_wake {k : Nat} {r : Stamp} (h : Canon s) : Canon (wake s k r) := by
  unfold wake
  split
  · exact h
  · split <;> exact h

theorem canon_dropLines {k : Nat} {w : Warp} (h : Canon s) : Canon (dropLines s k w) := by
  unfold dropLines
  split
  · exact h
  · split
    · exact h
    · split <;> exact h

theorem canon_wakeFwait {p : Nat} {hd : Dword} {r : Stamp} (h : Canon s) : Canon (wakeFwait s p hd r) :=
  canon_foldl h (fun _ _ h => canon_wake (canon_dropLines h))

theorem canon_dropGroup {gk : Nat} (h : Canon s) : Canon (dropGroup s gk) := by
  unfold dropGroup
  extract_lets ws m gone s1 s2
  have h2 : Canon s2 := by
    unfold s2
    split
    · exact h
    · split <;> exact h
  exact h2

theorem canon_boxClock {ck t : Nat} (h : Canon s) : Canon (boxClock s ck t) := by
  unfold boxClock
  split
  · exact h
  · exact canon_ite h h

theorem canon_tryFree {key : Nat} {t : Stamp} (h : Canon s) : Canon (tryFree s key t) := canon_ite (canon_putSlot (canon_noteDealt h)) h

theorem canon_taskEnded {p : Nat} {hd : Dword} {t : Stamp} (h : Canon s) : Canon (taskEnded s p hd t) := by
  unfold taskEnded
  split
  · exact h
  · exact canon_tryFree h

theorem canon_afterStop {ck : Nat} (h : Canon s) : Canon (afterStop s ck) := by
  unfold afterStop
  split
  · exact h
  · split
    · exact h
    · exact canon_ite h (canon_taskEnded (canon_boxClock h))

theorem canon_sweepCard {ck : Nat} (h : Canon s) : Canon (sweepCard s ck) :=
  canon_afterStop (canon_foldl h (fun _ _ h => canon_dropGroup h))

theorem canon_stopBack {t : Stamp} {e : Nat × Warp} (h : Canon s) : Canon (stopBack s t e) := by
  unfold stopBack
  dsimp only
  split
  case h_7 => exact canon_ite h (canon_ite h h)
  case h_9 => exact canon_ite h h
  all_goals exact h

theorem canon_stopGone {ck : Nat} {t : Stamp} {x : Nat × List Stamp × Nat} (h : Canon s) : Canon (stopGone s ck t x) := by
  unfold stopGone
  split <;> exact h

theorem canon_stopBehind {ck : Nat} {t : Stamp} {parked : Bool} (h : Canon s) : Canon (stopBehind s ck t parked) :=
  canon_ite h (canon_foldl (canon_foldl h (fun _ _ h => canon_stopGone h)) (fun _ _ h => canon_stopBack h))

/-! ## Cascades and the ends of cards (R34, R316 to R319) -/

theorem canon_reclaim {key : Nat} {x : Slot} {hd : Dword} {t : Stamp} (h : Canon s) : Canon (reclaim s key x hd t).1 := by
  unfold reclaim
  dsimp only
  split
  · split
    · split
      · exact h
      · exact canon_sweepCard (canon_stopBehind (canon_tktCardStop (canon_updCard (canon_ite (canon_taskEnded h) h))))
    · exact h
  · exact canon_tryFree h

theorem canon_runJobs {n p : Nat} {t : Stamp} {js : List Job} (h : Canon s) : Canon (runJobs n p t js s) := by
  induction n generalizing s js with
  | zero => exact h
  | succ n ih =>
    match js with
    | [] => exact h
    | .drop hd :: js =>
      unfold runJobs
      split
      · exact ih h
      · split
        · exact ih h
        · split
          · exact ih (canon_reclaim (canon_wakeFwait h))
          · exact ih (canon_reclaim (canon_wakeFwait h))
          · exact ih (canon_tryFree h)
    | .brk hd cause dead :: js =>
      unfold runJobs
      split
      · exact ih h
      · split
        · exact ih (canon_tryFree (canon_wakeFwait h))
        · exact ih (canon_tryFree (canon_wakeFwait h))
        · exact ih h

theorem canon_cascade {p : Nat} {t : Stamp} {js : List Job} (h : Canon s) : Canon (cascade s p t js) := canon_runJobs h

theorem canon_foldHash {box : Nat × Nat} {digest : Dword} {clk : Nat} (h : Canon s) : Canon (foldHash s box digest clk) := by
  unfold foldHash
  dsimp only
  split
  · exact h
  · exact canon_ite h h

theorem canon_finishStop {ck : Nat} (h : Canon s) : Canon (finishStop s ck) := by
  unfold finishStop
  split
  · exact h
  · split
    · exact h
    · exact canon_sweepCard (canon_stopBehind (canon_foldHash (canon_cascade (canon_tktCardStop h))))

theorem canon_stopCard {ck : Nat} {t : Stamp} {cause kind status : Nat} (h : Canon s) : Canon (stopCard s ck t cause kind status) :=
  canon_ite (canon_finishStop (s := setStop s ck _) h) h

theorem canon_sendCreated {p : Nat} {t : Stamp} {idx : Nat} {c : Created} (h : Canon s) : Canon (sendCreated s p t idx c) := by
  unfold sendCreated
  split
  · exact canon_sendFlits h
  · exact canon_cascade h

theorem canon_resolveSlot {p key : Nat} {x : Slot} {hd : Dword} {t : Stamp} {v : List Byte} {place : Option (Nat × Dword)} (h : Canon s) :
    Canon (resolveSlot s p key x hd t v place) :=
  canon_foldl (canon_wakeFwait h) (fun _ _ h => canon_sendCreated h)

theorem canon_cardEndTurn {ck : Nat} (h : Canon s) : Canon (cardEndTurn s ck) := by
  unfold cardEndTurn
  split
  · exact h
  · refine canon_taskEnded (canon_cascade (canon_foldHash ?_))
    split
    · split
      · exact canon_resolveSlot h
      · exact canon_resolveSlot h
      · exact h
    · exact h

theorem canon_endGroup {gk : Nat} (h : Canon s) : Canon (endGroup s gk) := by
  unfold endGroup
  split
  case h_2 => exact h
  extract_lets ck ws t turn s1 s2 s3 s4
  have h1 : Canon s1 := canon_ite h h
  have h4 : Canon s4 := canon_ite (canon_dropGroup h1) (canon_tktGroupEnd (canon_dropGroup h1))
  refine canon_ite h (canon_ite (canon_ite h (canon_sweepCard h)) (canon_ite h1 ?_))
  split
  · exact h4
  · exact canon_ite (canon_ite (canon_boxClock h4) (canon_cardEndTurn (canon_boxClock h4))) h4

end

end Sys2Proof.Machine
end

section
/-! PROOF. Every step keeps memory in its canonical form: translations, caches, requests to other chips, posted stores, traps and the
shared course of an instruction. -/

namespace Sys2Proof.Machine

section
variable {s : State} {k p c n key clk : Nat} {z : Site} {w : Warp} {t : Stamp}

/-! ## Translation and caches (R155, R157, R170, R338 to R340) -/

theorem canon_enterL1 {y : Tlb} (h : Canon s) : Canon (enterL1 s z y) := by
  unfold enterL1
  split <;> exact h

theorem canon_setEntryBit (h : Canon s) : Canon (setEntryBit s key n) := canon_sliceTouch ⟨wf_wrBytes _ _ h.1, h.2⟩

theorem canon_walkTouch {va : Nat} (h : Canon s) : Canon (walkTouch s z va) := canon_ite h (canon_sliceTouches h)

theorem canon_install {va : Nat} (h : Canon s) : Canon (install s z va) := by
  unfold install
  split
  · exact h
  · split
    · exact canon_enterL1 h
    · extract_lets
      split
      · exact canon_walkTouch h
      · exact canon_enterL1 (canon_ite (canon_sliceTouches h) (canon_setEntryBit (canon_sliceTouches h)))

theorem canon_setDirty {va : Nat} (h : Canon s) : Canon (setDirty s z va) := by
  unfold setDirty
  split
  · exact h
  · exact canon_ite h (canon_setEntryBit h)

theorem canon_dropTlb {hit : Tlb → Bool} (h : Canon s) : Canon (dropTlb s c hit) := h

theorem canon_reportSecure {e : XErr} (h : Canon s) : Canon (reportSecure s p e) := by
  unfold reportSecure
  split <;> exact h

theorem canon_addCount {x : Xlat} {home : Nat} (h : Canon s) : Canon (addCount s p x home n) := canon_ite (canon_postFault h) h

theorem canon_countPages {xs : List (Nat × Xlat)} (h : Canon s) : Canon (countPages s z xs) := by
  refine canon_foldl h fun s b h => ?_
  split
  · exact h
  · exact canon_addCount h

theorem canon_fillLine {a : Nat} {at_ : Option Nat} (h : Canon s) : Canon (fillLine s z at_ a) := by
  unfold fillLine
  split
  · exact canon_ite (canon_install h) (canon_setChip (canon_sliceTouch (canon_install h)))
  · exact h

theorem canon_fillFrom {pc : Dword} {at_ : Option Nat} (h : Canon s) : Canon (fillFrom s z at_ pc n) :=
  canon_ite (canon_fillLine h) (canon_fillLine (canon_fillLine h))

theorem canon_installAll {xs : List Acc} (h : Canon s) : Canon (installAll s z xs) :=
  canon_foldl h fun _ _ h => canon_ite (canon_install h) h

theorem canon_dirtyAll {xs : List Acc} (h : Canon s) : Canon (dirtyAll s z xs) :=
  canon_foldl h fun _ _ h => canon_ite (canon_setDirty (canon_install h)) h

theorem canon_noteReplica {x : Acc} (h : Canon s) : Canon (noteReplica s k x) := by
  unfold noteReplica
  extract_lets
  split
  · exact h
  · exact canon_ite (canon_ite h h) h

theorem canon_bringL1 {hint : Nat} {keys : List Nat} (h : Canon s) : Canon (bringL1 s k w hint keys) := canon_ite h (canon_updCore h)

theorem canon_bringLines {hint : Nat} {away : Acc → Bool} {xs : List (Acc × List Nat)} (h : Canon s) :
    Canon (bringLines s k w hint away xs) :=
  canon_sliceTouches (canon_bringL1 (canon_foldl h fun _ _ h => canon_noteReplica h))

theorem canon_loadLines {hint : Nat} {xs : List Acc} (h : Canon s) : Canon (loadLines s k w hint xs) := canon_bringLines h

theorem canon_sendAccess {xs : List Acc} (h : Canon s) : Canon (sendAccess s k w n xs) := canon_foldl h fun _ _ h => canon_sendFlits h

/-! ## Runs, refusals and the clock (R73, R178, R186, R346) -/

theorem canon_endRun (h : Canon s) : Canon (endRun s k) := h

theorem canon_waitIn {st : WStat} (h : Canon s) : Canon (waitIn s k st) := h

theorem canon_noteRefusal {load : Bool} {x : Denied} (h : Canon s) : Canon (noteRefusal s k load x) := by
  unfold noteRefusal
  split
  · exact h
  · exact canon_postFault (canon_ite (canon_reportAt h) h)

theorem canon_refuseAll {xs : List Denied} {load : Bool} (h : Canon s) : Canon (refuseAll s k xs load clk) := by
  unfold refuseAll
  split
  · have hnote {l : List Denied} : Canon (l.foldl (fun s x => noteRefusal s k load x) s) :=
      canon_foldl h fun _ _ h => canon_noteRefusal h
    exact canon_ite (canon_waitIn hnote) (canon_stopCard hnote)
  · exact h

theorem canon_fetchRefusal {a : Dword} {kind : Nat} (h : Canon s) : Canon (fetchRefusal s k w a key kind) := canon_endRun (canon_refuseAll h)

theorem canon_moveClock (h : Canon s) : Canon (moveClock s k clk) := by
  unfold moveClock
  split
  · exact h
  · exact canon_ite h (canon_ite (canon_sweepCard h) (canon_refuseAll (canon_pubMark h)))

/-! ## Requests to other chips (R336, R346) -/

theorem canon_servePend {hit : Remote → Bool} (h : Canon s) : Canon (servePend s k hit) := by
  unfold servePend
  split
  · exact h
  · extract_lets
    split
    · exact h
    · split
      · exact h
      · exact canon_refuseAll (canon_updWarp (canon_sendFlits (canon_sliceTouches h)))

theorem canon_serveLines {core : Option (Nat × Nat)} {keys : List Nat} (h : Canon s) : Canon (serveLines s core keys n) := by
  induction n generalizing s with
  | zero => exact h
  | succ n ih =>
    unfold serveLines
    split
    · exact h
    · exact ih (canon_servePend h)

theorem canon_serveCore {keys : List Nat} (h : Canon s) : Canon (serveCore s k keys) := canon_serveLines h

/-! ## Posted stores (R166) -/

theorem canon_performPosted (h : Canon s) : Canon (performPosted s k) := by
  unfold performPosted
  split
  · exact h
  extract_lets p z
  split
  · exact h
  split
  · exact canon_updWarp (canon_reportSecure (canon_walkTouch h))
  extract_lets keys s1
  have h1 : Canon s1 := canon_serveCore h
  split
  · exact h1
  split
  · exact h1
  extract_lets xs s2 s3 s4
  have h2 : Canon s2 := canon_countPages (canon_updWarp (canon_foldl h1 fun _ _ h => canon_setDirty (canon_install h)))
  have h3 : Canon s3 := canon_foldl h2 fun _ _ h => canon_sendFlits h
  have h4 : Canon s4 := canon_foldl h3 fun _ _ h => canon_ite (canon_freeWrite h) h
  exact canon_refuseAll h4

theorem canon_drainPosted (h : Canon s) : Canon (drainPosted s k n) := by
  induction n generalizing s with
  | zero => exact h
  | succ n ih =>
    unfold drainPosted
    split
    · exact h
    · exact canon_ite (ih (canon_performPosted h)) h

theorem canon_drainAll (h : Canon s) : Canon (drainAll s k) := canon_drainPosted h

/-! ## Outstanding results and traps (R75, R97 to R101) -/

theorem canon_confirmAll {us : List Unconf} {ps : List Pend} (h : Canon s) : Canon (confirmAll s k us ps).1 := by
  induction us generalizing s ps with
  | nil => exact h
  | cons u us ih =>
    unfold confirmAll
    split
    · exact h
    · exact ih (canon_foldl h fun _ _ h => canon_install h)

/-- The state that a park point finds has the form. -/
def CanonSettled : Settled → Prop
  | .wait => True
  | .fault s _ => Canon s
  | .ok s => Canon s

theorem canon_confirm (h : Canon s) : CanonSettled (confirm s k) := by
  unfold confirm
  split
  · trivial
  · dsimp only
    split
    · exact canon_confirmAll h
    · exact canon_updWarp (canon_confirmAll h)

theorem canon_settle (h : Canon s) : CanonSettled (settle s k) := by
  unfold settle
  split
  · trivial
  · split
    · trivial
    · dsimp only
      split
      · exact canon_updWarp (canon_confirmAll h)
      · exact canon_updWarp (canon_confirmAll h)

theorem canon_enterTrap {cause kind : Nat} {addr tpc : Dword} (h : Canon s) : Canon (enterTrap s k cause kind addr tpc clk) := by
  unfold enterTrap
  split
  · exact h
  · extract_lets die
    have hdie {u : State} {cause kind : Nat} (h : Canon u) : Canon (die u cause kind) :=
      canon_ite (canon_waitIn h) (canon_sweepCard (canon_stopWarp (canon_stopCard h)))
    exact canon_ite (hdie h) (canon_ite (hdie h) (canon_endRun h))

theorem canon_trapAt {cause kind : Nat} {addr : Dword} (h : Canon s) : Canon (trapAt s k cause kind addr) := by
  unfold trapAt
  split
  · exact h
  · have hset : CanonSettled (settle s k) := canon_settle h
    split
    · exact canon_waitIn h
    next heq =>
      rw [heq] at hset
      split
      · exact canon_enterTrap hset
      · exact hset
    next heq =>
      rw [heq] at hset
      exact canon_enterTrap (canon_drainAll hset)

/-! ## Issue and retirement (R59, R180) -/

/-- The state that an instruction's own effect shows has the form. -/
def CanonAct : Act → Prop
  | .retire s _ _ _ => Canon s
  | .retireTrap s _ _ => Canon s
  | .trap s _ _ _ => Canon s
  | .done s => Canon s
  | .wait => True

theorem canonAct_ite {q : Prop} [Decidable q] {a b : Act} (ha : CanonAct a) (hb : CanonAct b) : CanonAct (if q then a else b) := by
  split <;> assumption

theorem canon_retire {wt len : Nat} {en : Bool} {pc : Pc} {clk : Option Nat} {after : Warp → Warp} (h : Canon s) :
    Canon (retire s k wt len en pc clk after) := by
  unfold retire
  split
  · exact h
  · extract_lets c
    split
    extract_lets w1 s1
    have h1 : Canon s1 := canon_updWarp (canon_moveClock (canon_setWarp h))
    split
    · exact h1
    · exact canon_ite (canon_endRun h1) h1

theorem canon_finish {s0 : State} {wt len : Nat} {en : Bool} {a : Act} (h : Canon s0) (ha : CanonAct a) :
    Canon (finish s0 k wt len en a) := by
  cases a with
  | retire s pc clk after => exact canon_retire ha
  | retireTrap s cause kind =>
    have hret : Canon (retire s k wt len en .next none id) := canon_retire ha
    unfold finish
    dsimp only
    split
    · exact hret
    · split
      · exact hret
      · exact hret
      · exact canon_enterTrap hret
  | trap s cause kind addr => exact canon_trapAt ha
  | done s => exact ha
  | wait => exact canon_waitIn h

theorem canon_faultRegion {s0 : State} {o : Op} {f : Long} {a : Act} (ha : CanonAct a) : CanonAct (faultRegion s0 w o f a k) := by
  cases a with
  | trap s cause kind addr => exact canonAct_ite (canon_updWarp (s := s) ha) ha
  | _ => exact ha

theorem canon_atTurn {o : Op} {f : Long} (h : Canon s) : Canon (atTurn s k w o f) := canon_ite h h

section
variable {o : Op} {f : Long} {len : Nat} {body : State → Nat → Warp → Act} (hb : ∀ {s k w}, Canon s → CanonAct (body s k w))
include hb

theorem canon_perform (h : Canon s) : Canon (perform o f len body s k w) := by
  unfold perform
  extract_lets stopped w1 s1 a own s2 s3
  have h2 : Canon s2 := canon_finish (canon_atTurn h) (canon_faultRegion (hb h))
  have h3 : Canon s3 := canon_ite h2 h2
  exact canon_ite (canon_sweepCard h) (canon_ite (canon_waitIn (canon_atTurn h)) (canon_ite (canon_refuseAll h3) h3))

theorem canon_performHeld (h : Canon s) : Canon (performHeld o f len body s k) := by
  unfold performHeld
  split
  · exact h
  split
  · exact canon_trapAt h
  · exact canon_trapAt h
  extract_lets s1
  have h1 : Canon s1 := canon_ite (canon_drainAll h) h
  split
  · exact h1
  split
  · exact h1
  split
  · split
    · exact canon_trapAt h1
    · exact h1
  · exact canon_ite (canon_waitIn h1) (canon_perform hb h1)

theorem canon_issueAt (h : Canon s) : Canon (issueAt o f len body s k w) := by
  unfold issueAt
  split
  · exact canon_trapAt (canon_reportSecure (canon_ite (canon_walkTouch h) h))
  · have hset : CanonSettled (if parks o f then settle s k else if needsConfirm s k w o f then confirm s k else .ok s) := by
      split
      · exact canon_settle h
      · split
        · exact canon_confirm h
        · exact h
    split
    · exact canon_waitIn h
    · exact canon_trapAt h
    next heq =>
      rw [heq] at hset
      exact canon_performHeld hb hset

end

theorem canon_turnPub (h : Canon s) : Canon (turnPub s k) := by
  unfold turnPub
  split
  · exact h
  · exact canon_ite (canon_pubHand h) h

end

end Sys2Proof.Machine
end

section
/-! PROOF. Every step keeps memory in its canonical form: accesses to memory, the sequencer, and the turn unit. -/

namespace Sys2Proof.Machine

section
variable {s : State} {k p c n key clk len : Nat} {z : Site} {w : Warp} {t : Stamp} {o : Op} {f : Long} {xs : List Acc}

/-! ## Loads and stores (R163 to R166, R188, R189) -/

theorem canon_faultWalk {e : MErr} (h : Canon s) : Canon (faultWalk s k e) := canon_reportSecure (canon_ite (canon_walkTouch h) h)

theorem canonAct_memFault {e : MErr} (h : Canon s) : CanonAct (memFault s k xs e) := canon_faultWalk (canon_installAll h)

theorem canonAct_loadBody (h : Canon s) : CanonAct (loadBody o f s k w) := by
  unfold loadBody
  split
  next xs err _ =>
  extract_lets p z miss defer note
  have hnote {u : State} {pd : Option Pend} {flt : Option (Nat × Nat)} (hu : Canon u) : CanonAct (note u pd flt) := hu
  split
  · exact canonAct_ite (hnote (canon_faultWalk h)) (canonAct_memFault h)
  split
  · split
    · trivial
    · exact canonAct_ite trivial h
  next far s1 keys s2 s3 bad s4 w' pd s5 _ _ _ =>
  have h2 : Canon s2 := canon_ite (canon_ite (canon_drainAll h) h) (canon_serveCore (canon_ite (canon_drainAll h) h))
  have h3 : Canon s3 := canon_sendAccess (canon_countPages h2)
  have h4 : Canon s4 := canon_refuseAll h3
  have h5 : Canon s5 := canon_loadLines h3
  exact canonAct_ite trivial (canonAct_ite trivial (canonAct_ite (canonAct_ite h4 h4)
    (canonAct_ite (hnote h5) (canon_updWarp (canon_installAll h5)))))

theorem canon_handPass (h : Canon s) : Canon (handPass s k) := by
  unfold handPass
  split
  · exact canon_moveClock h
  · exact h

theorem canon_handStore {va : Nat} {bs : List Byte} (h : Canon s) : Canon (handStore s k key va bs) := by
  unfold handStore
  split
  · exact h
  · split
    · exact h
    · exact canon_ite (canon_handPass h) (canon_handPass h)

theorem canonAct_turnStore (h : Canon s) : CanonAct (turnStore o f s k w xs) := by
  unfold turnStore
  split
  · exact canonAct_memFault h
  · extract_lets z s1 s2
    have h2 : Canon s2 :=
      canon_foldl (canon_countPages (canon_dirtyAll h)) fun _ _ h => canon_ite (canon_handStore h) h
    exact canonAct_ite h2 h2

theorem canonAct_storeBody (h : Canon s) : CanonAct (storeBody o f s k w) := by
  unfold storeBody
  split
  split
  · exact canonAct_memFault h
  split
  · split
    · trivial
    · exact canonAct_ite trivial h
  · exact canonAct_ite (canonAct_turnStore h) h

theorem canon_confirmLoad (h : Canon s) : Canon (confirmLoad s k) := by
  unfold confirmLoad
  split
  · exact h
  · split
    · exact h
    · exact canon_ite (canon_ite h (canon_trapAt h)) (canon_updWarp (canon_foldl h fun _ _ h => canon_install h))

theorem canon_replyRemote (h : Canon s) : Canon (replyRemote s k) := by
  unfold replyRemote
  split
  · exact h
  · split
    · exact h
    · exact canon_ite h h

theorem canon_writeResult (h : Canon s) : Canon (writeResult s k) := by
  unfold writeResult
  split
  · exact h
  · split <;> exact h

/-! ## Branches, rejoin registers, parking and register grants (R83 to R88, R94, R95, R190) -/

theorem canonAct_brcBody (h : Canon s) : CanonAct (brcBody f s k w) := canonAct_ite h (canonAct_ite h h)

theorem canonAct_markBody (h : Canon s) : CanonAct (markBody f s k w) := canonAct_ite h h

theorem canonAct_joinBody (h : Canon s) : CanonAct (joinBody f s k w) := canonAct_ite h (canonAct_ite h h)

theorem canonAct_jmovToJBody (h : Canon s) : CanonAct (jmovToJBody f s k w) := by
  unfold jmovToJBody
  extract_lets
  split <;> exact canonAct_ite h h

theorem canon_parkWarp {what : ParkWhat} {en : Bool} (h : Canon s) : Canon (parkWarp s k w what len en) :=
  canon_refuseAll (canon_waitIn (canon_ite (canon_pubMark h) h))

theorem canon_grantClaims (h : Canon s) : Canon (grantClaims s key t n) := by
  induction n generalizing s with
  | zero => exact h
  | succ n ih =>
    unfold grantClaims
    split
    · exact h
    · split
      · exact h
      · split
        · split
          · exact canon_ite (ih (canon_wake (canon_setGroup h))) h
          · exact ih (canon_setGroup h)
        · exact ih (canon_setGroup h)

theorem canon_grantAll (h : Canon s) : Canon (grantAll s key t) := canon_grantClaims h

theorem canonAct_giveBody (h : Canon s) : CanonAct (giveBody f s k w) := canonAct_ite h (canon_grantAll h)

theorem canonAct_claimBody (h : Canon s) : CanonAct (claimBody f len s k w) := by
  unfold claimBody
  extract_lets
  split
  · trivial
  · exact canonAct_ite h (canonAct_ite h (canon_parkWarp h))

theorem canon_barStep (h : Canon s) : Canon (barStep s key t n) := by
  unfold barStep
  split
  · exact h
  split
  · exact h
  extract_lets ph s1
  refine canon_foldl h fun s e h => ?_
  split
  · exact h
  · split
    · exact canon_ite (canon_wake (canon_ite (canon_l1Clear h) h)) h
    · exact h

/-! ## Exit, repeats, traps and special registers (R34, R79, R80, R89 to R92, R98 to R102) -/

theorem canon_endWarp (h : Canon s) : Canon (endWarp s k w) := by
  unfold endWarp
  extract_lets m bad s1 s2 s3 s4 s5
  have h1 : Canon s1 := canon_ite (canon_pubMark h) h
  have h3 : Canon s3 := canon_grantAll (canon_updGroup h1)
  have h5 : Canon s5 := canon_endRun (canon_foldl h3 fun _ _ h => canon_barStep h)
  exact canon_ite (canon_endGroup h5) (canon_refuseAll h5)

theorem canonAct_exitBody (h : Canon s) : CanonAct (exitBody f s k w) := canonAct_ite (canon_endWarp h) h

theorem canonAct_repWith {count : Nat} (h : Canon s) : CanonAct (repWith f count s k w) := by
  unfold repWith
  split
  · extract_lets pip s1 s2
    have h2 : Canon s2 := canon_moveClock (canon_setWarp h)
    refine canonAct_ite h (?_ : Canon _)
    split
    · split <;> exact h2
    · exact h2
  · exact canon_fetchRefusal h
  · exact h
  · exact h

theorem canonAct_softTrap {cause kind : Nat} (h : Canon s) : CanonAct (softTrap cause kind s k w) := by
  have hset : CanonSettled (settle s k) := canon_settle h
  unfold softTrap
  split
  · trivial
  · exact h
  next heq =>
    rw [heq] at hset
    exact canon_drainAll hset

theorem canonAct_eretBody (h : Canon s) : CanonAct (eretBody f s k w) :=
  canonAct_ite trivial (canon_endRun (canon_drainAll (canon_setWarp h)))

theorem canonAct_srdBody (h : Canon s) : CanonAct (srdBody f s k w) := canonAct_ite h (canonAct_ite (canonAct_ite h h) h)

/-! ## Synchronising operations (R193, R196, R213 to R218) -/

theorem canon_homeWrite {hm : Home} {ov : KMap Byte} (h : Canon s) : Canon (homeWrite s k w hm ov) := by
  cases hm with
  | group => exact h
  | turn => exact canon_pubBytes h
  | free => exact canon_foldl h fun _ _ h => canon_freeWrite h

theorem canon_syncTouch {use : Use} (h : Canon s) : Canon (syncTouch o f use s k w xs) := by
  unfold syncTouch
  extract_lets z s1 s2 s3
  have h1 : Canon s1 := canon_ite (canon_installAll h) (canon_dirtyAll h)
  have h2 : Canon s2 := canon_ite h1 (canon_countPages h1)
  exact canon_turnPub (canon_sliceTouches (canon_sendAccess h2))

theorem canonAct_syncBody {use : Use} {window load : Bool} {eff : State → Nat → Warp → Home → List Acc → Act}
    (heff : ∀ {s w hm xs}, Canon s → CanonAct (eff s k w hm xs)) (h : Canon s) : CanonAct (syncBody o f use window load eff s k w) := by
  unfold syncBody
  split
  split
  · exact canonAct_memFault h
  split
  · split
    · trivial
    · exact canonAct_ite trivial (heff h)
  extract_lets s1 s2 bad s3
  have h1 : Canon s1 := canon_ite h (canon_serveCore h)
  have h2 : Canon s2 := canon_syncTouch h1
  have h3 : Canon s3 := canon_refuseAll h2
  refine canonAct_ite trivial (canonAct_ite (canonAct_ite h3 h3) ?_)
  split
  · trivial
  · exact heff h2

theorem canon_freeAcquire {acq : Bool} {hm : Home} (h : Canon s) : Canon (freeAcquire s k f acq hm) := canon_ite (canon_l1Clear h) h

theorem canonAct_atomEff {hm : Home} (h : Canon s) : CanonAct (atomEff f s k w hm xs) := canon_updWarp (canon_freeAcquire (canon_homeWrite h))

theorem canon_potLane {x : Acc} (h : Canon s) : Canon (potLane f s k x) := by
  unfold potLane
  split
  · exact h
  · extract_lets
    split
    · exact h
    · exact canon_ite (canon_handPass h) (canon_handPass h)

theorem canonAct_potEff {hm : Home} (h : Canon s) : CanonAct (potEff f s k w hm xs) := canon_updWarp (canon_homeWrite h)

theorem canonAct_potBody (h : Canon s) : CanonAct (potBody f s k w) := by
  unfold potBody
  split
  · exact canonAct_syncBody canonAct_potEff h
  split
  split
  · exact canonAct_memFault h
  · extract_lets z s1 s2
    have h2 : Canon s2 := canon_foldl (canon_countPages (canon_dirtyAll h)) fun _ _ h => canon_ite (canon_potLane h) h
    exact canonAct_ite h2 h2

theorem canonAct_readEff {acq : Bool} {hm : Home} (h : Canon s) : CanonAct (readEff o f acq s k w hm xs) :=
  canon_freeAcquire (canon_foldl h fun _ _ h => canon_updWarp h)

theorem canonAct_relEff {hm : Home} (h : Canon s) : CanonAct (relEff f s k w hm xs) := canon_homeWrite h

theorem canonAct_fenceBody {sc : Bool} (h : Canon s) : CanonAct (fenceBody f sc s k w) :=
  canonAct_ite (canon_turnPub h) (canon_ite (canon_l1Clear h) h)

/-! ## Barriers, tickets and passing (R219 to R224) -/

theorem canon_barArrive {cnt : Nat} (h : Canon s) : Canon (barArrive s k n cnt t) := canon_barStep h

theorem canonAct_barArrBody (h : Canon s) : CanonAct (barArrBody f s k w) := canon_barArrive (canon_updWarp h)

theorem canonAct_barPassed (h : Canon s) : CanonAct (barPassed f s k w) := canon_ite (canon_l1Clear h) h

theorem canonAct_barSyncBody (h : Canon s) : CanonAct (barSyncBody f len s k w) :=
  canonAct_ite (canon_parkWarp (canon_barArrive h)) (canonAct_barPassed (canon_barArrive h))

theorem canonAct_barWaitBody (h : Canon s) : CanonAct (barWaitBody f len s k w) := canonAct_ite (canon_parkWarp h) (canonAct_barPassed h)

theorem canon_tktEnter {base : Nat} (h : Canon s) : Canon (tktEnter s k w key base) := by
  unfold tktEnter
  extract_lets settled
  have hsettled {u : State} (hu : Canon u) : Canon (settled u) := canon_tktSettle hu
  split
  · exact h
  · exact canon_ite (hsettled h) (canon_ite (canon_ite (hsettled h) h) (hsettled h))

theorem canonAct_tktWaitEff {hm : Home} (h : Canon s) : CanonAct (tktWaitEff f s k w hm xs) := by
  unfold tktWaitEff
  split
  · extract_lets key base g want hit full s1 word i take s2 s3
    have h1 : Canon s1 := canon_tktEnter h
    have h3 : Canon s3 := canon_freeAcquire (canon_updWarp (canon_updCard h1))
    clear_value want i
    split
    · exact canon_updWarp h1
    split
    · exact h3
    split
    · exact canon_endRun (canon_moveClock (canon_updWarp h1))
    · trivial
  · trivial

theorem canon_tktStall {u : State} (h : Canon s) (hu : tktStall f s k w = some u) : Canon u := by
  unfold tktStall at hu
  split at hu
  · cases hu
  · split at hu
    · extract_lets key full s1 i at hu
      have h1 : Canon s1 := canon_tktEnter h
      split at hu
      · cases hu
      · exact Option.some.inj hu ▸ h1
    · cases hu

theorem canonAct_tktWaitBody (h : Canon s) : CanonAct (tktWaitBody f s k w) := by
  unfold tktWaitBody
  split
  next hu => exact canon_waitIn (canon_tktStall h hu)
  · exact canonAct_syncBody canonAct_tktWaitEff h

theorem canonAct_tktDoneEff {hm : Home} (h : Canon s) : CanonAct (tktDoneEff f s k w hm xs) := by
  unfold tktDoneEff
  split
  · exact canonAct_ite (canon_updWarp (canon_tktSettle (canon_updCard (canon_actWrite h)))) h
  · trivial

theorem canonAct_passBody (h : Canon s) : CanonAct (passBody f s k w) := canonAct_ite h h

theorem canonAct_passToBody (h : Canon s) : CanonAct (passToBody f s k w) := canonAct_ite h h

end

end Sys2Proof.Machine
end

section
/-! PROOF. Every step keeps memory in its canonical form: handles, save-point requests, the matrix engine, copies, `MIGR` and `FSHOOT`,
and so the own effect of every operation. -/

namespace Sys2Proof.Machine

section
variable {s : State} {k p c d n key clk len : Nat} {w : Warp} {t : Stamp} {o : Op} {f : Long} {xs : List Acc}

/-! ## Slots and finished cards (R287, R297, R378) -/

theorem canon_takeSlot {i serial : Nat} {card : Option Nat} (h : Canon s) : Canon (takeSlot s p serial i card).1 := canon_putSlot h

theorem canon_settleCard {e : Nat × Card} (h : Canon s) : Canon (settleCard s e) := by
  unfold settleCard
  extract_lets p
  split
  · exact canon_replayCheck h
  · exact h

theorem canon_moveOrigin {e : Nat × Card} (h : Canon s) : Canon (moveOrigin s e) := by
  unfold moveOrigin
  split
  · exact canon_ite h (canon_recordOrigin h)
  · exact h

theorem canon_moveOrigins {e : Nat × Card} (h : Canon s) : Canon (moveOrigins s d e) :=
  canon_ite (canon_foldl h fun _ _ h => canon_moveOrigin h) h

theorem canon_settleHandles (h : Canon s) : Canon (settleHandles s d) := by
  refine canon_foldl h fun s e h => ?_
  split
  · exact h
  · split
    · exact h
    · exact canon_ite (canon_settleCard (canon_moveOrigins h)) h

theorem canon_eraseCard {ck : Nat} (h : Canon s) : Canon { s with cards := kerase s.cards ck } := h

theorem canon_forgetCard {ck : Nat} (h : Canon s) : Canon (forgetCard s ck) := by
  unfold forgetCard
  split
  · exact h
  · exact canon_eraseCard (canon_ite h h)

theorem canon_reapCards (h : Canon s) : Canon (reapCards s d) := canon_foldl h fun _ _ h => canon_forgetCard h

/-! ## Creating acts (R311 to R313, R321, R326) -/

/-- The state that the reads of a handle instruction show has the form. -/
def CanonRead : HRead → Prop
  | .refused s _ => Canon s
  | .ok s _ => Canon s
  | _ => True

theorem CanonRead.ok {r : HRead} {vals : List Nat} (h : CanonRead r) (e : r = .ok s vals) : Canon s := by
  subst e
  exact h

theorem CanonRead.refused {r : HRead} {bad : List Denied} (h : CanonRead r) (e : r = .refused s bad) : Canon s := by
  subst e
  exact h

theorem canon_readAcq {as : List Int} (h : Canon s) : CanonRead (readAcq s k w n as) := by
  unfold readAcq
  extract_lets z sp
  split
  split
  · trivial
  extract_lets far s1 stall s2 s3 s4
  split
  · trivial
  have h1 : Canon s1 := canon_ite h (canon_serveCore h)
  have h2 : Canon s2 := canon_installAll h1
  have h3 : Canon s3 := canon_sliceTouches (canon_sendAccess (canon_ite h2 (canon_countPages h2)))
  have h4 : Canon s4 := canon_turnPub h3
  split
  · exact h4
  · exact canon_ite h4 (canon_l1Clear h4)

theorem canonAct_waitPassing (h : Canon s) : CanonAct (waitPassing s k w) :=
  canonAct_ite (canon_endRun (canon_moveClock (canon_updWarp h))) trivial

theorem canonAct_readRefused {bad : List Denied} (h : Canon s) : CanonAct (readRefused s k w bad) :=
  canonAct_ite (canon_refuseAll h) (canon_refuseAll h)

theorem canon_bumpCounts {gs : List Dword} (h : Canon s) : Canon (bumpCounts s p gs) := by
  refine canon_foldl h fun s g h => ?_
  split <;> exact h

theorem canon_lookFinal {hd : Dword} {x : Slot} {y : Created} (h : Canon s) : Canon (lookFinal s p hd x y) :=
  canon_ite h (canon_setChip (canon_sendFlits h))

theorem canon_place {dest : Dest} {gs : List Dword} {y : Created} (h : Canon s) : Canon (place s p t dest gs y) := by
  unfold place
  split
  · exact canon_sendCreated h
  · exact canon_sendCreated h
  split
  · exact h
  split
  · exact h
  split
  · exact canon_sendCreated (canon_lookFinal h)
  · exact canon_cascade (canon_lookFinal h)
  · exact canon_putSlot (canon_sendFlits h)

theorem canonAct_createBody {dest : Dest} (h : Canon s) : CanonAct (createBody o f dest s k w) := by
  unfold createBody
  extract_lets p dom t s0 mask
  have h0 : Canon s0 := canon_reapCards (canon_ite (canon_settleHandles h) h)
  split
  · exact canonAct_memFault h
  next heq => exact canonAct_readRefused ((canon_readAcq h0).refused heq)
  · trivial
  next s1 vals heq =>
    have h1 : Canon s1 := (canon_readAcq h0).ok heq
    extract_lets gs
    split
    · trivial
    split
    · exact h
    refine canonAct_ite h ?_
    split
    · exact canonAct_waitPassing h1
    · exact canon_updWarp (canon_place (canon_updCard (canon_bumpCounts (canon_setPart (canon_noteDealt (canon_takeSlot h1))))))

/-! ## The instructions on a handle (R308 to R310, R314, R315) -/

theorem canon_handleTurn (h : Canon s) : Canon (handleTurn s k w) := canon_turnPub (canon_ite (canon_settleHandles h) h)

theorem canonAct_fwaitBody (h : Canon s) : CanonAct (fwaitBody f len s k w) := by
  unfold fwaitBody
  extract_lets hd g
  split
  · exact h
  split
  · trivial
  · exact canonAct_ite (canon_parkWarp (canon_handleTurn h))
      (canon_ite (canon_setWarp (canon_handleTurn h)) (canon_l1Clear (canon_setWarp (canon_handleTurn h))))

theorem canonAct_fpollBody (h : Canon s) : CanonAct (fpollBody f s k w) := by
  unfold fpollBody
  extract_lets hd
  split
  · exact h
  · exact canon_updWarp (canon_ite (canon_handleTurn h) (canon_l1Clear (canon_handleTurn h)))

theorem canonAct_frefBody (h : Canon s) : CanonAct (frefBody f s k w) := by
  unfold frefBody
  extract_lets hd
  split
  · exact canonAct_ite h (canon_updCard (canon_putSlot (canon_handleTurn h)))
  · exact h

theorem canonAct_fdropBody (h : Canon s) : CanonAct (fdropBody f s k w) := by
  unfold fdropBody
  extract_lets hd p pin
  split
  · exact canonAct_ite h (canon_cascade (canon_ite (canon_setPart (canon_handleTurn h)) (canon_updCard (canon_handleTurn h))))
  · exact h

theorem canonAct_fpinBody (h : Canon s) : CanonAct (fpinBody f s k w) := by
  unfold fpinBody
  extract_lets hd p
  split
  · exact canonAct_ite h (canon_setPart (canon_putSlot (canon_handleTurn h)))
  · exact h

theorem canonAct_ownSlot {act : State → Nat → Slot → Dword → State} (hact : ∀ {s key x hd}, Canon s → Canon (act s key x hd))
    (h : Canon s) : CanonAct (ownSlot f s k w act) := by
  unfold ownSlot
  split
  · trivial
  split
  · split
    · exact canon_updWarp (hact h)
    · exact canon_updWarp (hact h)
    · exact canon_sweepCard (canon_stopWarp h)
    · exact h
  · exact h

theorem canonAct_fresValBody (h : Canon s) : CanonAct (fresValBody f s k w) := by
  unfold fresValBody
  extract_lets n
  split
  · exact canonAct_memFault h
  next heq => exact canonAct_readRefused ((canon_readAcq h).refused heq)
  · trivial
  next heq => exact canonAct_ownSlot canon_resolveSlot ((canon_readAcq h).ok heq)

theorem canonAct_fresPlaceBody (h : Canon s) : CanonAct (fresPlaceBody f s k w) := canonAct_ownSlot canon_resolveSlot (canon_handleTurn h)

theorem canonAct_fbreakBody (h : Canon s) : CanonAct (fbreakBody f s k w) := canonAct_ownSlot canon_cascade (canon_handleTurn h)

/-! ## Save points and digests (R353, R364 to R366) -/

theorem canon_requestSave {turn bySavept : Bool} {mark : Nat} {mbox : Option (Nat × Nat)} (h : Canon s) :
    Canon (requestSave s p turn mark bySavept mbox) := canon_foldl h fun _ _ h => canon_ite h h

theorem canonAct_saveptBody (h : Canon s) : CanonAct (saveptBody f s k w) := canon_updWarp (canon_requestSave (canon_turnPub h))

theorem canonAct_digestBody (h : Canon s) : CanonAct (digestBody f s k w) := canon_ite (canon_updCard (canon_turnPub h)) (canon_turnPub h)

theorem canonAct_seedBody (h : Canon s) : CanonAct (seedBody f s k w) := by
  unfold seedBody
  split
  · trivial
  · exact h

/-! ## The matrix engine (R243 to R261) -/

theorem canon_holdAcc (h : Canon s) : Canon (holdAcc s k) := canon_updCore h

theorem canon_operandReads (h : Canon s) : Canon (operandReads s k w f xs) := canon_bringLines (canon_sendAccess h)

theorem canonAct_mmaBody (h : Canon s) : CanonAct (mmaBody f len s k w) := by
  unfold mmaBody
  extract_lets rows s1 gs bad
  have h1 : Canon s1 := canon_holdAcc (canon_updWarp h)
  clear_value bad
  refine canonAct_ite (canon_updWarp h1) ?_
  split
  · exact h1
  split
  · trivial
  next g _ =>
    have h2 {keys : List Nat} : Canon (serveCore s1 k keys) := canon_serveCore h1
    refine canonAct_ite trivial (canonAct_ite trivial ?_)
    split
    · exact canonAct_ite (canon_refuseAll h2) (canon_refuseAll h2)
    · exact canonAct_memFault (canon_updWarp (canon_operandReads (canon_setGroup h2)))
    · exact canon_waitIn (canon_updWarp (canon_operandReads (canon_countPages (canon_installAll (canon_setGroup h2)))))

theorem canon_mmaRetire (h : Canon s) : Canon (mmaRetire s k) := by
  unfold mmaRetire
  split
  · exact h
  · split
    · exact canon_retire (canon_updWarp h)
    · exact h

theorem canonAct_accrdBody (h : Canon s) : CanonAct (accrdBody f s k w) := by
  unfold accrdBody
  extract_lets ls
  split
  · trivial
  · exact canonAct_ite trivial (canon_updWarp (canon_holdAcc h))

theorem canonAct_accwrBody (h : Canon s) : CanonAct (accwrBody f s k w) := by
  unfold accwrBody
  extract_lets ls
  split
  · trivial
  · exact canonAct_ite trivial (canon_holdAcc (canon_setGroup h))

theorem canonAct_acczBody (h : Canon s) : CanonAct (acczBody f s k w) := by
  unfold acczBody
  extract_lets rows cols
  split
  · trivial
  · exact canonAct_ite trivial (canon_holdAcc (canon_setGroup h))

/-! ## Copies (R229 to R241) -/

theorem canon_copyTouch {q : Tabs} {vs : List View} (h : Canon s) : Canon (copyTouch s q vs) := by
  refine canon_foldl h fun s v h => ?_
  split
  · exact canon_sliceTouches h
  · exact h

theorem canon_reportCopy {bad : Option Nat} {err : Nat} (h : Canon s) : Canon (reportCopy s p bad err) := canon_ite (canon_reportSecure h) h

theorem canon_updBuf {b : Nat} {g : Buf → Buf} (h : Canon s) : Canon (updBuf s k b g) := h

theorem canon_failBuf {b err : Nat} (h : Canon s) : Canon (failBuf s k b err) := h

theorem canon_startCopy {b : Nat} {y : Coll} {kind : CopyKind} (h : Canon s) : Canon (startCopy s k w b y kind) := by
  unfold startCopy
  split
  · exact h
  extract_lets p chip cmd fill x r m q go mk fail bad late
  have hgo {vs : List View} {cp : Copy} : Canon (go vs cp) := canon_updBuf (canon_copyTouch h)
  have hfail {e : Nat} : Canon (fail e) := canon_failBuf h
  have hlate {vs : List View} {e : Nat} : Canon (late vs e) := canon_failBuf (canon_reportCopy h)
  clear_value go fail late
  split
  all_goals
    refine canon_ite hfail ?_
    split
    on_goal 2 => exact hlate
  · exact hgo
  · exact hgo
  · exact hgo
  · exact canon_ite hgo hgo

theorem canon_startIter {cmd : CopyCmd} {first i : Nat} (h : Canon s) : Canon (startIter s k w cmd first i) := by
  unfold startIter
  split
  · exact h
  extract_lets p st b sa sb box q
  split
  · exact canon_failBuf (canon_reportCopy h)
  · exact canon_failBuf (canon_reportCopy h)
  · exact canon_updBuf (canon_copyTouch h)

theorem canon_startLoop {b : Nat} {cmd : CopyCmd} (h : Canon s) : Canon (startLoop s k w b cmd) := by
  unfold startLoop
  split
  · exact h
  extract_lets own opened
  have hopened : Canon opened := canon_updBuf h
  refine canon_ite h (canon_ite (canon_failBuf hopened) (canon_ite h (canon_ite (canon_failBuf hopened) ?_)))
  split
  · exact canon_foldl (canon_foldl h fun _ _ h => canon_updBuf h) fun _ _ h => canon_startIter h
  · exact canon_failBuf (canon_reportCopy hopened)

theorem canon_completeCopy {gk b : Nat} (h : Canon s) : Canon (completeCopy s gk b) := by
  unfold completeCopy
  split
  · exact h
  extract_lets x
  split
  · exact h
  exact canon_ite h (canon_ite (canon_pubBytes (canon_setGroup h)) (canon_foldl (canon_setGroup h) fun _ _ h => canon_freeWrite h))

theorem canon_copyAcquire (h : Canon s) : Canon (copyAcquire s k f w) := canon_ite (canon_l1Clear h) h

theorem canonAct_cpsliceBody (h : Canon s) : CanonAct (cpsliceBody f s k w) := by
  unfold cpsliceBody
  split
  · trivial
  extract_lets a c isBox
  split
  · exact h
  next b x share full put cmd record join next takes source s' _ _ =>
  have hput {u : State} {col : Coll} (hu : Canon u) : Canon (put u col) := canon_ite (canon_startCopy (canon_copyAcquire hu)) (canon_updBuf hu)
  have hs' : Canon s' := by
    clear_value join put
    unfold s'
    split
    · exact canon_ite (hput h) h
    · exact canon_ite (hput (canon_updBuf h)) h
  exact canonAct_ite trivial hs'

theorem canonAct_copyOneBody {kind : CopyKind} (h : Canon s) : CanonAct (copyOneBody kind f s k w) := by
  unfold copyOneBody
  split
  · trivial
  extract_lets a
  split
  · exact h
  next b cmd takes s1 s2 _ _ =>
  have h1 : Canon s1 := canon_ite (canon_copyAcquire h) h
  have h2 : Canon s2 := canon_ite (canon_startLoop h1) (canon_ite (canon_startCopy (canon_updBuf h1)) h1)
  exact canonAct_ite trivial h2

theorem canonAct_cpaccBody (h : Canon s) : CanonAct (cpaccBody f s k w) := by
  unfold cpaccBody
  extract_lets imm
  split
  · trivial
  · exact canonAct_ite trivial (canonAct_copyOneBody (canon_holdAcc h))

theorem canonAct_bfwaitBody (h : Canon s) : CanonAct (bfwaitBody f s k w) := by
  unfold bfwaitBody
  split
  · trivial
  · exact canonAct_ite h (canonAct_ite trivial (canon_endRun (canon_moveClock h)))

theorem canonAct_bfrelBody (h : Canon s) : CanonAct (bfrelBody f s k w) := by
  unfold bfrelBody
  split
  · trivial
  extract_lets b x
  split
  · exact canonAct_ite trivial (canon_startIter h)
  next s1 _ _ =>
  have h1 : Canon s1 := by
    unfold s1
    split <;> exact h
  exact canonAct_ite trivial h1

/-! ## Prefetch, cache control and invalidations (R168 to R170) -/

theorem canonAct_vprfBody (h : Canon s) : CanonAct (vprfBody f s k w) := by
  refine canon_bringLines (canon_foldl h fun s r h => ?_)
  split
  · exact canon_faultWalk h
  · exact canon_ite (canon_reportAt (canon_walkTouch h)) (canon_walkTouch h)

theorem canon_rangeWalks {z : Site} {ps : List (Nat × Nat)} (h : Canon s) : Canon (rangeWalks s z ps) :=
  canon_foldl h fun _ _ h => canon_walkTouch h

theorem canon_invRange {lo : Int} (h : Canon s) : Canon (invRange s k lo n) := canon_updCore (canon_rangeWalks h)

theorem canon_evictRange {lo : Int} (h : Canon s) : Canon (evictRange s k lo n) := canon_sliceDrop (canon_rangeWalks h)

theorem canonAct_tlbiBody {hit : Tlb → Bool} (h : Canon s) : CanonAct (tlbiBody hit s k) := canonAct_ite trivial (canon_dropTlb h)

/-! ## `MIGR` and `FSHOOT` (R341, R349, R350) -/

theorem canon_moveReports {sec : Bool} {old new size : Nat} (h : Canon s) : Canon (moveReports s sec old new size) :=
  canon_foldl h fun _ _ h => canon_reportAt h

theorem canon_l1Drop {hit : Nat → Bool} (h : Canon s) : Canon (l1Drop s hit) := h

theorem canon_movePageTo {sec : Bool} {y : Tlb} {old new idx pa : Nat} (h : Canon s) : Canon (movePageTo s p sec y old new idx pa) := by
  unfold movePageTo
  extract_lets c n e s1 inside s2 s3 s4 s5
  have h1 : Canon s1 := ⟨wf_wrBytes _ _ (wf_movePage _ _ _ _ h.1), h.2⟩
  have h2 : Canon s2 := canon_sliceDrop (canon_dropTlb h1)
  exact canon_setChip (canon_moveReports (canon_overlayTrim (canon_sliceTouch (canon_l1Drop h2))))

theorem canon_migr_ite {q : Prop} [Decidable q] {st : Dword} {r : Dword × State} (h : Canon s) (hr : Canon r.2) :
    Canon (if q then (st, s) else r).2 := by
  split
  · exact h
  · exact hr

theorem canon_migrMove {dst : Dword} {sec : Bool} {y : Tlb} (h : Canon s) : Canon (migrMove dst sec s p y).2 := by
  unfold migrMove
  extract_lets d idx pa c home old
  refine canon_migr_ite h (canon_migr_ite h (canon_migr_ite h (canon_migr_ite h ?_)))
  split
  · exact h
  · exact canon_movePageTo h

theorem canon_migrSet {v m : Dword} {y : Tlb} (h : Canon s) : Canon (migrSet v m s p y).2 := by
  unfold migrSet
  extract_lets e s1
  split
  · exact h
  · exact canon_dropTlb (canon_sliceTouch ⟨wf_wrBytes _ _ h.1, h.2⟩)

theorem migrBody_of_error {g : State → Nat → Tlb → Dword × State} {e : MErr} (h : migrXlat s (siteOf s k) w.sec (rdS w f.a.toNat) = .error e) :
    migrBody f g s k w = memFault s k [] e := by
  have hdef : migrBody = migrBody := rfl
  conv at hdef => rhs; delta migrBody
  rw [hdef]
  beta_reduce
  rw [h]

theorem migrBody_of_ok {g : State → Nat → Tlb → Dword × State} {y : Tlb} (h : migrXlat s (siteOf s k) w.sec (rdS w f.a.toNat) = .ok y) :
    migrBody f g s k w = .retire (updWarp (g (walkTouch s (siteOf s k) (rdS w f.a.toNat).toNat) (partOf k) y).2 k
      fun v => wrS v f.d.toNat (g (walkTouch s (siteOf s k) (rdS w f.a.toNat).toNat) (partOf k) y).1) .next none id := by
  have hdef : migrBody = migrBody := rfl
  conv at hdef => rhs; delta migrBody
  rw [hdef]
  beta_reduce
  rw [h]

theorem canonAct_migrBody {g : State → Nat → Tlb → Dword × State} {a : Act} (hg : ∀ {s p y}, Canon s → Canon (g s p y).2)
    (h : Canon s) (ha : migrBody f g s k w = a) : CanonAct a := by
  subst ha
  cases hx : migrXlat s (siteOf s k) w.sec (rdS w f.a.toNat) with
  | error e =>
    rw [migrBody_of_error hx]
    exact canonAct_memFault h
  | ok y =>
    rw [migrBody_of_ok hx]
    exact canon_updWarp (hg (canon_walkTouch h))

theorem canonAct_fshootBody {va : Option Nat} (h : Canon s) : CanonAct (fshootBody f len va s k w) := canon_waitIn (canon_updWarp h)

theorem canon_shootDone {left : List Nat} {dr : Nat} {en : Bool} (h : Canon s) : Canon (shootDone s k left dr len en) := by
  unfold shootDone
  extract_lets mask
  clear_value mask
  exact canon_retire (canon_updWarp h)

theorem canon_shootAt {ctx : Nat} {va : Option Nat} (h : Canon s) : Canon (shootAt s c ctx va) := by
  unfold shootAt
  extract_lets rs hit s1 ch s2
  have h2 : Canon s2 := canon_setChip (canon_dropTlb h)
  exact h2

theorem canon_shootAck (h : Canon s) : Canon (shootAck s k c) := by
  unfold shootAck
  split
  · exact h
  split
  · exact canon_ite h (canon_ite (canon_shootDone (canon_shootAt h)) (canon_updWarp (canon_shootAt h)))
  · exact h

theorem canon_shootTimeout (h : Canon s) : Canon (shootTimeout s k) := by
  unfold shootTimeout
  split
  · exact h
  split
  · exact canon_shootDone h
  · exact h

theorem canon_markerArrives {page : Nat} (h : Canon s) : Canon (markerArrives s c page) := canon_ite h h

/-! ## The own effect of every operation -/

theorem canonAct_bodyOf (h : Canon s) : CanonAct (bodyOf o f len s k w) := by
  generalize ha : bodyOf o f len s k w = a
  cases o
  case migrMove =>
    unfold bodyOf migrMoveBody at ha
    exact canonAct_migrBody canon_migrMove h ha
  case migrSet =>
    unfold bodyOf migrSetBody at ha
    exact canonAct_migrBody canon_migrSet h ha
  case migrQuery =>
    unfold bodyOf migrQueryBody at ha
    exact canonAct_migrBody (fun h => h) h ha
  all_goals
    subst ha
    unfold bodyOf
  case brc => exact canonAct_brcBody (k := k) h
  case mark => exact canonAct_markBody h
  case join => exact canonAct_joinBody h
  case exit => exact canonAct_exitBody h
  case rep | repReg => exact canonAct_repWith h
  case trap | bpt => exact canonAct_softTrap h
  case eret => exact canonAct_eretBody h
  case srd => exact canonAct_srdBody h
  case give => exact canonAct_giveBody h
  case claim => exact canonAct_claimBody h
  case jmovToJ => exact canonAct_jmovToJBody h
  case vld | vlds | sld => exact canonAct_loadBody h
  case vst | vsts | sst => exact canonAct_storeBody h
  case vprf => exact canonAct_vprfBody h
  case cctlInv => exact canon_invRange h
  case cctlInvall => exact canon_l1Clear h
  case cctlEvict => exact canon_evictRange h
  case tlbiVa | tlbiCtx | tlbiAll => exact canonAct_tlbiBody h
  case atom => exact canonAct_syncBody canonAct_atomEff h
  case pot => exact canonAct_potBody h
  case acq | turn => exact canonAct_syncBody canonAct_readEff h
  case rel => exact canonAct_syncBody canonAct_relEff h
  case fenceRel | fenceSc => exact canonAct_fenceBody h
  case barArr => exact canonAct_barArrBody h
  case barWait => exact canonAct_barWaitBody h
  case barSync => exact canonAct_barSyncBody h
  case tktWait => exact canonAct_tktWaitBody h
  case tktDone => exact canonAct_syncBody canonAct_tktDoneEff h
  case pass => exact canonAct_passBody h
  case passTo => exact canonAct_passToBody h
  case fshootVa | fshootCtx => exact canonAct_fshootBody h
  case mma => exact canonAct_mmaBody h
  case accrd => exact canonAct_accrdBody h
  case accwr => exact canonAct_accwrBody h
  case accz => exact canonAct_acczBody h
  case cpslice => exact canonAct_cpsliceBody h
  case cploop | cpchain => exact canonAct_copyOneBody h
  case cpacc => exact canonAct_cpaccBody h
  case bfwait => exact canonAct_bfwaitBody h
  case bfrel => exact canonAct_bfrelBody h
  case spawn | invoke | invokeh => exact canonAct_createBody h
  case fwait => exact canonAct_fwaitBody h
  case fpoll => exact canonAct_fpollBody h
  case fref => exact canonAct_frefBody h
  case fdrop => exact canonAct_fdropBody h
  case fpin => exact canonAct_fpinBody h
  case fresVal => exact canonAct_fresValBody h
  case fresPlace => exact canonAct_fresPlaceBody h
  case fbreak => exact canonAct_fbreakBody h
  case savept => exact canonAct_saveptBody h
  case digest => exact canonAct_digestBody h
  case seed => exact canonAct_seedBody h
  all_goals exact h

end

end Sys2Proof.Machine
end

section
/-! PROOF. Every step keeps memory in its canonical form: mailboxes, the dealer and save points. -/

namespace Sys2Proof.Machine

section
variable {s : State} {p c d n box base k : Nat} {e : Entry}

/-! ## Mailboxes (R281, R282) -/

theorem canon_recognise {mask : Nat} {b : List Byte} (h : Canon s) : Canon (recognise s p box mask b) := by
  unfold recognise
  extract_lets
  exact canon_setMbox h

/-- What recognition does once it knows whether the chunk at the cursor has been written. -/
def recogniseNext (p box n : Nat) (s : State) (first : Option (List Byte)) : State :=
  match first with
  | none => s
  | some b0 =>
    match chunkBytes (getMbox s p box) (entryChunks (leNat (b0.take 2))) with
    | none => s
    | some b => recogniseAll p box n (recognise s p box (leNat (b0.take 2)) b)

theorem recogniseAll_zero : recogniseAll p box 0 s = s := rfl

theorem recogniseAll_succ : recogniseAll p box (n + 1) s = recogniseNext p box n s (chunkBytes (getMbox s p box) 1) := by
  rfl

theorem canon_recogniseAll (h : Canon s) : Canon (recogniseAll p box n s) := by
  induction n generalizing s with
  | zero => rwa [recogniseAll_zero]
  | succ n ih =>
    rw [recogniseAll_succ]
    unfold recogniseNext
    split
    · exact h
    · split
      · exact h
      · exact ih (canon_recognise h)

theorem canon_windowWrite {off : Nat} {b : List Byte} (h : Canon s) : Canon (windowWrite s p box off b) :=
  canon_ite h (canon_recogniseAll (canon_setMbox h))

/-! ## Admission (R285 to R293, R297, R378) -/

theorem canon_headerSeen {va : Dword} (h : Canon s) : Canon (headerSeen s p va) := by
  unfold headerSeen
  refine canon_ite h ?_
  extract_lets r s1
  have h1 : Canon s1 := canon_walkTouch h
  clear_value r
  split
  · exact canon_reportSecure h1
  · split
    · exact canon_sliceTouch h1
    · exact canon_ite (canon_reportAt h1) h1

theorem canon_admitRecord {origin typ status code serial : Nat} {later : Bool} (h : Canon s) :
    Canon (admitRecord s p origin base typ box n status code serial later) := by
  unfold admitRecord
  split
  · exact h
  · exact canon_replayCheck (canon_dealerWrite h)

theorem canon_doneRecord {addr status cause kind origin fin digest : Nat} (h : Canon s) :
    Canon (doneRecord s p box n addr status cause kind origin fin digest) := by
  unfold doneRecord
  extract_lets a b s1
  have h1 : Canon s1 := canon_ite h ⟨h.1, wf_wrBytes _ _ h.2⟩
  exact canon_ite (canon_signal h1) h1

theorem canon_setDone {fin : Nat} (h : Canon s) : Canon (setDone s p box n base fin) := h

theorem canon_popFifo (h : Canon s) : Canon (popFifo s p box) := h

theorem canon_admitNow {status code : Nat} (h : Canon s) : Canon (admitNow s p box base e status code) :=
  canon_setDone (canon_doneRecord (canon_admitRecord (canon_popFifo h)))

theorem canon_seedEntry {typ : Nat} {v : Dword} (h : Canon s) : Canon (seedEntry s p typ v) := canon_ite h h

theorem canon_settleSeeds (h : Canon s) : Canon (settleSeeds s p base) := canon_ite h h

theorem canon_setCard {c : Card} (h : Canon s) : Canon (setCard s k c) := h

theorem canon_admitCard {x : Shape} {entry : Dword} (h : Canon s) : Canon (admitCard s p box base e x entry) := by
  unfold admitCard
  extract_lets turn pt f serial ck o s0
  refine canon_ite h ?_
  clear_value turn
  split
  · exact h
  next i _ =>
    have htake : Canon (if turn = true then (s, 0) else takeSlot s p serial i (some ck)).1 := by
      split
      · exact h
      · exact canon_takeSlot h
    split
    next s1 hd heq =>
    rw [heq] at htake
    have hrec {m : Mbox} {q : Part} {x : Card} {o typ status code serial : Nat} {later : Bool} :
        Canon (admitRecord (setCard (setMbox (setPart (popFifo s1 p box) p q) p box m) ck x) p o base typ box e.n status code serial later) :=
      canon_admitRecord (canon_setCard (canon_setMbox (canon_setPart (canon_popFifo htake))))
    exact canon_ite (canon_settleHandles hrec) hrec

theorem canon_admitEntry (h : Canon s) : Canon (admitEntry s p box base e) := by
  unfold admitEntry
  extract_lets f t
  split
  · exact canon_admitNow (canon_ite h (canon_headerSeen h))
  · exact canon_admitCard (canon_headerSeen h)
  clear_value t
  split
  · exact canon_admitRecord (canon_setMbox (canon_popFifo h))
  · exact canon_admitRecord (canon_setMbox (canon_popFifo h))
  · exact canon_setMbox (canon_admitNow h)
  · exact canon_admitNow (canon_seedEntry (canon_settleSeeds h))

theorem canon_admission (h : Canon s) : Canon (admission s p) := by
  unfold admission
  split
  · exact h
  extract_lets s0
  refine canon_ite h ?_
  split
  · exact h
  · exact canon_ite (canon_admitEntry (canon_noteDealt (canon_reapCards h))) h

/-! ## Fences, completion, arrivals and parked domains (R39, R291, R294, R298, R323) -/

theorem canon_fenceCompletion (h : Canon s) : Canon (fenceCompletion s p box) := by
  unfold fenceCompletion
  extract_lets m
  split
  · exact canon_ite (canon_ite (canon_requestSave (canon_setClock (canon_setMbox h))) (canon_setClock (canon_setMbox h))) h
  · exact h

theorem canon_cardRecord {x : Current} {ck : Nat} (h : Canon s) : Canon (cardRecord s p box x ck) := by
  unfold cardRecord
  split
  · exact h
  · refine canon_ite h ?_
    extract_lets
    split
    exact canon_setDone (canon_forgetCard (canon_cascade (canon_doneRecord h)))

theorem canon_completionRecord (h : Canon s) : Canon (completionRecord s p box) := by
  unfold completionRecord
  extract_lets m
  split
  · split
    · exact canon_cardRecord h
    · split
      · exact h
      · refine canon_ite (canon_ite (canon_setDone (canon_doneRecord h)) h) ?_
        split
        · exact h
        · exact canon_setDone (canon_doneRecord h)
  · exact h

theorem canon_invocationArrival (h : Canon s) : Canon (invocationArrival s p) := by
  unfold invocationArrival
  split
  · exact h
  split
  · exact h
  next x _ y _ =>
  extract_lets s0 s1
  have h1 : Canon s1 := canon_headerSeen h
  clear_value s1
  split
  · exact canon_cascade h1
  · split
    all_goals
      extract_lets
      split
      · exact canon_putSlot h1
      · exact h1

theorem canon_saveExhausted {ck : Nat} (h : Canon s) : Canon (saveExhausted s ck) := by
  unfold saveExhausted
  split
  · exact canon_ite h h
  · exact h

theorem canon_endParked (h : Canon s) : Canon (endParked s p) := by
  unfold endParked
  extract_lets d turn
  refine canon_ite ?_ h
  have hset {l : List (Stamp × Nat)} : Canon (l.foldl (fun s x => setStop s x.2 { stamp := x.1, cause := 0x10, kind := 0, status := 2 }) s) :=
    canon_foldl h fun _ _ h => h
  exact canon_foldl (canon_foldl hset fun _ _ h => canon_foldl h fun _ _ h => canon_stopWarp h) fun _ _ h => canon_finishStop h

/-! ## Save points and restore (R353 to R359) -/

theorem canon_beginCapture (h : Canon s) : Canon (beginCapture s p) := by
  unfold beginCapture
  extract_lets pt d
  split
  · exact h
  split
  · exact h
  · exact canon_ite h (canon_setPart h)

theorem canon_clearDirty {u : Nat} {left : List Nat} (h : Canon s) : Canon (clearDirty s p u left) := by
  unfold clearDirty
  split
  · exact h
  · exact canon_dropTlb (canon_foldl (canon_foldl h fun _ _ h => canon_reportAt h) fun _ _ h => canon_sliceTouch ⟨wf_wrBytes _ _ h.1, h.2⟩)

theorem canon_reportUnit {u : Nat} (h : Canon s) : Canon (reportUnit s p u) := by
  unfold reportUnit
  refine canon_ite h ?_
  split
  · exact canon_reportAt h
  · exact h

theorem canon_copyUnit {u : Nat} (h : Canon s) : Canon (copyUnit s p u) := by
  unfold copyUnit
  extract_lets pt
  split
  · exact h
  · exact canon_ite h (canon_clearDirty (canon_reportUnit (canon_setPart h)))

theorem canon_writeManifest (h : Canon s) : Canon (writeManifest s p) := by
  unfold writeManifest
  extract_lets pt
  split
  · exact canon_ite h (canon_setPart h)
  · exact h

theorem canon_drainUnit (h : Canon s) : Canon (drainUnit s p) := by
  unfold drainUnit
  extract_lets pt
  split
  · exact canon_ite h (canon_setPart (canon_ite (canon_sendFlits h) ⟨h.1, wf_wrBytes _ _ h.2⟩))
  · exact h

theorem canon_abandonCapture (h : Canon s) : Canon (abandonCapture s p) := by
  unfold abandonCapture
  extract_lets pt
  split
  · exact h
  · exact canon_setPart h

theorem canon_restoreGens {gens : KMap Nat} (h : Canon s) : Canon (restoreGens s p gens) :=
  canon_foldl h fun _ _ h => canon_ite (canon_putSlot h) h

/-- The image of a save point, written over the bytes that stay, keeps the form. -/
theorem wf_restoredMem {m img : Memory} {stay take : Nat × Byte → Bool} {key : Nat × Byte → Nat} (h : m.wf = true) :
    Memory.wf ((img.filter take).foldl (fun m e => wrByte m (key e) e.2) (m.filter stay)) = true :=
  wf_foldl (fun _ e h => wf_wrByte _ e.2 h) _ (wf_filter _ h)

theorem canon_restoreTo {y : SavePoint} (h : Canon s) : Canon (restoreTo s p y) := by
  unfold restoreTo
  extract_lets s1 s2 keep mem pubs s3 pt s4
  have h2 : Canon s2 := by
    unfold s2
    split
    · exact canon_reportAt (canon_setPart h)
    · exact canon_setPart h
  have h3 : Canon s3 := canon_restoreGens ⟨wf_restoredMem h2.1, h2.2⟩
  exact canon_foldl (canon_setPart h3) fun _ _ h => canon_setMbox h

end

end Sys2Proof.Machine
end

section
/-! PROOF. Every step keeps memory in its canonical form: placement and pre-emption, the issue slots, and grants of turns. -/

namespace Sys2Proof.Machine

section
variable {s : State} {p c d n k gk ck slot : Nat} {w : Warp}

/-! ## Starting, returning and saving a group (R32, R33, R103, R295 to R300) -/

theorem canon_markRunning {hd : Dword} (h : Canon s) : Canon (markRunning s p hd) := by
  unfold markRunning
  split
  · exact canon_ite (canon_putSlot h) h
  · exact h

theorem canon_clearIcache (h : Canon s) : Canon (clearIcache s c n) := canon_setChip h

theorem canon_startGroup {x : Card} {y : Ctx} (h : Canon s) : Canon (startGroup s ck x y n) :=
  canon_markRunning (canon_setPart (canon_setCard (canon_foldl (canon_clearIcache h) fun _ _ h => canon_setWarp h)))

theorem canon_freshL1 (h : Canon s) : Canon (freshL1 s p c n) := by
  unfold freshL1
  split
  · exact canon_ite h (canon_setChip h)
  · exact h

theorem canon_replace (h : Canon s) : Canon (replace s gk c n) :=
  canon_foldl (canon_freshL1 (canon_clearIcache (canon_updGroup h))) fun _ _ h => canon_updWarp h

theorem canon_placeOn {x : Work} (h : Canon s) : Canon (placeOn s p x n) := by
  unfold placeOn
  split
  · exact canon_replace h
  · split
    · exact canon_startGroup h
    · exact h

theorem canon_placeNext (h : Canon s) : Canon (placeNext s p) := by
  unfold placeNext
  split
  · exact canon_placeOn h
  · exact h

theorem canon_writeAll (h : Canon s) : Canon (writeAll s k n) := by
  induction n generalizing s with
  | zero => exact h
  | succ n ih =>
    unfold writeAll
    split
    · exact h
    · exact canon_ite (ih (canon_writeResult h)) h

theorem canon_confirmOk (h : Canon s) : Canon (confirmOk s k n) := by
  induction n generalizing s with
  | zero => exact h
  | succ n ih =>
    unfold confirmOk
    split
    · exact h
    · split
      · exact h
      · exact canon_ite h (ih (canon_confirmLoad h))

theorem canon_readyWarp (h : Canon s) : Canon (readyWarp s k) := by
  unfold readyWarp
  split
  · exact h
  · exact canon_freeSlot (canon_updWarp (canon_drainAll (canon_writeAll (canon_confirmOk h))))

theorem canon_writeSlot {g : Group} (h : Canon s) : Canon (writeSlot s gk g) := by
  unfold writeSlot
  split
  · refine canon_ite h ?_
    split
    · exact canon_reportAt h
    · exact canon_sliceTouches ⟨wf_wrSpan _ _ _ h.1, h.2⟩
  · exact h

theorem canon_saveGroup (h : Canon s) : Canon (saveGroup s gk) := by
  unfold saveGroup
  split
  · exact h
  extract_lets ws s1 s2
  have h1 : Canon s1 := canon_foldl h fun _ _ h => canon_readyWarp h
  refine canon_writeSlot (canon_updGroup (s := s2) ?_)
  clear_value s1
  unfold s2
  split
  · exact h1
  · exact canon_setChip h1

theorem canon_honourPre (h : Canon s) : Canon (honourPre s c) := canon_foldl h fun _ _ h => canon_saveGroup h

theorem canon_askCores {ns : List Nat} {a : Ask} (h : Canon s) : Canon (askCores s c ns a) :=
  canon_foldl h fun _ _ h => canon_foldl h fun _ _ h => h

theorem canon_vacate {ns : List Nat} {a : Ask} (h : Canon s) : Canon (vacate s c ns a) := canon_honourPre (canon_askCores h)

theorem canon_placeMany {ns : List Nat} (h : Canon s) : Canon (placeMany s p ns) := canon_foldl h fun _ _ h => canon_placeNext h

theorem canon_spatial {ns : List Nat} (h : Canon s) : Canon (spatial s c ns) := by
  unfold spatial
  split
  · exact h
  next p a x _ =>
  extract_lets s1
  have h1 : Canon s1 := canon_vacate h
  split
  · exact canon_ite (canon_placeOn (canon_updCard h1)) (canon_updCard h1)
  · exact canon_ite (canon_placeOn h1) h1
  · exact canon_placeMany h1

theorem canon_waitExpiry (h : Canon s) : Canon (waitExpiry s ck) := by
  unfold waitExpiry
  extract_lets p
  split
  · exact h
  · exact canon_placeMany (canon_vacate h)

theorem canon_systemPreempt {ns : List Nat} (h : Canon s) : Canon (systemPreempt s c ns) :=
  canon_foldl (canon_vacate h) fun _ _ h => canon_placeMany h

theorem canon_settleTurn (h : Canon s) : Canon (settleTurn s p) := by
  unfold settleTurn
  split
  · exact canon_ite (canon_settleHandles h) h
  · exact h

theorem canon_placement (h : Canon s) : Canon (placement s p) := canon_placeNext (canon_honourPre (canon_settleTurn h))

/-! ## Arbitration (R72, R77, R78, R37) -/

theorem canon_issueBody {o : Op} {f : Long} {len : Nat} (h : Canon s) : Canon (issueAt o f len (bodyOf o f len) s k w) :=
  canon_issueAt canonAct_bodyOf h

theorem canon_tried (h : Canon s) : Canon (tried s k w slot) := by
  unfold tried
  extract_lets w1 s1
  have h1 : Canon s1 := canon_setWarp h
  split
  · exact canon_issueBody (canon_fillFrom h1)
  · exact h1

theorem canon_refresh (h : Canon s) : Canon (refresh slot s k) := by
  unfold refresh
  split
  · exact h
  · exact canon_ite (canon_tried h) (canon_ite (canon_setWarp h) h)

theorem canon_stopFree {e : Nat × Warp} (h : Canon s) : Canon (stopFree s e) := canon_sweepCard (canon_stopWarp h)

theorem canon_fillSlot (h : Canon s) : Canon (fillSlot s c n) := by
  unfold fillSlot
  split
  · exact h
  extract_lets s1 co win lost
  have h1 : Canon s1 := canon_foldl h fun _ _ h => canon_refresh h
  clear_value s1 win
  split
  · exact canon_setChip h1
  · exact canon_updWarp h1

theorem canon_arbitrate (h : Canon s) : Canon (arbitrate s c n) :=
  canon_foldl (canon_foldl h fun _ _ h => canon_stopFree h) fun _ _ h => canon_fillSlot h

/-! ## The debugger, gates, turns, merges and replies (R103, R104, R185, R186, R193, R195, R336) -/

theorem canon_debugHalt (h : Canon s) : Canon (debugHalt s k) := by
  unfold debugHalt
  split
  · exact h
  · exact canon_ite h (canon_ite (canon_freeSlot (canon_updWarp h)) (canon_updWarp h))

theorem canon_debugResume (h : Canon s) : Canon (debugResume s k) := by
  unfold debugResume
  split
  · exact h
  · exact canon_ite (canon_honourPre (canon_updWarp h)) h

theorem canon_gateOpen (h : Canon s) : Canon (gateOpen s k) := by
  unfold gateOpen
  split
  · exact h
  · split
    · exact canon_ite (canon_updWarp h) h
    · exact h

theorem canon_finishDying (h : Canon s) : Canon (finishDying s k w) := by
  unfold finishDying
  split
  · exact canon_sweepCard (canon_stopWarp (canon_stopCard h))
  · exact h

theorem canon_domainGrant (h : Canon s) : Canon (domainGrant s p) := by
  unfold domainGrant
  extract_lets d
  split
  · exact canon_tktTouched h
  split
  · exact canon_cardEndTurn h
  split
  · exact canon_stopCard h
  split
  · exact canon_tktGroupEnd h
  split
  · split
    · exact canon_updWarp h
    · exact canon_finishDying h
  · exact h

theorem canon_groupGrant (h : Canon s) : Canon (groupGrant s gk) := by
  unfold groupGrant
  split
  · exact canon_updWarp h
  · exact h

theorem canon_mergePubs (h : Canon s) : Canon (mergePubs s p) := ⟨wf_foldl (fun _ x h => wf_applyPub x h) _ h.1, h.2⟩

theorem canon_postedPerform (h : Canon s) : Canon (postedPerform s k) := by
  unfold postedPerform
  split
  · exact h
  · exact canon_ite (canon_performPosted h) h

theorem canon_keepReplica {x : Nat} {e : RSrc} (h : Canon s) : Canon (keepReplica s c x e) := by
  unfold keepReplica
  split <;> exact h

theorem canon_remoteReply (h : Canon s) : Canon (remoteReply s k) := by
  unfold remoteReply
  split
  · exact h
  · split
    · exact h
    · exact canon_replyRemote (canon_foldl h fun _ _ h => canon_keepReplica h)

theorem canon_walkDone {va : Nat} (h : Canon s) : Canon (walkDone s c p va) := canon_ite (canon_install h) h

end

end Sys2Proof.Machine
end

section
/-! PROOF. Every step keeps memory in its canonical form: the host interface, reliability and links. -/

namespace Sys2Proof.Machine

section
variable {s : State} {p c d n k ck die slice : Nat} {arg : Nat → Nat}

/-! ## Command interfaces (R370) -/

theorem canon_partCmd {op : Nat} {eff : (Nat → Nat) → State → CmdOut} (heff : ∀ {arg s}, Canon s → Canon (eff arg s).s) (h : Canon s) :
    Canon (partCmd s p op eff) := canon_ite h (canon_setPart (heff h))

theorem canon_sysCmd {op : Nat} {eff : (Nat → Nat) → State → CmdOut} (heff : ∀ {arg s}, Canon s → Canon (eff arg s).s) (h : Canon s) :
    Canon (sysCmd s c op eff) := canon_ite h (canon_setChip (heff h))

theorem canon_cmd_ite {q : Prop} [Decidable q] {a b : CmdOut} (ha : Canon a.s) (hb : Canon b.s) : Canon (if q then a else b).s := by
  split <;> assumption

theorem canon_invalDone (h : Canon s) : Canon (invalDone s p) := by
  unfold invalDone
  split
  · exact canon_dropTlb h
  · exact h

theorem canon_commandDone {iface : Option Nat} (h : Canon s) : Canon (commandDone s c iface) := by
  cases iface with
  | some i => exact canon_ite h (canon_ite (canon_setPart (canon_invalDone h)) (canon_invalDone h))
  | none => exact canon_ite (canon_setChip h) h

theorem canon_invalidCmd {iface : Option Nat} {op : Nat} (h : Canon s) : Canon (invalidCmd s c iface op) := by
  unfold invalidCmd
  refine canon_ite h ?_
  split
  · exact canon_partCmd (fun h => h) h
  · exact canon_sysCmd (fun h => h) h

/-! ## Contexts (R280, R373) -/

theorem canon_engineRead {sec : Bool} {pa : Nat} (h : Canon s) : Canon (engineRead s p sec pa n).2 := by
  unfold engineRead
  extract_lets c
  split
  · exact h
  · split
    · exact canon_reportAt h
    · exact canon_sliceTouches h

theorem canon_descRead {sec : Bool} {pa : Nat} (h : Canon s) : Canon (descRead s p sec pa).2 := by
  unfold descRead
  split
  · exact h
  · exact canon_engineRead h

theorem canon_createContext {monitor : Bool} (h : Canon s) : Canon (createContext s p monitor arg).s := by
  unfold createContext
  extract_lets pt sec seen
  have hseen : Canon seen := canon_descRead h
  refine canon_cmd_ite h ?_
  split
  · exact hseen
  · exact canon_cmd_ite hseen (canon_setPart hseen)

theorem canon_dropPartTlb (h : Canon s) : Canon (dropPartTlb s p) := canon_setChip h

theorem canon_resetPart (h : Canon s) : Canon (resetPart s p) := by
  unfold resetPart
  extract_lets d c s1 gs s2 out alone own s3 pt
  have h2 : Canon s2 := by
    refine canon_foldl (canon_dropPartTlb h) fun s e h => ?_
    split
    · exact h
    · exact canon_setChip h
  clear_value s2
  have h3 : Canon s3 := by
    refine ⟨?_, h2.2⟩
    show Memory.wf (if alone then own.foldl applyPub s2.mem else s2.mem) = true
    split
    · exact wf_foldl (fun _ x h => wf_applyPub x h) _ h2.1
    · exact h2.1
  exact canon_setPart h3

/-! ## Commands (R358, R359, R371) -/

theorem canon_invalidateCmd (h : Canon s) : Canon (invalidateCmd p arg s).s := canon_cmd_ite h h

theorem canon_faultQueueCmd (h : Canon s) : Canon (faultQueueCmd p arg s).s := canon_cmd_ite h h

theorem canon_drainTargetCmd (h : Canon s) : Canon (drainTargetCmd p arg s).s := canon_cmd_ite h h

theorem canon_restoreCmd (h : Canon s) : Canon (restoreCmd p arg s).s := by
  unfold restoreCmd
  have hread : Canon (if arg 1 = 0 then (false, s) else engineRead s p (ctxSec s p) (arg 0) (8 * arg 1)).2 := by
    split
    · exact h
    · exact canon_engineRead h
  split
  next ok s1 heq =>
  rw [heq] at hread
  refine canon_cmd_ite hread ?_
  split
  · exact canon_setPart hread
  · exact canon_restoreTo hread
  · exact hread

theorem canon_replayCmd (h : Canon s) : Canon (replayCmd p arg s).s := by
  unfold replayCmd
  have hread : Canon (if arg 1 = 0 then (true, s) else engineRead s p (ctxSec s p) (arg 0) (32 * arg 1)).2 := by
    split
    · exact h
    · exact canon_engineRead h
  split
  next ok s1 heq =>
  rw [heq] at hread
  exact canon_cmd_ite (canon_setPart hread) hread

theorem canon_readHashCmd (h : Canon s) : Canon (readHashCmd p arg s).s := canon_cmd_ite h h

theorem canon_logError {r : ErrRec} (h : Canon s) : Canon (logError s c r) := by
  unfold logError
  extract_lets ch s1
  split
  · exact canon_signal (canon_setChip h)
  · exact canon_setChip h

theorem canon_checkRetire {time : Option Nat} (h : Canon s) : Canon (checkRetire s c die slice time) :=
  canon_ite h (canon_ite (canon_logError h) (canon_setChip h))

theorem canon_sliceCmd (h : Canon s) : Canon (sliceCmd p arg s).s :=
  canon_cmd_ite h (canon_ite (canon_ite (canon_setChip h) (canon_checkRetire (canon_setChip h))) h)

theorem canon_errorLogCmd (h : Canon s) : Canon (errorLogCmd p s).s := by
  unfold errorLogCmd
  extract_lets ch
  split
  · exact h
  · exact canon_setChip h

theorem canon_partitionMapCmd (h : Canon s) : Canon (partitionMapCmd c arg s).s := canon_cmd_ite h (canon_cmd_ite h (canon_setChip h))

theorem canon_fabricCmd (h : Canon s) : Canon (fabricCmd c arg s).s := by
  unfold fabricCmd
  extract_lets ch v wr
  split
  · exact canon_setChip h
  · exact canon_cmd_ite h (canon_failover (canon_setChip h))

/-! ## Registers, window B and device reset (R4, R368, R372, R373) -/

theorem canon_updIf {iface : Option Nat} {g : CmdIf → CmdIf} (h : Canon s) : Canon (updIf s c iface g) := by
  unfold updIf
  split
  · exact canon_setPart h
  · exact canon_setChip h

theorem canon_registerWrite {reg : HostReg} {v : Dword} (h : Canon s) : Canon (registerWrite s c reg v) := by
  cases reg with
  | arg iface i => exact canon_ite (canon_updIf h) h
  | stat iface => exact canon_updIf h
  | fqHead i => exact canon_setPart h
  | region i => exact canon_ite (canon_setChip h) h
  | barSize n => exact canon_ite (canon_setChip h) h
  | reserved n => exact h

theorem canon_tailWrite {v : Dword} (h : Canon s) : Canon (tailWrite s p v) := canon_ite (canon_setPart h) h

theorem canon_windowBAccess {vf : Option Nat} {off len : Nat} {data : Option (List Byte)} (h : Canon s) :
    Canon (windowBAccess s c vf off len data) := by
  unfold windowBAccess
  extract_lets as s1 s2
  have h1 : Canon s1 := by
    unfold s1
    split
    · exact canon_reportAt h
    · exact h
  have h2 : Canon s2 := canon_sliceTouches h1
  clear_value s1 s2
  split
  · exact canon_sliceTouches h1
  · refine ⟨wf_foldl (fun m e h => ?_) _ h2.1, h2.2⟩
    split
    · split
      · exact h
      · exact wf_wrByte _ _ h
    · exact h

theorem canon_deviceReset (h : Canon s) : Canon (deviceReset s c) := by
  unfold deviceReset
  extract_lets ps s1 away s2 ch
  have h1 : Canon s1 := canon_foldl h fun _ _ h => canon_resetPart h
  clear_value s1
  have h2 : Canon s2 := ⟨wf_filter _ h1.1, h1.2⟩
  exact canon_setChip h2

/-! ## Reliability (R176, R177, R375, R376) -/

theorem canon_endAtOnce {cause : Nat} (h : Canon s) : Canon (endAtOnce s ck cause) := by
  unfold endAtOnce
  split
  · exact h
  · exact canon_ite h (canon_sweepCard (canon_foldl (canon_stopCard h) fun _ _ h => canon_stopWarp h))

theorem canon_endCards {cks : List Nat} {cause : Nat} (h : Canon s) : Canon (endCards s cks cause) :=
  canon_foldl h fun _ _ h => canon_endAtOnce h

theorem canon_machineCheck {e : ErrSite} {time : Nat} (h : Canon s) : Canon (machineCheck s c e time) := by
  unfold machineCheck
  extract_lets cks ctx s1 s2
  have h2 : Canon s2 := canon_endCards (canon_logError h)
  split
  · exact canon_abandonCapture h2
  · exact h2

theorem canon_countError {time : Nat} (h : Canon s) : Canon (countError s c die slice time) :=
  canon_ite (canon_setChip h) (canon_checkRetire (canon_setChip h))

theorem canon_retireSlice (h : Canon s) : Canon (retireSlice s c die slice) := canon_ite h (canon_overlayTrim (canon_setChip h))

theorem canon_patrol {found : Option SramFault} {time : Nat} (h : Canon s) : Canon (patrol s c found time) := by
  unfold patrol
  split
  · exact h
  · exact canon_countError h
  · exact h
  · exact canon_machineCheck h
  · exact canon_machineCheck h

theorem canon_beatError {unit time : Nat} {second : Bool} (h : Canon s) : Canon (beatError s c die unit second time) :=
  canon_ite (canon_machineCheck h) h

/-! ## Links, beacons and silent peers (R331 to R334, R344) -/

theorem canon_portDown {q : Nat} (h : Canon s) : Canon (portDown s c q) := canon_failover (canon_updPort h)

theorem canon_failoverAll (h : Canon s) : Canon (failoverAll s) :=
  canon_foldl h fun _ _ h => canon_foldl h fun _ _ h => canon_failover h

theorem canon_raisePort {q : Nat} (h : Canon s) : Canon (raisePort s c q) := by
  unfold raisePort
  extract_lets ch s1
  have h1 : Canon s1 := canon_updPort h
  refine canon_ite h (canon_failoverAll ?_)
  split
  · exact h1
  · exact canon_foldl h1 fun _ _ h => canon_ite h (canon_resend (canon_takeFlits h))

theorem canon_portUp {q : Nat} (h : Canon s) : Canon (portUp s c q) := canon_ite (canon_raisePort h) h

theorem canon_trainingDone {q : Nat} (h : Canon s) : Canon (trainingDone s c q) := canon_ite (canon_raisePort h) h

theorem canon_trainingTimeout {q : Nat} (h : Canon s) : Canon (trainingTimeout s c q) := canon_ite (canon_failover (canon_updPort h)) h

theorem canon_replayLimit {q : Nat} (h : Canon s) : Canon (replayLimit s c q) := canon_ite (canon_portDown h) h

theorem canon_beaconSend (h : Canon s) : Canon (beaconSend s c) :=
  canon_ite h (canon_foldl (canon_setChip h) fun _ _ h => canon_sendFlit h)

theorem canon_beaconReceive {b : Beacon} (h : Canon s) : Canon (beaconReceive s c b) := canon_ite (canon_setChip h) h

theorem canon_deliver {q : Nat} {x : Flit} (h : Canon s) : Canon (deliver s c q x) := by
  unfold deliver
  extract_lets ch
  refine canon_ite ?_ (canon_putFlit h)
  split
  · exact canon_beaconReceive h
  · exact canon_ite h (canon_updPort h)

theorem canon_flitReceive {q : Nat} {ok : Bool} {x : Flit} (h : Canon s) : Canon (flitReceive s c q ok x) := by
  unfold flitReceive
  extract_lets s1
  have h1 : Canon s1 := by
    unfold s1
    split
    · exact canon_updPort h
    · exact h
  exact canon_ite (canon_updPort h1) (canon_ite h1 (canon_deliver (canon_updPort h1)))

theorem canon_peerSilent {i : Nat} (h : Canon s) : Canon (peerSilent s c i) := canon_ite (canon_endCards h) h

end

end Sys2Proof.Machine
end

section
/-! PROOF. O47: every step keeps memory in its canonical form (log 4). The operations of the model keep it one by one; here every
instruction, every event and every act that may be due does. -/

namespace Sys2Proof.Machine

/-- Where the machine goes on, the form is kept. -/
def CanonOut : Out → Prop
  | .next s => Canon s
  | _ => True

/-- An act keeps the form. -/
def CanonDue (f : Due) : Prop := ∀ {s : State}, Canon s → CanonOut (f s)

section
variable {s : State} {k c : Nat} {w : Warp}

/-! ## Instructions and events -/

theorem canon_issue {o : Op} {f : Long} {len : Nat} (h : Canon s) : CanonOut (issue o f len (bodyOf o f len) s) := by
  unfold issue
  split
  · trivial
  · split
    · trivial
    · exact canon_issueBody h

theorem canon_instr {i : Instr} (hi : i.core.isSome = true) (h : Canon s) : CanonOut (exec i s) := by
  obtain ⟨⟨o, f, len⟩, hcore⟩ := Option.isSome_iff_exists.1 hi
  rw [exec_core hcore]
  exact canon_issue h

theorem canon_event {i : Instr} (hi : i.core = none) (h : Canon s) : CanonOut (exec i s) := by
  cases i
  case runArbitration => exact canon_arbitrate h
  case localityScoreHalving => exact canon_setChip h
  case outstandingResultWrite => exact canon_writeResult h
  case loadConfirmation => exact canon_confirmLoad h
  case postedStorePerform => exact canon_postedPerform h
  case debuggerHalt => exact canon_debugHalt h
  case debuggerResume => exact canon_debugResume h
  case roundGateOpen => exact canon_gateOpen h
  case domainTurnGrant => exact canon_domainGrant h
  case groupTurnGrant => exact canon_groupGrant h
  case groupEnd => exact canon_endGroup h
  case publicationMerge => exact canon_mergePubs h
  case copyCompletion => exact canon_completeCopy h
  case pageWalkCompletion => exact canon_walkDone h
  case mailboxWindowWrite => exact canon_windowWrite h
  case admission => exact canon_admission h
  case fenceCompletion => exact canon_fenceCompletion h
  case completionRecord => exact canon_completionRecord h
  case groupPlacement => exact canon_placement h
  case spatialPreemption => exact canon_spatial h
  case preemptionWaitExpiry => exact canon_waitExpiry h
  case saveAreaExhausted => exact canon_saveExhausted h
  case allParked => exact canon_endParked h
  case remoteRequest => exact canon_servePend h
  case remoteReply => exact canon_remoteReply h
  case invocationArrival => exact canon_invocationArrival h
  case migrationMarker => exact canon_markerArrives h
  case flitReceive => exact canon_flitReceive h
  case flitAcknowledgement => exact canon_updPort h
  case replayRequest => exact canon_updPort h
  case replayLimitReached => exact canon_replayLimit h
  case laneLockLoss => exact canon_portDown h
  case portUp => exact canon_portUp h
  case linkTrainingComplete => exact canon_trainingDone h
  case linkTrainingTimeout => exact canon_trainingTimeout h
  case beaconSend => exact canon_beaconSend h
  case beaconReceive => exact canon_beaconReceive h
  case peerSilentTimeout => exact canon_peerSilent h
  case fshootAcknowledgement => exact canon_shootAck h
  case fshootTimeout => exact canon_shootTimeout h
  case savePointCapture => exact canon_beginCapture h
  case unitCopyComplete => exact canon_copyUnit h
  case manifestWrite => exact canon_writeManifest h
  case spareDrain => exact canon_drainUnit h
  case sramCorrectableError => exact canon_countError h
  case sliceRetirementComplete => exact canon_retireSlice h
  case sramPatrol => exact canon_patrol h
  case stackPatrolScrub => exact h
  case networkBeatCrcError => exact canon_beatError h
  case machineCheck => exact canon_machineCheck h
  case supplyDroop => exact canon_setChip h
  case supplyRecovery => exact canon_setChip h
  case powerLimitStep => exact canon_setChip h
  case deviceReset => exact canon_deviceReset h
  case hostWindowBAccess => exact canon_windowBAccess h
  case faultQueueTailWrite => exact canon_tailWrite h
  case registerWrite => exact canon_registerWrite h
  case createContext => exact canon_partCmd canon_createContext h
  case destroyContext => exact canon_partCmd canon_resetPart h
  case invalidate => exact canon_partCmd canon_invalidateCmd h
  case faultQueue => exact canon_partCmd canon_faultQueueCmd h
  case saveFull => exact canon_partCmd canon_setPart h
  case drainTarget => exact canon_partCmd canon_drainTargetCmd h
  case restore => exact canon_partCmd canon_restoreCmd h
  case replayRecord => exact canon_partCmd canon_replayCmd h
  case readHash => exact canon_partCmd canon_readHashCmd h
  case admissionPosition => exact canon_partCmd (fun h => h) h
  case sliceRegister => exact canon_partCmd canon_sliceCmd h
  case errorLog => exact canon_partCmd canon_errorLogCmd h
  case partitionMap => exact canon_sysCmd canon_partitionMapCmd h
  case fabricRegister => exact canon_sysCmd canon_fabricCmd h
  case enableMap => exact canon_sysCmd (fun h => h) h
  case invalidCommand => exact canon_invalidCmd h
  case commandCompletion => exact canon_commandDone h
  case mmaRetirement => exact canon_mmaRetire h
  case systemPreemptionRequest => exact canon_systemPreempt h
  all_goals cases hi

theorem canon_exec {i : Instr} (h : Canon s) : CanonOut (exec i s) := by
  cases hi : i.core with
  | none => exact canon_event hi h
  | some x => exact canon_instr (by rw [hi]; rfl) h

/-! ## The run being performed -/

theorem canon_runWarp (h : Canon s) : CanonOut (runWarp s k w) := by
  unfold runWarp
  extract_lets z
  split
  · split
    · exact canon_fetchRefusal h
    · exact canon_trapAt (canon_reportSecure (canon_walkTouch h))
    · exact canon_trapAt h
    next i len _ =>
    extract_lets s1
    have h1 : Canon s1 := canon_fillFrom h
    split
    · split
      · exact canon_exec h1
      · exact canon_trapAt h1
    · split
      · exact canon_endRun h1
      · exact canon_exec h1
  · exact canon_endRun h

/-! ## What is due (log 1) -/

/-- Every act of a list keeps the form. -/
abbrev CanonActs (l : List Due) : Prop := ∀ f ∈ l, CanonDue f

theorem canonActs_nil : CanonActs [] := fun _ hf => by cases hf

theorem canonActs_cons {f : Due} {l : List Due} (hf : CanonDue f) (hl : CanonActs l) : CanonActs (f :: l) := List.forall_mem_cons.2 ⟨hf, hl⟩

theorem canonActs_append {l m : List Due} (hl : CanonActs l) (hm : CanonActs m) : CanonActs (l ++ m) := List.forall_mem_append.2 ⟨hl, hm⟩

theorem canonActs_ite {q : Prop} [Decidable q] {l m : List Due} (hl : CanonActs l) (hm : CanonActs m) : CanonActs (if q then l else m) := by
  split <;> assumption

section
variable {α : Type} {l : List α}

theorem canonActs_map {g : α → Due} (h : ∀ x, CanonDue (g x)) : CanonActs (l.map g) := List.forall_mem_map.2 fun x _ => h x

theorem canonActs_flatMap {g : α → List Due} (h : ∀ x, CanonActs (g x)) : CanonActs (l.flatMap g) := by
  intro f hf
  obtain ⟨x, -, hx⟩ := List.mem_flatMap.1 hf
  exact h x f hx

theorem canonActs_filterMap {g : α → Option Due} (h : ∀ x, ∀ f ∈ g x, CanonDue f) : CanonActs (l.filterMap g) := by
  intro f hf
  obtain ⟨x, -, hx⟩ := List.mem_filterMap.1 hf
  exact h x f hx

theorem canonDue_map {x : Option α} {g : α → Due} (h : ∀ y, CanonDue (g y)) : ∀ f ∈ x.map g, CanonDue f := by
  intro f hf
  obtain ⟨y, -, rfl⟩ := Option.mem_map.1 hf
  exact h y

end

theorem canonActs_link {ch : Chip} : CanonActs (linkActs s c ch) := by
  refine canonActs_flatMap fun e => ?_
  split
  · exact canonActs_nil
  · refine canonActs_append (canonActs_append (canonActs_map fun _ _ h => canon_flitReceive h)
      (canonActs_ite (canonActs_cons canon_updPort canonActs_nil) canonActs_nil)) ?_
    split
    · exact canonActs_ite (canonActs_cons canon_updPort canonActs_nil) canonActs_nil
    · exact canonActs_nil

theorem canonActs_flight : CanonActs (flightActs s) := by
  have hwarp (e : Nat × Warp) : CanonActs (match e.2.stat with
      | .mma .. => [execMmaRetirement e.1]
      | .fshoot left .. => left.map fun c => execFshootAcknowledgement e.1 c
      | _ => []) := by
    split
    · exact canonActs_cons canon_mmaRetire canonActs_nil
    · exact canonActs_map fun _ _ h => canon_shootAck h
    · exact canonActs_nil
  exact canonActs_append (canonActs_append (canonActs_append
    (canonActs_flatMap fun e => canonActs_append (canonActs_append (canonActs_append (canonActs_append (hwarp e)
      (canonActs_ite canonActs_nil (canonActs_cons canon_confirmLoad canonActs_nil)))
      (canonActs_ite (canonActs_cons canon_servePend (canonActs_cons canon_remoteReply canonActs_nil)) canonActs_nil))
      (canonActs_ite (canonActs_cons canon_writeResult canonActs_nil) canonActs_nil))
      (canonActs_ite (canonActs_cons canon_postedPerform canonActs_nil) canonActs_nil))
    (canonActs_flatMap fun _ => canonActs_map fun _ _ h => canon_completeCopy h))
    (canonActs_map fun _ _ h => canon_markerArrives h))
    (canonActs_flatMap fun _ => canonActs_link)

theorem canonActs_chip : CanonActs (chipActs s) :=
  canonActs_append (canonActs_map fun _ _ h => canon_commandDone h) (canonActs_flatMap fun _ =>
    canonActs_append (canonActs_append (canonActs_ite (canonActs_cons canon_commandDone canonActs_nil) canonActs_nil)
      (canonActs_map fun _ _ h => canon_retireSlice h)) (canonActs_map fun _ _ h => canon_replayLimit h))

theorem canonActs_part : CanonActs (partActs s) := by
  refine canonActs_flatMap fun e => ?_
  have hcap : CanonActs (match e.2.save.cap with
      | some c => match c.left with
        | u :: _ => [execUnitCopyComplete e.1 u]
        | [] => [execManifestWrite e.1]
      | none => []) := by
    split
    · split
      · exact canonActs_cons canon_copyUnit canonActs_nil
      · exact canonActs_cons canon_writeManifest canonActs_nil
    · exact canonActs_nil
  exact canonActs_append (canonActs_append (canonActs_append (canonActs_append
    (canonActs_append (canonActs_cons canon_beginCapture canonActs_nil) hcap)
    (canonActs_ite canonActs_nil (canonActs_cons canon_drainUnit canonActs_nil)))
    (canonActs_filterMap fun _ => canonDue_map fun _ _ h => canon_fenceCompletion h))
    (canonActs_filterMap fun _ => canonDue_map fun _ _ h => canon_completionRecord h))
    (canonActs_cons canon_admission (canonActs_cons canon_invocationArrival (canonActs_cons canon_placement canonActs_nil)))

theorem canonDue_settleTables : CanonDue settleTables := fun h => canon_foldl h fun _ _ h => canon_tktIdle h

theorem canonActs_turn : CanonActs (turnActs s) := by
  refine canonActs_append (canonActs_append (canonActs_append (canonActs_append (canonActs_filterMap fun e f hf => ?_)
    (canonActs_flatMap fun _ => canonActs_cons canon_endGroup (canonActs_cons canon_groupGrant canonActs_nil)))
    (canonActs_map fun _ _ h => canon_domainGrant h)) (canonActs_cons canonDue_settleTables canonActs_nil))
    (canonActs_map fun _ _ h => canon_mergePubs h)
  split at hf
  · cases hf
    exact canon_gateOpen
  · cases hf

theorem canonActs_slot : CanonActs (slotActs s) := canonActs_filterMap fun _ => canonDue_map fun _ _ h => canon_arbitrate h

theorem canonActs_last : CanonActs (lastActs s) := by
  refine canonActs_append (canonActs_append (canonActs_append (canonActs_append (canonActs_map fun _ _ h => canon_beaconSend h)
    (canonActs_filterMap fun _ => canonDue_map fun _ _ h => canon_spatial h)) (canonActs_map fun _ _ h => canon_saveExhausted h))
    (canonActs_map fun _ _ h => canon_endParked h)) (canonActs_filterMap fun e f hf => ?_)
  split at hf
  · cases hf
    exact canon_shootTimeout
  · cases hf

theorem canon_firstAct {l : List Due} {t : State} (hl : CanonActs l) (h : Canon s) (ht : firstAct s l = some t) : Canon t := by
  obtain ⟨f, hf, hchanged⟩ := List.exists_of_findSome?_eq_some ht
  have hout : CanonOut (f s) := hl f hf h
  unfold changed at hchanged
  split at hchanged
  next heq =>
    rw [heq] at hout
    split at hchanged
    · cases hchanged
    · cases hchanged
      exact hout
  · cases hchanged

theorem canon_idleStep (h : Canon s) : Canon (idleStep s) := by
  have hacts : CanonActs (flightActs s ++ chipActs s ++ partActs s ++ turnActs s ++ slotActs s ++ lastActs s) :=
    canonActs_append (canonActs_append (canonActs_append (canonActs_append (canonActs_append canonActs_flight canonActs_chip)
      canonActs_part) canonActs_turn) canonActs_slot) canonActs_last
  unfold idleStep
  cases ht : firstAct s _ with
  | none => exact h
  | some t => exact canon_firstAct hacts h ht

theorem canon_nextStep (h : Canon s) : CanonOut (nextStep s) := by
  unfold nextStep
  split
  · exact canon_exec h
  · split
    · split
      · exact canon_runWarp h
      · exact canon_freeSlot h
    · exact canon_idleStep h

end

/-- Settles O47: every operation of the model keeps the form (the lemmas `canon_…`), and a step is one of them. -/
theorem stepsKeepMemoryCanonical : Obligations.StepsKeepMemoryCanonical := by
  intro s t hs ht
  have hout : CanonOut (nextStep s) := canon_nextStep (canon_iff.2 hs)
  have hnext : nextStep s = .next t := ht
  rw [hnext] at hout
  exact canon_iff.1 hout

end Sys2Proof.Machine
end

section
/-! PROOF. O32: `MIGR` and `FSHOOT` (R341, R349, R350). -/

namespace Sys2Proof.Machine

/-! ## A page's bytes after its move (R341) -/

theorem rdByte_filter_key (q : Nat → Bool) (m : Memory) (i : Nat) :
    rdByte (m.filter fun e => q e.1) i = if q i then rdByte m i else 0 := by
  unfold rdByte sget
  rw [kfind_filter_key]
  split <;> rfl

section
variable {old new size j : Nat}

/-- Copied bytes leave a byte outside their destination alone. -/
theorem rdByte_copied_out (l r : Memory) (hl : ∀ e ∈ l, old ≤ e.1 ∧ e.1 < old + size) (hj : j < new ∨ new + size ≤ j) :
    rdByte (l.foldl (fun r e => wrByte r (new + (e.1 - old)) e.2) r) j = rdByte r j := by
  induction l generalizing r with
  | nil => rfl
  | cons e l ih =>
    obtain ⟨hlow, hhigh⟩ := hl e List.mem_cons_self
    rw [List.foldl_cons, ih _ fun x hx => hl x (List.mem_cons_of_mem _ hx), rdByte_wrByte_ne _ _ (by omega)]

/-- A byte at offset `j` of the destination is the copied one, where the source lists one. -/
theorem rdByte_copied (l r : Memory) (hl : ∀ e ∈ l, old ≤ e.1) (hd : l.Pairwise fun a b => a.1 < b.1) (hr : r.wf = true) :
    rdByte (l.foldl (fun r e => wrByte r (new + (e.1 - old)) e.2) r) (new + j) = (kfind l (old + j)).getD (rdByte r (new + j)) := by
  induction l generalizing r with
  | nil => rfl
  | cons e l ih =>
    obtain ⟨hbelow, hrest⟩ := List.pairwise_cons.1 hd
    have hlow : old ≤ e.1 := hl e List.mem_cons_self
    rw [List.foldl_cons, ih _ (fun x hx => hl x (List.mem_cons_of_mem _ hx)) hrest (wf_wrByte _ _ hr), rdByte_wrByte _ _ _ hr]
    by_cases he : e.1 = old + j
    · have hnone : kfind l (old + j) = none := by
        rw [← he]
        exact kfind_below ((krising_iff l (some e.1)).2 ⟨fun _ h x hx => by cases h; exact hbelow x hx, hrest⟩) (Nat.le_refl _)
      rw [hnone, if_pos (by omega)]
      simp [kfind, he]
    · rw [if_neg (by omega)]
      simp [kfind, he]

variable {m : Memory} {closed : Nat → Bool}

/-- Outside the new page a move changes no byte. -/
theorem rdByte_movePage_out (hj : j < new ∨ new + size ≤ j) : rdByte (movePage m old new size closed) j = rdByte m j := by
  unfold movePage
  rw [rdByte_copied_out (size := size) _ _ (fun e he => by simp_all [List.mem_filter]) hj,
    rdByte_filter_key fun i => !(decide (new ≤ i) && decide (i < new + size) && !closed (i - new))]
  have hout : (decide (new ≤ j) && decide (j < new + size)) = false := by
    rw [Bool.and_eq_false_iff, decide_eq_false_iff_not, decide_eq_false_iff_not]
    omega
  rw [hout]
  rfl

/-- A byte of the new page is the old page's, but at a closed offset, where it stays. -/
theorem rdByte_movePage (h : m.wf = true) (hj : j < size) :
    rdByte (movePage m old new size closed) (new + j) = if closed j then rdByte m (new + j) else rdByte m (old + j) := by
  have hd : m.Pairwise fun a b => a.1 < b.1 := ((krising_iff m none).1 (swf_iff.1 h).1).2
  have hold : old ≤ old + j ∧ old + j < old + size := by omega
  have hnew : new ≤ new + j ∧ new + j < new + size := by omega
  unfold movePage
  rw [rdByte_copied _ _ (fun e he => by simp_all [List.mem_filter]) (hd.filter _) (wf_filter _ h),
    rdByte_filter_key fun i => !(decide (new ≤ i) && decide (i < new + size) && !closed (i - new)),
    kfind_filter_key fun i => decide (old ≤ i) && decide (i < old + size) && !closed (i - old)]
  simp only [hold, hnew, Nat.add_sub_cancel_left, decide_true, Bool.true_and, Bool.not_not]
  cases closed j <;> rfl

end

/-! ## The state that a move of a page leaves -/

theorem kinsert_map {α β : Type} (g : α → β) (m : KMap α) (k : Nat) (x : α) :
    kinsert (m.map fun e => (e.1, g e.2)) k (g x) = (kinsert m k x).map fun e => (e.1, g e.2) := by
  induction m with
  | nil => rfl
  | cons e m ih =>
    simp only [List.map_cons, kinsert]
    split
    · rfl
    · split
      · rfl
      · rw [ih, List.map_cons]

theorem reportAt_memOnly (s : State) (c a : Nat) : MemOnly s (reportAt s c a) := setChip_memOnly ..

theorem moveReports_memOnly (s : State) (sec : Bool) (old new size : Nat) : MemOnly s (moveReports s sec old new size) :=
  .foldl (fun _ _ => reportAt_memOnly ..) _ s

theorem l1Drop_memOnly (s : State) (hit : Nat → Bool) : MemOnly s (l1Drop s hit) := rfl

/-- The state `u` lists at `k` a warp whose course is that of `w`, and whose card is not stopped. -/
structure Stands (u : State) (k : Nat) (w : Warp) : Prop where
  listed : ∀ v, getWarp u k = some v → Lists u k v
  course : ∀ v, getWarp u k = some v → v.stat = w.stat ∧ v.sys = w.sys
  running : Running u k

theorem Stands.of_memOnly {s u : State} {k : Nat} {w : Warp} (h : Stands s k w) (hm : MemOnly s u) : Stands u k w where
  listed v hv := (h.listed v ((hm.getWarp k).symm.trans hv)).sameWarps hm.sameWarps
  course v hv := h.course v ((hm.getWarp k).symm.trans hv)
  running := hm.keepsStops.running h.running

theorem Lists.stands {s : State} {k : Nat} {w : Warp} (hl : Lists s k w) (hr : Running s k) : Stands s k w where
  listed _ hv := Option.some.inj (hl.warp.symm.trans hv) ▸ hl
  course _ hv := Option.some.inj (hl.warp.symm.trans hv) ▸ ⟨rfl, rfl⟩
  running := hr

/-- A change of every hand, with whatever happens to memory, publications, groups and pages on the move, leaves every warp's course. -/
theorem Lists.stands_hands {s : State} {k : Nat} {w : Warp} (hl : Lists s k w) (hr : Running s k) (g : Hand → Hand) (m : Memory)
    (pubs : List Pub) (groups : KMap Group) (forwards : List Forward) (markers : List (Nat × Nat)) :
    Stands { s with mem := m, pubs := pubs, warps := s.warps.map fun x => (x.1, { x.2 with hand := g x.2.hand }), groups := groups
                    forwards := forwards, markers := markers } k w := by
  have hlist : Lists { s with mem := m, pubs := pubs, warps := s.warps.map fun x => (x.1, { x.2 with hand := g x.2.hand })
                              groups := groups, forwards := forwards, markers := markers } k { w with hand := g w.hand } := by
    refine lists_iff.2 ((kinsert_map (fun v : Warp => { v with hand := g v.hand }) s.warps k w).trans ?_)
    rw [lists_iff.1 hl]
  obtain ⟨hlisted, hcourse, hrunning⟩ := hlist.stands hr
  exact ⟨hlisted, hcourse, hrunning⟩

/-- A move changes the hands of warps, and no warp's course. -/
theorem movePageTo_stands {s : State} {k p old new idx pa : Nat} {w : Warp} {sec : Bool} {t : Tlb} (hl : Lists s k w) (hr : Running s k) :
    Stands (movePageTo s p sec t old new idx pa) k w := by
  unfold movePageTo
  extract_lets c n e s1 inside s2 s3 s4 s5 ch
  have hstands : Stands s1 k w := hl.stands_hands hr ..
  clear_value s1
  exact hstands.of_memOnly ((((((dropTlb_memOnly ..).trans (sliceDrop_memOnly ..)).trans (l1Drop_memOnly ..)).trans
    (sliceTouch_memOnly ..)).trans (overlayTrim_memOnly ..)).trans ((moveReports_memOnly ..).trans (setChip_memOnly ..)))

end Sys2Proof.Machine
end

section
/-! PROOF. O32: how `MIGR` and `FSHOOT` end (R349, R350). -/

namespace Sys2Proof.Machine

/-! ## The effects of `MIGR` by their cases (R349) -/

section
variable {x m : Dword} {sec : Bool} {s : State} {p : Nat} {t : Tlb}

/-- The destination of `MIGR.move` is a place for the page, as far as its own chip can tell. -/
def MovePlace (x : Dword) (s : State) (p : Nat) (t : Tlb) : Prop :=
  x.toNat < 2 ^ 56 ∧ x.toNat % 2 ^ 12 = 0 ∧ x.toNat % 2 ^ 52 % t.size = 0 ∧ x.toNat % 2 ^ 52 < deviceSize ∧
    x.toNat / 2 ^ 52 % 16 ≤ (getChip s (chipOf p)).isize.toNat

theorem not_movePlace_iff : ¬MovePlace x s p t ↔ x.toNat / 2 ^ 56 ≠ 0 ∨ x.toNat % 2 ^ 12 ≠ 0 ∨ x.toNat % 2 ^ 52 % t.size ≠ 0 ∨
    deviceSize ≤ x.toNat % 2 ^ 52 ∨ (getChip s (chipOf p)).isize.toNat < x.toNat / 2 ^ 52 % 16 := by
  unfold MovePlace
  have hdiv : x.toNat / 2 ^ 56 ≠ 0 ↔ ¬x.toNat < 2 ^ 56 := by rw [Ne, Nat.div_eq_zero_iff]; omega
  rw [hdiv, ← Nat.not_lt (a := x.toNat % 2 ^ 52), ← Nat.not_le (a := x.toNat / 2 ^ 52 % 16)]
  tauto

theorem migrMove_replicated (h : leafMode t.leaf = 2) : migrMove x sec s p t = (5, s) := if_pos h

section
variable (hmode : leafMode t.leaf ≠ 2)
include hmode

theorem migrMove_moved (h : pageMoved s (physKey (leafHome s (chipOf p) t.leaf) (leafPa t.leaf)) = true) :
    migrMove x sec s p t = (1, s) := (if_neg hmode).trans (if_pos h)

variable (hstill : pageMoved s (physKey (leafHome s (chipOf p) t.leaf) (leafPa t.leaf)) = false)
include hstill

theorem migrMove_home (h : x.toNat / 2 ^ 52 % 16 = if leafMode t.leaf = 0 then myIndex s (chipOf p) else leafPeer t.leaf) :
    migrMove x sec s p t = (2, s) := (if_neg hmode).trans ((if_neg (by simp [hstill])).trans (if_pos h))

variable (haway : x.toNat / 2 ^ 52 % 16 ≠ if leafMode t.leaf = 0 then myIndex s (chipOf p) else leafPeer t.leaf)
include haway

theorem migrMove_noPlace (h : ¬MovePlace x s p t) : migrMove x sec s p t = (4, s) :=
  (if_neg hmode).trans ((if_neg (by simp [hstill])).trans ((if_neg haway).trans (if_pos (not_movePlace_iff.1 h))))

/-- At a place of the island, the chip of that index decides. -/
theorem migrMove_place (h : MovePlace x s p t) : migrMove x sec s p t =
    match domChip s (chipOf p) (x.toNat / 2 ^ 52 % 16) with
    | none => (4, s)
    | some c => (0, movePageTo s p sec t (physKey (leafHome s (chipOf p) t.leaf) (leafPa t.leaf)) (physKey c (x.toNat % 2 ^ 52))
        (x.toNat / 2 ^ 52 % 16) (x.toNat % 2 ^ 52)) :=
  (if_neg hmode).trans ((if_neg (by simp [hstill])).trans ((if_neg haway).trans (if_neg (mt not_movePlace_iff.2 (not_not.2 h)))))

theorem migrMove_noChip (h : domChip s (chipOf p) (x.toNat / 2 ^ 52 % 16) = none) : migrMove x sec s p t = (4, s) := by
  by_cases hplace : MovePlace x s p t
  · rw [migrMove_place hmode hstill haway hplace, h]
  · exact migrMove_noPlace hmode hstill haway hplace

theorem migrMove_moves (h : MovePlace x s p t) {c : Nat} (hc : domChip s (chipOf p) (x.toNat / 2 ^ 52 % 16) = some c) :
    migrMove x sec s p t = (0, movePageTo s p sec t (physKey (leafHome s (chipOf p) t.leaf) (leafPa t.leaf)) (physKey c (x.toNat % 2 ^ 52))
      (x.toNat / 2 ^ 52 % 16) (x.toNat % 2 ^ 52)) := by
  rw [migrMove_place hmode hstill haway h, hc]

end

theorem migrSet_refused {v m : Dword}
    (h : let e := (rdEntry s t.entry &&& ~~~m) ||| (v &&& m)
      m &&& ~~~migrMask ≠ 0 ∨ leafFits t e = false ∨ leafPlace s p e = false) : migrSet v m s p t = (4, s) := if_pos h

theorem migrSet_sets {v m : Dword}
    (h : let e := (rdEntry s t.entry &&& ~~~m) ||| (v &&& m)
      ¬(m &&& ~~~migrMask ≠ 0 ∨ leafFits t e = false ∨ leafPlace s p e = false)) : migrSet v m s p t =
    (0, dropTlb (sliceTouch { s with mem := wrBytes s.mem t.entry (leBytes 8 ((rdEntry s t.entry &&& ~~~m) ||| (v &&& m)).toNat) } true 0
      t.entry) (chipOf p) fun y => tlbHit y t.ctx t.base) := if_neg h

/-- The page word of `MIGR.query`. -/
theorem migrQuery_eq : migrQuery s p t =
    (BitVec.ofNat 64 (countOf (getChip s (chipOf p)) t.base t.ctx + leafThr t.leaf * 2 ^ 32 + leafMode t.leaf * 2 ^ 34 +
      (leafRap t.leaf).toNat * 2 ^ 36 + (leafRo t.leaf).toNat * 2 ^ 37 + leafPeer t.leaf * 2 ^ 40), s) := by
  have hbit (b : Bool) (n : Nat) : (if b then 2 ^ n else 0) = b.toNat * 2 ^ n := by cases b <;> simp
  unfold migrQuery
  simp only [hbit]

end

/-! ## How they end -/

theorem writeMem_memOnly (s : State) (m : Memory) : MemOnly s { s with mem := m } := rfl

section
variable {i : Instr} {s s1 : State} {k len : Nat} {o : Op} {f : Long} {w : Warp}

theorem bodyOf_migrMove : bodyOf .migrMove f len s k w = migrBody f (migrMove (rdS w f.b.toNat) w.sec) s k w := by
  unfold bodyOf migrMoveBody
  rfl

theorem bodyOf_migrSet : bodyOf .migrSet f len s k w = migrBody f (migrSet (rdS w f.b.toNat) (rdS w f.c.toNat)) s k w := by
  unfold bodyOf migrSetBody
  rfl

theorem bodyOf_migrQuery : bodyOf .migrQuery f len s k w = migrBody f migrQuery s k w := by
  unfold bodyOf migrQueryBody
  rfl

/-- A `MIGR` that passes its check writes the status that its effect gives, in the state that the effect leaves. -/
theorem migr_ends (hp : Performs i s k o f len s1 w) {g : State → Nat → Tlb → Dword × State} {t : Tlb} {st : Dword} {u : State}
    (hb : bodyOf o f len s1 k w = migrBody f g s1 k w) (hx : migrXlat s1 (siteOf s1 k) w.sec (rdS w f.a.toNat) = .ok t)
    (hg : g (walkTouch s1 (siteOf s1 k) (rdS w f.a.toNat).toNat) (partOf k) t = (st, u)) (hu : Stands u k w) :
    ∀ v, getWarp u k = some v → Retires i s k o f len u (wrS v f.d.toNat st) := by
  intro v hv
  obtain ⟨hstat, hsys⟩ := hu.course v hv
  have hbody : bodyOf o f len s1 k w = .retire (setWarp u k (wrS v f.d.toNat st)) .next none id := by
    rw [hb, migrBody_of_ok hx, hg, ← (hu.listed v hv).updWarp fun v => wrS v f.d.toNat st]
  exact (retires_listed hp hbody (lists_setWarp ..) hu.running ((wrS_effect ..).stat.trans (hstat.trans (performs_ready hp)))
    ((wrS_sys ..).trans hsys)).of_setWarp

/-- `FSHOOT` waits for the chips that it reaches. -/
theorem fshoot_waits (hp : Performs i s k o f len s1 w) {va : Option Nat} (hb : bodyOf o f len s1 k w = fshootBody f len va s1 k w) :
    Becomes i s k (setWarp s1 k { w with
      pending := false
      stat := .fshoot (shootChips s1 (chipOf (partOf k))) va ((rdS w f.b.toNat).toNat % 2 ^ 16) f.d.toNat len f.fl.en }) := by
  refine becomes_law hp hb ?_
  unfold waitIn
  rw [(performs_lists hp).updWarp, (lists_setWarp ..).updWarp, setWarp_setWarp]
  exact endRun_upTo (lists_setWarp ..).warp

end

/-! ## O32 -/

/-- Settles O32: each effect of `MIGR` by its cases, with `migr_ends`; a moved page's bytes by `rdByte_movePage`; `FSHOOT` by
`fshoot_waits`. -/
theorem migrAndFshoot : Obligations.MigrAndFshoot := by
  intro i s s1 k len o f w hp p c x m ends
  refine ⟨fun t s2 hx hs2 => ?migr, fun m old new size j closed hwf _ => ⟨rdByte_movePage hwf, rdByte_movePage_out⟩, fun ho => ?fshoot⟩
  case migr =>
    have hmem : MemOnly s1 s2 := hs2 ▸ walkTouch_memOnly ..
    have hlist : Lists s2 k w := (performs_lists hp).sameWarps hmem.sameWarps
    have hrun : Running s2 k := hmem.keepsStops.running (performs_runs hp)
    have hstands : Stands s2 k w := hlist.stands hrun
    intro old idx pa e place home may
    refine ⟨fun ho => ?move, fun ho => ?set, fun ho => ?query⟩
    case move =>
      subst ho
      have hends {st : Dword} {u : State} (hg : migrMove x w.sec s2 p t = (st, u)) (hu : Stands u k w) : ends u st :=
        migr_ends hp bodyOf_migrMove hx (hs2 ▸ hg) hu
      refine ⟨fun hmode => hends (migrMove_replicated hmode) hstands, fun hmode hmoved => hends (migrMove_moved hmode hmoved) hstands,
        fun hmode hstill hhome => hends (migrMove_home hmode hstill hhome) hstands, ?_, ?_⟩
      · rintro ⟨hmode, hstill, haway⟩ (hplace | hchip)
        · exact hends (migrMove_noPlace hmode hstill haway hplace) hstands
        · exact hends (migrMove_noChip hmode hstill haway hchip) hstands
      · rintro ⟨hmode, hstill, haway⟩ hplace c' hchip
        exact hends (migrMove_moves hmode hstill haway hplace hchip) (movePageTo_stands hlist hrun)
    case set =>
      subst ho
      have hends {st : Dword} {u : State} (hg : migrSet x m s2 p t = (st, u)) (hu : Stands u k w) : ends u st :=
        migr_ends hp bodyOf_migrSet hx (hs2 ▸ hg) hu
      exact ⟨fun hbad => hends (migrSet_refused hbad) hstands, fun hgood => hends (migrSet_sets hgood) (hstands.of_memOnly
        (((writeMem_memOnly ..).trans (sliceTouch_memOnly ..)).trans (dropTlb_memOnly ..)))⟩
    case query =>
      subst ho
      exact migr_ends hp bodyOf_migrQuery hx (hs2 ▸ migrQuery_eq) hstands
  case fshoot =>
    obtain rfl | rfl := ho
    · exact fshoot_waits hp rfl
    · exact fshoot_waits hp rfl

end Sys2Proof.Machine
end
